-- ==== Sys2Proof/Word.lean ====
section
/-! DEFINITION. The byte of the wire and image formats (chapter 13). Every other quantity of the NS6140 is a count, an
amount or a time, and is a natural number. -/

namespace Sys2Proof

/-- One byte of a link frame, a card image, a tag image or a record body (R199, R200). -/
abbrev Byte := BitVec 8

end Sys2Proof
end

