-- ==== Sys2Proof/Syntax.lean ====
section
/-! DEFINITION. The commands of the NS6140: one constructor of `Instr` for each row of spec/opcode_table.json, with the
operands that the rule of the row gives it, and the requests of the link's catalogue (11.5) that the holding list keeps. -/

namespace Sys2Proof

/-- The four dock strings (R1). -/
inductive StringName
  | a | b | c | d
deriving DecidableEq, Repr

/-- The ten regions of the retained store, in the order of R194's table. -/
inductive RegionName
  | settings | plans | tariffs | denyList | passes | openHires | settle | journal | hireCount | epoch
deriving DecidableEq, Repr

/-- The two copies of a region, by age (R194): the copy written last and the copy written before it. -/
inductive CopyRole
  | newer | older
deriving DecidableEq, Repr

/-- The node's power state in a reply (R3). -/
inductive PowerState
  | normal | low
deriving DecidableEq, Repr

/-- The outcome a reply gives for the latest command taken (R3). -/
inductive NodeOutcome
  | working | done | failed
deriving DecidableEq, Repr

/-- The two kinds of LOCK_FAIL (R5). -/
inductive LockFailKind
  | jam | sensor
deriving DecidableEq, Repr

/-- The lock position a CENSUS carries (R8). -/
inductive LockPosition
  | locked | unlocked
deriving DecidableEq, Repr

/-- The causes of a CENSUS (R8). -/
inductive CensusCause
  | demand | restart | overflow
deriving DecidableEq, Repr

/-- A node event as it stands in a reply, before the DLC's checks (R5). An image is the bytes the node read, or `none`
where the node read nothing. -/
inductive NodeEvent
  | present (image : Option (List Byte))
  | removed
  | locked
  | unlocked
  | lockFail (kind : LockFailKind)
  | tap (image : Option (List Byte))
  | keypad (digits : List Nat)
  | faultKey (kind : Nat)
  | census (lock : LockPosition) (present : Bool) (image : Option (List Byte)) (cause : CensusCause)
deriving DecidableEq, Repr

/-- A node reply (R3): `checkOk` says whether its check sequence holds; `taken` is the number of the latest command taken. -/
structure NodeReply where
  checkOk : Bool
  address : Nat
  taken : Option Nat
  outcome : NodeOutcome
  power : PowerState
  event : Option (Nat × NodeEvent)
deriving DecidableEq, Repr

/-- One entry of the plans table (R46). -/
structure Plan where
  admitted : Bool
  freeMinutes : Nat
  percent : Nat
  unlockFee : Nat
  ceiling : Nat
  hireLimit : Nat
deriving DecidableEq, Repr, Inhabited

/-- The six fields of a PLAN_SET as received; `admitted` is a choice, 1 for yes and 2 for no (R46, R200). -/
structure PlanArgs where
  admitted : Nat
  freeMinutes : Nat
  percent : Nat
  unlockFee : Nat
  ceiling : Nat
  hireLimit : Nat
deriving DecidableEq, Repr

/-- The mode of a TARIFF_COMMIT as received (R84). -/
inductive CommitArg
  | now
  | at (time : Nat)
  | cancel
  | other (code : Nat)
deriving DecidableEq, Repr

/-- The target of a RIDER_REPORT: a dock number or a bike id (R117). -/
inductive TargetArg
  | dock (number : Nat)
  | bike (id : Nat)
  | other (choice : Nat)
deriving DecidableEq, Repr

/-- The reporter of a RIDER_REPORT: a member id, a pass slot, or anonymous (R117). -/
inductive ReporterArg
  | member (id : Nat)
  | passSlot (slot : Nat)
  | anonymous
  | other (choice : Nat)
deriving DecidableEq, Repr

/-- One manifest entry of a VAN_OPEN as received (R135): `kind` is 1 for COLLECT and 2 for DELIVER; `selector` is 1 to 4
in R134's order; `endMark` is set on the last entry. -/
structure ManifestArg where
  kind : Nat
  selector : Option Nat
  count : Nat
  endMark : Bool
deriving DecidableEq, Repr

/-- A request as the holding list keeps it: the requests of the catalogue (11.5) with their fields as received, and the two
that the link answers itself by R183. -/
inductive Request
  | statusGet
  | timeSet (time : Nat)
  | settingSet (setting value : Nat)
  | settingGet (setting : Nat)
  | reset (mode : Nat)
  | stringReset (string : Nat)
  | dockGet (dock : Nat)
  | dockList
  | planSet (code : Nat) (fields : PlanArgs)
  | planGet (code : Nat)
  | terminalAuth (terminal kind hold : Nat) (authRef : List Byte)
  | passGet (slot : Nat)
  | passCancel (slot serial : Nat)
  | tariffStageBand (band : Nat) (edge : Option Nat) (block rate : Nat)
  | tariffStageClear
  | tariffCommit (mode : CommitArg)
  | tariffGet (selector : Nat)
  | policySet (kind cls count : Nat)
  | policyGet (kind : Nat)
  | riderReport (target : TargetArg) (kind source : Nat) (reporter : ReporterArg)
  | vanOpen (van crew : Nat) (manifest : List ManifestArg)
  | vanRelease (dock : Nat)
  | vanClose (session : Nat)
  | vanGet
  | journalRead (count : Nat)
  | journalAck (epoch sequence result : Nat)
  | journalReoffer
  | linkState (value : Nat)
  | directive (id kind : Nat) (args : List Byte)
  | badKind (kind : Nat)
  | badLength (kind : Nat)
deriving DecidableEq, Repr

/-- The commands: one constructor for each row of spec/opcode_table.json, in the table's order. A request row carries the
request's tag (11.1) and its fields; a row of the dock line names its string, a row of one dock names the dock, and a row of
one settle entry, pass or region names it. -/
inductive Instr
  /-- POWER_ON (R196). -/
  | powerOn
  /-- POWER_LOSS (R194): the regions whose write the loss interrupts. -/
  | powerLoss (interrupted : List RegionName)
  /-- START_UP (R196): the copies that fail their check. -/
  | startUp (failing : List (RegionName × CopyRole))
  /-- START (R196). -/
  | start
  /-- CENSUS_LIMIT_EXPIRY (R197). -/
  | censusLimitExpiry
  /-- DOCK_CENSUS (R197). -/
  | dockCensus
  /-- POLL (R2). -/
  | poll (string : StringName)
  /-- POLL_REPLY (R3). -/
  | pollReply (string : StringName) (reply : NodeReply)
  /-- MISSED_POLL (R2). -/
  | missedPoll (string : StringName)
  /-- SILENCE_TIMEOUT (R7). -/
  | silenceTimeout (dock : Nat)
  /-- TAG_WRITE_TIMEOUT (R12). -/
  | tagWriteTimeout (dock : Nat)
  /-- UNLOCK_TIMEOUT (R13). -/
  | unlockTimeout (dock : Nat)
  /-- LOCK_TIMEOUT (R13). -/
  | lockTimeout (dock : Nat)
  /-- RELEASE_WINDOW_EXPIRY (R28). -/
  | releaseWindowExpiry (dock : Nat)
  /-- RELOCK_RETRY_EXPIRY (R29). -/
  | relockRetryExpiry (dock : Nat)
  /-- OFFLINE_TIMER_EXPIRY (R127). -/
  | offlineTimerExpiry (dock : Nat)
  /-- SETTLE_DEADLINE (R104): the bike of the HELD entry. -/
  | settleDeadline (bike : Nat)
  /-- HIRE_CLOSE (R109). -/
  | hireClose
  /-- HIRE_AGE_EXAMINATION (R58). -/
  | hireAgeExamination
  /-- PASS_LIMIT_EXAMINATION (R73). -/
  | passLimitExamination
  /-- PASS_EXPIRY (R72). -/
  | passExpiry (slot : Nat)
  /-- PASS_SETTLE (R75). -/
  | passSettle
  /-- TARIFF_APPLY_AT (R86). -/
  | tariffApplyAt
  /-- TARIFF_APPLIED (R88). -/
  | tariffApplied
  /-- CLOCK_STEP (R193). -/
  | clockStep
  /-- VAN_IDLE_TIMEOUT (R149). -/
  | vanIdleTimeout
  /-- VAN_MOVE (R152). -/
  | vanMove
  /-- VAN_SUMMARY (R153). -/
  | vanSummary
  /-- FAULT (R131). -/
  | fault
  /-- FRAME_GAP_TIMEOUT (R182): the bytes that arrive as the search for a start byte resumes, none where the link stays quiet. -/
  | frameGapTimeout (bytes : List Byte)
  /-- BAD_KIND (R183): a frame that passed R182, by its kind, tag and body. -/
  | badKind (kind tag : Nat) (body : List Byte)
  /-- REPLY_SENT (R185). -/
  | replySent
  /-- NOTICE_SENT (R188). -/
  | noticeSent
  /-- STATUS_GET (R189). -/
  | statusGet (tag : Nat)
  /-- TIME_SET (R193). -/
  | timeSet (tag time : Nat)
  /-- SETTING_SET (R195). -/
  | settingSet (tag setting value : Nat)
  /-- SETTING_GET (R195). -/
  | settingGet (tag setting : Nat)
  /-- RESET_WARM (R198). -/
  | resetWarm (tag : Nat)
  /-- RESET_STORE (R198). -/
  | resetStore (tag : Nat)
  /-- STRING_RESET (R16). -/
  | stringReset (tag string : Nat)
  /-- DOCK_GET (R44). -/
  | dockGet (tag dock : Nat)
  /-- DOCK_LIST (R44). -/
  | dockList (tag : Nat)
  /-- PLAN_SET (R47). -/
  | planSet (tag code : Nat) (fields : PlanArgs)
  /-- PLAN_GET (R47). -/
  | planGet (tag code : Nat)
  /-- TERMINAL_AUTH (R63). -/
  | terminalAuth (tag terminal kind hold : Nat) (authRef : List Byte)
  /-- PASS_GET (R76). -/
  | passGet (tag slot : Nat)
  /-- PASS_CANCEL (R74). -/
  | passCancel (tag slot serial : Nat)
  /-- TARIFF_STAGE_BAND (R81). -/
  | tariffStageBand (tag band : Nat) (edge : Option Nat) (block rate : Nat)
  /-- TARIFF_STAGE_CLEAR (R82). -/
  | tariffStageClear (tag : Nat)
  /-- TARIFF_COMMIT_NOW (R84). -/
  | tariffCommitNow (tag : Nat)
  /-- TARIFF_COMMIT_AT (R84). -/
  | tariffCommitAt (tag time : Nat)
  /-- TARIFF_COMMIT_CANCEL (R85). -/
  | tariffCommitCancel (tag : Nat)
  /-- TARIFF_GET (R89). -/
  | tariffGet (tag selector : Nat)
  /-- POLICY_SET (R116). -/
  | policySet (tag kind cls count : Nat)
  /-- POLICY_GET (R116). -/
  | policyGet (tag kind : Nat)
  /-- RIDER_REPORT (R117). -/
  | riderReport (tag : Nat) (target : TargetArg) (kind source : Nat) (reporter : ReporterArg)
  /-- VAN_OPEN (R135). -/
  | vanOpen (tag van crew : Nat) (manifest : List ManifestArg)
  /-- VAN_RELEASE (R141). -/
  | vanRelease (tag dock : Nat)
  /-- VAN_CLOSE (R150). -/
  | vanClose (tag session : Nat)
  /-- VAN_GET (R154). -/
  | vanGet (tag : Nat)
  /-- JOURNAL_READ (R161). -/
  | journalRead (tag count : Nat)
  /-- JOURNAL_ACK_ACCEPTED (R163). -/
  | journalAckAccepted (tag epoch sequence : Nat)
  /-- JOURNAL_ACK_FATAL (R163). -/
  | journalAckFatal (tag epoch sequence : Nat)
  /-- JOURNAL_ACK_RETRY (R164). -/
  | journalAckRetry (tag epoch sequence : Nat)
  /-- JOURNAL_REOFFER (R165). -/
  | journalReoffer (tag : Nat)
  /-- LINK_STATE_UP (R166). -/
  | linkStateUp (tag : Nat)
  /-- LINK_STATE_DOWN (R166). -/
  | linkStateDown (tag : Nat)
  /-- DIRECTIVE (R170): the id, the kind as received and the argument field. -/
  | directive (tag id kind : Nat) (args : List Byte)
  /-- BIKE_SET (R173), at the head of the directive queue. -/
  | bikeSet
  /-- DOCK_CLEAR (R174), at the head of the directive queue. -/
  | dockClear
  /-- REMOTE_RELEASE (R175), at the head of the directive queue. -/
  | remoteRelease
  /-- DENY_ADD (R177), at the head of the directive queue. -/
  | denyAdd
  /-- DENY_REMOVE (R177), at the head of the directive queue. -/
  | denyRemove
  /-- HIRE_CLOSED (R178), at the head of the directive queue. -/
  | hireClosed
  /-- PASS_CHARGE (R179), at the head of the directive queue. -/
  | passCharge
  /-- FAULT_SUMMARY (R180), at the head of the directive queue. -/
  | faultSummary
  /-- DIRECTIVE_CENSUS (R180), at the head of the directive queue. -/
  | directiveCensus
  /-- DISCARDED_FRAME (R182): the bytes that arrive and in which the receiver searches for frames. -/
  | discardedFrame (bytes : List Byte)
deriving DecidableEq, Repr

end Sys2Proof
end

