-- ==== Sys2Proof/Decode.lean ====
section
/-! DEFINITION. The command that a word of the table spells. No row of spec/opcode_table.json gives bits: the commands reach the
part as frames, replies, pins and deadlines, whose byte layouts stand in Machine/Codec.lean. -/

/-- The command a word spells by the table's bits: none, for no row gives any. -/
def Sys2Proof.decodeTableWord (_nbits _w : Nat) : Option Sys2Proof.Instr := none
end

