-- ==== Sys2Proof/Config.lean ====
section
/-! DEFINITION. The constants the manual fixes for every part, and the values it leaves open, which are constants with no
body, so that nothing can be proved of them. -/

namespace Sys2Proof.Config

/-- The highest scheme time (R192). -/
def maxTime : Nat := 4294967295
/-- The highest journal sequence number (R157). -/
def maxSequence : Nat := 4294967295
/-- The highest local hire count (R50). -/
def maxHireCount : Nat := 16777215
/-- The slots of the journal (R156). -/
def journalSlots : Nat := 256
/-- The places of the settle list (R102). -/
def settlePlaces : Nat := 64
/-- The entries of the open-hire table (R49). -/
def openHirePlaces : Nat := 96
/-- The ids of the deny list (R48). -/
def denyPlaces : Nat := 1024
/-- The places of the pending fault list (R131). -/
def faultPlaces : Nat := 32
/-- The places of the pending van-move list (R152). -/
def movePlaces : Nat := 64
/-- The places of the directive queue (R170). -/
def directivePlaces : Nat := 8
/-- The places of the holding list (R184). -/
def holdingPlaces : Nat := 4
/-- The end of every count that stops at 65,535 (R110, R131, R152, R163). -/
def countStop : Nat := 65535
/-- The reply window of a poll in milliseconds (R2). -/
def replyWindow : Nat := 12
/-- The silence limit in milliseconds (R7). -/
def silenceLimit : Nat := 2000
/-- The confirmation deadline of TAG_WRITE in milliseconds (R12). -/
def tagWriteLimit : Nat := 1000
/-- The confirmation deadline of UNLOCK in milliseconds (R13). -/
def unlockLimit : Nat := 2000
/-- The confirmation deadline of LOCK in milliseconds (R13). -/
def lockLimit : Nat := 3000
/-- The replies after which an unacknowledged command ends (R10). -/
def takenLimit : Nat := 8
/-- The relock retry interval in milliseconds (R29). -/
def relockDelay : Nat := 3000
/-- The census period in milliseconds, of the start-up census and of the offline timer (R127, R196). -/
def censusPeriod : Nat := 5000
/-- The examination period in milliseconds (R58, R73). -/
def examPeriod : Nat := 60000
/-- The seconds of a day (R192). -/
def daySeconds : Nat := 86400
/-- The seconds a pass may stay ON_RIDE after its expiry (R73). -/
def passLimit : Nat := 172800
/-- The step limit of TIME_SET in seconds (R193). -/
def stepLimit : Nat := 300
/-- The longest duration priced, in seconds (R93). -/
def maxDuration : Nat := 604800
/-- The highest fare (R98). -/
def maxFare : Nat := 65535
/-- The gap in the bytes of a frame that ends it, in milliseconds (R182). -/
def frameGap : Nat := 50
/-- The longest frame body, in bytes: 4096 less kind and tag (R182, R200). -/
def maxBody : Nat := 4094

/-- DESIGN CHOICE (log 2). A FREE VALUE: what the internal code generator draws at each of its positions. R62 states only that
the values are spread over the six-digit codes and do not follow from the slot, the serial, the terminal or the time. -/
opaque codeDraw : Nat → Nat

/-- DESIGN CHOICE (log 3). A FREE VALUE: the entry that fare reads for a plan code above 15 on a tag. R200 delivers such a
code as read, and R46 gives the plans table no entry for it. -/
opaque planBeyondTable : Nat → Plan

end Sys2Proof.Config
end

