-- ==== Sys2Proof/Machine/State.lean ====
section
/-! DEFINITION. The state of the NS6140: every table, list, record, counter, timer and mark the manual gives the part, and
the queue of the commands that wait. A time stamp taken while the clock is UNSET is `none` (R192). A deadline on the elapsed
base is the millisecond at which it falls due (R192). -/

namespace Sys2Proof.Machine

/-! ### Hires, cards and tags (chapters 3 and 13) -/

/-- A hire reference: station id and local count (R50). -/
structure HireRef where
  station : Nat
  count : Nat
deriving DecidableEq, Repr

/-- The hirer of a hire, by kind; a pass is named by slot and serial (R49). -/
inductive Hirer
  | member (id : Nat)
  | pass (slot serial : Nat)
  | crew (id : Nat)
  | remote (id : Nat)
deriving DecidableEq, Repr

/-- The card image as admission takes it (R45). -/
structure CardImage where
  member : Nat
  plan : Nat
  expiryDay : Nat
  issue : Nat
deriving DecidableEq, Repr

/-- The trip image of a tag marked ON_HIRE (R52); the start station is the station of the hire reference (13.3). -/
structure TripImage where
  bikeId : Nat
  ref : HireRef
  hirer : Hirer
  start : Nat
  plan : Nat
  generation : Nat
  credit : Nat
deriving DecidableEq, Repr

/-- A readable tag: marked IDLE, or ON_HIRE with its trip image (13.3). -/
inductive TagImage
  | idle (bikeId : Nat)
  | onHire (image : TripImage)
deriving DecidableEq, Repr

/-- One entry of the open-hire table (R49). -/
structure OpenHire where
  ref : HireRef
  hirer : Hirer
  bikeId : Nat
  start : Nat
  plan : Nat
  generation : Nat
deriving DecidableEq, Repr

/-! ### Bikes and docks (chapter 2) -/

/-- The condition of a bike (R18). -/
inductive Condition
  | available | quarantined | recalled
deriving DecidableEq, Repr

/-- The eight bike fault kinds, numbered 1 to 8 in this order (R114). -/
inductive BikeFault
  | brake | tyre | chain | light | frame | saddle | tag | other
deriving DecidableEq, Repr

/-- The five dock fault kinds (R114). -/
inductive DockFault
  | lockJam | sensor | reader | comms | power
deriving DecidableEq, Repr

/-- The identity of a reporter (R119): a member or crew id, a pass, or anonymous. -/
inductive Reporter
  | person (id : Nat)
  | pass (slot serial : Nat)
  | anonymous
deriving DecidableEq, Repr

/-- One entry of a report tally (R119). -/
structure TallyEntry where
  who : Reporter
  time : Option Nat
deriving DecidableEq, Repr

/-- A bike record (R18). `faults` stands in the order of the fault kinds; `tallies` holds one tally for each kind. -/
structure Bike where
  id : Nat
  condition : Condition
  faults : List BikeFault
  tallies : List (List TallyEntry)
  dockedAt : Option Nat
  settling : Bool
deriving DecidableEq, Repr

/-- The eight dock states (R17). -/
inductive DockState
  | offline | empty | occupied | tagWriting | unlocking | releaseOpen | relocking | lockedOut
deriving DecidableEq, Repr

/-- The lock as last reported (R19). -/
inductive LockState
  | locked | unlocked | unknown
deriving DecidableEq, Repr

/-- The van reservation of a dock (R17): none, or COLLECT or DELIVER for a manifest entry, numbered from 1. -/
inductive Reservation
  | unreserved
  | collect (entry : Nat)
  | deliver (entry : Nat)
deriving DecidableEq, Repr

/-- What a dock's indicator is told to show (1.5). -/
inductive Indication
  | ready | refused | reserved | release | fault | off
deriving DecidableEq, Repr

/-- The state a release began from (R23). -/
inductive Origin
  | occupied | lockedOut
deriving DecidableEq, Repr

/-- For whom a release runs (R23). A hire release carries its hire reference and trip image; a VAN release carries the crew
id and the manifest entry, and neither reference nor image. -/
inductive Party
  | hire (hirer : Hirer) (issue : Option Nat) (ref : HireRef) (image : TripImage)
  | van (crew entry : Nat)
deriving DecidableEq, Repr

/-- The release context (R23). `expiryHeld` is set when the expiry of the pass named was reached during the release and held
back (R67). -/
structure Release where
  party : Party
  credit : Nat
  origin : Origin
  fromDock : Bool
  expiryHeld : Bool
deriving DecidableEq, Repr

/-- One entry of the dock table (R17). `windowAt` is the end of the release window (R26). `shown` is the resting indication
custody issued last, and `none` while the node shows none of custody's (R22). -/
structure Dock where
  configured : Bool
  state : DockState
  lock : LockState
  counter : Nat
  reservation : Reservation
  release : Option Release
  windowAt : Option Nat
  relockAt : Option Nat
  lockoutPending : Bool
  bike : Option Bike
  shown : Option Indication
deriving DecidableEq, Repr

/-! ### The dock line (chapter 1) -/

/-- Why custody issued a TAG_CLEAR: at a return (R31), for a VAN release (R25), or after a lapse, a failed unlock or a census
(R26, R28, R37). -/
inductive ClearPurpose
  | atReturn | vanRelease | afterRelease
deriving DecidableEq, Repr

/-- The five commands custody gives the DLC for a dock (1.5). -/
inductive Command
  | unlock
  | lock
  | tagWrite (image : TripImage)
  | tagClear (purpose : ClearPurpose)
  | show (what : Indication)
deriving DecidableEq, Repr

/-- The node's current command (R10): its number, the deadline of its confirmation, set by the first poll that carries it,
whether a reply has acknowledged it, and the valid replies that have left it unacknowledged. -/
structure CurrentCommand where
  command : Command
  number : Nat
  carried : Bool
  deadline : Option Nat
  acknowledged : Bool
  unanswered : Nat
deriving DecidableEq, Repr

/-- The states of a node (R6). -/
inductive NodePhase
  | enumerating | answering | silent
deriving DecidableEq, Repr

/-- What the DLC keeps for a node (R4 to R10). `censused` says that the node has given a census since the last start-up and
since its string's last reset (R8). -/
structure Node where
  phase : NodePhase
  silenceAt : Nat
  lastEvent : Option Nat
  power : PowerState
  counter : Nat
  current : Option CurrentCommand
  waiting : List Command
  censused : Bool
deriving DecidableEq, Repr

/-- A poll in progress (R3): its address, the census mark, the last event taken, the command carried with its number, and
the end of the reply window. -/
structure Poll where
  address : Nat
  censusMark : Bool
  lastEvent : Option Nat
  command : Option (Nat × Command)
  windowAt : Nat
deriving DecidableEq, Repr

/-- What the DLC keeps for a string (R1, R2): the node count held for this start-up, the address of the next poll, the poll
in progress and the reset frame last sent with no poll after it (R16). -/
structure StringLine where
  count : Nat
  next : Nat
  poll : Option Poll
  resetSent : Bool
deriving DecidableEq, Repr

/-! ### Passes (chapter 4) -/

/-- The states of a pass that is not FREE (R61). -/
inductive PassState
  | issued | onRide | closing | idle | settling
deriving DecidableEq, Repr

/-- The two kinds of pass (R61). -/
inductive PassKind
  | single | day
deriving DecidableEq, Repr

/-- A pass (R61). -/
structure Pass where
  state : PassState
  kind : PassKind
  serial : Nat
  code : Nat
  terminal : Nat
  authRef : List Byte
  hold : Nat
  issued : Nat
  expiry : Nat
  charged : Nat
  rides : Nat
  current : Option HireRef
  cancelled : Bool
  unresolved : Bool
  shortfall : Bool
deriving DecidableEq, Repr

/-- The pass region (R61): 32 slots, a FREE slot being `none`, and the serial of the next pass sold (R62). -/
structure PassRegion where
  slots : List (Option Pass)
  serial : Nat
deriving DecidableEq, Repr

/-! ### Tariffs and closes (chapters 5 and 6) -/

/-- One band of a tariff table; an UNBOUNDED edge is `none` (R79). -/
structure Band where
  edge : Option Nat
  block : Nat
  rate : Nat
deriving DecidableEq, Repr

/-- A tariff table and its generation (R80). -/
structure Tariff where
  generation : Nat
  bands : List Band
deriving DecidableEq, Repr

/-- The TARIFF_APPLIED record (R88): `requested` is the apply time of an AT commit, and `none` for NOW. -/
structure TariffApplied where
  newGeneration : Nat
  oldGeneration : Nat
  requested : Option Nat
  applied : Option Nat
  bands : List Band
deriving DecidableEq, Repr

/-- The tariff set (R80): `commit` is the apply time of a pending AT commit. -/
structure TariffSet where
  current : Tariff
  previous : Option Tariff
  staged : List (Option Band)
  commit : Option Nat
  waiting : Option TariffApplied
deriving DecidableEq, Repr

/-- The flags fare sets in a close (R99). -/
structure CloseFlags where
  deferred : Bool
  startupReturn : Bool
  clockSkew : Bool
  overlong : Bool
  tariffStale : Bool
  saturated : Bool
deriving DecidableEq, Repr

/-- The priced close (R99). -/
structure PricedClose where
  ref : HireRef
  hirer : Hirer
  bikeId : Nat
  dock : Nat
  startStation : Nat
  start : Nat
  returned : Option Nat
  plan : Nat
  tagGeneration : Nat
  usedGeneration : Option Nat
  duration : Option Nat
  minutes : Option Nat
  chargeable : Option Nat
  base : Option Nat
  afterPercent : Option Nat
  afterCredits : Option Nat
  releaseCredit : Nat
  returnCredit : Option Nat
  creditApplied : Option Nat
  fare : Nat
  flags : CloseFlags
deriving DecidableEq, Repr

/-- The early reasons of an EARLY_FINAL finalise (R106). -/
inductive EarlyReason
  | release | van | removal | replaced | census | passReuse | listFull
deriving DecidableEq, Repr

/-- The causes of a finalise (R102). -/
inductive FinalCause
  | deadline
  | earlyFinal (reason : EarlyReason)
  | startup
deriving DecidableEq, Repr

/-- What passes answers at a finalise (R70, R107): nothing for another hirer, no charge made, or charge and shortfall. -/
inductive PassResult
  | noPass
  | absent
  | charged (charge shortfall : Nat)
deriving DecidableEq, Repr

/-- Where a waiving report came from (R105). -/
inductive WaiverSource
  | dock | rider
deriving DecidableEq, Repr

/-- The waiver of an entry (R102). -/
structure Waiver where
  source : WaiverSource
  kind : BikeFault
  time : Option Nat
deriving DecidableEq, Repr

/-- The stage of a settle entry (R102): HELD with its bike link and deadline, or WAITING with its finalisation. -/
inductive EntryStage
  | held (bike dock deadline : Nat)
  | waiting (cause : FinalCause) (time : Option Nat) (pass : PassResult)
deriving DecidableEq, Repr

/-- One entry of the settle list (R102). The hirer is the close's. -/
structure SettleEntry where
  close : PricedClose
  waiver : Option Waiver
  stage : EntryStage
deriving DecidableEq, Repr

/-- The settle region (R102, R110). -/
structure SettleRegion where
  entries : List SettleEntry
  lost : Nat
deriving DecidableEq, Repr

/-! ### Faults (chapter 7) -/

/-- The classes of the policy table (R116). -/
inductive FaultClass
  | quarantine | advisory
deriving DecidableEq, Repr

/-- One entry of the policy table (R116). -/
structure Policy where
  cls : FaultClass
  count : Nat
deriving DecidableEq, Repr

/-- The sources of a bike fault report (R115). -/
inductive FaultSource
  | dock | rider | crew | central
deriving DecidableEq, Repr

/-- The causes of a dock fault record (R114, R130). -/
inductive DockCause
  | lockFail | unlockTimeout | lockTimeout | unreleasedRemoval | unreadableRun | silence | powerLow | census
deriving DecidableEq, Repr

/-- The effects of a fault report (R130). -/
inductive FaultEffect
  | noted | suspect | quarantined | lockedOut | cleared | conflict
deriving DecidableEq, Repr

/-- The subject of a FAULT record (R130). -/
inductive FaultSubject
  | bike | dock
deriving DecidableEq, Repr

/-- The kind a FAULT record carries (R130). -/
inductive FaultKind
  | bike (kind : BikeFault)
  | dock (kind : DockFault)
deriving DecidableEq, Repr

/-- The fields of a FAULT record (R130), but for the dropped count, which is set as it is posted (R131). -/
structure FaultRecord where
  subject : FaultSubject
  dock : Option Nat
  bikeId : Option Nat
  tagBikeId : Option Nat
  tagRef : Option HireRef
  kind : Option FaultKind
  source : Option FaultSource
  cause : Option DockCause
  reporter : Option Reporter
  reporters : Option Nat
  confirmCount : Option Nat
  effect : FaultEffect
  conditionAfter : Option Condition
  counterAfter : Option Nat
  counterBefore : Option Nat
  dockState : Option DockState
  bikeAbsent : Bool
deriving DecidableEq, Repr

/-- The attention flag and its causes (R126). -/
structure Attention where
  raised : Bool
  quarantine : Bool
  lockout : Bool
  offline : Bool
deriving DecidableEq, Repr

/-! ### Van sessions (chapter 8) -/

/-- The selectors of a COLLECT entry (R134). -/
inductive Selector
  | any | faultedFirst | faultedOnly | recalledFirst
deriving DecidableEq, Repr

/-- The kind of a manifest entry or of a move (R134, R152). -/
inductive ManifestKind
  | collect (selector : Selector)
  | deliver
deriving DecidableEq, Repr

/-- One manifest entry (R134); the SHORT mark stands whenever `short` is above 0. -/
structure ManifestEntry where
  kind : ManifestKind
  asked : Nat
  target : Nat
  done : Nat
  short : Nat
deriving DecidableEq, Repr

/-- The session states (R134). -/
inductive VanPhase
  | idle | reserving | active | closing
deriving DecidableEq, Repr

/-- What ended a session (R150). -/
inductive EndedBy
  | exhaustion | vanClose | idleTimeout
deriving DecidableEq, Repr

/-- The outcome of a session (R150). -/
inductive VanOutcome
  | exhausted | closedEarly | timedOut
deriving DecidableEq, Repr

/-- The ending fields (R134). -/
structure VanEnding where
  endedBy : EndedBy
  outcome : VanOutcome
  time : Option Nat
deriving DecidableEq, Repr

/-- A VAN_MOVE record (R152); `reserved` is for DELIVER, whether the dock was reserved. -/
structure VanMove where
  session : Nat
  van : Nat
  collect : Bool
  entry : Nat
  dock : Nat
  bikeId : Nat
  time : Option Nat
  reserved : Option Bool
deriving DecidableEq, Repr

/-- A VAN_SUMMARY record (R153). -/
structure VanSummary where
  session : Nat
  van : Nat
  crew : Nat
  opened : Option Nat
  ending : VanEnding
  short : Bool
  dropped : Nat
  results : List ManifestEntry
deriving DecidableEq, Repr

/-- The van session (R134). The session id, van id and crew id are 0 while there is none. -/
structure Van where
  phase : VanPhase
  session : Nat
  counter : Nat
  van : Nat
  crew : Nat
  manifest : List ManifestEntry
  opened : Option Nat
  idleAt : Option Nat
  ending : Option VanEnding
  moves : List VanMove
  dropped : Nat
  summary : Option VanSummary
deriving DecidableEq, Repr

/-! ### Directives (chapter 10) -/

/-- The refusal and outcome reasons, of all chapters. -/
inductive Reason
  | clockUnset | noBike | dockBusy | dockOffline | dockFault | dockReserved | bikeUnavailable | cardExpired | cardDenied
  | planClosed | hireLimit | hireTableFull | journalFull | passUnknown | passExpired | passFunds | passInUse | vanBusy
  | notReserved | tagWriteFail | condition | notLockedOut | passState
deriving DecidableEq, Repr

/-- The fields an OUT_OF_RANGE names, of all chapters. -/
inductive Field
  | length | setting | mode | string | dock | code | admitted | freeMinutes | percent | unlockFee | ceiling | hireLimit
  | time | slot | serial | terminal | kind | hold | band | edge | block | rate | selector | cls | count | source | target | reporter
  | bike | van | crew | endMark | result | state | condition | nextState | member | planCode | hireStation | hireCount | amount
deriving DecidableEq, Repr

/-- A directive as the queue holds it (R170). -/
structure Directive where
  id : Nat
  kind : Nat
  args : List Byte
  arrival : Option Nat
deriving DecidableEq, Repr

/-- The outcomes of a directive (R172). -/
inductive DirectiveOutcome
  | done | notPresent | conditionFalse | targetBusy | notFound | tableFull | outOfRange
deriving DecidableEq, Repr

/-- The bike part of a census or summary item (R128, R180). -/
structure ItemBike where
  id : Nat
  condition : Condition
  faults : List BikeFault
  settling : Bool
deriving DecidableEq, Repr

/-- One item of a DOCK_CENSUS record (R180). -/
structure CensusItem where
  dock : Nat
  state : DockState
  lock : LockState
  counter : Nat
  reservation : Reservation
  bike : Option ItemBike
deriving DecidableEq, Repr

/-- One item of a fault summary (R128). -/
structure SummaryItem where
  dock : Nat
  state : DockState
  counter : Nat
  bike : Option ItemBike
deriving DecidableEq, Repr

/-- The result fields of a DIRECTIVE_REPLY, by kind (10.3 to 10.7). A pass state of `none` is FREE. -/
inductive DirectiveResult
  | empty
  | field (name : Field)
  | conditionFound (found : Condition)
  | bikeSet (bike dock : Nat) (before after : Condition) (changed : Bool)
  | dockClear (dock counterBefore : Nat) (after : DockState)
  | remoteRelease (dock bike : Nat) (ref : HireRef)
  | deny (changed : Bool) (held : Nat)
  | hireClosed (hire : OpenHire) (passAfter : Option PassState)
  | passCharge (charge shortfall : Nat) (after : PassState)
  | passStateFound (found : Option PassState)
  | summary (items : List SummaryItem) (attention : Attention)
  | census (items : Nat) (posted replaced : Bool)
deriving DecidableEq, Repr

/-! ### The journal (chapter 9) -/

/-- The causes a START record carries (R196). -/
inductive StartCause
  | powerOn | warm | store
deriving DecidableEq, Repr

/-- The cause of a DOCK_CENSUS record (R180, R197). -/
inductive CensusReason
  | startup
  | directive (id : Nat)
deriving DecidableEq, Repr

/-- The cause of a HIRE_EXPIRED record (R58). -/
inductive ExpiryCause
  | age | passLimit
deriving DecidableEq, Repr

/-- The body of a START record (R196). -/
structure StartBody where
  cause : StartCause
  damaged : List RegionName
  stationId : Nat
  counts : List Nat
  epoch : Nat
  openHires : Nat
  passes : Nat
  waitingEntries : Nat
  records : Nat
deriving DecidableEq, Repr

/-- The body of a DOCK_CENSUS record (R180). -/
structure CensusBody where
  reason : CensusReason
  stock : Nat
  available : Nat
  items : List CensusItem
deriving DecidableEq, Repr

/-- The bodies of the thirteen record kinds, in R156's order. -/
inductive Body
  | start (body : StartBody)
  | dockCensus (body : CensusBody)
  | hireOpen (hire : OpenHire) (issue : Option Nat) (dock : Nat) (removal : Option Nat) (credit : Nat) (untracked : Bool)
  | hireClose (close : PricedClose) (waiver : Option Waiver) (cause : FinalCause) (time : Option Nat) (pass : PassResult)
      (lostBefore : Nat)
  | hireExpired (hire : OpenHire) (cause : ExpiryCause)
  | passIssue (slot : Nat) (pass : Pass)
  | passSettle (slot : Nat) (pass : Pass)
  | fault (record : FaultRecord) (droppedBefore : Nat)
  | vanMove (move : VanMove)
  | vanSummary (summary : VanSummary)
  | directiveReply (id kind : Nat) (arrival : Option Nat) (outcome : DirectiveOutcome) (reason : Option Reason)
      (result : DirectiveResult)
  | clockStep (before after : Nat)
  | tariffApplied (record : TariffApplied)
deriving DecidableEq, Repr

/-- The states of a journal record (R156). -/
inductive RecordState
  | unsent | sent | parked
deriving DecidableEq, Repr

/-- A journal record (R156). -/
structure Record where
  epoch : Nat
  sequence : Nat
  time : Option Nat
  body : Body
  state : RecordState
  retries : Nat
deriving DecidableEq, Repr

/-- The journal region (R156, R194): the records in journal order and the next sequence number. -/
structure JournalRegion where
  records : List Record
  next : Nat
deriving DecidableEq, Repr

/-- A record of the sixth place of the room arbiter that waits (R160); a waiting TARIFF_APPLIED stands in the tariff set. -/
inductive SixthRecord
  | start (body : StartBody)
  | dockCensus (body : CensusBody)
  | clockStep (before after : Nat)
  | tariffApplied
deriving DecidableEq, Repr

/-- The backhaul state (R166). -/
inductive Backhaul
  | up | down
deriving DecidableEq, Repr

/-! ### Settings and the retained store (chapter 12) -/

/-- The settings of the settings region (R195), as stored. -/
structure Settings where
  countA : Nat
  countB : Nat
  countC : Nat
  countD : Nat
  dayOffset : Nat
  releaseWindow : Nat
  settleWindow : Nat
  dockFaultLimit : Nat
  lowMark : Nat
  highMark : Nat
  releaseCredit : Nat
  returnCredit : Nat
  openReserve : Nat
  minPassBalance : Nat
  hireAgeLimit : Nat
  confirmWindow : Nat
  memberFloor : Nat
  vanIdleTimeout : Nat
  creditLimit : Nat
  retryLimit : Nat
deriving DecidableEq, Repr

/-- The settings by name, in the order of R195's table. -/
inductive SettingName
  | stationId | countA | countB | countC | countD | dayOffset | releaseWindow | settleWindow | dockFaultLimit | lowMark
  | highMark | releaseCredit | returnCredit | openReserve | minPassBalance | hireAgeLimit | confirmWindow | memberFloor
  | vanIdleTimeout | creditLimit | retryLimit
deriving DecidableEq, Repr

/-- The settings region: settings and the fault policy table, one entry for each bike fault kind (R116, R194). -/
structure SettingsRegion where
  settings : Settings
  policy : List Policy
deriving DecidableEq, Repr

/-- The epoch region: epoch and station id, 0 when unassigned (R194). -/
structure EpochRegion where
  epoch : Nat
  stationId : Nat
deriving DecidableEq, Repr

/-- A region of the store in its two copies (R194): `cur` is the copy written last, and holds the contents in force; `old` is
the copy written before it; each has its own check. -/
structure Region (α : Type) where
  cur : α
  old : α
  curSound : Bool
  oldSound : Bool
deriving DecidableEq, Repr

/-- The retained store: ten regions (R194). -/
structure Store where
  settings : Region SettingsRegion
  plans : Region (List Plan)
  tariffs : Region TariffSet
  deny : Region (List Nat)
  passes : Region PassRegion
  hires : Region (List OpenHire)
  settle : Region SettleRegion
  journal : Region JournalRegion
  hireCount : Region Nat
  epoch : Region EpochRegion
deriving DecidableEq, Repr

/-- The station clock (R192): UNSET, or SET with the value of the last TIME_SET and the elapsed base at it. -/
inductive Clock
  | unset
  | running (base atElapsed : Nat)
deriving DecidableEq, Repr

/-! ### The link (chapter 11) -/

/-- The status codes, numbered from 1 in this order (R186, R200). -/
inductive Status
  | ok | okClamped | pendingRestart | queued | busy | refused | notFound | outOfRange | full | duplicate | conflict
  | notEmpty | clockUnset | badKind
deriving DecidableEq, Repr

/-- The journal summary (R167). -/
structure JournalSummary where
  ready : Bool
  backhaul : Backhaul
  held : Nat
  unsent : Nat
  sent : Nat
  parked : Nat
  free : Nat
  setAside : Nat
  waiting : Bool
  epoch : Nat
  next : Nat
  creditLimit : Nat
  retryLimit : Nat
  openReserve : Nat
  fatal : Nat
deriving DecidableEq, Repr

/-- The values of a DOCK_STATE notice (R20). -/
structure DockCounts where
  stock : Nat
  available : Nat
  offline : Nat
  empty : Nat
  occupied : Nat
  tagWriting : Nat
  unlocking : Nat
  releaseOpen : Nat
  relocking : Nat
  lockedOut : Nat
  quarantined : Nat
  recalled : Nat
deriving DecidableEq, Repr

/-- The number of slots in each pass state (R76). -/
structure PassCounts where
  free : Nat
  issued : Nat
  onRide : Nat
  closing : Nat
  idle : Nat
  settling : Nat
deriving DecidableEq, Repr

/-- The values of a VAN_STATE notice (R154). -/
structure VanReport where
  phase : VanPhase
  session : Nat
  targets : Nat
  done : Nat
  reserved : Nat
  outcome : Option VanOutcome
deriving DecidableEq, Repr

/-- The five notice kinds, in the order of the notice table (11.3). -/
inductive NoticeKind
  | journalReady | attention | vanState | passState | dockState
deriving DecidableEq, Repr

/-- The pending marks, one for each notice kind (R187). -/
structure Marks where
  journalReady : Bool
  attention : Bool
  vanState : Bool
  passState : Bool
  dockState : Bool
deriving DecidableEq, Repr

/-- The value a notice carries (R187). -/
inductive NoticeValue
  | journalReady (summary : JournalSummary)
  | attention (flag : Attention)
  | vanState (report : VanReport)
  | passState (counts : PassCounts)
  | dockState (counts : DockCounts)
deriving DecidableEq, Repr

/-- What STATUS_GET gathers (R189). -/
structure StatusReport where
  stationId : Nat
  counts : List Nat
  time : Option Nat
  docks : DockCounts
  denied : Nat
  openHires : Nat
  passes : PassCounts
  generation : Nat
  commitPending : Bool
  heldEntries : Nat
  waitingEntries : Nat
  lostCloses : Nat
  attention : Attention
  pendingFaults : Nat
  droppedFaults : Nat
  vanPhase : VanPhase
  session : Nat
  journal : JournalSummary
  directives : Nat
  headWaiting : Bool
  placesHeld : Nat
  marks : Marks
deriving DecidableEq, Repr

/-- What DOCK_GET reads (R44). -/
structure DockReport where
  dock : Nat
  configured : Bool
  state : DockState
  lock : LockState
  counter : Nat
  reservation : Reservation
  release : Option (Party × Origin)
  bike : Option Bike
deriving DecidableEq, Repr

/-- One item of DOCK_LIST (R44). -/
structure DockItem where
  state : DockState
  bikeId : Option Nat
  condition : Option Condition
  reservation : Reservation
deriving DecidableEq, Repr

/-- The summary of the tariff set (R89). -/
structure TariffSummary where
  current : Nat
  previous : Option Nat
  filled : Nat
  commit : Option (Nat × Nat)
  waiting : Bool
deriving DecidableEq, Repr

/-- The faults a staged table can have (R83). -/
inductive BandFault
  | missing | edgeUnbounded | edgeOrder | lastBounded
deriving DecidableEq, Repr

/-- One entry of VAN_GET (R154). -/
structure VanEntryReport where
  entry : ManifestEntry
  docks : List Nat
deriving DecidableEq, Repr

/-- What VAN_GET reads outside IDLE (R154). -/
structure VanDetail where
  phase : VanPhase
  session : Nat
  van : Nat
  crew : Nat
  opened : Option Nat
  entries : List VanEntryReport
  releases : List Nat
  idleLeft : Option Nat
  ending : Option VanEnding
  moves : Nat
  dropped : Nat
  summaryWaiting : Bool
deriving DecidableEq, Repr

/-- The collections RESET STORE tests, in its order (R198). -/
inductive Collection
  | journal | openHires | settle | passes
deriving DecidableEq, Repr

/-- What an acknowledgement did with its record (R163). -/
inductive Disposition
  | removed | requeued | parked
deriving DecidableEq, Repr

/-- The record kinds, in R156's order. -/
inductive RecordKind
  | start | dockCensus | hireOpen | hireClose | hireExpired | passIssue | passSettle | fault | vanMove | vanSummary
  | directiveReply | clockStep | tariffApplied
deriving DecidableEq, Repr

/-- The result fields of a reply, as the owning chapters give them. -/
inductive Result
  | empty
  | kind (received : Nat)
  | field (name : Field)
  | vanField (entry : Nat) (name : Field)
  | reason (reason : Reason)
  | value (value : Nat)
  | ahead (count : Nat)
  | status (report : StatusReport)
  | timeSet (before : Option Nat) (time : Nat) (step : Bool)
  | settings (values : List (SettingName × Nat × Option Nat))
  | notEmpty (what : Collection)
  | dock (report : DockReport)
  | docks (stock available : Nat) (items : List DockItem)
  | plan (plan : Plan)
  | sold (slot serial code expiry : Nat)
  | repeated (slot serial code : Nat)
  | passFree
  | pass (pass : Pass) (balance : Nat) (inFlight : Bool)
  | badBand (band : Nat) (fault : BandFault)
  | applied (generation : Nat)
  | commitPending (time generation : Nat)
  | tariff (summary : TariffSummary) (bands : List Band)
  | staged (summary : TariffSummary) (positions : List (Option Band))
  | policies (entries : List Policy)
  | report (bike dock : Option Nat) (effect : FaultEffect) (bikeAbsent : Bool)
  | vanOpened (session : Nat) (entries : List (Nat × Nat))
  | vanOutcome (outcome : VanOutcome)
  | vanIdle (counter : Nat)
  | vanDetail (detail : VanDetail)
  | records (records : List Record) (summary : JournalSummary)
  | disposition (what : Disposition) (fatal : Option RecordKind)
  | count (count : Nat)
deriving DecidableEq, Repr

/-- A reply: status code and result fields (R185). -/
structure Reply where
  status : Status
  result : Result
deriving DecidableEq, Repr

/-- A held request with its reply, once made (R184). -/
structure Held where
  tag : Nat
  request : Request
  reply : Option Reply
deriving DecidableEq, Repr

/-- The frame the link is sending (R188). -/
inductive Sending
  | busyReply | reply | notice
deriving DecidableEq, Repr

/-- A frame the link has sent (11.1): a reply with its request's kind and tag, or a notice with its number. -/
inductive SentFrame
  | reply (kind tag : Nat) (reply : Reply)
  | notice (number : Nat) (value : NoticeValue)
deriving DecidableEq, Repr

/-- The state of the link (R182 to R190): the bytes of an incoming frame at hand, the elapsed time at which the last of them
arrived (without meaning while there are none), the holding list, the BUSY replies that
wait by kind and tag, the pending marks, the number of the next notice, the notice kind sent last, the frame sent last and
the frame being sent. -/
structure Link where
  receiving : List Byte
  lastByteAt : Nat
  holding : List Held
  busy : List (Nat × Nat)
  marks : Marks
  noticeNumber : Nat
  lastNotice : Option NoticeKind
  lastFrame : Option SentFrame
  sending : Option Sending
deriving DecidableEq, Repr

/-! ### The machine -/

/-- Where the part stands: without power, with a start-up due, or running (R196). -/
inductive Power
  | off
  | startDue (cause : StartCause)
  | running
deriving DecidableEq, Repr

/-- The whole state of the part, and the commands that wait, first in first out. -/
structure State where
  /-- The commands waiting to be taken. -/
  pending : List Instr
  power : Power
  /-- The elapsed base in milliseconds since the start-up (R192). -/
  elapsed : Nat
  clock : Clock
  store : Store
  /-- The station id in force, held for this start-up (R195). -/
  stationId : Nat
  /-- Strings A to D (R1). -/
  strings : List StringLine
  /-- One node for each dock number (R1). -/
  nodes : List Node
  /-- The dock table, in dock-number order (R17). -/
  docks : List Dock
  /-- The end of the start-up census limit, while the census phase runs (R197). -/
  censusLimit : Option Nat
  /-- Whether census complete has been reported since the start-up (R8). -/
  censusReported : Bool
  /-- When the next hire age examination falls due (R58). -/
  hireExamAt : Nat
  /-- When the next pass limit examination falls due (R73). -/
  passExamAt : Nat
  /-- The position of the code generator, the model's own counter (R62). -/
  codePosition : Nat
  /-- Journal slots set aside for releases in flight (R159). -/
  setAside : Nat
  /-- Journal slots held for the reply of an executing directive, 0 between commands (R171). -/
  replySlot : Nat
  backhaul : Backhaul
  fatal : Nat
  /-- The waiting records of the sixth place, in the order made (R160). -/
  sixth : List SixthRecord
  attention : Attention
  /-- The pending fault list, oldest first (R131). -/
  faults : List FaultRecord
  /-- The dropped count (R131). -/
  faultsDropped : Nat
  /-- Each dock's run of unreadable taps (R125). -/
  readerRuns : List Nat
  /-- Each dock's offline timer (R127). -/
  offlineAt : List (Option Nat)
  van : Van
  /-- The directive queue, head first (R170). -/
  directives : List Directive
  link : Link
deriving DecidableEq, Repr

/-- The reasons for a fault. There is none: the manual gives every command of the table an effect, or says that it has none,
in every state of the part, so no command stops the machine. -/
inductive Fault
deriving DecidableEq, Repr

/-- The reasons for a refusal. -/
inductive Refusal
  /-- Raised by `exec` for a command that has no meaning in the model; no arm of `exec` raises it. Safe: the machine stops
  where the part goes on. -/
  | notModelled (mnemonic : String)
deriving DecidableEq, Repr

/-! ### The defaults of the regions and the state after reset -/

/-- The default settings (R195). -/
def Settings.default : Settings :=
  { countA := 0, countB := 0, countC := 0, countD := 0, dayOffset := 0, releaseWindow := 30, settleWindow := 120
    dockFaultLimit := 3, lowMark := 8, highMark := 56, releaseCredit := 0, returnCredit := 0, openReserve := 48
    minPassBalance := 200, hireAgeLimit := 3, confirmWindow := 24, memberFloor := 4, vanIdleTimeout := 600
    creditLimit := 8, retryLimit := 3 }

/-- The default policy table (R116). -/
def Policy.defaults : List Policy :=
  [⟨.quarantine, 2⟩, ⟨.quarantine, 2⟩, ⟨.quarantine, 2⟩, ⟨.advisory, 2⟩, ⟨.quarantine, 2⟩, ⟨.advisory, 2⟩,
   ⟨.quarantine, 1⟩, ⟨.advisory, 2⟩]

/-- The default settings region (R194). -/
def SettingsRegion.default : SettingsRegion := { settings := .default, policy := Policy.defaults }

/-- The default of plans 0 to 14 (R46). -/
def planDefault : Plan :=
  { admitted := false, freeMinutes := 0, percent := 100, unlockFee := 0, ceiling := 65535, hireLimit := 1 }

/-- The fixed entry of plan 15 (R46). -/
def planCrew : Plan :=
  { admitted := true, freeMinutes := 0, percent := 0, unlockFee := 0, ceiling := 0, hireLimit := 4 }

/-- The default plans table (R46). -/
def plansDefault : List Plan := List.replicate 15 planDefault ++ [planCrew]

/-- The default tariff set (R80). -/
def TariffSet.default : TariffSet :=
  { current := { generation := 1, bands := [{ edge := none, block := 60, rate := 0 }] }
    previous := none, staged := List.replicate 8 none, commit := none, waiting := none }

/-- The default pass region (R61). -/
def PassRegion.default : PassRegion := { slots := List.replicate 32 none, serial := 1 }

/-- The default settle region (R194). -/
def SettleRegion.default : SettleRegion := { entries := [], lost := 0 }

/-- A region written once to `v` after neither copy passed its check (R194). -/
def Region.fresh {α : Type} (v : α) : Region α := { cur := v, old := v, curSound := true, oldSound := false }

/-- An attention flag that is clear (R132). -/
def Attention.clear : Attention := { raised := false, quarantine := false, lockout := false, offline := false }

/-- A node at start-up (R6): its silence timer started at the elapsed base `now`. -/
def Node.atStart (now : Nat) : Node :=
  { phase := .enumerating, silenceAt := now + 2000, lastEvent := none, power := .normal, counter := 1, current := none
    waiting := [], censused := false }

/-- A dock entry at start-up (R17). -/
def Dock.atStart (configured : Bool) : Dock :=
  { configured := configured, state := .offline, lock := .unknown, counter := 0, reservation := .unreserved
    release := none, windowAt := none, relockAt := none, lockoutPending := false, bike := none, shown := none }

/-- A string at start-up: its round begins at address 1 (R2). -/
def StringLine.atStart (count : Nat) : StringLine := { count := count, next := 1, poll := none, resetSent := false }

/-- The van session in IDLE with the session counter at `counter` (R134). -/
def Van.idleWith (counter : Nat) : Van :=
  { phase := .idle, session := 0, counter := counter, van := 0, crew := 0, manifest := [], opened := none, idleAt := none
    ending := none, moves := [], dropped := 0, summary := none }

/-- No mark pending (R190). -/
def Marks.none : Marks :=
  { journalReady := false, attention := false, vanState := false, passState := false, dockState := false }

/-- The link after a start-up (R190). -/
def Link.atStart : Link :=
  { receiving := [], lastByteAt := 0, holding := [], busy := [], marks := .none, noticeNumber := 1, lastNotice := none, lastFrame := none
    sending := none }

/-- The records of the first start-up (R196, R197): START, which names all ten regions, and the DOCK_CENSUS that follows at
once where no node is configured. -/
def State.resetRecords : List Record :=
  [{ epoch := 1, sequence := 1, time := none, state := .unsent, retries := 3
     body := .start
       { cause := .powerOn
         damaged := [.settings, .plans, .tariffs, .denyList, .passes, .openHires, .settle, .journal, .hireCount, .epoch]
         stationId := 0, counts := [0, 0, 0, 0], epoch := 1, openHires := 0, passes := 0, waitingEntries := 0
         records := 0 } },
   { epoch := 1, sequence := 2, time := none, state := .unsent, retries := 3
     body := .dockCensus { reason := .startup, stock := 0, available := 0, items := [] } }]

/-- The store after the first start-up (R194): every region at its defaults, and in the journal the records of that start-up,
the older copy holding the journal as it stood before the second of them. -/
def State.resetStore : Store :=
  { settings := .fresh .default, plans := .fresh plansDefault, tariffs := .fresh .default, deny := .fresh []
    passes := .fresh .default, hires := .fresh [], settle := .fresh .default
    journal := { cur := { records := State.resetRecords, next := 3 }
                 old := { records := State.resetRecords.take 1, next := 2 }, curSound := true, oldSound := true }
    hireCount := .fresh 1
    epoch := { cur := { epoch := 1, stationId := 0 }, old := { epoch := 0, stationId := 0 }, curSound := true
               oldSound := true } }

/-- The part right after the start-up that follows a first power-on, when no region of the store has ever been written: every
region is found damaged and takes its defaults (R194), the volatile state is as R17, R132, R134, R168, R170 and R190 give it
after a start-up, and START and DOCK_CENSUS stand in the journal, which has raised JOURNAL_READY for them (R167, R196, R197). -/
def State.reset : State :=
  { pending := [], power := .running, elapsed := 0, clock := .unset, store := State.resetStore, stationId := 0
    strings := List.replicate 4 (.atStart 0), nodes := List.replicate 64 (.atStart 0)
    docks := List.replicate 64 (.atStart false), censusLimit := none, censusReported := true, hireExamAt := 60000
    passExamAt := 60000, codePosition := 0, setAside := 0, replySlot := 0, backhaul := .up, fatal := 0, sixth := []
    attention := .clear, faults := [], faultsDropped := 0, readerRuns := List.replicate 64 0
    offlineAt := List.replicate 64 none, van := .idleWith 1, directives := []
    link := { Link.atStart with marks := { Marks.none with journalReady := true }, sending := some .notice } }

end Sys2Proof.Machine
end

