-- ==== Sys2Proof/Machine/Codec.lean ====
section
/-! DEFINITION. The byte layouts of chapter 13: numbers, the CRC-16, the card image, the tag trip image, the link frame and
the receiver's search for frames, the bodies of the requests, and the encodings of the journal record envelope and of record,
reply and notice bodies. -/

namespace Sys2Proof.Machine

/-! ### Numbers and the check sequence (R200) -/

/-- The `n` low bytes of `v`, most significant first (R200). -/
def natBytes : Nat → Nat → List Byte
  | 0, _ => []
  | n + 1, v => BitVec.ofNat 8 (v / 256 ^ n) :: natBytes n v

/-- The number a list of bytes holds, most significant byte first (R200). -/
def beNat (bs : List Byte) : Nat := bs.foldl (fun acc b => acc * 256 + b.toNat) 0

/-- One bit of the CRC-16 with polynomial 0x1021, most significant bit first (11.1). -/
def crcBit (c : BitVec 16) : BitVec 16 := if c.msb then (c <<< 1) ^^^ 0x1021#16 else c <<< 1

/-- One byte of the CRC-16 (11.1). -/
def crcByte (c : BitVec 16) (b : Byte) : BitVec 16 :=
  let x := c ^^^ (b.setWidth 16 <<< 8)
  crcBit (crcBit (crcBit (crcBit (crcBit (crcBit (crcBit (crcBit x)))))))

/-- The CRC-16 of every format: initial value 0xFFFF, no final inversion (11.1, R200). -/
def crc16 (bs : List Byte) : BitVec 16 := bs.foldl crcByte 0xFFFF#16

/-- The check field of a format: its CRC-16, most significant byte first (R200). -/
def checkBytes (bs : List Byte) : List Byte := natBytes 2 (crc16 bs).toNat

/-- A format of `n` content bytes followed by its check field: the content, where the length is right and the check matches. -/
def checked (n : Nat) (bs : List Byte) : Option (List Byte) :=
  if bs.length = n + 2 ∧ bs.drop n = checkBytes (bs.take n) then some (bs.take n) else none

/-- The number in `size` bytes at `offset`. -/
def fieldAt (bs : List Byte) (offset size : Nat) : Nat := beNat ((bs.drop offset).take size)

/-! ### The card image and the tag trip image (13.2, 13.3) -/

/-- The image check of R5 and R200 on a card image: `none` is unreadable. -/
def cardImage (bs : List Byte) : Option CardImage :=
  match checked 8 bs with
  | none => none
  | some c =>
    let card : CardImage :=
      { member := fieldAt c 0 4, plan := fieldAt c 4 1, expiryDay := fieldAt c 5 2, issue := fieldAt c 7 1 }
    if card.member = 0 ∨ 15 < card.plan then none else some card

/-- The bytes of a card image (13.2). -/
def cardBytes (c : CardImage) : List Byte :=
  let content := natBytes 4 c.member ++ natBytes 1 c.plan ++ natBytes 2 c.expiryDay ++ natBytes 1 c.issue
  content ++ checkBytes content

/-- The hirer kind number of 13.3. -/
def hirerCode : Hirer → Nat
  | .member _ => 1
  | .pass _ _ => 2
  | .crew _ => 3
  | .remote _ => 4

/-- The four hirer id bytes of 13.3. -/
def hirerBytes : Hirer → List Byte
  | .member id => natBytes 4 id
  | .pass slot serial => natBytes 1 slot ++ natBytes 2 serial ++ natBytes 1 0
  | .crew id => natBytes 4 id
  | .remote id => natBytes 4 id

/-- The hirer named by a kind number and its four id bytes (13.3). -/
def hirerOf (kind : Nat) (bs : List Byte) : Option Hirer :=
  match kind with
  | 1 => some (.member (beNat bs))
  | 2 => some (.pass (fieldAt bs 0 1) (fieldAt bs 1 2))
  | 3 => some (.crew (beNat bs))
  | 4 => some (.remote (beNat bs))
  | _ => none

/-- The image check of R5 and R200 on a tag image: `none` is unreadable. -/
def tagImage (bs : List Byte) : Option TagImage :=
  match checked 22 bs with
  | none => none
  | some c =>
    let bike := fieldAt c 1 3
    if bike = 0 then none
    else
      match fieldAt c 0 1 with
      | 1 => some (.idle bike)
      | 2 =>
        match hirerOf (fieldAt c 9 1) ((c.drop 10).take 4) with
        | none => none
        | some hirer =>
          some (.onHire
            { bikeId := bike, ref := { station := fieldAt c 4 2, count := fieldAt c 6 3 }, hirer := hirer
              start := fieldAt c 14 4, plan := fieldAt c 18 1, generation := fieldAt c 19 1, credit := fieldAt c 20 2 })
      | _ => none

/-- The content bytes of a tag image, without the check (13.3). -/
def tagContent : TagImage → List Byte
  | .idle bike => natBytes 1 1 ++ natBytes 3 bike ++ natBytes 2 0 ++ natBytes 3 0 ++ natBytes 1 0 ++ natBytes 4 0 ++
      natBytes 4 0 ++ natBytes 1 0 ++ natBytes 1 0 ++ natBytes 2 0
  | .onHire i => natBytes 1 2 ++ natBytes 3 i.bikeId ++ natBytes 2 i.ref.station ++ natBytes 3 i.ref.count ++
      natBytes 1 (hirerCode i.hirer) ++ hirerBytes i.hirer ++ natBytes 4 i.start ++ natBytes 1 i.plan ++
      natBytes 1 i.generation ++ natBytes 2 i.credit

/-- The 24 bytes of a tag image: what TAG_WRITE and TAG_CLEAR write (13.3, R199). -/
def tagBytes (t : TagImage) : List Byte := tagContent t ++ checkBytes (tagContent t)

/-! ### The link frame and the receiver (13.1, R182) -/

/-- The start byte of a link frame (13.1). -/
def startByte : Byte := 0xA5#8

/-- What the SPI target port presents between frames (13.1). -/
def spiIdleFill : Byte := 0x00#8

/-- The bytes of a link frame (13.1). -/
def frameBytes (kind tag : Nat) (body : List Byte) : List Byte :=
  let covered := natBytes 2 (body.length + 2) ++ natBytes 1 kind ++ natBytes 1 tag ++ body
  startByte :: (covered ++ checkBytes covered)

/-- A frame that passed R182, by kind, tag and body. -/
abbrev RawFrame := Nat × Nat × List Byte

/-- What stands at a start byte, given the bytes after it: a whole frame and what follows it, a frame to discard, or a frame
of which more bytes are to come (R182). -/
inductive FrameView
  | whole (frame : RawFrame) (rest : List Byte)
  | bad
  | partly

/-- The view of the bytes after a start byte (R182, 13.1). -/
def frameView (bs : List Byte) : FrameView :=
  if bs.length < 2 then .partly
  else
    let n := beNat (bs.take 2)
    if n < 2 ∨ 4096 < n then .bad
    else if bs.length < n + 4 then .partly
    else
      let covered := bs.take (n + 2)
      if (bs.drop (n + 2)).take 2 = checkBytes covered then
        .whole (fieldAt covered 2 1, fieldAt covered 3 1, covered.drop 4) (bs.drop (n + 4))
      else .bad

/-- The receiver's search (R182): the whole frames it finds, in order, and the bytes of the frame still incomplete. A
discarded frame sends the search to the byte after its start byte. Where `gap` is set, the bytes have stopped for 50 ms, and
an incomplete frame is discarded too. `fuel` is at least the number of bytes. -/
def receive (gap : Bool) : Nat → List Byte → List RawFrame × List Byte
  | 0, bs => ([], bs)
  | _ + 1, [] => ([], [])
  | fuel + 1, b :: bs =>
    if b ≠ startByte then receive gap fuel bs
    else
      match frameView bs with
      | .whole frame rest =>
        let (frames, left) := receive gap fuel rest
        (frame :: frames, left)
      | .bad => receive gap fuel bs
      | .partly => if gap then receive gap fuel bs else ([], b :: bs)

/-! ### Request bodies (13.1, R183, R200) -/

/-- The kind number of a request (13.1). -/
def requestKind : Request → Nat
  | .statusGet => 0x01
  | .timeSet _ => 0x02
  | .settingSet _ _ => 0x03
  | .settingGet _ => 0x04
  | .reset _ => 0x05
  | .stringReset _ => 0x06
  | .dockGet _ => 0x07
  | .dockList => 0x08
  | .planSet _ _ => 0x09
  | .planGet _ => 0x0A
  | .terminalAuth _ _ _ _ => 0x0B
  | .passGet _ => 0x0C
  | .passCancel _ _ => 0x0D
  | .tariffStageBand _ _ _ _ => 0x0E
  | .tariffStageClear => 0x0F
  | .tariffCommit _ => 0x10
  | .tariffGet _ => 0x11
  | .policySet _ _ _ => 0x12
  | .policyGet _ => 0x13
  | .riderReport _ _ _ _ => 0x14
  | .vanOpen _ _ _ => 0x15
  | .vanRelease _ => 0x16
  | .vanClose _ => 0x17
  | .vanGet => 0x18
  | .journalRead _ => 0x19
  | .journalAck _ _ _ => 0x1A
  | .journalReoffer => 0x1B
  | .linkState _ => 0x1C
  | .directive _ _ _ => 0x1D
  | .badKind k => k
  | .badLength k => k

/-- Take a number of `size` bytes off the front of a body. -/
def takeNat (size : Nat) (bs : List Byte) : Option (Nat × List Byte) :=
  if bs.length < size then none else some (beNat (bs.take size), bs.drop size)

/-- Take an optional number: a presence byte of 0 or 1, and the number when present (R200). -/
def takeOpt (size : Nat) (bs : List Byte) : Option (Option Nat × List Byte) :=
  match takeNat 1 bs with
  | some (0, rest) => some (none, rest)
  | some (1, rest) =>
    match takeNat size rest with
    | some (v, rest) => some (some v, rest)
    | none => none
  | _ => none

/-- Take an optional number as `takeOpt` does. A presence byte above 1 fails as a field outside its range and not as a length,
where the body has a length its kind allows (R183): `takeLoose` then gives the value 0, which no optional field of a request
admits, and takes the bytes of the value with it where `filled` is set. -/
def takeLoose (filled : Bool) (size : Nat) (bs : List Byte) : Option (Option Nat × List Byte) :=
  match takeNat 1 bs with
  | some (_ + 2, rest) =>
    if filled then (takeNat size rest).map (fun v => (some 0, v.2)) else some (some 0, rest)
  | _ => takeOpt size bs

/-- Take the whole body as numbers of the sizes given (R183: neither shorter nor longer). -/
def takeAll : List Nat → List Byte → Option (List Nat)
  | [], bs => if bs = [] then some [] else none
  | n :: ns, bs =>
    match takeNat n bs with
    | none => none
    | some (v, rest) =>
      match takeAll ns rest with
      | none => none
      | some vs => some (v :: vs)

/-- Take `n` manifest entries: kind, optional selector, count and end mark, 1 for yes and 2 for no (R135, R200). DESIGN CHOICE
(log 18): an end-mark byte other than 1 reads as no end mark. -/
def takeManifest : Nat → List Byte → Option (List ManifestArg)
  | 0, bs => if bs = [] then some [] else none
  | n + 1, bs =>
    match takeNat 1 bs with
    | none => none
    | some (kind, r1) =>
      let after := fun (filled : Bool) =>
        match takeLoose filled 1 r1 with
        | none => none
        | some (selector, r2) =>
          match takeNat 1 r2 with
          | none => none
          | some (count, r3) =>
            match takeNat 1 r3 with
            | none => none
            | some (mark, r4) =>
              match takeManifest n r4 with
              | none => none
              | some more => some ({ kind := kind, selector := selector, count := count, endMark := mark == 1 } :: more)
      match after true with
      | some m => some m
      | none => after false

/-- The TARIFF_COMMIT body: the mode, and for AT the apply time (R84). -/
def commitOf (bs : List Byte) : Option CommitArg :=
  match takeNat 1 bs with
  | none => none
  | some (mode, rest) =>
    match mode with
    | 1 => if rest = [] then some .now else none
    | 2 => (takeAll [4] rest).bind (fun v => v.head?.map .at)
    | 3 => if rest = [] then some .cancel else none
    | m => if rest.length = 0 ∨ rest.length = 4 then some (.other m) else none

/-- The lengths a RIDER_REPORT body can have: those of a dock or a bike id with a member id, a pass slot or no value (R117,
R200). -/
def riderLengths : List Nat := [5, 6, 8, 9, 12]

/-- The reporter of a RIDER_REPORT body: a choice and its value. DESIGN CHOICE (log 18): anonymous is the third choice and
carries no value. An unknown choice is read with any of the three lengths, for the owner to refuse (R183). -/
def reporterArgOf (bs : List Byte) : Option ReporterArg :=
  match takeNat 1 bs with
  | some (1, r) => (takeAll [4] r).bind (fun v => v.head?.map .member)
  | some (2, r) => (takeAll [1] r).bind (fun v => v.head?.map .passSlot)
  | some (3, r) => if r = [] then some .anonymous else none
  | some (p, r) => if r.length = 0 ∨ r.length = 1 ∨ r.length = 4 then some (.other p) else none
  | none => none

/-- The RIDER_REPORT body after its target: kind, source and reporter (R117, R200). -/
def riderRest (target : TargetArg) (bs : List Byte) : Option Request :=
  match takeNat 1 bs with
  | none => none
  | some (kind, r) =>
    match takeNat 1 r with
    | none => none
    | some (source, r) => (reporterArgOf r).map (.riderReport target kind source)

/-- The RIDER_REPORT body: target choice and target, kind, source, reporter choice and reporter (R117, R200). An unknown
target choice is read with a value of one byte where the rest then fits, and else as a report of which only that choice
counts, for the owner to refuse (R183). -/
def riderReportOf (bs : List Byte) : Option Request :=
  match takeNat 1 bs with
  | some (1, r) => (takeNat 1 r).bind (fun v => riderRest (.dock v.1) v.2)
  | some (2, r) => (takeNat 4 r).bind (fun v => riderRest (.bike v.1) v.2)
  | some (c, r) =>
    match (takeNat 1 r).bind (fun v => riderRest (.other c) v.2) with
    | some q => some q
    | none => if riderLengths.contains bs.length then some (.riderReport (.other c) 0 0 .anonymous) else none
  | none => none

/-- The request that a body of a known kind spells, or `none` where its length is not one the kind allows (R183). DESIGN
CHOICE (log 18): the length before the argument field of a DIRECTIVE (R170) is one byte, which holds the length of every
argument field of chapter 10. -/
def requestOfBody (kind : Nat) (bs : List Byte) : Option Request :=
  match kind with
  | 0x01 => if bs = [] then some .statusGet else none
  | 0x02 => match takeAll [4] bs with | some [t] => some (.timeSet t) | _ => none
  | 0x03 => match takeAll [1, 4] bs with | some [n, v] => some (.settingSet n v) | _ => none
  | 0x04 => match takeAll [1] bs with | some [n] => some (.settingGet n) | _ => none
  | 0x05 => match takeAll [1] bs with | some [m] => some (.reset m) | _ => none
  | 0x06 => match takeAll [1] bs with | some [l] => some (.stringReset l) | _ => none
  | 0x07 => match takeAll [1] bs with | some [d] => some (.dockGet d) | _ => none
  | 0x08 => if bs = [] then some .dockList else none
  | 0x09 =>
    match takeAll [1, 1, 1, 1, 2, 2, 1] bs with
    | some [code, a, f, p, u, x, h] =>
      some (.planSet code { admitted := a, freeMinutes := f, percent := p, unlockFee := u, ceiling := x, hireLimit := h })
    | _ => none
  | 0x0A => match takeAll [1] bs with | some [code] => some (.planGet code) | _ => none
  | 0x0B =>
    if bs.length = 16 then
      some (.terminalAuth (fieldAt bs 0 1) (fieldAt bs 1 1) (fieldAt bs 2 2) (bs.drop 4))
    else none
  | 0x0C => match takeAll [1] bs with | some [slot] => some (.passGet slot) | _ => none
  | 0x0D => match takeAll [1, 2] bs with | some [slot, serial] => some (.passCancel slot serial) | _ => none
  | 0x0E =>
    match takeNat 1 bs with
    | none => none
    | some (band, r) =>
      match takeLoose (r.length = 6) 2 r with
      | none => none
      | some (edge, r) => match takeAll [1, 2] r with | some [b, rate] => some (.tariffStageBand band edge b rate) | _ => none
  | 0x0F => if bs = [] then some .tariffStageClear else none
  | 0x10 => (commitOf bs).map .tariffCommit
  | 0x11 => match takeAll [1] bs with | some [sel] => some (.tariffGet sel) | _ => none
  | 0x12 => match takeAll [1, 1, 1] bs with | some [k, c, n] => some (.policySet k c n) | _ => none
  | 0x13 => match takeAll [1] bs with | some [k] => some (.policyGet k) | _ => none
  | 0x14 => riderReportOf bs
  | 0x15 =>
    match takeNat 2 bs with
    | none => none
    | some (van, r) =>
      match takeNat 4 r with
      | none => none
      | some (crew, r) =>
        match takeNat 1 r with
        | none => none
        | some (n, r) => (takeManifest n r).map (fun m => .vanOpen van crew m)
  | 0x16 => match takeAll [1] bs with | some [d] => some (.vanRelease d) | _ => none
  | 0x17 => match takeAll [2] bs with | some [v] => some (.vanClose v) | _ => none
  | 0x18 => if bs = [] then some .vanGet else none
  | 0x19 => match takeAll [1] bs with | some [n] => some (.journalRead n) | _ => none
  | 0x1A => match takeAll [2, 4, 1] bs with | some [e, q, r] => some (.journalAck e q r) | _ => none
  | 0x1B => if bs = [] then some .journalReoffer else none
  | 0x1C => match takeAll [1] bs with | some [v] => some (.linkState v) | _ => none
  | 0x1D =>
    match takeNat 4 bs with
    | none => none
    | some (id, r) =>
      match takeNat 1 r with
      | none => none
      | some (k, r) =>
        match takeNat 1 r with
        | none => none
        | some (n, r) => if r.length = n then some (.directive id k r) else none
  | _ => none

/-- The request that a frame which passed R182 makes: a kind outside the catalogue is answered BAD_KIND, and a known kind
with a body of the wrong length OUT_OF_RANGE (R183). -/
def requestOfFrame (kind : Nat) (body : List Byte) : Request :=
  if 0x01 ≤ kind ∧ kind ≤ 0x1D then (requestOfBody kind body).getD (.badLength kind) else .badKind kind

/-- A field that may be absent: its presence byte and, when present, its bytes (R200). -/
def optBytes {α : Type} (f : α → List Byte) : Option α → List Byte
  | none => natBytes 1 0
  | some a => natBytes 1 1 ++ f a

/-- A list: its count byte and its items (R200). -/
def listBytes {α : Type} (f : α → List Byte) (xs : List α) : List Byte := natBytes 1 xs.length ++ xs.flatMap f

/-- A choice of yes or no, numbered from 1 (R200). -/
def yesNo (b : Bool) : List Byte := natBytes 1 (if b then 1 else 2)

/-- The bytes of a manifest entry as VAN_OPEN carries it. -/
def manifestArgBytes (m : ManifestArg) : List Byte :=
  natBytes 1 m.kind ++ optBytes (natBytes 1) m.selector ++ natBytes 1 m.count ++ yesNo m.endMark

/-- The body that carries a request (R200). DESIGN CHOICE (log 18): the value of a setting takes 4 bytes, which hold the range
of every setting (R195). DESIGN CHOICE (log 18): a value that only one choice has, such as the apply time of AT, follows its
choice without a presence byte, while the selector of a manifest entry has one, since R135 lets it be absent. -/
def requestBody : Request → List Byte
  | .statusGet => []
  | .timeSet t => natBytes 4 t
  | .settingSet n v => natBytes 1 n ++ natBytes 4 v
  | .settingGet n => natBytes 1 n
  | .reset m => natBytes 1 m
  | .stringReset l => natBytes 1 l
  | .dockGet d => natBytes 1 d
  | .dockList => []
  | .planSet code p => natBytes 1 code ++ natBytes 1 p.admitted ++ natBytes 1 p.freeMinutes ++ natBytes 1 p.percent ++
      natBytes 2 p.unlockFee ++ natBytes 2 p.ceiling ++ natBytes 1 p.hireLimit
  | .planGet code => natBytes 1 code
  | .terminalAuth t k h ref => natBytes 1 t ++ natBytes 1 k ++ natBytes 2 h ++ ref
  | .passGet slot => natBytes 1 slot
  | .passCancel slot serial => natBytes 1 slot ++ natBytes 2 serial
  | .tariffStageBand band edge b rate => natBytes 1 band ++ optBytes (natBytes 2) edge ++ natBytes 1 b ++ natBytes 2 rate
  | .tariffStageClear => []
  | .tariffCommit .now => natBytes 1 1
  | .tariffCommit (.at t) => natBytes 1 2 ++ natBytes 4 t
  | .tariffCommit .cancel => natBytes 1 3
  | .tariffCommit (.other m) => natBytes 1 m
  | .tariffGet sel => natBytes 1 sel
  | .policySet k c n => natBytes 1 k ++ natBytes 1 c ++ natBytes 1 n
  | .policyGet k => natBytes 1 k
  | .riderReport target kind source reporter =>
      (match target with
        | .dock d => natBytes 1 1 ++ natBytes 1 d
        | .bike b => natBytes 1 2 ++ natBytes 4 b
        | .other c => natBytes 1 c ++ natBytes 1 0) ++ natBytes 1 kind ++ natBytes 1 source ++
      (match reporter with
        | .member m => natBytes 1 1 ++ natBytes 4 m
        | .passSlot p => natBytes 1 2 ++ natBytes 1 p
        | .anonymous => natBytes 1 3
        | .other p => natBytes 1 p)
  | .vanOpen van crew manifest => natBytes 2 van ++ natBytes 4 crew ++ listBytes manifestArgBytes manifest
  | .vanRelease d => natBytes 1 d
  | .vanClose v => natBytes 2 v
  | .vanGet => []
  | .journalRead n => natBytes 1 n
  | .journalAck e q r => natBytes 2 e ++ natBytes 4 q ++ natBytes 1 r
  | .journalReoffer => []
  | .linkState v => natBytes 1 v
  | .directive id k args => natBytes 4 id ++ natBytes 1 k ++ natBytes 1 args.length ++ args
  | .badKind _ => []
  | .badLength _ => []

/-! ### Record bodies and the envelope (13.4, R200) -/

/-- A scheme time, 0 standing for UNSET (R199). -/
def timeBytes (t : Option Nat) : List Byte := natBytes 4 (t.getD 0)

/-- A hire reference in a body. -/
def refBytes (r : HireRef) : List Byte := natBytes 2 r.station ++ natBytes 4 r.count

/-- A hirer in a body: kind and id, each field in the smallest size that holds it (R200). -/
def hirerFields (h : Hirer) : List Byte :=
  natBytes 1 (hirerCode h) ++
    (match h with
      | .member id => natBytes 4 id
      | .pass slot serial => natBytes 1 slot ++ natBytes 2 serial
      | .crew id => natBytes 4 id
      | .remote id => natBytes 4 id)

/-- A reporter in a body: a choice and its identity, which has no presence byte (DESIGN CHOICE, log 18, as in
`reservationBytes`). -/
def reporterBytes : Reporter → List Byte
  | .person id => natBytes 1 1 ++ natBytes 4 id
  | .pass slot serial => natBytes 1 2 ++ natBytes 1 slot ++ natBytes 2 serial
  | .anonymous => natBytes 1 3

/-- A set of flags. DESIGN CHOICE (log 18): R200 gives no layout for a set, whether of flags, of causes, of fault kinds or of
pending notices, and the model writes the list of the members set, numbered from 1 in the order given. -/
def flagBytes (flags : List Bool) : List Byte :=
  listBytes (natBytes 1) ((flags.zipIdx 1).filterMap (fun f => if f.1 then some f.2 else none))

/-- A reservation in a body: a choice, and the entry. DESIGN CHOICE (log 18): a value that only one choice has, here the entry,
follows its choice without a presence byte. -/
def reservationBytes : Reservation → List Byte
  | .unreserved => natBytes 1 1
  | .collect n => natBytes 1 2 ++ natBytes 1 n
  | .deliver n => natBytes 1 3 ++ natBytes 1 n

/-- A set of bike fault kinds in a body: the list of their numbers (DESIGN CHOICE, log 18, as in `flagBytes`). -/
def faultSetBytes (fs : List BikeFault) : List Byte := listBytes (fun f => natBytes 1 (f.ctorIdx + 1)) fs

/-- The bike part of an item. -/
def itemBikeBytes (b : ItemBike) : List Byte :=
  natBytes 4 b.id ++ natBytes 1 (b.condition.ctorIdx + 1) ++ faultSetBytes b.faults ++ yesNo b.settling

/-- An item of a DOCK_CENSUS. It has no dock number: the items are those of the configured docks, in dock order (R180). DESIGN
CHOICE (log 18): the fields of its bike, which stand or fall together, share one presence byte. -/
def censusItemBytes (i : CensusItem) : List Byte :=
  natBytes 1 (i.state.ctorIdx + 1) ++ natBytes 1 (i.lock.ctorIdx + 1) ++ natBytes 1 i.counter ++
    reservationBytes i.reservation ++ optBytes itemBikeBytes i.bike

/-- An item of a fault summary. -/
def summaryItemBytes (i : SummaryItem) : List Byte :=
  natBytes 1 i.dock ++ natBytes 1 (i.state.ctorIdx + 1) ++ natBytes 1 i.counter ++
    optBytes (fun b => natBytes 4 b.id ++ natBytes 1 (b.condition.ctorIdx + 1) ++ faultSetBytes b.faults) i.bike

/-- The attention flag and its causes in a body. -/
def attentionBytes (a : Attention) : List Byte := yesNo a.raised ++ flagBytes [a.quarantine, a.lockout, a.offline]

/-- A tariff band in a body. -/
def bandBytes (b : Band) : List Byte := optBytes (natBytes 2) b.edge ++ natBytes 1 b.block ++ natBytes 2 b.rate

/-- The open-hire fields that HIRE_EXPIRED carries. -/
def openHireBytes (h : OpenHire) : List Byte :=
  refBytes h.ref ++ hirerFields h.hirer ++ natBytes 4 h.bikeId ++ natBytes 4 h.start ++ natBytes 1 h.plan ++
    natBytes 1 h.generation

/-- The fields of the priced close, but for the fare and the flags. DESIGN CHOICE (log 18): they stand in R108's order, with
H′ after the credit applied, where R99 lists H′ before the credits. DESIGN CHOICE (log 24): a credit applied above 65,535
stands in its 2 bytes as its remainder by 65,536. -/
def closeBytes (c : PricedClose) : List Byte :=
  refBytes c.ref ++ hirerFields c.hirer ++ natBytes 4 c.bikeId ++ natBytes 1 c.dock ++ natBytes 2 c.startStation ++
    natBytes 4 c.start ++ timeBytes c.returned ++ natBytes 1 c.plan ++ natBytes 1 c.tagGeneration ++
    optBytes (natBytes 1) c.usedGeneration ++ optBytes (natBytes 4) c.duration ++ optBytes (natBytes 2) c.minutes ++
    optBytes (natBytes 2) c.chargeable ++ optBytes (natBytes 4) c.base ++ optBytes (natBytes 4) c.afterPercent ++
    natBytes 2 c.releaseCredit ++ optBytes (natBytes 2) c.returnCredit ++ optBytes (natBytes 2) c.creditApplied ++
    optBytes (natBytes 4) c.afterCredits

/-- The early reason of a cause, where it has one (R106). -/
def earlyReason : FinalCause → Option EarlyReason
  | .earlyFinal r => some r
  | .deadline => none
  | .startup => none

/-- What passes returned for the close of a PASS hirer: charge and shortfall (R70, R108). -/
def PassResult.amounts : PassResult → Option (Nat × Nat)
  | .charged charge shortfall => some (charge, shortfall)
  | .noPass => none
  | .absent => none

/-- The HIRE_CLOSE fields in R108's order. DESIGN CHOICE (log 18): pass charge and shortfall are two optional fields with a
presence byte each, and the three values of a waiver are one field. -/
def hireCloseBytes (c : PricedClose) (w : Option Waiver) (cause : FinalCause) (time : Option Nat) (pass : PassResult)
    (lost : Nat) : List Byte :=
  closeBytes c ++ natBytes 2 c.fare ++
    flagBytes [c.flags.deferred, c.flags.startupReturn, c.flags.clockSkew, c.flags.overlong, c.flags.tariffStale,
      c.flags.saturated, w.isSome, (earlyReason cause).isSome, cause == .startup] ++
    optBytes (fun r => natBytes 1 (r.ctorIdx + 1)) (earlyReason cause) ++ timeBytes time ++
    optBytes (fun w => natBytes 1 (w.source.ctorIdx + 1) ++ natBytes 1 (w.kind.ctorIdx + 1) ++ timeBytes w.time) w ++
    optBytes (natBytes 2) (pass.amounts.map Prod.fst) ++ optBytes (natBytes 2) (pass.amounts.map Prod.snd) ++
    natBytes 2 lost

/-- The FAULT fields in R130's order. -/
def faultBytes (f : FaultRecord) (dropped : Nat) : List Byte :=
  natBytes 1 (f.subject.ctorIdx + 1) ++ optBytes (natBytes 1) f.dock ++ optBytes (natBytes 4) f.bikeId ++
    optBytes (natBytes 4) f.tagBikeId ++ optBytes refBytes f.tagRef ++
    optBytes (fun k => match k with | .bike b => natBytes 1 (b.ctorIdx + 1) | .dock d => natBytes 1 (d.ctorIdx + 1)) f.kind ++
    optBytes (fun x => natBytes 1 (x.ctorIdx + 1)) f.source ++ optBytes (fun x => natBytes 1 (x.ctorIdx + 1)) f.cause ++
    optBytes reporterBytes f.reporter ++ optBytes (natBytes 1) f.reporters ++ optBytes (natBytes 1) f.confirmCount ++
    natBytes 1 (f.effect.ctorIdx + 1) ++ optBytes (fun x => natBytes 1 (x.ctorIdx + 1)) f.conditionAfter ++
    optBytes (natBytes 1) f.counterAfter ++ optBytes (natBytes 1) f.counterBefore ++
    optBytes (fun x => natBytes 1 (x.ctorIdx + 1)) f.dockState ++ flagBytes [f.bikeAbsent] ++ natBytes 2 dropped

/-- The PASS_ISSUE fields (R64). -/
def passIssueBytes (slot : Nat) (p : Pass) : List Byte :=
  natBytes 1 slot ++ natBytes 2 p.serial ++ natBytes 1 p.terminal ++ natBytes 1 (p.kind.ctorIdx + 1) ++ natBytes 2 p.hold ++
    p.authRef ++ natBytes 4 p.issued ++ natBytes 4 p.expiry

/-- The PASS_SETTLE fields (R75): capture is the amount charged, release the hold less it. -/
def passSettleBytes (slot : Nat) (p : Pass) : List Byte :=
  natBytes 1 slot ++ natBytes 2 p.serial ++ natBytes 1 p.terminal ++ p.authRef ++ natBytes 1 (p.kind.ctorIdx + 1) ++
    natBytes 2 p.hold ++ natBytes 4 p.issued ++ natBytes 4 p.expiry ++ natBytes 2 p.charged ++
    natBytes 2 (p.hold - p.charged) ++ natBytes 1 p.rides ++
    flagBytes [p.cancelled, p.unresolved, p.shortfall, p.rides == 0]

/-- A manifest entry in a body: kind, selector for COLLECT, count asked, target, done and short counts (R153). -/
def manifestBytes (m : ManifestEntry) : List Byte :=
  (match m.kind with
    | .collect s => natBytes 1 1 ++ natBytes 1 1 ++ natBytes 1 (s.ctorIdx + 1)
    | .deliver => natBytes 1 2 ++ natBytes 1 0) ++
    natBytes 1 m.asked ++ natBytes 1 m.target ++ natBytes 1 m.done ++ natBytes 1 m.short

/-- The VAN_MOVE fields (R152). -/
def vanMoveBytes (m : VanMove) : List Byte :=
  natBytes 2 m.session ++ natBytes 2 m.van ++ natBytes 1 (if m.collect then 1 else 2) ++ natBytes 1 m.entry ++
    natBytes 1 m.dock ++ natBytes 4 m.bikeId ++ timeBytes m.time ++ optBytes yesNo m.reserved

/-- The ending fields of a session (R153). DESIGN CHOICE (log 18): they stand in R153's order in VAN_GET as well, for R154
gives no order, and R134 lists the ended time last. -/
def endingBytes (e : VanEnding) : List Byte :=
  timeBytes e.time ++ natBytes 1 (e.endedBy.ctorIdx + 1) ++ natBytes 1 (e.outcome.ctorIdx + 1)

/-- The VAN_SUMMARY fields (R153). DESIGN CHOICE (log 18): the SHORT mark, like every mark that stands alone, is a choice of
yes or no, for R200 does not say how a mark is written. -/
def vanSummaryBytes (v : VanSummary) : List Byte :=
  natBytes 2 v.session ++ natBytes 2 v.van ++ natBytes 4 v.crew ++ timeBytes v.opened ++ endingBytes v.ending ++
    yesNo v.short ++ natBytes 2 v.dropped ++ listBytes manifestBytes v.results

/-- A pass state in a body, FREE being 1 (R76). -/
def passStateBytes : Option PassState → List Byte
  | none => natBytes 1 1
  | some p => natBytes 1 (p.ctorIdx + 2)

/-- The number of a value in the order in which a chapter lists the values (R200). -/
def listed {α : Type} [BEq α] (values : List α) (x : α) : Nat := values.idxOf x + 1

/-- The fields that an OUT_OF_RANGE of a directive of a kind can name, in test order (R172). DESIGN CHOICE (log 18): a hire
reference is named as two fields, its station id and its count, where the table lists it as one item; so the amount of a
PASS_CHARGE has the number after both. -/
def directiveFields (kind : Nat) : List Field :=
  match kind with
  | 1 => [.bike, .condition, .nextState]
  | 2 => [.dock]
  | 3 => [.dock, .member, .planCode]
  | 4 => [.member]
  | 5 => [.member]
  | 6 => [.hireStation, .hireCount]
  | 7 => [.slot, .serial, .hireStation, .hireCount, .amount]
  | _ => [.kind]

/-- The reasons of a DIRECTIVE_REPLY, in the order of the chapter Central Office Directives (R173 to R175, R179). -/
def directiveReasons : List Reason :=
  [.condition, .notLockedOut, .clockUnset, .dockOffline, .noBike, .dockFault, .dockReserved, .bikeUnavailable, .dockBusy,
    .cardDenied, .planClosed, .hireLimit, .hireTableFull, .journalFull, .passState]

/-- The result fields of a DIRECTIVE_REPLY of a kind (10.3 to 10.7). DESIGN CHOICE (log 18): charge, shortfall and state after
in the reply of a HIRE_CLOSED have a presence byte each; and the flag REPLACED of a CENSUS (R180) is a set of one flag, after
the choice of posted, 1, or waiting, 2. -/
def directiveResultBytes (kind : Nat) : DirectiveResult → List Byte
  | .empty => []
  | .field f => natBytes 1 (listed (directiveFields kind) f)
  | .conditionFound c => natBytes 1 (c.ctorIdx + 1)
  | .bikeSet bike dock before after changed => natBytes 4 bike ++ natBytes 1 dock ++ natBytes 1 (before.ctorIdx + 1) ++
      natBytes 1 (after.ctorIdx + 1) ++ yesNo changed
  | .dockClear dock before after => natBytes 1 dock ++ natBytes 1 before ++ natBytes 1 (after.ctorIdx + 1)
  | .remoteRelease dock bike ref => natBytes 1 dock ++ natBytes 4 bike ++ refBytes ref
  | .deny changed held => yesNo changed ++ natBytes 2 held
  | .hireClosed h after => refBytes h.ref ++ hirerFields h.hirer ++ natBytes 4 h.bikeId ++ natBytes 4 h.start ++
      natBytes 1 h.generation ++
      (match h.hirer with
        | .pass _ _ => optBytes (natBytes 2) (some 0) ++ optBytes (natBytes 2) (some 0) ++ optBytes passStateBytes (some after)
        | _ => natBytes 1 0 ++ natBytes 1 0 ++ natBytes 1 0)
  | .passCharge charge short after => natBytes 2 charge ++ natBytes 2 short ++ passStateBytes (some after)
  | .passStateFound found => passStateBytes found
  | .summary items a => listBytes summaryItemBytes items ++ attentionBytes a
  | .census n posted replaced => natBytes 1 n ++ yesNo posted ++ flagBytes [replaced]

/-- The body of a START record (R196). DESIGN CHOICE (log 18): the four node counts, a group of fixed size, are fields and no
list, so no count byte precedes them. -/
def startBytes (b : StartBody) : List Byte :=
  natBytes 1 (b.cause.ctorIdx + 1) ++ listBytes (fun r => natBytes 1 (r.ctorIdx + 1)) b.damaged ++ natBytes 2 b.stationId ++
    b.counts.flatMap (natBytes 1) ++ natBytes 2 b.epoch ++ natBytes 1 b.openHires ++ natBytes 1 b.passes ++
    natBytes 1 b.waitingEntries ++ natBytes 2 b.records

/-- The body of a DOCK_CENSUS record (R180, R197). DESIGN CHOICE (log 18): no chapter lists the causes together; STARTUP is 1
and DIRECTIVE 2. -/
def censusBytes (b : CensusBody) : List Byte :=
  (match b.reason with | .startup => natBytes 1 1 | .directive id => natBytes 1 2 ++ natBytes 4 id) ++
    natBytes 1 b.stock ++ natBytes 1 b.available ++ listBytes censusItemBytes b.items

/-- The bytes of a record body (R200). DESIGN CHOICE (log 18): the signed difference of a CLOCK_STEP (R193) is a choice, 1 for
a step forward and 2 for one backward, and the size of the step; the number of bands of a TARIFF_APPLIED (R88) is the count
byte of its list. -/
def bodyBytes : Body → List Byte
  | .start b => startBytes b
  | .dockCensus b => censusBytes b
  | .hireOpen h issue dock removal credit untracked =>
      refBytes h.ref ++ hirerFields h.hirer ++ optBytes (natBytes 1) issue ++ natBytes 4 h.bikeId ++ natBytes 1 dock ++
      natBytes 4 h.start ++ timeBytes removal ++ natBytes 1 h.plan ++ natBytes 1 h.generation ++ natBytes 2 credit ++
      flagBytes [untracked]
  | .hireClose c w cause time pass lost => hireCloseBytes c w cause time pass lost
  | .hireExpired h cause => openHireBytes h ++ natBytes 1 (cause.ctorIdx + 1)
  | .passIssue slot p => passIssueBytes slot p
  | .passSettle slot p => passSettleBytes slot p
  | .fault f dropped => faultBytes f dropped
  | .vanMove m => vanMoveBytes m
  | .vanSummary v => vanSummaryBytes v
  | .directiveReply id kind arrival outcome reason result =>
      natBytes 4 id ++ natBytes 1 kind ++ timeBytes arrival ++ natBytes 1 (outcome.ctorIdx + 1) ++
      optBytes (fun r => natBytes 1 (listed directiveReasons r)) reason ++ directiveResultBytes kind result
  | .clockStep before after => natBytes 4 before ++ natBytes 4 after ++
      (if before ≤ after then natBytes 1 1 ++ natBytes 4 (after - before) else natBytes 1 2 ++ natBytes 4 (before - after))
  | .tariffApplied r => natBytes 1 r.newGeneration ++ natBytes 1 r.oldGeneration ++
      (match r.requested with | none => natBytes 1 1 | some t => natBytes 1 2 ++ natBytes 4 t) ++ timeBytes r.applied ++
      listBytes bandBytes r.bands

/-- The kind of a record body (R156). -/
def bodyKind : Body → RecordKind
  | .start _ => .start
  | .dockCensus _ => .dockCensus
  | .hireOpen _ _ _ _ _ _ => .hireOpen
  | .hireClose _ _ _ _ _ _ => .hireClose
  | .hireExpired _ _ => .hireExpired
  | .passIssue _ _ => .passIssue
  | .passSettle _ _ => .passSettle
  | .fault _ _ => .fault
  | .vanMove _ => .vanMove
  | .vanSummary _ => .vanSummary
  | .directiveReply _ _ _ _ _ _ => .directiveReply
  | .clockStep _ _ => .clockStep
  | .tariffApplied _ => .tariffApplied

/-- A record as a JOURNAL_READ reply carries it: the envelope and the body (13.4). -/
def envelopeBytes (r : Record) : List Byte :=
  natBytes 2 r.epoch ++ natBytes 4 r.sequence ++ timeBytes r.time ++ natBytes 1 ((bodyKind r.body).ctorIdx + 1) ++
    natBytes 1 r.retries ++ natBytes 2 (bodyBytes r.body).length ++ bodyBytes r.body

/-- The journal summary in a body (R167). -/
def journalSummaryBytes (j : JournalSummary) : List Byte :=
  yesNo j.ready ++ natBytes 1 (j.backhaul.ctorIdx + 1) ++ natBytes 2 j.held ++ natBytes 2 j.unsent ++ natBytes 2 j.sent ++
    natBytes 2 j.parked ++ natBytes 2 j.free ++ natBytes 1 j.setAside ++ yesNo j.waiting ++ natBytes 2 j.epoch ++
    natBytes 4 j.next ++ natBytes 1 j.creditLimit ++ natBytes 1 j.retryLimit ++ natBytes 1 j.openReserve ++ natBytes 2 j.fatal

/-! ### Reply and notice frames (13.1) -/

/-- The counts of a DOCK_STATE notice. DESIGN CHOICE (log 18): the counts of the eight dock states, a group of fixed size, are
fields and no list, so no count byte precedes them. -/
def dockCountsBytes (c : DockCounts) : List Byte :=
  natBytes 1 c.stock ++ natBytes 1 c.available ++ natBytes 1 c.offline ++ natBytes 1 c.empty ++ natBytes 1 c.occupied ++
    natBytes 1 c.tagWriting ++ natBytes 1 c.unlocking ++ natBytes 1 c.releaseOpen ++ natBytes 1 c.relocking ++
    natBytes 1 c.lockedOut ++ natBytes 1 c.quarantined ++ natBytes 1 c.recalled

/-- The counts of a PASS_STATE notice. DESIGN CHOICE (log 18): the counts of the six pass states are fields and no list, as in
`dockCountsBytes`. -/
def passCountsBytes (c : PassCounts) : List Byte :=
  natBytes 1 c.free ++ natBytes 1 c.issued ++ natBytes 1 c.onRide ++ natBytes 1 c.closing ++ natBytes 1 c.idle ++
    natBytes 1 c.settling

/-- The values of a VAN_STATE notice. DESIGN CHOICE (log 18): the session id of IDLE, which R134 calls none, is written as 0
in its two bytes, without a presence byte; and the sums of targets and of done counts, for which R154 gives no range, take 2
bytes each. -/
def vanReportBytes (v : VanReport) : List Byte :=
  natBytes 1 (v.phase.ctorIdx + 1) ++ natBytes 2 v.session ++ natBytes 2 v.targets ++ natBytes 2 v.done ++
    natBytes 1 v.reserved ++ optBytes (fun o => natBytes 1 (o.ctorIdx + 1)) v.outcome

/-- The fields of a plan (R46). -/
def planBytes (p : Plan) : List Byte :=
  yesNo p.admitted ++ natBytes 1 p.freeMinutes ++ natBytes 1 p.percent ++ natBytes 2 p.unlockFee ++ natBytes 2 p.ceiling ++
    natBytes 1 p.hireLimit

/-- The fields of a pass (R61). -/
def passBytes (p : Pass) : List Byte :=
  passStateBytes (some p.state) ++ natBytes 1 (p.kind.ctorIdx + 1) ++ natBytes 2 p.serial ++ natBytes 4 p.code ++
    natBytes 1 p.terminal ++ p.authRef ++ natBytes 2 p.hold ++ natBytes 4 p.issued ++ natBytes 4 p.expiry ++
    natBytes 2 p.charged ++ natBytes 1 p.rides ++ optBytes refBytes p.current ++
    flagBytes [p.cancelled, p.unresolved, p.shortfall]

/-- The pending marks: the list of the kinds pending (DESIGN CHOICE, log 18, as in `flagBytes`). -/
def marksBytes (m : Marks) : List Byte :=
  flagBytes [m.journalReady, m.attention, m.vanState, m.passState, m.dockState]

/-- The items of STATUS_GET in R189's order; the clock state is UNSET or SET, in R192's order. DESIGN CHOICE (log 18): a
session id of none (R134) is 0 in its two bytes, as in `vanReportBytes`; and the four node counts and the counts of docks and
passes by state are fields and no lists, as in `startBytes`. -/
def statusBytes (s : StatusReport) : List Byte :=
  natBytes 2 s.stationId ++ s.counts.flatMap (natBytes 1) ++ natBytes 1 (if s.time.isSome then 2 else 1) ++ timeBytes s.time ++
    dockCountsBytes s.docks ++ natBytes 2 s.denied ++ natBytes 1 s.openHires ++ passCountsBytes s.passes ++
    natBytes 1 s.generation ++ yesNo s.commitPending ++ natBytes 1 s.heldEntries ++ natBytes 1 s.waitingEntries ++
    natBytes 2 s.lostCloses ++ attentionBytes s.attention ++ natBytes 1 s.pendingFaults ++ natBytes 2 s.droppedFaults ++
    natBytes 1 (s.vanPhase.ctorIdx + 1) ++ natBytes 2 s.session ++ journalSummaryBytes s.journal ++
    natBytes 1 s.directives ++ yesNo s.headWaiting ++ natBytes 1 s.placesHeld ++ marksBytes s.marks

/-- The kind of a release by number: MEMBER, PASS, CREW, VAN, REMOTE (R23). -/
def partyBytes : Party → List Byte
  | .hire h _ ref _ =>
    natBytes 1 (match h with | .member _ => 1 | .pass _ _ => 2 | .crew _ => 3 | .remote _ => 5) ++
      natBytes 1 1 ++ refBytes ref
  | .van _ _ => natBytes 1 4 ++ natBytes 1 0

/-- The entry DOCK_GET reads (R44). -/
def dockReportBytes (r : DockReport) : List Byte :=
  natBytes 1 r.dock ++ yesNo r.configured ++ natBytes 1 (r.state.ctorIdx + 1) ++ natBytes 1 (r.lock.ctorIdx + 1) ++
    natBytes 1 r.counter ++ reservationBytes r.reservation ++
    optBytes (fun p => partyBytes p.1 ++ natBytes 1 (p.2.ctorIdx + 1)) r.release ++
    optBytes (fun b => natBytes 4 b.id ++ natBytes 1 (b.condition.ctorIdx + 1) ++ faultSetBytes b.faults ++
      timeBytes b.dockedAt ++ yesNo b.settling) r.bike

/-- An item of DOCK_LIST (R44). DESIGN CHOICE (log 18): bike id and condition, which R44 lists as two fields, have a presence
byte each. -/
def dockItemBytes (i : DockItem) : List Byte :=
  natBytes 1 (i.state.ctorIdx + 1) ++ optBytes (natBytes 4) i.bikeId ++
    optBytes (fun c => natBytes 1 (c.ctorIdx + 1)) i.condition ++ reservationBytes i.reservation

/-- An entry of VAN_GET (R154). -/
def vanEntryBytes (e : VanEntryReport) : List Byte := manifestBytes e.entry ++ listBytes (natBytes 1) e.docks

/-- The detail of VAN_GET (R154). -/
def vanDetailBytes (d : VanDetail) : List Byte :=
  natBytes 1 (d.phase.ctorIdx + 1) ++ natBytes 2 d.session ++ natBytes 2 d.van ++ natBytes 4 d.crew ++ timeBytes d.opened ++
    listBytes vanEntryBytes d.entries ++ listBytes (natBytes 1) d.releases ++ optBytes (natBytes 4) d.idleLeft ++
    optBytes endingBytes d.ending ++ natBytes 1 d.moves ++ natBytes 2 d.dropped ++ yesNo d.summaryWaiting

/-- The summary of the tariff set (R89). -/
def tariffSummaryBytes (t : TariffSummary) : List Byte :=
  natBytes 1 t.current ++ optBytes (natBytes 1) t.previous ++ natBytes 1 t.filled ++
    optBytes (fun c => natBytes 4 c.1 ++ natBytes 1 c.2) t.commit ++ yesNo t.waiting

/-- The fields that an OUT_OF_RANGE of a request kind can name: its owner's in test order, and LENGTH, which the link names
(R183, R186, R200). DESIGN CHOICE (log 18): TARGET of a RIDER_REPORT, a target choice outside its list, is no field that R117
names and is numbered after those it names, though it is tested first; and R117's cases of a member id, of a pass slot and of
a reporter for CREW share one field, REPORTER, numbered 5. -/
def requestFields (kind : Nat) : List Field :=
  (match kind with
    | 0x02 => [.time]
    | 0x03 => [.setting]
    | 0x04 => [.setting]
    | 0x05 => [.mode]
    | 0x06 => [.string]
    | 0x07 => [.dock]
    | 0x09 => [.code, .admitted, .freeMinutes, .percent, .unlockFee, .ceiling, .hireLimit]
    | 0x0A => [.code]
    | 0x0B => [.terminal, .kind, .hold]
    | 0x0C => [.slot]
    | 0x0D => [.slot]
    | 0x0E => [.band, .edge, .block, .rate]
    | 0x10 => [.mode]
    | 0x11 => [.selector]
    | 0x12 => [.kind, .cls, .count]
    | 0x13 => [.kind]
    | 0x14 => [.dock, .bike, .kind, .source, .reporter, .target]
    | 0x15 => [.van, .crew, .kind, .selector, .count, .endMark]
    | 0x16 => [.dock]
    | 0x19 => [.count]
    | 0x1A => [.result]
    | 0x1C => [.state]
    | _ => []) ++ [.length]

/-- The reasons of a REFUSED reply of a request kind, in the order of the owning chapter: that of a TERMINAL_AUTH (R63), and
those of the van requests (R135, R140, R141). -/
def requestReasons (kind : Nat) : List Reason :=
  match kind with
  | 0x0B => [.journalFull]
  | _ => [.vanBusy, .cardDenied, .journalFull, .dockBusy, .notReserved, .dockOffline]

/-- One setting as SETTING_GET gives it: the value in force, and for the first two rows the value stored (R195). -/
def settingBytes (v : SettingName × Nat × Option Nat) : List Byte := natBytes 4 v.2.1 ++ optBytes (natBytes 4) v.2.2

/-- One entry of the policy table (R116). -/
def policyBytes (p : Policy) : List Byte := natBytes 1 (p.cls.ctorIdx + 1) ++ natBytes 1 p.count

/-- The answer to a GET of one entry or of ALL: one entry stands alone, and all of them are a list (R116, R195, R200). -/
def readBytes {α : Type} (f : α → List Byte) : List α → List Byte
  | [x] => f x
  | xs => listBytes f xs

/-- The result fields of a reply to a request of a kind (R185, R200). DESIGN CHOICE (log 18): a BAD_KIND reply carries the kind
as received in its body too, besides the kind of its frame (R183, R199); and the note FATAL and the record's kind, which stand
or fall together in a JOURNAL_ACK reply (R163), are one optional field, whose presence byte is the note. -/
def resultBytes (kind : Nat) : Result → List Byte
  | .empty => []
  | .kind k => natBytes 1 k
  | .field f => natBytes 1 (listed (requestFields kind) f)
  | .vanField entry f => natBytes 1 entry ++ natBytes 1 (listed (requestFields kind) f)
  | .reason r => natBytes 1 (listed (requestReasons kind) r)
  | .value v => natBytes 4 v
  | .ahead n => natBytes 1 n
  | .status s => statusBytes s
  | .timeSet before t step => timeBytes before ++ natBytes 4 t ++ yesNo step
  | .settings vs => readBytes settingBytes vs
  | .notEmpty c => natBytes 1 (c.ctorIdx + 1)
  | .dock r => dockReportBytes r
  | .docks stock available items => natBytes 1 stock ++ natBytes 1 available ++ listBytes dockItemBytes items
  | .plan p => planBytes p
  | .sold slot serial code expiry => natBytes 1 slot ++ natBytes 2 serial ++ natBytes 4 code ++ natBytes 4 expiry
  | .repeated slot serial code => natBytes 1 slot ++ natBytes 2 serial ++ natBytes 4 code
  | .passFree => passStateBytes none
  | .pass p balance inFlight => passBytes p ++ natBytes 2 balance ++ yesNo inFlight
  | .badBand band fault => natBytes 1 band ++ natBytes 1 (fault.ctorIdx + 1)
  | .applied g => natBytes 1 1 ++ natBytes 1 g
  | .commitPending t g => natBytes 1 2 ++ natBytes 4 t ++ natBytes 1 g
  | .tariff s bands => tariffSummaryBytes s ++ listBytes bandBytes bands
  | .staged s positions => tariffSummaryBytes s ++ listBytes (optBytes bandBytes) positions
  | .policies ps => readBytes policyBytes ps
  | .report bike dock effect absent => optBytes (natBytes 4) bike ++ optBytes (natBytes 1) dock ++
      natBytes 1 (effect.ctorIdx + 1) ++ flagBytes [absent]
  | .vanOpened id es => natBytes 2 id ++ listBytes (fun e => natBytes 1 e.1 ++ natBytes 1 e.2) es
  | .vanOutcome o => natBytes 1 (o.ctorIdx + 1)
  | .vanIdle counter => natBytes 1 1 ++ natBytes 2 counter
  | .vanDetail d => vanDetailBytes d
  | .records rs j => natBytes 1 rs.length ++ journalSummaryBytes j ++ rs.flatMap envelopeBytes
  | .disposition d fatal => natBytes 1 (d.ctorIdx + 1) ++ optBytes (fun k => natBytes 1 (k.ctorIdx + 1)) fatal
  | .count n => natBytes 2 n

/-- The body of a reply to a request of a kind: the status code is its first byte (R199). -/
def replyBody (kind : Nat) (r : Reply) : List Byte := natBytes 1 (r.status.ctorIdx + 1) ++ resultBytes kind r.result

/-- The kind number of a notice (13.1). -/
def noticeCode (v : NoticeValue) : Nat :=
  match v with
  | .journalReady _ => 0x41
  | .attention _ => 0x42
  | .vanState _ => 0x43
  | .passState _ => 0x44
  | .dockState _ => 0x45

/-- The values a notice carries. -/
def noticeBytes : NoticeValue → List Byte
  | .journalReady j => journalSummaryBytes j
  | .attention a => attentionBytes a
  | .vanState v => vanReportBytes v
  | .passState p => passCountsBytes p
  | .dockState d => dockCountsBytes d

/-- The bytes of a frame the link sends: a reply carries its request's kind with 0x80 set and the request's tag, and a notice
tag 0 and its number as the first body byte (R185, R188, R199). -/
def sentBytes : SentFrame → List Byte
  | .reply kind tag r => frameBytes (kind ||| 0x80) tag (replyBody kind r)
  | .notice number v => frameBytes (noticeCode v) 0 (natBytes 1 number ++ noticeBytes v)

/-- The bytes a JOURNAL_READ reply of these records takes in its body, which the frame limit bounds (R200). -/
def readSize (j : JournalSummary) (rs : List Record) : Nat :=
  2 + (journalSummaryBytes j).length + (rs.flatMap envelopeBytes).length

end Sys2Proof.Machine
end

