-- ==== Sys2Proof/Machine/Ops.lean ====
section
/-! DEFINITION. The named operations that every block works through: the numbered tables, scheme time, the retained regions,
the notice marks, the dock table with its counts, the journal's posts and slots, and the open-hire table. -/

namespace Sys2Proof.Machine

/-! ### Tables numbered from 1 -/

/-- Entry `n` of a table whose entries are numbered from 1. -/
def entryAt {α : Type} (l : List α) (n : Nat) : Option α := if n = 0 then none else l[n - 1]?

/-- The table with entry `n` replaced; a number outside the table changes nothing. -/
def setEntry {α : Type} (l : List α) (n : Nat) (x : α) : List α := if n = 0 then l else l.set (n - 1) x

/-- A counter that runs from 1 to `top` and wraps to 1. -/
def wrapUp (top n : Nat) : Nat := if top ≤ n then 1 else n + 1

/-- A count that stops at 65,535 (R110, R131, R152, R163). -/
def countUp (n : Nat) : Nat := min Config.countStop (n + 1)

/-- The dock numbers in order (R17). -/
def dockNumbers : List Nat := List.range' 1 64

/-- The pass slots in order (R61). -/
def slotNumbers : List Nat := List.range' 1 32

/-! ### Scheme time (R192) -/

/-- The current scheme time: `none` while the clock is UNSET; it stops at 4,294,967,295. -/
def State.now (s : State) : Option Nat :=
  match s.clock with
  | .unset => none
  | .running base atElapsed => some (min Config.maxTime (base + (s.elapsed - atElapsed) / 1000))

/-- The scheme day of a scheme time, 0 below the day offset. -/
def schemeDay (offset t : Nat) : Nat := (t - offset) / Config.daySeconds

/-! ### The retained regions (R194) -/

/-- A write of a region: the copy written last becomes the older one. -/
def Region.write {α : Type} (r : Region α) (v : α) : Region α :=
  { cur := v, old := r.cur, curSound := true, oldSound := r.curSound }

def State.settings (s : State) : Settings := s.store.settings.cur.settings
def State.plans (s : State) : List Plan := s.store.plans.cur
def State.tariffs (s : State) : TariffSet := s.store.tariffs.cur
def State.denied (s : State) : List Nat := s.store.deny.cur
def State.hires (s : State) : List OpenHire := s.store.hires.cur
def State.entries (s : State) : List SettleEntry := s.store.settle.cur.entries
def State.records (s : State) : List Record := s.store.journal.cur.records

/-- Write the settings region. -/
def State.putSettings (s : State) (v : SettingsRegion) : State :=
  { s with store := { s.store with settings := s.store.settings.write v } }
/-- Write the plans region. -/
def State.putPlans (s : State) (v : List Plan) : State :=
  { s with store := { s.store with plans := s.store.plans.write v } }
/-- Write the tariffs region. -/
def State.putTariffs (s : State) (v : TariffSet) : State :=
  { s with store := { s.store with tariffs := s.store.tariffs.write v } }
/-- Write the deny-list region. -/
def State.putDenied (s : State) (v : List Nat) : State :=
  { s with store := { s.store with deny := s.store.deny.write v } }
/-- Write the passes region. -/
def State.putPasses (s : State) (v : PassRegion) : State :=
  { s with store := { s.store with passes := s.store.passes.write v } }
/-- Write the open-hires region. -/
def State.putHires (s : State) (v : List OpenHire) : State :=
  { s with store := { s.store with hires := s.store.hires.write v } }
/-- Write the settle region. -/
def State.putSettle (s : State) (v : SettleRegion) : State :=
  { s with store := { s.store with settle := s.store.settle.write v } }
/-- Write the journal region. -/
def State.putJournal (s : State) (v : JournalRegion) : State :=
  { s with store := { s.store with journal := s.store.journal.write v } }
/-- Write the hire-count region. -/
def State.putHireCount (s : State) (v : Nat) : State :=
  { s with store := { s.store with hireCount := s.store.hireCount.write v } }
/-- Write the epoch region. -/
def State.putEpoch (s : State) (v : EpochRegion) : State :=
  { s with store := { s.store with epoch := s.store.epoch.write v } }

/-! ### Notice marks (R187) -/

/-- The marks with the mark of one kind at `b`. -/
def Marks.put (m : Marks) (k : NoticeKind) (b : Bool) : Marks :=
  match k with
  | .journalReady => { m with journalReady := b }
  | .attention => { m with attention := b }
  | .vanState => { m with vanState := b }
  | .passState => { m with passState := b }
  | .dockState => { m with dockState := b }

/-- Whether the mark of a kind is set. -/
def Marks.has (m : Marks) (k : NoticeKind) : Bool :=
  match k with
  | .journalReady => m.journalReady
  | .attention => m.attention
  | .vanState => m.vanState
  | .passState => m.passState
  | .dockState => m.dockState

/-- The state with other pending marks. -/
def State.withMarks (s : State) (m : Marks) : State := { s with link := { s.link with marks := m } }

/-- Raise a notice kind: its mark is set, and a mark that is set stays set (R187). -/
def State.raise (s : State) (k : NoticeKind) : State := s.withMarks (s.link.marks.put k true)

/-! ### The dock table and its counts (R17 to R22) -/

/-- Dock `d` of the dock table. -/
def State.dock (s : State) (d : Nat) : Dock := (entryAt s.docks d).getD (Dock.atStart false)

/-- Node of dock `d`. -/
def State.node (s : State) (d : Nat) : Node := (entryAt s.nodes d).getD (Node.atStart 0)

/-- The state with the node of dock `d` replaced. -/
def State.putNode (s : State) (d : Nat) (n : Node) : State := { s with nodes := setEntry s.nodes d n }

/-- The four transient states (2.2). -/
def DockState.transient : DockState → Bool
  | .tagWriting => true
  | .unlocking => true
  | .releaseOpen => true
  | .relocking => true
  | .offline => false
  | .empty => false
  | .occupied => false
  | .lockedOut => false

/-- Whether the dock holds a bike of a condition. -/
def Dock.holds (x : Dock) (c : Condition) : Bool := x.bike.any (fun b => b.condition == c)

/-- Counted in stock: OCCUPIED with an AVAILABLE bike (R20). -/
def Dock.inStock (x : Dock) : Bool := x.state == .occupied && x.holds .available

/-- Counted in available-unreserved (R20). -/
def Dock.isOpen (x : Dock) : Bool := x.inStock && x.reservation == .unreserved

/-- What a dock adds to the values of DOCK_STATE (R20). -/
def Dock.share (x : Dock) : DockState × Bool × Bool × Bool × Bool :=
  (x.state, x.inStock, x.isOpen, x.holds .quarantined, x.holds .recalled)

/-- Replace dock `d`. A change of a count of R20 raises DOCK_STATE. -/
def State.putDock (s : State) (d : Nat) (x : Dock) : State :=
  let s' : State := { s with docks := setEntry s.docks d x }
  if (s.dock d).share = x.share then s' else s'.raise .dockState

/-- Stock (R20). -/
def State.stock (s : State) : Nat := s.docks.countP Dock.inStock

/-- Available-unreserved (R20). -/
def State.available (s : State) : Nat := s.docks.countP Dock.isOpen

/-- The number of docks in a state. -/
def State.docksIn (s : State) (x : DockState) : Nat := s.docks.countP (fun d => d.state == x)

/-- The values of a DOCK_STATE notice (R20). -/
def State.dockCounts (s : State) : DockCounts :=
  { stock := s.stock, available := s.available, offline := s.docksIn .offline, empty := s.docksIn .empty
    occupied := s.docksIn .occupied, tagWriting := s.docksIn .tagWriting, unlocking := s.docksIn .unlocking
    releaseOpen := s.docksIn .releaseOpen, relocking := s.docksIn .relocking, lockedOut := s.docksIn .lockedOut
    quarantined := s.docks.countP (fun d => d.holds .quarantined), recalled := s.docks.countP (fun d => d.holds .recalled) }

/-- The dock that records a bike id other than 0 (R18, R173). -/
def State.dockOfBike (s : State) (bike : Nat) : Option Nat :=
  if bike = 0 then none else dockNumbers.find? (fun d => (s.dock d).bike.any (fun b => b.id == bike))

/-- Whether an entry other than `d` records a bike id (R18). -/
def State.bikeElsewhere (s : State) (d bike : Nat) : Bool :=
  dockNumbers.any (fun e => e != d && (s.dock e).bike.any (fun b => b.id == bike))

/-- Set or clear the settling mark of the bike in dock `d` (R18). -/
def State.markSettling (s : State) (d : Nat) (b : Bool) : State :=
  s.putDock d { s.dock d with bike := (s.dock d).bike.map (fun x => { x with settling := b }) }

/-- A new bike record (R18, R30). -/
def Bike.arrived (id : Nat) (time : Option Nat) : Bike :=
  { id := id, condition := .available, faults := [], tallies := List.replicate 8 [], dockedAt := time, settling := false }

/-- The resting indication of a dock that is not OFFLINE (R22). -/
def Dock.resting (x : Dock) : Indication :=
  if x.state = .lockedOut ∨ x.release.any (fun r => r.origin == .lockedOut) then .fault
  else if x.state = .releaseOpen then .release
  else if x.reservation ≠ .unreserved then .reserved
  else if x.state = .occupied then (if x.holds .available then .ready else .fault)
  else .off

/-! ### Releases in flight (R23, R51) -/

/-- The hire reference a release carries. -/
def Release.ref? (r : Release) : Option HireRef :=
  match r.party with
  | .hire _ _ ref _ => some ref
  | .van _ _ => none

/-- The hirer a release carries. -/
def Release.hirer? (r : Release) : Option Hirer :=
  match r.party with
  | .hire h _ _ _ => some h
  | .van _ _ => none

/-- The releases in flight, in dock order. -/
def State.releases (s : State) : List Release := s.docks.filterMap (fun d => d.release)

/-- The releases in flight that carry a hire reference. -/
def State.hireReleases (s : State) : Nat := s.releases.countP (fun r => r.ref?.isSome)

/-- Whether a release in flight names a pass (R65, R76). -/
def State.passInFlight (s : State) (slot serial : Nat) : Bool :=
  s.releases.any (fun r => r.hirer? == some (.pass slot serial))

/-- The member that a hirer counts against at check 8: MEMBER or REMOTE (R51). -/
def Hirer.memberId? : Hirer → Option Nat
  | .member id => some id
  | .remote id => some id
  | .pass _ _ => none
  | .crew _ => none

/-- A member's open hires and releases in flight (R51 check 8). -/
def State.memberHires (s : State) (member : Nat) : Nat :=
  s.hires.countP (fun h => h.hirer.memberId? == some member) +
    s.releases.countP (fun r => (r.hirer?.bind Hirer.memberId?) == some member)

/-- The docks with a VAN release in flight, in dock order. -/
def State.vanReleases (s : State) : List Nat :=
  dockNumbers.filter (fun d =>
    (s.dock d).release.any (fun r => match r.party with | .van _ _ => true | .hire _ _ _ _ => false))

/-! ### The journal's slots and posts (R156 to R159) -/

/-- The free slots: 256 less the records held, the slots set aside and the slot held for a reply (R156, R171). -/
def State.free (s : State) : Nat := Config.journalSlots - (s.records.length + s.setAside + s.replySlot)

/-- Place a record of a body at the end of the journal, with the epoch and next sequence number, and advance the numbering
(R157, R158). -/
def State.post (s : State) (body : Body) : State :=
  let j := s.store.journal.cur
  let entry : Record :=
    { epoch := s.store.epoch.cur.epoch, sequence := j.next, time := s.now, body := body, state := .unsent
      retries := s.settings.retryLimit }
  if Config.maxSequence ≤ j.next then
    (s.putJournal { records := j.records ++ [entry], next := 1 }).putEpoch
      { s.store.epoch.cur with epoch := (s.store.epoch.cur.epoch + 1) % 65536 }
  else s.putJournal { records := j.records ++ [entry], next := j.next + 1 }

/-- The numbers of records in a state. -/
def State.recordsIn (s : State) (x : RecordState) : Nat := s.records.countP (fun r => r.state == x)

/-- Whether the journal is ready (R167). -/
def State.journalReady (s : State) : Bool :=
  s.backhaul == .up && 0 < s.recordsIn .unsent &&
    (s.settings.creditLimit == 0 || s.recordsIn .sent < s.settings.creditLimit)

/-- Set aside a slot for a release (R159). -/
def State.takeSlot (s : State) : State := { s with setAside := s.setAside + 1 }

/-- Return a slot set aside (R159). The room arbiter acts on it after the step that returns it. -/
def State.returnSlot (s : State) : State := { s with setAside := s.setAside - 1 }

/-! ### The open-hire table (R49) -/

/-- The open-hire entry of a reference. -/
def State.hireOf (s : State) (ref : HireRef) : Option OpenHire := s.hires.find? (fun h => h.ref == ref)

/-- Remove the entry of a reference and write the table. -/
def State.removeHire (s : State) (ref : HireRef) : State := s.putHires (s.hires.filter (fun h => h.ref != ref))

end Sys2Proof.Machine
end

