-- ==== Sys2Proof/Machine/Commands.lean ====
section
/-! DEFINITION. The command list the DLC keeps for each node: placing, superseding and ending commands (R9, R10, R14). -/

namespace Sys2Proof.Machine

/-- Why a command ends ABANDONED (R15). -/
inductive AbandonCause
  | silence | nodeRestart | stringReset | notAnswering | notConfigured
deriving DecidableEq, Repr

/-- The results of a COMMAND_RESULT report: CONFIRMED, FAILED by NODE_FAILED or NOT_TAKEN, TIMED_OUT, ABANDONED and SUPERSEDED
(R15). -/
inductive CommandResult
  | confirmed | nodeFailed | notTaken | timedOut | abandoned (cause : AbandonCause) | superseded
deriving DecidableEq, Repr

/-- The three classes of commands (R9). -/
inductive CommandClass
  | lock | tag | indication
deriving DecidableEq, Repr

/-- The class of a command (R9). -/
def Command.cls : Command → CommandClass
  | .unlock => .lock
  | .lock => .lock
  | .tagWrite _ => .tag
  | .tagClear _ => .tag
  | .show _ => .indication

/-- Where no command is current, the oldest waiting one becomes current and takes the command counter as its number
(R9, R10). -/
def Node.promote (n : Node) : Node :=
  match n.current, n.waiting with
  | none, c :: rest =>
    { n with
      current := some { command := c, number := n.counter, carried := false, deadline := none, acknowledged := false
                        unanswered := 0 }
      waiting := rest, counter := wrapUp 255 n.counter }
  | _, _ => n

/-- The waiting commands of a command's class, which end SUPERSEDED as it is placed (R9). -/
def Node.replaced (n : Node) (c : Command) : List Command := n.waiting.filter (fun w => w.cls == c.cls)

/-- Place a command at the end of the list, without the waiting commands of its class (R9). -/
def Node.place (n : Node) (c : Command) : Node :=
  Node.promote { n with waiting := n.waiting.filter (fun w => w.cls != c.cls) ++ [c] }

/-- The current command ends and the oldest waiting one becomes current (R14). -/
def Node.endCurrent (n : Node) : Node := Node.promote { n with current := none }

/-- The command list: the current command and then the waiting ones, in list order (R9). -/
def Node.commands (n : Node) : List Command := (n.current.map (fun c => c.command)).toList ++ n.waiting

/-- The node with its command list emptied (R7, R8, R16). -/
def Node.abandon (n : Node) : Node := { n with current := none, waiting := [] }

/-- A COMMAND_RESULT of ABANDONED or SUPERSEDED at custody: it changes nothing, for the report that follows an abandonment
governs (R15, R25, R35). -/
def State.onDropped (s : State) (_dock : Nat) (_command : Command) (_result : CommandResult) : State := s

/-- The waiting commands that a command displaces are reported SUPERSEDED, in list order (R9, R15). -/
def State.reportReplaced (s : State) (d : Nat) (c : Command) : State :=
  ((s.node d).replaced c).foldl (fun t w => t.onDropped d w .superseded) s

/-- Why a command issued for a dock is returned at once, where it is (R1, R9). -/
def State.returnsCommand (s : State) (d : Nat) : Option AbandonCause :=
  if (s.dock d).configured = false then some .notConfigured
  else if (s.node d).phase = .answering then none
  else some .notAnswering

/-- Custody issues a command for a dock (R9): it is returned ABANDONED at once, or it is placed in the node's list, where a
waiting command of its class ends SUPERSEDED. -/
def State.issue (s : State) (d : Nat) (c : Command) : State :=
  match s.returnsCommand d with
  | some cause => s.onDropped d c (.abandoned cause)
  | none => (s.reportReplaced d c).putNode d ((s.node d).place c)

/-- The current command of dock `d`'s node ends (R14). -/
def State.endCommand (s : State) (d : Nat) : State := s.putNode d (s.node d).endCurrent

/-- Issue SHOW with a dock's resting indication, as R22 asks where it has changed or a census has been taken. -/
def State.showResting (s : State) (d : Nat) : State :=
  let x := s.dock d
  if x.configured ∧ x.state ≠ .offline ∧ x.shown ≠ some x.resting then
    ({ s with docks := setEntry s.docks d { x with shown := some x.resting } } : State).issue d (.show x.resting)
  else s

/-- Issue SHOW with the resting indication whether or not it has changed. -/
def State.reissueShow (s : State) (d : Nat) : State :=
  let x := s.dock d
  if x.state = .offline then s
  else ({ s with docks := setEntry s.docks d { x with shown := some x.resting } } : State).issue d (.show x.resting)

/-- Bring every dock's indicator to its resting indication (R22). -/
def State.showAll (s : State) : State := dockNumbers.foldl State.showResting s

/-- Issue SHOW REFUSED at a dock (R22, R24). -/
def State.showRefused (s : State) (d : Nat) : State := s.issue d (.show .refused)

end Sys2Proof.Machine
end

