-- ==== Sys2Proof/Machine/Passes.lean ====
section
/-! DEFINITION. The Pass Unit: the pass table, sales and codes, charges, expiry, the 48-hour limit, cancelling and settlement
(chapter 4). -/

namespace Sys2Proof.Machine

/-! ### The pass table (R61) -/

/-- The pass in a slot; `none` where the slot is FREE. -/
def State.pass (s : State) (slot : Nat) : Option Pass := (entryAt s.store.passes.cur.slots slot).join

/-- Write a slot. A change of its state raises PASS_STATE (R76). -/
def State.putPass (s : State) (slot : Nat) (p : Option Pass) : State :=
  let s' := s.putPasses { s.store.passes.cur with slots := setEntry s.store.passes.cur.slots slot p }
  if (s.pass slot).map (fun q => q.state) = p.map (fun q => q.state) then s' else s'.raise .passState

/-- The balance of a pass. -/
def Pass.balance (p : Pass) : Nat := p.hold - p.charged

/-- The number of slots in each state (R76). -/
def State.passCounts (s : State) : PassCounts :=
  let count (x : PassState) : Nat := s.store.passes.cur.slots.countP (fun p => p.any (fun q => q.state == x))
  { free := s.store.passes.cur.slots.countP (fun p => p.isNone), issued := count .issued, onRide := count .onRide
    closing := count .closing, idle := count .idle, settling := count .settling }

/-! ### Settlement of a pass (R75) -/

/-- Post the PASS_SETTLE of a slot in SETTLING where a slot of the journal is free, and make the slot FREE. -/
def State.settlePass (s : State) (slot : Nat) : State :=
  match s.pass slot with
  | none => s
  | some p => if p.state = .settling ∧ 0 < s.free then (s.post (.passSettle slot p)).putPass slot none else s

/-- A pass enters SETTLING. -/
def State.enterSettling (s : State) (slot : Nat) (p : Pass) : State :=
  (s.putPass slot (some { p with state := .settling })).settlePass slot

/-- The lowest-numbered slot in SETTLING (R160). -/
def State.lowestSettling (s : State) : Option Nat :=
  slotNumbers.find? (fun slot => (s.pass slot).any (fun p => p.state == .settling))

/-! ### Charging a ride (R70, R71) -/

/-- The state a pass moves to as its ride is charged (R70). -/
def Pass.stateAfterRide (p : Pass) (now : Option Nat) : PassState :=
  match p.kind with
  | .single => .settling
  | .day => if now.any (fun t => p.expiry ≤ t) then .settling else .idle

/-- The pass with one ride counted and the smaller of the amount and the balance charged, and its hire cleared. -/
def Pass.charge (p : Pass) (amount : Nat) : Pass :=
  let taken := min amount p.balance
  { p with
    charged := p.charged + taken, rides := min 255 (p.rides + 1), current := none
    shortfall := p.shortfall || taken < amount }

/-- Charge a pass and move it on. -/
def State.chargeAndMove (s : State) (slot : Nat) (p : Pass) (amount : Nat) : State :=
  match p.stateAfterRide s.now with
  | .settling => s.enterSettling slot (p.charge amount)
  | x => s.putPass slot (some { p.charge amount with state := x })

/-- Whether a slot holds a serial in a state with a current hire. -/
def State.passRides (s : State) (slot serial : Nat) (x : PassState) (ref : HireRef) : Option Pass :=
  (s.pass slot).filter (fun p => p.serial == serial && p.state == x && p.current == some ref)

/-- What passes does at a finalise: the charge and the shortfall, or no charge (R70). -/
def State.chargeClose (s : State) (ref : HireRef) (hirer : Hirer) (fare : Nat) : State × PassResult :=
  match hirer with
  | .pass slot serial =>
    match s.passRides slot serial .closing ref with
    | none => (s, .absent)
    | some p => (s.chargeAndMove slot p fare, .charged (min fare p.balance) (fare - min fare p.balance))
  | _ => (s, .noPass)

/-- What passes does at a PASS_CHARGE, or at a HIRE_CLOSED with amount 0: the open-hire entry is removed, the ride charged
and the pass moved (R71). The answer is charge, shortfall and state after. DESIGN CHOICE (log 24): the state after is the one
the ride leaves the pass in, SETTLING also where its PASS_SETTLE is posted at once and the slot is FREE (R178, R179). -/
def State.chargeRide (s : State) (slot serial : Nat) (ref : HireRef) (amount : Nat) :
    Option (State × Nat × Nat × PassState) :=
  match s.passRides slot serial .onRide ref with
  | none => none
  | some p =>
    some ((s.removeHire ref).chargeAndMove slot p amount, min amount p.balance, amount - min amount p.balance,
      p.stateAfterRide s.now)

/-! ### Rides (R68, R69) -/

/-- A pass moves to ON_RIDE at the removal of its release (R68). -/
def State.passLeaves (s : State) (slot serial : Nat) (ref : HireRef) : State :=
  match s.pass slot with
  | some p =>
    if p.serial = serial ∧ (p.state = .issued ∨ p.state = .idle) then
      s.putPass slot (some { p with state := .onRide, current := some ref })
    else s
  | none => s

/-- A pass moves to CLOSING as its ride ends here (R69). -/
def State.passReturns (s : State) (slot serial : Nat) (ref : HireRef) : State :=
  match s.passRides slot serial .onRide ref with
  | some p => s.putPass slot (some { p with state := .closing })
  | none => s

/-! ### Expiry and the 48-hour limit (R67, R72, R73) -/

/-- Hold back an expiry reached during a release for the pass (R67). -/
def State.holdExpiry (s : State) (slot serial : Nat) : State :=
  { s with docks := s.docks.map (fun x => { x with release := x.release.map (fun r =>
      if r.hirer? = some (.pass slot serial) then { r with expiryHeld := true } else r) }) }

/-- The expiry of a pass is taken (R72). -/
def State.expirePass (s : State) (slot : Nat) (p : Pass) : State :=
  match p.state with
  | .issued => if s.passInFlight slot p.serial then s.holdExpiry slot p.serial else s.enterSettling slot p
  | .idle => if s.passInFlight slot p.serial then s.holdExpiry slot p.serial else s.enterSettling slot p
  | .onRide => s
  | .closing => s
  | .settling => s

/-- The expiry of a slot, where scheme time has reached it (R72). -/
def State.takeExpiry (s : State) (slot : Nat) : State :=
  match s.now, s.pass slot with
  | some t, some p => if p.expiry ≤ t then s.expirePass slot p else s
  | _, _ => s

/-- An expiry held back is taken when the pass's release ends other than in removal (R67). -/
def State.takeHeldExpiry (s : State) (slot serial : Nat) (held : Bool) : State :=
  match s.pass slot with
  | some p =>
    if p.serial = serial ∧ (held ∨ s.now.any (fun t => p.expiry ≤ t)) then s.expirePass slot p else s
  | none => s

/-- Retire one pass: its open-hire entry goes with a HIRE_EXPIRED record, and the pass settles UNRESOLVED (R73). -/
def State.retirePass (s : State) (slot : Nat) (p : Pass) (h : OpenHire) : State :=
  ((s.removeHire h.ref).post (.hireExpired h .passLimit)).enterSettling slot
    { p with current := none, unresolved := true }

/-- Whether a pass is due at the 48-hour limit (R73). -/
def Pass.due (p : Pass) (t : Nat) : Bool := p.state == .onRide && p.expiry + Config.passLimit ≤ t

/-- The examination of R73 over the slots left: it stops at a due pass for which the journal has no free slot. DESIGN CHOICE
(log 24): R73 is silent on a due pass whose current hire has no open-hire entry, which a start-up leaves that takes the older
copy of one region (R194); with a slot free it is passed over, and stays ON_RIDE at every examination. -/
def State.retireDue (t : Nat) : List Nat → State → State
  | [], s => s
  | slot :: rest, s =>
    match s.pass slot with
    | none => State.retireDue t rest s
    | some p =>
      if p.due t then
        if 0 < s.free then
          match p.current.bind s.hireOf with
          | some h => State.retireDue t rest (s.retirePass slot p h)
          | none => State.retireDue t rest s
        else s
      else State.retireDue t rest s

/-- The pass limit examination (R73). -/
def State.examinePasses (s : State) : State :=
  match s.now with
  | none => s
  | some t => State.retireDue t slotNumbers s

/-! ### Codes and sales (R62 to R64) -/

/-- The `k`-th value that a rising list of held values leaves free. -/
def nthUnheld : List Nat → Nat → Nat
  | [], k => k
  | h :: rest, k => if h ≤ k then nthUnheld rest (k + 1) else k

/-- The codes that passes hold. -/
def State.heldCodes (s : State) : List Nat := s.store.passes.cur.slots.filterMap (fun p => p.map (fun q => q.code))

/-- The code of a new pass: a value the generator draws and no pass holds (R62). A FREE VALUE, spread over the six-digit
codes that are not held (log 2). -/
def State.newCode (s : State) : Nat :=
  let held := s.heldCodes.insertionSort (· ≤ ·)
  nthUnheld held (Config.codeDraw s.codePosition % (1000000 - held.length))

/-- The lifetime of a pass by kind (R61). -/
def PassKind.life : PassKind → Nat
  | .single => 1800
  | .day => 86400

/-- The kind a field numbers (R200). -/
def passKindOf : Nat → Option PassKind
  | 1 => some .single
  | 2 => some .day
  | _ => none

/-- A pass that carries the same terminal and authorisation reference, with its slot (R63). -/
def State.repeatedAuth (s : State) (terminal : Nat) (authRef : List Byte) : Option (Nat × Pass) :=
  slotNumbers.findSome? (fun slot =>
    match s.pass slot with
    | some p => if p.terminal = terminal ∧ p.authRef = authRef then some (slot, p) else none
    | none => none)

/-- Sell a pass in a FREE slot: the slot and the serial counter are written, then PASS_ISSUE is posted (R64). DESIGN CHOICE
(log 24): an expiry beyond 4,294,967,295 is held whole, and its 4 bytes in a reply or a record are its remainder by 2^32. -/
def State.sell (s : State) (slot terminal : Nat) (kind : PassKind) (hold : Nat) (authRef : List Byte) (t : Nat) :
    State × Reply :=
  let serial := s.store.passes.cur.serial
  let code := s.newCode
  let p : Pass :=
    { state := .issued, kind := kind, serial := serial, code := code, terminal := terminal, authRef := authRef, hold := hold
      issued := t, expiry := t + kind.life, charged := 0, rides := 0, current := none, cancelled := false
      unresolved := false, shortfall := false }
  let s1 := { s with codePosition := s.codePosition + 1 }
  let s2 := s1.putPasses { slots := setEntry s.store.passes.cur.slots slot (some p), serial := wrapUp 65535 serial }
  ((s2.raise .passState).post (.passIssue slot p), { status := .ok, result := .sold slot serial code (t + kind.life) })

/-- A reply of a status with no result fields. -/
def Reply.plain (x : Status) : Reply := { status := x, result := .empty }

/-- The OUT_OF_RANGE reply that names a field (R186). -/
def Reply.range (f : Field) : Reply := { status := .outOfRange, result := .field f }

/-- The REFUSED reply with its reason (R186). -/
def Reply.refused (r : Reason) : Reply := { status := .refused, result := .reason r }

/-- TERMINAL_AUTH at passes: the tests of R63 in order, then the sale. DESIGN CHOICE (log 24): the DUPLICATE reply carries the
slot, serial and code that R63's table lists, without the expiry that the first reply carried (R64). -/
def ownTerminalAuth (terminal kind hold : Nat) (authRef : List Byte) (s : State) : State × Reply :=
  if terminal < 1 ∨ 4 < terminal then (s, .range .terminal)
  else
    match passKindOf kind with
    | none => (s, .range .kind)
    | some k =>
      if hold < 100 ∨ 50000 < hold then (s, .range .hold)
      else
        match s.repeatedAuth terminal authRef with
        | some (slot, p) => (s, { status := .duplicate, result := .repeated slot p.serial p.code })
        | none =>
          match s.now with
          | none => (s, .plain .clockUnset)
          | some t =>
            match slotNumbers.find? (fun slot => (s.pass slot).isNone) with
            | none => (s, .plain .full)
            | some slot =>
              if s.free < s.settings.openReserve then (s, .refused .journalFull)
              else s.sell slot terminal k hold authRef t

/-- PASS_GET at passes (R76). -/
def ownPassGet (slot : Nat) (s : State) : State × Reply :=
  if slot < 1 ∨ 32 < slot then (s, .range .slot)
  else
    match s.pass slot with
    | none => (s, { status := .ok, result := .passFree })
    | some p => (s, { status := .ok, result := .pass p p.balance (s.passInFlight slot p.serial) })

/-- PASS_CANCEL at passes (R74). -/
def ownPassCancel (slot serial : Nat) (s : State) : State × Reply :=
  if slot < 1 ∨ 32 < slot then (s, .range .slot)
  else
    match s.pass slot with
    | none => (s, .plain .notFound)
    | some p =>
      if p.serial ≠ serial then (s, .plain .notFound)
      else if p.state = .issued ∧ p.rides = 0 then
        if s.passInFlight slot serial then (s, .plain .busy)
        else (s.enterSettling slot { p with cancelled := true }, .plain .ok)
      else (s, .plain .conflict)

end Sys2Proof.Machine
end

