-- ==== Sys2Proof/Machine/Journal.lean ====
section
/-! DEFINITION. The Uplink Journal: the sixth place of the room arbiter, reading, retries and parking, the backhaul state and
the journal summary (chapter 9). -/

namespace Sys2Proof.Machine

/-! ### The sixth place (R160) -/

/-- Post a record of the sixth place. A waiting TARIFF_APPLIED stands in the tariff set, and its waiting mark is cleared as
it is posted (R88). -/
def State.postSixth (s : State) (r : SixthRecord) : State :=
  match r with
  | .start b => s.post (.start b)
  | .dockCensus b => s.post (.dockCensus b)
  | .clockStep before after => s.post (.clockStep before after)
  | .tariffApplied =>
    match s.tariffs.waiting with
    | some w =>
      let s1 := s.post (.tariffApplied w)
      s1.putTariffs { s1.tariffs with waiting := none }
    | none => s

/-- Whether a record of the sixth place made now would wait. -/
def State.sixthWaits (s : State) : Bool := s.free == 0 || s.sixth != []

/-- A record of the sixth place is made: it is posted into a free slot, or waits behind those made before it (R160). -/
def State.makeSixth (s : State) (r : SixthRecord) : State :=
  if s.sixthWaits then { s with sixth := s.sixth ++ [r] } else s.postSixth r

/-- Serve the oldest waiting record of the sixth place. -/
def State.serveSixth (s : State) : State :=
  match s.sixth with
  | [] => s
  | r :: rest => ({ s with sixth := rest } : State).postSixth r

/-! ### The summary (R167) -/

/-- Whether any place of the room arbiter holds a waiting record (R160, R167). -/
def State.producersWait (s : State) : Bool :=
  s.entries.any (fun e => match e.stage with | .waiting _ _ _ => true | .held _ _ _ => false) ||
    s.lowestSettling.isSome || s.van.moves != [] || s.van.summary.isSome || s.faults != [] || s.directives != [] ||
    s.sixth != []

/-- The journal summary (R167). -/
def State.journalSummary (s : State) : JournalSummary :=
  { ready := s.journalReady, backhaul := s.backhaul, held := s.records.length, unsent := s.recordsIn .unsent
    sent := s.recordsIn .sent, parked := s.recordsIn .parked, free := s.free, setAside := s.setAside
    waiting := s.producersWait, epoch := s.store.epoch.cur.epoch, next := s.store.journal.cur.next
    creditLimit := s.settings.creditLimit, retryLimit := s.settings.retryLimit, openReserve := s.settings.openReserve
    fatal := s.fatal }

/-! ### Reading (R161, R162, R200) -/

/-- Write the journal region with other records. -/
def State.putRecords (s : State) (rs : List Record) : State := s.putJournal { s.store.journal.cur with records := rs }

/-- How many records a read may return: n, the credit left where there is a limit, and the UNSENT records (R161). -/
def State.readLimit (s : State) (n : Nat) : Nat :=
  let unsent := s.recordsIn .unsent
  if s.settings.creditLimit = 0 then min n unsent
  else min (min n (s.settings.creditLimit - s.recordsIn .sent)) unsent

/-- Mark the first `k` UNSENT records SENT. -/
def markSent : Nat → List Record → List Record
  | _, [] => []
  | 0, r :: rs => r :: rs
  | k + 1, r :: rs => if r.state = .unsent then { r with state := .sent } :: markSent k rs else r :: markSent (k + 1) rs

/-- The first `k` UNSENT records, as a read returns them. -/
def readRecords (k : Nat) (rs : List Record) : List Record :=
  ((rs.filter (fun r => r.state == .unsent)).take k).map (fun r => { r with state := .sent })

/-- The state after a read of `k` records. -/
def State.readOut (s : State) (k : Nat) : State := if k = 0 then s else s.putRecords (markSent k s.records)

/-- The most records, up to `k`, whose reply fits the frame limit (R200). -/
def State.readFit (s : State) : Nat → Nat
  | 0 => 0
  | k + 1 =>
    if readSize (s.readOut (k + 1)).journalSummary (readRecords (k + 1) s.records) ≤ Config.maxBody then k + 1
    else s.readFit k

/-- JOURNAL_READ at the journal (R161). -/
def ownJournalRead (n : Nat) (s : State) : State × Reply :=
  if 16 < n then (s, .range .count)
  else
    let k := s.readFit (s.readLimit n)
    let s' := s.readOut k
    (s', { status := .ok, result := .records (readRecords k s.records) s'.journalSummary })

/-! ### Acknowledgement, retries and parking (R163 to R165) -/

/-- The SENT record of an epoch and sequence (R163). -/
def State.sentRecord (s : State) (epoch sequence : Nat) : Option Record :=
  s.records.find? (fun r => r.epoch == epoch && r.sequence == sequence && r.state == .sent)

/-- Whether a record is the SENT record of an epoch and sequence. -/
def Record.isSent (r : Record) (epoch sequence : Nat) : Bool :=
  r.epoch == epoch && r.sequence == sequence && r.state == .sent

/-- Remove a record that an acknowledgement names (R163). The room arbiter acts on the slot freed. -/
def State.removeRecord (s : State) (epoch sequence : Nat) : State :=
  s.putRecords (s.records.eraseP (fun r => r.isSent epoch sequence))

/-- What a RETRY makes of a record (R164). -/
def Record.retry (r : Record) : Record :=
  if r.retries = 1 then { r with state := .parked, retries := 0 } else { r with state := .unsent, retries := r.retries - 1 }

/-- JOURNAL_ACK RETRY at the journal (R164). -/
def ownRetry (epoch sequence : Nat) (s : State) : State × Reply :=
  match s.sentRecord epoch sequence with
  | none => (s, .plain .notFound)
  | some r =>
    (s.putRecords (s.records.map (fun x => if x.isSent epoch sequence then x.retry else x)),
      { status := .ok, result := .disposition (if r.retries = 1 then .parked else .requeued) none })

/-- JOURNAL_REOFFER at the journal (R165). -/
def ownReoffer (s : State) : State × Reply :=
  (s.putRecords (s.records.map (fun r =>
      if r.state = .parked then { r with state := .unsent, retries := s.settings.retryLimit } else r)),
    { status := .ok, result := .count (s.recordsIn .parked) })

/-! ### Backhaul state (R166) -/

/-- Return every SENT record to UNSENT in its place (R166, R168). -/
def unsend (rs : List Record) : List Record := rs.map (fun r => if r.state = .sent then { r with state := .unsent } else r)

/-- LINK_STATE at the journal (R166): 1 for UP and 2 for DOWN. -/
def ownLinkState (value : Nat) (s : State) : State × Reply :=
  match value with
  | 1 => ({ s with backhaul := .up }, .plain .ok)
  | 2 =>
    (({ s with backhaul := .down } : State).putRecords (unsend s.records),
      { status := .ok, result := .count (s.recordsIn .sent) })
  | _ => (s, .range .state)

end Sys2Proof.Machine
end

