-- ==== Sys2Proof/Machine/Fare.lean ====
section
/-! DEFINITION. The Fare Unit: the tariff set, staging, validation, commits, and the eight stages that price a return
(chapter 5). -/

namespace Sys2Proof.Machine

/-! ### Pricing (R91 to R99) -/

/-- Division rounded up. -/
def ceilDiv (a b : Nat) : Nat := (a + b - 1) / b

/-- The minutes of `c` that fall in a band above `lo` (R95). -/
def bandMinutes (c lo : Nat) (edge : Option Nat) : Nat :=
  if lo < c then
    (match edge with
      | none => c
      | some hi => min c hi) - lo
  else 0

/-- The base charge of `c` chargeable minutes in the bands above `lo` (R95). -/
def bandsCharge (c : Nat) : Nat → List Band → Nat
  | _, [] => 0
  | lo, b :: rest => ceilDiv (bandMinutes c lo b.edge) b.block * b.rate + bandsCharge c (b.edge.getD lo) rest

/-- Stage 5: the table that prices a generation, and whether it is stale (R95). -/
def TariffSet.tableFor (t : TariffSet) (g : Nat) : Tariff × Bool :=
  if g = t.current.generation then (t.current, false)
  else
    match t.previous with
    | some p => if g = p.generation then (p, false) else (t.current, true)
    | none => (t.current, true)

/-- The flags of a close that carries none. -/
def CloseFlags.clear : CloseFlags :=
  { deferred := false, startupReturn := false, clockSkew := false, overlong := false, tariffStale := false
    saturated := false }

/-- A close that stage 1 cuts out, with fare 0 (R92). The start station is that of the hire reference (13.3). -/
def cutOut (i : TripImage) (dock : Nat) (returned : Option Nat) (flags : CloseFlags) : PricedClose :=
  { ref := i.ref, hirer := i.hirer, bikeId := i.bikeId, dock := dock, startStation := i.ref.station, start := i.start
    returned := returned, plan := i.plan, tagGeneration := i.generation, usedGeneration := none, duration := none
    minutes := none, chargeable := none, base := none, afterPercent := none, afterCredits := none
    releaseCredit := i.credit, returnCredit := none, creditApplied := none, fare := 0, flags := flags }

/-- Stage 2: the duration of a trip from `start` to `e` (R93). -/
def tripDuration (start e : Nat) : Nat := min Config.maxDuration (e - start)

/-- Stage 4: the chargeable minutes (R94). -/
def chargeableMinutes (minutes free : Nat) : Nat := if free < minutes then minutes - free else 0

/-- Stages 2 to 8 for a return at `e` under plan `p`, with `extra` added to the release credit (R93 to R98).
DESIGN CHOICE (log 24): a release credit above 1000 on a tag is credited whole, as R200 delivers it, though R97 lets Q lie
between 0 and 2000. -/
def priceTrip (t : TariffSet) (p : Plan) (i : TripImage) (dock e extra : Nat) : PricedClose :=
  let d := tripDuration i.start e
  let m := ceilDiv d 60
  let c := chargeableMinutes m p.freeMinutes
  let table := (t.tableFor i.generation).1
  let g := bandsCharge c 0 table.bands
  let g' := (g * p.percent + 50) / 100
  let h := g' + p.unlockFee
  let q := i.credit + extra
  let h' := h - q
  { cutOut i dock (some e) CloseFlags.clear with
    usedGeneration := some table.generation, duration := some d, minutes := some m, chargeable := some c, base := some g
    afterPercent := some g', afterCredits := some h', returnCredit := some extra, creditApplied := some (min q h)
    fare := min h' (min p.ceiling Config.maxFare)
    flags :=
      { deferred := false, startupReturn := false, clockSkew := e < i.start, overlong := Config.maxDuration < e - i.start
        tariffStale := (t.tableFor i.generation).2, saturated := Config.maxFare < h' } }

/-- The plan entry fare reads for the plan code of a tag (R91). The entry for a code above 15 is a FREE VALUE (log 3). -/
def planEntry (plans : List Plan) (code : Nat) : Plan := plans.getD code (Config.planBeyondTable code)

/-- The priced close of a return: stage 1, and the other stages where pricing runs (R91, R92). -/
def priceReturn (t : TariffSet) (plans : List Plan) (returnCredit : Nat) (i : TripImage) (dock : Nat) (e : Option Nat)
    (eligible startup : Bool) : PricedClose :=
  match e with
  | none => cutOut i dock none { CloseFlags.clear with deferred := true, startupReturn := startup }
  | some e =>
    if i.plan = 15 then cutOut i dock (some e) CloseFlags.clear
    else priceTrip t (planEntry plans i.plan) i dock e (if eligible then returnCredit else 0)

/-! ### Staging and validation (R81 to R83) -/

/-- Positions 1 to the highest filled one (R83). -/
def stagedUpTo (staged : List (Option Band)) : List (Option Band) := (staged.reverse.dropWhile (fun b => b.isNone)).reverse

/-- The examination of the positions from `i`, with the edge of the band before (R83). -/
def examineBands : Nat → Nat → List (Option Band) → Option (Nat × BandFault)
  | _, _, [] => none
  | i, _, none :: _ => some (i, .missing)
  | i, _, [some b] => if b.edge.isSome then some (i, .lastBounded) else none
  | i, before, some b :: rest =>
    match b.edge with
    | none => some (i, .edgeUnbounded)
    | some e => if 2 ≤ i ∧ e ≤ before then some (i, .edgeOrder) else examineBands (i + 1) e rest

/-- The failing band and its cause, where staged fails validation (R83). -/
def validateStaged (staged : List (Option Band)) : Option (Nat × BandFault) :=
  match stagedUpTo staged with
  | [] => some (1, .missing)
  | bands => examineBands 1 0 bands

/-- Whether a commit request is AT. -/
def State.commitPending (s : State) : Bool := s.tariffs.commit.isSome

/-- The first field of a TARIFF_STAGE_BAND outside its range (R81). -/
def bandRange (band : Nat) (edge : Option Nat) (block rate : Nat) : Option Field :=
  if band < 1 ∨ 8 < band then some .band
  else if edge.any (fun e => e < 1 || 10080 < e) then some .edge
  else if block < 1 ∨ 60 < block then some .block
  else if 5000 < rate then some .rate
  else none

/-- TARIFF_STAGE_BAND at fare (R81). -/
def ownStageBand (band : Nat) (edge : Option Nat) (block rate : Nat) (s : State) : State × Reply :=
  if s.commitPending then (s, .plain .busy)
  else
    match bandRange band edge block rate with
    | some f => (s, .range f)
    | none =>
      (s.putTariffs { s.tariffs with
        staged := setEntry s.tariffs.staged band (some { edge := edge, block := block, rate := rate }) }, .plain .ok)

/-- The eight staged positions, all empty (R82). -/
def emptyStaged : List (Option Band) := List.replicate 8 none

/-- TARIFF_STAGE_CLEAR at fare (R82). -/
def ownStageClear (s : State) : State × Reply :=
  if s.commitPending then (s, .plain .busy)
  else (s.putTariffs { s.tariffs with staged := emptyStaged }, .plain .ok)

/-! ### Commits (R84 to R88) -/

/-- The tariff set an apply leaves, but for the record (R87). -/
def TariffSet.applied (t : TariffSet) : TariffSet :=
  { current := { generation := wrapUp 255 t.current.generation, bands := t.staged.filterMap id }
    previous := some t.current, staged := emptyStaged, commit := none, waiting := t.waiting }

/-- The TARIFF_APPLIED record of an apply (R88). -/
def State.appliedRecord (s : State) (requested : Option Nat) : TariffApplied :=
  { newGeneration := s.tariffs.applied.current.generation, oldGeneration := s.tariffs.current.generation
    requested := requested, applied := s.now, bands := s.tariffs.applied.current.bands }

/-- Apply the commit: the set is written, and the record is posted or held waiting (R87, R88). -/
def State.applyCommit (s : State) (requested : Option Nat) : State :=
  if s.sixthWaits then
    { s.putTariffs { s.tariffs.applied with waiting := some (s.appliedRecord requested) } with
      sixth := s.sixth ++ [.tariffApplied] }
  else (s.putTariffs s.tariffs.applied).post (.tariffApplied (s.appliedRecord requested))

/-- Apply a pending commit whose time scheme time has reached (R86). -/
def State.applyAt (s : State) : State :=
  match s.now, s.tariffs.commit with
  | some t, some a => if a ≤ t then s.applyCommit (some a) else s
  | _, _ => s

/-- The reply to a commit applied. -/
def appliedReply (s : State) : Reply := { status := .ok, result := .applied s.tariffs.current.generation }

/-- The tests that NOW and AT share: pending, record and validation (R84). -/
def State.commitTest (s : State) : Option Reply :=
  if s.commitPending then some (.plain .busy)
  else if s.tariffs.waiting.isSome then some (.plain .busy)
  else
    match validateStaged s.tariffs.staged with
    | some (band, fault) => some { status := .outOfRange, result := .badBand band fault }
    | none => none

/-- TARIFF_COMMIT at fare (R84, R85). DESIGN CHOICE (log 24): an AT commit applied at once keeps the cause AT and its requested
time in the TARIFF_APPLIED record. -/
def ownTariffCommit (mode : CommitArg) (s : State) : State × Reply :=
  match mode with
  | .now =>
    match s.commitTest with
    | some r => (s, r)
    | none => (s.applyCommit none, appliedReply (s.applyCommit none))
  | .at time =>
    match s.commitTest with
    | some r => (s, r)
    | none =>
      match s.now with
      | none => (s, .plain .clockUnset)
      | some t =>
        if time ≤ t then (s.applyCommit (some time), appliedReply (s.applyCommit (some time)))
        else
          (s.putTariffs { s.tariffs with commit := some time },
            { status := .ok, result := .commitPending time (wrapUp 255 s.tariffs.current.generation) })
  | .cancel =>
    if s.commitPending then (s.putTariffs { s.tariffs with commit := none }, .plain .ok) else (s, .plain .notFound)
  | .other _ => (s, .range .mode)

/-! ### Reading (R89) -/

/-- The summary of the tariff set (R89). -/
def TariffSet.summary (t : TariffSet) : TariffSummary :=
  { current := t.current.generation, previous := t.previous.map (fun p => p.generation)
    filled := t.staged.countP (fun b => b.isSome)
    commit := t.commit.map (fun a => (a, wrapUp 255 t.current.generation)), waiting := t.waiting.isSome }

/-- TARIFF_GET at fare: 1 for CURRENT, 2 for PREVIOUS, 3 for STAGED (R89, R200). -/
def ownTariffGet (selector : Nat) (s : State) : State × Reply :=
  let t := s.tariffs
  match selector with
  | 1 => (s, { status := .ok, result := .tariff t.summary t.current.bands })
  | 2 => (s, { status := .ok, result := .tariff t.summary ((t.previous.map (fun p => p.bands)).getD []) })
  | 3 => (s, { status := .ok, result := .staged t.summary t.staged })
  | _ => (s, .range .selector)

end Sys2Proof.Machine
end

