-- ==== Sys2Proof/Machine/Settle.lean ====
section
/-! DEFINITION. The Settlement List: opening an entry, the waiver, finalising, WAITING entries, a full list and the finalise at
start-up (chapter 6). -/

namespace Sys2Proof.Machine

/-! ### The list (R102) -/

/-- Whether an entry is HELD and links to a bike. -/
def SettleEntry.linksTo (e : SettleEntry) (bike : Nat) : Bool :=
  match e.stage with
  | .held b _ _ => b == bike
  | .waiting _ _ _ => false

/-- Whether an entry is HELD. -/
def SettleEntry.isHeld (e : SettleEntry) : Bool :=
  match e.stage with
  | .held _ _ _ => true
  | .waiting _ _ _ => false

/-- Whether an entry is WAITING. -/
def SettleEntry.isWaiting (e : SettleEntry) : Bool := !e.isHeld

/-- The place of the HELD entry of a bike. -/
def State.heldAt (s : State) (bike : Nat) : Option Nat := s.entries.findIdx? (fun e => e.linksTo bike)

/-- Write the settle list. -/
def State.putEntries (s : State) (es : List SettleEntry) : State := s.putSettle { s.store.settle.cur with entries := es }

/-! ### Posting a close (R108, R109) -/

/-- Post the HIRE_CLOSE of the entry at a place and remove it. The record carries the lost-close count, which returns to 0
(R108, R110). -/
def State.postClose (s : State) (i : Nat) (e : SettleEntry) (cause : FinalCause) (time : Option Nat) (pass : PassResult) :
    State :=
  (s.post (.hireClose e.close e.waiver cause time pass s.store.settle.cur.lost)).putSettle
    { entries := s.entries.eraseIdx i, lost := 0 }

/-- Post the HIRE_CLOSE of the first WAITING entry, where there is one (R109). -/
def State.serveClose (s : State) : State :=
  match s.entries.findIdx? SettleEntry.isWaiting with
  | none => s
  | some i =>
    match s.entries[i]? with
    | some e =>
      match e.stage with
      | .waiting cause time pass => s.postClose i e cause time pass
      | .held _ _ _ => s
    | none => s

/-! ### Finalising (R107) -/

/-- The fare a finalise fixes (R107). -/
def SettleEntry.finalFare (e : SettleEntry) : Nat := if e.waiver.isSome then 0 else e.close.fare

/-- Clear the settling mark of the bike an entry links to (R107). -/
def State.unmark (s : State) (dock bike : Nat) : State :=
  if (s.dock dock).bike.any (fun b => b.id == bike) then s.markSettling dock false else s

/-- Finalise the HELD entry at a place (R107): the fare is fixed, passes charges a pass hirer, the mark is cleared, and the
close is posted or made WAITING. -/
def State.finalise (s : State) (i : Nat) (cause : FinalCause) : State :=
  match s.entries[i]? with
  | none => s
  | some e =>
    match e.stage with
    | .waiting _ _ _ => s
    | .held bike dock _ =>
      let charged := s.chargeClose e.close.ref e.close.hirer e.finalFare
      let s1 := charged.1.unmark dock bike
      if 0 < s1.free then s1.postClose i e cause s.now charged.2
      else s1.putEntries (s1.entries.set i { e with stage := .waiting cause s.now charged.2 })

/-- An early finalise that names a bike; with no HELD entry it has no effect (R106). -/
def State.finaliseBike (s : State) (bike : Nat) (reason : EarlyReason) : State :=
  match s.heldAt bike with
  | some i => s.finalise i (.earlyFinal reason)
  | none => s

/-- An early finalise of the bike in a dock, where its settling mark is set (R18, R23, R137). -/
def State.settleDock (s : State) (d : Nat) (reason : EarlyReason) : State :=
  match (s.dock d).bike with
  | some b => if b.settling then s.finaliseBike b.id reason else s
  | none => s

/-- The early finalise of PASS_REUSE names the pass's current hire (R66, R106). -/
def State.finaliseHire (s : State) (ref : HireRef) : State :=
  match s.entries.findIdx? (fun e => e.isHeld && e.close.ref == ref) with
  | some i => s.finalise i (.earlyFinal .passReuse)
  | none => s

/-! ### Opening an entry (R103, R110) -/

/-- Free a place of a full list: its oldest entry is finalised, and where its close cannot be posted it is lost (R110). -/
def State.makeRoom (s : State) : State :=
  if s.entries.length < Config.settlePlaces then s
  else
    let s1 := if s.entries.head?.any SettleEntry.isHeld then s.finalise 0 (.earlyFinal .listFull) else s
    if s1.entries.length < Config.settlePlaces then s1
    else s1.putSettle { entries := s1.entries.tail, lost := countUp s1.store.settle.cur.lost }

/-- Open the entry of a return (R103): a HELD entry of the same bike is replaced, room is made, and the entry is placed at
the end; with a settle window of 0 it is finalised at once. -/
def State.openEntry (s : State) (c : PricedClose) (bike dock : Nat) : State :=
  let s1 := (s.finaliseBike bike .replaced).makeRoom
  let s2 := (s1.putEntries (s1.entries ++
    [{ close := c, waiver := none, stage := .held bike dock (s1.elapsed + s1.settings.settleWindow * 1000) }])).markSettling
      dock true
  if s2.settings.settleWindow = 0 then s2.finalise (s2.entries.length - 1) .deadline else s2

/-! ### The waiver (R105) -/

/-- The reporter that is a hirer (R35, R105, R119). -/
def Hirer.reporter : Hirer → Reporter
  | .member id => .person id
  | .crew id => .person id
  | .remote id => .person id
  | .pass slot serial => .pass slot serial

/-- Waive the HELD entry of a bike, where there is one without a waiver (R105). -/
def State.waive (s : State) (bike : Nat) (source : WaiverSource) (kind : BikeFault) : State :=
  match s.heldAt bike with
  | none => s
  | some i =>
    match s.entries[i]? with
    | none => s
    | some e =>
      if e.waiver.isSome then s
      else
        s.putEntries (s.entries.set i
          { e with
            close := { e.close with fare := 0 }
            waiver := some { source := source, kind := kind, time := s.now } })

/-- The hirer of a bike's HELD entry. -/
def State.heldHirer (s : State) (bike : Nat) : Option Hirer :=
  (s.entries.find? (fun e => e.linksTo bike)).map (fun e => e.close.hirer)

/-- A RIDER_REPORT handed to settle: it waives where its reporter is the entry's hirer (R105). -/
def State.waiveForReporter (s : State) (bike : Nat) (kind : BikeFault) (reporter : Reporter) : State :=
  match s.heldHirer bike with
  | some h => if h.reporter = reporter then s.waive bike .rider kind else s
  | none => s

/-- A FAULT_KEY handed to settle: it waives where it was taken at the entry's dock with the reporter given as the hirer
(R105). -/
def State.waiveForKey (s : State) (bike dock : Nat) (kind : BikeFault) (reporter : Reporter) : State :=
  match s.entries.find? (fun e => e.linksTo bike) with
  | some e =>
    match e.stage with
    | .held _ d _ => if d = dock ∧ e.close.hirer.reporter = reporter then s.waive bike .dock kind else s
    | .waiting _ _ _ => s
  | none => s

/-! ### Deadlines and start-up (R104, R111) -/

/-- The deadline of the HELD entry of a bike, where the elapsed base has reached it (R104). -/
def State.settleDue (s : State) (bike : Nat) : State :=
  match s.heldAt bike with
  | none => s
  | some i =>
    match s.entries[i]? with
    | some e =>
      match e.stage with
      | .held _ _ deadline => if deadline ≤ s.elapsed then s.finalise i .deadline else s
      | .waiting _ _ _ => s
    | none => s

/-- Finalise every HELD entry in list order with cause STARTUP (R111). Each round takes the first HELD entry. -/
def State.finaliseAll (s : State) : Nat → State
  | 0 => s
  | fuel + 1 =>
    match s.entries.findIdx? SettleEntry.isHeld with
    | some i => (s.finalise i .startup).finaliseAll fuel
    | none => s

/-- The numbers of HELD and of WAITING entries (R113). -/
def State.heldEntries (s : State) : Nat := s.entries.countP SettleEntry.isHeld
def State.waitingEntries (s : State) : Nat := s.entries.countP SettleEntry.isWaiting

end Sys2Proof.Machine
end

