-- ==== Sys2Proof/Machine/Van.lean ====
section
/-! DEFINITION. The Van Session Unit: opening a session and its reservation pass, moves counted, disturbed reservations, the end
of a session and its records (chapter 8). The start of a VAN release stands in Admission.lean. -/

namespace Sys2Proof.Machine

/-! ### The session and its reservations (R134, R138, R139) -/

/-- Replace the van session. A change of state, session, target or done count raises VAN_STATE (R136, R139, R150). -/
def State.putVan (s : State) (v : Van) : State :=
  let s' : State := { s with van := v }
  if s.van.phase = v.phase ∧ s.van.session = v.session ∧ s.van.manifest = v.manifest then s' else s'.raise .vanState

/-- Place or drop a reservation: the dock's counts, DOCK_STATE and VAN_STATE follow (R139). -/
def State.putReservation (s : State) (d : Nat) (r : Reservation) : State :=
  ((s.putDock d { s.dock d with reservation := r }).raise .dockState).raise .vanState

/-- The manifest entry a reservation names. -/
def Reservation.entry? : Reservation → Option Nat
  | .unreserved => none
  | .collect n => some n
  | .deliver n => some n

/-- The docks reserved under an entry, in dock order. -/
def State.reservedFor (s : State) (n : Nat) : List Nat :=
  dockNumbers.filter (fun d => (s.dock d).reservation.entry? == some n)

/-- Change one manifest entry. -/
def State.updateEntry (s : State) (n : Nat) (f : ManifestEntry → ManifestEntry) : State :=
  match entryAt s.van.manifest n with
  | some m => s.putVan { s.van with manifest := setEntry s.van.manifest n (f m) }
  | none => s

/-- Whether a session places, moves and counts: RESERVING or ACTIVE. -/
def VanPhase.open : VanPhase → Bool
  | .reserving => true
  | .active => true
  | .idle => false
  | .closing => false

/-- Start or restart the idle deadline, which runs only in ACTIVE (R149). -/
def State.restartIdle (s : State) : State :=
  if s.van.phase = .active then
    { s with van := { s.van with idleAt := some (s.elapsed + s.settings.vanIdleTimeout * 1000) } }
  else s

/-! ### Van records (R152, R153) -/

/-- A VAN_MOVE record is made: posted at once, held in the pending list, or dropped from a full one (R152). -/
def State.makeMove (s : State) (m : VanMove) : State :=
  if s.van.moves = [] ∧ 0 < s.free then s.post (.vanMove m)
  else if s.van.moves.length < Config.movePlaces then { s with van := { s.van with moves := s.van.moves ++ [m] } }
  else { s with van := { s.van with dropped := countUp s.van.dropped } }

/-- Post the VAN_SUMMARY that waits: the session becomes IDLE with its fields cleared, but for the counter (R153). -/
def State.postSummary (s : State) (v : VanSummary) : State :=
  (s.post (.vanSummary v)).putVan (Van.idleWith s.van.counter)

/-- Serve van at the room arbiter: the oldest move, or when there is none the summary waiting (R160). -/
def State.serveVan (s : State) : State :=
  match s.van.moves with
  | m :: rest => ({ s with van := { s.van with moves := rest } } : State).post (.vanMove m)
  | [] =>
    match s.van.summary with
    | some v => s.postSummary v
    | none => s

/-- The VAN_SUMMARY of a session with its ending (R153). -/
def Van.summaryOf (v : Van) (ending : VanEnding) : VanSummary :=
  { session := v.session, van := v.van, crew := v.crew, opened := v.opened, ending := ending
    short := v.manifest.any (fun m => 0 < m.short), dropped := v.dropped, results := v.manifest }

/-- In CLOSING with no VAN release in flight the summary is made, and it is posted where no move waits and a slot is free, or
else it waits (R151, R153, R158). DESIGN CHOICE (log 24): a VAN_CLOSE taken after a removal that exhausted the session meets it
CLOSING, and is answered CONFLICT (R155), only where the summary waits or a VAN release is in flight; else it is IDLE. -/
def State.closeUp (s : State) : State :=
  match s.van.phase, s.van.ending, s.van.summary with
  | .closing, some ending, none =>
    if s.vanReleases ≠ [] then s
    else if s.van.moves = [] ∧ 0 < s.free then s.postSummary (s.van.summaryOf ending)
    else { s with van := { s.van with summary := some (s.van.summaryOf ending) } }
  | _, _, _ => s

/-! ### Ending a session (R150) -/

/-- Whether every entry has its done count equal to its target. -/
def Van.met (v : Van) : Bool := v.manifest.all (fun m => m.done == m.target)

/-- The docks that carry a reservation and have no VAN release in flight. -/
def State.droppable (s : State) : List Nat :=
  dockNumbers.filter (fun d => (s.dock d).reservation != .unreserved && !s.vanReleases.contains d)

/-- End a session: its ending is fixed, its reservations without a VAN release in flight are dropped, and it closes (R150). -/
def State.endSession (s : State) (endedBy : EndedBy) (outcome : VanOutcome) : State :=
  let dropped := s.droppable.foldl (fun t d => t.putReservation d .unreserved) s
  (dropped.putVan { dropped.van with
    phase := .closing, idleAt := none
    ending := some { endedBy := endedBy, outcome := outcome, time := s.now } }).closeUp

/-- Exhaustion: a session whose entries are all met ends (R138, R150). -/
def State.endIfMet (s : State) : State :=
  if s.van.phase = .active ∧ s.van.met then s.endSession .exhaustion .exhausted else s

/-! ### Placing reservations (R136 to R138) -/

/-- The groups of conditions in the order a selector takes them (R137). -/
def Selector.groups : Selector → List (List Condition)
  | .any => [[.available, .quarantined, .recalled]]
  | .faultedFirst => [[.quarantined], [.recalled], [.available]]
  | .faultedOnly => [[.quarantined]]
  | .recalledFirst => [[.recalled], [.quarantined], [.available]]

/-- Whether a dock is a COLLECT candidate in a group and passes the member floor (R137). -/
def State.collectable (s : State) (d : Nat) (group : List Condition) : Bool :=
  (s.dock d).state == .occupied && (s.dock d).reservation == .unreserved &&
    (s.dock d).bike.any (fun b =>
      group.contains b.condition && (b.condition != .available || s.settings.memberFloor < s.available))

/-- The first COLLECT candidate that passes under a selector, other than a dock that is to be passed over (R137, R146). -/
def State.nextCollect (s : State) (selector : Selector) (skip : Nat) : Option Nat :=
  selector.groups.findSome? (fun g => dockNumbers.find? (fun d => d != skip && s.collectable d g))

/-- The lowest-numbered EMPTY unreserved dock (R138, R145). -/
def State.nextDeliver (s : State) : Option Nat :=
  dockNumbers.find? (fun d => (s.dock d).state == .empty && (s.dock d).reservation == .unreserved)

/-- Place a COLLECT reservation; settle first finalises a settling bike's entry with reason VAN (R137). -/
def State.placeCollect (s : State) (n d : Nat) : State := (s.settleDock d .van).putReservation d (.collect n)

/-- One placement of the reservation pass for an entry (R136), where a candidate is left. -/
def State.placeOne (s : State) (n : Nat) (kind : ManifestKind) : Option State :=
  match kind with
  | .collect selector => (s.nextCollect selector 0).map (fun d => s.placeCollect n d)
  | .deliver => s.nextDeliver.map (fun d => s.putReservation d (.deliver n))

/-- Place up to `k` reservations for an entry; each raises its target (R136). -/
def State.placeMany (n : Nat) (kind : ManifestKind) : Nat → State → State
  | 0, s => s
  | k + 1, s =>
    match s.placeOne n kind with
    | none => s
    | some s' => State.placeMany n kind k (s'.updateEntry n (fun m => { m with target := m.target + 1 }))

/-- The pass over the entries from number `n` (R136, R138). -/
def State.reserveFrom (n : Nat) : List ManifestEntry → State → State
  | [], s => s
  | m :: rest, s =>
    State.reserveFrom (n + 1) rest
      ((State.placeMany n m.kind m.asked s).updateEntry n (fun x => { x with short := x.asked - x.target }))

/-- The end of the pass: a session whose entries are all met ends at once, and another becomes ACTIVE (R138). -/
def State.endPass (s : State) : State :=
  if s.van.met then s.endSession .exhaustion .exhausted
  else (s.putVan { s.van with phase := .active }).restartIdle

/-! ### Moves counted (R142 to R144) -/

/-- A move counted: its record is made and the entry's done count rises (R142, R143). -/
def State.countMove (s : State) (collect : Bool) (n d bike : Nat) (reserved : Option Bool) : State :=
  (s.makeMove { session := s.van.session, van := s.van.van, collect := collect, entry := n, dock := d, bikeId := bike
                time := s.now, reserved := reserved }).updateEntry n (fun m => { m with done := m.done + 1 })

/-- The removal of a bike under a VAN release, its context already discarded (R142, R151). -/
def State.vanRemoval (s : State) (n d bike : Nat) : State :=
  ((((s.countMove true n d bike none).putReservation d .unreserved).restartIdle).endIfMet).closeUp

/-- The first DELIVER entry whose done count is below its target, by number (R144). -/
def State.wantedDeliver (s : State) : Option Nat :=
  ((s.van.manifest.zipIdx 1).find? (fun m => m.1.kind == .deliver && m.1.done < m.1.target)).map (fun m => m.2)

/-- Drop the highest-numbered reserved dock of an entry (R144). -/
def State.dropHighest (s : State) (n : Nat) : State :=
  match (s.reservedFor n).getLast? with
  | some d => s.putReservation d .unreserved
  | none => s

/-- An arrival with an IDLE tag, with the dock's reservation and whether the dock was EMPTY (R143, R144). -/
def State.vanArrival (s : State) (d bike : Nat) (wasEmpty : Bool) : State :=
  if s.van.phase.open then
    match (s.dock d).reservation with
    | .deliver n =>
      (((s.countMove false n d bike (some true)).putReservation d .unreserved).restartIdle).endIfMet
    | .collect _ => s
    | .unreserved =>
      if wasEmpty then
        match s.wantedDeliver with
        | some n => (((s.countMove false n d bike (some false)).dropHighest n).restartIdle).endIfMet
        | none => s
      else s
  else s

/-! ### Disturbed reservations (R145 to R147) -/

/-- The entry's target falls by 1 and it is marked SHORT (R145). -/
def State.fall (s : State) (n : Nat) : State :=
  (s.updateEntry n (fun m => { m with target := m.target - 1, short := m.short + 1 })).endIfMet

/-- A DELIVER reservation moves to the lowest-numbered EMPTY unreserved dock, or the target falls (R145, R147). -/
def State.moveDeliver (s : State) (n : Nat) : State :=
  match s.nextDeliver with
  | some d => s.putReservation d (.deliver n)
  | none => s.fall n

/-- A COLLECT reservation lost at a dock is replaced, or the target falls (R146). -/
def State.replaceCollect (s : State) (n lost : Nat) : State :=
  match entryAt s.van.manifest n with
  | some { kind := .collect selector, .. } =>
    match s.nextCollect selector lost with
    | some d => s.placeCollect n d
    | none => s.fall n
  | _ => s

/-- Drop the reservation of a dock, which van then replaces or moves while the session is RESERVING or ACTIVE; in CLOSING it
is neither replaced nor moved (R146, R147, R151). -/
def State.loseReservation (s : State) (d : Nat) : State :=
  match (s.dock d).reservation with
  | .unreserved => s
  | .collect n =>
    let s' := s.putReservation d .unreserved
    if s.van.phase.open then s'.replaceCollect n d else s'.closeUp
  | .deliver n =>
    let s' := s.putReservation d .unreserved
    if s.van.phase.open then s'.moveDeliver n else s'.closeUp

/-- An arrival at a dock with a DELIVER reservation that is no delivery: the reservation moves away (R145). -/
def State.disturbDeliver (s : State) (d : Nat) : State :=
  match (s.dock d).reservation with
  | .deliver n =>
    let s' := s.putReservation d .unreserved
    if s.van.phase.open then s'.moveDeliver n else s'
  | .collect _ => s
  | .unreserved => s

/-- A VAN release ended without a removal, its context already discarded: in CLOSING the reservation is dropped (R142,
R151). -/
def State.vanLapse (s : State) (d : Nat) : State :=
  if s.van.phase = .closing then (s.putReservation d .unreserved).closeUp else s

/-! ### VAN_OPEN, VAN_CLOSE and VAN_GET (R135, R136, R150, R154) -/

/-- The selector a field numbers (R134, R200). -/
def selectorOf : Nat → Option Selector
  | 1 => some .any
  | 2 => some .faultedFirst
  | 3 => some .faultedOnly
  | 4 => some .recalledFirst
  | _ => none

/-- The kind of a manifest entry as received, or the field that fails (R135). -/
def manifestKindOf (m : ManifestArg) : Except Field ManifestKind :=
  match m.kind, m.selector with
  | 1, some x =>
    match selectorOf x with
    | some sel => .ok (.collect sel)
    | none => .error .selector
  | 1, none => .error .selector
  | 2, none => .ok .deliver
  | 2, some _ => .error .selector
  | _, _ => .error .kind

/-- The manifest from entry `n` on, or the first failing entry and field (R135). DESIGN CHOICE (log 18): where no entry carries
the end mark, the entry named is the one past the last entry given. -/
def manifestOf : Nat → List ManifestArg → Except (Nat × Field) (List ManifestEntry)
  | n, [] => .error (n, .endMark)
  | n, m :: rest =>
    if 16 < n then .error (n, .endMark)
    else
      match manifestKindOf m with
      | .error f => .error (n, f)
      | .ok kind =>
        if m.count < 1 ∨ 64 < m.count then .error (n, .count)
        else
          let entry : ManifestEntry := { kind := kind, asked := m.count, target := 0, done := 0, short := 0 }
          if m.endMark then (if rest = [] then .ok [entry] else .error (n + 1, .endMark))
          else
            match manifestOf (n + 1) rest with
            | .ok es => .ok (entry :: es)
            | .error e => .error e

/-- The OUT_OF_RANGE reply of a VAN_OPEN, naming entry and field; entry 0 stands for the van id and the crew id. -/
def Reply.vanRange (entry : Nat) (f : Field) : Reply := { status := .outOfRange, result := .vanField entry f }

/-- Accept a VAN_OPEN: the session opens, the pass runs, and the reply follows at its end (R136, R138). -/
def State.openVan (s : State) (van crew : Nat) (manifest : List ManifestEntry) : State × Reply :=
  let opened := s.putVan
    { s.van with
      phase := .reserving, session := s.van.counter, counter := wrapUp 65535 s.van.counter, van := van, crew := crew
      manifest := manifest, opened := s.now, idleAt := none, ending := none, dropped := 0 }
  let passed := State.reserveFrom 1 manifest opened
  (passed.endPass,
    { status := .ok, result := .vanOpened s.van.counter (passed.van.manifest.map (fun m => (m.target, m.short))) })

/-- VAN_OPEN at van (R135). -/
def ownVanOpen (van crew : Nat) (manifest : List ManifestArg) (s : State) : State × Reply :=
  if s.van.phase ≠ .idle then (s, .refused .vanBusy)
  else if van < 1 ∨ 9999 < van then (s, .vanRange 0 .van)
  else if crew < 1 ∨ 99999999 < crew then (s, .vanRange 0 .crew)
  else
    match manifestOf 1 manifest with
    | .error (n, f) => (s, .vanRange n f)
    | .ok entries => if s.denied.contains crew then (s, .refused .cardDenied) else s.openVan van crew entries

/-- VAN_CLOSE at van (R150), judged by the session as it stands (R155, log 24). -/
def ownVanClose (session : Nat) (s : State) : State × Reply :=
  if s.van.phase = .idle ∨ session ≠ s.van.session then (s, .plain .notFound)
  else if s.van.phase = .active then
    (s.endSession .vanClose .closedEarly, { status := .ok, result := .vanOutcome .closedEarly })
  else (s, .plain .conflict)

/-- What VAN_GET reads outside IDLE (R154). DESIGN CHOICE (log 18): the time left to the idle deadline is in milliseconds, the
unit of the elapsed base. -/
def State.vanDetail (s : State) : VanDetail :=
  { phase := s.van.phase, session := s.van.session, van := s.van.van, crew := s.van.crew, opened := s.van.opened
    entries := (s.van.manifest.zipIdx 1).map (fun m => { entry := m.1, docks := s.reservedFor m.2 })
    releases := s.vanReleases, idleLeft := s.van.idleAt.map (fun t => t - s.elapsed), ending := s.van.ending
    moves := s.van.moves.length, dropped := s.van.dropped, summaryWaiting := s.van.summary.isSome }

/-- VAN_GET at van (R154). -/
def ownVanGet (s : State) : State × Reply :=
  if s.van.phase = .idle then (s, { status := .ok, result := .vanIdle s.van.counter })
  else (s, { status := .ok, result := .vanDetail s.vanDetail })

/-- The idle deadline, where the elapsed base has reached it (R149). -/
def State.vanIdleDue (s : State) : State :=
  match s.van.phase, s.van.idleAt with
  | .active, some t => if t ≤ s.elapsed then s.endSession .idleTimeout .timedOut else s
  | _, _ => s

/-- The values of a VAN_STATE notice (R154). -/
def State.vanReport (s : State) : VanReport :=
  { phase := s.van.phase, session := s.van.session, targets := (s.van.manifest.map (fun m => m.target)).sum
    done := (s.van.manifest.map (fun m => m.done)).sum
    reserved := s.docks.countP (fun d => d.reservation != .unreserved)
    outcome := s.van.ending.map (fun e => e.outcome) }

end Sys2Proof.Machine
end

