-- ==== Sys2Proof/Machine/Faults.lean ====
section
/-! DEFINITION. The Fault Unit, and what custody does at its word: the attention flag, FAULT records, bike fault reports, counted
and advisory dock faults, lockouts, the offline timers, central changes and the summary (chapter 7, R39 to R41). -/

namespace Sys2Proof.Machine

/-! ### The attention flag (R126) -/

/-- The causes of attention (R126). -/
inductive AttentionCause
  | quarantine | lockout | offline
deriving DecidableEq, Repr

/-- The flag set with one cause added. -/
def Attention.add (a : Attention) : AttentionCause → Attention
  | .quarantine => { a with raised := true, quarantine := true }
  | .lockout => { a with raised := true, lockout := true }
  | .offline => { a with raised := true, offline := true }

/-- Replace the attention flag; a change raises ATTENTION. -/
def State.putAttention (s : State) (a : Attention) : State :=
  if s.attention = a then s else ({ s with attention := a } : State).raise .attention

/-- Set the attention flag with a cause (R126). -/
def State.setAttention (s : State) (c : AttentionCause) : State := s.putAttention (s.attention.add c)

/-! ### FAULT records (R130, R131) -/

/-- Whether a record's effect is NOTED or SUSPECT (R131). -/
def FaultRecord.minor (f : FaultRecord) : Bool := f.effect == .noted || f.effect == .suspect

/-- The pending fault list with a record joined, and the records dropped for it (R131). -/
def joinFaults (fs : List FaultRecord) (f : FaultRecord) : List FaultRecord × Bool :=
  if fs.length < Config.faultPlaces then (fs ++ [f], false)
  else if f.minor then (fs, true)
  else
    match fs.findIdx? FaultRecord.minor with
    | some i => (fs.eraseIdx i ++ [f], true)
    | none => (fs.tail ++ [f], true)

/-- Post a FAULT record; it carries the dropped count, which returns to 0 (R131). -/
def State.postFault (s : State) (f : FaultRecord) : State :=
  { s.post (.fault f s.faultsDropped) with faultsDropped := 0 }

/-- A FAULT record is made: posted at once where a slot is free and none waits, or joined to the list (R130, R131). -/
def State.makeFault (s : State) (f : FaultRecord) : State :=
  if 0 < s.free ∧ s.faults = [] then s.postFault f
  else
    let joined := joinFaults s.faults f
    { s with faults := joined.1, faultsDropped := if joined.2 then countUp s.faultsDropped else s.faultsDropped }

/-- Serve the oldest pending FAULT record (R131, R160). -/
def State.serveFault (s : State) : State :=
  match s.faults with
  | [] => s
  | f :: rest => ({ s with faults := rest } : State).postFault f

/-- The record of a bike subject at a dock, before kind, source and effect. -/
def State.bikeFault (s : State) (d : Nat) (effect : FaultEffect) : FaultRecord :=
  { subject := .bike, dock := some d, bikeId := (s.dock d).bike.map (fun b => b.id), tagBikeId := none, tagRef := none
    kind := none, source := none, cause := none, reporter := none, reporters := none, confirmCount := none
    effect := effect, conditionAfter := (s.dock d).bike.map (fun b => b.condition), counterAfter := none
    counterBefore := none, dockState := none, bikeAbsent := false }

/-- The record of a dock subject as the dock stands. -/
def State.dockFault (s : State) (d : Nat) (kind : Option DockFault) (cause : Option DockCause) (effect : FaultEffect) :
    FaultRecord :=
  { subject := .dock, dock := some d, bikeId := (s.dock d).bike.map (fun b => b.id), tagBikeId := none, tagRef := none
    kind := kind.map FaultKind.dock, source := none, cause := cause, reporter := none, reporters := none
    confirmCount := none, effect := effect, conditionAfter := none, counterAfter := some (s.dock d).counter
    counterBefore := none, dockState := some (s.dock d).state, bikeAbsent := false }

/-! ### Bike fault reports (R119 to R122) -/

/-- The number of a bike fault kind (R114). -/
def BikeFault.number (k : BikeFault) : Nat :=
  match k with
  | .brake => 1 | .tyre => 2 | .chain => 3 | .light => 4 | .frame => 5 | .saddle => 6 | .tag => 7 | .other => 8

/-- The bike fault kind of a number (R114). -/
def bikeFaultOf : Nat → Option BikeFault
  | 1 => some .brake | 2 => some .tyre | 3 => some .chain | 4 => some .light
  | 5 => some .frame | 6 => some .saddle | 7 => some .tag | 8 => some .other
  | _ => none

/-- The policy entry of a kind (R116). -/
def State.policy (s : State) (k : BikeFault) : Policy :=
  (entryAt s.store.settings.cur.policy k.number).getD ⟨.advisory, 1⟩

/-- The tally of a kind. -/
def Bike.tally (b : Bike) (k : BikeFault) : List TallyEntry := (entryAt b.tallies k.number).getD []

/-- The bike with the tally of a kind replaced. -/
def Bike.putTally (b : Bike) (k : BikeFault) (t : List TallyEntry) : Bike :=
  { b with tallies := setEntry b.tallies k.number t }

/-- Add a kind to the fault set, in kind order. -/
def insertFault (k : BikeFault) : List BikeFault → List BikeFault
  | [] => [k]
  | x :: xs => if x = k then x :: xs else if k.number < x.number then k :: x :: xs else x :: insertFault k xs

/-- Prune a tally at `now` with a window in seconds (R119). -/
def pruneTally (now : Option Nat) (window : Nat) (t : List TallyEntry) : List TallyEntry :=
  match now with
  | none => t
  | some n => t.filter (fun e => match e.time with | none => true | some x => n < x + window)

/-- Enter a reporter: its time is refreshed in place, or it is added at the end (R119). -/
def enterTally (who : Reporter) (now : Option Nat) (t : List TallyEntry) : List TallyEntry :=
  if t.any (fun e => e.who == who) then t.map (fun e => if e.who = who then { e with time := now } else e)
  else t ++ [{ who := who, time := now }]

/-- The tally of a RIDER report after pruning and entering (R119). -/
def State.nextTally (s : State) (b : Bike) (k : BikeFault) (who : Reporter) : List TallyEntry :=
  enterTally who s.now (pruneTally s.now (s.settings.confirmWindow * 3600) (b.tally k))

/-- The bike with a kind confirmed (R120). -/
def Bike.confirm (b : Bike) (k : BikeFault) : Bike :=
  { b.putTally k [] with faults := insertFault k b.faults }

/-- Write the bike record of a dock. -/
def State.putBike (s : State) (d : Nat) (b : Bike) : State := s.putDock d { s.dock d with bike := some b }

/-- Make a confirmed bike QUARANTINED where it is AVAILABLE and quarantine is called for; the effect follows (R120). -/
def quarantineIf (call : Bool) (b : Bike) : Bike × FaultEffect :=
  if call ∧ b.condition = .available then ({ b with condition := .quarantined }, .quarantined) else (b, .noted)

/-- Attention with cause QUARANTINE where the effect is QUARANTINED or CONFLICT (R120, R122). -/
def State.attendEffect (s : State) (e : FaultEffect) : State :=
  if e = .quarantined ∨ e = .conflict then s.setAttention .quarantine else s

/-- The bike record and effect of a report of a kind (R119, R120): `rider` names the reporter of a RIDER report. -/
def State.decideReport (s : State) (b : Bike) (k : BikeFault) (rider : Option Reporter) : Bike × FaultEffect :=
  if b.faults.contains k then (b, .noted)
  else
    match rider with
    | some who =>
      let t := s.nextTally b k who
      if (s.policy k).count ≤ t.length then quarantineIf ((s.policy k).cls == .quarantine) (b.confirm k)
      else (b.putTally k t, .suspect)
    | none => quarantineIf ((s.policy k).cls == .quarantine) (b.confirm k)

/-- The distinct reporters a RIDER record carries: the tally's after the report (R130). -/
def State.reportersAfter (s : State) (b : Bike) (k : BikeFault) (who : Reporter) : Nat :=
  if b.faults.contains k then (b.tally k).length else (s.nextTally b k who).length

/-- A RIDER or CREW report on the bike of a dock: the effect is applied, the record made and attention set (R120). -/
def State.reportBike (s : State) (d : Nat) (b : Bike) (k : BikeFault) (source : FaultSource) (who : Reporter) :
    State × FaultEffect :=
  let rider := if source = .rider then some who else none
  let decided := s.decideReport b k rider
  let s1 := s.putBike d decided.1
  let r : FaultRecord :=
    { s1.bikeFault d decided.2 with
      kind := some (.bike k), source := some source, reporter := some who
      reporters := rider.map (fun w => s.reportersAfter b k w)
      confirmCount := rider.map (fun _ => (s.policy k).count) }
  ((s1.makeFault r).attendEffect decided.2, decided.2)

/-- A report that names no bike in the dock table (R121). DESIGN CHOICE (log 17): R121 keeps no tally for it, so the record of
a RIDER report carries neither reporters nor confirm count, which R130 lists for RIDER records. -/
def State.reportAbsent (s : State) (dock bike : Option Nat) (k : BikeFault) (source : FaultSource) (who : Reporter) :
    State :=
  s.makeFault
    { subject := .bike, dock := dock, bikeId := bike, tagBikeId := none, tagRef := none, kind := some (.bike k)
      source := some source, cause := none, reporter := some who, reporters := none, confirmCount := none
      effect := .noted, conditionAfter := none, counterAfter := none, counterBefore := none, dockState := none
      bikeAbsent := true }

/-- A TAG report with source DOCK on the bike of a dock, but for a conflict. A bike with id 0 is quarantined whatever the
class of TAG (R122). -/
def State.reportTag (s : State) (d : Nat) : State :=
  match (s.dock d).bike with
  | none => s
  | some b =>
    let decided :=
      if b.faults.contains .tag then (b, .noted)
      else quarantineIf ((s.policy .tag).cls == .quarantine || b.id == 0) (b.confirm .tag)
    let s1 := s.putBike d decided.1
    (s1.makeFault { s1.bikeFault d decided.2 with kind := some (.bike .tag), source := some .dock }).attendEffect decided.2

/-- The TAG report of a conflicting bike id: the bike, with id 0, is quarantined with effect CONFLICT (R122). -/
def State.reportConflict (s : State) (d tagBike : Nat) (tagRef : Option HireRef) : State :=
  match (s.dock d).bike with
  | none => s
  | some b =>
    let s1 := s.putBike d { b.confirm .tag with condition := .quarantined }
    (s1.makeFault
      { s1.bikeFault d .conflict with
        kind := some (.bike .tag), source := some .dock, tagBikeId := some tagBike, tagRef := tagRef }).attendEffect .conflict

/-! ### Dock faults (R40, R123 to R125) -/

/-- Whether a dock is locked out already: LOCKED_OUT, or in a release begun from LOCKED_OUT (R40). -/
def Dock.lockedAlready (x : Dock) : Bool := x.state == .lockedOut || x.release.any (fun r => r.origin == .lockedOut)

/-- Custody applies a lockout: LOCKED_OUT, SHOW FAULT, and the reservation dropped to van (R40). -/
def State.applyLockout (s : State) (d : Nat) : State :=
  let s1 := s.putDock d
    { s.dock d with state := .lockedOut, relockAt := none, lockoutPending := false, shown := some .fault }
  (s1.issue d (.show .fault)).loseReservation d

/-- Custody takes an ordered lockout: at once, or at the end of the release begun from OCCUPIED (R40). -/
def State.orderLockout (s : State) (d : Nat) : State :=
  if (s.dock d).release.isSome then s.putDock d { s.dock d with lockoutPending := true } else s.applyLockout d

/-- A counted dock fault (R123, R124): the counter rises, the lockout is ordered at the limit, and the record is made. -/
def State.countFault (s : State) (d : Nat) (kind : DockFault) (cause : DockCause) : State :=
  let counter := min 7 ((s.dock d).counter + 1)
  let limit := s.settings.dockFaultLimit
  let ordered := 0 < limit ∧ limit ≤ counter ∧ (s.dock d).lockedAlready = false
  let s1 := s.putDock d { s.dock d with counter := counter }
  if ordered then
    let s2 := s1.orderLockout d
    (s2.makeFault (s2.dockFault d (some kind) (some cause) .lockedOut)).setAttention .lockout
  else s1.makeFault (s1.dockFault d (some kind) (some cause) .noted)

/-- An advisory dock fault (R125). -/
def State.noteFault (s : State) (d : Nat) (kind : DockFault) (cause : DockCause) : State :=
  s.makeFault (s.dockFault d (some kind) (some cause) .noted)

/-- A dock that census puts LOCKED_OUT is reported to faults (R124). DESIGN CHOICE (log 17): the record is noted as from census
by its cause, CENSUS, which R130 gives, where R124 calls the cause absent. -/
def State.censusLockout (s : State) (d : Nat) : State :=
  (s.setAttention .lockout).makeFault (s.dockFault d none (some .census) .lockedOut)

/-- The run of unreadable taps of a dock (R125). -/
def State.run (s : State) (d : Nat) : Nat := (entryAt s.readerRuns d).getD 0

/-- The state with the run of a dock replaced. -/
def State.putRun (s : State) (d n : Nat) : State := { s with readerRuns := setEntry s.readerRuns d n }

/-- Custody reports a TAP to faults, readable or not (R24, R125). -/
def State.reportTap (s : State) (d : Nat) (readable : Bool) : State :=
  if readable then s.putRun d 0
  else if 2 ≤ s.run d then (s.putRun d 0).noteFault d .reader .unreadableRun
  else s.putRun d (s.run d + 1)

/-! ### Offline timers (R125, R127) -/

/-- Whether the start-up census phase still runs (R197). -/
def State.censusRuns (s : State) : Bool := s.censusLimit.isSome

/-- Start a dock's offline timer, unless the start-up census phase still runs (R127). -/
def State.startOffline (s : State) (d : Nat) : State :=
  if s.censusRuns then s
  else { s with offlineAt := setEntry s.offlineAt d (some (s.elapsed + Config.censusPeriod)) }

/-- Cancel a dock's offline timer (R127). -/
def State.cancelOffline (s : State) (d : Nat) : State := { s with offlineAt := setEntry s.offlineAt d none }

/-- A SILENCE posts a COMMS fault, unless the start-up census phase still runs (R125). -/
def State.reportSilence (s : State) (d : Nat) : State :=
  if s.censusRuns then s else s.noteFault d .comms .silence

/-- The expiry of a dock's offline timer, where the elapsed base has reached it (R127). -/
def State.offlineDue (s : State) (d : Nat) : State :=
  match (entryAt s.offlineAt d).join with
  | some t => if t ≤ s.elapsed then (s.cancelOffline d).setAttention .offline else s
  | none => s

/-! ### Central changes, clearing and the summary (R41, R128, R129) -/

/-- A BIKE_SET change of the bike in a dock to a condition, with the FAULT record's effect (R129). -/
def State.centralChange (s : State) (d : Nat) (b : Bike) (effect : FaultEffect) : State :=
  let s1 := s.putBike d b
  let s2 := s1.makeFault { s1.bikeFault d effect with source := some .central }
  if effect = .quarantined then s2.setAttention .quarantine else s2

/-- Carry out the next state of a BIKE_SET and say whether anything changed (R129). -/
def State.setBike (s : State) (d : Nat) (b : Bike) (next : Condition) : State × Bool :=
  match next with
  | .quarantined =>
    if b.condition = .quarantined then (s, false)
    else (s.centralChange d { b with condition := .quarantined } .quarantined, true)
  | .recalled =>
    if b.condition = .recalled then (s, false) else (s.centralChange d { b with condition := .recalled } .noted, true)
  | .available =>
    if b.condition = .available ∧ b.faults = [] ∧ b.tallies.all (fun t => t == []) then (s, false)
    else
      (s.centralChange d { b with condition := .available, faults := [], tallies := List.replicate 8 [] } .cleared, true)

/-- DOCK_CLEAR at a LOCKED_OUT dock: the counter is 0 and the dock is left by presence and lock (R41), and faults records it
(R129). -/
def State.clearDock (s : State) (d : Nat) : State :=
  let x := s.dock d
  let before := x.counter
  let s1 :=
    if x.bike.isNone then s.putDock d { x with counter := 0, state := .empty }
    else if x.lock = .locked then s.putDock d { x with counter := 0, state := .occupied }
    else (s.putDock d { x with counter := 0, state := .relocking }).issue d .lock
  s1.makeFault { s1.dockFault d none none .cleared with counterBefore := some before }

/-- The bike part of an item. -/
def Bike.item (b : Bike) : ItemBike := { id := b.id, condition := b.condition, faults := b.faults, settling := b.settling }

/-- Whether a dock is listed in a fault summary (R128). -/
def Dock.listed (x : Dock) : Bool := x.state == .lockedOut || x.state == .offline || x.holds .quarantined

/-- The items of a fault summary, in dock-number order (R128). -/
def State.summaryItems (s : State) : List SummaryItem :=
  (dockNumbers.filter (fun d => (s.dock d).listed)).map (fun d =>
    { dock := d, state := (s.dock d).state, counter := (s.dock d).counter, bike := (s.dock d).bike.map Bike.item })

/-- A FAULT_SUMMARY clears the flag and raises ATTENTION (R128). -/
def State.clearAttention (s : State) : State := ({ s with attention := .clear } : State).raise .attention

/-! ### POLICY_SET, POLICY_GET and RIDER_REPORT (R116, R117) -/

/-- The class a field numbers (R116, R200). -/
def classOf : Nat → Option FaultClass
  | 1 => some .quarantine
  | 2 => some .advisory
  | _ => none

/-- POLICY_SET at faults (R116). -/
def ownPolicySet (kind cls count : Nat) (s : State) : State × Reply :=
  if kind < 1 ∨ 8 < kind then (s, .range .kind)
  else
    match classOf cls with
    | none => (s, .range .cls)
    | some c =>
      if count < 1 ∨ 3 < count then (s, .range .count)
      else
        (s.putSettings { s.store.settings.cur with
          policy := setEntry s.store.settings.cur.policy kind { cls := c, count := count } }, .plain .ok)

/-- POLICY_GET at faults: a kind, or 9 for ALL (R116, R200). -/
def ownPolicyGet (kind : Nat) (s : State) : State × Reply :=
  if kind = 9 then (s, { status := .ok, result := .policies s.store.settings.cur.policy })
  else
    match entryAt s.store.settings.cur.policy kind with
    | some p => (s, { status := .ok, result := .policies [p] })
    | none => (s, .range .kind)

/-- The reporter of a RIDER_REPORT; a pass slot stands for its current pass, and a FREE slot names none (R117). -/
def State.reporterOf (s : State) : ReporterArg → Option Reporter
  | .member id => some (.person id)
  | .passSlot slot => (s.pass slot).map (fun p => .pass slot p.serial)
  | .anonymous => some .anonymous
  | .other _ => none

/-- The first range a RIDER_REPORT fails, in R117's order. A choice byte that names no sort of target or reporter fails there
(R183). DESIGN CHOICE (log 18): a member id or a pass slot of 0 fails its range, and only the choice of an anonymous reporter
stands for anonymous; and each of R117's cases of the reporter, a member id, a pass slot or a reporter given with CREW, names
the one field REPORTER. -/
def riderRange (target : TargetArg) (kind source : Nat) (reporter : ReporterArg) : Option Field :=
  let badTarget : Option Field :=
    match target with
    | .dock d => if d < 1 ∨ 64 < d then some .dock else none
    | .bike b => if b = 0 then some .bike else none
    | .other _ => some .target
  let badReporter : Bool :=
    match reporter with
    | .member id => id < 1 || 99999999 < id
    | .passSlot slot => slot < 1 || 32 < slot || source == 2
    | .anonymous => source == 2
    | .other _ => true
  match badTarget with
  | some f => some f
  | none =>
    if kind < 1 ∨ 8 < kind then some .kind
    else if source < 1 ∨ 2 < source then some .source
    else if badReporter then some .reporter
    else none

/-- The dock a target resolves to, where it holds a bike record (R117). -/
def State.targetDock (s : State) : TargetArg → Option Nat
  | .dock d => if (s.dock d).bike.isSome then some d else none
  | .bike b => s.dockOfBike b
  | .other _ => none

/-- The dock a target names. -/
def namedDock : TargetArg → Option Nat
  | .dock d => some d
  | .bike _ => none
  | .other _ => none

/-- The bike id a target names. -/
def namedBike : TargetArg → Option Nat
  | .dock _ => none
  | .bike b => some b
  | .other _ => none

/-- A RIDER_REPORT within its ranges is taken (R117, R120, R121), and handed to settle (R105). -/
def State.takeReport (s : State) (target : TargetArg) (k : BikeFault) (source : FaultSource) (who : Reporter) :
    State × Reply :=
  match s.targetDock target with
  | some d =>
    match (s.dock d).bike with
    | some b =>
      let taken := s.reportBike d b k source who
      (taken.1.waiveForReporter b.id k who,
        { status := .ok, result := .report (some b.id) (some d) taken.2 false })
    | none => (s, .plain .notFound)
  | none =>
    (s.reportAbsent (namedDock target) (namedBike target) k source who,
      { status := .ok, result := .report (namedBike target) (namedDock target) .noted true })

/-- RIDER_REPORT at faults (R117). -/
def ownRiderReport (target : TargetArg) (kind source : Nat) (reporter : ReporterArg) (s : State) : State × Reply :=
  match riderRange target kind source reporter with
  | some f => (s, .range f)
  | none =>
    match s.reporterOf reporter, bikeFaultOf kind with
    | some who, some k => s.takeReport target k (if source = 1 then .rider else .crew) who
    | _, _ => (s, .plain .notFound)

end Sys2Proof.Machine
end

