-- ==== Sys2Proof/Machine/Admission.lean ====
section
/-! DEFINITION. The Admission Unit: the plans table, hire references, member, crew, pass and van attempts, the beginning of a
release, and the opening and closing of hires (chapter 3, R23, R65 to R67, R140, R141). -/

namespace Sys2Proof.Machine

/-! ### Readiness (R23) -/

/-- Why a dock is not ready for a MEMBER, PASS or REMOTE release: checks 2 to 4 of R51 in the order of R23. -/
def State.riderRefusal (s : State) (d : Nat) : Option Reason :=
  let x := s.dock d
  if x.configured = false then some .dockOffline
  else
    match x.state with
    | .offline => some .dockOffline
    | .empty => some .noBike
    | .lockedOut => some .dockFault
    | .tagWriting => some .dockBusy
    | .unlocking => some .dockBusy
    | .releaseOpen => some .dockBusy
    | .relocking => some .dockBusy
    | .occupied =>
      if x.reservation ≠ .unreserved then some .dockReserved
      else if x.holds .available then none
      else some .bikeUnavailable

/-- Why a dock is not ready for a CREW release (R23). -/
def State.crewRefusal (s : State) (d : Nat) : Option Reason :=
  let x := s.dock d
  if x.configured = false then some .dockOffline
  else
    match x.state with
    | .offline => some .dockOffline
    | .empty => some .noBike
    | .lockedOut => if x.bike.isSome then none else some .noBike
    | .tagWriting => some .dockBusy
    | .unlocking => some .dockBusy
    | .releaseOpen => some .dockBusy
    | .relocking => some .dockBusy
    | .occupied => if x.reservation ≠ .unreserved then some .dockReserved else none

/-! ### Hire references (R50) -/

/-- Whether an open hire or a release in flight holds a reference. -/
def State.refHeld (s : State) (ref : HireRef) : Bool :=
  s.hires.any (fun h => h.ref == ref) || s.releases.any (fun r => r.ref? == some ref)

/-- The first local count from `c` whose reference is not held (R50). -/
def State.freeCount (s : State) : Nat → Nat → Nat
  | 0, c => c
  | fuel + 1, c =>
    if s.refHeld { station := s.stationId, count := c } then s.freeCount fuel (wrapUp Config.maxHireCount c) else c

/-- The reference the next admitted release takes. At most 96 entries and 64 releases hold references. -/
def State.nextRef (s : State) : HireRef :=
  { station := s.stationId, count := s.freeCount 161 s.store.hireCount.cur }

/-! ### Beginning a release (R23, R25, R52) -/

/-- Custody begins a release: settle first finalises a settling bike's entry, the context is placed, and the tag command of
the kind is issued (R23, R25). -/
def State.beginRelease (s : State) (d : Nat) (r : Release) : State :=
  let s1 := s.settleDock d .release
  let s2 := s1.putDock d { s1.dock d with state := .tagWriting, release := some r }
  match r.party with
  | .hire _ _ _ image => s2.issue d (.tagWrite image)
  | .van _ _ => s2.issue d (.tagClear .vanRelease)

/-- The origin a release at a dock notes (R23). -/
def Dock.origin (x : Dock) : Origin := if x.state = .lockedOut then .lockedOut else .occupied

/-- The trip image of a release (R52, R90). DESIGN CHOICE (log 24): a CREW release of a bike recorded with id 0 (R122) carries
the bike id 0, which lies outside the range that R49 and 13.3 give, and no rule names another value. -/
def State.tripImage (s : State) (d : Nat) (hirer : Hirer) (plan credit t : Nat) : TripImage :=
  { bikeId := ((s.dock d).bike.map (fun b => b.id)).getD 0, ref := s.nextRef, hirer := hirer, start := t, plan := plan
    generation := s.tariffs.current.generation, credit := credit }

/-- Take a hire reference: the advanced count is written (R50). -/
def State.takeRef (s : State) : State := s.putHireCount (wrapUp Config.maxHireCount s.nextRef.count)

/-- An admitted release: the reference is taken, a slot set aside, the context built and the release begun (R52). -/
def State.admitRelease (s : State) (d : Nat) (hirer : Hirer) (issue : Option Nat) (plan credit t : Nat) (fromDock : Bool) :
    State :=
  (s.takeRef.takeSlot).beginRelease d
    { party := .hire hirer issue s.nextRef (s.tripImage d hirer plan credit t), credit := credit
      origin := (s.dock d).origin, fromDock := fromDock, expiryHeld := false }

/-- The release credit custody answers (R21). -/
def State.releaseCredit (s : State) : Nat := if s.settings.highMark < s.stock then s.settings.releaseCredit else 0

/-- Check 9: whether the open-hire entries and the releases in flight leave a place (R51). -/
def State.hirePlace (s : State) : Bool := s.hires.length + s.hireReleases < Config.openHirePlaces

/-- Check 10: whether the free slots number at least the open reserve (R51). -/
def State.journalRoom (s : State) : Bool := s.settings.openReserve ≤ s.free

/-! ### Member and crew cards (R51, R55, R56) -/

/-- Checks 5 to 10 of a member attempt at scheme time `t` (R51). -/
def State.memberChecks (s : State) (card : CardImage) (t : Nat) : Option Reason :=
  let plan := planEntry s.plans card.plan
  if card.expiryDay < schemeDay s.settings.dayOffset t then some .cardExpired
  else if s.denied.contains card.member then some .cardDenied
  else if plan.admitted = false then some .planClosed
  else if plan.hireLimit ≤ s.memberHires card.member then some .hireLimit
  else if s.hirePlace = false then some .hireTableFull
  else if s.journalRoom = false then some .journalFull
  else none

/-- A member attempt at a dock (R51): refused, or admitted and begun. -/
def State.memberAttempt (s : State) (d : Nat) (card : CardImage) : State × Option Reason :=
  match s.now with
  | none => (s, some .clockUnset)
  | some t =>
    match s.riderRefusal d with
    | some r => (s, some r)
    | none =>
      match s.memberChecks card t with
      | some r => (s, some r)
      | none => (s.admitRelease d (.member card.member) (some card.issue) card.plan s.releaseCredit t true, none)

/-- A crew release at a dock without a reservation (R56). -/
def State.crewAttempt (s : State) (d : Nat) (card : CardImage) : State × Option Reason :=
  match s.now with
  | none => (s, some .clockUnset)
  | some t =>
    match s.crewRefusal d with
    | some r => (s, some r)
    | none =>
      if s.denied.contains card.member then (s, some .cardDenied)
      else if s.journalRoom = false then (s, some .journalFull)
      else (s.admitRelease d (.crew card.member) (some card.issue) 15 0 t true, none)

/-! ### Van releases (R140, R141) -/

/-- Whether the pending van-move list and the VAN releases in flight leave room for another (R140). -/
def State.vanRoom (s : State) : Bool := s.van.moves.length + s.vanReleases.length < Config.movePlaces

/-- Begin a VAN release for a manifest entry (R140): no hire reference, no slot set aside. -/
def State.beginVan (s : State) (d entry : Nat) (fromDock : Bool) : State :=
  s.beginRelease d
    { party := .van s.van.crew entry, credit := 0, origin := (s.dock d).origin, fromDock := fromDock, expiryHeld := false }

/-- A crew tap handed to van as a collection request (R140). -/
def State.collectRequest (s : State) (d entry crew : Nat) : State × Option Reason :=
  let s1 := s.restartIdle
  if s1.denied.contains crew then (s1, some .cardDenied)
  else if s1.vanRoom = false then (s1, some .journalFull)
  else if (s1.dock d).state ≠ .occupied then (s1, some .dockBusy)
  else (s1.beginVan d entry true, none)

/-- A crew attempt (R55): the dock's reservation and the session choose the path. -/
def State.crewCard (s : State) (d : Nat) (card : CardImage) : State × Option Reason :=
  match (s.dock d).reservation with
  | .unreserved => s.crewAttempt d card
  | .collect n =>
    if s.van.phase = .active ∧ s.van.crew = card.member then s.collectRequest d n card.member
    else (s, some .dockReserved)
  | .deliver _ => (s, some .dockReserved)

/-- The attempt of a readable card (R51, R55). -/
def State.cardAttempt (s : State) (d : Nat) (card : CardImage) : State × Option Reason :=
  if card.plan = 15 then s.crewCard d card else s.memberAttempt d card

/-- The reason a dock is not ready for a VAN release that a request asks for (R23, R141). -/
def Dock.vanRefusal (x : Dock) : Option Reason :=
  match x.state with
  | .occupied => none
  | .offline => some .dockOffline
  | _ => some .dockBusy

/-- VAN_RELEASE at van: taken while ACTIVE it restarts the idle deadline, also where it is refused (R141, R149). -/
def ownVanRelease (d : Nat) (s : State) : State × Reply :=
  if d < 1 ∨ 64 < d then (s.restartIdle, .range .dock)
  else if s.van.phase ≠ .active then (s, .plain .conflict)
  else
    let s1 := s.restartIdle
    match (s1.dock d).reservation with
    | .collect n =>
      if s1.vanRoom = false then (s1, .refused .journalFull)
      else
        match (s1.dock d).vanRefusal with
        | some r => (s1, .refused r)
        | none => (s1.beginVan d n false, .plain .ok)
    | .deliver _ => (s1, .refused .notReserved)
    | .unreserved => (s1, .refused .notReserved)

/-! ### Keypad codes (R65 to R67) -/

/-- The slot of the pass that holds a code and is ISSUED, IDLE or CLOSING (R65). -/
def State.codeSlot (s : State) (code : Nat) : Option Nat :=
  slotNumbers.find? (fun slot => (s.pass slot).any (fun p =>
    p.code == code && (p.state == .issued || p.state == .idle || p.state == .closing)))

/-- The early finalise of a CLOSING pass's ride (R66). -/
def State.reusePass (s : State) (slot : Nat) : State :=
  match s.pass slot with
  | some p =>
    if p.state = .closing then
      match p.current with
      | some ref => s.finaliseHire ref
      | none => s
    else s
  | none => s

/-- The checks of R65 from the expiry check on, and the admission of R67. DESIGN CHOICE (log 24): R66 is silent on a pass that
is still CLOSING here, for its current hire has no HELD entry to finalise, and R106 has admission go on as if the finalise had
been done; its code is refused PASS_EXPIRED, and it stays CLOSING. -/
def State.passChecks (s : State) (d slot t : Nat) : State × Option Reason :=
  match s.pass slot with
  | none => (s, some .passExpired)
  | some p =>
    if p.state ≠ .issued ∧ p.state ≠ .idle then (s, some .passExpired)
    else if p.expiry ≤ t then (s, some .passExpired)
    else if p.balance < s.settings.minPassBalance then (s, some .passFunds)
    else if s.passInFlight slot p.serial then (s, some .passInUse)
    else if s.hirePlace = false then (s, some .hireTableFull)
    else if s.journalRoom = false then (s, some .journalFull)
    else (s.admitRelease d (.pass slot p.serial) none 14 s.releaseCredit t true, none)

/-- A KEYPAD attempt at a dock (R65). DESIGN CHOICE (log 24): a code whose pass settled at its expiry is refused PASS_UNKNOWN,
as R65's code check says of a SETTLING pass and of a code no pass holds, where R78 says PASS_EXPIRED. -/
def State.keypadAttempt (s : State) (d code : Nat) : State × Option Reason :=
  match s.now with
  | none => (s, some .clockUnset)
  | some t =>
    match s.riderRefusal d with
    | some r => (s, some r)
    | none =>
      match s.codeSlot code with
      | none => (s, some .passUnknown)
      | some slot => (s.reusePass slot).passChecks d slot t

/-! ### Opening and closing hires (R54, R56, R57) -/

/-- Whether a hirer is a crew member. -/
def Hirer.isCrew : Hirer → Bool
  | .crew _ => true
  | .member _ => false
  | .pass _ _ => false
  | .remote _ => false

/-- The MEMBER, PASS and REMOTE releases in flight (R56). -/
def State.riderReleases (s : State) : Nat := s.releases.countP (fun r => r.hirer?.any (fun h => !h.isCrew))

/-- Open the hire of a removal whose context has been discarded: the entry is added, HIRE_OPEN goes into the slot set aside,
and passes is told (R54, R56, R68). -/
def State.openHire (s : State) (hirer : Hirer) (issue : Option Nat) (image : TripImage) (credit d bike : Nat) : State :=
  let hire : OpenHire :=
    { ref := image.ref, hirer := hirer, bikeId := bike, start := image.start, plan := image.plan
      generation := image.generation }
  let untracked := hirer.isCrew && Config.openHirePlaces ≤ s.hires.length + s.riderReleases
  let s1 := if untracked then s else s.putHires (s.hires ++ [hire])
  let s2 := (s1.returnSlot).post (.hireOpen hire issue d s.now credit untracked)
  match hirer with
  | .pass slot serial => s2.passLeaves slot serial image.ref
  | _ => s2

/-- A return hands admission its hire reference: the entry it names is removed, and a pass's ride ends (R57, R69). -/
def State.closeHire (s : State) (ref : HireRef) : State :=
  match s.hireOf ref with
  | none => s
  | some h =>
    match h.hirer with
    | .pass slot serial => (s.removeHire ref).passReturns slot serial ref
    | _ => s.removeHire ref

/-! ### The hire age limit (R58) -/

/-- Whether an entry is past its age at `t` under a limit in days (R58). -/
def OpenHire.pastAge (h : OpenHire) (limit t : Nat) : Bool :=
  match h.hirer with
  | .pass _ _ => false
  | _ => h.start + limit * Config.daySeconds ≤ t

/-- The examination of R58 over the entries left: it stops at an entry past its age for which no slot is free. -/
def State.expireHires (t : Nat) : List OpenHire → State → State
  | [], s => s
  | h :: rest, s =>
    if h.pastAge s.settings.hireAgeLimit t then
      if 0 < s.free then State.expireHires t rest ((s.removeHire h.ref).post (.hireExpired h .age)) else s
    else State.expireHires t rest s

/-- The hire age examination (R58). -/
def State.examineHires (s : State) : State :=
  match s.now with
  | none => s
  | some t => State.expireHires t s.hires s

/-! ### PLAN_SET and PLAN_GET (R47) -/

/-- The first field of a PLAN_SET outside its range, in the order of R46. -/
def planRange (f : PlanArgs) : Option Field :=
  if f.admitted < 1 ∨ 2 < f.admitted then some .admitted
  else if 240 < f.freeMinutes then some .freeMinutes
  else if 200 < f.percent then some .percent
  else if 1000 < f.unlockFee then some .unlockFee
  else if 65535 < f.ceiling then some .ceiling
  else if f.hireLimit < 1 ∨ 4 < f.hireLimit then some .hireLimit
  else none

/-- The plan entry that the fields of a PLAN_SET give. -/
def planOf (f : PlanArgs) : Plan :=
  { admitted := f.admitted == 1, freeMinutes := f.freeMinutes, percent := f.percent, unlockFee := f.unlockFee
    ceiling := f.ceiling, hireLimit := f.hireLimit }

/-- PLAN_SET at admission (R47). -/
def ownPlanSet (code : Nat) (f : PlanArgs) (s : State) : State × Reply :=
  if 14 < code then (s, .range .code)
  else
    match planRange f with
    | some x => (s, .range x)
    | none => (s.putPlans (s.plans.set code (planOf f)), .plain .ok)

/-- PLAN_GET at admission (R47). -/
def ownPlanGet (code : Nat) (s : State) : State × Reply :=
  match s.plans[code]? with
  | some p => if 15 < code then (s, .range .code) else (s, { status := .ok, result := .plan p })
  | none => (s, .range .code)

end Sys2Proof.Machine
end

