-- ==== Sys2Proof/Machine/Directives.lean ====
section
/-! DEFINITION. The Directive Queue: the ranges of R172, the nine kinds, and the execution of the head with its
DIRECTIVE_REPLY (chapter 10). -/

namespace Sys2Proof.Machine

/-- What a directive's execution answers: outcome, reason and result fields (R172). -/
structure DirectiveAnswer where
  outcome : DirectiveOutcome
  reason : Option Reason
  result : DirectiveResult
deriving DecidableEq, Repr

/-- OUT_OF_RANGE with the field named (R172). -/
def answerRange (f : Field) : DirectiveAnswer := { outcome := .outOfRange, reason := none, result := .field f }

/-- An outcome without result fields. -/
def answerPlain (o : DirectiveOutcome) (r : Option Reason) : DirectiveAnswer := { outcome := o, reason := r, result := .empty }

/-- DONE with result fields. -/
def answerDone (r : DirectiveResult) : DirectiveAnswer := { outcome := .done, reason := none, result := r }

/-- The argument of a size at an offset, where the argument field reaches it and the value is within a range (R172, R200).
A field that the arguments do not reach fails its range (log 13). -/
def argument (args : List Byte) (offset size lo hi : Nat) : Option Nat :=
  if args.length < offset + size then none
  else if fieldAt args offset size < lo ∨ hi < fieldAt args offset size then none
  else some (fieldAt args offset size)

/-! ### BIKE_SET and DOCK_CLEAR (R173, R174) -/

/-- Whether a condition argument matches: ANY, IF_AVAILABLE, IF_QUARANTINED or IF_RECALLED, from 1 (R173). -/
def conditionMatches (arg : Nat) (c : Condition) : Bool :=
  match arg with
  | 1 => true
  | 2 => c == .available
  | 3 => c == .quarantined
  | _ => c == .recalled

/-- The condition a next state sets: NOP sets none; 2 to 4 are AVAILABLE, QUARANTINE and RECALL (R172). -/
def nextCondition : Nat → Option Condition
  | 2 => some .available
  | 3 => some .quarantined
  | 4 => some .recalled
  | _ => none

/-- BIKE_SET within its ranges: presence, condition and transience, then the change (R173). DESIGN CHOICE (log 24): the bike,
dock, conditions and changed mark stand in the reply of DONE only, so NOT_PRESENT and TARGET_BUSY carry no result field. -/
def runBikeSet (bike condition next : Nat) (s : State) : State × DirectiveAnswer :=
  match s.dockOfBike bike with
  | none => (s, answerPlain .notPresent none)
  | some d =>
    match (s.dock d).bike with
    | none => (s, answerPlain .notPresent none)
    | some b =>
      if conditionMatches condition b.condition = false then
        (s, { outcome := .conditionFalse, reason := some .condition, result := .conditionFound b.condition })
      else if (s.dock d).state.transient then (s, answerPlain .targetBusy none)
      else
        match nextCondition next with
        | none => (s, answerDone (.bikeSet bike d b.condition b.condition false))
        | some c =>
          let changed := s.setBike d b c
          (changed.1, answerDone (.bikeSet bike d b.condition c changed.2))

/-- BIKE_SET (R172, R173). -/
def doBikeSet (args : List Byte) (s : State) : State × DirectiveAnswer :=
  match argument args 0 4 1 16777215 with
  | none => (s, answerRange .bike)
  | some bike =>
    match argument args 4 1 1 4 with
    | none => (s, answerRange .condition)
    | some condition =>
      match argument args 5 1 1 4 with
      | none => (s, answerRange .nextState)
      | some next => runBikeSet bike condition next s

/-- DOCK_CLEAR within its range (R174). -/
def runDockClear (d : Nat) (s : State) : State × DirectiveAnswer :=
  let x := s.dock d
  if x.state.transient then (s, { outcome := .targetBusy, reason := none, result := .dockClear d x.counter x.state })
  else if x.state = .lockedOut then
    let s' := s.clearDock d
    (s', answerDone (.dockClear d x.counter (s'.dock d).state))
  else (s, { outcome := .conditionFalse, reason := some .notLockedOut, result := .dockClear d x.counter x.state })

/-- DOCK_CLEAR (R172, R174). -/
def doDockClear (args : List Byte) (s : State) : State × DirectiveAnswer :=
  match argument args 0 1 1 64 with
  | none => (s, answerRange .dock)
  | some d => runDockClear d s

/-! ### REMOTE_RELEASE (R175, R176) -/

/-- The presence, condition and transience checks of a remote release (R175). -/
def State.remoteRefusal (s : State) (d : Nat) : Option (DirectiveOutcome × Reason) :=
  let x := s.dock d
  if x.configured = false ∨ x.state = .offline then some (.notPresent, .dockOffline)
  else if x.bike.isNone then some (.notPresent, .noBike)
  else if x.state = .lockedOut then some (.conditionFalse, .dockFault)
  else if x.reservation ≠ .unreserved then some (.conditionFalse, .dockReserved)
  else if x.holds .available = false then some (.conditionFalse, .bikeUnavailable)
  else if x.state.transient then some (.targetBusy, .dockBusy)
  else none

/-- Checks 6 to 10 of a remote release (R175). -/
def State.remoteChecks (s : State) (member plan : Nat) : Option (DirectiveOutcome × Reason) :=
  let p := planEntry s.plans plan
  if s.denied.contains member then some (.conditionFalse, .cardDenied)
  else if p.admitted = false then some (.conditionFalse, .planClosed)
  else if p.hireLimit ≤ s.memberHires member then some (.conditionFalse, .hireLimit)
  else if s.hirePlace = false then some (.tableFull, .hireTableFull)
  else if s.journalRoom = false then some (.conditionFalse, .journalFull)
  else none

/-- REMOTE_RELEASE within its ranges (R175, R176). -/
def runRemoteRelease (d member plan : Nat) (s : State) : State × DirectiveAnswer :=
  match s.now with
  | none => (s, answerPlain .conditionFalse (some .clockUnset))
  | some t =>
    match s.remoteRefusal d with
    | some (o, r) => (s, answerPlain o (some r))
    | none =>
      match s.remoteChecks member plan with
      | some (o, r) => (s, answerPlain o (some r))
      | none =>
        (s.admitRelease d (.remote member) none plan s.releaseCredit t false,
          answerDone (.remoteRelease d (((s.dock d).bike.map (fun b => b.id)).getD 0) s.nextRef))

/-- REMOTE_RELEASE (R172, R175). -/
def doRemoteRelease (args : List Byte) (s : State) : State × DirectiveAnswer :=
  match argument args 0 1 1 64 with
  | none => (s, answerRange .dock)
  | some d =>
    match argument args 1 4 1 99999999 with
    | none => (s, answerRange .member)
    | some member =>
      match argument args 5 1 0 14 with
      | none => (s, answerRange .planCode)
      | some plan => runRemoteRelease d member plan s

/-! ### The deny list (R177) -/

/-- Place an id in ascending order. -/
def insertId (id : Nat) : List Nat → List Nat
  | [] => [id]
  | x :: xs => if id < x then id :: x :: xs else x :: insertId id xs

/-- DENY_ADD within its range (R177). DESIGN CHOICE (log 24): every DONE carries the number of ids held, changed or not, and
TABLE_FULL carries no result field. -/
def runDenyAdd (member : Nat) (s : State) : State × DirectiveAnswer :=
  if s.denied.contains member then (s, answerDone (.deny false s.denied.length))
  else if Config.denyPlaces ≤ s.denied.length then (s, answerPlain .tableFull none)
  else
    let ids := insertId member s.denied
    (s.putDenied ids, answerDone (.deny true ids.length))

/-- DENY_REMOVE within its range (R177). DESIGN CHOICE (log 24): NOT_FOUND carries no result field. -/
def runDenyRemove (member : Nat) (s : State) : State × DirectiveAnswer :=
  if s.denied.contains member then
    let ids := s.denied.filter (fun x => x != member)
    (s.putDenied ids, answerDone (.deny true ids.length))
  else (s, answerPlain .notFound none)

/-- DENY_ADD (R172, R177). -/
def doDenyAdd (args : List Byte) (s : State) : State × DirectiveAnswer :=
  match argument args 0 4 1 99999999 with
  | none => (s, answerRange .member)
  | some member => runDenyAdd member s

/-- DENY_REMOVE (R172, R177). -/
def doDenyRemove (args : List Byte) (s : State) : State × DirectiveAnswer :=
  match argument args 0 4 1 99999999 with
  | none => (s, answerRange .member)
  | some member => runDenyRemove member s

/-! ### Hires and passes (R178, R179) -/

/-- HIRE_CLOSED of an entry held: it is removed, and a pass's ride is ended as a PASS_CHARGE of amount 0 (R178). DESIGN CHOICE
(log 24): where the slot no longer holds the pass of that serial, the state after is FREE. -/
def closeHeldHire (h : OpenHire) (s : State) : State × DirectiveAnswer :=
  match h.hirer with
  | .pass slot serial =>
    match s.chargeRide slot serial h.ref 0 with
    | some (s', _, _, after) => (s', answerDone (.hireClosed h (some after)))
    | none =>
      (s.removeHire h.ref,
        answerDone (.hireClosed h (((s.pass slot).filter (fun p => p.serial == serial)).map (fun p => p.state))))
  | _ => (s.removeHire h.ref, answerDone (.hireClosed h none))

/-- HIRE_CLOSED (R172, R178). -/
def doHireClosed (args : List Byte) (s : State) : State × DirectiveAnswer :=
  match argument args 0 2 1 4095 with
  | none => (s, answerRange .hireStation)
  | some station =>
    match argument args 2 4 1 16777215 with
    | none => (s, answerRange .hireCount)
    | some count =>
      match s.hireOf { station := station, count := count } with
      | none => (s, answerPlain .notFound none)
      | some h => closeHeldHire h s

/-- PASS_CHARGE within its ranges (R71, R179). -/
def runPassCharge (slot serial : Nat) (ref : HireRef) (amount : Nat) (s : State) : State × DirectiveAnswer :=
  match s.chargeRide slot serial ref amount with
  | some (s', charge, short, after) => (s', answerDone (.passCharge charge short after))
  | none =>
    (s, { outcome := .conditionFalse, reason := some .passState
          result := .passStateFound ((s.pass slot).map (fun p => p.state)) })

/-- PASS_CHARGE (R172, R179). -/
def doPassCharge (args : List Byte) (s : State) : State × DirectiveAnswer :=
  match argument args 0 1 1 32 with
  | none => (s, answerRange .slot)
  | some slot =>
    match argument args 1 2 1 65535 with
    | none => (s, answerRange .serial)
    | some serial =>
      match argument args 3 2 1 4095 with
      | none => (s, answerRange .hireStation)
      | some station =>
        match argument args 5 4 1 16777215 with
        | none => (s, answerRange .hireCount)
        | some count =>
          match argument args 9 2 0 65535 with
          | none => (s, answerRange .amount)
          | some amount => runPassCharge slot serial { station := station, count := count } amount s

/-! ### FAULT_SUMMARY and CENSUS (R180) -/

/-- FAULT_SUMMARY (R128, R180). -/
def doFaultSummary (s : State) : State × DirectiveAnswer :=
  (s.clearAttention, answerDone (.summary s.summaryItems s.attention))

/-- The item of a configured dock in a DOCK_CENSUS (R180). -/
def State.censusItem (s : State) (d : Nat) : CensusItem :=
  let x := s.dock d
  { dock := d, state := x.state, lock := x.lock, counter := x.counter, reservation := x.reservation
    bike := x.bike.map Bike.item }

/-- The body of a DOCK_CENSUS from the dock table as it stands (R180, R197). -/
def State.censusBody (s : State) (reason : CensusReason) : CensusBody :=
  { reason := reason, stock := s.stock, available := s.available
    items := (dockNumbers.filter (fun d => (s.dock d).configured)).map s.censusItem }

/-- Whether a waiting record is a DOCK_CENSUS that a directive made (R180). -/
def SixthRecord.directiveCensus : SixthRecord → Bool
  | .dockCensus b => (match b.reason with | .directive _ => true | .startup => false)
  | .start _ => false
  | .clockStep _ _ => false
  | .tariffApplied => false

/-- CENSUS (R180): the record is posted, or waits in the sixth place in place of one that waits already. -/
def doCensus (id : Nat) (s : State) : State × DirectiveAnswer :=
  let body := s.censusBody (.directive id)
  let replaced := s.sixthWaits && s.sixth.any SixthRecord.directiveCensus
  let s1 : State :=
    if replaced then { s with sixth := s.sixth.filter (fun r => !r.directiveCensus) } else s
  let s2 : State :=
    if s.sixthWaits then { s1 with sixth := s1.sixth ++ [.dockCensus body] } else s1.postSixth (.dockCensus body)
  (s2, answerDone (.census body.items.length (!s.sixthWaits) replaced))

/-! ### Execution at the head (R171, R172) -/

/-- The checks and effect of a directive, by its kind (R172). -/
def runDirective (x : Directive) (s : State) : State × DirectiveAnswer :=
  match x.kind with
  | 1 => doBikeSet x.args s
  | 2 => doDockClear x.args s
  | 3 => doRemoteRelease x.args s
  | 4 => doDenyAdd x.args s
  | 5 => doDenyRemove x.args s
  | 6 => doHireClosed x.args s
  | 7 => doPassCharge x.args s
  | 8 => doFaultSummary s
  | 9 => doCensus x.id s
  | _ => (s, answerRange .kind)

/-- Post the DIRECTIVE_REPLY of an execution into the slot held for it, and take the directive off the queue (R171). -/
def State.replyDirective (s : State) (x : Directive) (a : DirectiveAnswer) : State :=
  let s1 := ({ s with replySlot := 0 } : State).post (.directiveReply x.id x.kind x.arrival a.outcome a.reason a.result)
  { s1 with directives := s1.directives.tail }

/-- Execute the directive at the head, its reply slot held meanwhile (R171). -/
def State.executeHead (s : State) : State :=
  match s.directives with
  | [] => s
  | x :: _ =>
    let ran := runDirective x { s with replySlot := 1 }
    ran.1.replyDirective x ran.2

end Sys2Proof.Machine
end

