-- ==== Sys2Proof/Machine/Arbiter.lean ====
section
/-! DEFINITION. The room arbiter, which offers a freed journal slot to the waiting producers in their order, and the requests
that bring it into action: acknowledgements and DIRECTIVE (R160, R163, R170). -/

namespace Sys2Proof.Machine

/-- The six places of the room arbiter (R160). -/
inductive Place
  | settle | passes | van | faults | directives | sixth
deriving DecidableEq, Repr

/-- The first place that holds a waiting record (R160). -/
def State.firstPlace (s : State) : Option Place :=
  if s.entries.any SettleEntry.isWaiting then some .settle
  else if s.lowestSettling.isSome then some .passes
  else if s.van.moves ≠ [] ∨ s.van.summary.isSome then some .van
  else if s.faults ≠ [] then some .faults
  else if s.directives ≠ [] then some .directives
  else if s.sixth ≠ [] then some .sixth
  else none

/-- Serve one record of a place. -/
def State.serve (s : State) : Place → State
  | .settle => s.serveClose
  | .passes =>
    match s.lowestSettling with
    | some slot => s.settlePass slot
    | none => s
  | .van => s.serveVan
  | .faults => s.serveFault
  | .directives => s.executeHead
  | .sixth => s.serveSixth

/-- While a slot is free and a producer waits, the first place is served (R160). Each service takes a slot, so at most 256
follow one another. -/
def State.drainFor (s : State) : Nat → State
  | 0 => s
  | fuel + 1 =>
    if s.free = 0 then s
    else
      match s.firstPlace with
      | some p => (s.serve p).drainFor fuel
      | none => s

/-- The room arbiter at work (R160). -/
def State.drain (s : State) : State := s.drainFor Config.journalSlots

/-- Return a slot set aside, which brings the room arbiter into action (R159). -/
def State.giveBack (s : State) : State := s.returnSlot.drain

/-- One service that the room arbiter owes to a place, where that place is the first to wait and a slot is free. -/
def State.serveIfNext (s : State) (p : Place) : State :=
  if 0 < s.free ∧ s.firstPlace = some p then s.serve p else s

/-- JOURNAL_ACK ACCEPTED or FATAL at the journal: the record goes, and the slot is offered to the waiting producers (R160,
R163). -/
def ownRemove (fatal : Bool) (epoch sequence : Nat) (s : State) : State × Reply :=
  match s.sentRecord epoch sequence with
  | none => (s, .plain .notFound)
  | some r =>
    let s1 := s.removeRecord epoch sequence
    let s2 : State := if fatal then { s1 with fatal := countUp s1.fatal } else s1
    (s2.drain,
      { status := .ok, result := .disposition .removed (if fatal then some (bodyKind r.body) else none) })

/-- JOURNAL_ACK at the journal (R163): 1 for ACCEPTED, 2 for FATAL, 3 for RETRY. -/
def ownJournalAck (epoch sequence result : Nat) (s : State) : State × Reply :=
  match result with
  | 1 => ownRemove false epoch sequence s
  | 2 => ownRemove true epoch sequence s
  | 3 => ownRetry epoch sequence s
  | _ => (s, .range .result)

/-- DIRECTIVE at directives: it joins the queue, and executes at once where it reaches the head and a slot is free (R170,
R171). -/
def ownDirective (id kind : Nat) (args : List Byte) (s : State) : State × Reply :=
  if s.directives.any (fun x => x.id == id) then (s, .plain .duplicate)
  else if Config.directivePlaces ≤ s.directives.length then (s, .plain .full)
  else
    (({ s with directives := s.directives ++ [{ id := id, kind := kind, args := args, arrival := s.now }] } : State).drain,
      { status := .queued, result := .ahead s.directives.length })

end Sys2Proof.Machine
end

