-- ==== Sys2Proof/Machine/Custody.lean ====
section
/-! DEFINITION. The Custody Unit: what each dock report does to a dock, its release and its bike (chapter 2). -/

namespace Sys2Proof.Machine

/-- Change dock `d` by a function. -/
def State.editDock (s : State) (d : Nat) (f : Dock → Dock) : State := s.putDock d (f (s.dock d))

/-! ### The end of a release other than by removal (R25, R26, R28, R34, R36, R53) -/

/-- The context of a release that has ended is discarded, and the dock takes a state. -/
def State.discardRelease (s : State) (d : Nat) (x : DockState) : State :=
  s.editDock d (fun k => { k with state := x, release := none, windowAt := none })

/-- The state an origin stands for. -/
def Origin.dockState : Origin → DockState
  | .occupied => .occupied
  | .lockedOut => .lockedOut

/-- SHOW REFUSED where the release came from the dock. A REMOTE release never does, and a VAN release that fails is not shown
(R24). -/
def State.showRefusal (s : State) (d : Nat) (r : Release) : State :=
  match r.party with
  | .van _ _ => s
  | .hire _ _ _ _ => if r.fromDock then s.showRefused d else s

/-- A VAN release that ended is reported to van as a lapse (R142). -/
def State.tellVan (s : State) (d : Nat) (r : Release) : State :=
  match r.party with
  | .van _ _ => s.vanLapse d
  | .hire _ _ _ _ => s

/-- TAG_CLEAR for the kinds with a trip image (R26, R28). -/
def State.clearTag (s : State) (d : Nat) (r : Release) : State :=
  match r.party with
  | .van _ _ => s
  | .hire _ _ _ _ => s.issue d (.tagClear .afterRelease)

/-- A lockout that was ordered during the release is applied at its end (R40). -/
def State.applyPending (s : State) (d : Nat) : State := if (s.dock d).lockoutPending then s.applyLockout d else s

/-- What a hire release leaves: a held pass expiry is taken, and the slot set aside goes back to the journal, where the room
arbiter offers it (R53, R67, R159). -/
def State.giveUp (s : State) (r : Release) : State :=
  match r.party with
  | .van _ _ => s
  | .hire (.pass slot serial) _ _ _ => (s.takeHeldExpiry slot serial r.expiryHeld).giveBack
  | .hire (.member _) _ _ _ => s.giveBack
  | .hire (.crew _) _ _ _ => s.giveBack
  | .hire (.remote _) _ _ _ => s.giveBack

/-- The tag command of a release failed: it is refused TAG_WRITE_FAIL (R25). A lockout that waits is applied with LOCK issued
once (R40). -/
def State.failTag (s : State) (d : Nat) (r : Release) : State :=
  let s1 := (s.discardRelease d r.origin.dockState).showRefusal d r
  let s2 := (s1.tellVan d r).reportTag d
  let s3 := if (s2.dock d).lockoutPending then (s2.issue d .lock).applyLockout d else s2
  s3.giveUp r

/-- The unlock of a release failed: it is refused DOCK_FAULT (R26). -/
def State.failUnlock (s : State) (d : Nat) (r : Release) (kind : DockFault) (cause : DockCause) : State :=
  let s1 := s.countFault d kind cause
  let s2 := s1.discardRelease d (match r.origin with | .occupied => .relocking | .lockedOut => .lockedOut)
  let s3 := ((s2.showRefusal d r).clearTag d r).issue d .lock
  ((s3.tellVan d r).applyPending d).giveUp r

/-- The release lapses as its window runs out (R28). -/
def State.lapse (s : State) (d : Nat) (r : Release) : State :=
  let s1 := s.discardRelease d (match r.origin with | .occupied => .relocking | .lockedOut => .lockedOut)
  ((((s1.clearTag d r).issue d .lock).tellVan d r).applyPending d).giveUp r

/-- The lock closed before the bike was taken: the release lapses without a LOCK (R28). -/
def State.lapseLocked (s : State) (d : Nat) (r : Release) : State :=
  let s1 := s.discardRelease d r.origin.dockState
  (((s1.clearTag d r).tellVan d r).applyPending d).giveUp r

/-! ### Removals (R26, R27, R34) -/

/-- Discard the bike record of a dock; settle first finalises the entry of a settling bike (R18). -/
def State.discardBike (s : State) (d : Nat) (reason : EarlyReason) : State :=
  (s.settleDock d reason).editDock d (fun x => { x with bike := none })

/-- The removal of a bike under its release: the hire opens, or the van's move is counted (R27). DESIGN CHOICE (log 24): a
crew release of a bike recorded with id 0 (R122) opens its hire with bike id 0, outside the range of R49. -/
def State.removal (s : State) (d : Nat) (r : Release) : State :=
  let bike := ((s.dock d).bike.map (fun b => b.id)).getD 0
  let s1 := (s.discardBike d .removal).discardRelease d
    (match r.origin with | .occupied => .empty | .lockedOut => .lockedOut)
  let s2 :=
    match r.party with
    | .hire hirer issue _ image => s1.openHire hirer issue image r.credit d bike
    | .van _ entry => s1.vanRemoval entry d bike
  s2.applyPending d

/-- The COLLECT reservation of a dock whose bike left without a release is lost (R146). -/
def State.loseCollect (s : State) (d : Nat) : State :=
  match (s.dock d).reservation with
  | .collect _ => s.loseReservation d
  | .deliver _ => s
  | .unreserved => s

/-- An unreleased removal (R34). -/
def State.unreleasedRemoval (s : State) (d : Nat) (reason : EarlyReason) : State :=
  let x := s.dock d
  let s1 := ((s.discardBike d reason).discardRelease d (if x.lockedAlready then .lockedOut else .empty)).editDock d
    (fun k => { k with relockAt := none })
  let s2 :=
    match x.release with
    | some r => ((s1.showRefusal d r).tellVan d r).applyPending d
    | none => s1
  let s3 := (s2.countFault d .sensor .unreleasedRemoval).loseCollect d
  match x.release with
  | some r => s3.giveUp r
  | none => s3

/-- A REMOVED event by the dock state (R26, R27, R34). -/
def State.onRemoved (s : State) (d : Nat) (reason : EarlyReason) : State :=
  let x := s.dock d
  match x.state with
  | .unlocking => match x.release with | some r => s.removal d r | none => s
  | .releaseOpen => match x.release with | some r => s.removal d r | none => s
  | .occupied => s.unreleasedRemoval d reason
  | .tagWriting => s.unreleasedRemoval d reason
  | .relocking => s.unreleasedRemoval d reason
  | .lockedOut => if x.bike.isSome then s.unreleasedRemoval d reason else s
  | .empty => s
  | .offline => s

/-! ### Arrivals and returns (R30 to R33) -/

/-- Where an arrival finds the dock: EMPTY (R30), holding another bike (R33), LOCKED_OUT without one (R33), or at a census
(R37). -/
inductive Found
  | empty | replaced | vacant | census
deriving DecidableEq, Repr

/-- A new bike record in a dock. But for a census, the lock state decides the dock state (R30): OCCUPIED, or RELOCKING with
LOCK to be issued; a LOCKED_OUT dock stays so (R33). -/
def State.dockBike (s : State) (d id : Nat) (found : Found) : State :=
  s.editDock d (fun x =>
    { x with
      bike := some (Bike.arrived id s.now)
      state :=
        if found ≠ .census ∧ x.state ≠ .lockedOut then (if x.lock = .locked then .occupied else .relocking) else x.state })

/-- LOCK for an arrival that finds the lock open or unknown (R30). A LOCKED_OUT dock gets it for a bike that takes the place
of another one, and none where it held no bike (R33). -/
def State.lockArrival (s : State) (d : Nat) (found : Found) : State :=
  let x := s.dock d
  if found ≠ .census ∧
      (x.state = .relocking ∨ (found = .replaced ∧ x.state = .lockedOut ∧ x.lock ≠ .locked)) then s.issue d .lock
  else s

/-- A return at a dock whose bike has been recorded (R31): the ride's entry is struck off, fare prices it, and settle opens
its entry. `eligible` was decided on the stock before the bike. -/
def State.takeReturn (s : State) (d : Nat) (image : TripImage) (eligible startup : Bool) : State :=
  let close := priceReturn s.tariffs s.plans s.settings.returnCredit image d s.now eligible startup
  (((s.markSettling d true).closeHire image.ref).openEntry close image.bikeId d).disturbDeliver d

/-- An arrival at a dock that holds no bike record (R30 to R32). `startup` says that a census
found the bike with the clock UNSET. DESIGN CHOICE (log 16): an IDLE bike counts as a delivery at an unreserved dock only
where the dock was EMPTY, so one that replaces another bike does not (R33, R143). -/
def State.arrive (s : State) (d : Nat) (image : Option TagImage) (found : Found) (startup : Bool) : State :=
  let eligible := decide (s.stock < s.settings.lowMark)
  match image with
  | none => (((s.dockBike d 0 found).lockArrival d found).reportTag d).disturbDeliver d
  | some (.idle id) =>
    if s.bikeElsewhere d id then
      (((s.dockBike d 0 found).lockArrival d found).reportConflict d id none).disturbDeliver d
    else ((s.dockBike d id found).lockArrival d found).vanArrival d id (found == .empty)
  | some (.onHire i) =>
    if s.bikeElsewhere d i.bikeId then
      (((s.dockBike d 0 found).lockArrival d found).reportConflict d i.bikeId (some i.ref)).disturbDeliver d
    else
      (((s.dockBike d i.bikeId found).issue d (.tagClear .atReturn)).lockArrival d found).takeReturn d i eligible startup

/-- The bike id of a readable image. -/
def TagImage.bike : TagImage → Nat
  | .idle id => id
  | .onHire i => i.bikeId

/-- Whether an image is readable and carries the id of a record. -/
def sameBike (image : Option TagImage) (b : Bike) : Bool := image.any (fun i => i.bike == b.id)

/-- A different bike, or an unreadable tag, in place of the bike recorded (R33). -/
def State.replaceBike (s : State) (d : Nat) (image : Option TagImage) : State :=
  (s.discardBike d .replaced).arrive d image .replaced false

/-- A PRESENT event by the dock state (R30, R33). -/
def State.onPresent (s : State) (d : Nat) (image : Option TagImage) : State :=
  let x := s.dock d
  match x.state with
  | .empty => s.arrive d image .empty false
  | .occupied =>
    match x.bike with
    | some b => if sameBike image b then s else s.replaceBike d image
    | none => s.arrive d image .replaced false
  | .lockedOut =>
    match x.bike with
    | some b => if sameBike image b then s else s.replaceBike d image
    | none => s.arrive d image .vacant false
  | .tagWriting => s
  | .unlocking => s
  | .releaseOpen => s
  | .relocking => s
  | .offline => s

/-! ### Lock events (R19, R26, R28, R29, R35) -/

/-- An UNLOCKED event (R19, R26, R35). -/
def State.onUnlocked (s : State) (d : Nat) : State :=
  let s1 := s.editDock d (fun x => { x with lock := .unlocked })
  match (s.dock d).state with
  | .occupied => (s1.editDock d (fun x => { x with state := .relocking })).issue d .lock
  | .unlocking =>
    s1.editDock d (fun x =>
      { x with state := .releaseOpen, windowAt := some (s.elapsed + s.settings.releaseWindow * 1000) })
  | _ => s1

/-- A LOCKED event (R19, R28, R29). -/
def State.onLocked (s : State) (d : Nat) : State :=
  let s1 := s.editDock d (fun x => { x with lock := .locked })
  match (s.dock d).state with
  | .releaseOpen => match (s.dock d).release with | some r => s1.lapseLocked d r | none => s1
  | .relocking => s1.editDock d (fun x => { x with state := .occupied, counter := 0, relockAt := none })
  | _ => s1

/-- A LOCK that failed in RELOCKING: counted, and tried again unless the dock is locked out (R29). -/
def State.failLock (s : State) (d : Nat) (kind : DockFault) (cause : DockCause) : State :=
  let s1 := s.countFault d kind cause
  if (s1.dock d).state = .relocking then
    s1.editDock d (fun x => { x with relockAt := some (s.elapsed + Config.relockDelay) })
  else s1

/-- The dock fault of a LOCK_FAIL (R114). -/
def lockFault : LockFailKind → DockFault
  | .jam => .lockJam
  | .sensor => .sensor

/-- A LOCK_FAIL event by the dock state (R26, R29, R35). `ended` says that a current lock command ends by it: in RELOCKING the
retry is then 3 s ahead, and outside a lock command a retry that runs goes on. -/
def State.onLockFail (s : State) (d : Nat) (kind : LockFailKind) (ended : Bool) : State :=
  let x := s.dock d
  match x.state with
  | .unlocking =>
    match x.release with
    | some r => s.failUnlock d r (lockFault kind) .lockFail
    | none => s.countFault d (lockFault kind) .lockFail
  | .relocking =>
    if x.relockAt.isSome ∧ ended = false then s.countFault d (lockFault kind) .lockFail else s.failLock d (lockFault kind) .lockFail
  | _ => s.countFault d (lockFault kind) .lockFail

/-! ### Attempts and reports (R24, R35) -/

/-- The answer to an attempt: a refusal is shown at the dock (R24). -/
def State.answerAttempt (d : Nat) (a : State × Option Reason) : State :=
  match a.2 with
  | some _ => a.1.showRefused d
  | none => a.1

/-- A TAP event (R24). -/
def State.onTap (s : State) (d : Nat) (card : Option CardImage) : State :=
  match card with
  | none => (s.reportTap d false).showRefused d
  | some c => State.answerAttempt d ((s.reportTap d true).cardAttempt d c)

/-- A KEYPAD event (R24). -/
def State.onKeypad (s : State) (d code : Nat) : State := State.answerAttempt d (s.keypadAttempt d code)

/-- The reporter custody gives with a FAULT_KEY (R35, R118). -/
def State.keyReporter (s : State) (b : Bike) : Reporter :=
  if b.settling then ((s.heldHirer b.id).map Hirer.reporter).getD .anonymous else .anonymous

/-- A FAULT_KEY event (R35, R118, R121). -/
def State.onFaultKey (s : State) (d : Nat) (k : BikeFault) : State :=
  match (s.dock d).bike with
  | some b => (s.reportBike d b k .rider (s.keyReporter b)).1.waiveForKey b.id d k (s.keyReporter b)
  | none => s.reportAbsent (some d) none k .rider .anonymous

/-- A POWER_LOW report (R35, R125). -/
def State.onPowerLow (s : State) (d : Nat) : State := s.noteFault d .power .powerLow

/-! ### Command results (R15, R25, R26, R29, R31, R35) -/

/-- The release of a dock in TAG_WRITING whose tag command this is. -/
def Dock.awaits (x : Dock) (c : Command) : Option Release :=
  if x.state = .tagWriting then
    x.release.filter (fun r =>
      match r.party, c with
      | .hire _ _ _ image, .tagWrite i => image == i
      | .van _ _, .tagClear .vanRelease => true
      | _, _ => false)
  else none

/-- The outcome of a release's tag command; an abandoned or superseded one changes nothing (R25). -/
def State.tagResult (s : State) (d : Nat) (r : Release) (x : CommandResult) : State :=
  match x with
  | .confirmed => (s.editDock d (fun k => { k with state := .unlocking })).issue d .unlock
  | .nodeFailed => s.failTag d r
  | .notTaken => s.failTag d r
  | .timedOut => s.failTag d r
  | .abandoned _ => s
  | .superseded => s

/-- An UNLOCK that timed out, or was not taken (R26). -/
def State.unlockTimedOut (s : State) (d : Nat) : State :=
  let x := s.dock d
  match x.state, x.release with
  | .unlocking, some r => s.failUnlock d r .lockJam .unlockTimeout
  | _, _ => s.countFault d .lockJam .unlockTimeout

/-- A LOCK that timed out, or was not taken (R29). -/
def State.lockTimedOut (s : State) (d : Nat) : State :=
  if (s.dock d).state = .relocking then s.failLock d .lockJam .lockTimeout else s.countFault d .lockJam .lockTimeout

/-- The result of a command that ran at its node. DESIGN CHOICE (log 16): the TAG fault of a return's TAG_CLEAR that ended
FAILED (R31, R122) is reported on the bike that is then in the dock, and on none where the dock holds no bike. -/
def State.onEnded (s : State) (d : Nat) (c : Command) (x : CommandResult) : State :=
  match c with
  | .unlock => match x with | .timedOut => s.unlockTimedOut d | .notTaken => s.unlockTimedOut d | _ => s
  | .lock => match x with | .timedOut => s.lockTimedOut d | .notTaken => s.lockTimedOut d | _ => s
  | .tagWrite i => match (s.dock d).awaits (.tagWrite i) with | some r => s.tagResult d r x | none => s
  | .tagClear p =>
    match (s.dock d).awaits (.tagClear p) with
    | some r => s.tagResult d r x
    | none => if p = .atReturn ∧ x ≠ .confirmed then s.reportTag d else s
  | .show _ => if x = .confirmed then s else s.reissueShow d

/-- A COMMAND_RESULT at custody (R15): ABANDONED and SUPERSEDED change nothing (R25, R35). -/
def State.onResult (s : State) (d : Nat) (c : Command) (x : CommandResult) : State :=
  match x with
  | .abandoned cause => s.onDropped d c (.abandoned cause)
  | .superseded => s.onDropped d c .superseded
  | .confirmed => s.onEnded d c .confirmed
  | .nodeFailed => s.onEnded d c .nodeFailed
  | .notTaken => s.onEnded d c .notTaken
  | .timedOut => s.onEnded d c .timedOut

/-! ### Silence, reset and census (R36 to R38) -/

/-- A SILENCE or RESET report takes the dock OFFLINE (R36). -/
def State.takeOffline (s : State) (d : Nat) (silence : Bool) : State :=
  let x := s.dock d
  let s1 := (s.discardRelease d .offline).editDock d (fun k =>
    { k with relockAt := none, lockoutPending := false, shown := none })
  let s2 := (match x.release with | some r => s1.tellVan d r | none => s1).loseReservation d
  let s3 := (if silence then s2.reportSilence d else s2).startOffline d
  match x.release with
  | some r => s3.giveUp r
  | none => s3

/-- The lock state a census carries. -/
def lockOf : LockPosition → LockState
  | .locked => .locked
  | .unlocked => .unlocked

/-- A census compared with the bike record held (R37): `present` holds the image of a bike present. -/
def State.matchCensus (s : State) (d : Nat) (present : Option (Option TagImage)) : State :=
  match present, (s.dock d).bike with
  | none, none => s
  | none, some _ => s.discardBike d .census
  | some none, none => s.arrive d none .census s.now.isNone
  | some none, some _ => s.reportTag d
  | some (some i), some b =>
    if i.bike = b.id then
      match i with
      | .onHire _ => s.issue d (.tagClear .afterRelease)
      | .idle _ => s
    else (s.discardBike d .census).arrive d (some i) .census s.now.isNone
  | some (some i), none => s.arrive d (some i) .census s.now.isNone

/-- The dock state a census leaves (R37). -/
def State.censusState (s : State) (d : Nat) : DockState :=
  let x := s.dock d
  if 0 < s.settings.dockFaultLimit ∧ s.settings.dockFaultLimit ≤ x.counter then .lockedOut
  else if x.bike.isNone then .empty
  else if x.lock = .unlocked then .relocking
  else .occupied

/-- A census that reconciles the dock entry (R37): faults hears of it, which ends the offline timer and the run of unreadable
taps (R125, R127). -/
def State.reconcile (s : State) (d : Nat) (lock : LockPosition) (present : Option (Option TagImage)) : State :=
  let s0 := if (s.dock d).state = .offline then s else s.takeOffline d false
  let s1 := (s0.editDock d (fun x => { x with lock := lockOf lock })).matchCensus d present
  let s2 := if (s1.dock d).bike.isSome ∧ lock = .unlocked then s1.issue d .lock else s1
  let s3 := s2.editDock d (fun x => { x with state := s2.censusState d, shown := none })
  let s4 := if (s3.dock d).state = .lockedOut then s3.censusLockout d else s3
  (s4.cancelOffline d).putRun d 0

/-- The presence and identity differences of an OVERFLOW census, as the events that were lost (R38). DESIGN CHOICE (log 16): a
bike with an IDLE tag found at a DELIVER dock is a delivery, as a PRESENT would make it (R38, R143), though R145 lists a bike
found so among the arrivals that are none. -/
def State.overflowPresence (s : State) (d : Nat) (present : Option (Option TagImage)) : State :=
  match present, (s.dock d).bike with
  | none, none => s
  | none, some _ => s.onRemoved d .census
  | some i, none => s.onPresent d i
  | some none, some _ => s
  | some (some i), some b => if i.bike = b.id then s else (s.onRemoved d .census).onPresent d (some i)

/-- The lock difference of an OVERFLOW census (R38). -/
def State.overflowLock (s : State) (d : Nat) (lock : LockPosition) : State :=
  if (s.dock d).lock = lockOf lock then s
  else
    match lock with
    | .locked => s.onLocked d
    | .unlocked => s.onUnlocked d

/-- An OVERFLOW census of a node in service (R38); SHOW follows it as it follows every census (R22). -/
def State.overflow (s : State) (d : Nat) (lock : LockPosition) (present : Option (Option TagImage)) : State :=
  ((s.overflowPresence d present).overflowLock d lock).editDock d (fun x => { x with shown := none })

/-! ### Timers (R28, R29) -/

/-- The release window of a dock, where the elapsed base has reached its end (R28). -/
def State.windowDue (s : State) (d : Nat) : State :=
  let x := s.dock d
  match x.state, x.release, x.windowAt with
  | .releaseOpen, some r, some t => if t ≤ s.elapsed then s.lapse d r else s
  | _, _, _ => s

/-- The relock retry deadline of a dock, where the elapsed base has reached it (R29). -/
def State.relockDue (s : State) (d : Nat) : State :=
  let x := s.dock d
  match x.state, x.relockAt with
  | .relocking, some t =>
    if t ≤ s.elapsed then (s.editDock d (fun k => { k with relockAt := none })).issue d .lock else s
  | _, _ => s

/-! ### DOCK_GET and DOCK_LIST (R44) -/

/-- The entry DOCK_GET reads. -/
def State.dockReport (s : State) (d : Nat) : DockReport :=
  let x := s.dock d
  { dock := d, configured := x.configured, state := x.state, lock := x.lock, counter := x.counter
    reservation := x.reservation, release := x.release.map (fun r => (r.party, r.origin)), bike := x.bike }

/-- DOCK_GET at custody. -/
def ownDockGet (d : Nat) (s : State) : State × Reply :=
  if d < 1 ∨ 64 < d then (s, .range .dock) else (s, { status := .ok, result := .dock (s.dockReport d) })

/-- DOCK_LIST at custody. -/
def ownDockList (s : State) : State × Reply :=
  (s, { status := .ok
        result := .docks s.stock s.available (s.docks.map (fun x =>
          { state := x.state, bikeId := x.bike.map (fun b => b.id), condition := x.bike.map (fun b => b.condition)
            reservation := x.reservation })) })

end Sys2Proof.Machine
end

