-- ==== Sys2Proof/Machine/Line.lean ====
section
/-! DEFINITION. The Dock Line Controller: polls, replies, silences, confirmation timeouts, the census-complete report and
STRING_RESET (chapter 1), with the end of the start-up census phase (R197). -/

namespace Sys2Proof.Machine

/-! ### Strings (R1) -/

/-- The place of a string in the list of strings, from 1. -/
def stringNumber : StringName → Nat
  | .a => 1
  | .b => 2
  | .c => 3
  | .d => 4

/-- The string a number names (R16, R200). -/
def stringOf : Nat → Option StringName
  | 1 => some .a
  | 2 => some .b
  | 3 => some .c
  | 4 => some .d
  | _ => none

/-- The base of string number `n`: 1, 17, 33 and 49 (R1). -/
def stringBase (n : Nat) : Nat := 16 * (n - 1) + 1

/-- The dock that node address `a` of string number `n` serves (R1). -/
def dockAt (n a : Nat) : Nat := stringBase n + a - 1

/-- The line of string number `n`. -/
def State.line (s : State) (n : Nat) : StringLine := (entryAt s.strings n).getD (.atStart 0)

/-- The state with the line of a string replaced. -/
def State.putLine (s : State) (n : Nat) (l : StringLine) : State := { s with strings := setEntry s.strings n l }

/-! ### Polls (R2, R3, R10) -/

/-- The confirmation deadline of a command first carried at `now` (R10 to R13). -/
def Command.deadline (c : Command) (now : Nat) : Option Nat :=
  match c with
  | .tagWrite _ => some (now + Config.tagWriteLimit)
  | .unlock => some (now + Config.unlockLimit)
  | .lock => some (now + Config.lockLimit)
  | .tagClear _ => none
  | .show _ => none

/-- The command that a poll of a node carries: its current command, unless it is acknowledged or the census mark is set (R3,
R10). -/
def Node.toCarry (n : Node) : Option CurrentCommand :=
  if n.phase = .answering then n.current.filter (fun c => !c.acknowledged) else none

/-- The current command once a poll at `now` has carried it. -/
def CurrentCommand.carry (c : CurrentCommand) (now : Nat) : CurrentCommand :=
  if c.carried then c else { c with carried := true, deadline := c.command.deadline now }

/-- The next poll of a string's round (R2, R3). -/
def State.poll (s : State) (n : Nat) : State :=
  let l := s.line n
  if l.count = 0 ∨ l.poll.isSome then s
  else
    let d := dockAt n l.next
    let x := s.node d
    let p : Poll :=
      { address := l.next, censusMark := x.phase != .answering, lastEvent := x.lastEvent
        command := x.toCarry.map (fun c => (c.number, c.command)), windowAt := s.elapsed + Config.replyWindow }
    let s1 := s.putLine n { l with next := if l.count ≤ l.next then 1 else l.next + 1, poll := some p, resetSent := false }
    match x.toCarry with
    | some c => s1.putNode d { x with current := some (c.carry s.elapsed) }
    | none => s1

/-- The poll in progress on a string ends (R2). -/
def State.endPoll (s : State) (n : Nat) : State := s.putLine n { s.line n with poll := none }

/-- The reply window has passed: a missed poll (R2). -/
def State.missPoll (s : State) (n : Nat) : State :=
  match (s.line n).poll with
  | some p => if p.windowAt ≤ s.elapsed then s.endPoll n else s
  | none => s

/-! ### The census-complete report and the end of the census phase (R8, R197) -/

/-- Whether every configured node has given its census since the start-up and since its string's last reset (R8). -/
def State.allCensused (s : State) : Bool := dockNumbers.all (fun d => !(s.dock d).configured || (s.node d).censused)

/-- Whether a configured dock is OFFLINE (R126, R197). -/
def State.someOffline (s : State) : Bool :=
  dockNumbers.any (fun d => (s.dock d).configured && (s.dock d).state == .offline)

/-- The end of the start-up census phase: the DOCK_CENSUS with cause STARTUP is made, and docks still OFFLINE set attention
(R197). -/
def State.endCensus (s : State) : State :=
  let s1 := ({ s with censusLimit := none } : State).makeSixth (.dockCensus (s.censusBody .startup))
  if s1.someOffline then s1.setAttention .offline else s1

/-- The DLC reports census complete, once for each start-up; it ends the census phase where that still runs (R8, R197). -/
def State.reportCensus (s : State) : State :=
  if s.censusReported ∨ s.allCensused = false then s
  else
    let s1 : State := { s with censusReported := true }
    if s1.censusRuns then s1.endCensus else s1

/-- The expiry of the start-up census limit, where the elapsed base has reached it (R197). -/
def State.censusLimitDue (s : State) : State :=
  match s.censusLimit with
  | some t => if t ≤ s.elapsed then s.endCensus else s
  | none => s

/-! ### A valid reply (R3 to R5, R8, R10 to R13) -/

/-- The power state of a reply: a change to LOW is reported (R5). -/
def State.takePower (s : State) (d : Nat) (p : PowerState) : State :=
  let s1 := s.putNode d { s.node d with power := p }
  if p = .low ∧ (s.node d).power = .normal then s1.onPowerLow d else s1

/-- The result that a reply's outcome gives an acknowledged command, where it ends by its outcome (R11, R12). -/
def outcomeResult (c : Command) (o : NodeOutcome) : Option CommandResult :=
  match c with
  | .show _ => some .confirmed
  | .tagWrite _ => match o with | .done => some .confirmed | .failed => some .nodeFailed | .working => none
  | .tagClear _ => match o with | .done => some .confirmed | .failed => some .nodeFailed | .working => none
  | .unlock => none
  | .lock => none

/-- What the command report of a reply makes of the current command: acknowledged, or one more reply that leaves it so, with
the result where it ends (R10 to R13). -/
def CurrentCommand.hear (c : CurrentCommand) (taken : Option Nat) (o : NodeOutcome) :
    CurrentCommand × Option CommandResult :=
  if taken = some c.number then ({ c with acknowledged := true }, outcomeResult c.command o)
  else if c.acknowledged then (c, none)
  else
    ({ c with unanswered := c.unanswered + 1 },
      if Config.takenLimit ≤ c.unanswered + 1 then some .notTaken else none)

/-- The command report of a reply (R3, R10): a command that ends leaves the list, and its result reaches custody (R14,
R15). -/
def State.takeCommand (s : State) (d : Nat) (taken : Option Nat) (o : NodeOutcome) : State :=
  match (s.node d).current with
  | none => s
  | some c =>
    let heard := c.hear taken o
    match heard.2 with
    | some r => (s.endCommand d).onResult d c.command r
    | none => s.putNode d { s.node d with current := some heard.1 }

/-- Whether the node's current command is acknowledged and is one that an event completes or fails (R13). -/
def Node.awaits (n : Node) (f : Command → Bool) : Bool := n.current.any (fun c => c.acknowledged && f c.command)

/-- End the current command where an event is its outcome (R13). -/
def State.endOn (s : State) (d : Nat) (f : Command → Bool) : State := if (s.node d).awaits f then s.endCommand d else s

/-- Six decimal digits as a code (R5). -/
def codeOf (digits : List Nat) : Option Nat :=
  if digits.length = 6 ∧ digits.all (fun x => x < 10) then some (digits.foldl (fun a x => a * 10 + x) 0) else none

/-- A CENSUS delivered to custody: the presence and the image after its check (R8). -/
def censusPresent (present : Bool) (image : Option (List Byte)) : Option (Option TagImage) :=
  if present then some (image.bind tagImage) else none

/-- The command list of a node ends ABANDONED: the COMMAND_RESULT of the current command reaches custody, and then those of the
waiting ones, in list order (R7, R8, R15, R16). -/
def State.abandonCommands (s : State) (d : Nat) (cause : AbandonCause) : State :=
  (s.node d).commands.foldl (fun t c => t.onResult d c (.abandoned cause)) (s.putNode d (s.node d).abandon)

/-- A new CENSUS event of an ANSWERING node (R8); its number has been recorded. -/
def State.takeCensus (s : State) (d : Nat) (lock : LockPosition) (present : Option (Option TagImage)) (cause : CensusCause) :
    State :=
  match cause with
  | .restart =>
    let s1 := s.abandonCommands d .nodeRestart
    ((s1.putNode d { s1.node d with counter := 1, power := .normal, censused := true }).reconcile d lock present).reportCensus
  | .demand =>
    ((s.putNode d { s.node d with power := .normal, censused := true }).reconcile d lock present).reportCensus
  | .overflow => (s.putNode d { s.node d with power := .normal }).overflow d lock present

/-- A new event of an ANSWERING node, checked and delivered (R5, R13). -/
def State.deliver (s : State) (d : Nat) (e : NodeEvent) : State :=
  match e with
  | .present image => s.onPresent d (image.bind tagImage)
  | .removed => s.onRemoved d .removal
  | .locked => (s.endOn d (fun c => c == .lock)).onLocked d
  | .unlocked => (s.endOn d (fun c => c == .unlock)).onUnlocked d
  | .lockFail kind =>
    let isLock := fun c : Command => c == .lock || c == .unlock
    (s.endOn d isLock).onLockFail d kind ((s.node d).awaits isLock)
  | .tap image => s.onTap d (image.bind cardImage)
  | .keypad digits =>
    match codeOf digits with
    | some code => s.onKeypad d code
    | none => s
  | .faultKey kind =>
    match bikeFaultOf kind with
    | some k => s.onFaultKey d k
    | none => s
  | .census lock present image cause => s.takeCensus d lock (censusPresent present image) cause

/-- The event of a reply from an ANSWERING node: a repeat is discarded, and a new one is recorded and delivered (R4). -/
def State.takeEvent (s : State) (d : Nat) (e : Option (Nat × NodeEvent)) : State :=
  match e with
  | none => s
  | some (number, event) =>
    if (s.node d).lastEvent = some number then s
    else (s.putNode d { s.node d with lastEvent := some number }).deliver d event

/-- A valid reply from an ANSWERING node: power, command report, event (R3, R7). -/
def State.hearAnswering (s : State) (d : Nat) (r : NodeReply) : State :=
  let s1 := s.putNode d { s.node d with silenceAt := s.elapsed + Config.silenceLimit }
  ((s1.takePower d r.power).takeCommand d r.taken r.outcome).takeEvent d r.event

/-- A valid reply from an ENUMERATING or SILENT node: only a CENSUS counts, and it brings the node to ANSWERING (R7, R8). -/
def State.hearSilent (s : State) (d : Nat) (r : NodeReply) : State :=
  match r.event with
  | some (number, .census lock present image _) =>
    let s1 := s.takePower d r.power
    ((s1.putNode d
      { s1.node d with
        phase := .answering, silenceAt := s.elapsed + Config.silenceLimit, counter := 1, lastEvent := some number
        power := .normal, censused := true }).reconcile d lock (censusPresent present image)).reportCensus
  | _ => s

/-- Whether a reply to a poll is valid (R3). -/
def Poll.accepts (p : Poll) (r : NodeReply) (now : Nat) : Bool := r.checkOk && r.address == p.address && now ≤ p.windowAt

/-- A reply on a string (R2, R3): a valid one ends the poll in progress. One that fails its checks is discarded, and so is one
with no poll in progress; the poll then goes on until its window has passed. DEDUCED (log 15): a valid reply of a node that is
not ANSWERING ends the poll also where it carries no CENSUS. DEDUCED (log 15): R3 gives a reply no identity of its poll, so the
late reply that R16 discards is told by no poll in progress, its address and the window alone, and one that comes within the
window of a new poll of the same address is taken as that poll's reply. -/
def State.hear (s : State) (n : Nat) (r : NodeReply) : State :=
  match (s.line n).poll with
  | none => s
  | some p =>
    let s1 := s.endPoll n
    let d := dockAt n p.address
    if p.accepts r s.elapsed then
      if (s.node d).phase = .answering then s1.hearAnswering d r else s1.hearSilent d r
    else s

/-! ### Timers (R7, R12, R13) -/

/-- The silence timer of a node, where the elapsed base has reached its end (R7). -/
def State.silenceDue (s : State) (d : Nat) : State :=
  let x := s.node d
  if (s.dock d).configured ∧ x.silenceAt ≤ s.elapsed then
    if x.phase = .silent then s.putNode d { x with silenceAt := s.elapsed + Config.silenceLimit }
    else
      let s1 := s.abandonCommands d .silence
      (s1.putNode d { s1.node d with phase := .silent, silenceAt := s.elapsed + Config.silenceLimit, lastEvent := none
                      }).takeOffline d true
  else s

/-- The confirmation deadline of the current command, where it is of a kind and the elapsed base has reached it (R12, R13):
the command ends TIMED_OUT. -/
def State.commandDue (s : State) (d : Nat) (f : Command → Bool) : State :=
  match (s.node d).current with
  | none => s
  | some c =>
    if f c.command ∧ c.deadline.any (fun t => t ≤ s.elapsed) then (s.endCommand d).onResult d c.command .timedOut else s

/-- Whether a command is a TAG_WRITE. -/
def Command.isTagWrite : Command → Bool
  | .tagWrite _ => true
  | .tagClear _ => false
  | .unlock => false
  | .lock => false
  | .show _ => false

/-! ### STRING_RESET (R16) -/

/-- The reset of one node: its commands end ABANDONED, the RESET report is delivered, and it is ENUMERATING afresh. -/
def State.resetNode (s : State) (d : Nat) : State :=
  let s1 := (s.abandonCommands d .stringReset).takeOffline d false
  s1.putNode d
    { s1.node d with
      phase := .enumerating, silenceAt := s.elapsed + Config.silenceLimit, lastEvent := none, counter := 1
      power := .normal, censused := false }

/-- The docks of a string's configured nodes, in address order. -/
def State.stringDocks (s : State) (n : Nat) : List Nat := (List.range (s.line n).count).map (fun a => dockAt n (a + 1))

/-- The reset of a string (R16): the poll in progress ends, the reset frame goes out, each node is reset in address order, and
a new round begins at address 1. -/
def State.resetString (s : State) (n : Nat) : State :=
  let s1 := s.putLine n { s.line n with poll := none, next := 1, resetSent := true }
  (s.stringDocks n).foldl State.resetNode s1

/-- STRING_RESET at the DLC (R16). -/
def ownStringReset (string : Nat) (s : State) : State × Reply :=
  match stringOf string with
  | some x => (s.resetString (stringNumber x), .plain .ok)
  | none => (s, .range .string)

end Sys2Proof.Machine
end

