-- ==== Sys2Proof/Machine/Store.lean ====
section
/-! DEFINITION. The Station Clock and the Retained Store: TIME_SET, the settings, the store check with its repairs, RESET, loss
of power and the start-up (chapter 12). -/

namespace Sys2Proof.Machine

/-! ### TIME_SET (R193) -/

/-- Whether setting `t` at scheme time `before` is a step. -/
def isStep (before : Option Nat) (t : Nat) : Bool :=
  before.any (fun b => b + Config.stepLimit < t || t + Config.stepLimit < b)

/-- The CLOCK_STEP record of a step is made. -/
def State.makeStep (s : State) (before : Option Nat) (t : Nat) : State :=
  match before with
  | some b => if isStep before t then s.makeSixth (.clockStep b t) else s
  | none => s

/-- A new scheme time is presented to the deadlines of the scheme-time column: the pass expiries, the 48-hour limit, the hire
age limit and a pending AT commit (R193). -/
def State.presentTime (s : State) : State :=
  (((slotNumbers.foldl State.takeExpiry s).examinePasses).examineHires).applyAt

/-- TIME_SET at the clock (R193). -/
def ownTimeSet (t : Nat) (s : State) : State × Reply :=
  if t < 1 ∨ Config.maxTime < t then (s, .range .time)
  else
    let s1 : State := { s with clock := .running t s.elapsed }
    ((s1.makeStep s.now t).presentTime, { status := .ok, result := .timeSet s.now t (isStep s.now t) })

/-! ### Settings (R195) -/

/-- The setting a number names, in table order (R195, R200). -/
def settingOf : Nat → Option SettingName
  | 1 => some .stationId | 2 => some .countA | 3 => some .countB | 4 => some .countC | 5 => some .countD
  | 6 => some .dayOffset | 7 => some .releaseWindow | 8 => some .settleWindow | 9 => some .dockFaultLimit
  | 10 => some .lowMark | 11 => some .highMark | 12 => some .releaseCredit | 13 => some .returnCredit
  | 14 => some .openReserve | 15 => some .minPassBalance | 16 => some .hireAgeLimit | 17 => some .confirmWindow
  | 18 => some .memberFloor | 19 => some .vanIdleTimeout | 20 => some .creditLimit | 21 => some .retryLimit
  | _ => none

/-- The settings in table order. -/
def settingNames : List SettingName := (List.range' 1 21).filterMap settingOf

/-- The range of a setting (R195). -/
def SettingName.range : SettingName → Nat × Nat
  | .stationId => (1, 4095)
  | .countA => (0, 16)
  | .countB => (0, 16)
  | .countC => (0, 16)
  | .countD => (0, 16)
  | .dayOffset => (0, 86399)
  | .releaseWindow => (10, 60)
  | .settleWindow => (0, 600)
  | .dockFaultLimit => (0, 7)
  | .lowMark => (0, 63)
  | .highMark => (1, 64)
  | .releaseCredit => (0, 1000)
  | .returnCredit => (0, 1000)
  | .openReserve => (16, 128)
  | .minPassBalance => (0, 5000)
  | .hireAgeLimit => (1, 14)
  | .confirmWindow => (1, 72)
  | .memberFloor => (0, 64)
  | .vanIdleTimeout => (60, 1800)
  | .creditLimit => (0, 32)
  | .retryLimit => (0, 3)

/-- A value clamped to the nearer end of a setting's range (R195). -/
def SettingName.clamp (n : SettingName) (v : Nat) : Nat := max n.range.1 (min n.range.2 v)

/-- A setting of the first two rows takes effect at the next start-up (R195). -/
def SettingName.atStart : SettingName → Bool
  | .stationId => true
  | .countA => true
  | .countB => true
  | .countC => true
  | .countD => true
  | _ => false

/-- The value the store holds of a setting. -/
def State.stored (s : State) : SettingName → Nat
  | .stationId => s.store.epoch.cur.stationId
  | .countA => s.settings.countA
  | .countB => s.settings.countB
  | .countC => s.settings.countC
  | .countD => s.settings.countD
  | .dayOffset => s.settings.dayOffset
  | .releaseWindow => s.settings.releaseWindow
  | .settleWindow => s.settings.settleWindow
  | .dockFaultLimit => s.settings.dockFaultLimit
  | .lowMark => s.settings.lowMark
  | .highMark => s.settings.highMark
  | .releaseCredit => s.settings.releaseCredit
  | .returnCredit => s.settings.returnCredit
  | .openReserve => s.settings.openReserve
  | .minPassBalance => s.settings.minPassBalance
  | .hireAgeLimit => s.settings.hireAgeLimit
  | .confirmWindow => s.settings.confirmWindow
  | .memberFloor => s.settings.memberFloor
  | .vanIdleTimeout => s.settings.vanIdleTimeout
  | .creditLimit => s.settings.creditLimit
  | .retryLimit => s.settings.retryLimit

/-- The value in force of a setting (R195). -/
def State.inForce (s : State) (n : SettingName) : Nat :=
  match n with
  | .stationId => s.stationId
  | .countA => (s.line 1).count
  | .countB => (s.line 2).count
  | .countC => (s.line 3).count
  | .countD => (s.line 4).count
  | _ => s.stored n

/-- Write the settings of the settings region. -/
def State.writeSettings (s : State) (v : Settings) : State :=
  s.putSettings { s.store.settings.cur with settings := v }

/-- Write one setting to its region. -/
def State.writeSetting (s : State) (n : SettingName) (v : Nat) : State :=
  match n with
  | .stationId => s.putEpoch { s.store.epoch.cur with stationId := v }
  | .countA => s.writeSettings { s.settings with countA := v }
  | .countB => s.writeSettings { s.settings with countB := v }
  | .countC => s.writeSettings { s.settings with countC := v }
  | .countD => s.writeSettings { s.settings with countD := v }
  | .dayOffset => s.writeSettings { s.settings with dayOffset := v }
  | .releaseWindow => s.writeSettings { s.settings with releaseWindow := v }
  | .settleWindow => s.writeSettings { s.settings with settleWindow := v }
  | .dockFaultLimit => s.writeSettings { s.settings with dockFaultLimit := v }
  | .lowMark => s.writeSettings { s.settings with lowMark := v }
  | .highMark => s.writeSettings { s.settings with highMark := v }
  | .releaseCredit => s.writeSettings { s.settings with releaseCredit := v }
  | .returnCredit => s.writeSettings { s.settings with returnCredit := v }
  | .openReserve => s.writeSettings { s.settings with openReserve := v }
  | .minPassBalance => s.writeSettings { s.settings with minPassBalance := v }
  | .hireAgeLimit => s.writeSettings { s.settings with hireAgeLimit := v }
  | .confirmWindow => s.writeSettings { s.settings with confirmWindow := v }
  | .memberFloor => s.writeSettings { s.settings with memberFloor := v }
  | .vanIdleTimeout => s.writeSettings { s.settings with vanIdleTimeout := v }
  | .creditLimit => s.writeSettings { s.settings with creditLimit := v }
  | .retryLimit => s.writeSettings { s.settings with retryLimit := v }

/-- The refusal of a clamped value: the fill marks first, then the credit limit (R162, R195). -/
def State.settingRefusal (s : State) (n : SettingName) (v : Nat) : Option Status :=
  match n with
  | .lowMark => if s.settings.highMark ≤ v then some .conflict else none
  | .highMark => if v ≤ s.settings.lowMark then some .conflict else none
  | .creditLimit => if v ≠ 0 ∧ v < s.recordsIn .sent then some .busy else none
  | _ => none

/-- The reply of a SETTING_SET that wrote `v` for a value received (R195). -/
def settingReply (n : SettingName) (received v : Nat) : Reply :=
  if n.atStart then { status := .pendingRestart, result := .value v }
  else if received = v then .plain .ok
  else { status := .okClamped, result := .value v }

/-- SETTING_SET at the store (R195). -/
def ownSettingSet (setting value : Nat) (s : State) : State × Reply :=
  match settingOf setting with
  | none => (s, .range .setting)
  | some n =>
    match s.settingRefusal n (n.clamp value) with
    | some x => (s, .plain x)
    | none => (s.writeSetting n (n.clamp value), settingReply n value (n.clamp value))

/-- A setting as SETTING_GET reads it: the value in force, and for the first two rows the value stored (R195). -/
def State.readSetting (s : State) (n : SettingName) : SettingName × Nat × Option Nat :=
  (n, s.inForce n, if n.atStart then some (s.stored n) else none)

/-- SETTING_GET at the store: a setting, or 22 for ALL (R195, R200). -/
def ownSettingGet (setting : Nat) (s : State) : State × Reply :=
  if setting = 22 then (s, { status := .ok, result := .settings (settingNames.map s.readSetting) })
  else
    match settingOf setting with
    | none => (s, .range .setting)
    | some n => (s, { status := .ok, result := .settings [s.readSetting n] })

/-! ### RESET (R198) -/

/-- The first collection that RESET STORE finds holding anything (R198). -/
def State.firstHeld (s : State) : Option Collection :=
  if s.records ≠ [] then some .journal
  else if s.hires ≠ [] then some .openHires
  else if s.entries ≠ [] then some .settle
  else if s.store.passes.cur.slots.all (fun p => p.isNone) then none
  else some .passes

/-- RESET STORE writes every region to its defaults, but for the station id, the epoch and the next sequence number (R198). -/
def State.defaultStore (s : State) : State :=
  ((((((((s.putSettings .default).putPlans plansDefault).putTariffs .default).putDenied []).putPasses .default).putHires
    []).putSettle .default).putJournal { records := [], next := s.store.journal.cur.next }).putHireCount 1

/-- RESET at the store: 1 for WARM, 2 for STORE. The start-up follows once the reply has been sent (R190, R198). -/
def ownReset (mode : Nat) (s : State) : State × Reply :=
  match mode with
  | 1 => (s, .plain .ok)
  | 2 =>
    match s.firstHeld with
    | some c => (s, { status := .notEmpty, result := .notEmpty c })
    | none => (s.defaultStore, .plain .ok)
  | _ => (s, .range .mode)

/-! ### The store check (R194) -/

/-- The check of one region: the newer sound copy is taken, and a region with no sound copy is written to its defaults. -/
def Region.check {α : Type} (r : Region α) (d : α) : Region α × Bool :=
  if r.curSound then (r, false)
  else if r.oldSound then ({ cur := r.old, old := r.cur, curSound := true, oldSound := false }, false)
  else ({ cur := d, old := r.cur, curSound := true, oldSound := false }, true)

/-- A copy of a region fails its check. -/
def Region.spoil {α : Type} (r : Region α) : CopyRole → Region α
  | .newer => { r with curSound := false }
  | .older => { r with oldSound := false }

/-- A copy of a named region fails its check. -/
def Store.spoil (x : Store) (c : RegionName × CopyRole) : Store :=
  match c.1 with
  | .settings => { x with settings := x.settings.spoil c.2 }
  | .plans => { x with plans := x.plans.spoil c.2 }
  | .tariffs => { x with tariffs := x.tariffs.spoil c.2 }
  | .denyList => { x with deny := x.deny.spoil c.2 }
  | .passes => { x with passes := x.passes.spoil c.2 }
  | .openHires => { x with hires := x.hires.spoil c.2 }
  | .settle => { x with settle := x.settle.spoil c.2 }
  | .journal => { x with journal := x.journal.spoil c.2 }
  | .hireCount => { x with hireCount := x.hireCount.spoil c.2 }
  | .epoch => { x with epoch := x.epoch.spoil c.2 }

/-- The store after the check of every region (R194). -/
def Store.check (x : Store) : Store :=
  { settings := (x.settings.check .default).1, plans := (x.plans.check plansDefault).1
    tariffs := (x.tariffs.check .default).1, deny := (x.deny.check []).1, passes := (x.passes.check .default).1
    hires := (x.hires.check []).1, settle := (x.settle.check .default).1
    journal := (x.journal.check { records := [], next := 1 }).1, hireCount := (x.hireCount.check 1).1
    epoch := (x.epoch.check { epoch := 0, stationId := 0 }).1 }

/-- Whether neither copy of a region passes its check (R194). -/
def Region.isDamaged {α : Type} (r : Region α) : Bool := !r.curSound && !r.oldSound

/-- The damaged regions, in R194's order. A damaged epoch region has the journal handled as damaged too. -/
def Store.damaged (x : Store) : List RegionName :=
  [(RegionName.settings, x.settings.isDamaged), (.plans, x.plans.isDamaged), (.tariffs, x.tariffs.isDamaged),
   (.denyList, x.deny.isDamaged), (.passes, x.passes.isDamaged), (.openHires, x.hires.isDamaged),
   (.settle, x.settle.isDamaged), (.journal, x.journal.isDamaged || x.epoch.isDamaged),
   (.hireCount, x.hireCount.isDamaged), (.epoch, x.epoch.isDamaged)].filterMap
    (fun r => if r.2 then some r.1 else none)

/-- A damaged journal: emptied, the epoch advanced and the numbering restarted (R194). -/
def State.repairJournal (s : State) (journal epoch : Bool) : State :=
  let s1 := if epoch ∧ journal = false then s.putJournal { records := [], next := 1 } else s
  if journal ∨ epoch then
    s1.putEpoch { s1.store.epoch.cur with epoch := (s1.store.epoch.cur.epoch + 1) % 65536 }
  else s1

/-- End the ride of a slot's pass in a state, as at a charge of 0 (R59, R111). The PASS_SETTLE of a pass that moves to
SETTLING is not posted by the repair: it waits in its place for the start-up to serve the producers in R160's order, the
WAITING closes first. -/
def State.endRide (x : PassState) (s : State) (slot : Nat) : State :=
  match s.pass slot with
  | some p => if p.state = x then s.putPass slot (some { p.charge 0 with state := p.stateAfterRide s.now }) else s
  | none => s

/-- The repairs of a damaged pass, open-hire or settle region (R59, R77, R111). -/
def State.repairPasses (s : State) (passes hires settle : Bool) : State :=
  let s1 := if passes ∧ hires = false then s.putHires (s.hires.filter (fun h =>
    match h.hirer with | .pass _ _ => false | _ => true)) else s
  let s2 := if hires then slotNumbers.foldl (State.endRide .onRide) s1 else s1
  if settle then slotNumbers.foldl (State.endRide .closing) s2 else s2

/-! ### Loss of power and the start-up (R190, R194, R196) -/

/-- The state with everything that the store does not retain as a start-up gives it, and the elapsed base at 0 (R192, R196).
The commands that wait, the power and the position of the code generator are kept. -/
def State.volatile (s : State) : State :=
  { pending := s.pending, power := s.power, elapsed := 0, clock := .unset, store := s.store, stationId := 0
    strings := List.replicate 4 (.atStart 0), nodes := List.replicate 64 (.atStart 0)
    docks := List.replicate 64 (.atStart false), censusLimit := none, censusReported := false
    hireExamAt := Config.examPeriod, passExamAt := Config.examPeriod, codePosition := s.codePosition, setAside := 0
    replySlot := 0, backhaul := .up, fatal := 0, sixth := [], attention := .clear, faults := [], faultsDropped := 0
    readerRuns := List.replicate 64 0, offlineAt := List.replicate 64 none, van := .idleWith 1, directives := []
    link := .atStart }

/-- The node counts in force for a start-up: 0 while the station id is 0 (R194). -/
def State.countsInForce (s : State) : List Nat :=
  if s.store.epoch.cur.stationId = 0 then [0, 0, 0, 0]
  else [s.settings.countA, s.settings.countB, s.settings.countC, s.settings.countD]

/-- Whether dock `d` is configured under node counts (R1). -/
def configuredBy (counts : List Nat) (d : Nat) : Bool := (d - 1) % 16 < counts.getD ((d - 1) / 16) 0

/-- The strings, the station id and the dock table of a start-up (R1, R17, R195). -/
def State.takeCounts (s : State) : State :=
  { s with
    stationId := s.store.epoch.cur.stationId, strings := s.countsInForce.map StringLine.atStart
    docks := dockNumbers.map (fun d => Dock.atStart (configuredBy s.countsInForce d)) }

/-- A TARIFF_APPLIED record that the tariffs region holds waits again in the sixth place (R101). -/
def State.resumeTariff (s : State) : State :=
  if s.tariffs.waiting.isSome then { s with sixth := [.tariffApplied] } else s

/-- SENT records return to UNSENT at a start-up (R168). -/
def State.unsendAll (s : State) : State := if s.recordsIn .sent = 0 then s else s.putRecords (unsend s.records)

/-- The body of the START record (R196). -/
def State.startBody (s : State) (cause : StartCause) (damaged : List RegionName) : StartBody :=
  { cause := cause, damaged := damaged, stationId := s.stationId, counts := s.countsInForce
    epoch := s.store.epoch.cur.epoch, openHires := s.hires.length
    passes := s.store.passes.cur.slots.countP (fun p => p.isSome), waitingEntries := s.waitingEntries
    records := s.records.length }

/-- The store check and the repairs (step 1 of R196). -/
def State.checkStore (s : State) : State :=
  let x := s.store
  let s1 : State := { s with store := x.check }
  (s1.repairJournal x.journal.isDamaged x.epoch.isDamaged).repairPasses x.passes.isDamaged x.hires.isDamaged
    x.settle.isDamaged

/-- Steps 3 and 4 of R196: producers that the regions retain are served while the journal has room, settle finalises every
HELD entry, and the journal returns SENT records to UNSENT. -/
def State.settleStart (s : State) : State := ((s.resumeTariff.drain).finaliseAll Config.settlePlaces).unsendAll

/-- Steps 5 and 6 of R196: START is made, and the census begins. -/
def State.beginCensus (s : State) (cause : StartCause) (damaged : List RegionName) : State :=
  ({ s.makeSixth (.start (s.startBody cause damaged)) with censusLimit := some Config.censusPeriod } : State).reportCensus

/-- The start-up sequence (R196). The copies named fail their check; a start-up with cause STORE follows the writing of the
defaults, and finds no region damaged (R198). -/
def State.startUp (s : State) (cause : StartCause) (failing : List (RegionName × CopyRole)) : State :=
  let v := { s.volatile with power := .running }
  let spoiled : State := if cause = .store then v else { v with store := failing.foldl Store.spoil v.store }
  ((spoiled.checkStore.takeCounts).settleStart).beginCensus cause spoiled.store.damaged

/-- Power is lost (R194): the volatile state is lost, and each region whose write the loss interrupts keeps only its other
copy whole. -/
def State.losePower (s : State) (interrupted : List RegionName) : State :=
  let v := s.volatile
  { v with power := .off, store := interrupted.foldl (fun x r => x.spoil (r, .newer)) v.store }

end Sys2Proof.Machine
end

