-- ==== Sys2Proof/Machine/Link.lean ====
section
/-! DEFINITION. The Station Processor Link: STATUS_GET, the owners of the requests, the holding list and its replies, notices,
the arbiter of the outgoing direction, and what every command leaves the link and the indicators to do (chapter 11, R22,
R167). -/

namespace Sys2Proof.Machine

/-! ### STATUS_GET (R189) -/

/-- The items of STATUS_GET, all taken at one moment (R189). -/
def State.statusReport (s : State) : StatusReport :=
  { stationId := s.stationId, counts := s.strings.map (fun l => l.count), time := s.now, docks := s.dockCounts
    denied := s.denied.length, openHires := s.hires.length, passes := s.passCounts
    generation := s.tariffs.current.generation, commitPending := s.commitPending, heldEntries := s.heldEntries
    waitingEntries := s.waitingEntries, lostCloses := s.store.settle.cur.lost, attention := s.attention
    pendingFaults := s.faults.length, droppedFaults := s.faultsDropped, vanPhase := s.van.phase, session := s.van.session
    journal := s.journalSummary, directives := s.directives.length, headWaiting := s.directives != []
    placesHeld := s.link.holding.length, marks := s.link.marks }

/-- STATUS_GET at the link. -/
def ownStatusGet (s : State) : State × Reply := (s, { status := .ok, result := .status s.statusReport })

/-! ### The owners of the requests (R183, 11.5) -/

/-- Hand a request to its owner: what it does to the part, and its reply. -/
def own (r : Request) (s : State) : State × Reply :=
  match r with
  | .statusGet => ownStatusGet s
  | .timeSet t => ownTimeSet t s
  | .settingSet n v => ownSettingSet n v s
  | .settingGet n => ownSettingGet n s
  | .reset m => ownReset m s
  | .stringReset l => ownStringReset l s
  | .dockGet d => ownDockGet d s
  | .dockList => ownDockList s
  | .planSet code f => ownPlanSet code f s
  | .planGet code => ownPlanGet code s
  | .terminalAuth t k h ref => ownTerminalAuth t k h ref s
  | .passGet slot => ownPassGet slot s
  | .passCancel slot serial => ownPassCancel slot serial s
  | .tariffStageBand band edge block rate => ownStageBand band edge block rate s
  | .tariffStageClear => ownStageClear s
  | .tariffCommit mode => ownTariffCommit mode s
  | .tariffGet sel => ownTariffGet sel s
  | .policySet k c n => ownPolicySet k c n s
  | .policyGet k => ownPolicyGet k s
  | .riderReport target kind source reporter => ownRiderReport target kind source reporter s
  | .vanOpen van crew manifest => ownVanOpen van crew manifest s
  | .vanRelease d => ownVanRelease d s
  | .vanClose id => ownVanClose id s
  | .vanGet => ownVanGet s
  | .journalRead n => ownJournalRead n s
  | .journalAck e q r => ownJournalAck e q r s
  | .journalReoffer => ownReoffer s
  | .linkState v => ownLinkState v s
  | .directive id k args => ownDirective id k args s
  | .badKind k => (s, { status := .badKind, result := .kind k })
  | .badLength _ => (s, .range .length)

/-! ### The holding list (R184, R185) -/

/-- The state with another link. -/
def State.putLink (s : State) (l : Link) : State := { s with link := l }

/-- Give the oldest held request its reply. -/
def setReply (r : Reply) : List Held → List Held
  | [] => []
  | h :: rest => { h with reply := some r } :: rest

/-- Hand the oldest held request to its owner, where its reply has not been made (R184). -/
def State.handOn (s : State) : State :=
  match s.link.holding with
  | [] => s
  | h :: _ =>
    if h.reply.isSome then s
    else
      let done := own h.request s
      done.1.putLink { done.1.link with holding := setReply done.2 done.1.link.holding }

/-- A request takes a place: the first one in an empty list is handed on at once. With all 4 places held it is answered BUSY
(R184). -/
def State.takeRequest (s : State) (tag : Nat) (r : Request) : State :=
  if Config.holdingPlaces ≤ s.link.holding.length then
    s.putLink { s.link with busy := s.link.busy ++ [(requestKind r, tag)] }
  else
    let s1 := s.putLink { s.link with holding := s.link.holding ++ [{ tag := tag, request := r, reply := none }] }
    if s.link.holding = [] then s1.handOn else s1

/-- The requests of the frames a search has found, in order (R182, R183). -/
def State.takeFrames (s : State) (frames : List RawFrame) : State :=
  frames.foldl (fun t f => t.takeRequest f.2.1 (requestOfFrame f.1 f.2.2)) s

/-- The whole frames that the bytes of an unfinished frame hold once it is discarded and the search goes on after its start
byte (R182). -/
def Link.buried (l : Link) : List RawFrame := (receive true l.receiving.length l.receiving).1

/-- The frame being received is discarded, and the search goes on in its bytes (R182). -/
def State.searchAgain (s : State) : State := (s.putLink { s.link with receiving := [] }).takeFrames s.link.buried

/-- Whether the bytes of a frame being received stopped arriving 50 ms ago on the elapsed base (R182, R192). -/
def State.gapPassed (s : State) : Bool := s.link.receiving != [] && s.link.lastByteAt + Config.frameGap ≤ s.elapsed

/-- The gap of a frame being received, where the elapsed base has reached its end (R182, R192). -/
def State.gapDue (s : State) : State := if s.gapPassed then s.searchAgain else s

/-- A request frame has been received whole: a frame still unfinished before it is discarded (R182, R184). -/
def State.receiveRequest (s : State) (tag : Nat) (r : Request) : State := s.searchAgain.takeRequest tag r

/-- The receiver takes bytes up: it searches for frames, and what is incomplete waits for more bytes (R182). -/
def State.joinBytes (s : State) (bytes : List Byte) : State :=
  let all := s.link.receiving ++ bytes
  let found := receive false all.length all
  (s.putLink { s.link with receiving := found.2, lastByteAt := s.elapsed }).takeFrames found.1

/-- Bytes have arrived (R182): bytes that come after the gap of an unfinished frame do not join it. -/
def State.takeBytes (s : State) (bytes : List Byte) : State :=
  if bytes = [] then s else s.gapDue.joinBytes bytes

/-! ### The outgoing direction (R185, R187, R188) -/

/-- The notice kinds in the order of the notice table. -/
def noticeKinds : List NoticeKind := [.journalReady, .attention, .vanState, .passState, .dockState]

/-- The kinds in the order of the search after the kind sent last (R188). -/
def searchOrder : Option NoticeKind → List NoticeKind
  | none => [.journalReady, .attention, .vanState, .passState, .dockState]
  | some .journalReady => [.attention, .vanState, .passState, .dockState, .journalReady]
  | some .attention => [.vanState, .passState, .dockState, .journalReady, .attention]
  | some .vanState => [.passState, .dockState, .journalReady, .attention, .vanState]
  | some .passState => [.dockState, .journalReady, .attention, .vanState, .passState]
  | some .dockState => [.journalReady, .attention, .vanState, .passState, .dockState]

/-- The pending kind that the link sends next (R188). -/
def Link.nextNotice (l : Link) : Option NoticeKind := (searchOrder l.lastNotice).find? (fun k => l.marks.has k)

/-- Whether a reply is ready: that of the oldest held request. -/
def Link.replyReady (l : Link) : Bool := l.holding.head?.any (fun h => h.reply.isSome)

/-- Whether the frame just sent was a notice. -/
def Link.noticeLast (l : Link) : Bool :=
  match l.lastFrame with
  | some (.notice _ _) => true
  | some (.reply _ _ _) => false
  | none => false

/-- The next frame of the outgoing direction (R188). -/
def Link.choose (l : Link) : Option Sending :=
  if l.busy ≠ [] then some .busyReply
  else if l.replyReady ∧ l.noticeLast then some .reply
  else if l.nextNotice.isSome then some .notice
  else if l.replyReady then some .reply
  else none

/-- Whether the next frame is to be chosen: the link sends nothing, or only a reply that it made ready while a BUSY reply
waits. DEDUCED (log 19): a BUSY reply raised before REPLY_SENT goes ahead of that reply, as in steps 1 to 3 of 11.8; a notice
being sent goes on to its end. -/
def Link.undecided (l : Link) : Bool := l.sending.isNone || (l.sending == some .reply && l.busy != [])

/-- Where the next frame is to be chosen, the link chooses it (R184, R188). -/
def State.chooseFrame (s : State) : State :=
  if s.link.undecided then s.putLink { s.link with sending := s.link.choose } else s

/-- The value of a notice at the moment it is sent (R187). -/
def State.noticeValue (s : State) : NoticeKind → NoticeValue
  | .journalReady => .journalReady s.journalSummary
  | .attention => .attention s.attention
  | .vanState => .vanState s.vanReport
  | .passState => .passState s.passCounts
  | .dockState => .dockState s.dockCounts

/-- A notice has been sent: its mark is cleared and its number is used (R187, R188). -/
def State.sentNotice (s : State) : State :=
  if s.link.sending = some .notice then
    match s.link.nextNotice with
    | some k =>
      s.putLink { s.link with
        marks := s.link.marks.put k false, noticeNumber := wrapUp 255 s.link.noticeNumber, lastNotice := some k
        lastFrame := some (.notice s.link.noticeNumber (s.noticeValue k)), sending := none }
    | none => s.putLink { s.link with sending := none }
  else s

/-- The start-up that an accepted RESET begins once its reply has been sent (R190, R198). -/
def resetCause (h : Held) (r : Reply) : Option StartCause :=
  match h.request with
  | .reset 1 => if r.status = .ok then some .warm else none
  | .reset 2 => if r.status = .ok then some .store else none
  | _ => none

/-- The reply of the oldest held request has been sent: its place is free, and the next request is handed on, or an accepted
RESET lets the start-up begin (R184, R185, R190). -/
def State.sentHeld (s : State) : State :=
  match s.link.holding with
  | [] => s.putLink { s.link with sending := none }
  | h :: rest =>
    match h.reply with
    | none => s.putLink { s.link with sending := none }
    | some r =>
      match resetCause h r with
      | some cause => { s with power := .startDue cause, link := .atStart }
      | none =>
        (s.putLink { s.link with
          holding := rest, lastFrame := some (.reply (requestKind h.request) h.tag r), sending := none }).handOn

/-- A BUSY reply has been sent (R184). -/
def State.sentBusy (s : State) : State :=
  match s.link.busy with
  | [] => s.putLink { s.link with sending := none }
  | b :: rest =>
    s.putLink { s.link with busy := rest, lastFrame := some (.reply b.1 b.2 (.plain .busy)), sending := none }

/-- The last byte of a reply has been sent (R185, R188). -/
def State.sentReply (s : State) : State :=
  match s.link.sending with
  | some .reply => s.sentHeld
  | some .busyReply => s.sentBusy
  | some .notice => s
  | none => s

/-! ### What every command leaves to do (R22, R167, R188) -/

/-- Whether an event from `before` to `after` raises JOURNAL_READY (R167). -/
def readyRaised (before after : State) : Bool :=
  before.recordsIn .parked != after.recordsIn .parked ||
    (after.journalReady && (!before.journalReady || before.recordsIn .unsent != after.recordsIn .unsent)) ||
    (before.journalReady && !after.journalReady)

/-- Raise JOURNAL_READY where the event asks for it. -/
def State.raiseReady (s before : State) : State := if readyRaised before s then s.raise .journalReady else s

/-- What follows every command of a running part: SHOW where a resting indication has changed, JOURNAL_READY where the journal
has changed, and the next frame where the link is free. -/
def State.finish (s before : State) : State := ((s.showAll).raiseReady before).chooseFrame

/-- The outcome of a command of a running part. While the part has no power, or a start-up is due, nothing is taken. A step
that ends in an accepted RESET leaves only the start-up to come. -/
def State.running (s : State) (f : State → State) : State :=
  if s.power = .running then
    (if (f s).power = .running then (f s).finish s else f s)
  else s

end Sys2Proof.Machine
end

