-- ==== Sys2Proof/Machine/PowerRows.lean ====
section
/-! DEFINITION. The meanings of the power and start-up rows of the table. -/

namespace Sys2Proof.Machine

/-- POWER_ON (R196): power is applied, and a start-up with cause POWER_ON is due. A part that has power is left as it is. -/
def execPowerOn (s : State) : Host.Outcome State Fault Refusal :=
  .next (match s.power with
    | .off => { s with power := .startDue .powerOn }
    | .startDue _ => s
    | .running => s)

/-- POWER_LOSS (R194). -/
def execPowerLoss (interrupted : List RegionName) (s : State) : Host.Outcome State Fault Refusal :=
  .next (s.losePower interrupted)

/-- START_UP (R196): the start-up that is due runs whole. DEDUCED (log 12): a part that is not running has no ready journal, so
JOURNAL_READY is raised wherever the start-up leaves the journal ready (R167). -/
def execStartUp (failing : List (RegionName × CopyRole)) (s : State) : Host.Outcome State Fault Refusal :=
  .next (match s.power with
    | .startDue cause => (s.startUp cause failing).finish { s.volatile with backhaul := .down }
    | .off => s
    | .running => s)

/-- Serve the sixth place where it is the arbiter's next and its oldest record is of a kind (R160). -/
def State.serveSixthIf (s : State) (f : SixthRecord → Bool) : State :=
  if s.sixth.head?.any f then s.serveIfNext .sixth else s

/-- START (R196): the room arbiter posts the START record that waits. -/
def execStart (s : State) : Host.Outcome State Fault Refusal :=
  .next (s.running (fun s => s.serveSixthIf (fun r => match r with | .start _ => true | _ => false)))

/-- CENSUS_LIMIT_EXPIRY (R197). -/
def execCensusLimitExpiry (s : State) : Host.Outcome State Fault Refusal := .next (s.running State.censusLimitDue)

/-- DOCK_CENSUS (R197, R180): the room arbiter posts the DOCK_CENSUS record that waits. -/
def execDockCensus (s : State) : Host.Outcome State Fault Refusal :=
  .next (s.running (fun s => s.serveSixthIf (fun r => match r with | .dockCensus _ => true | _ => false)))

end Sys2Proof.Machine
end

