-- ==== Sys2Proof/Machine/ArbiterRows.lean ====
section
/-! DEFINITION. The meanings of the rows that are one service of the room arbiter: the records that wait in its places, and the directives
at the head of their queue (R160). The steps that free a slot serve the places themselves; such a row acts where a
service is owed. -/

namespace Sys2Proof.Machine

/-- Serve van where it is the arbiter's next and `moves` says whether a move or the summary is due (R152, R153). -/
def State.serveVanIf (s : State) (moves : Bool) : State :=
  if (s.van.moves != []) = moves then s.serveIfNext .van else s

/-- Execute the head directive where directives are the arbiter's next and its kind is the one given (R171, R172). -/
def State.serveDirective (s : State) (kind : Nat) : State :=
  if s.directives.head?.any (fun x => x.kind == kind) then s.serveIfNext .directives else s

/-- HIRE_CLOSE (R109). -/
def execHireClose (s : State) : Host.Outcome State Fault Refusal :=
  .next (s.running (fun s => s.serveIfNext .settle))

/-- PASS_SETTLE (R75). -/
def execPassSettle (s : State) : Host.Outcome State Fault Refusal :=
  .next (s.running (fun s => s.serveIfNext .passes))

/-- VAN_MOVE (R152). -/
def execVanMove (s : State) : Host.Outcome State Fault Refusal :=
  .next (s.running (fun s => s.serveVanIf true))

/-- VAN_SUMMARY (R153). -/
def execVanSummary (s : State) : Host.Outcome State Fault Refusal :=
  .next (s.running (fun s => s.serveVanIf false))

/-- FAULT (R131). -/
def execFault (s : State) : Host.Outcome State Fault Refusal :=
  .next (s.running (fun s => s.serveIfNext .faults))

/-- CLOCK_STEP (R193). -/
def execClockStep (s : State) : Host.Outcome State Fault Refusal :=
  .next (s.running (fun s => s.serveSixthIf (fun r => match r with | .clockStep _ _ => true | _ => false)))

/-- TARIFF_APPLIED (R88). -/
def execTariffApplied (s : State) : Host.Outcome State Fault Refusal :=
  .next (s.running (fun s => s.serveSixthIf (fun r => r == .tariffApplied)))

/-- BIKE_SET (R173). -/
def execBikeSet (s : State) : Host.Outcome State Fault Refusal :=
  .next (s.running (fun s => s.serveDirective 1))

/-- DOCK_CLEAR (R174). -/
def execDockClear (s : State) : Host.Outcome State Fault Refusal :=
  .next (s.running (fun s => s.serveDirective 2))

/-- REMOTE_RELEASE (R175). -/
def execRemoteRelease (s : State) : Host.Outcome State Fault Refusal :=
  .next (s.running (fun s => s.serveDirective 3))

/-- DENY_ADD (R177). -/
def execDenyAdd (s : State) : Host.Outcome State Fault Refusal :=
  .next (s.running (fun s => s.serveDirective 4))

/-- DENY_REMOVE (R177). -/
def execDenyRemove (s : State) : Host.Outcome State Fault Refusal :=
  .next (s.running (fun s => s.serveDirective 5))

/-- HIRE_CLOSED (R178). -/
def execHireClosed (s : State) : Host.Outcome State Fault Refusal :=
  .next (s.running (fun s => s.serveDirective 6))

/-- PASS_CHARGE (R179). -/
def execPassCharge (s : State) : Host.Outcome State Fault Refusal :=
  .next (s.running (fun s => s.serveDirective 7))

/-- FAULT_SUMMARY (R180). -/
def execFaultSummary (s : State) : Host.Outcome State Fault Refusal :=
  .next (s.running (fun s => s.serveDirective 8))

/-- DIRECTIVE_CENSUS (R180). -/
def execDirectiveCensus (s : State) : Host.Outcome State Fault Refusal :=
  .next (s.running (fun s => s.serveDirective 9))

end Sys2Proof.Machine
end

