-- ==== Sys2Proof/Machine/LineRows.lean ====
section
/-! DEFINITION. The meanings of the dock-line rows of the table: polls, replies and the DLC's timers. -/

namespace Sys2Proof.Machine

/-- POLL (R2). -/
def execPoll (string : StringName) (s : State) : Host.Outcome State Fault Refusal :=
  .next (s.running (fun s => s.poll (stringNumber string)))

/-- POLL_REPLY (R3). -/
def execPollReply (string : StringName) (reply : NodeReply) (s : State) : Host.Outcome State Fault Refusal :=
  .next (s.running (fun s => s.hear (stringNumber string) reply))

/-- MISSED_POLL (R2). -/
def execMissedPoll (string : StringName) (s : State) : Host.Outcome State Fault Refusal :=
  .next (s.running (fun s => s.missPoll (stringNumber string)))

/-- SILENCE_TIMEOUT (R7). -/
def execSilenceTimeout (dock : Nat) (s : State) : Host.Outcome State Fault Refusal :=
  .next (s.running (fun s => s.silenceDue dock))

/-- TAG_WRITE_TIMEOUT (R12). -/
def execTagWriteTimeout (dock : Nat) (s : State) : Host.Outcome State Fault Refusal :=
  .next (s.running (fun s => s.commandDue dock Command.isTagWrite))

/-- UNLOCK_TIMEOUT (R13). -/
def execUnlockTimeout (dock : Nat) (s : State) : Host.Outcome State Fault Refusal :=
  .next (s.running (fun s => s.commandDue dock (fun c => c == .unlock)))

/-- LOCK_TIMEOUT (R13). -/
def execLockTimeout (dock : Nat) (s : State) : Host.Outcome State Fault Refusal :=
  .next (s.running (fun s => s.commandDue dock (fun c => c == .lock)))

end Sys2Proof.Machine
end

