-- ==== Sys2Proof/Machine/LinkRows.lean ====
section
/-! DEFINITION. The meanings of the rows of the link itself: frames received and frames sent. -/

namespace Sys2Proof.Machine

/-- FRAME_GAP_TIMEOUT: the gap of an unfinished frame, where the elapsed base has reached its end, and then the bytes in which
the search resumes (R182, R192). -/
def execFrameGapTimeout (bytes : List Byte) (s : State) : Host.Outcome State Fault Refusal :=
  .next (s.running (fun s => if bytes = [] then s.gapDue else s.takeBytes bytes))

/-- BAD_KIND (R183). -/
def execBadKind (kind tag : Nat) (body : List Byte) (s : State) : Host.Outcome State Fault Refusal :=
  .next (s.running (fun s => s.receiveRequest tag (requestOfFrame kind body)))

/-- REPLY_SENT (R185). -/
def execReplySent (s : State) : Host.Outcome State Fault Refusal :=
  .next (s.running (fun s => s.sentReply))

/-- NOTICE_SENT (R188). -/
def execNoticeSent (s : State) : Host.Outcome State Fault Refusal :=
  .next (s.running (fun s => s.sentNotice))

/-- DISCARDED_FRAME (R182). -/
def execDiscardedFrame (bytes : List Byte) (s : State) : Host.Outcome State Fault Refusal :=
  .next (s.running (fun s => s.takeBytes bytes))

end Sys2Proof.Machine
end

