-- ==== Sys2Proof/Machine/RequestRows.lean ====
section
/-! DEFINITION. The meanings of the request rows: each takes its place in the holding list, and its owner acts as it is handed on (R184). -/

namespace Sys2Proof.Machine

/-- STATUS_GET (R189). -/
def execStatusGet (tag : Nat) (s : State) : Host.Outcome State Fault Refusal :=
  .next (s.running (fun s => s.receiveRequest tag .statusGet))

/-- TIME_SET (R193). -/
def execTimeSet (tag time : Nat) (s : State) : Host.Outcome State Fault Refusal :=
  .next (s.running (fun s => s.receiveRequest tag (.timeSet time)))

/-- SETTING_SET (R195). -/
def execSettingSet (tag setting value : Nat) (s : State) : Host.Outcome State Fault Refusal :=
  .next (s.running (fun s => s.receiveRequest tag (.settingSet setting value)))

/-- SETTING_GET (R195). -/
def execSettingGet (tag setting : Nat) (s : State) : Host.Outcome State Fault Refusal :=
  .next (s.running (fun s => s.receiveRequest tag (.settingGet setting)))

/-- RESET_WARM (R198). -/
def execResetWarm (tag : Nat) (s : State) : Host.Outcome State Fault Refusal :=
  .next (s.running (fun s => s.receiveRequest tag (.reset 1)))

/-- RESET_STORE (R198). -/
def execResetStore (tag : Nat) (s : State) : Host.Outcome State Fault Refusal :=
  .next (s.running (fun s => s.receiveRequest tag (.reset 2)))

/-- STRING_RESET (R16). -/
def execStringReset (tag string : Nat) (s : State) : Host.Outcome State Fault Refusal :=
  .next (s.running (fun s => s.receiveRequest tag (.stringReset string)))

/-- DOCK_GET (R44). -/
def execDockGet (tag dock : Nat) (s : State) : Host.Outcome State Fault Refusal :=
  .next (s.running (fun s => s.receiveRequest tag (.dockGet dock)))

/-- DOCK_LIST (R44). -/
def execDockList (tag : Nat) (s : State) : Host.Outcome State Fault Refusal :=
  .next (s.running (fun s => s.receiveRequest tag .dockList))

/-- PLAN_SET (R47). -/
def execPlanSet (tag code : Nat) (fields : PlanArgs) (s : State) : Host.Outcome State Fault Refusal :=
  .next (s.running (fun s => s.receiveRequest tag (.planSet code fields)))

/-- PLAN_GET (R47). -/
def execPlanGet (tag code : Nat) (s : State) : Host.Outcome State Fault Refusal :=
  .next (s.running (fun s => s.receiveRequest tag (.planGet code)))

/-- TERMINAL_AUTH (R63). -/
def execTerminalAuth (tag terminal kind hold : Nat) (authRef : List Byte) (s : State) : Host.Outcome State Fault Refusal :=
  .next (s.running (fun s => s.receiveRequest tag (.terminalAuth terminal kind hold authRef)))

/-- PASS_GET (R76). -/
def execPassGet (tag slot : Nat) (s : State) : Host.Outcome State Fault Refusal :=
  .next (s.running (fun s => s.receiveRequest tag (.passGet slot)))

/-- PASS_CANCEL (R74). -/
def execPassCancel (tag slot serial : Nat) (s : State) : Host.Outcome State Fault Refusal :=
  .next (s.running (fun s => s.receiveRequest tag (.passCancel slot serial)))

/-- TARIFF_STAGE_BAND (R81). -/
def execTariffStageBand (tag band : Nat) (edge : Option Nat) (block rate : Nat) (s : State) : Host.Outcome State Fault Refusal :=
  .next (s.running (fun s => s.receiveRequest tag (.tariffStageBand band edge block rate)))

/-- TARIFF_STAGE_CLEAR (R82). -/
def execTariffStageClear (tag : Nat) (s : State) : Host.Outcome State Fault Refusal :=
  .next (s.running (fun s => s.receiveRequest tag .tariffStageClear))

/-- TARIFF_COMMIT_NOW (R84). -/
def execTariffCommitNow (tag : Nat) (s : State) : Host.Outcome State Fault Refusal :=
  .next (s.running (fun s => s.receiveRequest tag (.tariffCommit .now)))

/-- TARIFF_COMMIT_AT (R84). -/
def execTariffCommitAt (tag time : Nat) (s : State) : Host.Outcome State Fault Refusal :=
  .next (s.running (fun s => s.receiveRequest tag (.tariffCommit (.at time))))

/-- TARIFF_COMMIT_CANCEL (R85). -/
def execTariffCommitCancel (tag : Nat) (s : State) : Host.Outcome State Fault Refusal :=
  .next (s.running (fun s => s.receiveRequest tag (.tariffCommit .cancel)))

/-- TARIFF_GET (R89). -/
def execTariffGet (tag selector : Nat) (s : State) : Host.Outcome State Fault Refusal :=
  .next (s.running (fun s => s.receiveRequest tag (.tariffGet selector)))

/-- POLICY_SET (R116). -/
def execPolicySet (tag kind cls count : Nat) (s : State) : Host.Outcome State Fault Refusal :=
  .next (s.running (fun s => s.receiveRequest tag (.policySet kind cls count)))

/-- POLICY_GET (R116). -/
def execPolicyGet (tag kind : Nat) (s : State) : Host.Outcome State Fault Refusal :=
  .next (s.running (fun s => s.receiveRequest tag (.policyGet kind)))

/-- RIDER_REPORT (R117). -/
def execRiderReport (tag : Nat) (target : TargetArg) (kind source : Nat) (reporter : ReporterArg) (s : State) : Host.Outcome State Fault Refusal :=
  .next (s.running (fun s => s.receiveRequest tag (.riderReport target kind source reporter)))

/-- VAN_OPEN (R135). -/
def execVanOpen (tag van crew : Nat) (manifest : List ManifestArg) (s : State) : Host.Outcome State Fault Refusal :=
  .next (s.running (fun s => s.receiveRequest tag (.vanOpen van crew manifest)))

/-- VAN_RELEASE (R141). -/
def execVanRelease (tag dock : Nat) (s : State) : Host.Outcome State Fault Refusal :=
  .next (s.running (fun s => s.receiveRequest tag (.vanRelease dock)))

/-- VAN_CLOSE (R150). -/
def execVanClose (tag session : Nat) (s : State) : Host.Outcome State Fault Refusal :=
  .next (s.running (fun s => s.receiveRequest tag (.vanClose session)))

/-- VAN_GET (R154). -/
def execVanGet (tag : Nat) (s : State) : Host.Outcome State Fault Refusal :=
  .next (s.running (fun s => s.receiveRequest tag .vanGet))

/-- JOURNAL_READ (R161). -/
def execJournalRead (tag count : Nat) (s : State) : Host.Outcome State Fault Refusal :=
  .next (s.running (fun s => s.receiveRequest tag (.journalRead count)))

/-- JOURNAL_ACK_ACCEPTED (R163). -/
def execJournalAckAccepted (tag epoch sequence : Nat) (s : State) : Host.Outcome State Fault Refusal :=
  .next (s.running (fun s => s.receiveRequest tag (.journalAck epoch sequence 1)))

/-- JOURNAL_ACK_FATAL (R163). -/
def execJournalAckFatal (tag epoch sequence : Nat) (s : State) : Host.Outcome State Fault Refusal :=
  .next (s.running (fun s => s.receiveRequest tag (.journalAck epoch sequence 2)))

/-- JOURNAL_ACK_RETRY (R164). -/
def execJournalAckRetry (tag epoch sequence : Nat) (s : State) : Host.Outcome State Fault Refusal :=
  .next (s.running (fun s => s.receiveRequest tag (.journalAck epoch sequence 3)))

/-- JOURNAL_REOFFER (R165). -/
def execJournalReoffer (tag : Nat) (s : State) : Host.Outcome State Fault Refusal :=
  .next (s.running (fun s => s.receiveRequest tag .journalReoffer))

/-- LINK_STATE_UP (R166). -/
def execLinkStateUp (tag : Nat) (s : State) : Host.Outcome State Fault Refusal :=
  .next (s.running (fun s => s.receiveRequest tag (.linkState 1)))

/-- LINK_STATE_DOWN (R166). -/
def execLinkStateDown (tag : Nat) (s : State) : Host.Outcome State Fault Refusal :=
  .next (s.running (fun s => s.receiveRequest tag (.linkState 2)))

/-- DIRECTIVE (R170). -/
def execDirective (tag id kind : Nat) (args : List Byte) (s : State) : Host.Outcome State Fault Refusal :=
  .next (s.running (fun s => s.receiveRequest tag (.directive id kind args)))

end Sys2Proof.Machine
end

