-- ==== Sys2Proof/Machine/TimerRows.lean ====
section
/-! DEFINITION. The meanings of the timer and examination rows of the table. -/

namespace Sys2Proof.Machine

/-- The 60 s examination of the open hires, where it is due; the next is due 60 s after it (R58). -/
def State.hireExamDue (s : State) : State :=
  if s.hireExamAt ≤ s.elapsed then ({ s with hireExamAt := s.hireExamAt + Config.examPeriod } : State).examineHires else s

/-- The 60 s examination of the passes, where it is due; the next is due 60 s after it (R73). -/
def State.passExamDue (s : State) : State :=
  if s.passExamAt ≤ s.elapsed then ({ s with passExamAt := s.passExamAt + Config.examPeriod } : State).examinePasses else s

/-- RELEASE_WINDOW_EXPIRY (R28). -/
def execReleaseWindowExpiry (dock : Nat) (s : State) : Host.Outcome State Fault Refusal :=
  .next (s.running (fun s => s.windowDue dock))

/-- RELOCK_RETRY_EXPIRY (R29). -/
def execRelockRetryExpiry (dock : Nat) (s : State) : Host.Outcome State Fault Refusal :=
  .next (s.running (fun s => s.relockDue dock))

/-- OFFLINE_TIMER_EXPIRY (R127). -/
def execOfflineTimerExpiry (dock : Nat) (s : State) : Host.Outcome State Fault Refusal :=
  .next (s.running (fun s => s.offlineDue dock))

/-- SETTLE_DEADLINE (R104). -/
def execSettleDeadline (bike : Nat) (s : State) : Host.Outcome State Fault Refusal :=
  .next (s.running (fun s => s.settleDue bike))

/-- HIRE_AGE_EXAMINATION (R58). -/
def execHireAgeExamination (s : State) : Host.Outcome State Fault Refusal :=
  .next (s.running (fun s => s.hireExamDue))

/-- PASS_LIMIT_EXAMINATION (R73). -/
def execPassLimitExamination (s : State) : Host.Outcome State Fault Refusal :=
  .next (s.running (fun s => s.passExamDue))

/-- PASS_EXPIRY (R72). -/
def execPassExpiry (slot : Nat) (s : State) : Host.Outcome State Fault Refusal :=
  .next (s.running (fun s => s.takeExpiry slot))

/-- TARIFF_APPLY_AT (R86). -/
def execTariffApplyAt (s : State) : Host.Outcome State Fault Refusal :=
  .next (s.running (fun s => s.applyAt))

/-- VAN_IDLE_TIMEOUT (R149). -/
def execVanIdleTimeout (s : State) : Host.Outcome State Fault Refusal :=
  .next (s.running (fun s => s.vanIdleDue))

end Sys2Proof.Machine
end

