-- ==== Sys2Proof/Machine/Dispatch.lean ====
section
/-! DEFINITION. The one match over the commands: each arm is one call of the command's meaning. -/

namespace Sys2Proof.Machine

def exec (i : Instr) (s : State) : Host.Outcome State Fault Refusal :=
  match i with
  | .powerOn => Sys2Proof.Machine.execPowerOn s
  | .powerLoss interrupted => Sys2Proof.Machine.execPowerLoss interrupted s
  | .startUp failing => Sys2Proof.Machine.execStartUp failing s
  | .start => Sys2Proof.Machine.execStart s
  | .censusLimitExpiry => Sys2Proof.Machine.execCensusLimitExpiry s
  | .dockCensus => Sys2Proof.Machine.execDockCensus s
  | .poll string => Sys2Proof.Machine.execPoll string s
  | .pollReply string reply => Sys2Proof.Machine.execPollReply string reply s
  | .missedPoll string => Sys2Proof.Machine.execMissedPoll string s
  | .silenceTimeout dock => Sys2Proof.Machine.execSilenceTimeout dock s
  | .tagWriteTimeout dock => Sys2Proof.Machine.execTagWriteTimeout dock s
  | .unlockTimeout dock => Sys2Proof.Machine.execUnlockTimeout dock s
  | .lockTimeout dock => Sys2Proof.Machine.execLockTimeout dock s
  | .releaseWindowExpiry dock => Sys2Proof.Machine.execReleaseWindowExpiry dock s
  | .relockRetryExpiry dock => Sys2Proof.Machine.execRelockRetryExpiry dock s
  | .offlineTimerExpiry dock => Sys2Proof.Machine.execOfflineTimerExpiry dock s
  | .settleDeadline bike => Sys2Proof.Machine.execSettleDeadline bike s
  | .hireClose => Sys2Proof.Machine.execHireClose s
  | .hireAgeExamination => Sys2Proof.Machine.execHireAgeExamination s
  | .passLimitExamination => Sys2Proof.Machine.execPassLimitExamination s
  | .passExpiry slot => Sys2Proof.Machine.execPassExpiry slot s
  | .passSettle => Sys2Proof.Machine.execPassSettle s
  | .tariffApplyAt => Sys2Proof.Machine.execTariffApplyAt s
  | .tariffApplied => Sys2Proof.Machine.execTariffApplied s
  | .clockStep => Sys2Proof.Machine.execClockStep s
  | .vanIdleTimeout => Sys2Proof.Machine.execVanIdleTimeout s
  | .vanMove => Sys2Proof.Machine.execVanMove s
  | .vanSummary => Sys2Proof.Machine.execVanSummary s
  | .fault => Sys2Proof.Machine.execFault s
  | .frameGapTimeout bytes => Sys2Proof.Machine.execFrameGapTimeout bytes s
  | .badKind kind tag body => Sys2Proof.Machine.execBadKind kind tag body s
  | .replySent => Sys2Proof.Machine.execReplySent s
  | .noticeSent => Sys2Proof.Machine.execNoticeSent s
  | .statusGet tag => Sys2Proof.Machine.execStatusGet tag s
  | .timeSet tag time => Sys2Proof.Machine.execTimeSet tag time s
  | .settingSet tag setting value => Sys2Proof.Machine.execSettingSet tag setting value s
  | .settingGet tag setting => Sys2Proof.Machine.execSettingGet tag setting s
  | .resetWarm tag => Sys2Proof.Machine.execResetWarm tag s
  | .resetStore tag => Sys2Proof.Machine.execResetStore tag s
  | .stringReset tag string => Sys2Proof.Machine.execStringReset tag string s
  | .dockGet tag dock => Sys2Proof.Machine.execDockGet tag dock s
  | .dockList tag => Sys2Proof.Machine.execDockList tag s
  | .planSet tag code fields => Sys2Proof.Machine.execPlanSet tag code fields s
  | .planGet tag code => Sys2Proof.Machine.execPlanGet tag code s
  | .terminalAuth tag terminal kind hold authRef => Sys2Proof.Machine.execTerminalAuth tag terminal kind hold authRef s
  | .passGet tag slot => Sys2Proof.Machine.execPassGet tag slot s
  | .passCancel tag slot serial => Sys2Proof.Machine.execPassCancel tag slot serial s
  | .tariffStageBand tag band edge block rate => Sys2Proof.Machine.execTariffStageBand tag band edge block rate s
  | .tariffStageClear tag => Sys2Proof.Machine.execTariffStageClear tag s
  | .tariffCommitNow tag => Sys2Proof.Machine.execTariffCommitNow tag s
  | .tariffCommitAt tag time => Sys2Proof.Machine.execTariffCommitAt tag time s
  | .tariffCommitCancel tag => Sys2Proof.Machine.execTariffCommitCancel tag s
  | .tariffGet tag selector => Sys2Proof.Machine.execTariffGet tag selector s
  | .policySet tag kind cls count => Sys2Proof.Machine.execPolicySet tag kind cls count s
  | .policyGet tag kind => Sys2Proof.Machine.execPolicyGet tag kind s
  | .riderReport tag target kind source reporter => Sys2Proof.Machine.execRiderReport tag target kind source reporter s
  | .vanOpen tag van crew manifest => Sys2Proof.Machine.execVanOpen tag van crew manifest s
  | .vanRelease tag dock => Sys2Proof.Machine.execVanRelease tag dock s
  | .vanClose tag session => Sys2Proof.Machine.execVanClose tag session s
  | .vanGet tag => Sys2Proof.Machine.execVanGet tag s
  | .journalRead tag count => Sys2Proof.Machine.execJournalRead tag count s
  | .journalAckAccepted tag epoch sequence => Sys2Proof.Machine.execJournalAckAccepted tag epoch sequence s
  | .journalAckFatal tag epoch sequence => Sys2Proof.Machine.execJournalAckFatal tag epoch sequence s
  | .journalAckRetry tag epoch sequence => Sys2Proof.Machine.execJournalAckRetry tag epoch sequence s
  | .journalReoffer tag => Sys2Proof.Machine.execJournalReoffer tag s
  | .linkStateUp tag => Sys2Proof.Machine.execLinkStateUp tag s
  | .linkStateDown tag => Sys2Proof.Machine.execLinkStateDown tag s
  | .directive tag id kind args => Sys2Proof.Machine.execDirective tag id kind args s
  | .bikeSet => Sys2Proof.Machine.execBikeSet s
  | .dockClear => Sys2Proof.Machine.execDockClear s
  | .remoteRelease => Sys2Proof.Machine.execRemoteRelease s
  | .denyAdd => Sys2Proof.Machine.execDenyAdd s
  | .denyRemove => Sys2Proof.Machine.execDenyRemove s
  | .hireClosed => Sys2Proof.Machine.execHireClosed s
  | .passCharge => Sys2Proof.Machine.execPassCharge s
  | .faultSummary => Sys2Proof.Machine.execFaultSummary s
  | .directiveCensus => Sys2Proof.Machine.execDirectiveCensus s
  | .discardedFrame bytes => Sys2Proof.Machine.execDiscardedFrame bytes s

end Sys2Proof.Machine
end

