-- ==== Sys2Proof/Machine/Step.lean ====
section
/-! DEFINITION. The step: the command at the front of the queue is taken, and with none waiting a millisecond passes. -/

namespace Sys2Proof.Machine

/-- A millisecond passes on the elapsed base of a running part (R192). -/
def State.tick (s : State) : State := if s.power = .running then { s with elapsed := s.elapsed + 1 } else s

/-- One step: the command at the front is taken on the queue's rest; with an empty queue a millisecond passes. -/
def step (s : State) : Host.Outcome State Fault Refusal :=
  match s.pending with
  | [] => .next s.tick
  | c :: rest => exec c { s with pending := rest }

/-- The state with the command that a word of the table spells at the front of the queue. -/
def State.withFetchWord (s : State) (nbits w : Nat) : State :=
  match decodeTableWord nbits w with
  | some c => { s with pending := c :: s.pending }
  | none => s

end Sys2Proof.Machine
end

