-- ==== Sys2Proof/Safety.lean ====
section
/-! DEFINITION. What counts as a safe state of the part, and the views of a state that statements use. -/

namespace Sys2Proof.Machine

/-! ### Views -/

/-- A node without its command list: what SHOW for a resting indication never changes. -/
def Node.bare (n : Node) : Node := { n with current := none, waiting := [], counter := 0 }

/-- A state without what follows every command (R22, R167, R188): the command lists of the nodes, the indication issued last,
the pending notice marks and the choice of the next frame. -/
def State.steady (s : State) : State :=
  { s with
    nodes := s.nodes.map Node.bare, docks := s.docks.map (fun x => { x with shown := none })
    link := { s.link with marks := .none, sending := none } }

/-- A running part whose link holds no request, and whose unfinished frame, if any, has no whole frame in its bytes: the next
request is handed to its owner as it arrives (R182, R184). -/
def State.ready (s : State) : Prop := s.power = .running ∧ s.link.holding = [] ∧ s.link.buried = []

/-- The state in which the link holds one request, with its reply made. -/
def State.answered (s : State) (tag : Nat) (r : Request) (reply : Reply) : State :=
  { s with link := { s.link with receiving := [], holding := [{ tag := tag, request := r, reply := some reply }] } }

/-- The state in which the bike record of a dock is discarded, its settle entry finalised early first (R18); a dock that holds
none stands as it is. -/
def State.vacated (s : State) (d : Nat) (reason : EarlyReason) : State :=
  match (s.dock d).bike with
  | none => s
  | some _ =>
    let u := s.settleDock d reason
    u.putDock d { u.dock d with bike := none }

/-- The state in which a return has struck off the open hire of its reference, where one stands, with the pass that rode it
CLOSING (R57, R69). -/
def State.struckOff (s : State) (ref : HireRef) : State :=
  match s.hireOf ref with
  | none => s
  | some h =>
    let gone := s.putHires (s.hires.filter (fun h => h.ref != ref))
    match h.hirer with
    | .pass slot serial =>
      match s.pass slot with
      | some p =>
        if p.serial = serial ∧ p.state = .onRide ∧ p.current = some ref then
          gone.putPass slot (some { p with state := .closing })
        else gone
      | none => gone
    | .member _ => gone
    | .crew _ => gone
    | .remote _ => gone

/-! ### Laws of the part -/

/-- R162: when the credit limit is non-zero, the number of SENT records never exceeds it. -/
def State.creditLaw (s : State) : Prop := s.settings.creditLimit = 0 ∨ s.recordsIn .sent ≤ s.settings.creditLimit

/-- R184: at most 4 holding places are held. -/
def State.holdingLaw (s : State) : Prop := s.link.holding.length ≤ Config.holdingPlaces

/-- The lists that blocks fill hold no more than their places: the settle list in both copies, the pending fault list, the
pending van-move list and the directive queue (R102, R131, R152, R170). -/
def State.bounded (s : State) : Prop :=
  s.store.settle.cur.entries.length ≤ Config.settlePlaces ∧ s.store.settle.old.entries.length ≤ Config.settlePlaces ∧
    s.faults.length ≤ Config.faultPlaces ∧ s.van.moves.length ≤ Config.movePlaces ∧
    s.directives.length ≤ Config.directivePlaces

/-- The tables hold one entry for each of their numbers: docks, nodes, strings, runs of unreadable taps, offline timers, and in
both copies pass slots, plans and policies (R1, R17, R46, R61, R116, R125, R127). -/
def State.sized (s : State) : Prop :=
  s.docks.length = 64 ∧ s.nodes.length = 64 ∧ s.strings.length = 4 ∧ s.readerRuns.length = 64 ∧ s.offlineAt.length = 64 ∧
    s.store.passes.cur.slots.length = 32 ∧ s.store.passes.old.slots.length = 32 ∧
    s.store.plans.cur.length = 16 ∧ s.store.plans.old.length = 16 ∧
    s.store.settings.cur.policy.length = 8 ∧ s.store.settings.old.policy.length = 8

/-- R48: the deny list stands in ascending order without repeats and holds at most 1024 ids, in both copies. -/
def State.denyLaw (s : State) : Prop :=
  ∀ l, l = s.store.deny.cur ∨ l = s.store.deny.old → l.Pairwise (· < ·) ∧ l.length ≤ Config.denyPlaces

/-- R70: no pass has been charged more than its hold, in both copies. -/
def State.chargeLaw (s : State) : Prop :=
  ∀ r, r = s.store.passes.cur ∨ r = s.store.passes.old → ∀ p, some p ∈ r.slots → p.charged ≤ p.hold

/-- R49, R51, R56: the open hires and the MEMBER, PASS and REMOTE releases in flight number at most 96 together, and so do the
hires of the older copy. -/
def State.hireLaw (s : State) : Prop :=
  s.hires.length + s.riderReleases ≤ Config.openHirePlaces ∧ s.store.hires.old.length ≤ Config.openHirePlaces

/-- R18: a bike id other than 0 is recorded in at most one dock. -/
def State.bikeLaw (s : State) : Prop :=
  ∀ d e, d ∈ dockNumbers → e ∈ dockNumbers → d ≠ e →
    ∀ b c, (s.dock d).bike = some b → (s.dock e).bike = some c → b.id = c.id → b.id = 0

/-- R23, R156, R159: a release is in flight exactly in TAG_WRITING, UNLOCKING and RELEASE_OPEN; one slot is set aside for each
release that carries a hire reference; no slot is held for a reply between the commands; and the records held and the slots
set aside number at most 256. The open reserve in force, or in the older copy, is never 0 (R159). -/
def State.roomLaw (s : State) : Prop :=
  (∀ x ∈ s.docks, x.release.isSome = true ↔ x.state = .tagWriting ∨ x.state = .unlocking ∨ x.state = .releaseOpen) ∧
    s.setAside = s.hireReleases ∧ s.replySlot = 0 ∧ s.records.length + s.setAside ≤ Config.journalSlots ∧
    s.store.journal.old.records.length ≤ Config.journalSlots ∧
    1 ≤ s.store.settings.cur.settings.openReserve ∧ 1 ≤ s.store.settings.old.settings.openReserve

/-- R157, R158: along the journal the sequence numbers of one epoch rise, and those of the epoch in force stand below the
next sequence number. -/
def State.numberLaw (s : State) : Prop :=
  s.records.Pairwise (fun a b => a.epoch = b.epoch → a.sequence < b.sequence) ∧
    ∀ r ∈ s.records, r.epoch = s.store.epoch.cur.epoch → r.sequence < s.store.journal.cur.next

/-- R62: no two passes of one copy of the table hold one code. -/
def State.codeLaw (s : State) : Prop :=
  ∀ r, r = s.store.passes.cur ∨ r = s.store.passes.old → (r.slots.filterMap (fun p => p.map (fun q => q.code))).Nodup

/-- R49, R50, R52: no hire reference is carried twice by the open hires and the releases in flight, nor by the hires of the
older copy; and the trip image of a release carries the reference of its release. -/
def State.refLaw (s : State) : Prop :=
  (s.hires.map (fun h => h.ref) ++ s.releases.filterMap Release.ref?).Nodup ∧
    (s.store.hires.old.map (fun h => h.ref)).Nodup ∧
    ∀ r ∈ s.releases, ∀ hirer issue ref image, r.party = .hire hirer issue ref image → image.ref = ref

/-- R68: a pass is ON_RIDE exactly with an open hire that names it, as its current hire, and no open hire names a pass in any
other state. A release in flight names a pass that is ISSUED or IDLE (R67), and no two releases name one pass (R65). -/
def State.rideLaw (s : State) : Prop :=
  (∀ h ∈ s.hires, ∀ slot serial, h.hirer = .pass slot serial →
      ∃ p, s.pass slot = some p ∧ p.serial = serial ∧ p.state = .onRide ∧ p.current = some h.ref) ∧
    (∀ slot ∈ slotNumbers, ∀ p, s.pass slot = some p → p.state = .onRide →
      ∃ h ∈ s.hires, h.hirer = .pass slot p.serial ∧ p.current = some h.ref) ∧
    (∀ r ∈ s.releases, ∀ slot serial, r.hirer? = some (.pass slot serial) →
      ∃ p, s.pass slot = some p ∧ p.serial = serial ∧ (p.state = .issued ∨ p.state = .idle)) ∧
    ∀ d ∈ dockNumbers, ∀ e ∈ dockNumbers, d ≠ e → ∀ slot serial r q, (s.dock d).release = some r →
      (s.dock e).release = some q → r.hirer? = some (.pass slot serial) → q.hirer? ≠ some (.pass slot serial)

/-- R18, R102: in a running part no two HELD entries link to one bike, a HELD entry's bike is recorded with its settling mark
set in the dock that the entry names, a settling bike has its HELD entry, and an EMPTY dock holds no bike record. -/
def State.heldLaw (s : State) : Prop :=
  s.power = .running →
    (s.entries.filterMap (fun e => match e.stage with | .held b _ _ => some b | .waiting _ _ _ => none)).Nodup ∧
    (∀ e ∈ s.entries, ∀ b d t, e.stage = .held b d t →
      d ∈ dockNumbers ∧ ∃ x, (s.dock d).bike = some x ∧ x.id = b ∧ x.settling = true) ∧
    (∀ d ∈ dockNumbers, ∀ x, (s.dock d).bike = some x → x.settling = true →
      ∃ e ∈ s.entries, ∃ t, e.stage = .held x.id d t) ∧
    ∀ d ∈ dockNumbers, (s.dock d).state = .empty → (s.dock d).bike = none

/-- R138: a dock is reserved only in a session, for an entry of its manifest and of that entry's kind. In RESERVING and ACTIVE
the docks reserved under an entry number its target less its done count, and in CLOSING never more. In CLOSING only a dock with
a VAN release is reserved (R150, R151); a VAN release stands at a dock with a COLLECT reservation of its entry (R140 to R142);
and a summary waits only in CLOSING with no VAN release (R153). -/
def State.vanLaw (s : State) : Prop :=
  (s.van.phase = .idle → ∀ d ∈ dockNumbers, (s.dock d).reservation = .unreserved) ∧
    (∀ d ∈ dockNumbers, ∀ n,
      ((s.dock d).reservation = .collect n → ∃ m sel, entryAt s.van.manifest n = some m ∧ m.kind = .collect sel) ∧
      ((s.dock d).reservation = .deliver n → ∃ m, entryAt s.van.manifest n = some m ∧ m.kind = .deliver)) ∧
    (∀ n m, entryAt s.van.manifest n = some m →
      (s.van.phase.open = true → (s.reservedFor n).length + m.done = m.target) ∧
      (s.van.phase = .closing → (s.reservedFor n).length + m.done ≤ m.target)) ∧
    (s.van.phase = .closing → ∀ d ∈ dockNumbers, (s.dock d).reservation ≠ .unreserved → d ∈ s.vanReleases) ∧
    (∀ d ∈ dockNumbers, ∀ r crew n, (s.dock d).release = some r → r.party = .van crew n →
      (s.dock d).reservation = .collect n) ∧
    (s.van.summary ≠ none → s.van.phase = .closing ∧ s.vanReleases = [])

/-- The laws of the part together. -/
def State.safe (s : State) : Prop := s.creditLaw ∧ s.holdingLaw ∧ s.bounded ∧ s.sized

/-! ### The room arbiter -/

/-- No close waits in the settle list. -/
def State.noClose (s : State) : Prop := ∀ e ∈ s.entries, e.isHeld = true

/-- No pass is in SETTLING. -/
def State.noSettling (s : State) : Prop := ∀ slot ∈ slotNumbers, ∀ p, s.pass slot = some p → p.state ≠ .settling

/-- The service of a place posts a record: a TARIFF_APPLIED that waits in the sixth place stands in the tariff set (R88, R160). -/
def State.postsIn (s : State) (p : Place) : Prop :=
  p = .sixth → s.sixth.head? = some .tariffApplied → s.tariffs.waiting ≠ none

/-- A directive is the room arbiter's next in a running part: a slot is free, and no place before the directives holds a waiting
record (R160, R171). -/
def State.headDue (s : State) (x : Directive) (rest : List Directive) : Prop :=
  s.power = .running ∧ 0 < s.free ∧ s.noClose ∧ s.noSettling ∧ s.van.moves = [] ∧ s.van.summary = none ∧ s.faults = [] ∧
    s.directives = x :: rest

/-- The state with the DIRECTIVE_REPLY of a directive posted into the slot held for it, and the directive off the queue (R171,
R172). -/
def State.replied (s : State) (x : Directive) (rest : List Directive) (outcome : DirectiveOutcome) (reason : Option Reason)
    (result : DirectiveResult) : State :=
  { ({ s with replySlot := 0 } : State).post (.directiveReply x.id x.kind x.arrival outcome reason result) with
    directives := rest }

/-! ### The rows that act without power -/

/-- The rows that act on a part that is not running: power applied, power lost, and the start-up (R194, R196). -/
def ofPower (i : Instr) : Bool :=
  match i with
  | .powerOn => true
  | .powerLoss _ => true
  | .startUp _ => true
  | _ => false

end Sys2Proof.Machine
end

