-- ==== Sys2Proof/WellFormed.lean ====
section
/-! DEFINITION. The well-formed commands: every operand within what the wire, the dock line or the store can present. `exec` has
a meaning for every command; these are the commands that the surroundings of the part can give. -/

namespace Sys2Proof

/-- A field of `n` bytes. -/
def fits (n v : Nat) : Bool := v < 256 ^ n

/-- A number of the dock table (R17). -/
def dockOk (d : Nat) : Bool := 1 ≤ d && d ≤ 64

/-- An event or command number, 1 to 255 (R4, R10). -/
def numberOk (n : Nat) : Bool := 1 ≤ n && n ≤ 255

/-- A node event as a node can send it. -/
def NodeEvent.wf : NodeEvent → Bool
  | .present image => image.all (fun b => b.length == 24)
  | .removed => true
  | .locked => true
  | .unlocked => true
  | .lockFail _ => true
  | .tap image => image.all (fun b => b.length == 10)
  | .keypad digits => digits.length ≤ 255
  | .faultKey kind => fits 1 kind
  | .census _ there image _ => image.all (fun b => b.length == 24) && (there || image.isNone)

/-- A node reply as a node can send it (R3). -/
def NodeReply.wf (r : NodeReply) : Bool :=
  fits 1 r.address && r.taken.all numberOk && r.event.all (fun e => numberOk e.1 && e.2.wf)

/-- The fields of a PLAN_SET fit their bytes. -/
def PlanArgs.wf (f : PlanArgs) : Bool :=
  fits 1 f.admitted && fits 1 f.freeMinutes && fits 1 f.percent && fits 2 f.unlockFee && fits 2 f.ceiling &&
    fits 1 f.hireLimit

/-- A manifest entry as a body can carry it. -/
def ManifestArg.wf (m : ManifestArg) : Bool := fits 1 m.kind && m.selector.all (fits 1) && fits 1 m.count

/-- The mode of a TARIFF_COMMIT as a body can carry it. -/
def CommitArg.wf : CommitArg → Bool
  | .now => true
  | .at t => fits 4 t
  | .cancel => true
  | .other m => fits 1 m && (m == 0 || 4 ≤ m)

/-- The target of a RIDER_REPORT as a body can carry it. -/
def TargetArg.wf : TargetArg → Bool
  | .dock d => fits 1 d
  | .bike b => fits 4 b
  | .other c => fits 1 c && (c == 0 || 3 ≤ c)

/-- The reporter of a RIDER_REPORT as a body can carry it. -/
def ReporterArg.wf : ReporterArg → Bool
  | .member id => fits 4 id
  | .passSlot slot => fits 1 slot
  | .anonymous => true
  | .other c => fits 1 c && (c == 0 || 4 ≤ c)

/-- A request of the catalogue as a body can carry it (R183, R200). -/
def Request.wf : Request → Bool
  | .statusGet => true
  | .timeSet t => fits 4 t
  | .settingSet n v => fits 1 n && fits 4 v
  | .settingGet n => fits 1 n
  | .reset m => fits 1 m
  | .stringReset l => fits 1 l
  | .dockGet d => fits 1 d
  | .dockList => true
  | .planSet code f => fits 1 code && f.wf
  | .planGet code => fits 1 code
  | .terminalAuth t k h ref => fits 1 t && fits 1 k && fits 2 h && ref.length == 12
  | .passGet slot => fits 1 slot
  | .passCancel slot serial => fits 1 slot && fits 2 serial
  | .tariffStageBand band edge block rate => fits 1 band && edge.all (fits 2) && fits 1 block && fits 2 rate
  | .tariffStageClear => true
  | .tariffCommit mode => mode.wf
  | .tariffGet sel => fits 1 sel
  | .policySet k c n => fits 1 k && fits 1 c && fits 1 n
  | .policyGet k => fits 1 k
  | .riderReport target k source reporter => target.wf && fits 1 k && fits 1 source && reporter.wf
  | .vanOpen van crew manifest => fits 2 van && fits 4 crew && manifest.length < 256 && manifest.all ManifestArg.wf
  | .vanRelease d => fits 1 d
  | .vanClose id => fits 2 id
  | .vanGet => true
  | .journalRead n => fits 1 n
  | .journalAck e q r => fits 2 e && fits 4 q && fits 1 r
  | .journalReoffer => true
  | .linkState v => fits 1 v
  | .directive id k args => fits 4 id && fits 1 k && args.length < 256
  | .badKind _ => false
  | .badLength _ => false

/-- The request of a request row, where the command is one. -/
def Instr.request? : Instr → Option (Nat × Request)
  | .statusGet tag => some (tag, .statusGet)
  | .timeSet tag t => some (tag, .timeSet t)
  | .settingSet tag n v => some (tag, .settingSet n v)
  | .settingGet tag n => some (tag, .settingGet n)
  | .resetWarm tag => some (tag, .reset 1)
  | .resetStore tag => some (tag, .reset 2)
  | .stringReset tag l => some (tag, .stringReset l)
  | .dockGet tag d => some (tag, .dockGet d)
  | .dockList tag => some (tag, .dockList)
  | .planSet tag code f => some (tag, .planSet code f)
  | .planGet tag code => some (tag, .planGet code)
  | .terminalAuth tag t k h ref => some (tag, .terminalAuth t k h ref)
  | .passGet tag slot => some (tag, .passGet slot)
  | .passCancel tag slot serial => some (tag, .passCancel slot serial)
  | .tariffStageBand tag band edge block rate => some (tag, .tariffStageBand band edge block rate)
  | .tariffStageClear tag => some (tag, .tariffStageClear)
  | .tariffCommitNow tag => some (tag, .tariffCommit .now)
  | .tariffCommitAt tag t => some (tag, .tariffCommit (.at t))
  | .tariffCommitCancel tag => some (tag, .tariffCommit .cancel)
  | .tariffGet tag sel => some (tag, .tariffGet sel)
  | .policySet tag k c n => some (tag, .policySet k c n)
  | .policyGet tag k => some (tag, .policyGet k)
  | .riderReport tag target k source reporter => some (tag, .riderReport target k source reporter)
  | .vanOpen tag van crew manifest => some (tag, .vanOpen van crew manifest)
  | .vanRelease tag d => some (tag, .vanRelease d)
  | .vanClose tag id => some (tag, .vanClose id)
  | .vanGet tag => some (tag, .vanGet)
  | .journalRead tag n => some (tag, .journalRead n)
  | .journalAckAccepted tag e q => some (tag, .journalAck e q 1)
  | .journalAckFatal tag e q => some (tag, .journalAck e q 2)
  | .journalAckRetry tag e q => some (tag, .journalAck e q 3)
  | .journalReoffer tag => some (tag, .journalReoffer)
  | .linkStateUp tag => some (tag, .linkState 1)
  | .linkStateDown tag => some (tag, .linkState 2)
  | .directive tag id k args => some (tag, .directive id k args)
  | .powerOn => none
  | .powerLoss _ => none
  | .startUp _ => none
  | .start => none
  | .censusLimitExpiry => none
  | .dockCensus => none
  | .poll _ => none
  | .pollReply _ _ => none
  | .missedPoll _ => none
  | .silenceTimeout _ => none
  | .tagWriteTimeout _ => none
  | .unlockTimeout _ => none
  | .lockTimeout _ => none
  | .releaseWindowExpiry _ => none
  | .relockRetryExpiry _ => none
  | .offlineTimerExpiry _ => none
  | .settleDeadline _ => none
  | .hireClose => none
  | .hireAgeExamination => none
  | .passLimitExamination => none
  | .passExpiry _ => none
  | .passSettle => none
  | .tariffApplyAt => none
  | .tariffApplied => none
  | .clockStep => none
  | .vanIdleTimeout => none
  | .vanMove => none
  | .vanSummary => none
  | .fault => none
  | .frameGapTimeout _ => none
  | .badKind _ _ _ => none
  | .replySent => none
  | .noticeSent => none
  | .bikeSet => none
  | .dockClear => none
  | .remoteRelease => none
  | .denyAdd => none
  | .denyRemove => none
  | .hireClosed => none
  | .passCharge => none
  | .faultSummary => none
  | .directiveCensus => none
  | .discardedFrame _ => none

/-- The operands of a row that is no request. -/
def Instr.eventOk : Instr → Bool
  | .pollReply _ r => r.wf
  | .silenceTimeout d => dockOk d
  | .tagWriteTimeout d => dockOk d
  | .unlockTimeout d => dockOk d
  | .lockTimeout d => dockOk d
  | .releaseWindowExpiry d => dockOk d
  | .relockRetryExpiry d => dockOk d
  | .offlineTimerExpiry d => dockOk d
  | .settleDeadline bike => 1 ≤ bike && bike ≤ 16777215
  | .passExpiry slot => 1 ≤ slot && slot ≤ 32
  | .badKind kind tag body => fits 1 kind && fits 1 tag && body.length ≤ Config.maxBody
  | .discardedFrame bytes => bytes != []
  | _ => true

/-- The check of a command: a request fits its body and its tag a byte, and an event its table. -/
def Instr.wf (i : Instr) : Bool :=
  match i.request? with
  | some (tag, r) => fits 1 tag && r.wf
  | none => i.eventOk

end Sys2Proof
end

