-- ==== Sys2Proof/Certificates/Slice0/Obligations.lean ====
section
/-! DEFINITION. The statements for the provers: what the commands of the NS6140 do, and the laws of the whole part. A statement
of a command gives the whole state that follows, before `finish`, the one operation that follows every command of a running
part; `FinishFrame`, `IndicatorsFollow`, `ReadinessIsNoticed` and `NextFrameIsChosen` say what `finish` does. -/

open Sys2Proof Sys2Proof.Machine

/-! ### The machine -/

/-- A step takes the command at the front of the queue and runs it on the queue's rest. -/
def Obligations.StepTakesFront : Prop :=
  ∀ (c : Instr) (rest : List Instr) (s : State),
    step { s with pending := c :: rest } = exec c { s with pending := rest }

/-- With no command waiting, a step lets one millisecond of the elapsed base of a running part pass, and nothing else (the
model's choice, logs 6 and 23; R192 gives the base). A part without power, or with its start-up due, takes no command but
those of power and the start-up (R190, R194; that the others have no effect is the model's choice, log 5). -/
def Obligations.IdleAndStoppedParts : Prop :=
  (∀ s : State, s.pending = [] →
     (s.power = .running → step s = .next { s with elapsed := s.elapsed + 1 }) ∧
     (s.power ≠ .running → step s = .next s)) ∧
  (∀ (c : Instr) (s : State), s.power ≠ .running → ofPower c = false → exec c s = .next s)

/-- The state after reset is the model's choice, the part after the first start-up with every region damaged (log 1): the
manual names no other state than those after a start-up. What the manual gives the part after that start-up: no name, hire,
pass or entry held, every dock OFFLINE with no bike, a clear attention flag, an IDLE van session with counter 1, an empty
directive queue, an empty link, and START and DOCK_CENSUS in the journal under epoch 1 (R17, R49, R61, R80, R102, R132, R134,
R168, R170, R190, R194, R196, R197). -/
def Obligations.ResetState : Prop :=
  let s := State.reset
  s.power = .running ∧ s.elapsed = 0 ∧ s.clock = .unset ∧ s.stationId = 0 ∧
    s.settings = .default ∧ s.store.settings.cur.policy = Policy.defaults ∧
    s.plans = List.replicate 15 planDefault ++ [planCrew] ∧
    s.tariffs.current = { generation := 1, bands := [{ edge := none, block := 60, rate := 0 }] } ∧
    s.tariffs.previous = none ∧ s.tariffs.staged = List.replicate 8 none ∧ s.tariffs.commit = none ∧
    s.denied = [] ∧ s.store.passes.cur = { slots := List.replicate 32 none, serial := 1 } ∧ s.hires = [] ∧ s.entries = [] ∧
    s.store.settle.cur.lost = 0 ∧ s.store.hireCount.cur = 1 ∧ s.store.epoch.cur = { epoch := 1, stationId := 0 } ∧
    s.records.map (fun r => (bodyKind r.body, r.epoch, r.sequence, r.time, r.state, r.retries)) =
      [(.start, 1, 1, none, .unsent, 3), (.dockCensus, 1, 2, none, .unsent, 3)] ∧
    s.docks = List.replicate 64 (.atStart false) ∧ s.stock = 0 ∧ s.available = 0 ∧ s.setAside = 0 ∧ s.fatal = 0 ∧
    s.backhaul = .up ∧ s.attention = .clear ∧ s.faults = [] ∧ s.faultsDropped = 0 ∧
    s.readerRuns = List.replicate 64 0 ∧ s.offlineAt = List.replicate 64 none ∧ s.van = .idleWith 1 ∧ s.directives = [] ∧
    s.link.receiving = [] ∧ s.link.holding = [] ∧ s.link.noticeNumber = 1 ∧ s.link.lastNotice = none ∧ s.pending = []

/-- The state after reset keeps the laws of the part, among them those of its tables, its room, its codes and references, its
rides, its HELD entries and its reservations (R18, R48, R49, R62, R68, R70, R102, R138, R156 to R159, R162, R184). -/
def Obligations.ResetIsSafe : Prop :=
  State.reset.safe ∧ State.reset.denyLaw ∧ State.reset.chargeLaw ∧ State.reset.hireLaw ∧ State.reset.bikeLaw ∧
    State.reset.roomLaw ∧ State.reset.numberLaw ∧ State.reset.codeLaw ∧ State.reset.refLaw ∧ State.reset.rideLaw ∧
    State.reset.heldLaw ∧ State.reset.vanLaw

/-- Every step keeps the credit law of R162: while the credit limit is not 0, the SENT records do not outnumber it. -/
def Obligations.CreditLawIsKept : Prop :=
  ∀ s t : State, s.creditLaw → step s = .next t → t.creditLaw

/-- Every step keeps the places of the part: 4 holding places, 64 settle entries in each copy, 32 pending faults, 64 pending
van moves and 8 directives, with every table at its full length (R1, R17, R46, R61, R102, R116, R131, R152, R170, R184). It
keeps the laws of the tables: the deny list ascends without repeats and holds at most 1024 ids (R48); no pass has been charged
more than its hold (R70); codes of passes are distinct (R62); a bike id other than 0 is recorded in at most one dock (R18);
open hires and MEMBER, PASS and REMOTE releases number at most 96 (R49, R51, R56), and no hire reference stands twice among
open hires and releases (R49, R50). It keeps the room of the journal: a release is in flight exactly in TAG_WRITING, UNLOCKING
and RELEASE_OPEN, each with a hire reference has its slot set aside, and records and slots set aside number at most 256 (R23,
R156, R159). At most one HELD entry links to a bike, which is settling in its dock (R18, R102). A reservation names an entry
of the session, and an entry's reserved docks number its target less its done count (R138).
A pass is ON_RIDE exactly with the one open hire that names it (R68); a start-up keeps that too where it takes the newer copy
of passes and of hires, or finds the region damaged. And the sequence numbers rise along the journal, where a command comes so
far from 4,294,967,295 that the numbering does not restart: a command that does not act on the power keeps that law, and every
command leaves it in force where it holds of both copies of the journal under the epochs of both copies, one of which a
start-up may take (R157, R158, R194). -/
def Obligations.PlacesAreKept : Prop :=
  (∀ s t : State, s.holdingLaw ∧ s.bounded ∧ s.sized → step s = .next t → t.holdingLaw ∧ t.bounded ∧ t.sized) ∧
  (∀ s t : State, s.denyLaw → step s = .next t → t.denyLaw) ∧
  (∀ s t : State, s.chargeLaw → step s = .next t → t.chargeLaw) ∧
  (∀ s t : State, s.bikeLaw → step s = .next t → t.bikeLaw) ∧
  (∀ s t : State, s.hireLaw → step s = .next t → t.hireLaw) ∧
  (∀ s t : State, s.roomLaw → step s = .next t → t.roomLaw) ∧
  (∀ s t : State, s.codeLaw → step s = .next t → t.codeLaw) ∧
  (∀ s t : State, s.sized → s.hireLaw → s.refLaw → step s = .next t → t.refLaw) ∧
  (∀ s t : State, s.sized → s.bounded → s.heldLaw → step s = .next t → t.heldLaw) ∧
  (∀ s t : State, s.sized → s.vanLaw → step s = .next t → t.vanLaw) ∧
  (∀ (c : Instr) (s t : State), s.sized → s.hireLaw → s.refLaw → s.rideLaw →
     (∀ cause failing, c = .startUp failing → s.power = .startDue cause →
       let store := if cause = .store then s.store else failing.foldl Store.spoil s.store
       (store.passes.curSound = true ∨ store.passes.isDamaged = true) ∧
         (store.hires.curSound = true ∨ store.hires.isDamaged = true)) →
     exec c s = .next t → t.rideLaw) ∧
  (∀ (c : Instr) (s t : State), ofPower c = false → s.numberLaw → s.store.journal.cur.next ≤ 4294966000 →
     exec c s = .next t → t.records.length ≤ 256 → t.numberLaw) ∧
  (∀ (c : Instr) (s t : State),
     (∀ j, j = s.store.journal.cur ∨ j = s.store.journal.old → j.next ≤ 4294966000 ∧
       j.records.Pairwise (fun a b => a.epoch = b.epoch → a.sequence < b.sequence) ∧
       ∀ e, e = s.store.epoch.cur.epoch ∨ e = s.store.epoch.old.epoch →
         ∀ r ∈ j.records, r.epoch = e → r.sequence < j.next) →
     exec c s = .next t → t.records.length ≤ 256 → t.numberLaw)

/-- A command of a running part other than NOTICE_SENT loses no pending mark, and sets the mark of a notice whose matter it
changes: DOCK_STATE where a dock's state or what it adds to the counts changes (R20), PASS_STATE where a slot changes state
(R76), ATTENTION where the flag or its causes change (R126), and VAN_STATE where the session's state, its id, a target or a
done count, or a dock's reservation changes (R136, R139, R150). -/
def Obligations.ChangesAreNoticed : Prop :=
  ∀ (c : Instr) (s t : State), ofPower c = false → c ≠ .noticeSent → s.sized → s.power = .running →
    exec c s = .next t → t.power = .running →
    (∀ k, s.link.marks.has k = true → t.link.marks.has k = true) ∧
    (t.docks.map Dock.share ≠ s.docks.map Dock.share → t.link.marks.dockState = true) ∧
    (t.store.passes.cur.slots.map (fun p => p.map (fun q => q.state)) ≠
        s.store.passes.cur.slots.map (fun p => p.map (fun q => q.state)) → t.link.marks.passState = true) ∧
    (t.attention ≠ s.attention → t.link.marks.attention = true) ∧
    ((t.van.phase, t.van.session, t.van.manifest) ≠ (s.van.phase, s.van.session, s.van.manifest) →
      t.link.marks.vanState = true) ∧
    (t.docks.map (fun x => x.reservation) ≠ s.docks.map (fun x => x.reservation) → t.link.marks.vanState = true)

/-- A command of a running part other than NOTICE_SENT raises JOURNAL_READY where it leaves the journal ready with its
readiness or the number of UNSENT records changed, where readiness ends, and where the number of PARKED records changes
(R167). -/
def Obligations.ReadinessIsNoticed : Prop :=
  ∀ (c : Instr) (s t : State), ofPower c = false → c ≠ .noticeSent → s.power = .running →
    exec c s = .next t → t.power = .running →
    ((t.journalReady = true ∧ (s.journalReady = false ∨ s.recordsIn .unsent ≠ t.recordsIn .unsent)) ∨
      (s.journalReady = true ∧ t.journalReady = false) ∨ s.recordsIn .parked ≠ t.recordsIn .parked) →
    t.link.marks.journalReady = true

/-- After every command of a running part, the indication issued last at each configured dock that is not OFFLINE is the
dock's resting indication: FAULT at a locked-out dock or in a release begun from one; else RELEASE in RELEASE_OPEN; else
RESERVED under a reservation; else READY or FAULT at an OCCUPIED dock by its bike's condition; else OFF. Where it is another
one than the indication issued last, SHOW with it is placed in the command list of an ANSWERING node: the waiting SHOW of
before goes, the new one stands last, and it becomes current at once where no command is (R9, R10, R22). Every command ends
so, by what `finish` does. -/
def Obligations.IndicatorsFollow : Prop :=
  let resting := fun (x : Dock) =>
    if x.state = .lockedOut ∨ x.release.any (fun r => r.origin == .lockedOut) then Indication.fault
    else if x.state = .releaseOpen then .release
    else if x.reservation ≠ .unreserved then .reserved
    else if x.state = .occupied then (if x.holds .available then .ready else .fault)
    else .off
  (∀ (c : Instr) (s t : State), ofPower c = false → s.power = .running → exec c s = .next t → t.power = .running →
     (∀ d ∈ dockNumbers, (t.dock d).configured = true → (t.dock d).state ≠ .offline →
       (t.dock d).shown = some (resting (t.dock d))) ∧
     ∃ u : State, u.power = .running ∧ t = u.finish s) ∧
  (∀ (d : Nat) (s before : State), d ∈ dockNumbers → (s.dock d).configured = true → (s.dock d).state ≠ .offline →
     (s.dock d).shown ≠ some (resting (s.dock d)) →
     (s.finish before).dock d = { s.dock d with shown := some (resting (s.dock d)) } ∧
     ((s.node d).phase ≠ .answering → (s.finish before).node d = s.node d) ∧
     ((s.node d).phase = .answering →
       let others := (s.node d).waiting.filter (fun w => match w with | .show _ => false | _ => true)
       let show' := Command.show (resting (s.dock d))
       (∀ c, (s.node d).current = some c →
         (s.finish before).node d = { s.node d with waiting := others ++ [show'] }) ∧
       ((s.node d).current = none → others = [] →
         (s.finish before).node d = { s.node d with
           current := some
             { command := show', number := (s.node d).counter, carried := false, deadline := none, acknowledged := false
               unanswered := 0 }
           waiting := [], counter := if 255 ≤ (s.node d).counter then 1 else (s.node d).counter + 1 })))

/-- What follows every command changes nothing but the command list of nodes, the indications issued, the mark JOURNAL_READY
and the choice of the next frame; and it leaves the node of a dock alone that is not configured, is OFFLINE, or already shows
its resting indication (R22, R167, R188). -/
def Obligations.FinishFrame : Prop :=
  ∀ s before : State,
    (s.finish before).steady = s.steady ∧
    (∀ k, k ≠ .journalReady → (s.finish before).link.marks.has k = s.link.marks.has k) ∧
    (∀ d ∈ dockNumbers, (s.dock d).configured = false ∨ (s.dock d).state = .offline ∨
        (s.dock d).shown = some (s.dock d).resting →
      (s.finish before).node d = s.node d ∧ (s.finish before).dock d = s.dock d)

/-- Where the outgoing direction is free, what follows a command begins the next frame: a waiting BUSY reply first; then a
ready reply if the last frame was a notice; then the pending notice; then a ready reply; and none where nothing waits. A
frame being sent goes on, but for a reply that a BUSY reply raised before REPLY_SENT goes ahead of, as in 11.8 (R184, R188;
that the reply then counts as not yet begun is the model's reading, log 19). -/
def Obligations.NextFrameIsChosen : Prop :=
  ∀ s before : State,
    (s.link.sending ≠ none → s.link.sending ≠ some .reply ∨ s.link.busy = [] →
      (s.finish before).link.sending = s.link.sending) ∧
    (s.link.sending = some .reply → s.link.busy ≠ [] → (s.finish before).link.sending = some .busyReply) ∧
    (s.link.sending = none →
      let t := s.finish before
      (t.link.busy ≠ [] → t.link.sending = some .busyReply) ∧
      (t.link.busy = [] → ∀ h rest, t.link.holding = h :: rest → h.reply.isSome = true →
        (∃ n v, t.link.lastFrame = some (.notice n v)) ∨ t.link.marks = .none → t.link.sending = some .reply) ∧
      (t.link.busy = [] → t.link.marks ≠ .none →
        (∀ h rest, t.link.holding = h :: rest → h.reply = none) ∨ (∀ n v, t.link.lastFrame ≠ some (.notice n v)) →
        t.link.sending = some .notice) ∧
      (t.link.busy = [] → t.link.marks = .none → (∀ h rest, t.link.holding = h :: rest → h.reply = none) →
        t.link.sending = none))

/-! ### Layouts -/

/-- Every well-formed request is read back from its kind number and its body (11.5, R183, R200). -/
def Obligations.RequestBodiesReadBack : Prop :=
  ∀ r : Request, r.wf = true → requestOfBody (requestKind r) (requestBody r) = some r

/-- A card image and a tag image are read back from their layouts (13.2, 13.3). A frame is found where it starts, whole and
with what it carries, and the search goes on after it (13.1, R182). -/
def Obligations.ImagesAndFrames : Prop :=
  ((∀ c : CardImage, 1 ≤ c.member → c.member ≤ 99999999 → c.plan ≤ 15 → c.expiryDay < 65536 → c.issue < 256 →
     cardImage (cardBytes c) = some c) ∧
   (∀ b : Nat, 1 ≤ b → b ≤ 16777215 → tagImage (tagBytes (.idle b)) = some (.idle b)) ∧
   (∀ i : TripImage, 1 ≤ i.bikeId → i.bikeId ≤ 16777215 → i.ref.station < 65536 → i.ref.count ≤ 16777215 →
     (match i.hirer with
       | .pass slot serial => slot < 256 ∧ serial < 65536
       | .member id => id < 4294967296
       | .crew id => id < 4294967296
       | .remote id => id < 4294967296) →
     i.start ≤ Config.maxTime → i.plan < 256 → i.generation < 256 → i.credit < 65536 →
     tagImage (tagBytes (.onHire i)) = some (.onHire i))) ∧
  (∀ (gap : Bool) (kind tag fuel : Nat) (body rest : List Byte), kind < 256 → tag < 256 → body.length ≤ Config.maxBody →
     receive gap (fuel + 1) (frameBytes kind tag body ++ rest) =
       ((kind, tag, body) :: (receive gap fuel rest).1, (receive gap fuel rest).2))

/-! ### Pricing (chapter 5) -/

/-- Stage 2: the duration is the return time less the start, 0 with CLOCK_SKEW where the return is before the start, and
604,800 with OVERLONG beyond that; the two flags never stand together (R93). -/
def Obligations.DurationStage : Prop :=
  ∀ (t : TariffSet) (p : Plan) (i : TripImage) (dock e extra : Nat),
    let c := priceTrip t p i dock e extra
    (i.start ≤ e → e - i.start ≤ 604800 →
      c.duration = some (e - i.start) ∧ c.flags.clockSkew = false ∧ c.flags.overlong = false) ∧
    (e < i.start → c.duration = some 0 ∧ c.flags.clockSkew = true ∧ c.flags.overlong = false) ∧
    (604800 < e - i.start → c.duration = some 604800 ∧ c.flags.overlong = true ∧ c.flags.clockSkew = false)

/-- Stages 3 and 4: the minutes are the duration divided by 60, rounded up, at most 10,080; the chargeable minutes are those
beyond the free minutes, and the bands are measured in them (R94). -/
def Obligations.MinutesStages : Prop :=
  ∀ (t : TariffSet) (p : Plan) (i : TripImage) (dock e extra : Nat),
    let c := priceTrip t p i dock e extra
    ∃ d m, c.duration = some d ∧ c.minutes = some m ∧ d ≤ 60 * m ∧ 60 * m < d + 60 ∧ m ≤ 10080 ∧
      (d = 0 → m = 0) ∧ (1 ≤ d → d ≤ 60 → m = 1) ∧
      c.chargeable = some (if p.freeMinutes < m then m - p.freeMinutes else 0) ∧
      c.base = c.chargeable.map (fun n => bandsCharge n 0 (t.tableFor i.generation).1.bands)

/-- Staged passes validation exactly where the positions up to the highest filled one are filled, every band but the last has
an edge, the edges rise, and the last band is UNBOUNDED (R83). The bands of a table that passes validation part the
chargeable minutes: with one unit a minute in every band the base charge is the chargeable minutes (R79, R95). -/
def Obligations.ValidTables : Prop :=
  (∀ staged : List (Option Band),
     validateStaged staged = none ↔
       ∃ (bounded : List Band) (last : Band) (n : Nat),
         staged = (bounded ++ [last]).map some ++ List.replicate n none ∧ last.edge = none ∧
         (∀ b ∈ bounded, b.edge ≠ none) ∧ (bounded.filterMap (fun b => b.edge)).Pairwise (· < ·)) ∧
  (∀ (edges : List Nat) (c : Nat), edges.Pairwise (· < ·) → (∀ e ∈ edges, 0 < e) →
     bandsCharge c 0 (edges.map (fun e => { edge := some e, block := 1, rate := 1 }) ++
       [{ edge := none, block := 1, rate := 1 }]) = c)

/-- Stage 5: in one band, each block begun is charged whole. In a table of several bands the base charge is the sum of the
bands' charges, each the blocks begun by the chargeable minutes between the band's edges, blocks starting afresh at its lower
edge; and with rising edges and no rate above 5000 cents it is at most 5000 cents a minute. The table is current, previous, or
current with TARIFF_STALE, by the generation on the tag (R79, R95). -/
def Obligations.TableStage : Prop :=
  (∀ (bounded : List Band) (last : Band) (c : Nat), last.edge = none → (∀ b ∈ bounded, b.edge ≠ none) →
    (∀ b ∈ bounded ++ [last], 0 < b.block) →
    let edges := bounded.filterMap (fun b => b.edge)
    let lower := fun (i : Nat) => if i = 0 then 0 else edges.getD (i - 1) 0
    let minutes := fun (i : Nat) =>
      if lower i < c then (match edges[i]? with | some upper => min c upper | none => c) - lower i else 0
    bandsCharge c 0 (bounded ++ [last]) =
        ((bounded ++ [last]).zipIdx.map (fun b => (minutes b.2 + b.1.block - 1) / b.1.block * b.1.rate)).sum ∧
      (edges.Pairwise (· < ·) → (∀ e ∈ edges, 0 < e) → (∀ b ∈ bounded ++ [last], b.rate ≤ 5000) →
        bandsCharge c 0 (bounded ++ [last]) ≤ 5000 * c)) ∧
  (∀ block rate c : Nat, 0 < block →
    ∃ n, bandsCharge c 0 [{ edge := none, block := block, rate := rate }] = n * rate ∧ c ≤ n * block ∧
      n * block < c + block) ∧
  (∀ (t : TariffSet) (p : Plan) (i : TripImage) (dock e extra : Nat),
    let c := priceTrip t p i dock e extra
    c.tagGeneration = i.generation ∧
    (i.generation = t.current.generation →
      c.usedGeneration = some t.current.generation ∧ c.flags.tariffStale = false) ∧
    (i.generation ≠ t.current.generation → ∀ q, t.previous = some q → i.generation = q.generation →
      t.tableFor i.generation = (q, false) ∧ c.usedGeneration = some q.generation ∧ c.flags.tariffStale = false) ∧
    (i.generation ≠ t.current.generation → (∀ q, t.previous = some q → i.generation ≠ q.generation) →
      t.tableFor i.generation = (t.current, true) ∧ c.usedGeneration = some t.current.generation ∧
        c.flags.tariffStale = true))

/-- Stage 6: the percent of the plan with rounding half up: 100 leaves the base charge, 0 gives 0 and 200 doubles it, up to
100,800,000; 408.5 gives 409 only if the sum reaches 40,900 (R96). -/
def Obligations.PercentStage : Prop :=
  ∀ (t : TariffSet) (p : Plan) (i : TripImage) (dock e extra : Nat),
    let c := priceTrip t p i dock e extra
    ∃ g g', c.base = some g ∧ c.afterPercent = some g' ∧ g' = (g * p.percent + 50) / 100 ∧
      (p.percent = 100 → g' = g) ∧ (p.percent = 0 → g' = 0) ∧ (p.percent = 200 → g' = 2 * g) ∧
      (p.percent ≤ 200 → g ≤ 50400000 → g' ≤ 100800000) ∧
      (g * p.percent = 40800 → g' = 408) ∧ (g * p.percent = 40850 → g' = 409)

/-- Stages 7 and 8: the unlock fee is added, the credits taken off, and the fare bounded by the ceiling and by 65,535; a
charge beyond that is SATURATED (R97, R98). Stage 1: a return with the clock UNSET is DEFERRED and one under plan 15 is a
crew return, both with fare 0 and no stage run; another is priced under its plan with the return credit where it is eligible;
and no fare exceeds the ceiling of its plan (R92, R98). A release credit above 1000, which 13.3 does not
admit, is credited whole, which is the model's choice (log 24). -/
def Obligations.CreditsAndTheFare : Prop :=
  (∀ (t : TariffSet) (p : Plan) (i : TripImage) (dock e extra : Nat),
     let c := priceTrip t p i dock e extra
     c.releaseCredit = i.credit ∧ c.returnCredit = some extra ∧
     ∃ g' h', c.afterPercent = some g' ∧ c.afterCredits = some h' ∧
       c.creditApplied = some (min (i.credit + extra) (g' + p.unlockFee)) ∧
       h' + min (i.credit + extra) (g' + p.unlockFee) = g' + p.unlockFee ∧
       c.fare ≤ h' ∧ c.fare ≤ p.ceiling ∧ c.fare ≤ 65535 ∧ (c.fare = h' ∨ c.fare = p.ceiling ∨ c.fare = 65535) ∧
       (c.flags.saturated = true ↔ 65535 < h')) ∧
  (∀ (t : TariffSet) (plans : List Plan) (credit : Nat) (i : TripImage) (dock : Nat) (eligible startup : Bool),
     ((priceReturn t plans credit i dock none eligible startup).fare = 0 ∧
       (priceReturn t plans credit i dock none eligible startup).duration = none ∧
       (priceReturn t plans credit i dock none eligible startup).returned = none ∧
       (priceReturn t plans credit i dock none eligible startup).flags =
         { deferred := true, startupReturn := startup, clockSkew := false, overlong := false, tariffStale := false
           saturated := false }) ∧
     ∀ e : Nat,
       (i.plan = 15 →
         (priceReturn t plans credit i dock (some e) eligible startup).fare = 0 ∧
         (priceReturn t plans credit i dock (some e) eligible startup).duration = none ∧
         (priceReturn t plans credit i dock (some e) eligible startup).returned = some e ∧
         (priceReturn t plans credit i dock (some e) eligible startup).flags.deferred = false) ∧
       (∀ p, i.plan ≠ 15 → plans[i.plan]? = some p →
         priceReturn t plans credit i dock (some e) eligible startup =
             priceTrip t p i dock e (if eligible then credit else 0) ∧
           (priceReturn t plans credit i dock (some e) eligible startup).fare ≤ p.ceiling ∧
           (priceReturn t plans credit i dock (some e) eligible startup).fare ≤ 65535))

/-! ### Requests: taking, waiting and reading -/

/-- A request that finds other requests held waits in the next place, and with all 4 places held it is answered BUSY by kind
and tag and has no other effect (R184). A frame unfinished before it is discarded, and a whole frame in the bytes of that one
takes its place first, which is the model's reading of a request row (R182, log 19). -/
def Obligations.RequestsWait : Prop :=
  ∀ (i : Instr) (tag : Nat) (r : Request) (s : State), i.request? = some (tag, r) → s.power = .running →
    (s.link.buried = [] →
      (s.link.holding ≠ [] → s.link.holding.length < 4 →
        exec i s = .next (({ s with link := { s.link with
          receiving := [], holding := s.link.holding ++ [{ tag := tag, request := r, reply := none }] } } : State).finish s)) ∧
      (4 ≤ s.link.holding.length →
        exec i s = .next (({ s with link := { s.link with
          receiving := [], busy := s.link.busy ++ [(requestKind r, tag)] } } : State).finish s))) ∧
    (∀ kind tag' body, s.link.buried = [(kind, tag', body)] → s.link.holding ≠ [] → s.link.holding.length < 3 →
      exec i s = .next (({ s with link := { s.link with
        receiving := []
        holding := s.link.holding ++ [{ tag := tag', request := requestOfFrame kind body, reply := none },
          { tag := tag, request := r, reply := none }] } } : State).finish s))

/-- The requests that only read: the reply is made from the state as it stands, and nothing else changes (R44, R47, R76, R89,
R116, R154, R189, R195). -/
def Obligations.ReadsChangeNothing : Prop :=
  ∀ (tag : Nat) (s : State), s.ready → s.sized →
    exec (.statusGet tag) s = .next ((s.answered tag .statusGet
      { status := .ok
        result := .status
          { stationId := s.stationId, counts := s.strings.map (fun l => l.count), time := s.now, docks := s.dockCounts
            denied := s.denied.length, openHires := s.hires.length, passes := s.passCounts
            generation := s.tariffs.current.generation, commitPending := s.tariffs.commit.isSome
            heldEntries := s.entries.countP SettleEntry.isHeld, waitingEntries := s.entries.countP SettleEntry.isWaiting
            lostCloses := s.store.settle.cur.lost, attention := s.attention, pendingFaults := s.faults.length
            droppedFaults := s.faultsDropped, vanPhase := s.van.phase, session := s.van.session
            journal := s.journalSummary, directives := s.directives.length, headWaiting := s.directives != []
            placesHeld := 1, marks := s.link.marks } }).finish s) ∧
    (∀ n, exec (.settingGet tag n) s = .next ((s.answered tag (.settingGet n)
      (if n = 22 then { status := .ok, result := .settings (settingNames.map s.readSetting) }
       else match settingOf n with
        | some x => { status := .ok, result := .settings [(x, s.inForce x, if x.atStart then some (s.stored x) else none)] }
        | none => { status := .outOfRange, result := .field .setting })).finish s)) ∧
    (∀ d, exec (.dockGet tag d) s = .next ((s.answered tag (.dockGet d)
      (if 1 ≤ d ∧ d ≤ 64 then
        { status := .ok
          result := .dock
            { dock := d, configured := (s.dock d).configured, state := (s.dock d).state, lock := (s.dock d).lock
              counter := (s.dock d).counter, reservation := (s.dock d).reservation
              release := (s.dock d).release.map (fun r => (r.party, r.origin)), bike := (s.dock d).bike } }
       else { status := .outOfRange, result := .field .dock })).finish s)) ∧
    exec (.dockList tag) s = .next ((s.answered tag .dockList
      { status := .ok
        result := .docks s.stock s.available (s.docks.map (fun x =>
          { state := x.state, bikeId := x.bike.map (fun b => b.id), condition := x.bike.map (fun b => b.condition)
            reservation := x.reservation })) }).finish s) ∧
    (∀ code, exec (.planGet tag code) s = .next ((s.answered tag (.planGet code)
      (match s.plans[code]? with
        | some p => { status := .ok, result := .plan p }
        | none => { status := .outOfRange, result := .field .code })).finish s)) ∧
    (∀ slot, exec (.passGet tag slot) s = .next ((s.answered tag (.passGet slot)
      (if 1 ≤ slot ∧ slot ≤ 32 then
        match s.pass slot with
        | none => { status := .ok, result := .passFree }
        | some p => { status := .ok, result := .pass p (p.hold - p.charged) (s.passInFlight slot p.serial) }
       else { status := .outOfRange, result := .field .slot })).finish s)) ∧
    (∀ n, exec (.tariffGet tag n) s = .next ((s.answered tag (.tariffGet n)
      (if n = 1 then { status := .ok, result := .tariff s.tariffs.summary s.tariffs.current.bands }
       else if n = 2 then
        { status := .ok
          result := .tariff s.tariffs.summary (match s.tariffs.previous with | some q => q.bands | none => []) }
       else if n = 3 then { status := .ok, result := .staged s.tariffs.summary s.tariffs.staged }
       else { status := .outOfRange, result := .field .selector })).finish s)) ∧
    (∀ k, exec (.policyGet tag k) s = .next ((s.answered tag (.policyGet k)
      (if k = 9 then { status := .ok, result := .policies s.store.settings.cur.policy }
       else match entryAt s.store.settings.cur.policy k with
        | some p => { status := .ok, result := .policies [p] }
        | none => { status := .outOfRange, result := .field .kind })).finish s)) ∧
    exec (.vanGet tag) s = .next ((s.answered tag .vanGet
      (if s.van.phase = .idle then { status := .ok, result := .vanIdle s.van.counter }
       else { status := .ok, result := .vanDetail s.vanDetail })).finish s)

/-! ### Clock, settings and store -/

/-- TIME_SET where no deadline of the scheme-time column is due at the new time: the clock is SET, a change of more than 300
s is a CLOCK_STEP, which is posted or waits in the sixth place, and the reply carries the time before, the time set and
whether it was a step; a time of 0 or above 4,294,967,295 is OUT_OF_RANGE (R193). Deadlines due at the new time are taken in
the same step, after the CLOCK_STEP: the pass expiries, the 48-hour limit, the hire age limit and the pending commit, in that
order, which is the model's reading (log 21). A pass expiry, a hire at its age or a pending commit that alone is due, at a
first setting with a slot free: PASS_SETTLE, HIRE_EXPIRED or TARIFF_APPLIED is posted, and the pass, the hire or the commit is
gone (R58, R72, R86 to R88, R193). -/
def Obligations.TimeSetResult : Prop :=
  ∀ (tag t : Nat) (s : State), s.ready →
    (t = 0 ∨ 4294967295 < t →
      exec (.timeSet tag t) s =
        .next ((s.answered tag (.timeSet t) { status := .outOfRange, result := .field .time }).finish s)) ∧
    (1 ≤ t → t ≤ 4294967295 → (∀ slot p, s.pass slot = some p → t < p.expiry) →
      (∀ h ∈ s.hires, h.pastAge s.settings.hireAgeLimit t = false) → (∀ a, s.tariffs.commit = some a → t < a) →
      let set : State := { s with clock := .running t s.elapsed }
      (s.now = none →
        exec (.timeSet tag t) s = .next ((set.answered tag (.timeSet t)
          { status := .ok, result := .timeSet none t false }).finish s)) ∧
      (∀ b, s.now = some b → t ≤ b + 300 → b ≤ t + 300 →
        exec (.timeSet tag t) s = .next ((set.answered tag (.timeSet t)
          { status := .ok, result := .timeSet (some b) t false }).finish s)) ∧
      (∀ b, s.now = some b → b + 300 < t ∨ t + 300 < b → 0 < s.free → s.sixth = [] →
        exec (.timeSet tag t) s = .next (((set.post (.clockStep b t)).answered tag (.timeSet t)
          { status := .ok, result := .timeSet (some b) t true }).finish s)) ∧
      (∀ b, s.now = some b → b + 300 < t ∨ t + 300 < b → s.free = 0 ∨ s.sixth ≠ [] →
        exec (.timeSet tag t) s = .next ((({ set with sixth := s.sixth ++ [.clockStep b t] } : State).answered tag (.timeSet t)
          { status := .ok, result := .timeSet (some b) t true }).finish s))) ∧
    (1 ≤ t → t ≤ 4294967295 →
      let set : State := { s with clock := .running t s.elapsed }
      let gives := fun (u : State) (step : Bool) =>
        exec (.timeSet tag t) s = .next ((u.answered tag (.timeSet t)
          { status := .ok, result := .timeSet s.now t step }).finish s)
      let due := fun (u : State) => (((slotNumbers.foldl State.takeExpiry u).examinePasses).examineHires).applyAt
      (∀ b, s.now = some b → b + 300 < t ∨ t + 300 < b →
        gives (due (if s.free = 0 ∨ s.sixth ≠ [] then { set with sixth := s.sixth ++ [.clockStep b t] }
          else set.post (.clockStep b t))) true) ∧
      (s.now = none ∨ (∃ b, s.now = some b ∧ t ≤ b + 300 ∧ b ≤ t + 300) → gives (due set) false) ∧
      (s.now = none → 0 < s.free →
        (∀ slot p, slot ∈ slotNumbers → s.pass slot = some p → p.state = .issued ∨ p.state = .idle → p.expiry ≤ t →
          s.passInFlight slot p.serial = false →
          (∀ other q, other ≠ slot → s.pass other = some q → t < q.expiry) →
          (∀ h ∈ s.hires, h.pastAge s.settings.hireAgeLimit t = false) → (∀ a, s.tariffs.commit = some a → t < a) →
          let q : Pass := { p with state := .settling }
          gives (((set.putPass slot (some q)).post (.passSettle slot q)).putPass slot none) false) ∧
        (∀ before (h : OpenHire) after, s.hires = before ++ h :: after → h.pastAge s.settings.hireAgeLimit t = true →
          (∀ g ∈ before ++ after, g.ref ≠ h.ref ∧ g.pastAge s.settings.hireAgeLimit t = false) →
          (∀ slot p, s.pass slot = some p → t < p.expiry) → (∀ a, s.tariffs.commit = some a → t < a) →
          gives ((set.putHires (before ++ after)).post (.hireExpired h .age)) false) ∧
        (∀ a, s.tariffs.commit = some a → a ≤ t → s.sixth = [] → (∀ slot p, s.pass slot = some p → t < p.expiry) →
          (∀ h ∈ s.hires, h.pastAge s.settings.hireAgeLimit t = false) →
          let table : Tariff :=
            { generation := if 255 ≤ s.tariffs.current.generation then 1 else s.tariffs.current.generation + 1
              bands := s.tariffs.staged.filterMap id }
          gives ((set.putTariffs
              { current := table, previous := some s.tariffs.current, staged := List.replicate 8 none, commit := none
                waiting := s.tariffs.waiting }).post (.tariffApplied
              { newGeneration := table.generation, oldGeneration := s.tariffs.current.generation, requested := some a
                applied := some t, bands := table.bands })) false)))

/-- SETTING_SET: a value is clamped to the nearer end of its range and written; a setting of the first two rows is
PENDING_RESTART; fill marks that would cross are CONFLICT, and a credit limit below the SENT records is BUSY (R162, R195). A
setting written is the setting stored; every other setting stands as it stood, and so does the part but for the settings
region or, for the station id, the epoch region; a setting of the first two rows stays in force as it was (R195). -/
def Obligations.SettingSetResult : Prop :=
  (∀ (tag n v : Nat) (s : State), s.ready →
     (n = 0 ∨ 21 < n →
       exec (.settingSet tag n v) s =
         .next ((s.answered tag (.settingSet n v) { status := .outOfRange, result := .field .setting }).finish s)) ∧
     (∀ x, settingOf n = some x →
       let w := if v < x.range.1 then x.range.1 else if x.range.2 < v then x.range.2 else v
       (x = .lowMark → s.settings.highMark ≤ w →
         exec (.settingSet tag n v) s = .next ((s.answered tag (.settingSet n v) { status := .conflict, result := .empty }).finish s)) ∧
       (x = .highMark → w ≤ s.settings.lowMark →
         exec (.settingSet tag n v) s = .next ((s.answered tag (.settingSet n v) { status := .conflict, result := .empty }).finish s)) ∧
       (x = .creditLimit → w ≠ 0 → w < s.recordsIn .sent →
         exec (.settingSet tag n v) s = .next ((s.answered tag (.settingSet n v) { status := .busy, result := .empty }).finish s)) ∧
       ((x = .lowMark → w < s.settings.highMark) → (x = .highMark → s.settings.lowMark < w) →
         (x = .creditLimit → w = 0 ∨ s.recordsIn .sent ≤ w) →
         exec (.settingSet tag n v) s = .next (((s.writeSetting x w).answered tag (.settingSet n v)
           (if x = .stationId ∨ x = .countA ∨ x = .countB ∨ x = .countC ∨ x = .countD then
             { status := .pendingRestart, result := .value w }
            else if v = w then { status := .ok, result := .empty }
            else { status := .okClamped, result := .value w })).finish s)))) ∧
  (∀ (x y : SettingName) (v : Nat) (s : State),
     (s.writeSetting x v).stored x = v ∧ (y ≠ x → (s.writeSetting x v).stored y = s.stored y) ∧
     (x.atStart = true → (s.writeSetting x v).inForce x = s.inForce x) ∧
     (x.atStart = false → (s.writeSetting x v).inForce x = v) ∧
     (s.writeSetting x v).store.settings.cur.policy = s.store.settings.cur.policy ∧
     (s.writeSetting x v).store.epoch.cur.epoch = s.store.epoch.cur.epoch ∧
     ({ s.writeSetting x v with store := { (s.writeSetting x v).store with
         settings := s.store.settings, epoch := s.store.epoch } } : State) = s)

/-- RESET WARM is accepted; RESET STORE is NOT_EMPTY while a journal record, an open hire, a settle entry or a pass is held,
and else writes every region to its defaults but for the epoch, the station id and the next sequence number. The part goes on
until the reply has been sent (R190, R198). -/
def Obligations.ResetResult : Prop :=
  ∀ (tag : Nat) (s : State), s.ready →
    exec (.resetWarm tag) s = .next ((s.answered tag (.reset 1) { status := .ok, result := .empty }).finish s) ∧
    (s.records ≠ [] → exec (.resetStore tag) s =
      .next ((s.answered tag (.reset 2) { status := .notEmpty, result := .notEmpty .journal }).finish s)) ∧
    (s.records = [] → s.hires ≠ [] → exec (.resetStore tag) s =
      .next ((s.answered tag (.reset 2) { status := .notEmpty, result := .notEmpty .openHires }).finish s)) ∧
    (s.records = [] → s.hires = [] → s.entries ≠ [] → exec (.resetStore tag) s =
      .next ((s.answered tag (.reset 2) { status := .notEmpty, result := .notEmpty .settle }).finish s)) ∧
    (s.records = [] → s.hires = [] → s.entries = [] → (∃ p ∈ s.store.passes.cur.slots, p ≠ none) →
      exec (.resetStore tag) s =
        .next ((s.answered tag (.reset 2) { status := .notEmpty, result := .notEmpty .passes }).finish s)) ∧
    (s.records = [] → s.hires = [] → s.entries = [] → (∀ p ∈ s.store.passes.cur.slots, p = none) →
      exec (.resetStore tag) s =
        .next ((({ s with store :=
          { settings := s.store.settings.write .default, plans := s.store.plans.write plansDefault
            tariffs := s.store.tariffs.write .default, deny := s.store.deny.write []
            passes := s.store.passes.write .default, hires := s.store.hires.write []
            settle := s.store.settle.write .default
            journal := s.store.journal.write { records := [], next := s.store.journal.cur.next }
            hireCount := s.store.hireCount.write 1, epoch := s.store.epoch } } : State).answered tag (.reset 2)
          { status := .ok, result := .empty }).finish s))

/-! ### Plans, passes and tariffs -/

/-- PLAN_SET replaces the whole entry of a code from 0 to 14, or names the first thing outside its range and changes nothing
(R46, R47). POLICY_SET replaces the entry of a kind from 1 to 8, or names the first field outside its range and changes
nothing (R116). -/
def Obligations.PlanAndPolicySetResult : Prop :=
  (∀ (tag code : Nat) (f : PlanArgs) (s : State), s.ready →
     (14 < code → exec (.planSet tag code f) s =
       .next ((s.answered tag (.planSet code f) { status := .outOfRange, result := .field .code }).finish s)) ∧
     (code ≤ 14 → (f.admitted = 1 ∨ f.admitted = 2) → f.freeMinutes ≤ 240 → f.percent ≤ 200 → f.unlockFee ≤ 1000 →
       f.ceiling ≤ 65535 → 1 ≤ f.hireLimit → f.hireLimit ≤ 4 →
       exec (.planSet tag code f) s =
         .next (((s.putPlans (s.plans.set code
           { admitted := f.admitted == 1, freeMinutes := f.freeMinutes, percent := f.percent, unlockFee := f.unlockFee
             ceiling := f.ceiling, hireLimit := f.hireLimit })).answered tag (.planSet code f)
           { status := .ok, result := .empty }).finish s)) ∧
     (code ≤ 14 →
       ¬ ((f.admitted = 1 ∨ f.admitted = 2) ∧ f.freeMinutes ≤ 240 ∧ f.percent ≤ 200 ∧ f.unlockFee ≤ 1000 ∧
         f.ceiling ≤ 65535 ∧ 1 ≤ f.hireLimit ∧ f.hireLimit ≤ 4) →
       exec (.planSet tag code f) s =
         .next ((s.answered tag (.planSet code f)
           { status := .outOfRange
             result := .field
               (if ¬ (f.admitted = 1 ∨ f.admitted = 2) then .admitted
                else if 240 < f.freeMinutes then .freeMinutes
                else if 200 < f.percent then .percent
                else if 1000 < f.unlockFee then .unlockFee
                else if 65535 < f.ceiling then .ceiling
                else .hireLimit) }).finish s))) ∧
  (∀ (tag kind cls count : Nat) (s : State), s.ready →
     let gives := fun (t : State) (r : Reply) =>
       exec (.policySet tag kind cls count) s = .next ((t.answered tag (.policySet kind cls count) r).finish s)
     (kind = 0 ∨ 8 < kind → gives s { status := .outOfRange, result := .field .kind }) ∧
     (1 ≤ kind → kind ≤ 8 →
       (cls ≠ 1 → cls ≠ 2 → gives s { status := .outOfRange, result := .field .cls }) ∧
       (cls = 1 ∨ cls = 2 →
         (count = 0 ∨ 3 < count → gives s { status := .outOfRange, result := .field .count }) ∧
         (1 ≤ count → count ≤ 3 →
           gives (s.putSettings
             { settings := s.settings
               policy := setEntry s.store.settings.cur.policy kind
                 { cls := if cls = 1 then .quarantine else .advisory, count := count } })
             { status := .ok, result := .empty }))))

/-- TERMINAL_AUTH within its ranges: a repeat is DUPLICATE; with the clock UNSET, with no FREE slot or with too little journal
room nothing is sold; else the lowest FREE slot takes an ISSUED pass with the next serial and a six-digit code that no pass
holds, PASS_ISSUE is posted, and PASS_STATE is raised (R61 to R64). The code is a free value (log 2), and that DUPLICATE
carries slot, serial and code without the expiry is the model's choice (log 24). PASS_CANCEL: a pass that has made no ride and
has no release in flight settles CANCELLED, and its PASS_SETTLE is posted where a journal slot is free; another pass, slot or
serial is answered as R74 gives. -/
def Obligations.PassSaleAndCancel : Prop :=
  (∀ (tag terminal kind hold : Nat) (ref : List Byte) (s : State), s.ready →
     let outside := fun (x : Field) => exec (.terminalAuth tag terminal kind hold ref) s =
       .next ((s.answered tag (.terminalAuth terminal kind hold ref) { status := .outOfRange, result := .field x }).finish s)
     (terminal = 0 ∨ 4 < terminal → outside .terminal) ∧
     (1 ≤ terminal → terminal ≤ 4 → kind ≠ 1 → kind ≠ 2 → outside .kind) ∧
     (1 ≤ terminal → terminal ≤ 4 → kind = 1 ∨ kind = 2 → hold < 100 ∨ 50000 < hold → outside .hold) ∧
     (1 ≤ terminal → terminal ≤ 4 → kind = 1 ∨ kind = 2 → 100 ≤ hold → hold ≤ 50000 →
       let gives := fun (t : State) (r : Reply) =>
         exec (.terminalAuth tag terminal kind hold ref) s =
           .next ((t.answered tag (.terminalAuth terminal kind hold ref) r).finish s)
       (∀ slot p, s.repeatedAuth terminal ref = some (slot, p) →
         gives s { status := .duplicate, result := .repeated slot p.serial p.code }) ∧
       (s.repeatedAuth terminal ref = none → s.now = none → gives s { status := .clockUnset, result := .empty }) ∧
       (s.repeatedAuth terminal ref = none → s.now ≠ none → (∀ slot ∈ slotNumbers, s.pass slot ≠ none) →
         gives s { status := .full, result := .empty }) ∧
       (s.repeatedAuth terminal ref = none → s.now ≠ none → (∃ slot ∈ slotNumbers, s.pass slot = none) →
         s.free < s.settings.openReserve → gives s { status := .refused, result := .reason .journalFull }) ∧
       (∀ t slot, s.repeatedAuth terminal ref = none → s.now = some t → slot ∈ slotNumbers → s.pass slot = none →
         (∀ other ∈ slotNumbers, other < slot → s.pass other ≠ none) → s.settings.openReserve ≤ s.free →
         s.heldCodes.length < 1000000 →
         ∃ code, code < 1000000 ∧ code ∉ s.heldCodes ∧
           let p : Pass :=
             { state := .issued, kind := if kind = 1 then .single else .day, serial := s.store.passes.cur.serial
               code := code, terminal := terminal, authRef := ref, hold := hold, issued := t
               expiry := t + (if kind = 1 then 1800 else 86400), charged := 0, rides := 0, current := none
               cancelled := false, unresolved := false, shortfall := false }
           gives (((({ s with codePosition := s.codePosition + 1 } : State).putPasses
               { slots := setEntry s.store.passes.cur.slots slot (some p)
                 serial := if 65535 ≤ s.store.passes.cur.serial then 1 else s.store.passes.cur.serial + 1 }).raise
               .passState).post (.passIssue slot p))
             { status := .ok, result := .sold slot s.store.passes.cur.serial code p.expiry }))) ∧
  (∀ (tag slot serial : Nat) (s : State), s.ready →
     let gives := fun (t : State) (r : Reply) =>
       exec (.passCancel tag slot serial) s = .next ((t.answered tag (.passCancel slot serial) r).finish s)
     (slot = 0 ∨ 32 < slot → gives s { status := .outOfRange, result := .field .slot }) ∧
     (1 ≤ slot → slot ≤ 32 → (∀ p, s.pass slot = some p → p.serial ≠ serial) →
       gives s { status := .notFound, result := .empty }) ∧
     (∀ p, 1 ≤ slot → slot ≤ 32 → s.pass slot = some p → p.serial = serial → p.state ≠ .issued ∨ p.rides ≠ 0 →
       gives s { status := .conflict, result := .empty }) ∧
     (∀ p, 1 ≤ slot → slot ≤ 32 → s.pass slot = some p → p.serial = serial → p.state = .issued → p.rides = 0 →
       (s.passInFlight slot serial = true → gives s { status := .busy, result := .empty }) ∧
       (s.passInFlight slot serial = false →
         let q : Pass := { p with cancelled := true, state := .settling }
         let settling := s.putPass slot (some q)
         (0 < s.free → gives ((settling.post (.passSettle slot q)).putPass slot none) { status := .ok, result := .empty }) ∧
         (s.free = 0 → gives settling { status := .ok, result := .empty }))))

/-- TARIFF_STAGE_BAND fills its position; it is BUSY while a commit is pending, and names the first field outside its range
(R79, R81). TARIFF_STAGE_CLEAR (R82). -/
def Obligations.StagingResult : Prop :=
  (∀ (tag band : Nat) (edge : Option Nat) (block rate : Nat) (s : State), s.ready →
     let gives := fun (t : State) (r : Reply) =>
       exec (.tariffStageBand tag band edge block rate) s =
         .next ((t.answered tag (.tariffStageBand band edge block rate) r).finish s)
     (s.tariffs.commit ≠ none → gives s { status := .busy, result := .empty }) ∧
     (s.tariffs.commit = none →
       (band = 0 ∨ 8 < band → gives s { status := .outOfRange, result := .field .band }) ∧
       (1 ≤ band → band ≤ 8 → (∃ e, edge = some e ∧ (e = 0 ∨ 10080 < e)) →
         gives s { status := .outOfRange, result := .field .edge }) ∧
       (1 ≤ band → band ≤ 8 → (∀ e, edge = some e → 1 ≤ e ∧ e ≤ 10080) →
         (block = 0 ∨ 60 < block → gives s { status := .outOfRange, result := .field .block }) ∧
         (1 ≤ block → block ≤ 60 →
           (5000 < rate → gives s { status := .outOfRange, result := .field .rate }) ∧
           (rate ≤ 5000 → gives (s.putTariffs { s.tariffs with
             staged := setEntry s.tariffs.staged band (some { edge := edge, block := block, rate := rate }) })
             { status := .ok, result := .empty }))))) ∧
  (∀ (tag : Nat) (s : State), s.ready →
     (s.tariffs.commit ≠ none → exec (.tariffStageClear tag) s =
       .next ((s.answered tag .tariffStageClear { status := .busy, result := .empty }).finish s)) ∧
     (s.tariffs.commit = none → exec (.tariffStageClear tag) s =
       .next (((s.putTariffs { s.tariffs with staged := [none, none, none, none, none, none, none, none] }).answered tag
         .tariffStageClear { status := .ok, result := .empty }).finish s)))

/-- TARIFF_COMMIT NOW and AT: BUSY while a commit or an earlier record is pending; staged that fails validation is
OUT_OF_RANGE with the band and its cause; NOW, and AT with a time reached, apply at once, AT with a time to come is pending,
and AT with the clock UNSET is CLOCK_UNSET (R83, R84). An apply moves current to previous and staged to current under the
next generation, and posts TARIFF_APPLIED where the sixth place is clear (R87, R88); that the record of an AT commit applied at
once has the cause AT is the model's choice (log 24). TARIFF_COMMIT with mode CANCEL (R85).
TARIFF_APPLY_AT: a pending commit whose time scheme time has reached is applied as R87 gives, and TARIFF_APPLIED names its
requested time; before that, with none pending or with the clock UNSET, nothing happens (R86 to R88). -/
def Obligations.CommitResult : Prop :=
  (∀ (tag : Nat) (s : State), s.ready →
     let applied := fun (requested : Option Nat) =>
       let table : Tariff :=
         { generation := if 255 ≤ s.tariffs.current.generation then 1 else s.tariffs.current.generation + 1
           bands := s.tariffs.staged.filterMap id }
       let record : TariffApplied :=
         { newGeneration := table.generation, oldGeneration := s.tariffs.current.generation, requested := requested
           applied := s.now, bands := table.bands }
       let set : TariffSet :=
         { current := table, previous := some s.tariffs.current, staged := List.replicate 8 none, commit := none
           waiting := none }
       if s.free = 0 ∨ s.sixth ≠ [] then
         { s.putTariffs { set with waiting := some record } with sixth := s.sixth ++ [.tariffApplied] }
       else (s.putTariffs set).post (.tariffApplied record)
     let next := if 255 ≤ s.tariffs.current.generation then 1 else s.tariffs.current.generation + 1
     let gives := fun (i : Instr) (m : CommitArg) (t : State) (r : Reply) =>
       exec i s = .next ((t.answered tag (.tariffCommit m) r).finish s)
     (s.tariffs.commit ≠ none ∨ s.tariffs.waiting ≠ none →
       gives (.tariffCommitNow tag) .now s { status := .busy, result := .empty } ∧
       ∀ a, gives (.tariffCommitAt tag a) (.at a) s { status := .busy, result := .empty }) ∧
     (s.tariffs.commit = none → s.tariffs.waiting = none →
       (∀ band fault, validateStaged s.tariffs.staged = some (band, fault) →
         gives (.tariffCommitNow tag) .now s { status := .outOfRange, result := .badBand band fault } ∧
         ∀ a, gives (.tariffCommitAt tag a) (.at a) s { status := .outOfRange, result := .badBand band fault }) ∧
       (validateStaged s.tariffs.staged = none →
         gives (.tariffCommitNow tag) .now (applied none) { status := .ok, result := .applied next } ∧
         (s.now = none → ∀ a, gives (.tariffCommitAt tag a) (.at a) s { status := .clockUnset, result := .empty }) ∧
         (∀ t a, s.now = some t → a ≤ t →
           gives (.tariffCommitAt tag a) (.at a) (applied (some a)) { status := .ok, result := .applied next }) ∧
         (∀ t a, s.now = some t → t < a →
           gives (.tariffCommitAt tag a) (.at a) (s.putTariffs { s.tariffs with commit := some a })
             { status := .ok, result := .commitPending a next })))) ∧
  (∀ (tag : Nat) (s : State), s.ready →
     (s.tariffs.commit ≠ none → exec (.tariffCommitCancel tag) s =
       .next (((s.putTariffs { s.tariffs with commit := none }).answered tag (.tariffCommit .cancel)
         { status := .ok, result := .empty }).finish s)) ∧
     (s.tariffs.commit = none → exec (.tariffCommitCancel tag) s =
       .next ((s.answered tag (.tariffCommit .cancel) { status := .notFound, result := .empty }).finish s))) ∧
  (∀ s : State, s.power = .running →
     (s.now = none ∨ s.tariffs.commit = none ∨
       (∃ t a, s.now = some t ∧ s.tariffs.commit = some a ∧ t < a) → exec .tariffApplyAt s = .next (s.finish s)) ∧
     (∀ t a, s.now = some t → s.tariffs.commit = some a → a ≤ t → 0 < s.free → s.sixth = [] →
       let table : Tariff :=
         { generation := if 255 ≤ s.tariffs.current.generation then 1 else s.tariffs.current.generation + 1
           bands := s.tariffs.staged.filterMap id }
       exec .tariffApplyAt s =
         .next (((s.putTariffs
             { current := table, previous := some s.tariffs.current, staged := List.replicate 8 none, commit := none
               waiting := s.tariffs.waiting }).post (.tariffApplied
             { newGeneration := table.generation, oldGeneration := s.tariffs.current.generation, requested := some a
               applied := some t, bands := table.bands })).finish s)))

/-! ### Faults at the link -/

/-- RIDER_REPORT with source CREW, by a member id, on the bike of a dock with no report of the kind confirmed: the kind joins
the fault set and its tally is emptied; an AVAILABLE bike is QUARANTINED, with attention, where the policy of the kind gives
so. The FAULT record is posted where a slot is free and none waits. Where the dock holds no bike, the record is BIKE_ABSENT
(R117, R119 to R121, R126, R130, R131). A report by the hirer of the bike's HELD entry, where that carries no waiver, waives
the entry: its fare is 0, with source RIDER, the kind and the time, and its deadline is kept. Another reporter's report, and
one against a waived entry, leaves the settle list as it is (R105; shown for a kind that is confirmed).
The first range that fails of dock or bike id, kind, source and reporter is named, and nothing changes; so is a CREW report
that is not by a member id; a FREE pass slot is NOT_FOUND (R117). A RIDER report by a member id, by the pass in a slot or
anonymous is BIKE_ABSENT where its dock holds no bike or no dock holds its bike id, and waives by its hirer as above, the pass
by slot and serial (R105, R119, R121). Its absent record carries no reporters count and no confirm count, the tally of a
confirmed kind is counted as it stands (log 17), and a choice outside its list is named TARGET or REPORTER (log 18). A report
by bike id does what the report of the lowest dock that holds the id does (R117). -/
def Obligations.RiderReportResult : Prop :=
  (∀ (tag d kind member : Nat) (k : BikeFault) (s : State), s.ready → 1 ≤ d → d ≤ 64 → 1 ≤ member → member ≤ 99999999 →
    bikeFaultOf kind = some k → 0 < s.free → s.faults = [] →
    let gives := fun (t : State) (r : Reply) =>
      exec (.riderReport tag (.dock d) kind 2 (.member member)) s =
        .next ((t.answered tag (.riderReport (.dock d) kind 2 (.member member)) r).finish s)
    let record : FaultRecord :=
      { subject := .bike, dock := some d, bikeId := (s.dock d).bike.map (fun b => b.id), tagBikeId := none, tagRef := none
        kind := some (.bike k), source := some .crew, cause := none, reporter := some (.person member), reporters := none
        confirmCount := none, effect := .noted, conditionAfter := (s.dock d).bike.map (fun b => b.condition)
        counterAfter := none, counterBefore := none, dockState := none, bikeAbsent := false }
    ((s.dock d).bike = none →
      gives (({ s.post (.fault { record with bikeAbsent := true } s.faultsDropped) with faultsDropped := 0 } : State))
        { status := .ok, result := .report none (some d) .noted true }) ∧
    (∀ b, (s.dock d).bike = some b → s.heldAt b.id = none →
      (k ∈ b.faults →
        gives (({ s.post (.fault record s.faultsDropped) with faultsDropped := 0 } : State))
          { status := .ok, result := .report (some b.id) (some d) .noted false }) ∧
      (k ∉ b.faults →
        let confirmed : Bike :=
          { b with faults := insertFault k b.faults, tallies := setEntry b.tallies k.number [] }
        let quarantined : Bike := { confirmed with condition := .quarantined }
        ((s.policy k).cls = .advisory ∨ b.condition ≠ .available →
          let t := s.putDock d { s.dock d with bike := some confirmed }
          gives (({ t.post (.fault record s.faultsDropped) with faultsDropped := 0 } : State))
            { status := .ok, result := .report (some b.id) (some d) .noted false }) ∧
        ((s.policy k).cls = .quarantine → b.condition = .available →
          let t := s.putDock d { s.dock d with bike := some quarantined }
          let u : State :=
            { t.post (.fault { record with effect := .quarantined, conditionAfter := some .quarantined } s.faultsDropped) with
              faultsDropped := 0 }
          (s.attention.raised = true ∧ s.attention.quarantine = true →
            gives u { status := .ok, result := .report (some b.id) (some d) .quarantined false }) ∧
          (¬ (s.attention.raised = true ∧ s.attention.quarantine = true) →
            gives (({ u with attention := { s.attention with raised := true, quarantine := true } } : State).raise .attention)
              { status := .ok, result := .report (some b.id) (some d) .quarantined false })))) ∧
    (∀ (b : Bike) before (e : SettleEntry) after link deadline, (s.dock d).bike = some b → k ∈ b.faults →
      s.entries = before ++ e :: after → e.stage = .held b.id link deadline → (∀ x ∈ before, x.linksTo b.id = false) →
      let posted : State := { s.post (.fault record s.faultsDropped) with faultsDropped := 0 }
      let answer : Reply := { status := .ok, result := .report (some b.id) (some d) .noted false }
      (e.waiver = none → e.close.hirer = .member member ∨ e.close.hirer = .crew member ∨ e.close.hirer = .remote member →
        gives (posted.putSettle { s.store.settle.cur with
          entries := before ++ { e with
            close := { e.close with fare := 0 }
            waiver := some { source := .rider, kind := k, time := s.now } } :: after }) answer) ∧
      (e.waiver ≠ none ∨
          (e.close.hirer ≠ .member member ∧ e.close.hirer ≠ .crew member ∧ e.close.hirer ≠ .remote member) →
        gives posted answer))) ∧
  (∀ (tag : Nat) (target : TargetArg) (kind source : Nat) (reporter : ReporterArg) (s : State), s.ready →
    let gives := fun (t : State) (r : Reply) =>
      exec (.riderReport tag target kind source reporter) s =
        .next ((t.answered tag (.riderReport target kind source reporter) r).finish s)
    let refuses := fun (f : Field) => gives s { status := .outOfRange, result := .field f }
    (∀ d, target = .dock d → d = 0 ∨ 64 < d → refuses .dock) ∧ (target = .bike 0 → refuses .bike) ∧
    (∀ choice, target = .other choice → refuses .target) ∧
    ((∃ d, target = .dock d ∧ 1 ≤ d ∧ d ≤ 64) ∨ (∃ b, target = .bike b ∧ b ≠ 0) →
      (kind = 0 ∨ 8 < kind → refuses .kind) ∧
      (∀ k, bikeFaultOf kind = some k →
        (source = 0 ∨ 2 < source → refuses .source) ∧
        (source = 1 ∨ source = 2 →
          (∀ id, reporter = .member id → id = 0 ∨ 99999999 < id → refuses .reporter) ∧
          (∀ slot, reporter = .passSlot slot → slot = 0 ∨ 32 < slot ∨ source = 2 → refuses .reporter) ∧
          (reporter = .anonymous → source = 2 → refuses .reporter) ∧
          (∀ choice, reporter = .other choice → refuses .reporter) ∧
          (∀ slot, reporter = .passSlot slot → source = 1 → 1 ≤ slot → slot ≤ 32 → s.pass slot = none →
            gives s { status := .notFound, result := .empty })) ∧
        (∀ who, source = 1 →
          (∃ id, reporter = .member id ∧ 1 ≤ id ∧ id ≤ 99999999 ∧ who = .person id) ∨
            (∃ slot p, reporter = .passSlot slot ∧ 1 ≤ slot ∧ slot ≤ 32 ∧ s.pass slot = some p ∧ who = .pass slot p.serial) ∨
            (reporter = .anonymous ∧ who = .anonymous) →
          let record : FaultRecord :=
            { subject := .bike, dock := none, bikeId := none, tagBikeId := none, tagRef := none, kind := some (.bike k)
              source := some .rider, cause := none, reporter := some who, reporters := none, confirmCount := none
              effect := .noted, conditionAfter := none, counterAfter := none, counterBefore := none, dockState := none
              bikeAbsent := true }
          let posted := fun (r : FaultRecord) => ({ s.post (.fault r s.faultsDropped) with faultsDropped := 0 } : State)
          (0 < s.free → s.faults = [] →
            (∀ d, target = .dock d → (s.dock d).bike = none →
              gives (posted { record with dock := some d }) { status := .ok, result := .report none (some d) .noted true }) ∧
            (∀ id, target = .bike id → (∀ d ∈ dockNumbers, ∀ b, (s.dock d).bike = some b → b.id ≠ id) →
              gives (posted { record with bikeId := some id })
                { status := .ok, result := .report (some id) none .noted true }) ∧
            (∀ d b before (e : SettleEntry) after link deadline, target = .dock d → (s.dock d).bike = some b → k ∈ b.faults →
              s.entries = before ++ e :: after → e.stage = .held b.id link deadline →
              (∀ x ∈ before, x.linksTo b.id = false) →
              let noted := posted { record with
                dock := some d, bikeId := some b.id, reporters := some (((entryAt b.tallies k.number).getD []).length)
                confirmCount := some (s.policy k).count, conditionAfter := some b.condition, bikeAbsent := false }
              let answer : Reply := { status := .ok, result := .report (some b.id) (some d) .noted false }
              let hirers : Bool := match e.close.hirer, who with
                | .member a, .person c => a == c
                | .crew a, .person c => a == c
                | .remote a, .person c => a == c
                | .pass slot serial, .pass slot' serial' => slot == slot' && serial == serial'
                | _, _ => false
              (e.waiver = none → hirers = true →
                gives (noted.putSettle { s.store.settle.cur with
                  entries := before ++ { e with
                    close := { e.close with fare := 0 }
                    waiver := some { source := .rider, kind := k, time := s.now } } :: after }) answer) ∧
              (e.waiver ≠ none ∨ hirers = false → gives noted answer)))) ∧
        (∀ d b, d ∈ dockNumbers → target = .bike b.id → (s.dock d).bike = some b →
          (∀ c ∈ dockNumbers, c < d → ∀ x, (s.dock c).bike = some x → x.id ≠ b.id) →
          ∃ (t : State) (r : Reply), gives t r ∧
            exec (.riderReport tag (.dock d) kind source reporter) s =
              .next ((t.answered tag (.riderReport (.dock d) kind source reporter) r).finish s)))))

/-! ### Van sessions -/

/-- VAN_OPEN: an open session or a crew id on the deny list makes it REFUSED, and what is outside its range is named by
entry and field. Else the session opens under the session counter: one DELIVER entry for one dock reserves the lowest EMPTY
unreserved dock, and the session becomes ACTIVE with its idle deadline started; where there is none, the entry falls short
whole, the session is exhausted at once, and its summary is posted with the session IDLE again, or waits where a move waits
or no slot is free (R134 to R136, R138, R139, R149, R150, R153, R158). Van id and crew id are named as entry 0, the model's
choice (log 18).
The reservation pass of any manifest, with no reservation standing: every entry's target and short count make up the count
asked. With a target above 0 the session becomes ACTIVE, and with none it is exhausted at once. As many docks are reserved
under an entry as its target says. A COLLECT entry takes OCCUPIED docks whose bikes its selector admits, a DELIVER entry
EMPTY docks, the lowest first among bikes of one condition, and bikes of an earlier group before those of a later one; an
AVAILABLE bike is taken only while available-unreserved stands above the member floor; and an entry is short only where no
candidate is left. The close of a settling bike reserved, of a hirer with no pass, is finalised early with reason VAN: its
HIRE_CLOSE is posted or waits (R106, R136 to R138).
The idle deadline of an ACTIVE session that has run out: the session ends TIMED_OUT. Its reservations are dropped but for
those with a VAN release in flight. With such a release the session waits in CLOSING, its ending kept, without idle
deadline. Without one its summary is posted and the session is IDLE, or the summary waits where a move waits or no slot is
free, and VAN_SUMMARY then posts it once there is room. The link is as it was but for the marks VAN_STATE and, where a
reservation was dropped, DOCK_STATE. A deadline not reached does nothing (R149 to R151, R153, R158). -/
def Obligations.VanOpenAndIdleTimeout : Prop :=
  (∀ (tag van crew : Nat) (manifest : List ManifestArg) (s : State), s.ready →
     let gives := fun (t : State) (r : Reply) =>
       exec (.vanOpen tag van crew manifest) s = .next ((t.answered tag (.vanOpen van crew manifest) r).finish s)
     (s.van.phase ≠ .idle → gives s { status := .refused, result := .reason .vanBusy }) ∧
     (s.van.phase = .idle → van = 0 ∨ 9999 < van → gives s { status := .outOfRange, result := .vanField 0 .van }) ∧
     (s.van.phase = .idle → 1 ≤ van → van ≤ 9999 → crew = 0 ∨ 99999999 < crew →
       gives s { status := .outOfRange, result := .vanField 0 .crew }) ∧
     (s.van.phase = .idle → 1 ≤ van → van ≤ 9999 → 1 ≤ crew → crew ≤ 99999999 →
       (∀ n f, manifestOf 1 manifest = .error (n, f) → gives s { status := .outOfRange, result := .vanField n f }) ∧
       (∀ es, manifestOf 1 manifest = .ok es → crew ∈ s.denied →
         gives s { status := .refused, result := .reason .cardDenied }) ∧
       (∀ asked mark, manifest = [{ kind := 2, selector := none, count := asked, endMark := mark }] → mark = true →
         crew ∉ s.denied →
         let next := if 65535 ≤ s.van.counter then 1 else s.van.counter + 1
         (∀ d, asked = 1 → s.nextDeliver = some d →
           gives ((({ s with
               docks := setEntry s.docks d { s.dock d with reservation := .deliver 1 }
               van :=
                 { s.van with
                   phase := .active, session := s.van.counter, counter := next, van := van, crew := crew
                   manifest := [{ kind := .deliver, asked := 1, target := 1, done := 0, short := 0 }], opened := s.now
                   idleAt := some (s.elapsed + s.settings.vanIdleTimeout * 1000), ending := none
                   dropped := 0 } } : State).raise .dockState).raise .vanState)
             { status := .ok, result := .vanOpened s.van.counter [(1, 0)] }) ∧
         (1 ≤ asked → asked ≤ 64 → s.nextDeliver = none → s.van.summary = none → s.vanReleases = [] →
           (∀ d ∈ dockNumbers, (s.dock d).reservation = .unreserved) →
           let ending : VanEnding := { endedBy := .exhaustion, outcome := .exhausted, time := s.now }
           let results : List ManifestEntry := [{ kind := .deliver, asked := asked, target := 0, done := 0, short := asked }]
           let v : VanSummary :=
             { session := s.van.counter, van := van, crew := crew, opened := s.now, ending := ending, short := true
               dropped := 0, results := results }
           let answer : Reply := { status := .ok, result := .vanOpened s.van.counter [(0, asked)] }
           (s.van.moves = [] → 0 < s.free →
             gives (({ s.post (.vanSummary v) with van := .idleWith next } : State).raise .vanState) answer) ∧
           (s.van.moves ≠ [] ∨ s.free = 0 →
             gives (({ s with
                 van :=
                   { s.van with
                     phase := .closing, session := s.van.counter, counter := next, van := van, crew := crew
                     manifest := results, opened := s.now, idleAt := none, ending := some ending, dropped := 0
                     summary := some v } } : State).raise .vanState) answer))))) ∧
  (∀ (tag van crew : Nat) (manifest : List ManifestArg) (es : List ManifestEntry) (s : State), s.ready → s.sized →
     s.van.phase = .idle → 1 ≤ van → van ≤ 9999 → 1 ≤ crew → crew ≤ 99999999 → manifestOf 1 manifest = .ok es →
     crew ∉ s.denied → (∀ d ∈ dockNumbers, (s.dock d).reservation = .unreserved) →
     ∃ (t : State) (body : List ManifestEntry), exec (.vanOpen tag van crew manifest) s =
         .next ((t.answered tag (.vanOpen van crew manifest)
           { status := .ok
             result := .vanOpened s.van.counter (body.map (fun m => (m.target, m.short))) }).finish s) ∧
       body.length = es.length ∧
       (∀ n e, entryAt es n = some e → ∃ m, entryAt body n = some m ∧ m.kind = e.kind ∧ m.asked = e.asked ∧
         m.done = 0 ∧ m.target + m.short = e.asked ∧
         (dockNumbers.filter (fun d => (t.dock d).reservation == (match e.kind with
           | .collect _ => .collect n
           | .deliver => .deliver n))).length = m.target ∧
         (e.kind = .deliver → 0 < m.short →
           ∀ c ∈ dockNumbers, (t.dock c).reservation = .unreserved → (t.dock c).state ≠ .empty) ∧
         (∀ sel, e.kind = .collect sel → 0 < m.short →
           ∀ c ∈ dockNumbers, ∀ b, (t.dock c).reservation = .unreserved → (t.dock c).state = .occupied →
             (t.dock c).bike = some b → b.condition ∈ sel.groups.flatten →
             b.condition = .available ∧ t.available ≤ s.settings.memberFloor)) ∧
       ((∃ m ∈ body, 0 < m.target) →
         t.van.phase = .active ∧ t.van.session = s.van.counter ∧ t.van.van = van ∧ t.van.crew = crew ∧
         t.van.manifest = body ∧ t.van.opened = s.now ∧ t.van.ending = none ∧ t.van.dropped = 0 ∧
         t.van.idleAt = some (s.elapsed + s.settings.vanIdleTimeout * 1000)) ∧
       ((∀ m ∈ body, m.target = 0) → s.van.summary = none → s.vanReleases = [] → s.van.moves = [] → 0 < s.free →
         t.van = .idleWith (if 65535 ≤ s.van.counter then 1 else s.van.counter + 1) ∧
         t.records = (s.post (.vanSummary
           { session := s.van.counter, van := van, crew := crew, opened := s.now
             ending := { endedBy := .exhaustion, outcome := .exhausted, time := s.now }
             short := body.any (fun m => 0 < m.short), dropped := 0, results := body })).records) ∧
       (∀ d ∈ dockNumbers, ∀ n, (t.dock d).reservation = .collect n →
         ∃ sel m b, entryAt body n = some m ∧ m.kind = .collect sel ∧ (s.dock d).state = .occupied ∧
           (s.dock d).bike = some b ∧ b.condition ∈ sel.groups.flatten ∧
           (b.condition = .available → s.settings.memberFloor ≤ t.available) ∧
           (∀ c ∈ dockNumbers, ∀ x, (t.dock c).reservation = .unreserved → (s.dock c).state = .occupied →
             (s.dock c).bike = some x →
             (x.condition = b.condition → d < c) ∧
             (∀ before after g, sel.groups = before ++ g :: after → b.condition ∈ g →
               x.condition ∉ before.flatten))) ∧
       (∀ d ∈ dockNumbers, ∀ n b before (e : SettleEntry) after deadline, (t.dock d).reservation = .collect n →
         (s.dock d).bike = some b → b.settling = true → s.entries = before ++ e :: after → e.stage = .held b.id d deadline →
         (∀ x ∈ before, x.linksTo b.id = false) → (∀ slot serial, e.close.hirer ≠ .pass slot serial) →
         (t.dock d).bike = some { b with settling := false } ∧
         ((∃ r ∈ t.records, ∃ lost,
             r.body = .hireClose e.close e.waiver (.earlyFinal .van) s.now .noPass lost) ∨
           { e with stage := .waiting (.earlyFinal .van) s.now .noPass } ∈ t.entries)) ∧
       (∀ d ∈ dockNumbers, ∀ n, (t.dock d).reservation = .deliver n →
         (∃ m, entryAt body n = some m ∧ m.kind = .deliver) ∧ (s.dock d).state = .empty ∧
           (∀ c ∈ dockNumbers, (t.dock c).reservation = .unreserved → (s.dock c).state = .empty → d < c))) ∧
  (∀ s : State, s.power = .running →
     let dropped := dockNumbers.any (fun d => (s.dock d).reservation != .unreserved && !s.vanReleases.contains d)
     let link : Link := { s.link with
       marks := { s.link.marks with vanState := true, dockState := s.link.marks.dockState || dropped } }
     (∀ at', s.van.phase = .active → s.van.idleAt = some at' → at' ≤ s.elapsed → s.vanReleases ≠ [] → s.sized →
       ∃ t : State, exec .vanIdleTimeout s = .next (t.finish s) ∧
         t.van = { s.van with
           phase := .closing, idleAt := none
           ending := some { endedBy := .idleTimeout, outcome := .timedOut, time := s.now } } ∧
         (∀ d ∈ dockNumbers, t.dock d =
           if d ∈ s.vanReleases then s.dock d else { s.dock d with reservation := .unreserved }) ∧
         { t with van := s.van, docks := s.docks, link := s.link } = s ∧ t.link = link) ∧
     (∀ at', s.van.phase = .active → s.van.idleAt = some at' → at' ≤ s.elapsed → s.vanReleases = [] →
       s.van.summary = none → s.sized →
       let ending : VanEnding := { endedBy := .idleTimeout, outcome := .timedOut, time := s.now }
       let v : VanSummary :=
         { session := s.van.session, van := s.van.van, crew := s.van.crew, opened := s.van.opened, ending := ending
           short := s.van.manifest.any (fun m => 0 < m.short), dropped := s.van.dropped, results := s.van.manifest }
       ∃ t : State, exec .vanIdleTimeout s = .next (t.finish s) ∧
         (∀ d ∈ dockNumbers, t.dock d = { s.dock d with reservation := .unreserved }) ∧ t.link = link ∧
         (s.van.moves = [] → 0 < s.free →
           t.van = .idleWith s.van.counter ∧
           { t with van := s.van, docks := s.docks, link := s.link } = s.post (.vanSummary v)) ∧
         (s.van.moves ≠ [] ∨ s.free = 0 →
           t.van = { s.van with phase := .closing, idleAt := none, ending := some ending, summary := some v } ∧
           { t with van := s.van, docks := s.docks, link := s.link } = s)) ∧
     (∀ v, s.van.phase = .closing → s.van.summary = some v → s.van.moves = [] → s.noClose → s.noSettling → 0 < s.free →
       exec .vanSummary s =
         .next ((({ s.post (.vanSummary v) with van := .idleWith s.van.counter } : State).raise .vanState).finish s)) ∧
     (s.van.phase ≠ .active ∨ s.van.idleAt = none ∨ (∃ at', s.van.idleAt = some at' ∧ s.elapsed < at') →
       exec .vanIdleTimeout s = .next (s.finish s)))

/-- VAN_RELEASE at an OCCUPIED dock that the active session has reserved for COLLECT begins a VAN release, the idle deadline
restarted, the close of a settling bike being finalised early with reason RELEASE first; elsewhere it is answered as R141
gives, and in an ACTIVE session every VAN_RELEASE restarts the idle deadline, also one outside the range (R23, R25, R106,
R140, R141, R149). VAN_CLOSE of the session that is ACTIVE: every reservation is dropped but for those with a VAN release in
flight, and the outcome is CLOSED_EARLY. With such a release the session is CLOSING with no idle deadline. Without one its
summary is posted and the session is IDLE, or the summary waits where a move waits or no slot is free. The link is as it was
but for its reply and the marks VAN_STATE and, where a reservation was dropped, DOCK_STATE. In CLOSING it is CONFLICT, and
for another session, or none, NOT_FOUND (R150, R151, R153, R158). A close that follows an exhausting removal is such a
close, judged by the session as it then stands (R155, log 24). -/
def Obligations.VanReleaseAndClose : Prop :=
  (∀ (tag d : Nat) (s : State), s.ready →
     let gives := fun (t : State) (r : Reply) =>
       exec (.vanRelease tag d) s = .next ((t.answered tag (.vanRelease d) r).finish s)
     let waited : State :=
       { s with van := { s.van with idleAt := some (s.elapsed + s.settings.vanIdleTimeout * 1000) } }
     (d = 0 ∨ 64 < d →
       (s.van.phase ≠ .active → gives s { status := .outOfRange, result := .field .dock }) ∧
       (s.van.phase = .active → gives waited { status := .outOfRange, result := .field .dock })) ∧
     (1 ≤ d → d ≤ 64 → s.van.phase ≠ .active → gives s { status := .conflict, result := .empty }) ∧
     (1 ≤ d → d ≤ 64 → s.van.phase = .active → (∀ n, (s.dock d).reservation ≠ .collect n) →
       gives waited { status := .refused, result := .reason .notReserved }) ∧
     (∀ n, 1 ≤ d → d ≤ 64 → s.van.phase = .active → (s.dock d).reservation = .collect n →
       (64 ≤ s.van.moves.length + s.vanReleases.length →
         gives waited { status := .refused, result := .reason .journalFull }) ∧
       (s.van.moves.length + s.vanReleases.length < 64 → (s.dock d).state = .offline →
         gives waited { status := .refused, result := .reason .dockOffline }) ∧
       (s.van.moves.length + s.vanReleases.length < 64 → (s.dock d).state ≠ .offline → (s.dock d).state ≠ .occupied →
         gives waited { status := .refused, result := .reason .dockBusy }) ∧
       (s.van.moves.length + s.vanReleases.length < 64 → (s.dock d).state = .occupied →
         let closed := waited.settleDock d .release
         gives ((closed.putDock d
               { closed.dock d with
                 state := .tagWriting
                 release := some
                   { party := .van s.van.crew n, credit := 0, origin := .occupied, fromDock := false
                     expiryHeld := false } }).issue d (.tagClear .vanRelease))
           { status := .ok, result := .empty }))) ∧
  (∀ (tag session : Nat) (s : State), s.ready →
     let gives := fun (t : State) (r : Reply) =>
       exec (.vanClose tag session) s = .next ((t.answered tag (.vanClose session) r).finish s)
     (s.van.phase = .idle ∨ session ≠ s.van.session → gives s { status := .notFound, result := .empty }) ∧
     (s.van.phase = .closing → session = s.van.session →
       gives s { status := .conflict, result := .empty }) ∧
     (s.van.phase = .active → session = s.van.session → s.van.summary = none → s.sized →
       let ending : VanEnding := { endedBy := .vanClose, outcome := .closedEarly, time := s.now }
       let v : VanSummary :=
         { session := session, van := s.van.van, crew := s.van.crew, opened := s.van.opened, ending := ending
           short := s.van.manifest.any (fun m => 0 < m.short), dropped := s.van.dropped, results := s.van.manifest }
       let dropped := dockNumbers.any (fun d => (s.dock d).reservation != .unreserved && !s.vanReleases.contains d)
       ∃ t : State, gives t { status := .ok, result := .vanOutcome .closedEarly } ∧
         (∀ d ∈ dockNumbers, t.dock d =
           if d ∈ s.vanReleases then s.dock d else { s.dock d with reservation := .unreserved }) ∧
         t.link = { s.link with
           marks := { s.link.marks with vanState := true, dockState := s.link.marks.dockState || dropped } } ∧
         (s.vanReleases = [] → s.van.moves = [] → 0 < s.free →
           t.van = .idleWith s.van.counter ∧
           { t with van := s.van, docks := s.docks, link := s.link } = s.post (.vanSummary v)) ∧
         (s.vanReleases ≠ [] ∨ s.van.moves ≠ [] ∨ s.free = 0 →
           t.van = { s.van with
             phase := .closing, idleAt := none, ending := some ending
             summary := if s.vanReleases = [] then some v else none } ∧
           { t with van := s.van, docks := s.docks, link := s.link } = s)))

/-! ### The journal -/

/-- JOURNAL_READ of n records, n up to 16: it returns as many UNSENT records, oldest first, as n, the credit left, the UNSENT
records and the frame limit allow, each marked SENT in its place, and the summary as it then stands; a greater n is
OUT_OF_RANGE (R161, R167, R200). What a read of k records returns and leaves: the first k UNSENT records, marked SENT, in
journal order; every record keeps its place, number, time, body and retry count (R161). -/
def Obligations.JournalReadResult : Prop :=
  (∀ (tag n : Nat) (s : State), s.ready →
     (16 < n → exec (.journalRead tag n) s =
       .next ((s.answered tag (.journalRead n) { status := .outOfRange, result := .field .count }).finish s)) ∧
     (∀ k, n ≤ 16 →
       let most := min n (min (s.recordsIn .unsent)
         (if s.settings.creditLimit = 0 then 16 else s.settings.creditLimit - s.recordsIn .sent))
       let after := fun (k : Nat) =>
         if k = 0 then s else s.putJournal { s.store.journal.cur with records := markSent k s.records }
       let fits := fun (k : Nat) =>
         k = 0 ∨ readSize (after k).journalSummary (readRecords k s.records) ≤ Config.maxBody
       k ≤ most → fits k → (∀ j, k < j → j ≤ most → ¬ fits j) →
       exec (.journalRead tag n) s = .next (((after k).answered tag (.journalRead n)
         { status := .ok, result := .records (readRecords k s.records) (after k).journalSummary }).finish s))) ∧
  (∀ (k : Nat) (rs : List Record), k ≤ rs.countP (fun r => r.state == .unsent) →
     (readRecords k rs).length = k ∧
     (markSent k rs).map (fun r => { r with state := .unsent }) = rs.map (fun r => { r with state := .unsent }) ∧
     (markSent k rs).countP (fun r => r.state == .unsent) = rs.countP (fun r => r.state == .unsent) - k ∧
     (markSent k rs).countP (fun r => r.state == .sent) = rs.countP (fun r => r.state == .sent) + k ∧
     (markSent k rs).countP (fun r => r.state == .parked) = rs.countP (fun r => r.state == .parked) ∧
     (readRecords k rs ++ (markSent k rs).filter (fun r => r.state == .unsent)).map (fun r => (r.epoch, r.sequence)) =
       (rs.filter (fun r => r.state == .unsent)).map (fun r => (r.epoch, r.sequence)))

/-- JOURNAL_ACK ACCEPTED and FATAL of a SENT record: the record goes and its slot is free; FATAL counts it, up to 65,535, and
names its kind. With a producer waiting at a journal that had no slot free, the slot serves the first place of the room arbiter
that holds a waiting record: one record is posted into it (R159, R160, R163). With no SENT record of that epoch and sequence
the answer is NOT_FOUND (R163).
JOURNAL_ACK RETRY of the SENT record of an epoch and sequence: with a retry count of 1 it parks; with another it returns to
UNSENT, the count one less where it is not 0. With no such record the answer is NOT_FOUND (R164). -/
def Obligations.AcksAndRetries : Prop :=
  (∀ (tag epoch sequence : Nat) (s : State), s.ready →
     ((∀ r ∈ s.records, ¬ (r.epoch = epoch ∧ r.sequence = sequence ∧ r.state = .sent)) →
       exec (.journalAckAccepted tag epoch sequence) s =
           .next ((s.answered tag (.journalAck epoch sequence 1) { status := .notFound, result := .empty }).finish s) ∧
         exec (.journalAckFatal tag epoch sequence) s =
           .next ((s.answered tag (.journalAck epoch sequence 2) { status := .notFound, result := .empty }).finish s)) ∧
     (∀ before (r : Record) after, s.records = before ++ r :: after → r.epoch = epoch → r.sequence = sequence →
       r.state = .sent → (∀ x ∈ before, ¬ (x.epoch = epoch ∧ x.sequence = sequence ∧ x.state = .sent)) →
       let t := s.putJournal { s.store.journal.cur with records := before ++ after }
       let counted : State := { t with fatal := min 65535 (s.fatal + 1) }
       let leaves := fun (accepted fatal : State) =>
         exec (.journalAckAccepted tag epoch sequence) s =
           .next ((accepted.answered tag (.journalAck epoch sequence 1)
             { status := .ok, result := .disposition .removed none }).finish s) ∧
         exec (.journalAckFatal tag epoch sequence) s =
           .next ((fatal.answered tag (.journalAck epoch sequence 2)
             { status := .ok, result := .disposition .removed (some (bodyKind r.body)) }).finish s)
       (s.firstPlace = none → leaves t counted) ∧
       (∀ p, s.firstPlace = some p → s.records.length + s.setAside = 256 → s.replySlot = 0 → s.postsIn p →
         leaves (t.serve p) (counted.serve p)))) ∧
  (∀ (tag epoch sequence : Nat) (s : State), s.ready →
     ((∀ r ∈ s.records, ¬ (r.epoch = epoch ∧ r.sequence = sequence ∧ r.state = .sent)) →
       exec (.journalAckRetry tag epoch sequence) s =
         .next ((s.answered tag (.journalAck epoch sequence 3) { status := .notFound, result := .empty }).finish s)) ∧
     (∀ before (r : Record) after, s.records = before ++ r :: after → r.epoch = epoch → r.sequence = sequence →
       r.state = .sent → (∀ x ∈ before ++ after, ¬ (x.epoch = epoch ∧ x.sequence = sequence ∧ x.state = .sent)) →
       let makes := fun (x : Record) (what : Disposition) =>
         exec (.journalAckRetry tag epoch sequence) s =
           .next (((s.putJournal { s.store.journal.cur with records := before ++ x :: after }).answered tag
             (.journalAck epoch sequence 3) { status := .ok, result := .disposition what none }).finish s)
       (r.retries = 1 → makes { r with state := .parked, retries := 0 } .parked) ∧
       (r.retries ≠ 1 → makes { r with state := .unsent, retries := r.retries - 1 } .requeued)))

/-- JOURNAL_REOFFER: every PARKED record is UNSENT again in its place with the retry limit in force as its retry count, and the
answer is OK with the number of records reoffered; other records stand as they were (R165). -/
def Obligations.ReofferResult : Prop :=
  ∀ (tag : Nat) (s : State), s.ready →
    exec (.journalReoffer tag) s =
      .next (((s.putJournal { s.store.journal.cur with
          records := s.records.map (fun r =>
            if r.state = .parked then { r with state := .unsent, retries := s.settings.retryLimit } else r) }).answered tag
        .journalReoffer { status := .ok, result := .count (s.records.countP (fun r => r.state == .parked)) }).finish s)

/-- LINK_STATE UP sets the backhaul state; LINK_STATE DOWN sets it and returns every SENT record to UNSENT in its place, its
retry count unchanged (R166). -/
def Obligations.LinkStateResult : Prop :=
  ∀ (tag : Nat) (s : State), s.ready →
    exec (.linkStateUp tag) s =
      .next ((({ s with backhaul := .up } : State).answered tag (.linkState 1) { status := .ok, result := .empty }).finish s) ∧
    exec (.linkStateDown tag) s =
      .next (((({ s with backhaul := .down } : State).putJournal { s.store.journal.cur with
          records := s.records.map (fun r => if r.state = .sent then { r with state := .unsent } else r) }).answered tag
        (.linkState 2) { status := .ok, result := .count (s.records.countP (fun r => r.state == .sent)) }).finish s)

/-- DIRECTIVE: an id in the queue is DUPLICATE, and with 8 directives queued it is FULL. Else it joins the end of the queue
with the time of its arrival and is QUEUED with the number ahead of it. With no journal slot free it waits there; with one
free and no producer waiting it is at the head and executes at once, its DIRECTIVE_REPLY posted (R160, R170, R171). So a
DENY_ADD of an id not on the list leaves the id on the list and its reply in the journal (R177). -/
def Obligations.DirectiveIsQueued : Prop :=
  ∀ (tag id kind : Nat) (args : List Byte) (s : State), s.ready →
    let gives := fun (t : State) (r : Reply) =>
      exec (.directive tag id kind args) s = .next ((t.answered tag (.directive id kind args) r).finish s)
    ((∃ x ∈ s.directives, x.id = id) → gives s { status := .duplicate, result := .empty }) ∧
    ((∀ x ∈ s.directives, x.id ≠ id) → 8 ≤ s.directives.length → gives s { status := .full, result := .empty }) ∧
    ((∀ x ∈ s.directives, x.id ≠ id) → s.directives.length < 8 → s.free = 0 →
      gives { s with directives := s.directives ++ [{ id := id, kind := kind, args := args, arrival := s.now }] }
        { status := .queued, result := .ahead s.directives.length }) ∧
    (0 < s.free → s.firstPlace = none →
      let x : Directive := { id := id, kind := kind, args := args, arrival := s.now }
      let done := ({ s with directives := [x] } : State).executeHead
      (done.free = 0 ∨ done.firstPlace = none → gives done { status := .queued, result := .ahead 0 }) ∧
      (∀ m, kind = 4 → s.replySlot = 0 → argument args 0 4 1 99999999 = some m → m ∉ s.denied → s.denied.length < 1024 →
        gives ((s.putDenied (insertId m s.denied)).replied x [] .done none (.deny true (s.denied.length + 1)))
          { status := .queued, result := .ahead 0 }))

/-! ### Power and the start-up -/

/-- POWER_ON makes a start-up due in a part without power, which START_UP then runs whole, the model's choice (log 5; R194,
R196). POWER_LOSS keeps the store, but for the copy being written of each region whose write it interrupts, and loses
everything else (R194, R196). What is lost field by field, at POWER_LOSS and not at the start-up, and that the operand of
POWER_LOSS names the regions whose copy is spoilt, are the model's (log 14): time, nodes, strings, docks, attention, runs of
taps, timers, lists, counts, the van session and the link. Both examinations are then due 60 s after a start-up (log 8). The
commands that wait (log 22) and the position of the code generator (log 2) are no part of what is lost. The store check
takes the newer copy that is sound of each region, and writes a region with no sound copy to its defaults; a damaged
journal, or a damaged epoch region, leaves the journal empty, the epoch one higher and the numbering at 1 (R194). -/
def Obligations.PowerAndStore : Prop :=
  (∀ (l : List RegionName) (s : State),
     (s.power = .off → exec .powerOn s = .next { s with power := .startDue .powerOn }) ∧
     (s.power ≠ .off → exec .powerOn s = .next s) ∧
     ∃ t : State, exec (.powerLoss l) s = .next t ∧
       t =
         { pending := s.pending, power := .off, elapsed := 0, clock := .unset, store := t.store, stationId := 0
           strings := List.replicate 4 (.atStart 0), nodes := List.replicate 64 (.atStart 0)
           docks := List.replicate 64 (.atStart false), censusLimit := none, censusReported := false
           hireExamAt := 60000, passExamAt := 60000, codePosition := s.codePosition, setAside := 0, replySlot := 0
           backhaul := .up, fatal := 0, sixth := [], attention := .clear, faults := [], faultsDropped := 0
           readerRuns := List.replicate 64 0, offlineAt := List.replicate 64 none, van := .idleWith 1
           directives := [], link := .atStart } ∧
       t.store.settings = { s.store.settings with
         curSound := s.store.settings.curSound && !l.contains .settings } ∧
       t.store.plans = { s.store.plans with curSound := s.store.plans.curSound && !l.contains .plans } ∧
       t.store.tariffs = { s.store.tariffs with curSound := s.store.tariffs.curSound && !l.contains .tariffs } ∧
       t.store.deny = { s.store.deny with curSound := s.store.deny.curSound && !l.contains .denyList } ∧
       t.store.passes = { s.store.passes with curSound := s.store.passes.curSound && !l.contains .passes } ∧
       t.store.hires = { s.store.hires with curSound := s.store.hires.curSound && !l.contains .openHires } ∧
       t.store.settle = { s.store.settle with curSound := s.store.settle.curSound && !l.contains .settle } ∧
       t.store.journal = { s.store.journal with curSound := s.store.journal.curSound && !l.contains .journal } ∧
       t.store.hireCount = { s.store.hireCount with curSound := s.store.hireCount.curSound && !l.contains .hireCount } ∧
       t.store.epoch = { s.store.epoch with curSound := s.store.epoch.curSound && !l.contains .epoch }) ∧
  ((∀ (α : Type) (r : Region α) (d : α),
     (r.curSound = true → (r.check d).1.cur = r.cur ∧ (r.check d).2 = false) ∧
     (r.curSound = false → r.oldSound = true → (r.check d).1.cur = r.old ∧ (r.check d).2 = false) ∧
     (r.curSound = false → r.oldSound = false → (r.check d).1.cur = d ∧ (r.check d).2 = true)) ∧
   (∀ s : State, s.store.journal.isDamaged = true ∨ s.store.epoch.isDamaged = true →
     s.store.hires.isDamaged = false → s.store.settle.isDamaged = false →
     s.checkStore.records = [] ∧ s.checkStore.store.journal.cur.next = 1 ∧
       s.checkStore.store.epoch.cur.epoch =
         (if s.store.epoch.isDamaged then 1 else ((s.store.epoch.check { epoch := 0, stationId := 0 }).1.cur.epoch + 1) % 65536)) ∧
   (∀ s : State, s.store.journal.isDamaged = false → s.store.epoch.isDamaged = false →
     s.store.passes.isDamaged = false → s.store.hires.isDamaged = false → s.store.settle.isDamaged = false →
     s.checkStore = { s with store := s.store.check }))

/-- START_UP runs where a start-up is due: the elapsed base starts at 0 with the clock UNSET, station id and node counts
stored take effect, every dock is OFFLINE without a bike, configured by the counts in force, 0 while no station id is assigned
(R1, R17, R190, R194 to R196). No request, directive or fault is held, no slot set aside, no fault dropped, no FATAL counted;
attention is clear, the van IDLE with counter 1, no reader run or offline timer runs; and the marks of ATTENTION, VAN_STATE,
DOCK_STATE, and of PASS_STATE where no pass changes state (log 14), are clear (R76, R125 to R127, R132, R134, R168, R170,
R190).
Of what the store retains stands, by the copy taken: settings, plans, deny list, hire count, tariff set but for a
TARIFF_APPLIED served, open hires, serial counter (R59, R77, R101, R194). The journal keeps its records in order, SENT ones
UNSENT again; new ones follow, numbered on under the epoch in force; with the journal or epoch region damaged none is left,
the epoch is one higher and the numbering at 1 (R157, R168). ISSUED, IDLE and ON_RIDE passes stand; a SETTLING one has
PASS_SETTLE posted or waits for room; with the open hires or settle region damaged a ride of ON_RIDE or CLOSING ends at no
charge; a CLOSING pass is charged by its HELD entry. With the pass region damaged the PASS hires go. Each HELD entry is
finalised with cause STARTUP, its HIRE_CLOSE posted or WAITING; a WAITING one stands or is posted, the first before all else
where a slot is free, an order of the model (log 14; R59, R70, R77, R111, R160, R196). START is recorded with cause and
damaged regions. Every node is ENUMERATING; the census limit of 5 s runs where a dock is configured; else the census phase
ends at once (R196, R197).
CENSUS_LIMIT_EXPIRY at its end, with room: the census phase ends, DOCK_CENSUS is posted, and a dock still OFFLINE sets
attention, in the model a configured one (log 17). Before, nothing happens (R126, R197). -/
def Obligations.StartUpAndCensus : Prop :=
  (∀ (failing : List (RegionName × CopyRole)) (cause : StartCause) (s : State), s.power = .startDue cause →
     ∃ t : State, exec (.startUp failing) s = .next t ∧ t.power = .running ∧ t.elapsed = 0 ∧ t.clock = .unset ∧
       t.recordsIn .sent = 0 ∧ t.stationId = t.store.epoch.cur.stationId ∧ t.setAside = 0 ∧ t.backhaul = .up ∧
       t.link.holding = [] ∧ t.link.noticeNumber = 1 ∧ t.directives = [] ∧ t.faults = [] ∧ t.pending = s.pending ∧
       t.van = .idleWith 1 ∧ t.attention = .clear ∧ t.readerRuns = List.replicate 64 0 ∧
       t.offlineAt = List.replicate 64 none ∧ t.faultsDropped = 0 ∧ t.fatal = 0 ∧
       t.link.marks.attention = false ∧ t.link.marks.vanState = false ∧ t.link.marks.dockState = false ∧
       t.strings.map (fun l => l.count) =
         (if t.stationId = 0 then [0, 0, 0, 0]
          else [t.settings.countA, t.settings.countB, t.settings.countC, t.settings.countD]) ∧
       t.docks = dockNumbers.map (fun d => Dock.atStart
         (decide ((d - 1) % 16 < (t.strings.map (fun l => l.count)).getD ((d - 1) / 16) 0))) ∧
       (∀ d ∈ dockNumbers, t.node d =
         { phase := .enumerating, silenceAt := 2000, lastEvent := none, power := .normal, counter := 1, current := none
           waiting := [], censused := false }) ∧
       ((∃ d ∈ dockNumbers, (t.dock d).configured = true) → t.censusLimit = some 5000) ∧
       ((∀ d ∈ dockNumbers, (t.dock d).configured = false) → t.censusLimit = none ∧
         ∃ b : CensusBody, b.reason = .startup ∧ b.items = [] ∧
           ((∃ r ∈ t.records, r.body = .dockCensus b) ∨ .dockCensus b ∈ t.sixth)) ∧
       (let store := if cause = .store then s.store else failing.foldl Store.spoil s.store
        let kept := (store.settle.check { entries := [], lost := 0 }).1.cur.entries
        (∃ b : StartBody, b.cause = cause ∧ b.damaged = store.damaged ∧ b.stationId = t.stationId ∧
          b.counts = t.strings.map (fun l => l.count) ∧ b.openHires = t.hires.length ∧
          b.passes = t.store.passes.cur.slots.countP (fun p => p.isSome) ∧
          ((∃ r ∈ t.records, r.body = .start b ∧ r.epoch = b.epoch ∧ r.time = none) ∨ .start b ∈ t.sixth)) ∧
        (kept.length ≤ 64 →
          (∀ e ∈ t.entries, e.isHeld = false) ∧
          (∀ e ∈ kept, e.isHeld = true →
            (∃ r ∈ t.records, ∃ pass lost, r.body = .hireClose e.close e.waiver .startup none pass lost) ∨
            (∃ x ∈ t.entries, ∃ pass, x = { e with stage := .waiting .startup none pass })))) ∧
       (let store := if cause = .store then s.store else failing.foldl Store.spoil s.store
        let hires := (store.hires.check []).1.cur
        let passes := (store.passes.check { slots := List.replicate 32 none, serial := 1 }).1.cur
        let tariffs := (store.tariffs.check .default).1.cur
        let settle := (store.settle.check { entries := [], lost := 0 }).1.cur
        let epoch := (store.epoch.check { epoch := 0, stationId := 0 }).1.cur
        let cleared := store.journal.isDamaged || store.epoch.isDamaged
        let journal := if cleared then { records := [], next := 1 }
          else (store.journal.check { records := [], next := 1 }).1.cur
        let number := if cleared then (epoch.epoch + 1) % 65536 else epoch.epoch
        let recorded := fun (b : Body) => ∃ r ∈ t.records, r.body = b
        let settled := fun (slot : Nat) (p : Pass) =>
          (t.pass slot = some p ∧ t.free = 0) ∨ (t.pass slot = none ∧ recorded (.passSettle slot p))
        t.store.settings.cur = (store.settings.check .default).1.cur ∧ t.plans = (store.plans.check plansDefault).1.cur ∧
        t.denied = (store.deny.check []).1.cur ∧ t.store.hireCount.cur = (store.hireCount.check 1).1.cur ∧
        t.stationId = epoch.stationId ∧
        t.hires = (if store.passes.isDamaged then hires.filter (fun h => match h.hirer with | .pass _ _ => false | _ => true)
          else hires) ∧
        { t.tariffs with waiting := tariffs.waiting } = tariffs ∧
        (t.tariffs.waiting = tariffs.waiting ∨
          (t.tariffs.waiting = none ∧ ∃ a, tariffs.waiting = some a ∧ recorded (.tariffApplied a))) ∧
        (journal.next ≤ 4294966000 →
          t.store.epoch.cur.epoch = number ∧
          ∃ made : List Record,
            t.records = journal.records.map (fun r => if r.state = .sent then { r with state := .unsent } else r) ++ made ∧
            t.store.journal.cur.next = journal.next + made.length ∧
            made.map (fun r => r.sequence) = List.range' journal.next made.length ∧
            (∀ r ∈ made, r.epoch = number ∧ r.time = none ∧ r.state = .unsent ∧ r.retries = t.settings.retryLimit) ∧
            (∀ before e after cause' time pass, settle.entries = before ++ e :: after → (∀ x ∈ before, x.isHeld = true) →
              e.stage = .waiting cause' time pass → journal.records.length < 256 →
              ∃ r rest, made = r :: rest ∧ r.body = .hireClose e.close e.waiver cause' time pass settle.lost)) ∧
        t.store.passes.cur.serial = passes.serial ∧
        ((∀ slot ∈ slotNumbers, (t.pass slot).map (fun p => p.state) =
            (entryAt passes.slots slot).join.map (fun p => p.state)) → t.link.marks.passState = false) ∧
        (∀ slot ∈ slotNumbers,
          (entryAt passes.slots slot = some none → t.pass slot = none) ∧
          (∀ p, entryAt passes.slots slot = some (some p) →
            (p.state = .issued ∨ p.state = .idle ∨ (p.state = .onRide ∧ store.hires.isDamaged = false) →
              t.pass slot = some p) ∧
            (p.state = .settling → settled slot p) ∧
            ((p.state = .onRide ∧ store.hires.isDamaged = true) ∨ (p.state = .closing ∧ store.settle.isDamaged = true) →
              let ended : Pass := { p with current := none, rides := min 255 (p.rides + 1) }
              (p.kind = .day → t.pass slot = some { ended with state := .idle }) ∧
              (p.kind = .single → settled slot { ended with state := .settling })) ∧
            (∀ e ∈ settle.entries, settle.entries.length ≤ 64 → e.isHeld = true → e.close.hirer = .pass slot p.serial →
              p.state = .closing → p.current = some e.close.ref →
              (∀ x ∈ settle.entries, x.isHeld = true → x.close.ref = e.close.ref → x = e) →
              let fare := if e.waiver = none then e.close.fare else 0
              let charge := min fare (p.hold - p.charged)
              let charged : Pass :=
                { p with
                  current := none, rides := min 255 (p.rides + 1), charged := p.charged + charge
                  shortfall := p.shortfall || decide (charge < fare) }
              (p.kind = .day → t.pass slot = some { charged with state := .idle }) ∧
              (p.kind = .single → settled slot { charged with state := .settling })))) ∧
        (t.entries.map (fun e => e.close)).Sublist (settle.entries.map (fun e => e.close)) ∧
        (∀ e ∈ settle.entries, ∀ cause' time pass, e.stage = .waiting cause' time pass →
          e ∈ t.entries ∨ ∃ lost, recorded (.hireClose e.close e.waiver cause' time pass lost)) ∧
        (t.store.settle.cur.lost = settle.lost ∨
          (t.store.settle.cur.lost = 0 ∧ ∃ r ∈ t.records, ∃ c w cause' time pass,
            r.body = .hireClose c w cause' time pass settle.lost)))) ∧
  (∀ s : State, s.power = .running →
     (s.censusLimit = none ∨ (∃ t, s.censusLimit = some t ∧ s.elapsed < t) →
       exec .censusLimitExpiry s = .next (s.finish s)) ∧
     (∀ t, s.censusLimit = some t → t ≤ s.elapsed → 0 < s.free → s.sixth = [] →
       let posted := ({ s with censusLimit := none } : State).post (.dockCensus
         { reason := .startup, stock := s.stock, available := s.available
           items := (dockNumbers.filter (fun d => (s.dock d).configured)).map (fun d =>
             { dock := d, state := (s.dock d).state, lock := (s.dock d).lock, counter := (s.dock d).counter
               reservation := (s.dock d).reservation, bike := (s.dock d).bike.map Bike.item }) })
       ((∃ d ∈ dockNumbers, (s.dock d).configured = true ∧ (s.dock d).state = .offline) →
         exec .censusLimitExpiry s = .next ((posted.setAttention .offline).finish s)) ∧
       ((∀ d ∈ dockNumbers, (s.dock d).configured = true → (s.dock d).state ≠ .offline) →
         exec .censusLimitExpiry s = .next (posted.finish s))))

/-! ### Services of the room arbiter -/

/-- HIRE_CLOSE, PASS_SETTLE, VAN_MOVE, VAN_SUMMARY and FAULT, each where a slot is free and its place is the first that
holds a waiting record: the oldest WAITING close, the lowest SETTLING pass, the oldest move, the summary once no move waits,
and the oldest fault are posted and leave their place (R75, R109, R131, R152, R153, R160). START, DOCK_CENSUS, CLOCK_STEP
and TARIFF_APPLIED, where a slot is free and only the sixth place holds a waiting record: the oldest is posted and leaves
the place, and a TARIFF_APPLIED posted no longer waits in the tariff set (R88, R160). Where no slot is free, nothing
happens.
How a record comes to wait: a FAULT record is posted, with the count of those dropped, where a slot is free and none waits;
else it is added to the list. In a full list of 32 a record of effect NOTED or SUSPECT is itself dropped; another one takes
the room of the oldest of effect NOTED or SUSPECT, or, where there is none, of the oldest; each drop is counted (R130,
R131). A move counted raises the entry's done count and VAN_STATE; its VAN_MOVE is posted where a slot is free and none
waits, else added to the list, and with 64 waiting it is dropped and counted (R142, R143, R152). -/
def Obligations.RoomArbiterServes : Prop :=
  (∀ s : State, s.power = .running →
     (s.free = 0 → ∀ c ∈ [Instr.hireClose, .passSettle, .vanMove, .vanSummary, .fault], exec c s = .next (s.finish s)) ∧
     (0 < s.free →
       (∀ before (e : SettleEntry) after cause time pass, s.entries = before ++ e :: after →
         (∀ x ∈ before, x.isHeld = true) → e.stage = .waiting cause time pass →
         exec .hireClose s = .next (((s.post (.hireClose e.close e.waiver cause time pass s.store.settle.cur.lost)).putSettle
           { entries := before ++ after, lost := 0 }).finish s)) ∧
       (∀ slot p, s.noClose → slot ∈ slotNumbers → s.pass slot = some p → p.state = .settling →
         (∀ other ∈ slotNumbers, other < slot → ∀ q, s.pass other = some q → q.state ≠ .settling) →
         exec .passSettle s = .next (((s.post (.passSettle slot p)).putPass slot none).finish s)) ∧
       (∀ m rest, s.noClose → s.noSettling → s.van.moves = m :: rest →
         exec .vanMove s =
           .next ((({ s with van := { s.van with moves := rest } } : State).post (.vanMove m)).finish s)) ∧
       (∀ v, s.noClose → s.noSettling → s.van.moves = [] → s.van.summary = some v →
         exec .vanSummary s = .next (((s.post (.vanSummary v)).putVan (.idleWith s.van.counter)).finish s)) ∧
       (∀ f rest, s.noClose → s.noSettling → s.van.moves = [] → s.van.summary = none → s.faults = f :: rest →
         exec .fault s = .next (({ ({ s with faults := rest } : State).post (.fault f s.faultsDropped) with
           faultsDropped := 0 } : State).finish s)))) ∧
  (∀ (rest : List SixthRecord) (s : State), s.power = .running →
     (s.free = 0 → ∀ c ∈ [Instr.start, .dockCensus, .clockStep, .tariffApplied], exec c s = .next (s.finish s)) ∧
     (0 < s.free → s.noClose → s.noSettling → s.van.moves = [] → s.van.summary = none → s.faults = [] →
       s.directives = [] →
       let served : State := { s with sixth := rest }
       (∀ b, s.sixth = .start b :: rest → exec .start s = .next ((served.post (.start b)).finish s)) ∧
       (∀ b, s.sixth = .dockCensus b :: rest → exec .dockCensus s = .next ((served.post (.dockCensus b)).finish s)) ∧
       (∀ x y, s.sixth = .clockStep x y :: rest → exec .clockStep s = .next ((served.post (.clockStep x y)).finish s)) ∧
       (∀ w, s.sixth = .tariffApplied :: rest → s.tariffs.waiting = some w →
         exec .tariffApplied s = .next (((served.post (.tariffApplied w)).putTariffs
           { s.tariffs with waiting := none }).finish s)))) ∧
  (∀ (f : FaultRecord) (s : State),
     let minor := fun (x : FaultRecord) => x.effect = .noted ∨ x.effect = .suspect
     let keeps := fun (l : List FaultRecord) =>
       s.makeFault f = { s with faults := l, faultsDropped := min 65535 (s.faultsDropped + 1) }
     (0 < s.free → s.faults = [] → s.makeFault f = { s.post (.fault f s.faultsDropped) with faultsDropped := 0 }) ∧
     (s.free = 0 ∨ s.faults ≠ [] →
       (s.faults.length < 32 → s.makeFault f = { s with faults := s.faults ++ [f] }) ∧
       (32 ≤ s.faults.length →
         (minor f → keeps s.faults) ∧
         (∀ before x after, ¬ minor f → s.faults = before ++ x :: after → minor x → (∀ y ∈ before, ¬ minor y) →
           keeps (before ++ after ++ [f])) ∧
         (∀ oldest rest, ¬ minor f → s.faults = oldest :: rest → (∀ y ∈ s.faults, ¬ minor y) → keeps (rest ++ [f]))))) ∧
  (∀ (collect : Bool) (n d bike : Nat) (reserved : Option Bool) (e : ManifestEntry) (s : State),
     entryAt s.van.manifest n = some e →
     let move : VanMove :=
       { session := s.van.session, van := s.van.van, collect := collect, entry := n, dock := d, bikeId := bike, time := s.now
         reserved := reserved }
     let manifest := setEntry s.van.manifest n { e with done := e.done + 1 }
     let counts := fun (t : State) => s.countMove collect n d bike reserved = t.raise .vanState
     (s.van.moves = [] → 0 < s.free →
       counts { s.post (.vanMove move) with van := { s.van with manifest := manifest } }) ∧
     (s.van.moves ≠ [] ∨ s.free = 0 →
       (s.van.moves.length < 64 →
         counts { s with van := { s.van with manifest := manifest, moves := s.van.moves ++ [move] } }) ∧
       (64 ≤ s.van.moves.length →
         counts { s with van := { s.van with manifest := manifest, dropped := min 65535 (s.van.dropped + 1) } })))

/-! ### Directives at the head of the queue -/

/-- DENY_ADD and DENY_REMOVE at the head: a member id outside its range is OUT_OF_RANGE; an id added joins the list in
order, one held is DONE unchanged, and the 1,025th is TABLE_FULL; an id removed leaves the list, and one not held is
NOT_FOUND (R171, R172, R177). That DONE carries the number of ids held, also where nothing changed, and that TABLE_FULL and
NOT_FOUND carry no result field is the model's choice (log 24); that an argument too short for the field fails its range is
read from R172 (log 13). An id added to the deny list is placed so that the list stays in ascending order without repeats
(R48, R177). -/
def Obligations.DenyDirectives : Prop :=
  (∀ (x : Directive) (rest : List Directive) (s : State), s.headDue x rest →
     let ends := fun (i : Instr) (t : State) (o : DirectiveOutcome) (r : DirectiveResult) =>
       exec i s = .next ((t.replied x rest o none r).finish s)
     (x.kind = 4 →
       (argument x.args 0 4 1 99999999 = none → ends .denyAdd s .outOfRange (.field .member)) ∧
       (∀ m, argument x.args 0 4 1 99999999 = some m →
         (m ∈ s.denied → ends .denyAdd s .done (.deny false s.denied.length)) ∧
         (m ∉ s.denied → 1024 ≤ s.denied.length → ends .denyAdd s .tableFull .empty) ∧
         (m ∉ s.denied → s.denied.length < 1024 →
           ends .denyAdd (s.putDenied (insertId m s.denied)) .done (.deny true (s.denied.length + 1))))) ∧
     (x.kind = 5 →
       (argument x.args 0 4 1 99999999 = none → ends .denyRemove s .outOfRange (.field .member)) ∧
       (∀ m, argument x.args 0 4 1 99999999 = some m →
         (m ∉ s.denied → ends .denyRemove s .notFound .empty) ∧
         (∀ before after, s.denied = before ++ m :: after → m ∉ before → m ∉ after →
           ends .denyRemove (s.putDenied (before ++ after)) .done (.deny true (before.length + after.length)))))) ∧
  (∀ (m : Nat) (l : List Nat), l.Pairwise (· < ·) → m ∉ l →
     (insertId m l).Pairwise (· < ·) ∧ ∀ x, x ∈ insertId m l ↔ x = m ∨ x ∈ l)

/-- BIKE_SET at the head, its arguments in range: NOT_PRESENT where no dock records the bike, CONDITION_FALSE where its
condition is not the one given, TARGET_BUSY at a dock in a transient state, and DONE unchanged for NOP. RECALL and
QUARANTINE of a bike in another condition write the condition, and the FAULT record is posted where a slot is free beside
the reply's and none waits; QUARANTINE sets attention. AVAILABLE clears the fault set and the tallies with the condition,
with the effect CLEARED, and is DONE unchanged for a bike that is AVAILABLE with both empty (R39, R129, R171 to R173). That
NOT_PRESENT and TARGET_BUSY carry no result field is the model's choice (log 24). DOCK_CLEAR at the head: a LOCKED_OUT dock
gets counter 0 and is left by presence and lock state, LOCK being issued where its bike is not locked in, and the FAULT
record with effect CLEARED is posted; a dock in a transient state is TARGET_BUSY, and any other is CONDITION_FALSE (R41,
R129, R171, R172, R174). -/
def Obligations.BikeAndDockDirectives : Prop :=
  (∀ (x : Directive) (rest : List Directive) (s : State) (bike condition next : Nat), s.headDue x rest → x.kind = 1 →
     argument x.args 0 4 1 16777215 = some bike → argument x.args 4 1 1 4 = some condition →
     argument x.args 5 1 1 4 = some next →
     let ends := fun (t : State) (o : DirectiveOutcome) (r : Option Reason) (a : DirectiveResult) =>
       exec .bikeSet s = .next ((t.replied x rest o r a).finish s)
     let asked := fun (c : Condition) =>
       condition = 1 ∨ (condition = 2 ∧ c = .available) ∨ (condition = 3 ∧ c = .quarantined) ∨ (condition = 4 ∧ c = .recalled)
     (s.dockOfBike bike = none → ends s .notPresent none .empty) ∧
     (∀ d b, s.dockOfBike bike = some d → (s.dock d).bike = some b →
       (¬ asked b.condition → ends s .conditionFalse (some .condition) (.conditionFound b.condition)) ∧
       (asked b.condition → (s.dock d).state.transient = true → ends s .targetBusy none .empty) ∧
       (asked b.condition → (s.dock d).state.transient = false →
         (next = 1 → ends s .done none (.bikeSet bike d b.condition b.condition false)) ∧
         (next = 3 → b.condition = .quarantined → ends s .done none (.bikeSet bike d .quarantined .quarantined false)) ∧
         (next = 4 → b.condition = .recalled → ends s .done none (.bikeSet bike d .recalled .recalled false)) ∧
         (1 < s.free → s.replySlot = 0 →
           let record : FaultRecord :=
             { subject := .bike, dock := some d, bikeId := some b.id, tagBikeId := none, tagRef := none, kind := none
               source := some .central, cause := none, reporter := none, reporters := none, confirmCount := none
               effect := .noted, conditionAfter := some .recalled, counterAfter := none, counterBefore := none
               dockState := none, bikeAbsent := false }
           (next = 4 → b.condition ≠ .recalled →
             let t := (s.putDock d { s.dock d with bike := some { b with condition := .recalled } }).post
               (.fault record s.faultsDropped)
             ends ({ t with faultsDropped := 0 } : State) .done none (.bikeSet bike d b.condition .recalled true)) ∧
           (next = 3 → b.condition ≠ .quarantined →
             let t := (s.putDock d { s.dock d with bike := some { b with condition := .quarantined } }).post
               (.fault { record with effect := .quarantined, conditionAfter := some .quarantined } s.faultsDropped)
             ends (({ t with faultsDropped := 0 } : State).setAttention .quarantine) .done none
               (.bikeSet bike d b.condition .quarantined true)) ∧
           (next = 2 → b.condition ≠ .available ∨ b.faults ≠ [] ∨ (∃ x ∈ b.tallies, x ≠ []) →
             let t := (s.putDock d { s.dock d with bike := some { b with
                 condition := .available, faults := [], tallies := [[], [], [], [], [], [], [], []] } }).post
               (.fault { record with effect := .cleared, conditionAfter := some .available } s.faultsDropped)
             ends ({ t with faultsDropped := 0 } : State) .done none (.bikeSet bike d b.condition .available true))) ∧
         (next = 2 → b.condition = .available → b.faults = [] → (∀ x ∈ b.tallies, x = []) →
           ends s .done none (.bikeSet bike d .available .available false))))) ∧
  (∀ (x : Directive) (rest : List Directive) (s : State), s.headDue x rest → x.kind = 2 →
     let ends := fun (t : State) (o : DirectiveOutcome) (r : Option Reason) (a : DirectiveResult) =>
       exec .dockClear s = .next ((t.replied x rest o r a).finish s)
     (argument x.args 0 1 1 64 = none → ends s .outOfRange none (.field .dock)) ∧
     (∀ d, argument x.args 0 1 1 64 = some d →
       ((s.dock d).state.transient = true →
         ends s .targetBusy none (.dockClear d (s.dock d).counter (s.dock d).state)) ∧
       ((s.dock d).state.transient = false → (s.dock d).state ≠ .lockedOut →
         ends s .conditionFalse (some .notLockedOut) (.dockClear d (s.dock d).counter (s.dock d).state)) ∧
       ((s.dock d).state = .lockedOut → 1 < s.free → s.replySlot = 0 →
         let record := fun (after : DockState) => Body.fault
           { subject := .dock, dock := some d, bikeId := (s.dock d).bike.map (fun b => b.id), tagBikeId := none
             tagRef := none, kind := none, source := none, cause := none, reporter := none, reporters := none
             confirmCount := none, effect := .cleared, conditionAfter := none, counterAfter := some 0
             counterBefore := some (s.dock d).counter, dockState := some after, bikeAbsent := false } s.faultsDropped
         let cleared := fun (after : DockState) => s.putDock d { s.dock d with counter := 0, state := after }
         let done := fun (t : State) (after : DockState) =>
           ends ({ t.post (record after) with faultsDropped := 0 } : State) .done none
             (.dockClear d (s.dock d).counter after)
         ((s.dock d).bike = none → done (cleared .empty) .empty) ∧
         (∀ b, (s.dock d).bike = some b →
           ((s.dock d).lock = .locked → done (cleared .occupied) .occupied) ∧
           ((s.dock d).lock ≠ .locked → done ((cleared .relocking).issue d .lock) .relocking)))))

/-- REMOTE_RELEASE at the head, its arguments in range: with the clock UNSET it is CONDITION_FALSE; and where the dock is
ready with an AVAILABLE bike, the member is not denied, the plan admits with a hire limit above the member's hires, and
table and journal have room, the close of a settling bike is finalised early with reason RELEASE, and the release begins
with the next hire reference and a slot set aside (R21, R23, R50, R52, R159, R171, R172, R175, R176; R106). The reference a
release takes carries the station id in force, and no open hire and no release in flight holds it, wherever they are fewer
than 161 (R50). -/
def Obligations.RemoteReleaseDirective : Prop :=
  (∀ (x : Directive) (rest : List Directive) (s : State) (d member plan : Nat), s.headDue x rest → x.kind = 3 →
     argument x.args 0 1 1 64 = some d → argument x.args 1 4 1 99999999 = some member →
     argument x.args 5 1 0 14 = some plan →
     let ends := fun (t : State) (o : DirectiveOutcome) (r : Option Reason) (a : DirectiveResult) =>
       exec .remoteRelease s = .next ((t.replied x rest o r a).finish s)
     (s.now = none → ends s .conditionFalse (some .clockUnset) .empty) ∧
     (s.now ≠ none → (s.dock d).configured = false ∨ (s.dock d).state = .offline →
       ends s .notPresent (some .dockOffline) .empty) ∧
     (s.now ≠ none → (s.dock d).configured = true → (s.dock d).state ≠ .offline → (s.dock d).bike = none →
       ends s .notPresent (some .noBike) .empty) ∧
     (∀ b, s.now ≠ none → (s.dock d).configured = true → (s.dock d).state ≠ .offline → (s.dock d).bike = some b →
       ((s.dock d).state = .lockedOut → ends s .conditionFalse (some .dockFault) .empty) ∧
       ((s.dock d).state ≠ .lockedOut →
         ((s.dock d).reservation ≠ .unreserved → ends s .conditionFalse (some .dockReserved) .empty) ∧
         ((s.dock d).reservation = .unreserved →
           (b.condition ≠ .available → ends s .conditionFalse (some .bikeUnavailable) .empty) ∧
           (b.condition = .available → (s.dock d).state.transient = true →
             ends s .targetBusy (some .dockBusy) .empty)))) ∧
     (∀ t b p, s.now = some t → (s.dock d).configured = true → (s.dock d).state = .occupied →
       (s.dock d).reservation = .unreserved → (s.dock d).bike = some b → b.condition = .available →
       (member ∈ s.denied → ends s .conditionFalse (some .cardDenied) .empty) ∧
       (member ∉ s.denied → s.plans[plan]? = some p →
         (p.admitted = false → ends s .conditionFalse (some .planClosed) .empty) ∧
         (p.admitted = true → p.hireLimit ≤ s.memberHires member →
           ends s .conditionFalse (some .hireLimit) .empty) ∧
         (p.admitted = true → s.memberHires member < p.hireLimit → 96 ≤ s.hires.length + s.hireReleases →
           ends s .tableFull (some .hireTableFull) .empty) ∧
         (p.admitted = true → s.memberHires member < p.hireLimit → s.hires.length + s.hireReleases < 96 →
           s.replySlot = 0 →
           (s.free ≤ s.settings.openReserve → ends s .conditionFalse (some .journalFull) .empty) ∧
           (s.settings.openReserve < s.free →
             let credit := if s.settings.highMark < s.stock then s.settings.releaseCredit else 0
             let image : TripImage :=
               { bikeId := b.id, ref := s.nextRef, hirer := .remote member, start := t, plan := plan
                 generation := s.tariffs.current.generation, credit := credit }
             let taken :=
               ({ s.putHireCount (if 16777215 ≤ s.nextRef.count then 1 else s.nextRef.count + 1) with
                 setAside := s.setAside + 1, replySlot := 1 } : State).settleDock d .release
             ends ((taken.putDock d { taken.dock d with
                 state := .tagWriting
                 release := some
                   { party := .hire (.remote member) none s.nextRef image, credit := credit, origin := .occupied
                     fromDock := false, expiryHeld := false } }).issue d (.tagWrite image))
               .done none (.remoteRelease d b.id s.nextRef)))))) ∧
  (∀ s : State, 1 ≤ s.store.hireCount.cur → s.store.hireCount.cur ≤ 16777215 → s.hires.length + s.releases.length ≤ 160 →
     s.nextRef.station = s.stationId ∧ 1 ≤ s.nextRef.count ∧ s.nextRef.count ≤ 16777215 ∧
       (∀ h ∈ s.hires, h.ref ≠ s.nextRef) ∧ (∀ r ∈ s.releases, r.ref? ≠ some s.nextRef))

/-- HIRE_CLOSED at the head: a reference that no open hire has is NOT_FOUND; the open hire of a member, a crew or a remote
release is removed and read back in the reply; and that of a DAY pass on ride, before its expiry, is removed with its ride
ended at no charge, the pass IDLE; where the clock is UNSET too; a SINGLE pass, or one at its expiry, settles, and its
PASS_SETTLE is posted where a slot is free beside the reply's, else it waits; and with no such pass on that ride the hire
alone goes, and the reply names the state of the slot of that serial (R71, R75, R171, R172, R178); that it names FREE where
the slot holds another serial, and that both replies name SETTLING although a PASS_SETTLE posted has left the slot FREE, is
the model's choice (log 24). PASS_CHARGE at the head: without a pass of that slot and serial on that ride it is
CONDITION_FALSE with PASS_STATE; a DAY pass before its expiry, or with the clock UNSET, is charged up to its balance, the
rest a shortfall, and is IDLE; a SINGLE pass, or one at its expiry, is charged likewise and settles (R70, R71, R75, R171,
R172, R179). -/
def Obligations.RideDirectives : Prop :=
  (∀ (x : Directive) (rest : List Directive) (s : State) (station count : Nat), s.headDue x rest → x.kind = 6 →
     argument x.args 0 2 1 4095 = some station → argument x.args 2 4 1 16777215 = some count →
     let ref : HireRef := { station := station, count := count }
     let ends := fun (t : State) (o : DirectiveOutcome) (a : DirectiveResult) =>
       exec .hireClosed s = .next ((t.replied x rest o none a).finish s)
     ((∀ h ∈ s.hires, h.ref ≠ ref) → ends s .notFound .empty) ∧
     (∀ before (h : OpenHire) after, s.hires = before ++ h :: after → h.ref = ref →
       (∀ g ∈ before ++ after, g.ref ≠ ref) →
       let removed := s.putHires (before ++ after)
       ((∀ slot serial, h.hirer ≠ .pass slot serial) → ends removed .done (.hireClosed h none)) ∧
       (∀ slot serial p, h.hirer = .pass slot serial → s.pass slot = some p → p.serial = serial → p.state = .onRide →
         p.current = some ref → p.kind = .day → (∀ t, s.now = some t → t < p.expiry) →
         ends (removed.putPass slot (some { p with state := .idle, current := none, rides := min 255 (p.rides + 1) }))
           .done (.hireClosed h (some .idle))) ∧
       (∀ slot serial, h.hirer = .pass slot serial →
         (∀ p, s.pass slot = some p → ¬ (p.serial = serial ∧ p.state = .onRide ∧ p.current = some ref)) →
         ends removed .done (.hireClosed h (match s.pass slot with
           | some p => if p.serial = serial then some p.state else none
           | none => none))) ∧
       (∀ slot serial p, h.hirer = .pass slot serial → s.pass slot = some p → p.serial = serial → p.state = .onRide →
         p.current = some ref → p.kind = .single ∨ (∃ t, s.now = some t ∧ p.expiry ≤ t) → s.replySlot = 0 →
         let q : Pass := { p with state := .settling, current := none, rides := min 255 (p.rides + 1) }
         (1 < s.free →
           ends (((removed.putPass slot (some q)).post (.passSettle slot q)).putPass slot none)
             .done (.hireClosed h (some .settling))) ∧
         (s.free = 1 → ends (removed.putPass slot (some q)) .done (.hireClosed h (some .settling)))))) ∧
  (∀ (x : Directive) (rest : List Directive) (s : State) (slot serial station count amount : Nat),
     s.headDue x rest → x.kind = 7 →
     argument x.args 0 1 1 32 = some slot → argument x.args 1 2 1 65535 = some serial →
     argument x.args 3 2 1 4095 = some station → argument x.args 5 4 1 16777215 = some count →
     argument x.args 9 2 0 65535 = some amount →
     let ref : HireRef := { station := station, count := count }
     ((∀ p, s.pass slot = some p → ¬ (p.serial = serial ∧ p.state = .onRide ∧ p.current = some ref)) →
       exec .passCharge s = .next ((s.replied x rest .conditionFalse (some .passState)
         (.passStateFound ((s.pass slot).map (fun p => p.state)))).finish s)) ∧
     (∀ p, s.pass slot = some p → p.serial = serial → p.state = .onRide → p.current = some ref → p.kind = .day →
       (∀ t, s.now = some t → t < p.expiry) →
       let charge := min amount (p.hold - p.charged)
       exec .passCharge s = .next ((((s.putHires (s.hires.filter (fun h => h.ref != ref))).putPass slot
           (some { p with
             state := .idle, current := none, rides := min 255 (p.rides + 1), charged := p.charged + charge
             shortfall := p.shortfall || decide (charge < amount) })).replied x rest .done none
           (.passCharge charge (amount - charge) .idle)).finish s)) ∧
     (∀ p, s.pass slot = some p → p.serial = serial → p.state = .onRide → p.current = some ref →
       p.kind = .single ∨ (∃ t, s.now = some t ∧ p.expiry ≤ t) → s.replySlot = 0 →
       let charge := min amount (p.hold - p.charged)
       let q : Pass :=
         { p with
           state := .settling, current := none, rides := min 255 (p.rides + 1), charged := p.charged + charge
           shortfall := p.shortfall || decide (charge < amount) }
       let settling := (s.putHires (s.hires.filter (fun h => h.ref != ref))).putPass slot (some q)
       let ends := fun (t : State) =>
         exec .passCharge s =
           .next ((t.replied x rest .done none (.passCharge charge (amount - charge) .settling)).finish s)
       (1 < s.free → ends ((settling.post (.passSettle slot q)).putPass slot none)) ∧
       (s.free = 1 → ends settling)))

/-- FAULT_SUMMARY at the head lists each dock that is LOCKED_OUT, OFFLINE, in the model a dock that is not configured too
(log 17), or holds a QUARANTINED bike, in dock order, with the attention flag as it stood, and clears the flag, raising
ATTENTION. CENSUS posts a DOCK_CENSUS of the configured docks before its reply, where two slots are free and the sixth place
is clear; else the record waits at the end of that place, and one of an earlier CENSUS directive that waits there is dropped
for it, which the reply says by REPLACED (R126, R128, R171, R180). A directive whose kind is none of the nine, or whose
arguments fail a range, is OUT_OF_RANGE by the first field that fails, and changes nothing (R172). The numbers 1 to 9 of the
kinds, and that an argument too short for a field fails its range, are read from R170 and R172 (log 13); the two field names
that a hire reference has there, for station and count, are the model's choice (log 18).
-/
def Obligations.ReportsAndRanges : Prop :=
  (∀ (x : Directive) (rest : List Directive) (s : State), s.headDue x rest →
     (x.kind = 8 →
       exec .faultSummary s = .next (((({ s with attention := .clear } : State).raise .attention).replied x rest .done none
         (.summary
           ((dockNumbers.filter (fun d => (s.dock d).state == .lockedOut || (s.dock d).state == .offline ||
               (s.dock d).holds .quarantined)).map (fun d =>
             { dock := d, state := (s.dock d).state, counter := (s.dock d).counter
               bike := (s.dock d).bike.map (fun b =>
                 { id := b.id, condition := b.condition, faults := b.faults, settling := b.settling }) }))
           s.attention)).finish s)) ∧
     (x.kind = 9 → s.replySlot = 0 →
       let items := (dockNumbers.filter (fun d => (s.dock d).configured)).map (fun d =>
         { dock := d, state := (s.dock d).state, lock := (s.dock d).lock, counter := (s.dock d).counter
           reservation := (s.dock d).reservation
           bike := (s.dock d).bike.map (fun b =>
             { id := b.id, condition := b.condition, faults := b.faults, settling := b.settling }) : CensusItem })
       let body : CensusBody := { reason := .directive x.id, stock := s.stock, available := s.available, items := items }
       let byDirective := fun (r : SixthRecord) =>
         (match r with | .dockCensus b => (match b.reason with | .directive _ => true | .startup => false) | _ => false)
       (1 < s.free → s.sixth = [] →
         exec .directiveCensus s = .next (((s.post (.dockCensus body)).replied x rest .done none
           (.census items.length true false)).finish s)) ∧
       (s.free = 1 ∨ s.sixth ≠ [] →
         exec .directiveCensus s =
           .next ((({ s with sixth := s.sixth.filter (fun r => !byDirective r) ++ [.dockCensus body] } : State).replied x rest
             .done none (.census items.length false (s.sixth.any byDirective))).finish s)))) ∧
  (∀ (x : Directive) (s : State),
     let names := fun (f : Field) => runDirective x s = (s, { outcome := .outOfRange, reason := none, result := .field f })
     (x.kind = 0 ∨ 9 < x.kind → names .kind) ∧
     (x.kind = 1 →
       (argument x.args 0 4 1 16777215 = none → names .bike) ∧
       (argument x.args 0 4 1 16777215 ≠ none →
         (argument x.args 4 1 1 4 = none → names .condition) ∧
         (argument x.args 4 1 1 4 ≠ none → argument x.args 5 1 1 4 = none → names .nextState))) ∧
     (x.kind = 3 →
       (argument x.args 0 1 1 64 = none → names .dock) ∧
       (argument x.args 0 1 1 64 ≠ none →
         (argument x.args 1 4 1 99999999 = none → names .member) ∧
         (argument x.args 1 4 1 99999999 ≠ none → argument x.args 5 1 0 14 = none → names .planCode))) ∧
     (x.kind = 6 →
       (argument x.args 0 2 1 4095 = none → names .hireStation) ∧
       (argument x.args 0 2 1 4095 ≠ none → argument x.args 2 4 1 16777215 = none → names .hireCount)) ∧
     (x.kind = 7 →
       (argument x.args 0 1 1 32 = none → names .slot) ∧
       (argument x.args 0 1 1 32 ≠ none →
         (argument x.args 1 2 1 65535 = none → names .serial) ∧
         (argument x.args 1 2 1 65535 ≠ none →
           (argument x.args 3 2 1 4095 = none → names .hireStation) ∧
           (argument x.args 3 2 1 4095 ≠ none →
             (argument x.args 5 4 1 16777215 = none → names .hireCount) ∧
             (argument x.args 5 4 1 16777215 ≠ none → argument x.args 9 2 0 65535 = none → names .amount))))))

/-! ### The dock line -/

/-- POLL: a string without nodes, or with a poll in progress, is left alone. Else the poll goes to the next address, the
round wraps after the last one, the census mark is set for a node that is not ANSWERING, and the current command of an
ANSWERING node is carried until it is acknowledged; the first poll that carries a command starts its confirmation deadline:
1 s for TAG_WRITE, 2 s for UNLOCK, 3 s for LOCK (R2, R3, R10, R12, R13). MISSED_POLL ends the poll in progress once its
reply window of 12 ms has passed, and nothing else (R2).
A CENSUS reply of a node not ANSWERING, whatever its cause, makes it so and reconciles its dock, and the census phase ends
if it was the last one due; of an ANSWERING node a DEMAND does the same (log 15), and a RESTART drops its commands first
(R4, R8, R37, R197). An OFFLINE dock without release or reservation is reconciled so, and its offline timer and run of taps
end. With no bike there the record held is discarded, its close finalised early with reason CENSUS. With the bike recorded
there the record stays: an unreadable tag is a TAG report, an ON_HIRE one has TAG_CLEAR issued and is no return. With a bike
there and none recorded, or another one, the old record is discarded likewise and one is made anew: by an unreadable tag, of
id 0 and TAG reported, only where none is recorded; by an id held in another dock, of id 0 with a conflict; by an IDLE tag,
of its id, in the model counting no delivery (log 16); and by an ON_HIRE tag as a return, flagged STARTUP_RETURN where the
clock is UNSET, with TAG_CLEAR issued and a HELD entry. The dock is EMPTY without a bike, else OCCUPIED, or RELOCKING with
LOCK issued where the lock is UNLOCKED; with its counter at the limit it is LOCKED_OUT and reported with cause CENSUS (log
17; R18, R30, R31, R37, R57, R91, R103, R106, R122, R124). -/
def Obligations.PollAndMissedPoll : Prop :=
  (∀ (x : StringName) (s : State), s.power = .running →
     let n := stringNumber x
     let l := s.line n
     let node := s.node (dockAt n l.next)
     (l.count = 0 ∨ l.poll ≠ none → exec (.poll x) s = .next (s.finish s)) ∧
     (0 < l.count → l.poll = none →
       let polled := fun (command : Option (Nat × Command)) =>
         s.putLine n
           { count := l.count, next := if l.count ≤ l.next then 1 else l.next + 1, resetSent := false
             poll := some
               { address := l.next, censusMark := decide (node.phase ≠ .answering), lastEvent := node.lastEvent
                 command := command, windowAt := s.elapsed + 12 } }
       (node.phase ≠ .answering ∨ (∀ c, node.current = some c → c.acknowledged = true) →
         exec (.poll x) s = .next ((polled none).finish s)) ∧
       (∀ c, node.phase = .answering → node.current = some c → c.acknowledged = false →
         let carried : CurrentCommand :=
           if c.carried then c
           else { c with
             carried := true
             deadline := match c.command with
               | .tagWrite _ => some (s.elapsed + 1000)
               | .unlock => some (s.elapsed + 2000)
               | .lock => some (s.elapsed + 3000)
               | .tagClear _ => none
               | .show _ => none }
         exec (.poll x) s = .next (((polled (some (c.number, c.command))).putNode (dockAt n l.next)
           { node with current := some carried }).finish s)))) ∧
  (∀ (x : StringName) (s : State), s.power = .running →
     (∀ p, (s.line (stringNumber x)).poll = some p → p.windowAt ≤ s.elapsed →
       exec (.missedPoll x) s =
         .next ((s.putLine (stringNumber x) { s.line (stringNumber x) with poll := none }).finish s)) ∧
     ((s.line (stringNumber x)).poll = none ∨ (∃ p, (s.line (stringNumber x)).poll = some p ∧ s.elapsed < p.windowAt) →
       exec (.missedPoll x) s = .next (s.finish s))) ∧
  (∀ (number : Nat) (lock : LockPosition) (there : Bool) (image : Option (List Byte)) (s : State),
     let found : Option (Option TagImage) := if there then some (image.bind tagImage) else none
     let censused : Node → Node := fun x => { x with power := .normal, censused := true }
     (∀ (x : StringName) (p : Poll) (r : NodeReply) (cause : CensusCause), s.power = .running →
       (s.line (stringNumber x)).poll = some p → r.checkOk = true → r.address = p.address → s.elapsed ≤ p.windowAt →
       r.event = some (number, .census lock there image cause) →
       let d := dockAt (stringNumber x) p.address
       (s.node d).phase ≠ .answering → r.power = .normal ∨ (s.node d).power = .low →
       let answering := (s.putLine (stringNumber x) { s.line (stringNumber x) with poll := none }).putNode d (censused
         { s.node d with
           phase := .answering, silenceAt := s.elapsed + 2000, counter := 1, lastEvent := some number })
       exec (.pollReply x r) s = .next ((answering.reconcile d lock found).reportCensus.finish s)) ∧
     (∀ d,
       s.deliver d (.census lock there image .demand) =
         ((s.putNode d (censused (s.node d))).reconcile d lock found).reportCensus ∧
       s.deliver d (.census lock there image .restart) =
         ((s.putNode d (censused { s.node d with current := none, waiting := [], counter := 1 })).reconcile d lock
           found).reportCensus)) ∧
  (∀ (d : Nat) (lock : LockPosition) (s : State), 1 ≤ d → d ≤ 64 → s.sized → (s.dock d).state = .offline →
     (s.dock d).release = none → (s.dock d).reservation = .unreserved →
     let lockState := (match lock with | .locked => LockState.locked | .unlocked => .unlocked)
     let lockedOut := 0 < s.settings.dockFaultLimit ∧ s.settings.dockFaultLimit ≤ (s.dock d).counter
     let made := fun (id : Nat) => ({ id := id, condition := .available, faults := []
                                      tallies := [[], [], [], [], [], [], [], []], dockedAt := s.now, settling := false } : Bike)
     let after := fun (b : Option Bike) =>
       if lockedOut then DockState.lockedOut else if b = none then .empty else if lock = .unlocked then .relocking else .occupied
     let leaves := fun (u : State) =>
       let b := (u.dock d).bike
       let v := if b ≠ none ∧ lock = .unlocked then u.issue d .lock else u
       let w := v.putDock d { u.dock d with lock := lockState, state := after b, shown := none }
       let x := if lockedOut then
           (w.setAttention .lockout).makeFault
             { subject := .dock, dock := some d, bikeId := b.map (fun b => b.id), tagBikeId := none, tagRef := none
               kind := none, source := none, cause := some .census, reporter := none, reporters := none
               confirmCount := none, effect := .lockedOut, conditionAfter := none, counterAfter := some (s.dock d).counter
               counterBefore := none, dockState := some .lockedOut, bikeAbsent := false }
         else w
       ({ x with offlineAt := setEntry s.offlineAt d none, readerRuns := setEntry s.readerRuns d 0 } : State)
     let gives := fun (present : Option (Option TagImage)) (u : State) => s.reconcile d lock present = leaves u
     let put := fun (u : State) (b : Bike) => u.putDock d { u.dock d with bike := some b }
     let v := s.vacated d .census
     gives none v ∧
     (∀ b, (s.dock d).bike = some b →
       gives (some none) (s.reportTag d) ∧
       gives (some (some (.idle b.id))) s ∧
       (∀ i : TripImage, i.bikeId = b.id → gives (some (some (.onHire i))) (s.issue d (.tagClear .afterRelease)))) ∧
     ((s.dock d).bike = none → gives (some none) ((put s (made 0)).reportTag d)) ∧
     (∀ id, (∀ b, (s.dock d).bike = some b → b.id ≠ id) →
       (s.bikeElsewhere d id = false → gives (some (some (.idle id))) (put v (made id))) ∧
       (s.bikeElsewhere d id = true →
         gives (some (some (.idle id))) ((put v (made 0)).reportConflict d id none) ∧
         (∀ i : TripImage, i.bikeId = id →
           gives (some (some (.onHire i))) ((put v (made 0)).reportConflict d id (some i.ref)))) ∧
       (∀ i : TripImage, i.bikeId = id → s.bikeElsewhere d id = false → s.heldAt id = none → v.entries.length < 64 →
         0 < s.settings.settleWindow →
         let close := priceReturn s.tariffs s.plans s.settings.returnCredit i d s.now
           (decide (v.stock < s.settings.lowMark)) s.now.isNone
         let returned := ((put v { made id with settling := true }).struckOff i.ref).putSettle
           { entries := v.entries ++
               [{ close := close, waiver := none, stage := .held id d (s.elapsed + s.settings.settleWindow * 1000) }]
             lost := v.store.settle.cur.lost }
         (s.reconcile d lock (some (some (.onHire i)))).steady = (leaves returned).steady ∧
         (s.reconcile d lock (some (some (.onHire i)))).nodes =
           (leaves ((put v (made id)).issue d (.tagClear .atReturn))).nodes)))

/-- POLL_REPLY: with no poll in progress a reply is discarded, as is one that fails its check, address or window, the poll
going on. A valid one ends the poll. From an ANSWERING node it restarts the silence timer; power falling LOW is recorded as a
POWER fault; an event whose number is the last one is discarded, a new one delivered. From another node all but a CENSUS is
discarded (R2 to R5, R7, R125). Whether a discarded reply ends the poll is the model's (log 15).
The number of the current command acknowledges it. An acknowledged SHOW ends; TAG_WRITE and TAG_CLEAR end by DONE or FAILED;
UNLOCK and LOCK go on. Another number counts a reply against a command not acknowledged, NOT_TAKEN at the eighth. The next
command becomes current and custody has the result: a TAG_WRITE DONE in its TAG_WRITING brings UNLOCKING, UNLOCK issued; a
return's TAG_CLEAR FAILED has TAG reported on the bike then there (log 16; R10 to R15, R25, R31, R122).
A CENSUS makes another node ANSWERING with counter 1; its OFFLINE dock becomes EMPTY, or, by its own bike's IDLE tag,
OCCUPIED, or RELOCKING with LOCK issued (R8, R37). The last census due ends the census phase: DOCK_CENSUS is posted, and a
dock still OFFLINE, in the model a configured one (log 17), sets attention (R8, R126, R197).
PRESENT and REMOVED reach custody; LOCKED, UNLOCKED and LOCK_FAIL first end an acknowledged LOCK, UNLOCK, or either (R5, R13).
LOCK_FAIL counts LOCK_JAM or SENSOR; in RELOCKING the retry is 3 s ahead, after an UNLOCK's end too (log 15), or one that runs
goes on; in UNLOCKING the release ends, refused (R26, R29, R35, R53). An unreadable TAP shows REFUSED, a run's third with
a READER fault; a readable one and six digits keyed are attempts, a refusal shown (R24, R125). A FAULT_KEY of kind 1 to 8 is a
RIDER report and waives the HELD entry of a settling bike; with no bike it is of an absent bike, in the model without
reporters and confirm counts (log 17); other digits or kinds are not delivered (R5, R105, R118, R121). -/
def Obligations.PollReplyResult : Prop :=
  (∀ (x : StringName) (r : NodeReply) (s : State), s.power = .running →
     ((s.line (stringNumber x)).poll = none → exec (.pollReply x r) s = .next (s.finish s)) ∧
     (∀ p, (s.line (stringNumber x)).poll = some p →
       let ended := s.putLine (stringNumber x) { s.line (stringNumber x) with poll := none }
       let d := dockAt (stringNumber x) p.address
       (r.checkOk = false ∨ r.address ≠ p.address ∨ p.windowAt < s.elapsed →
         exec (.pollReply x r) s = .next (s.finish s)) ∧
       (r.checkOk = true → r.address = p.address → s.elapsed ≤ p.windowAt →
         ((s.node d).phase ≠ .answering →
           (∀ number lock there image cause, r.event ≠ some (number, .census lock there image cause)) →
           exec (.pollReply x r) s = .next (ended.finish s)) ∧
         (1 ≤ d → d ≤ s.nodes.length → (s.node d).phase = .answering → r.power = (s.node d).power →
           (s.node d).current = none →
           let heard : Node := { s.node d with silenceAt := s.elapsed + 2000 }
           (r.event = none ∨ (∃ number e, r.event = some (number, e) ∧ (s.node d).lastEvent = some number) →
             exec (.pollReply x r) s = .next ((ended.putNode d heard).finish s)) ∧
           (∀ number e, r.event = some (number, e) → (s.node d).lastEvent ≠ some number →
             exec (.pollReply x r) s =
               .next (((ended.putNode d { heard with lastEvent := some number }).deliver d e).finish s))) ∧
         (1 ≤ d → d ≤ s.nodes.length → (s.node d).phase = .answering → r.power ≠ (s.node d).power →
           (s.node d).current = none → r.event = none →
           let heard := ended.putNode d { s.node d with silenceAt := s.elapsed + 2000, power := r.power }
           (r.power = .normal → exec (.pollReply x r) s = .next (heard.finish s)) ∧
           (r.power = .low → 0 < s.free → s.faults = [] →
             exec (.pollReply x r) s = .next (({ heard.post (.fault
               { subject := .dock, dock := some d, bikeId := (s.dock d).bike.map (fun b => b.id), tagBikeId := none
                 tagRef := none, kind := some (.dock .power), source := none, cause := some .powerLow, reporter := none
                 reporters := none, confirmCount := none, effect := .noted, conditionAfter := none
                 counterAfter := some (s.dock d).counter, counterBefore := none, dockState := some (s.dock d).state
                 bikeAbsent := false } s.faultsDropped) with faultsDropped := 0 } : State).finish s))) ∧
         (∀ c : CurrentCommand, (s.node d).phase = .answering → r.power = (s.node d).power → (s.node d).current = some c →
           r.event = none →
           let heard : Node := { s.node d with silenceAt := s.elapsed + 2000 }
           let goesOn := fun (after : CurrentCommand) => exec (.pollReply x r) s =
             .next ((ended.putNode d { heard with current := some after }).finish s)
           let next := ended.putNode d ({ heard with current := none } : Node).promote
           let endsBy := fun (result : CommandResult) => exec (.pollReply x r) s =
             .next ((next.onResult d c.command result).finish s)
           (r.taken = some c.number →
             (c.command = .unlock ∨ c.command = .lock → goesOn { c with acknowledged := true }) ∧
             (∀ i, c.command = .show i → exec (.pollReply x r) s = .next (next.finish s)) ∧
             ((∃ i, c.command = .tagWrite i) ∨ (∃ i, c.command = .tagClear i) →
               (r.outcome = .working → goesOn { c with acknowledged := true }) ∧
               (r.outcome = .done → endsBy .confirmed) ∧
               (r.outcome = .failed → endsBy .nodeFailed)) ∧
             (c.command = .tagClear .atReturn →
               (r.outcome = .done → exec (.pollReply x r) s = .next (next.finish s)) ∧
               (r.outcome = .failed → exec (.pollReply x r) s = .next ((next.reportTag d).finish s))) ∧
             (∀ release hirer issue ref image, c.command = .tagWrite image → r.outcome = .done →
               (s.dock d).state = .tagWriting → (s.dock d).release = some release →
               release.party = .hire hirer issue ref image →
               exec (.pollReply x r) s =
                 .next (((next.putDock d { s.dock d with state := .unlocking }).issue d .unlock).finish s))) ∧
           (r.taken ≠ some c.number →
             (c.acknowledged = true → goesOn c) ∧
             (c.acknowledged = false → c.unanswered + 1 < 8 → goesOn { c with unanswered := c.unanswered + 1 }) ∧
             (c.acknowledged = false → 8 ≤ c.unanswered + 1 → endsBy .notTaken))) ∧
         (∀ number lock there image cause, r.event = some (number, .census lock there image cause) →
           (s.node d).phase ≠ .answering → r.power = .normal → 1 ≤ d → d ≤ 64 → s.sized → (s.dock d).state = .offline →
           (s.dock d).configured = true →
           s.settings.dockFaultLimit = 0 ∨ (s.dock d).counter < s.settings.dockFaultLimit →
           let goesOn := s.censusReported = true ∨
             (∃ other ∈ dockNumbers, other ≠ d ∧ (s.dock other).configured = true ∧ (s.node other).censused = false)
           let answering := ended.putNode d
             { s.node d with
               phase := .answering, silenceAt := s.elapsed + 2000, counter := 1, lastEvent := some number
               power := .normal, censused := true }
           let gives := fun (after : DockState) (t : State) =>
             let u : State := { t.putDock d
                 { s.dock d with
                   lock := (match lock with | .locked => .locked | .unlocked => .unlocked), state := after, shown := none } with
               offlineAt := setEntry s.offlineAt d none, readerRuns := setEntry s.readerRuns d 0 }
             let posted := ({ u with censusReported := true, censusLimit := none } : State).post (.dockCensus
               { reason := .startup, stock := u.stock, available := u.available
                 items := (dockNumbers.filter (fun e => (u.dock e).configured)).map (fun e =>
                   { dock := e, state := (u.dock e).state, lock := (u.dock e).lock, counter := (u.dock e).counter
                     reservation := (u.dock e).reservation, bike := (u.dock e).bike.map Bike.item }) })
             let someOffline := ∃ e ∈ dockNumbers, (u.dock e).configured = true ∧ (u.dock e).state = .offline
             (goesOn → exec (.pollReply x r) s = .next (u.finish s)) ∧
             (¬ goesOn →
               (s.censusLimit = none →
                 exec (.pollReply x r) s = .next (({ u with censusReported := true } : State).finish s)) ∧
               (s.censusLimit ≠ none → 0 < s.free → s.sixth = [] →
                 (someOffline → exec (.pollReply x r) s = .next ((posted.setAttention .offline).finish s)) ∧
                 (¬ someOffline → exec (.pollReply x r) s = .next (posted.finish s))))
           ((s.dock d).bike = none → there = false → gives .empty answering) ∧
           (∀ b bytes, (s.dock d).bike = some b → there = true → image = some bytes → tagImage bytes = some (.idle b.id) →
             (lock = .locked → gives .occupied answering) ∧
             (lock = .unlocked → gives .relocking (answering.issue d .lock))))))) ∧
  (∀ (d : Nat) (s : State),
     let ended := s.putNode d ({ s.node d with current := none } : Node).promote
     let ends := fun (c : Command) => ∃ x, (s.node d).current = some x ∧ x.acknowledged = true ∧ x.command = c
     let answers := fun (e : NodeEvent) (a : State × Option Reason) =>
       (∀ reason, a.2 = some reason → s.deliver d e = a.1.issue d (.show .refused)) ∧ (a.2 = none → s.deliver d e = a.1)
     (∀ image, s.deliver d (.present image) =
       s.onPresent d (match image with | some bytes => tagImage bytes | none => none)) ∧
     s.deliver d .removed = s.onRemoved d .removal ∧
     (ends .lock → s.deliver d .locked = ended.onLocked d) ∧ (¬ ends .lock → s.deliver d .locked = s.onLocked d) ∧
     (ends .unlock → s.deliver d .unlocked = ended.onUnlocked d) ∧
     (¬ ends .unlock → s.deliver d .unlocked = s.onUnlocked d) ∧
     (∀ kind, let fault := (match kind with | .jam => DockFault.lockJam | .sensor => DockFault.sensor)
       let u := fun (s' : State) (took : Bool) =>
         ((s.dock d).state ≠ .unlocking → (s.dock d).state ≠ .relocking →
           s.deliver d (.lockFail kind) = s'.countFault d fault .lockFail) ∧
         ((s.dock d).state = .relocking → s.settings.dockFaultLimit = 0 ∨
             min 7 ((s.dock d).counter + 1) < s.settings.dockFaultLimit →
           let counted := s'.countFault d fault .lockFail
           (took = true ∨ (s.dock d).relockAt = none → s.deliver d (.lockFail kind) =
             counted.putDock d { counted.dock d with relockAt := some (s.elapsed + 3000) }) ∧
           (took = false → (s.dock d).relockAt ≠ none → s.deliver d (.lockFail kind) = counted)) ∧
         (∀ (r : Release) (hirer : Hirer) (issue : Option Nat) (ref : HireRef) (image : TripImage),
           (s.dock d).state = .unlocking → (s.dock d).release = some r → r.party = .hire hirer issue ref image →
           (∀ slot serial, hirer ≠ .pass slot serial) → r.origin = .occupied → (s.dock d).lockoutPending = false →
           s.settings.dockFaultLimit = 0 ∨ min 7 ((s.dock d).counter + 1) < s.settings.dockFaultLimit →
           s.firstPlace = none → 0 < s.free →
           let counted := s'.countFault d fault .lockFail
           let closed := counted.putDock d
             { counted.dock d with state := .relocking, release := none, windowAt := none }
           let refused := if r.fromDock then closed.issue d (.show .refused) else closed
           s.deliver d (.lockFail kind) =
             { (refused.issue d (.tagClear .afterRelease)).issue d .lock with setAside := s.setAside - 1 })
       (ends .lock ∨ ends .unlock → u ended true) ∧ (¬ (ends .lock ∨ ends .unlock) → u s false)) ∧
     (∀ image, (match image with | some bytes => cardImage bytes | none => none) = none →
       let run := (entryAt s.readerRuns d).getD 0
       (run < 2 → s.deliver d (.tap image) =
         ({ s with readerRuns := setEntry s.readerRuns d (run + 1) } : State).issue d (.show .refused)) ∧
       (2 ≤ run → 0 < s.free → s.faults = [] → s.deliver d (.tap image) =
         ({ ({ s with readerRuns := setEntry s.readerRuns d 0 } : State).post (.fault
             { subject := .dock, dock := some d, bikeId := (s.dock d).bike.map (fun b => b.id), tagBikeId := none
               tagRef := none, kind := some (.dock .reader), source := none, cause := some .unreadableRun, reporter := none
               reporters := none, confirmCount := none, effect := .noted, conditionAfter := none
               counterAfter := some (s.dock d).counter, counterBefore := none, dockState := some (s.dock d).state
               bikeAbsent := false } s.faultsDropped) with faultsDropped := 0 } : State).issue d (.show .refused))) ∧
     (∀ bytes card, cardImage bytes = some card → answers (.tap (some bytes))
       (({ s with readerRuns := setEntry s.readerRuns d 0 } : State).cardAttempt d card)) ∧
     (∀ u v w x y z, (∀ n ∈ [u, v, w, x, y, z], n ≤ 9) →
       answers (.keypad [u, v, w, x, y, z])
         (s.keypadAttempt d (100000 * u + 10000 * v + 1000 * w + 100 * x + 10 * y + z))) ∧
     (∀ digits, digits.length ≠ 6 ∨ (∃ n ∈ digits, 9 < n) → s.deliver d (.keypad digits) = s) ∧
     (∀ kind, kind = 0 ∨ 8 < kind → s.deliver d (.faultKey kind) = s) ∧
     (∀ kind k, bikeFaultOf kind = some k →
       (∀ b, (s.dock d).bike = some b → s.heldAt b.id = none →
         s.deliver d (.faultKey kind) = (s.reportBike d b k .rider .anonymous).1) ∧
       (∀ b before (e : SettleEntry) after deadline, (s.dock d).bike = some b → b.settling = true →
         s.entries = before ++ e :: after → e.stage = .held b.id d deadline → (∀ y ∈ before, y.linksTo b.id = false) →
         let who := match e.close.hirer with
           | .pass slot serial => Reporter.pass slot serial
           | .member id => .person id
           | .crew id => .person id
           | .remote id => .person id
         let reported := (s.reportBike d b k .rider who).1
         (e.waiver ≠ none → s.deliver d (.faultKey kind) = reported) ∧
         (e.waiver = none → s.deliver d (.faultKey kind) = reported.putSettle { s.store.settle.cur with
           entries := before ++ { e with
             close := { e.close with fare := 0 }
             waiver := some { source := .dock, kind := k, time := s.now } } :: after })) ∧
       ((s.dock d).bike = none → 0 < s.free → s.faults = [] → s.deliver d (.faultKey kind) =
         { s.post (.fault
             { subject := .bike, dock := some d, bikeId := none, tagBikeId := none, tagRef := none
               kind := some (.bike k), source := some .rider, cause := none, reporter := some .anonymous, reporters := none
               confirmCount := none, effect := .noted, conditionAfter := none, counterAfter := none
               counterBefore := none, dockState := none, bikeAbsent := true } s.faultsDropped) with faultsDropped := 0 })))

/-- SILENCE_TIMEOUT of an ANSWERING or ENUMERATING node whose 2 s have passed: the commands of the node are dropped, the
node is SILENT with no last event, and the dock OFFLINE with its bike, lock state and counter kept; outside the census phase
a COMMS fault is posted, where a slot is free and none waits, and the offline timer is started (R6, R7, R36, R125, R127,
R197). A release in flight is abandoned, with nothing shown. The slot set aside for a hire release is free again, and an
expiry of its pass that was held back, or has been reached, is then taken (R36, R53, R67, R75, R159), in the model after the
COMMS fault (log 10) and before the slot is given back (log 11). A reservation is lost, a VAN release with it: in RESERVING
and ACTIVE van replaces or moves it; in CLOSING that of a VAN release is dropped, and with the last such release the summary
is posted (R36, R142, R146, R147, R151, R153). A SILENT node's timer starts again, and a timer not run out does nothing
(R7).
A reservation lost in RESERVING or ACTIVE: one for DELIVER moves to the lowest EMPTY dock without a reservation, and one for
COLLECT to the first candidate of its selector but for the dock that lost it, the close of a settling bike there being
finalised early with reason VAN (R106). Where there is none, the target falls by 1 and the short count rises by 1, and an
ACTIVE session whose entries are then all met ends EXHAUSTED (R145 to R147, R150). The candidate is an OCCUPIED dock without
a reservation, its bike admitted by the selector, an AVAILABLE one only above the member floor; it is the lowest among bikes
of its condition, and no candidate of an earlier group passes (R137, R146). -/
def Obligations.SilenceResult : Prop :=
  (∀ (d : Nat) (s : State), s.power = .running →
     ((s.dock d).configured = false ∨ s.elapsed < (s.node d).silenceAt →
       exec (.silenceTimeout d) s = .next (s.finish s)) ∧
     ((s.dock d).configured = true → (s.node d).silenceAt ≤ s.elapsed →
       ((s.node d).phase = .silent →
         exec (.silenceTimeout d) s =
           .next ((s.putNode d { s.node d with silenceAt := s.elapsed + 2000 }).finish s)) ∧
       ((s.node d).phase ≠ .silent →
         let fell := (s.putNode d
             { s.node d with
               phase := .silent, silenceAt := s.elapsed + 2000, lastEvent := none, current := none
               waiting := [] }).putDock d
           { s.dock d with
             state := .offline, release := none, windowAt := none, relockAt := none, lockoutPending := false
             shown := none }
         let reports := fun (u : State) =>
           if s.censusLimit = none then
             { u.post (.fault
                 { subject := .dock, dock := some d, bikeId := (u.dock d).bike.map (fun b => b.id), tagBikeId := none
                   tagRef := none, kind := some (.dock .comms), source := none, cause := some .silence, reporter := none
                   reporters := none, confirmCount := none, effect := .noted, conditionAfter := none
                   counterAfter := some (u.dock d).counter, counterBefore := none, dockState := some (u.dock d).state
                   bikeAbsent := false } u.faultsDropped) with
               faultsDropped := 0, offlineAt := setEntry u.offlineAt d (some (s.elapsed + 5000)) }
           else u
         let room := fun (u : State) => s.censusLimit = none → 0 < u.free ∧ u.faults = []
         let gives := fun (u : State) => exec (.silenceTimeout d) s = .next (u.finish s)
         ((s.dock d).release = none → (s.dock d).reservation = .unreserved → room fell → gives (reports fell)) ∧
         (∀ r hirer issue ref image, (s.dock d).release = some r → r.party = .hire hirer issue ref image →
           (s.dock d).reservation = .unreserved → room fell →
           ((∀ slot serial, hirer = .pass slot serial → ∀ p, s.pass slot = some p → p.serial = serial →
               r.expiryHeld = false ∧ ∀ t, s.now = some t → t < p.expiry) → s.firstPlace = none →
             gives { reports fell with setAside := s.setAside - 1 }) ∧
           (∀ slot serial p, hirer = .pass slot serial → slot ∈ slotNumbers → s.pass slot = some p → p.serial = serial →
             p.state = .issued ∨ p.state = .idle → r.expiryHeld = true ∨ (∃ t, s.now = some t ∧ p.expiry ≤ t) →
             (∀ other ∈ dockNumbers, other ≠ d → ∀ q, (s.dock other).release = some q →
               q.hirer? ≠ some (.pass slot serial)) → s.sized → s.firstPlace = none → 1 < s.free →
             let q : Pass := { p with state := .settling }
             gives { ((((reports fell).putPass slot (some q)).post (.passSettle slot q)).putPass slot none) with
               setAside := s.setAside - 1 })) ∧
         (((s.dock d).release = none ∨ ∃ r crew n, (s.dock d).release = some r ∧ r.party = .van crew n) →
           s.van.phase = .reserving ∨ s.van.phase = .active → room (fell.loseReservation d) →
           gives (reports (fell.loseReservation d))) ∧
         (∀ r crew n, (s.dock d).release = some r → r.party = .van crew n → s.van.phase = .closing → s.sized →
           let gone := ((fell.putDock d { fell.dock d with reservation := .unreserved }).raise .dockState).raise .vanState
           (s.vanReleases ≠ [d] → room gone → gives (reports gone)) ∧
           (∀ ending, s.vanReleases = [d] → s.van.ending = some ending → s.van.summary = none → s.van.moves = [] →
             1 < s.free → s.faults = [] →
             gives (reports { gone.post (.vanSummary
               { session := s.van.session, van := s.van.van, crew := s.van.crew, opened := s.van.opened, ending := ending
                 short := s.van.manifest.any (fun m => 0 < m.short), dropped := s.van.dropped
                 results := s.van.manifest }) with van := .idleWith s.van.counter })))))) ∧
  (∀ (d n : Nat) (s : State), d ∈ dockNumbers → d ≤ s.docks.length →
     let dropped := ((s.putDock d { s.dock d with reservation := .unreserved }).raise .dockState).raise .vanState
     let placed := fun (u : State) (e : Nat) (r : Reservation) =>
       ((u.putDock e { u.dock e with reservation := r }).raise .dockState).raise .vanState
     let falls := fun (m : ManifestEntry) =>
       let fallen : State := { dropped with van := { s.van with
         manifest := setEntry s.van.manifest n { m with target := m.target - 1, short := m.short + 1 } } }
       (s.van.phase = .reserving ∨ (∃ x ∈ fallen.van.manifest, x.done ≠ x.target) → s.loseReservation d = fallen) ∧
       (s.van.phase = .active → (∀ x ∈ fallen.van.manifest, x.done = x.target) →
         s.loseReservation d = fallen.endSession .exhaustion .exhausted)
     ((s.dock d).reservation = .unreserved → s.loseReservation d = s) ∧
     (s.van.phase = .reserving ∨ s.van.phase = .active →
       (∀ m, (s.dock d).reservation = .deliver n → (s.dock d).state ≠ .empty → entryAt s.van.manifest n = some m →
         (∀ e ∈ dockNumbers, (s.dock e).state = .empty → (s.dock e).reservation = .unreserved →
           (∀ c ∈ dockNumbers, c < e → (s.dock c).state ≠ .empty ∨ (s.dock c).reservation ≠ .unreserved) →
           s.loseReservation d = placed dropped e (.deliver n)) ∧
         ((∀ c ∈ dockNumbers, (s.dock c).state ≠ .empty ∨ (s.dock c).reservation ≠ .unreserved) → falls m)) ∧
       (∀ m sel, (s.dock d).reservation = .collect n → entryAt s.van.manifest n = some m → m.kind = .collect sel →
         (∀ e, dropped.nextCollect sel d = some e →
           s.loseReservation d = placed (dropped.settleDock e .van) e (.collect n)) ∧
         (dropped.nextCollect sel d = none → falls m)))) ∧
  (∀ (sel : Selector) (skip : Nat) (s : State),
     let candidate := fun (c : Nat) (b : Bike) => c ∈ dockNumbers ∧ c ≠ skip ∧ (s.dock c).state = .occupied ∧
       (s.dock c).reservation = .unreserved ∧ (s.dock c).bike = some b ∧ b.condition ∈ sel.groups.flatten
     let passes := fun (b : Bike) => b.condition = .available → s.settings.memberFloor < s.available
     (s.nextCollect sel skip = none → ∀ c b, candidate c b → ¬ passes b) ∧
     (∀ e, s.nextCollect sel skip = some e → ∃ b, candidate e b ∧ passes b ∧
       ∀ c x, candidate c x → passes x → (x.condition = b.condition → e ≤ c) ∧
         ∀ before after g, sel.groups = before ++ g :: after → b.condition ∈ g → x.condition ∉ before.flatten))

/-- TAG_WRITE_TIMEOUT, UNLOCK_TIMEOUT and LOCK_TIMEOUT: a deadline not reached, or of another command, does nothing; at its
deadline the command ends TIMED_OUT, the next waiting one becomes current, and custody has the result. For a hire release
begun at an OCCUPIED dock, and at a dock in neither UNLOCKING nor RELOCKING, the whole timeout is given (R12 to R15, R24 to
R26, R53, R122, R159).
What custody does with a result, a timeout or another one. ABANDONED or SUPERSEDED does nothing, nor does DONE outside a
release, nor TAG_CLEAR outside a release and a return. A return's TAG_CLEAR FAILED or NOT_TAKEN has TAG reported on the bike
then there (log 16; R31). A SHOW that ends FAILED or NOT_TAKEN is issued again. UNLOCK or LOCK TIMED_OUT or NOT_TAKEN counts
a LOCK_JAM in any dock state (log 16); in RELOCKING LOCK is tried again in 3 s (R29). The TAG_WRITE of a hire release, or
TAG_CLEAR of a VAN release, DONE brings UNLOCKING, UNLOCK issued (R25). Where that command fails the release ends, back in
OCCUPIED or LOCKED_OUT as it began, with TAG reported; where UNLOCK or LOCK_FAIL fails it, a fault is counted, the dock is
RELOCKING or LOCKED_OUT, LOCK is issued, and TAG_CLEAR for a hire. REFUSED is shown for a hire begun at the dock; the
reservation of a VAN release in CLOSING is dropped; a lockout that waits makes the dock LOCKED_OUT; last (log 11) the slot
set aside is free, an expiry held back or reached being taken first (R14, R25, R26, R35, R40, R67, R142, R151).
A dock fault counted raises the counter, up to 7, and is recorded NOTED, or, where the counter reaches the limit at a dock
not locked out already, LOCKED_OUT with attention: at once, SHOW FAULT issued and a reservation lost first (log 10), or, in
a release, once that ends (R40, R123, R124, R126, R146, R147). The record in UNLOCKING carries the dock state at the count
(log 16). A TAG report confirms TAG, and quarantines an AVAILABLE bike, with attention, by the class of TAG or for id 0
(R120, R122, R126, R130). -/
def Obligations.CommandTimeouts : Prop :=
  (∀ (d : Nat) (s : State), s.power = .running →
     ((∀ c, (s.node d).current = some c → c.deadline = none ∨ ∃ t, c.deadline = some t ∧ s.elapsed < t) →
       exec (.tagWriteTimeout d) s = .next (s.finish s) ∧ exec (.unlockTimeout d) s = .next (s.finish s) ∧
         exec (.lockTimeout d) s = .next (s.finish s)) ∧
     ((∀ c image, (s.node d).current = some c → c.command ≠ .tagWrite image) →
       exec (.tagWriteTimeout d) s = .next (s.finish s)) ∧
     ((∀ c, (s.node d).current = some c → c.command ≠ .unlock) → exec (.unlockTimeout d) s = .next (s.finish s)) ∧
     ((∀ c, (s.node d).current = some c → c.command ≠ .lock) → exec (.lockTimeout d) s = .next (s.finish s)) ∧
     (∀ c t, (s.node d).current = some c → c.deadline = some t → t ≤ s.elapsed →
       let ended := s.putNode d ({ s.node d with current := none } : Node).promote
       (∀ image, c.command = .tagWrite image →
         exec (.tagWriteTimeout d) s = .next ((ended.onResult d c.command .timedOut).finish s) ∧
         ((s.dock d).state ≠ .tagWriting ∨ (s.dock d).release = none →
           exec (.tagWriteTimeout d) s = .next (ended.finish s))) ∧
       (c.command = .unlock →
         exec (.unlockTimeout d) s = .next ((ended.onResult d .unlock .timedOut).finish s)) ∧
       (c.command = .unlock → (s.dock d).state ≠ .unlocking →
         exec (.unlockTimeout d) s = .next ((ended.countFault d .lockJam .unlockTimeout).finish s)) ∧
       (c.command = .lock → (s.dock d).state ≠ .relocking →
         exec (.lockTimeout d) s = .next ((ended.countFault d .lockJam .lockTimeout).finish s)) ∧
       (c.command = .lock → (s.dock d).state = .relocking →
         s.settings.dockFaultLimit = 0 ∨ min 7 ((s.dock d).counter + 1) < s.settings.dockFaultLimit →
         let counted := ended.countFault d .lockJam .lockTimeout
         exec (.lockTimeout d) s =
           .next ((counted.putDock d { counted.dock d with relockAt := some (s.elapsed + 3000) }).finish s)) ∧
       (∀ (r : Release) (hirer : Hirer) (issue : Option Nat) (ref : HireRef) (image : TripImage),
         (s.dock d).release = some r → r.party = .hire hirer issue ref image → (∀ slot serial, hirer ≠ .pass slot serial) →
         r.origin = .occupied → (s.dock d).lockoutPending = false → s.firstPlace = none → 0 < s.free →
         let gone := fun (t : State) (after : DockState) =>
           let u := t.putDock d { t.dock d with state := after, release := none, windowAt := none }
           if r.fromDock then u.issue d (.show .refused) else u
         (c.command = .tagWrite image → (s.dock d).state = .tagWriting →
           exec (.tagWriteTimeout d) s =
             .next (({ (gone ended .occupied).reportTag d with setAside := s.setAside - 1 } : State).finish s)) ∧
         (c.command = .unlock → (s.dock d).state = .unlocking →
           s.settings.dockFaultLimit = 0 ∨ min 7 ((s.dock d).counter + 1) < s.settings.dockFaultLimit →
           exec (.unlockTimeout d) s =
             .next (({ ((gone (ended.countFault d .lockJam .unlockTimeout) .relocking).issue d
                 (.tagClear .afterRelease)).issue d .lock with setAside := s.setAside - 1 } : State).finish s))))) ∧
  (∀ (d : Nat) (s : State), 1 ≤ d → d ≤ s.docks.length →
     (∀ c x, x = .superseded ∨ (∃ cause, x = .abandoned cause) → s.onResult d c x = s) ∧
     (∀ image x, (s.dock d).state ≠ .tagWriting → s.onResult d (.tagWrite image) x = s) ∧
     (∀ c, c = .unlock ∨ c = .lock ∨ (∃ i, c = .show i) ∨ c = .tagClear .atReturn → s.onResult d c .confirmed = s) ∧
     (∀ x, s.onResult d (.tagClear .afterRelease) x = s ∧
       ((s.dock d).state ≠ .tagWriting → s.onResult d (.tagClear .vanRelease) x = s) ∧
       (x = .nodeFailed ∨ x = .notTaken → s.onResult d (.tagClear .atReturn) x = s.reportTag d)) ∧
     (∀ i x, x = .nodeFailed ∨ x = .notTaken → (s.dock d).state ≠ .offline →
       s.onResult d (.show i) x =
         ({ s with docks := setEntry s.docks d { s.dock d with shown := some (s.dock d).resting } } : State).issue d
           (.show (s.dock d).resting)) ∧
     (∀ x, x = .timedOut ∨ x = .notTaken →
       let cause := fun (c : DockCause) => s.countFault d .lockJam c
       ((s.dock d).state ≠ .unlocking → s.onResult d .unlock x = cause .unlockTimeout) ∧
       ((s.dock d).state ≠ .relocking → s.onResult d .lock x = cause .lockTimeout) ∧
       ((s.dock d).state = .relocking →
         ((cause .lockTimeout).dock d).state = .relocking →
         s.onResult d .lock x = (cause .lockTimeout).putDock d
           { (cause .lockTimeout).dock d with relockAt := some (s.elapsed + 3000) }) ∧
       ((s.dock d).state = .relocking →
         ((cause .lockTimeout).dock d).state ≠ .relocking → s.onResult d .lock x = cause .lockTimeout)) ∧
     (∀ (r : Release) (c : Command), (s.dock d).state = .tagWriting → (s.dock d).release = some r →
       (match r.party with | .hire _ _ _ image => c = .tagWrite image | .van _ _ => c = .tagClear .vanRelease) →
       s.onResult d c .confirmed = (s.putDock d { s.dock d with state := .unlocking }).issue d .unlock) ∧
     (∀ r : Release, (s.dock d).release = some r →
       let hired := fun (f : State → State) (u : State) => (match r.party with | .hire _ _ _ _ => f u | .van _ _ => u)
       let refused := hired (fun u => if r.fromDock then u.issue d (.show .refused) else u)
       let back := fun (u : State) (after : DockState) =>
         u.putDock d { u.dock d with state := after, release := none, windowAt := none }
       let told := fun (u : State) =>
         (match r.party with
           | .hire _ _ _ _ => u
           | .van _ _ =>
             if u.van.phase = .closing then
               (((u.putDock d { u.dock d with reservation := .unreserved }).raise .dockState).raise .vanState).closeUp
             else u)
       let lockedOut := fun (u : State) =>
         ((u.putDock d { u.dock d with
           state := .lockedOut, relockAt := none, lockoutPending := false, shown := some .fault }).issue d
             (.show .fault)).loseReservation d
       let ends := fun (result : State → Prop) (u : State) =>
         (∀ crew n, r.party = .van crew n → result u) ∧
         (∀ hirer issue ref image, r.party = .hire hirer issue ref image → u.firstPlace = none → 0 < u.free →
           ((∀ slot serial, hirer = .pass slot serial → ∀ p, u.pass slot = some p → p.serial = serial →
               r.expiryHeld = false ∧ ∀ t, s.now = some t → t < p.expiry) →
             result { u with setAside := u.setAside - 1 }) ∧
           (∀ slot serial p, hirer = .pass slot serial → slot ∈ slotNumbers → u.pass slot = some p → p.serial = serial →
             p.state = .issued ∨ p.state = .idle → r.expiryHeld = true ∨ (∃ t, s.now = some t ∧ p.expiry ≤ t) →
             u.passInFlight slot serial = false →
             let q : Pass := { p with state := .settling }
             result { (((u.putPass slot (some q)).post (.passSettle slot q)).putPass slot none) with
               setAside := u.setAside - 1 }))
       (∀ c x, (s.dock d).state = .tagWriting → x = .nodeFailed ∨ x = .notTaken ∨ x = .timedOut →
         (match r.party with | .hire _ _ _ image => c = .tagWrite image | .van _ _ => c = .tagClear .vanRelease) →
         let tagged := (told (refused (back s (match r.origin with | .occupied => .occupied | .lockedOut => .lockedOut)))
           ).reportTag d
         ends (fun t => s.onResult d c x = t)
           (if (s.dock d).lockoutPending = true then lockedOut (tagged.issue d .lock) else tagged)) ∧
       ((s.dock d).state = .unlocking →
         let fails := fun (kind : DockFault) (cause : DockCause) (gives : State → Prop) =>
           let counted := s.countFault d kind cause
           let closed := told ((hired (fun u => u.issue d (.tagClear .afterRelease)) (refused
             (back counted (match r.origin with | .occupied => .relocking | .lockedOut => .lockedOut)))).issue d .lock)
           ends gives (if (counted.dock d).lockoutPending = true then lockedOut closed else closed)
         (∀ x, x = .timedOut ∨ x = .notTaken →
           fails .lockJam .unlockTimeout (fun t => s.onResult d .unlock x = t)) ∧
         (∀ ended, fails .lockJam .lockFail (fun t => s.onLockFail d .jam ended = t) ∧
           fails .sensor .lockFail (fun t => s.onLockFail d .sensor ended = t))))) ∧
  (∀ (d : Nat) (kind : DockFault) (cause : DockCause) (s : State), 1 ≤ d → d ≤ s.docks.length → 0 < s.free → s.faults = [] →
     let counter := min 7 ((s.dock d).counter + 1)
     let record := fun (effect : FaultEffect) (after : DockState) => Body.fault
       { subject := .dock, dock := some d, bikeId := (s.dock d).bike.map (fun b => b.id), tagBikeId := none, tagRef := none
         kind := some (.dock kind), source := none, cause := some cause, reporter := none, reporters := none
         confirmCount := none, effect := effect, conditionAfter := none, counterAfter := some counter
         counterBefore := none, dockState := some after, bikeAbsent := false } s.faultsDropped
     (s.settings.dockFaultLimit = 0 ∨ counter < s.settings.dockFaultLimit ∨ (s.dock d).state = .lockedOut ∨
         (∃ r, (s.dock d).release = some r ∧ r.origin = .lockedOut) →
       s.countFault d kind cause =
         { (s.putDock d { s.dock d with counter := counter }).post (record .noted (s.dock d).state) with
           faultsDropped := 0 }) ∧
     (0 < s.settings.dockFaultLimit → s.settings.dockFaultLimit ≤ counter → (s.dock d).state ≠ .lockedOut →
       (s.dock d).release = none → (s.dock d).reservation = .unreserved →
       s.countFault d kind cause =
         ({ (((s.putDock d { s.dock d with counter := counter }).putDock d
               { s.dock d with
                 counter := counter, state := .lockedOut, relockAt := none, lockoutPending := false
                 shown := some .fault }).issue d (.show .fault)).post (record .lockedOut .lockedOut) with
             faultsDropped := 0 } : State).setAttention .lockout) ∧
     (0 < s.settings.dockFaultLimit → s.settings.dockFaultLimit ≤ counter → (s.dock d).state ≠ .lockedOut →
       (s.dock d).release = none → (s.dock d).reservation ≠ .unreserved →
       let lost := (((s.putDock d { s.dock d with counter := counter }).putDock d
         { s.dock d with
           counter := counter, state := .lockedOut, relockAt := none, lockoutPending := false
           shown := some .fault }).issue d (.show .fault)).loseReservation d
       0 < lost.free → lost.faults = [] → lost.faultsDropped = s.faultsDropped →
       s.countFault d kind cause =
         ({ lost.post (record .lockedOut .lockedOut) with faultsDropped := 0 } : State).setAttention .lockout) ∧
     (∀ r, 0 < s.settings.dockFaultLimit → s.settings.dockFaultLimit ≤ counter → (s.dock d).state ≠ .lockedOut →
       (s.dock d).release = some r → r.origin = .occupied →
       s.countFault d kind cause =
         ({ ((s.putDock d { s.dock d with counter := counter }).putDock d
               { s.dock d with counter := counter, lockoutPending := true }).post (record .lockedOut (s.dock d).state) with
             faultsDropped := 0 } : State).setAttention .lockout)) ∧
  (∀ (d : Nat) (b : Bike) (s : State), (s.dock d).bike = some b → 0 < s.free → s.faults = [] →
     let reported := fun (after : Bike) (effect : FaultEffect) =>
       ({ (s.putDock d { s.dock d with bike := some after }).post (.fault
           { subject := .bike, dock := some d, bikeId := some b.id, tagBikeId := none, tagRef := none
             kind := some (.bike .tag), source := some .dock, cause := none, reporter := none, reporters := none
             confirmCount := none, effect := effect, conditionAfter := some after.condition, counterAfter := none
             counterBefore := none, dockState := none, bikeAbsent := false } s.faultsDropped) with
         faultsDropped := 0 } : State)
     let confirmed : Bike := { b with faults := insertFault .tag b.faults, tallies := setEntry b.tallies 7 [] }
     (.tag ∈ b.faults → s.reportTag d = reported b .noted) ∧
     (.tag ∉ b.faults → ((s.policy .tag).cls = .advisory ∧ b.id ≠ 0) ∨ b.condition ≠ .available →
       s.reportTag d = reported confirmed .noted) ∧
     (.tag ∉ b.faults → (s.policy .tag).cls = .quarantine ∨ b.id = 0 → b.condition = .available →
       s.reportTag d = (reported { confirmed with condition := .quarantined } .quarantined).setAttention .quarantine))

/-! ### Custody -/

/-- A LOCKED event sets the lock state; in RELOCKING it brings OCCUPIED with counter 0; in RELEASE_OPEN it ends a member's,
a crew's or a remote release from an OCCUPIED dock as a lapse, OCCUPIED again with TAG_CLEAR issued and the slot set aside
free. An UNLOCKED event sets the lock state; in UNLOCKING it opens the release for the release window; in OCCUPIED it brings
RELOCKING with LOCK issued. A PRESENT of the bike recorded, or in a transient state or OFFLINE, changes nothing (R19, R26,
R28 to R30, R33, R35, R53).
A bike with an IDLE tag at an EMPTY dock without a reservation, its id at no other dock and no session open: it is AVAILABLE
with no fault, the dock OCCUPIED where the lock is LOCKED, else RELOCKING with LOCK issued (R18, R30, R32). With an
unreadable tag it has id 0 and TAG is reported; with an id held at another dock it has id 0, is QUARANTINED for TAG, and a
FAULT of effect CONFLICT is recorded (R30, R122, R126, R130). In an open session it is a delivery for the dock's DELIVER
reservation, or, without one, for the first DELIVER entry that wants one, whose highest reserved dock is dropped: the
VAN_MOVE is posted, the done count rises, an ACTIVE session's idle deadline restarts, and one whose entries are all met ends
with its summary posted (R143, R144, R149, R150, R152, R153).
A RESTART census, or a DEMAND one at a dock not OFFLINE (log 15), reconciles a dock in no release, without a reservation and
with its counter below the limit: EMPTY where no bike is there; OCCUPIED, or RELOCKING with LOCK issued, the record kept or
made anew, an IDLE bike counting no delivery (log 16); a record discarded has its close finalised first, reason CENSUS.
RESTART drops the node's commands, its counter 1 (R8, R37, R106). An OVERFLOW census is compared with the entry: a bike
gone, come or changed is handled as the REMOVED and PRESENT lost, an unreadable image as no change (log 16), another lock
state as the lock event. The resting indication is shown afresh (R8, R22, R38). -/
def Obligations.LockEventsAndArrival : Prop :=
  (∀ (d : Nat) (s : State), 1 ≤ d → d ≤ s.docks.length →
     ((s.dock d).state = .relocking →
       ∃ t : State, s.onLocked d = t ∧ t.steady = (s.putDock d
         { s.dock d with lock := .locked, state := .occupied, counter := 0, relockAt := none }).steady) ∧
     ((s.dock d).state ≠ .relocking → (s.dock d).state ≠ .releaseOpen →
       s.onLocked d = s.putDock d { s.dock d with lock := .locked }) ∧
     (∀ r hirer issue ref image, (s.dock d).state = .releaseOpen → (s.dock d).release = some r →
       r.party = .hire hirer issue ref image → (∀ slot serial, hirer ≠ .pass slot serial) → r.origin = .occupied →
       (s.dock d).lockoutPending = false → s.firstPlace = none →
       s.onLocked d =
         { (s.putDock d { s.dock d with lock := .locked, state := .occupied, release := none, windowAt := none }).issue d
             (.tagClear .afterRelease) with setAside := s.setAside - 1 }) ∧
     (∀ image, (s.dock d).state.transient = true ∨ (s.dock d).state = .offline → s.onPresent d image = s) ∧
     (∀ b i, (s.dock d).state = .occupied ∨ (s.dock d).state = .lockedOut → (s.dock d).bike = some b →
       b.id = (match i with | .idle id => id | .onHire x => x.bikeId) → s.onPresent d (some i) = s) ∧
     ((s.dock d).state = .unlocking →
       ∃ t : State, s.onUnlocked d = t ∧ t.steady = (s.putDock d
         { s.dock d with
           lock := .unlocked, state := .releaseOpen
           windowAt := some (s.elapsed + s.settings.releaseWindow * 1000) }).steady) ∧
     ((s.dock d).state = .occupied →
       ∃ t : State, s.onUnlocked d = t.issue d .lock ∧ t.steady = (s.putDock d
         { s.dock d with lock := .unlocked, state := .relocking }).steady) ∧
     ((s.dock d).state ≠ .unlocking → (s.dock d).state ≠ .occupied →
       s.onUnlocked d = s.putDock d { s.dock d with lock := .unlocked })) ∧
  (∀ (d id : Nat) (s : State), 1 ≤ d → d ≤ s.docks.length → (s.dock d).state = .empty → (s.dock d).reservation = .unreserved →
     s.van.phase = .idle → s.bikeElsewhere d id = false →
     let bike : Bike :=
       { id := id, condition := .available, faults := [], tallies := [[], [], [], [], [], [], [], []], dockedAt := s.now
         settling := false }
     ((s.dock d).lock = .locked →
       s.onPresent d (some (.idle id)) = s.putDock d { s.dock d with state := .occupied, bike := some bike }) ∧
     ((s.dock d).lock ≠ .locked →
       s.onPresent d (some (.idle id)) =
         (s.putDock d { s.dock d with state := .relocking, bike := some bike }).issue d .lock)) ∧
  (∀ (d : Nat) (s : State), 1 ≤ d → d ≤ s.docks.length → (s.dock d).state = .empty →
     let docked := fun (b : Bike) (r : Reservation) =>
       let u := s.putDock d { s.dock d with
         state := if (s.dock d).lock = .locked then .occupied else .relocking, bike := some b, reservation := r }
       if (s.dock d).lock = .locked then u else u.issue d .lock
     let made := fun (id : Nat) => ({ id := id, condition := .available, faults := []
                                      tallies := [[], [], [], [], [], [], [], []], dockedAt := s.now, settling := false } : Bike)
     ((s.dock d).reservation = .unreserved → s.onPresent d none = (docked (made 0) .unreserved).reportTag d) ∧
     (∀ i : TagImage, (s.dock d).reservation = .unreserved →
       s.bikeElsewhere d (match i with | .idle id => id | .onHire x => x.bikeId) = true → 0 < s.free → s.faults = [] →
       s.onPresent d (some i) =
         ({ (docked { made 0 with condition := .quarantined, faults := [.tag] } .unreserved).post (.fault
             { subject := .bike, dock := some d, bikeId := some 0
               tagBikeId := some (match i with | .idle id => id | .onHire x => x.bikeId)
               tagRef := (match i with | .idle _ => none | .onHire x => some x.ref)
               kind := some (.bike .tag), source := some .dock, cause := none, reporter := none, reporters := none
               confirmCount := none, effect := .conflict, conditionAfter := some .quarantined, counterAfter := none
               counterBefore := none, dockState := none, bikeAbsent := false } s.faultsDropped) with
           faultsDropped := 0 } : State).setAttention .quarantine) ∧
     (∀ id n m, s.bikeElsewhere d id = false → s.van.phase = .reserving ∨ s.van.phase = .active →
       entryAt s.van.manifest n = some m → s.van.moves = [] → 0 < s.free →
       let counted := fun (reserved : Bool) =>
         ({ (docked (made id) .unreserved).post (.vanMove
             { session := s.van.session, van := s.van.van, collect := false, entry := n, dock := d, bikeId := id
               time := s.now, reserved := some reserved }) with
           van := { s.van with
             manifest := setEntry s.van.manifest n { m with done := m.done + 1 }
             idleAt := if s.van.phase = .active then some (s.elapsed + s.settings.vanIdleTimeout * 1000)
               else s.van.idleAt } } : State)
       let goesOn := s.van.phase = .reserving ∨
         ∃ x ∈ setEntry s.van.manifest n { m with done := m.done + 1 }, x.done ≠ x.target
       let ends := s.van.phase = .active ∧ (∀ x ∈ setEntry s.van.manifest n { m with done := m.done + 1 }, x.done = x.target) ∧
         s.vanReleases = [] ∧ s.van.summary = none ∧ 1 < s.free
       let closed := fun (u : State) =>
         ({ u.post (.vanSummary
             { session := s.van.session, van := s.van.van, crew := s.van.crew, opened := s.van.opened
               ending := { endedBy := .exhaustion, outcome := .exhausted, time := s.now }
               short := s.van.manifest.any (fun x => 0 < x.short), dropped := s.van.dropped
               results := setEntry s.van.manifest n { m with done := m.done + 1 } }) with
           van := .idleWith s.van.counter } : State)
       ((s.dock d).reservation = .deliver n →
         (goesOn → (s.onPresent d (some (.idle id))).steady = (counted true).steady) ∧
         (ends → (∀ e ∈ dockNumbers, e ≠ d → (s.dock e).reservation = .unreserved) →
           (s.onPresent d (some (.idle id))).steady = (closed (counted true)).steady)) ∧
       (∀ e ∈ dockNumbers, (s.dock d).reservation = .unreserved → m.kind = .deliver → m.done < m.target →
         (∀ k x, k < n → entryAt s.van.manifest k = some x → x.kind = .deliver → x.target ≤ x.done) →
         (s.dock e).reservation = .deliver n →
         (∀ c ∈ dockNumbers, e < c → (s.dock c).reservation ≠ .deliver n ∧ (s.dock c).reservation ≠ .collect n) →
         let shifted := (counted false).putDock e { s.dock e with reservation := .unreserved }
         (goesOn → (s.onPresent d (some (.idle id))).steady = shifted.steady) ∧
         (ends → (∀ c ∈ dockNumbers, c ≠ e → (s.dock c).reservation = .unreserved) →
           (s.onPresent d (some (.idle id))).steady = (closed shifted).steady)))) ∧
  (∀ (d : Nat) (lock : LockPosition) (there : Bool) (image : Option (List Byte)) (s : State), 1 ≤ d → d ≤ 64 → s.sized →
     let lockState := (match lock with | .locked => LockState.locked | .unlocked => .unlocked)
     let restarted : Node :=
       { s.node d with current := none, waiting := [], counter := 1, power := .normal, censused := true }
     let asked : Node := { s.node d with power := .normal, censused := true }
     let found : Option TagImage := (match image with | some bytes => tagImage bytes | none => none)
     ((s.dock d).configured = true → (s.dock d).state ≠ .offline → (s.dock d).release = none →
       (s.dock d).reservation = .unreserved →
       s.settings.dockFaultLimit = 0 ∨ (s.dock d).counter < s.settings.dockFaultLimit →
       s.censusReported = true ∨
         (∃ other ∈ dockNumbers, other ≠ d ∧ (s.dock other).configured = true ∧ (s.node other).censused = false) →
       ∀ cause n, (cause = .restart ∧ n = restarted) ∨ (cause = .demand ∧ n = asked) →
       let kept := s.putNode d n
       let vacated := kept.vacated d .census
       let leaves := fun (u : State) (after : DockState) (b : Option Bike) =>
         let v := if after = .relocking then u.issue d .lock else u
         s.deliver d (.census lock there image cause) =
           { (v.putDock d { s.dock d with
                lock := lockState, state := after, bike := b, windowAt := none, relockAt := none, lockoutPending := false
                shown := none }).raise .dockState with
             offlineAt := setEntry s.offlineAt d none, readerRuns := setEntry s.readerRuns d 0 }
       let holding : DockState := if lock = .locked then .occupied else .relocking
       (there = false → leaves vacated .empty none) ∧
       (∀ b, there = true → (s.dock d).bike = some b → found = some (.idle b.id) → leaves kept holding (some b)) ∧
       (∀ id, there = true → found = some (.idle id) → s.bikeElsewhere d id = false →
         (∀ b, (s.dock d).bike = some b → b.id ≠ id) →
         leaves vacated holding (some
           { id := id, condition := .available, faults := [], tallies := [[], [], [], [], [], [], [], []], dockedAt := s.now
             settling := false }))) ∧
     (let u := s.putNode d { s.node d with power := .normal }
      let seen :=
        match (s.dock d).bike with
        | none => if there then u.onPresent d found else u
        | some b =>
          if there = false then u.onRemoved d .census
          else match found with
            | none => u
            | some i =>
              if (match i with | .idle id => id | .onHire x => x.bikeId) = b.id then u
              else (u.onRemoved d .census).onPresent d (some i)
      let moved :=
        if (seen.dock d).lock = lockState then seen
        else match lock with | .locked => seen.onLocked d | .unlocked => seen.onUnlocked d
      s.deliver d (.census lock there image .overflow) = moved.putDock d { moved.dock d with shown := none }))

/-- The removal of a bike under the release of a member, a remote release, a pass or a crew card: the dock is EMPTY, or
LOCKED_OUT after a release begun from there or with a lockout that waits, with neither bike nor release; the hire is open
with the trip image's start, plan and generation, and HIRE_OPEN goes into the slot set aside (R26, R27, R40, R54, R159). The
hire of a crew card that finds the table full stays UNTRACKED: HIRE_OPEN says so, and no hire is added (R56). A pass that
was ISSUED or IDLE is ON_RIDE with the hire as its current one (R68).
The removal under a VAN release: VAN_MOVE is posted, the done count of the entry rises, the reservation ends, and in ACTIVE
the idle deadline restarts. With every entry met an ACTIVE session ends EXHAUSTED, and in CLOSING, or so ended, the summary
follows with the last VAN release (R142, R149 to R153).
A removal without a release, in OCCUPIED, RELOCKING, TAG_WRITING or at a LOCKED_OUT dock that held a bike: the bike record
is gone, the dock is EMPTY or stays LOCKED_OUT, and a SENSOR fault is counted; a COLLECT reservation is lost; and a release
in TAG_WRITING ends, REFUSED being shown where it came from the dock and the slot set aside being free again (R34, R53,
R123, R146). Where the dock holds no bike, a REMOVED does nothing (R34). The close of a settling bike is finalised early
before all else, with reason REMOVAL, or CENSUS where an OVERFLOW census shows the bike gone, in the model (log 16; R18,
R34, R38, R106). -/
def Obligations.RemovalOpensTheHire : Prop :=
  (∀ (d : Nat) (hirer : Hirer) (issue : Option Nat) (ref : HireRef) (image : TripImage) (r : Release) (b : Bike) (s : State),
     1 ≤ d → d ≤ s.docks.length → (s.dock d).state = .releaseOpen ∨ (s.dock d).state = .unlocking →
     (s.dock d).release = some r → r.party = .hire hirer issue ref image → (s.dock d).bike = some b →
     ((s.dock d).lockoutPending = true → (s.dock d).reservation = .unreserved) →
     let u := s.settleDock d .removal
     let pending := (s.dock d).lockoutPending
     let hire : OpenHire :=
       { ref := image.ref, hirer := hirer, bikeId := b.id, start := image.start, plan := image.plan
         generation := image.generation }
     let untracked := (match hirer with | .crew _ => true | _ => false) && decide (96 ≤ s.hires.length + s.riderReleases)
     let left : State :=
       { u.putDock d { u.dock d with
           state := if pending = true ∨ r.origin = .lockedOut then .lockedOut else .empty
           bike := none, release := none, windowAt := none, lockoutPending := false
           relockAt := if pending = true then none else (s.dock d).relockAt } with
         setAside := s.setAside - 1 }
     let opened := (if untracked = true then left else left.putHires (s.hires ++ [hire])).post
       (.hireOpen hire issue d s.now r.credit untracked)
     ((∀ slot serial p, hirer = .pass slot serial → u.pass slot = some p →
         ¬ (p.serial = serial ∧ (p.state = .issued ∨ p.state = .idle))) →
       (s.onRemoved d .removal).steady = opened.steady) ∧
     (∀ slot serial p, hirer = .pass slot serial → u.pass slot = some p → p.serial = serial →
       p.state = .issued ∨ p.state = .idle →
       (s.onRemoved d .removal).steady =
         (opened.putPass slot (some { p with state := .onRide, current := some image.ref })).steady)) ∧
  (∀ (d crew n : Nat) (r : Release) (b : Bike) (m : ManifestEntry) (s : State), 1 ≤ d → d ≤ 64 → s.sized →
     (s.dock d).state = .releaseOpen ∨ (s.dock d).state = .unlocking → (s.dock d).release = some r →
     r.party = .van crew n → r.origin = .occupied → (s.dock d).bike = some b →
     (s.dock d).lockoutPending = false → entryAt s.van.manifest n = some m → s.van.moves = [] →
     let u := s.settleDock d .removal
     0 < u.free →
     let manifest := setEntry s.van.manifest n { m with done := m.done + 1 }
     let moved : State :=
       { (u.putDock d { u.dock d with
           state := .empty, bike := none, release := none, windowAt := none, reservation := .unreserved }).post (.vanMove
           { session := s.van.session, van := s.van.van, collect := true, entry := n, dock := d, bikeId := b.id
             time := s.now, reserved := none }) with
         van := { s.van with
           manifest := manifest
           idleAt := if s.van.phase = .active then some (s.elapsed + s.settings.vanIdleTimeout * 1000)
             else s.van.idleAt } }
     let closed := fun (ending : VanEnding) =>
       ({ moved.post (.vanSummary
           { session := s.van.session, van := s.van.van, crew := s.van.crew, opened := s.van.opened, ending := ending
             short := s.van.manifest.any (fun x => 0 < x.short), dropped := s.van.dropped, results := manifest }) with
         van := .idleWith s.van.counter } : State)
     (s.van.phase = .active → (∃ x ∈ manifest, x.done ≠ x.target) → (s.onRemoved d .removal).steady = moved.steady) ∧
     (s.van.phase = .active → (∀ x ∈ manifest, x.done = x.target) → s.vanReleases = [d] →
       (∀ e ∈ dockNumbers, e ≠ d → (s.dock e).reservation = .unreserved) → s.van.summary = none → 1 < u.free →
       (s.onRemoved d .removal).steady =
         (closed { endedBy := .exhaustion, outcome := .exhausted, time := s.now }).steady) ∧
     (s.van.phase = .closing → s.vanReleases ≠ [d] → (s.onRemoved d .removal).steady = moved.steady) ∧
     (∀ ending, s.van.phase = .closing → s.vanReleases = [d] → s.van.ending = some ending → s.van.summary = none →
       1 < u.free → (s.onRemoved d .removal).steady = (closed ending).steady)) ∧
  (∀ (d : Nat) (reason : EarlyReason) (s : State), 1 ≤ d → d ≤ s.docks.length →
     let u := s.settleDock d reason
     let left := u.putDock d { u.dock d with
       state := if (s.dock d).state = .lockedOut then .lockedOut else .empty
       bike := none, release := none, windowAt := none, relockAt := none }
     let below := s.settings.dockFaultLimit = 0 ∨ min 7 ((s.dock d).counter + 1) < s.settings.dockFaultLimit
     ((s.dock d).state = .empty ∨ (s.dock d).state = .offline ∨ ((s.dock d).state = .lockedOut ∧ (s.dock d).bike = none) →
       s.onRemoved d reason = s) ∧
     ((s.dock d).release = none →
       (s.dock d).state = .occupied ∨ (s.dock d).state = .relocking ∨
         ((s.dock d).state = .lockedOut ∧ (s.dock d).bike ≠ none) →
       (∀ n, (s.dock d).reservation ≠ .collect n) →
       s.onRemoved d reason = left.countFault d .sensor .unreleasedRemoval) ∧
     (∀ n, (s.dock d).reservation = .collect n → s.van.phase ≠ .closing →
       ((s.dock d).release = none ∧ ((s.dock d).state = .occupied ∨ (s.dock d).state = .relocking)) ∨
         ((s.dock d).state = .tagWriting ∧
           ∃ r crew, (s.dock d).release = some r ∧ r.party = .van crew n ∧ r.origin = .occupied ∧
             (s.dock d).lockoutPending = false) →
       below → s.onRemoved d reason = (left.countFault d .sensor .unreleasedRemoval).loseReservation d) ∧
     (∀ r hirer issue ref image, (s.dock d).state = .tagWriting → (s.dock d).release = some r →
       r.party = .hire hirer issue ref image → (∀ slot serial, hirer ≠ .pass slot serial) → r.origin = .occupied →
       (s.dock d).lockoutPending = false → (s.dock d).reservation = .unreserved → u.firstPlace = none → 0 < u.free → below →
       let refused := if r.fromDock then left.issue d (.show .refused) else left
       s.onRemoved d reason =
         { refused.countFault d .sensor .unreleasedRemoval with setAside := s.setAside - 1 }))

/-- The return of a bike on hire at an EMPTY dock, at an OCCUPIED one that records another bike (R33), or at a LOCKED_OUT
one that records another or none: the record of another bike is discarded, its close finalised early with reason REPLACED
(R18, R106); the bike is AVAILABLE and settling, the dock LOCKED_OUT still, or OCCUPIED where the lock is LOCKED and else
RELOCKING, the open hire of the reference is struck off, and a HELD entry with the close that fare prices joins the settle
list, with the settle window as its deadline. The return credit is given where the stock before the bike is below the low
mark (R21, R31, R57, R91, R103). A pass that was ON_RIDE with that hire is CLOSING (R69); the return of a bike that a crew
card took is a crew return, whether its hire was tracked or not (R56, R92). A DELIVER reservation of the dock moves to the
lowest EMPTY dock without one, and where there is none the entry's target falls and its short count rises (R145). TAG_CLEAR
is issued, and LOCK where the lock is not LOCKED, but not at a LOCKED_OUT dock that held no bike (R30, R31, R33).
With a settle window of 0 the entry of a hirer with no pass is finalised at once, cause DEADLINE, the mark cleared:
HIRE_CLOSE is posted with the lost closes, or waits for a slot (R103, R107, R108). A list of 64 entries first gives up its
oldest: a HELD one of a hirer with no pass is finalised LIST_FULL, its bike's mark cleared and its HIRE_CLOSE posted where a
slot is free; with no slot its close, or that of a WAITING one, is lost and counted (R106, R110).
The arrival of a bike with an IDLE tag of another id, with an unreadable one, or with an id held in another dock, at an
OCCUPIED or LOCKED_OUT dock: the old record goes likewise, and the new one is made as at an EMPTY dock, with id 0 and TAG
reported, or with id 0, QUARANTINED, with a FAULT of effect CONFLICT (R30, R33, R122). An IDLE bike that replaces another
counts no delivery, in an open session the model's choice (log 16). -/
def Obligations.ReturnIsHeld : Prop :=
  (∀ (d : Nat) (i : TripImage) (s : State), 1 ≤ d → d ≤ s.docks.length →
    (s.dock d).state = .empty ∨
      (((s.dock d).state = .occupied ∨ (s.dock d).state = .lockedOut) ∧ ∀ b, (s.dock d).bike = some b → b.id ≠ i.bikeId) →
    s.bikeElsewhere d i.bikeId = false → s.heldAt i.bikeId = none →
    let v := if (s.dock d).state = .empty then s else s.vacated d .replaced
    let bike : Bike :=
      { id := i.bikeId, condition := .available, faults := [], tallies := [[], [], [], [], [], [], [], []]
        dockedAt := s.now, settling := true }
    let close := priceReturn s.tariffs s.plans s.settings.returnCredit i d s.now (decide (v.stock < s.settings.lowMark)) false
    let entry : SettleEntry :=
      { close := close, waiver := none
        stage := .held i.bikeId d (s.elapsed + s.settings.settleWindow * 1000) }
    let docked := v.putDock d { v.dock d with
      state :=
        if (s.dock d).state = .lockedOut then .lockedOut else if (s.dock d).lock = .locked then .occupied else .relocking
      bike := some bike }
    let locks := (s.dock d).lock ≠ .locked ∧ ((s.dock d).state = .lockedOut → (s.dock d).bike ≠ none)
    let struck := docked.struckOff i.ref
    let held := struck.putSettle { entries := v.entries ++ [entry], lost := v.store.settle.cur.lost }
    let room := v.entries.length < 64 ∧ 0 < s.settings.settleWindow
    let gives := fun (t : State) => (s.onPresent d (some (.onHire i))).steady = t.steady
    ((s.onPresent d (some (.onHire i))).nodes =
      (if locks then (s.issue d (.tagClear .atReturn)).issue d .lock else s.issue d (.tagClear .atReturn)).nodes) ∧
    (room → (∀ n, (s.dock d).reservation ≠ .deliver n) → gives held) ∧
    (∀ n m, room → (s.dock d).reservation = .deliver n → s.van.phase = .reserving ∨ s.van.phase = .active →
      entryAt s.van.manifest n = some m →
      let freed := held.putDock d { held.dock d with reservation := .unreserved }
      (∀ e ∈ dockNumbers, (s.dock e).state = .empty → (s.dock e).reservation = .unreserved →
        (∀ c ∈ dockNumbers, c < e → (s.dock c).state ≠ .empty ∨ (s.dock c).reservation ≠ .unreserved) →
        gives (freed.putDock e { v.dock e with reservation := .deliver n })) ∧
      ((∀ c ∈ dockNumbers, (s.dock c).state ≠ .empty ∨ (s.dock c).reservation ≠ .unreserved) →
        let manifest := setEntry s.van.manifest n { m with target := m.target - 1, short := m.short + 1 }
        s.van.phase = .reserving ∨ (∃ x ∈ manifest, x.done ≠ x.target) →
        gives { freed with van := { s.van with manifest := manifest } })) ∧
    (v.entries.length < 64 → s.settings.settleWindow = 0 → (∀ n, (s.dock d).reservation ≠ .deliver n) →
      (∀ slot serial, i.hirer ≠ .pass slot serial) →
      let cleared := held.putDock d { held.dock d with bike := some { bike with settling := false } }
      (0 < v.free →
        gives ((cleared.post (.hireClose close none .deadline s.now .noPass v.store.settle.cur.lost)).putSettle
          { entries := v.entries, lost := 0 })) ∧
      (v.free = 0 →
        gives (cleared.putSettle { v.store.settle.cur with
          entries := v.entries ++ [{ entry with stage := .waiting .deadline s.now .noPass }] }))) ∧
    (∀ oldest rest, v.entries = oldest :: rest → rest.length = 63 → 0 < s.settings.settleWindow →
      (∀ n, (s.dock d).reservation ≠ .deliver n) →
      let lostOne := min 65535 (v.store.settle.cur.lost + 1)
      (∀ cause time pass, oldest.stage = .waiting cause time pass → v.free = 0 →
        gives ((struck.putSettle { entries := rest, lost := lostOne }).putSettle
          { entries := rest ++ [entry], lost := lostOne })) ∧
      (∀ b link deadline x, oldest.stage = .held b link deadline → (∀ slot serial, oldest.close.hirer ≠ .pass slot serial) →
        link ≠ d → (v.dock link).bike = some x → x.id = b →
        let u := struck.putDock link { v.dock link with bike := some { x with settling := false } }
        (0 < v.free →
          gives (((u.post (.hireClose oldest.close oldest.waiver (.earlyFinal .listFull) s.now .noPass
              v.store.settle.cur.lost)).putSettle { entries := rest, lost := 0 }).putSettle
            { entries := rest ++ [entry], lost := 0 })) ∧
        (v.free = 0 →
          gives (((u.putSettle { v.store.settle.cur with
              entries := { oldest with stage := .waiting (.earlyFinal .listFull) s.now .noPass } :: rest }).putSettle
              { entries := rest, lost := lostOne }).putSettle
            { entries := rest ++ [entry], lost := lostOne })))) ∧
    (i.plan = 15 → close.fare = 0)) ∧
  (∀ (d : Nat) (image : Option TagImage) (s : State), 1 ≤ d → d ≤ s.docks.length →
    (s.dock d).state = .occupied ∨ (s.dock d).state = .lockedOut → (∀ n, (s.dock d).reservation ≠ .deliver n) →
    let idOf := fun (i : TagImage) => (match i with | .idle id => id | .onHire x => x.bikeId)
    (∀ b i, (s.dock d).bike = some b → image = some i → idOf i ≠ b.id) →
    let v := s.vacated d .replaced
    let docked := fun (b : Bike) =>
      let u := v.putDock d { v.dock d with
        state :=
          if (s.dock d).state = .lockedOut then .lockedOut else if (s.dock d).lock = .locked then .occupied else .relocking
        bike := some b }
      if (s.dock d).lock ≠ .locked ∧ ((s.dock d).state = .lockedOut → (s.dock d).bike ≠ none) then u.issue d .lock else u
    let made := fun (id : Nat) => ({ id := id, condition := .available, faults := []
                                     tallies := [[], [], [], [], [], [], [], []], dockedAt := s.now, settling := false } : Bike)
    (image = none → s.onPresent d image = (docked (made 0)).reportTag d) ∧
    (∀ id, image = some (.idle id) → s.bikeElsewhere d id = false → s.onPresent d image = docked (made id)) ∧
    (∀ i, image = some i → s.bikeElsewhere d (idOf i) = true → 0 < v.free → v.faults = [] →
      s.onPresent d image =
        ({ (docked { made 0 with condition := .quarantined, faults := [.tag] }).post (.fault
            { subject := .bike, dock := some d, bikeId := some 0, tagBikeId := some (idOf i)
              tagRef := (match i with | .idle _ => none | .onHire x => some x.ref)
              kind := some (.bike .tag), source := some .dock, cause := none, reporter := none, reporters := none
              confirmCount := none, effect := .conflict, conditionAfter := some .quarantined, counterAfter := none
              counterBefore := none, dockState := none, bikeAbsent := false } v.faultsDropped) with
          faultsDropped := 0 } : State).setAttention .quarantine))

/-- A member's attempt is refused for the first check of R51 that fails, and changes nothing; where all pass, the close of a
settling bike is finalised early with reason RELEASE (R18, R23, R106), and the release begins with the next reference, a
slot set aside and the trip image, TAG_WRITE being issued (R21, R23, R50 to R52, R90, R159).
A crew card, of plan 15, at a dock without a reservation is refused for the clock, the dock, the deny list or the journal,
in that order, whatever the bike's condition; else its release begins likewise with plan 15 and no credit, also from a
LOCKED_OUT dock that holds a bike (R23, R55, R56). At a dock with a DELIVER reservation, or with a COLLECT one that is not
its session's, it is DOCK_RESERVED; the crew of the ACTIVE session restarts the idle deadline there, and its VAN release
begins likewise, TAG_CLEAR being issued, or is refused for the deny list, the room for moves or the dock (R55, R140, R149). -/
def Obligations.MemberAttempt : Prop :=
  (∀ (d : Nat) (card : CardImage) (s : State), card.plan ≠ 15 →
     let refuses := fun (r : Reason) => s.cardAttempt d card = (s, some r)
     (s.now = none → refuses .clockUnset) ∧
     (∀ t, s.now = some t →
       ((s.dock d).configured = false ∨ (s.dock d).state = .offline → refuses .dockOffline) ∧
       ((s.dock d).configured = true →
         ((s.dock d).state = .empty → refuses .noBike) ∧
         ((s.dock d).state.transient = true → refuses .dockBusy) ∧
         ((s.dock d).state = .lockedOut → refuses .dockFault) ∧
         ((s.dock d).state = .occupied → (s.dock d).reservation ≠ .unreserved → refuses .dockReserved) ∧
         ((s.dock d).state = .occupied → (s.dock d).reservation = .unreserved →
           ((s.dock d).holds .available = false → refuses .bikeUnavailable) ∧
           (∀ b p, (s.dock d).bike = some b → b.condition = .available → s.plans[card.plan]? = some p →
             (card.expiryDay < (t - s.settings.dayOffset) / 86400 → refuses .cardExpired) ∧
             ((t - s.settings.dayOffset) / 86400 ≤ card.expiryDay →
               (card.member ∈ s.denied → refuses .cardDenied) ∧
               (card.member ∉ s.denied →
                 (p.admitted = false → refuses .planClosed) ∧
                 (p.admitted = true → p.hireLimit ≤ s.memberHires card.member → refuses .hireLimit) ∧
                 (p.admitted = true → s.memberHires card.member < p.hireLimit →
                   (96 ≤ s.hires.length + s.hireReleases → refuses .hireTableFull) ∧
                   (s.hires.length + s.hireReleases < 96 →
                     (s.free < s.settings.openReserve → refuses .journalFull) ∧
                     (s.settings.openReserve ≤ s.free →
                       let credit := if s.settings.highMark < s.stock then s.settings.releaseCredit else 0
                       let image : TripImage :=
                         { bikeId := b.id, ref := s.nextRef, hirer := .member card.member, start := t, plan := card.plan
                           generation := s.tariffs.current.generation, credit := credit }
                       let taken :=
                         ({ s.putHireCount (if 16777215 ≤ s.nextRef.count then 1 else s.nextRef.count + 1) with
                           setAside := s.setAside + 1 } : State).settleDock d .release
                       s.cardAttempt d card =
                         ((taken.putDock d
                           { taken.dock d with
                             state := .tagWriting
                             release := some
                               { party := .hire (.member card.member) (some card.issue) s.nextRef image, credit := credit
                                 origin := .occupied, fromDock := true, expiryHeld := false } }).issue d (.tagWrite image),
                           none))))))))))) ∧
  (∀ (d : Nat) (card : CardImage) (s : State), card.plan = 15 →
     let refuses := fun (r : Reason) => s.cardAttempt d card = (s, some r)
     ((s.dock d).reservation = .unreserved →
       (s.now = none → refuses .clockUnset) ∧
       (∀ t, s.now = some t →
         ((s.dock d).configured = false ∨ (s.dock d).state = .offline → refuses .dockOffline) ∧
         ((s.dock d).configured = true →
           ((s.dock d).state = .empty → refuses .noBike) ∧
           ((s.dock d).state.transient = true → refuses .dockBusy) ∧
           ((s.dock d).state = .lockedOut → (s.dock d).bike = none → refuses .noBike) ∧
           (∀ b, (s.dock d).state = .occupied ∨ (s.dock d).state = .lockedOut → (s.dock d).bike = some b →
             (card.member ∈ s.denied → refuses .cardDenied) ∧
             (card.member ∉ s.denied →
               (s.free < s.settings.openReserve → refuses .journalFull) ∧
               (s.settings.openReserve ≤ s.free →
                 let image : TripImage :=
                   { bikeId := b.id, ref := s.nextRef, hirer := .crew card.member, start := t, plan := 15
                     generation := s.tariffs.current.generation, credit := 0 }
                 let taken :=
                   ({ s.putHireCount (if 16777215 ≤ s.nextRef.count then 1 else s.nextRef.count + 1) with
                     setAside := s.setAside + 1 } : State).settleDock d .release
                 s.cardAttempt d card =
                   ((taken.putDock d
                     { taken.dock d with
                       state := .tagWriting
                       release := some
                         { party := .hire (.crew card.member) (some card.issue) s.nextRef image, credit := 0
                           origin := if (s.dock d).state = .lockedOut then .lockedOut else .occupied
                           fromDock := true, expiryHeld := false } }).issue d (.tagWrite image), none))))))) ∧
     (∀ n, (s.dock d).reservation = .deliver n → refuses .dockReserved) ∧
     (∀ n, (s.dock d).reservation = .collect n →
       (s.van.phase ≠ .active ∨ s.van.crew ≠ card.member → refuses .dockReserved) ∧
       (s.van.phase = .active → s.van.crew = card.member →
         let waited : State :=
           { s with van := { s.van with idleAt := some (s.elapsed + s.settings.vanIdleTimeout * 1000) } }
         (card.member ∈ s.denied → s.cardAttempt d card = (waited, some .cardDenied)) ∧
         (card.member ∉ s.denied → 64 ≤ s.van.moves.length + s.vanReleases.length →
           s.cardAttempt d card = (waited, some .journalFull)) ∧
         (card.member ∉ s.denied → s.van.moves.length + s.vanReleases.length < 64 → (s.dock d).state ≠ .occupied →
           s.cardAttempt d card = (waited, some .dockBusy)) ∧
         (card.member ∉ s.denied → s.van.moves.length + s.vanReleases.length < 64 → (s.dock d).state = .occupied →
           let closed := waited.settleDock d .release
           s.cardAttempt d card =
             ((closed.putDock d
                 { closed.dock d with
                   state := .tagWriting
                   release := some
                     { party := .van s.van.crew n, credit := 0, origin := .occupied, fromDock := true
                       expiryHeld := false } }).issue d (.tagClear .vanRelease), none)))))

/-- RELEASE_WINDOW_EXPIRY at its end: the release in RELEASE_OPEN lapses with nothing shown, and the dock is RELOCKING, or
LOCKED_OUT after a release begun from there, its counter kept (R28). Of a hire release, TAG_CLEAR and LOCK are issued, a
lockout that waits is applied with SHOW FAULT (R40), and the slot set aside is free again (R53, R159). With a producer waiting
at a journal that had no slot free, that slot serves the first place of the room arbiter that holds a waiting record (R160).
An expiry of its pass that was held back or has been reached is then taken: PASS_SETTLE is posted, where no slot was free into
the slot given back; that it is taken before the slot is given back is the model's choice (R67, R75, log 11). Of a VAN
release, LOCK alone is issued and van hears of the lapse: in RESERVING and ACTIVE the reservation stays, but for a lockout
that waits, by which it is lost; in CLOSING it is dropped, and with the last VAN release the summary is posted, or waits
behind a move or for a slot (R40, R142, R150, R151, R153).
RELOCK_RETRY_EXPIRY in RELOCKING issues LOCK. A deadline not reached does nothing (R28, R29). -/
def Obligations.ReleaseTimers : Prop :=
  ∀ (d : Nat) (s : State), s.power = .running →
    (∀ r t, (s.dock d).state = .releaseOpen → (s.dock d).release = some r → (s.dock d).windowAt = some t → t ≤ s.elapsed →
      let closed := s.putDock d { s.dock d with
        state := (match r.origin with | .occupied => .relocking | .lockedOut => .lockedOut), release := none, windowAt := none }
      let locksOut := fun (u : State) =>
        if (s.dock d).lockoutPending = true then
          (u.putDock d { u.dock d with
            state := .lockedOut, relockAt := none, lockoutPending := false, shown := some .fault }).issue d (.show .fault)
        else u
      let gives := fun (u : State) => exec (.releaseWindowExpiry d) s = .next (u.finish s)
      (∀ hirer issue ref image, r.party = .hire hirer issue ref image →
        ((s.dock d).lockoutPending = true → (s.dock d).reservation = .unreserved) →
        let lapsed := locksOut ((closed.issue d (.tagClear .afterRelease)).issue d .lock)
        let freed : State := { lapsed with setAside := s.setAside - 1 }
        let full := s.records.length + s.setAside = 256 ∧ 0 < s.setAside ∧ s.replySlot = 0
        ((∀ slot serial, hirer = .pass slot serial → ∀ p, s.pass slot = some p → p.serial = serial →
            r.expiryHeld = false ∧ ∀ t, s.now = some t → t < p.expiry) →
          (s.firstPlace = none → gives freed) ∧
          (∀ p, s.firstPlace = some p → full → s.postsIn p → gives (freed.serve p))) ∧
        (∀ slot serial p, hirer = .pass slot serial → slot ∈ slotNumbers → s.pass slot = some p → p.serial = serial →
          p.state = .issued ∨ p.state = .idle → r.expiryHeld = true ∨ (∃ t, s.now = some t ∧ p.expiry ≤ t) →
          (∀ other ∈ dockNumbers, other ≠ d → ∀ q, (s.dock other).release = some q →
            q.hirer? ≠ some (.pass slot serial)) → s.sized → s.firstPlace = none →
          let q : Pass := { p with state := .settling }
          (0 < s.free → gives { (((lapsed.putPass slot (some q)).post (.passSettle slot q)).putPass slot none) with
            setAside := s.setAside - 1 }) ∧
          (full → gives ((({ lapsed.putPass slot (some q) with setAside := s.setAside - 1 } : State).post
            (.passSettle slot q)).putPass slot none)))) ∧
      (∀ crew n, r.party = .van crew n →
        let locked := closed.issue d .lock
        (s.van.phase ≠ .closing →
          ((s.dock d).lockoutPending = false → gives locked) ∧
          ((s.dock d).lockoutPending = true → gives ((locksOut locked).loseReservation d))) ∧
        (s.van.phase = .closing → s.sized →
          let gone := ((locked.putDock d { locked.dock d with reservation := .unreserved }).raise .dockState).raise .vanState
          (s.vanReleases ≠ [d] → gives (locksOut gone)) ∧
          (∀ ending, s.vanReleases = [d] → s.van.ending = some ending → s.van.summary = none →
            let summary : VanSummary :=
              { session := s.van.session, van := s.van.van, crew := s.van.crew, opened := s.van.opened, ending := ending
                short := s.van.manifest.any (fun m => 0 < m.short), dropped := s.van.dropped, results := s.van.manifest }
            (s.van.moves = [] → 0 < s.free →
              gives (locksOut { gone.post (.vanSummary summary) with van := .idleWith s.van.counter })) ∧
            (s.van.moves ≠ [] ∨ s.free = 0 →
              gives (locksOut { gone with van := { s.van with summary := some summary } })))))) ∧
    ((s.dock d).state ≠ .releaseOpen ∨ (s.dock d).windowAt = none ∨ (∃ t, (s.dock d).windowAt = some t ∧ s.elapsed < t) →
      exec (.releaseWindowExpiry d) s = .next (s.finish s)) ∧
    (∀ t, (s.dock d).state = .relocking → (s.dock d).relockAt = some t → t ≤ s.elapsed →
      exec (.relockRetryExpiry d) s = .next (((s.putDock d { s.dock d with relockAt := none }).issue d .lock).finish s)) ∧
    ((s.dock d).state ≠ .relocking ∨ (s.dock d).relockAt = none ∨ (∃ t, (s.dock d).relockAt = some t ∧ s.elapsed < t) →
      exec (.relockRetryExpiry d) s = .next (s.finish s))

/-- STRING_RESET: the string's poll ends, the reset frame is sent, the round starts at address 1, and each of its nodes is
reset in address order. Another string number is OUT_OF_RANGE (R16).
The reset of a node (R16, R36): the node is ENUMERATING afresh without commands, and its dock OFFLINE with its bike, lock
state and counter kept, its offline timer started outside the census phase (R125, R127); its reservation is lost, which van
replaces or moves (R146, R147). A release in flight is abandoned with nothing shown: the slot set aside for a hire release is
free again, and an expiry of its pass that was held back or has been reached is then taken before the slot is given back, the
model's order (R36, R53, R67, R75, R159, logs 10 and 11). Of a VAN release, the reservation is lost with it in RESERVING and
ACTIVE; in CLOSING it is dropped, and with the last VAN release the summary is posted (R142, R147, R151, R153).
Of a string whose docks carry neither release nor reservation, other docks, and all else, are as they were, the link but for
its reply and, where a dock was not OFFLINE before, the mark DOCK_STATE (R20). -/
def Obligations.StringResetResult : Prop :=
  (∀ (tag : Nat) (s : State), s.ready →
    (∀ n, n = 0 ∨ 4 < n → exec (.stringReset tag n) s =
      .next ((s.answered tag (.stringReset n) { status := .outOfRange, result := .field .string }).finish s)) ∧
    (∀ n, 1 ≤ n → n ≤ 4 →
      let begun := s.putLine n { count := (s.line n).count, next := 1, poll := none, resetSent := true }
      let reset := (List.range (s.line n).count).foldl (fun u a => u.resetNode (16 * (n - 1) + a + 1)) begun
      exec (.stringReset tag n) s =
        .next ((reset.answered tag (.stringReset n) { status := .ok, result := .empty }).finish s))) ∧
  (∀ (d : Nat) (s : State), d ∈ dockNumbers → s.sized →
    let fell := (s.putNode d { s.node d with current := none, waiting := [] }).putDock d
      { s.dock d with
        state := .offline, release := none, windowAt := none, relockAt := none, lockoutPending := false, shown := none }
    let gives := fun (u : State) => s.resetNode d =
      (if s.censusLimit = none then { u with offlineAt := setEntry s.offlineAt d (some (s.elapsed + 5000)) } else u).putNode d
        { phase := .enumerating, silenceAt := s.elapsed + 2000, lastEvent := none, power := .normal, counter := 1
          current := none, waiting := [], censused := false }
    ((s.dock d).release = none → gives (fell.loseReservation d)) ∧
    (∀ r hirer issue ref image, (s.dock d).release = some r → r.party = .hire hirer issue ref image →
      (s.dock d).reservation = .unreserved → s.firstPlace = none →
      ((∀ slot serial, hirer = .pass slot serial → ∀ p, s.pass slot = some p → p.serial = serial →
          r.expiryHeld = false ∧ ∀ t, s.now = some t → t < p.expiry) →
        gives { fell with setAside := s.setAside - 1 }) ∧
      (∀ slot serial p, hirer = .pass slot serial → slot ∈ slotNumbers → s.pass slot = some p → p.serial = serial →
        p.state = .issued ∨ p.state = .idle → r.expiryHeld = true ∨ (∃ t, s.now = some t ∧ p.expiry ≤ t) →
        (∀ other ∈ dockNumbers, other ≠ d → ∀ q, (s.dock other).release = some q →
          q.hirer? ≠ some (.pass slot serial)) → 0 < s.free →
        let q : Pass := { p with state := .settling }
        gives { (((fell.putPass slot (some q)).post (.passSettle slot q)).putPass slot none) with
          setAside := s.setAside - 1 })) ∧
    (∀ r crew n, (s.dock d).release = some r → r.party = .van crew n →
      (s.van.phase = .reserving ∨ s.van.phase = .active → gives (fell.loseReservation d)) ∧
      (s.van.phase = .closing →
        let gone := ((fell.putDock d { fell.dock d with reservation := .unreserved }).raise .dockState).raise .vanState
        (s.vanReleases ≠ [d] → gives gone) ∧
        (∀ ending, s.vanReleases = [d] → s.van.ending = some ending → s.van.summary = none → s.van.moves = [] → 0 < s.free →
          gives { gone.post (.vanSummary
            { session := s.van.session, van := s.van.van, crew := s.van.crew, opened := s.van.opened, ending := ending
              short := s.van.manifest.any (fun m => 0 < m.short), dropped := s.van.dropped
              results := s.van.manifest }) with van := .idleWith s.van.counter })))) ∧
  (∀ (tag : Nat) (s : State), s.ready → s.sized →
    (∀ n, 1 ≤ n → n ≤ 4 → (s.line n).count ≤ 16 →
      (∀ a, 1 ≤ a → a ≤ (s.line n).count →
        (s.dock (16 * (n - 1) + a)).release = none ∧ (s.dock (16 * (n - 1) + a)).reservation = .unreserved) →
      ∃ t : State, exec (.stringReset tag n) s =
          .next ((t.answered tag (.stringReset n) { status := .ok, result := .empty }).finish s) ∧
        t.strings = setEntry s.strings n { count := (s.line n).count, next := 1, poll := none, resetSent := true } ∧
        (∀ d, 1 ≤ d → d ≤ 64 →
          (16 * (n - 1) < d ∧ d ≤ 16 * (n - 1) + (s.line n).count →
            t.dock d = { s.dock d with
              state := .offline, windowAt := none, relockAt := none, lockoutPending := false, shown := none } ∧
            t.node d = { s.node d with
              phase := .enumerating, silenceAt := s.elapsed + 2000, lastEvent := none, power := .normal, counter := 1
              current := none, waiting := [], censused := false } ∧
            (entryAt t.offlineAt d).join =
              if s.censusLimit = none then some (s.elapsed + 5000) else (entryAt s.offlineAt d).join) ∧
          (¬ (16 * (n - 1) < d ∧ d ≤ 16 * (n - 1) + (s.line n).count) →
            t.dock d = s.dock d ∧ t.node d = s.node d ∧ entryAt t.offlineAt d = entryAt s.offlineAt d)) ∧
        t.link = { s.link with marks := { s.link.marks with
          dockState := s.link.marks.dockState ||
            (List.range (s.line n).count).any (fun a => (s.dock (16 * (n - 1) + a + 1)).state != .offline) } } ∧
        ({ t with
            strings := s.strings, docks := s.docks, nodes := s.nodes, offlineAt := s.offlineAt, link := s.link } : State) = s))

/-! ### Timers of faults, settlement, passes and tariffs -/

/-- OFFLINE_TIMER_EXPIRY at its end stops the timer and sets attention with cause OFFLINE; before it, or with no timer,
nothing happens (R126, R127). SETTLE_DEADLINE of the HELD entry of a bike, once its deadline is reached, and the early
finalise of the entry of a dock's settling bike, with the reason of what disturbs it (R18, R106): of a hirer with no pass,
the settling mark of the bike is cleared, and with a slot free HIRE_CLOSE is posted with its cause, DEADLINE or EARLY_FINAL
with the reason, and the lost closes, the entry leaving the list; with none the entry waits in its place. Of a pass hirer:
where its slot holds that pass CLOSING with that hire, the pass is charged the smaller of the fare and its balance, the fare
being 0 for a waived entry, a shortfall is noted, and the ride is counted. A DAY pass before its expiry is IDLE; a SINGLE
one, or one at its expiry, settles, and PASS_SETTLE is posted first where a slot is free, else waits (log 10). The
HIRE_CLOSE carries charge and shortfall, and with no such pass it carries none. Before the deadline, with no such entry, or
at a dock with no settling bike, nothing happens (R70, R75, R104, R105, R107 to R110). -/
def Obligations.OfflineAndSettleDeadlines : Prop :=
  (∀ (d : Nat) (s : State), s.power = .running →
     (∀ t, entryAt s.offlineAt d = some (some t) → t ≤ s.elapsed →
       let stopped : State := { s with offlineAt := setEntry s.offlineAt d none }
       (s.attention.raised = true ∧ s.attention.offline = true →
         exec (.offlineTimerExpiry d) s = .next (stopped.finish s)) ∧
       (¬ (s.attention.raised = true ∧ s.attention.offline = true) →
         exec (.offlineTimerExpiry d) s =
           .next ((({ stopped with attention := { s.attention with raised := true, offline := true } } : State).raise
             .attention).finish s))) ∧
     ((∀ t, entryAt s.offlineAt d = some (some t) → s.elapsed < t) →
       exec (.offlineTimerExpiry d) s = .next (s.finish s))) ∧
  (∀ (bike : Nat) (s : State),
     (∀ before (e : SettleEntry) after dock deadline, s.entries = before ++ e :: after →
       e.stage = .held bike dock deadline → (∀ x ∈ before, x.linksTo bike = false) →
       let fare := if e.waiver = none then e.close.fare else 0
       let finalised := fun (cause : FinalCause) (gives : State → Prop) =>
         (∀ b, (s.dock dock).bike = some b → b.id = bike) → (s.dock dock).bike ≠ none →
         let closes := fun (t : State) (pass : PassResult) =>
           let cleared := t.putDock dock
             { s.dock dock with bike := (s.dock dock).bike.map (fun b => { b with settling := false }) }
           (0 < t.free →
             gives ((cleared.post (.hireClose e.close e.waiver cause s.now pass s.store.settle.cur.lost)).putSettle
               { entries := before ++ after, lost := 0 })) ∧
           (t.free = 0 →
             gives (cleared.putSettle
               { entries := before ++ { e with stage := .waiting cause s.now pass } :: after
                 lost := s.store.settle.cur.lost }))
         ((∀ slot serial, e.close.hirer ≠ .pass slot serial) → closes s .noPass) ∧
         (∀ slot serial, e.close.hirer = .pass slot serial →
           ((∀ p, s.pass slot = some p → ¬ (p.serial = serial ∧ p.state = .closing ∧ p.current = some e.close.ref)) →
             closes s .absent) ∧
           (∀ p, s.pass slot = some p → p.serial = serial → p.state = .closing → p.current = some e.close.ref →
             let charge := min fare (p.hold - p.charged)
             let charged : Pass :=
               { p with
                 current := none, rides := min 255 (p.rides + 1), charged := p.charged + charge
                 shortfall := p.shortfall || decide (charge < fare) }
             (p.kind = .day → (∀ t, s.now = some t → t < p.expiry) →
               closes (s.putPass slot (some { charged with state := .idle })) (.charged charge (fare - charge))) ∧
             (p.kind = .single ∨ (∃ t, s.now = some t ∧ p.expiry ≤ t) →
               let settling := s.putPass slot (some { charged with state := .settling })
               (0 < s.free →
                 closes ((settling.post (.passSettle slot { charged with state := .settling })).putPass slot none)
                   (.charged charge (fare - charge))) ∧
               (s.free = 0 → closes settling (.charged charge (fare - charge))))))
       (s.power = .running →
         (s.elapsed < deadline → exec (.settleDeadline bike) s = .next (s.finish s)) ∧
         (deadline ≤ s.elapsed →
           finalised .deadline (fun t => exec (.settleDeadline bike) s = .next (t.finish s)))) ∧
       (∀ d b reason, (s.dock d).bike = some b → b.settling = true → b.id = bike →
         finalised (.earlyFinal reason) (fun t => s.settleDock d reason = t))) ∧
     ((∀ e ∈ s.entries, e.linksTo bike = false) →
       (s.power = .running → exec (.settleDeadline bike) s = .next (s.finish s)) ∧
       (∀ d b reason, (s.dock d).bike = some b → b.id = bike → s.settleDock d reason = s)) ∧
     (∀ d reason, (∀ b, (s.dock d).bike = some b → b.settling = false) → s.settleDock d reason = s))

/-- HIRE_AGE_EXAMINATION and PASS_LIMIT_EXAMINATION, each 60 s after the one before: with the clock UNSET nothing else
happens. A hire past its age, but for one of a pass, leaves the table with a HIRE_EXPIRED of cause AGE; a pass past the
48-hour limit has its hire removed with a HIRE_EXPIRED of cause PASS_LIMIT and settles UNRESOLVED, its PASS_SETTLE posted
where a slot is free. With several due they are taken one after another, hires in the order of the table and passes by slot,
each while a slot is free; the rest stay for the next examination. A due pass whose current hire has no open-hire entry is
passed over and stays ON_RIDE, which is the model's choice where R73 is silent (log 24). An examination not due does nothing
(R58, R73, R75).
PASS_EXPIRY: an ISSUED or IDLE pass whose expiry scheme time has reached settles, its PASS_SETTLE posted where a slot is
free; with a release in flight for it, the expiry is held back in that release. A pass ON_RIDE, CLOSING or SETTLING, one
whose expiry is not reached, and a clock that is UNSET leave all as it is (R67, R69, R72, R75). -/
def Obligations.ExaminationsAndExpiry : Prop :=
  (∀ s : State, s.power = .running →
     (s.elapsed < s.hireExamAt → exec .hireAgeExamination s = .next (s.finish s)) ∧
     (s.elapsed < s.passExamAt → exec .passLimitExamination s = .next (s.finish s)) ∧
     (s.hireExamAt ≤ s.elapsed →
       let examined : State := { s with hireExamAt := s.hireExamAt + 60000 }
       (s.now = none → exec .hireAgeExamination s = .next (examined.finish s)) ∧
       (∀ t before (h : OpenHire) after, s.now = some t → s.hires = before ++ h :: after →
         (∀ slot serial, h.hirer ≠ .pass slot serial) → h.start + s.settings.hireAgeLimit * 86400 ≤ t →
         (∀ g ∈ before ++ after, g.ref ≠ h.ref ∧ t < g.start + s.settings.hireAgeLimit * 86400) → 0 < s.free →
         exec .hireAgeExamination s =
           .next (((examined.putHires (before ++ after)).post (.hireExpired h .age)).finish s)) ∧
       (∀ t, s.now = some t →
         let isPass := fun (h : OpenHire) => (match h.hirer with | .pass _ _ => true | _ => false)
         exec .hireAgeExamination s = .next ((s.hires.foldl (fun u h =>
           if isPass h = false ∧ h.start + s.settings.hireAgeLimit * 86400 ≤ t ∧ 0 < u.free then
             (u.putHires (u.hires.filter (fun g => g.ref != h.ref))).post (.hireExpired h .age)
           else u) examined).finish s))) ∧
     (s.passExamAt ≤ s.elapsed →
       let examined : State := { s with passExamAt := s.passExamAt + 60000 }
       (s.now = none → exec .passLimitExamination s = .next (examined.finish s)) ∧
       (∀ t slot p before (h : OpenHire) after, s.now = some t → slot ∈ slotNumbers → s.pass slot = some p →
         p.state = .onRide → p.expiry + 172800 ≤ t → p.current = some h.ref → s.hires = before ++ h :: after →
         (∀ g ∈ before ++ after, g.ref ≠ h.ref) →
         (∀ other ∈ slotNumbers, other ≠ slot → ∀ q, s.pass other = some q → q.state = .onRide → t < q.expiry + 172800) →
         1 < s.free →
         let q : Pass := { p with state := .settling, current := none, unresolved := true }
         exec .passLimitExamination s =
           .next ((((((examined.putHires (before ++ after)).post (.hireExpired h .passLimit)).putPass slot (some q)).post
             (.passSettle slot q)).putPass slot none).finish s)) ∧
       (∀ t, s.now = some t →
         exec .passLimitExamination s = .next ((slotNumbers.foldl (fun u slot =>
           match u.pass slot with
           | some p =>
             match u.hires.find? (fun h => p.current == some h.ref) with
             | some h =>
               if p.state = .onRide ∧ p.expiry + 172800 ≤ t ∧ 0 < u.free then
                 let q : Pass := { p with state := .settling, current := none, unresolved := true }
                 let v := ((u.putHires (u.hires.filter (fun g => g.ref != h.ref))).post (.hireExpired h .passLimit)).putPass slot
                   (some q)
                 if 0 < v.free then (v.post (.passSettle slot q)).putPass slot none else v
               else u
             | none => u
           | none => u) examined).finish s)))) ∧
  (∀ (slot : Nat) (s : State), s.power = .running →
     (s.now = none ∨ s.pass slot = none → exec (.passExpiry slot) s = .next (s.finish s)) ∧
     (∀ t p, s.now = some t → s.pass slot = some p →
       (t < p.expiry ∨ p.state = .onRide ∨ p.state = .closing ∨ p.state = .settling →
         exec (.passExpiry slot) s = .next (s.finish s)) ∧
       (p.expiry ≤ t → p.state = .issued ∨ p.state = .idle →
         (s.passInFlight slot p.serial = true →
           exec (.passExpiry slot) s =
             .next (({ s with docks := s.docks.map (fun x => { x with release := x.release.map (fun r =>
               if r.hirer? = some (.pass slot p.serial) then { r with expiryHeld := true } else r) }) } : State).finish s)) ∧
         (s.passInFlight slot p.serial = false →
           let q : Pass := { p with state := .settling }
           (0 < s.free →
             exec (.passExpiry slot) s =
               .next ((((s.putPass slot (some q)).post (.passSettle slot q)).putPass slot none).finish s)) ∧
           (s.free = 0 → exec (.passExpiry slot) s = .next ((s.putPass slot (some q)).finish s))))))

/-! ### Frames -/

/-- Bytes that arrive are searched for frames from the start byte on: bytes without one leave nothing, what is incomplete
waits for more bytes, and bytes that arrive within 50 ms join it. A frame whose length is not from 2 to 4096, or whose check
does not match, is discarded, and the search goes on from the byte after its start byte (R182). A frame that passes R182 is
its request: it acts as the row of that request does, and as BAD_KIND where its kind is outside the catalogue or its body is
of the wrong length (R183, R184).
FRAME_GAP_TIMEOUT discards an unfinished frame 50 ms after its last byte, with a whole frame in its bytes taken as it stands;
before that nothing happens; and bytes that arrive after the gap do not join it. Bytes that come with it are searched as
DISCARDED_FRAME has them (R182, R192); that the row has such an operand, which the table does not list, is log 19.
BAD_KIND is answered BAD_KIND outside the catalogue, and OUT_OF_RANGE with the field LENGTH for a body of the wrong length
(R183, R184). -/
def Obligations.FrameRows : Prop :=
  (∀ (bytes : List Byte) (s : State), s.power = .running → bytes ≠ [] →
     let arrived := fun (left : List Byte) => exec (.discardedFrame bytes) s =
       .next (({ s with link := { s.link with receiving := left, lastByteAt := s.elapsed } } : State).finish s)
     ((∀ b ∈ s.link.receiving ++ bytes, b ≠ startByte) → arrived []) ∧
     (∀ length body, s.link.receiving = [] → bytes = startByte :: (natBytes 2 length ++ body) → 2 ≤ length → length ≤ 4096 →
       body.length < length + 2 → arrived bytes) ∧
     (s.elapsed < s.link.lastByteAt + 50 →
       exec (.discardedFrame bytes) s =
         exec (.discardedFrame (s.link.receiving ++ bytes)) { s with link := { s.link with receiving := [] } }) ∧
     (s.link.receiving ≠ [] → s.link.lastByteAt + 50 ≤ s.elapsed → s.link.buried = [] →
       exec (.discardedFrame bytes) s =
         exec (.discardedFrame bytes) { s with link := { s.link with receiving := [] } }) ∧
     (∀ length body, s.link.receiving = [] → bytes = startByte :: (natBytes 2 length ++ body) → length < 65536 →
       length < 2 ∨ 4096 < length ∨
         (length + 2 ≤ body.length ∧
           (body.drop length).take 2 ≠ checkBytes (natBytes 2 length ++ body.take length)) →
       exec (.discardedFrame bytes) s = exec (.discardedFrame (natBytes 2 length ++ body)) s)) ∧
  (∀ (kind tag : Nat) (body : List Byte) (s : State), s.power = .running → s.link.receiving = [] → kind < 256 → tag < 256 →
     body.length ≤ Config.maxBody →
     let taken := fun (i : Instr) => exec (.discardedFrame (frameBytes kind tag body)) s =
       exec i { s with link := { s.link with lastByteAt := s.elapsed } }
     (∀ (i : Instr) (r : Request), i.request? = some (tag, r) → r.wf = true → kind = requestKind r → body = requestBody r →
       taken i) ∧
     (requestOfBody kind body = none → taken (.badKind kind tag body))) ∧
  (∀ s : State, s.power = .running →
     (s.link.receiving = [] ∨ s.elapsed < s.link.lastByteAt + 50 → exec (.frameGapTimeout []) s = .next (s.finish s)) ∧
     (s.link.receiving ≠ [] → s.link.lastByteAt + 50 ≤ s.elapsed →
       let discarded : State := { s with link := { s.link with receiving := [] } }
       (s.link.buried = [] → exec (.frameGapTimeout []) s = .next (discarded.finish s)) ∧
       (∀ length body, s.link.receiving = startByte :: (natBytes 2 length ++ body) → length ≤ 4096 →
         body.length < length + 2 → (∀ b ∈ natBytes 2 length ++ body, b ≠ startByte) → s.link.buried = []) ∧
       (∀ length tag (i : Instr) (r : Request), i.request? = some (tag, r) → r.wf = true → tag < 256 → length ≤ 4096 →
         (∀ b ∈ natBytes 2 length, b ≠ startByte) →
         s.link.receiving = startByte :: (natBytes 2 length ++ frameBytes (requestKind r) tag (requestBody r)) →
         (frameBytes (requestKind r) tag (requestBody r)).length < length + 2 →
         exec (.frameGapTimeout []) s = exec i discarded)) ∧
     (∀ bytes, bytes ≠ [] → exec (.frameGapTimeout bytes) s = exec (.discardedFrame bytes) s)) ∧
  (∀ (kind tag : Nat) (body : List Byte) (s : State), s.ready →
     let gives := fun (q : Request) (r : Reply) =>
       exec (.badKind kind tag body) s = .next ((s.answered tag q r).finish s)
     (kind = 0 ∨ 29 < kind → gives (.badKind kind) { status := .badKind, result := .kind kind }) ∧
     (1 ≤ kind → kind ≤ 29 → requestOfBody kind body = none →
       gives (.badLength kind) { status := .outOfRange, result := .field .length }))

/-- REPLY_SENT ends the frame being sent. After a held reply its place is free, and the next held request is handed to its
owner and acts: the last one as its row acts in a part that holds no request. After an accepted RESET a start-up is due, WARM
or STORE, with the link as a start-up leaves it, and the requests held behind it are discarded (that the part then takes no
command but the start-up and those of power is log 5). After a BUSY reply that reply no longer waits. While no reply is being
sent nothing happens (R184, R185, R190, R198). NOTICE_SENT: the notice carries its
number and the value of its kind at that moment, its mark is cleared, and the next number follows, 1 after 255. The kind is
the first pending one after the kind sent last, in the order of the notice table. While no notice is being sent nothing
happens (R187, R188). -/
def Obligations.FramesSent : Prop :=
  (∀ s : State, s.power = .running →
     (s.link.sending = none ∨ s.link.sending = some .notice → exec .replySent s = .next (s.finish s)) ∧
     (∀ b rest, s.link.sending = some .busyReply → s.link.busy = b :: rest →
       exec .replySent s = .next (({ s with link := { s.link with
         busy := rest, sending := none
         lastFrame := some (.reply b.1 b.2 { status := .busy, result := .empty }) } } : State).finish s)) ∧
     (∀ h r rest, s.link.sending = some .reply → s.link.holding = h :: rest → h.reply = some r →
       ((h.request = .reset 1 ∧ r.status = .ok) →
         exec .replySent s = .next { s with power := .startDue .warm, link := .atStart }) ∧
       ((h.request = .reset 2 ∧ r.status = .ok) →
         exec .replySent s = .next { s with power := .startDue .store, link := .atStart }) ∧
       ((∀ m, h.request ≠ .reset m) ∨ r.status ≠ .ok →
         let sent : State := { s with link := { s.link with
           holding := rest, sending := none, lastFrame := some (.reply (requestKind h.request) h.tag r) } }
         (rest = [] → exec .replySent s = .next (sent.finish s)) ∧
         (∀ g more, rest = g :: more →
           (g.reply ≠ none → exec .replySent s = .next (sent.finish s)) ∧
           (g.reply = none →
             let done := own g.request sent
             exec .replySent s = .next (({ done.1 with link := { done.1.link with
               holding := { g with reply := some done.2 } :: more } } : State).finish s)) ∧
           (∀ i : Instr, g.reply = none → i.request? = some (g.tag, g.request) → more = [] → s.link.receiving = [] →
             exec .replySent s = exec i { sent with link := { sent.link with holding := [] } }))))) ∧
  (∀ s : State, s.power = .running →
     (s.link.sending ≠ some .notice → exec .noticeSent s = .next (s.finish s)) ∧
     (∀ k, s.link.sending = some .notice → s.link.nextNotice = some k →
       s.link.marks.has k = true ∧
       exec .noticeSent s = .next (({ s with link := { s.link with
         marks := s.link.marks.put k false, lastNotice := some k, sending := none
         noticeNumber := if 255 ≤ s.link.noticeNumber then 1 else s.link.noticeNumber + 1
         lastFrame := some (.notice s.link.noticeNumber
           (match k with
             | .journalReady => .journalReady s.journalSummary
             | .attention => .attention s.attention
             | .vanState => .vanState s.vanReport
             | .passState => .passState s.passCounts
             | .dockState => .dockState s.dockCounts)) } } : State).finish s)) ∧
     (∀ j k : Nat, j < 5 → k < 5 → s.link.lastNotice = noticeKinds[j]? → s.link.nextNotice = noticeKinds[k]? →
       ∀ i : Nat, i < 5 → (i + 4 - j) % 5 < (k + 4 - j) % 5 → ∀ x, noticeKinds[i]? = some x → s.link.marks.has x = false))

/-! ### Riders: reports counted and codes keyed -/

/-- A RIDER report of a kind that is not confirmed prunes the tally of the kind, which drops the entries at or before the
confirm window, and enters its reporter: each reporter stands once, and the others keep their order (R119). By a member id, by
the pass in a slot or anonymous, on the bike of a dock, with a slot free and no FAULT record waiting, it is SUSPECT below the
confirm count; at the count the kind is confirmed and its tally emptied (R117, R120, R130). The reporters count of the
confirming record is the tally's before it is emptied, which is the model's reading (log 17). -/
def Obligations.RiderTally : Prop :=
  (∀ (who : Reporter) (now : Option Nat) (window : Nat) (t : List TallyEntry), (t.map (fun e => e.who)).Nodup →
    let after := enterTally who now (pruneTally now window t)
    (after.map (fun e => e.who)).Nodup ∧ { who := who, time := now } ∈ after ∧
      (∀ e, e.who ≠ who →
        (e ∈ after ↔ e ∈ t ∧ ¬ ∃ n x, now = some n ∧ e.time = some x ∧ x + window ≤ n)) ∧
      (after.filter (fun e => e.who != who)).Sublist t) ∧
  (∀ (tag d kind : Nat) (reporter : ReporterArg) (who : Reporter) (k : BikeFault) (b : Bike) (s : State), s.ready → 1 ≤ d →
    d ≤ 64 →
    (∃ id, reporter = .member id ∧ 1 ≤ id ∧ id ≤ 99999999 ∧ who = .person id) ∨
      (∃ slot p, reporter = .passSlot slot ∧ 1 ≤ slot ∧ slot ≤ 32 ∧ s.pass slot = some p ∧ who = .pass slot p.serial) ∨
      (reporter = .anonymous ∧ who = .anonymous) →
    bikeFaultOf kind = some k → 0 < s.free → s.faults = [] → (s.dock d).bike = some b →
    s.heldAt b.id = none → k ∉ b.faults →
    let tally := enterTally who s.now
      (pruneTally s.now (s.settings.confirmWindow * 3600) ((entryAt b.tallies k.number).getD []))
    let record : FaultRecord :=
      { subject := .bike, dock := some d, bikeId := some b.id, tagBikeId := none, tagRef := none, kind := some (.bike k)
        source := some .rider, cause := none, reporter := some who, reporters := some tally.length
        confirmCount := some (s.policy k).count, effect := .suspect, conditionAfter := some b.condition
        counterAfter := none, counterBefore := none, dockState := none, bikeAbsent := false }
    let gives := fun (after : Bike) (e : FaultEffect) =>
      let t := (s.putDock d { s.dock d with bike := some after }).post
        (.fault { record with effect := e, conditionAfter := some after.condition } s.faultsDropped)
      exec (.riderReport tag (.dock d) kind 1 reporter) s =
        .next (((if e = .quarantined then ({ t with faultsDropped := 0 } : State).setAttention .quarantine
            else { t with faultsDropped := 0 }).answered tag (.riderReport (.dock d) kind 1 reporter)
          { status := .ok, result := .report (some b.id) (some d) e false }).finish s)
    (tally.length < (s.policy k).count → gives { b with tallies := setEntry b.tallies k.number tally } .suspect) ∧
    ((s.policy k).count ≤ tally.length →
      let confirmed : Bike :=
        { b with faults := insertFault k b.faults, tallies := setEntry b.tallies k.number [] }
      ((s.policy k).cls = .quarantine → b.condition = .available →
        gives { confirmed with condition := .quarantined } .quarantined) ∧
      ((s.policy k).cls = .advisory ∨ b.condition ≠ .available → gives confirmed .noted)))

/-- A code keyed at a dock is refused for the first check of R65 that fails, and changes nothing; where all pass, the close
of a settling bike is finalised early with reason RELEASE, and the release of the pass begins with plan 14, the next
reference and a slot set aside, TAG_WRITE being issued (R65, R67). The code of a pass that settled at its expiry is refused
PASS_UNKNOWN, as R65 has it, against R72 and R78, which is the model's choice (log 24). With the code of a CLOSING pass, the
HELD entry of its hire is finalised early first, with the reason PASS_REUSE, and stays so: its HIRE_CLOSE is posted, the
bike is no longer settling, and the pass is charged. A SINGLE pass, or one at its expiry, has then settled, and the attempt
is refused PASS_EXPIRED; a DAY pass before its expiry is IDLE, and the attempt goes on with it (R66, R70, R106). The code of
a CLOSING pass whose hire has no HELD entry is refused PASS_EXPIRED and changes nothing, which is the model's choice where
R66 and R106 are silent (log 24). -/
def Obligations.PassAttempt : Prop :=
  (∀ (d code slot : Nat) (p : Pass) (ref : HireRef) (before : List SettleEntry) (e : SettleEntry) (after : List SettleEntry)
     (bike link deadline t : Nat) (s : State),
     s.now = some t → (s.dock d).configured = true → (s.dock d).state = .occupied → (s.dock d).reservation = .unreserved →
     (s.dock d).holds .available = true → slot ∈ slotNumbers → s.pass slot = some p → p.code = code → p.state = .closing →
     (∀ other ∈ slotNumbers, other ≠ slot → ∀ q, s.pass other = some q → q.code ≠ code) → p.current = some ref →
     s.entries = before ++ e :: after → e.stage = .held bike link deadline → e.close.ref = ref →
     e.close.hirer = .pass slot p.serial → (∀ x ∈ before, x.isHeld = false ∨ x.close.ref ≠ ref) →
     (∀ b, (s.dock link).bike = some b → b.id = bike) → (s.dock link).bike ≠ none → 1 < s.free →
     let fare := if e.waiver = none then e.close.fare else 0
     let charge := min fare (p.hold - p.charged)
     let charged : Pass :=
       { p with
         current := none, rides := min 255 (p.rides + 1), charged := p.charged + charge
         shortfall := p.shortfall || decide (charge < fare) }
     let closed := fun (u : State) =>
       ((u.putDock link { s.dock link with bike := (s.dock link).bike.map (fun b => { b with settling := false }) }).post
         (.hireClose e.close e.waiver (.earlyFinal .passReuse) s.now (.charged charge (fare - charge))
           s.store.settle.cur.lost)).putSettle { entries := before ++ after, lost := 0 }
     (p.kind = .day → t < p.expiry →
       s.keypadAttempt d code = (closed (s.putPass slot (some { charged with state := .idle }))).keypadAttempt d code) ∧
     (p.kind = .single ∨ p.expiry ≤ t →
       let settling : Pass := { charged with state := .settling }
       s.keypadAttempt d code =
         (closed (((s.putPass slot (some settling)).post (.passSettle slot settling)).putPass slot none),
           some .passExpired))) ∧
  ∀ (d code : Nat) (s : State),
    let refuses := fun (r : Reason) => s.keypadAttempt d code = (s, some r)
    (s.now = none → refuses .clockUnset) ∧
    (∀ t, s.now = some t →
      ((s.dock d).configured = false ∨ (s.dock d).state = .offline → refuses .dockOffline) ∧
      ((s.dock d).configured = true →
        ((s.dock d).state = .empty → refuses .noBike) ∧
        ((s.dock d).state.transient = true → refuses .dockBusy) ∧
        ((s.dock d).state = .lockedOut → refuses .dockFault) ∧
        ((s.dock d).state = .occupied → (s.dock d).reservation ≠ .unreserved → refuses .dockReserved) ∧
        ((s.dock d).state = .occupied → (s.dock d).reservation = .unreserved →
          ((s.dock d).holds .available = false → refuses .bikeUnavailable) ∧
          (∀ b, (s.dock d).bike = some b → b.condition = .available →
            ((∀ slot ∈ slotNumbers, ∀ p, s.pass slot = some p →
                ¬ (p.code = code ∧ (p.state = .issued ∨ p.state = .idle ∨ p.state = .closing))) →
              refuses .passUnknown) ∧
            (∀ slot p, slot ∈ slotNumbers → s.pass slot = some p → p.code = code → p.state = .closing →
              (∀ other ∈ slotNumbers, other ≠ slot → ∀ q, s.pass other = some q → q.code ≠ code) →
              (∀ e ∈ s.entries, e.isHeld = false ∨ p.current ≠ some e.close.ref) → refuses .passExpired) ∧
            (∀ slot p, slot ∈ slotNumbers → s.pass slot = some p → p.code = code → p.state = .issued ∨ p.state = .idle →
              (∀ other ∈ slotNumbers, other ≠ slot → ∀ q, s.pass other = some q → q.code ≠ code) →
              (p.expiry ≤ t → refuses .passExpired) ∧
              (t < p.expiry → p.hold - p.charged < s.settings.minPassBalance → refuses .passFunds) ∧
              (t < p.expiry → s.settings.minPassBalance ≤ p.hold - p.charged →
                (s.passInFlight slot p.serial = true → refuses .passInUse) ∧
                (s.passInFlight slot p.serial = false →
                  (96 ≤ s.hires.length + s.hireReleases → refuses .hireTableFull) ∧
                  (s.hires.length + s.hireReleases < 96 →
                    (s.free < s.settings.openReserve → refuses .journalFull) ∧
                    (s.settings.openReserve ≤ s.free →
                      let credit := if s.settings.highMark < s.stock then s.settings.releaseCredit else 0
                      let image : TripImage :=
                        { bikeId := b.id, ref := s.nextRef, hirer := .pass slot p.serial, start := t, plan := 14
                          generation := s.tariffs.current.generation, credit := credit }
                      let taken :=
                        ({ s.putHireCount (if 16777215 ≤ s.nextRef.count then 1 else s.nextRef.count + 1) with
                          setAside := s.setAside + 1 } : State).settleDock d .release
                      s.keypadAttempt d code =
                        ((taken.putDock d
                          { taken.dock d with
                            state := .tagWriting
                            release := some
                              { party := .hire (.pass slot p.serial) none s.nextRef image, credit := credit
                                origin := .occupied, fromDock := true, expiryHeld := false } }).issue d (.tagWrite image),
                          none))))))))))
end

