-- ==== Sys2Proof/Laws/State.lean ====
section
/-! SUPPORT. What each update of the state leaves as it was and what it writes: one lemma for each field, true by computation,
so that no later proof unfolds a record update. -/

namespace Sys2Proof.Machine

variable (s : State)


/-! ### putSettings -/

@[simp] theorem State.putSettings_pending (v : SettingsRegion) : (s.putSettings v).pending = s.pending := rfl
@[simp] theorem State.putSettings_power (v : SettingsRegion) : (s.putSettings v).power = s.power := rfl
@[simp] theorem State.putSettings_elapsed (v : SettingsRegion) : (s.putSettings v).elapsed = s.elapsed := rfl
@[simp] theorem State.putSettings_clock (v : SettingsRegion) : (s.putSettings v).clock = s.clock := rfl
@[simp] theorem State.putSettings_stationId (v : SettingsRegion) : (s.putSettings v).stationId = s.stationId := rfl
@[simp] theorem State.putSettings_strings (v : SettingsRegion) : (s.putSettings v).strings = s.strings := rfl
@[simp] theorem State.putSettings_nodes (v : SettingsRegion) : (s.putSettings v).nodes = s.nodes := rfl
@[simp] theorem State.putSettings_docks (v : SettingsRegion) : (s.putSettings v).docks = s.docks := rfl
@[simp] theorem State.putSettings_censusLimit (v : SettingsRegion) : (s.putSettings v).censusLimit = s.censusLimit := rfl
@[simp] theorem State.putSettings_censusReported (v : SettingsRegion) : (s.putSettings v).censusReported = s.censusReported := rfl
@[simp] theorem State.putSettings_hireExamAt (v : SettingsRegion) : (s.putSettings v).hireExamAt = s.hireExamAt := rfl
@[simp] theorem State.putSettings_passExamAt (v : SettingsRegion) : (s.putSettings v).passExamAt = s.passExamAt := rfl
@[simp] theorem State.putSettings_codePosition (v : SettingsRegion) : (s.putSettings v).codePosition = s.codePosition := rfl
@[simp] theorem State.putSettings_setAside (v : SettingsRegion) : (s.putSettings v).setAside = s.setAside := rfl
@[simp] theorem State.putSettings_replySlot (v : SettingsRegion) : (s.putSettings v).replySlot = s.replySlot := rfl
@[simp] theorem State.putSettings_backhaul (v : SettingsRegion) : (s.putSettings v).backhaul = s.backhaul := rfl
@[simp] theorem State.putSettings_fatal (v : SettingsRegion) : (s.putSettings v).fatal = s.fatal := rfl
@[simp] theorem State.putSettings_sixth (v : SettingsRegion) : (s.putSettings v).sixth = s.sixth := rfl
@[simp] theorem State.putSettings_attention (v : SettingsRegion) : (s.putSettings v).attention = s.attention := rfl
@[simp] theorem State.putSettings_faults (v : SettingsRegion) : (s.putSettings v).faults = s.faults := rfl
@[simp] theorem State.putSettings_faultsDropped (v : SettingsRegion) : (s.putSettings v).faultsDropped = s.faultsDropped := rfl
@[simp] theorem State.putSettings_readerRuns (v : SettingsRegion) : (s.putSettings v).readerRuns = s.readerRuns := rfl
@[simp] theorem State.putSettings_offlineAt (v : SettingsRegion) : (s.putSettings v).offlineAt = s.offlineAt := rfl
@[simp] theorem State.putSettings_van (v : SettingsRegion) : (s.putSettings v).van = s.van := rfl
@[simp] theorem State.putSettings_directives (v : SettingsRegion) : (s.putSettings v).directives = s.directives := rfl
@[simp] theorem State.putSettings_link (v : SettingsRegion) : (s.putSettings v).link = s.link := rfl
@[simp] theorem State.putSettings_store_settings (v : SettingsRegion) : (s.putSettings v).store.settings = s.store.settings.write v := rfl
@[simp] theorem State.putSettings_store_plans (v : SettingsRegion) : (s.putSettings v).store.plans = s.store.plans := rfl
@[simp] theorem State.putSettings_store_tariffs (v : SettingsRegion) : (s.putSettings v).store.tariffs = s.store.tariffs := rfl
@[simp] theorem State.putSettings_store_deny (v : SettingsRegion) : (s.putSettings v).store.deny = s.store.deny := rfl
@[simp] theorem State.putSettings_store_passes (v : SettingsRegion) : (s.putSettings v).store.passes = s.store.passes := rfl
@[simp] theorem State.putSettings_store_hires (v : SettingsRegion) : (s.putSettings v).store.hires = s.store.hires := rfl
@[simp] theorem State.putSettings_store_settle (v : SettingsRegion) : (s.putSettings v).store.settle = s.store.settle := rfl
@[simp] theorem State.putSettings_store_journal (v : SettingsRegion) : (s.putSettings v).store.journal = s.store.journal := rfl
@[simp] theorem State.putSettings_store_hireCount (v : SettingsRegion) : (s.putSettings v).store.hireCount = s.store.hireCount := rfl
@[simp] theorem State.putSettings_store_epoch (v : SettingsRegion) : (s.putSettings v).store.epoch = s.store.epoch := rfl

/-! ### putPlans -/

@[simp] theorem State.putPlans_pending (v : List Plan) : (s.putPlans v).pending = s.pending := rfl
@[simp] theorem State.putPlans_power (v : List Plan) : (s.putPlans v).power = s.power := rfl
@[simp] theorem State.putPlans_elapsed (v : List Plan) : (s.putPlans v).elapsed = s.elapsed := rfl
@[simp] theorem State.putPlans_clock (v : List Plan) : (s.putPlans v).clock = s.clock := rfl
@[simp] theorem State.putPlans_stationId (v : List Plan) : (s.putPlans v).stationId = s.stationId := rfl
@[simp] theorem State.putPlans_strings (v : List Plan) : (s.putPlans v).strings = s.strings := rfl
@[simp] theorem State.putPlans_nodes (v : List Plan) : (s.putPlans v).nodes = s.nodes := rfl
@[simp] theorem State.putPlans_docks (v : List Plan) : (s.putPlans v).docks = s.docks := rfl
@[simp] theorem State.putPlans_censusLimit (v : List Plan) : (s.putPlans v).censusLimit = s.censusLimit := rfl
@[simp] theorem State.putPlans_censusReported (v : List Plan) : (s.putPlans v).censusReported = s.censusReported := rfl
@[simp] theorem State.putPlans_hireExamAt (v : List Plan) : (s.putPlans v).hireExamAt = s.hireExamAt := rfl
@[simp] theorem State.putPlans_passExamAt (v : List Plan) : (s.putPlans v).passExamAt = s.passExamAt := rfl
@[simp] theorem State.putPlans_codePosition (v : List Plan) : (s.putPlans v).codePosition = s.codePosition := rfl
@[simp] theorem State.putPlans_setAside (v : List Plan) : (s.putPlans v).setAside = s.setAside := rfl
@[simp] theorem State.putPlans_replySlot (v : List Plan) : (s.putPlans v).replySlot = s.replySlot := rfl
@[simp] theorem State.putPlans_backhaul (v : List Plan) : (s.putPlans v).backhaul = s.backhaul := rfl
@[simp] theorem State.putPlans_fatal (v : List Plan) : (s.putPlans v).fatal = s.fatal := rfl
@[simp] theorem State.putPlans_sixth (v : List Plan) : (s.putPlans v).sixth = s.sixth := rfl
@[simp] theorem State.putPlans_attention (v : List Plan) : (s.putPlans v).attention = s.attention := rfl
@[simp] theorem State.putPlans_faults (v : List Plan) : (s.putPlans v).faults = s.faults := rfl
@[simp] theorem State.putPlans_faultsDropped (v : List Plan) : (s.putPlans v).faultsDropped = s.faultsDropped := rfl
@[simp] theorem State.putPlans_readerRuns (v : List Plan) : (s.putPlans v).readerRuns = s.readerRuns := rfl
@[simp] theorem State.putPlans_offlineAt (v : List Plan) : (s.putPlans v).offlineAt = s.offlineAt := rfl
@[simp] theorem State.putPlans_van (v : List Plan) : (s.putPlans v).van = s.van := rfl
@[simp] theorem State.putPlans_directives (v : List Plan) : (s.putPlans v).directives = s.directives := rfl
@[simp] theorem State.putPlans_link (v : List Plan) : (s.putPlans v).link = s.link := rfl
@[simp] theorem State.putPlans_store_settings (v : List Plan) : (s.putPlans v).store.settings = s.store.settings := rfl
@[simp] theorem State.putPlans_store_plans (v : List Plan) : (s.putPlans v).store.plans = s.store.plans.write v := rfl
@[simp] theorem State.putPlans_store_tariffs (v : List Plan) : (s.putPlans v).store.tariffs = s.store.tariffs := rfl
@[simp] theorem State.putPlans_store_deny (v : List Plan) : (s.putPlans v).store.deny = s.store.deny := rfl
@[simp] theorem State.putPlans_store_passes (v : List Plan) : (s.putPlans v).store.passes = s.store.passes := rfl
@[simp] theorem State.putPlans_store_hires (v : List Plan) : (s.putPlans v).store.hires = s.store.hires := rfl
@[simp] theorem State.putPlans_store_settle (v : List Plan) : (s.putPlans v).store.settle = s.store.settle := rfl
@[simp] theorem State.putPlans_store_journal (v : List Plan) : (s.putPlans v).store.journal = s.store.journal := rfl
@[simp] theorem State.putPlans_store_hireCount (v : List Plan) : (s.putPlans v).store.hireCount = s.store.hireCount := rfl
@[simp] theorem State.putPlans_store_epoch (v : List Plan) : (s.putPlans v).store.epoch = s.store.epoch := rfl

/-! ### putTariffs -/

@[simp] theorem State.putTariffs_pending (v : TariffSet) : (s.putTariffs v).pending = s.pending := rfl
@[simp] theorem State.putTariffs_power (v : TariffSet) : (s.putTariffs v).power = s.power := rfl
@[simp] theorem State.putTariffs_elapsed (v : TariffSet) : (s.putTariffs v).elapsed = s.elapsed := rfl
@[simp] theorem State.putTariffs_clock (v : TariffSet) : (s.putTariffs v).clock = s.clock := rfl
@[simp] theorem State.putTariffs_stationId (v : TariffSet) : (s.putTariffs v).stationId = s.stationId := rfl
@[simp] theorem State.putTariffs_strings (v : TariffSet) : (s.putTariffs v).strings = s.strings := rfl
@[simp] theorem State.putTariffs_nodes (v : TariffSet) : (s.putTariffs v).nodes = s.nodes := rfl
@[simp] theorem State.putTariffs_docks (v : TariffSet) : (s.putTariffs v).docks = s.docks := rfl
@[simp] theorem State.putTariffs_censusLimit (v : TariffSet) : (s.putTariffs v).censusLimit = s.censusLimit := rfl
@[simp] theorem State.putTariffs_censusReported (v : TariffSet) : (s.putTariffs v).censusReported = s.censusReported := rfl
@[simp] theorem State.putTariffs_hireExamAt (v : TariffSet) : (s.putTariffs v).hireExamAt = s.hireExamAt := rfl
@[simp] theorem State.putTariffs_passExamAt (v : TariffSet) : (s.putTariffs v).passExamAt = s.passExamAt := rfl
@[simp] theorem State.putTariffs_codePosition (v : TariffSet) : (s.putTariffs v).codePosition = s.codePosition := rfl
@[simp] theorem State.putTariffs_setAside (v : TariffSet) : (s.putTariffs v).setAside = s.setAside := rfl
@[simp] theorem State.putTariffs_replySlot (v : TariffSet) : (s.putTariffs v).replySlot = s.replySlot := rfl
@[simp] theorem State.putTariffs_backhaul (v : TariffSet) : (s.putTariffs v).backhaul = s.backhaul := rfl
@[simp] theorem State.putTariffs_fatal (v : TariffSet) : (s.putTariffs v).fatal = s.fatal := rfl
@[simp] theorem State.putTariffs_sixth (v : TariffSet) : (s.putTariffs v).sixth = s.sixth := rfl
@[simp] theorem State.putTariffs_attention (v : TariffSet) : (s.putTariffs v).attention = s.attention := rfl
@[simp] theorem State.putTariffs_faults (v : TariffSet) : (s.putTariffs v).faults = s.faults := rfl
@[simp] theorem State.putTariffs_faultsDropped (v : TariffSet) : (s.putTariffs v).faultsDropped = s.faultsDropped := rfl
@[simp] theorem State.putTariffs_readerRuns (v : TariffSet) : (s.putTariffs v).readerRuns = s.readerRuns := rfl
@[simp] theorem State.putTariffs_offlineAt (v : TariffSet) : (s.putTariffs v).offlineAt = s.offlineAt := rfl
@[simp] theorem State.putTariffs_van (v : TariffSet) : (s.putTariffs v).van = s.van := rfl
@[simp] theorem State.putTariffs_directives (v : TariffSet) : (s.putTariffs v).directives = s.directives := rfl
@[simp] theorem State.putTariffs_link (v : TariffSet) : (s.putTariffs v).link = s.link := rfl
@[simp] theorem State.putTariffs_store_settings (v : TariffSet) : (s.putTariffs v).store.settings = s.store.settings := rfl
@[simp] theorem State.putTariffs_store_plans (v : TariffSet) : (s.putTariffs v).store.plans = s.store.plans := rfl
@[simp] theorem State.putTariffs_store_tariffs (v : TariffSet) : (s.putTariffs v).store.tariffs = s.store.tariffs.write v := rfl
@[simp] theorem State.putTariffs_store_deny (v : TariffSet) : (s.putTariffs v).store.deny = s.store.deny := rfl
@[simp] theorem State.putTariffs_store_passes (v : TariffSet) : (s.putTariffs v).store.passes = s.store.passes := rfl
@[simp] theorem State.putTariffs_store_hires (v : TariffSet) : (s.putTariffs v).store.hires = s.store.hires := rfl
@[simp] theorem State.putTariffs_store_settle (v : TariffSet) : (s.putTariffs v).store.settle = s.store.settle := rfl
@[simp] theorem State.putTariffs_store_journal (v : TariffSet) : (s.putTariffs v).store.journal = s.store.journal := rfl
@[simp] theorem State.putTariffs_store_hireCount (v : TariffSet) : (s.putTariffs v).store.hireCount = s.store.hireCount := rfl
@[simp] theorem State.putTariffs_store_epoch (v : TariffSet) : (s.putTariffs v).store.epoch = s.store.epoch := rfl

/-! ### putDenied -/

@[simp] theorem State.putDenied_pending (v : List Nat) : (s.putDenied v).pending = s.pending := rfl
@[simp] theorem State.putDenied_power (v : List Nat) : (s.putDenied v).power = s.power := rfl
@[simp] theorem State.putDenied_elapsed (v : List Nat) : (s.putDenied v).elapsed = s.elapsed := rfl
@[simp] theorem State.putDenied_clock (v : List Nat) : (s.putDenied v).clock = s.clock := rfl
@[simp] theorem State.putDenied_stationId (v : List Nat) : (s.putDenied v).stationId = s.stationId := rfl
@[simp] theorem State.putDenied_strings (v : List Nat) : (s.putDenied v).strings = s.strings := rfl
@[simp] theorem State.putDenied_nodes (v : List Nat) : (s.putDenied v).nodes = s.nodes := rfl
@[simp] theorem State.putDenied_docks (v : List Nat) : (s.putDenied v).docks = s.docks := rfl
@[simp] theorem State.putDenied_censusLimit (v : List Nat) : (s.putDenied v).censusLimit = s.censusLimit := rfl
@[simp] theorem State.putDenied_censusReported (v : List Nat) : (s.putDenied v).censusReported = s.censusReported := rfl
@[simp] theorem State.putDenied_hireExamAt (v : List Nat) : (s.putDenied v).hireExamAt = s.hireExamAt := rfl
@[simp] theorem State.putDenied_passExamAt (v : List Nat) : (s.putDenied v).passExamAt = s.passExamAt := rfl
@[simp] theorem State.putDenied_codePosition (v : List Nat) : (s.putDenied v).codePosition = s.codePosition := rfl
@[simp] theorem State.putDenied_setAside (v : List Nat) : (s.putDenied v).setAside = s.setAside := rfl
@[simp] theorem State.putDenied_replySlot (v : List Nat) : (s.putDenied v).replySlot = s.replySlot := rfl
@[simp] theorem State.putDenied_backhaul (v : List Nat) : (s.putDenied v).backhaul = s.backhaul := rfl
@[simp] theorem State.putDenied_fatal (v : List Nat) : (s.putDenied v).fatal = s.fatal := rfl
@[simp] theorem State.putDenied_sixth (v : List Nat) : (s.putDenied v).sixth = s.sixth := rfl
@[simp] theorem State.putDenied_attention (v : List Nat) : (s.putDenied v).attention = s.attention := rfl
@[simp] theorem State.putDenied_faults (v : List Nat) : (s.putDenied v).faults = s.faults := rfl
@[simp] theorem State.putDenied_faultsDropped (v : List Nat) : (s.putDenied v).faultsDropped = s.faultsDropped := rfl
@[simp] theorem State.putDenied_readerRuns (v : List Nat) : (s.putDenied v).readerRuns = s.readerRuns := rfl
@[simp] theorem State.putDenied_offlineAt (v : List Nat) : (s.putDenied v).offlineAt = s.offlineAt := rfl
@[simp] theorem State.putDenied_van (v : List Nat) : (s.putDenied v).van = s.van := rfl
@[simp] theorem State.putDenied_directives (v : List Nat) : (s.putDenied v).directives = s.directives := rfl
@[simp] theorem State.putDenied_link (v : List Nat) : (s.putDenied v).link = s.link := rfl
@[simp] theorem State.putDenied_store_settings (v : List Nat) : (s.putDenied v).store.settings = s.store.settings := rfl
@[simp] theorem State.putDenied_store_plans (v : List Nat) : (s.putDenied v).store.plans = s.store.plans := rfl
@[simp] theorem State.putDenied_store_tariffs (v : List Nat) : (s.putDenied v).store.tariffs = s.store.tariffs := rfl
@[simp] theorem State.putDenied_store_deny (v : List Nat) : (s.putDenied v).store.deny = s.store.deny.write v := rfl
@[simp] theorem State.putDenied_store_passes (v : List Nat) : (s.putDenied v).store.passes = s.store.passes := rfl
@[simp] theorem State.putDenied_store_hires (v : List Nat) : (s.putDenied v).store.hires = s.store.hires := rfl
@[simp] theorem State.putDenied_store_settle (v : List Nat) : (s.putDenied v).store.settle = s.store.settle := rfl
@[simp] theorem State.putDenied_store_journal (v : List Nat) : (s.putDenied v).store.journal = s.store.journal := rfl
@[simp] theorem State.putDenied_store_hireCount (v : List Nat) : (s.putDenied v).store.hireCount = s.store.hireCount := rfl
@[simp] theorem State.putDenied_store_epoch (v : List Nat) : (s.putDenied v).store.epoch = s.store.epoch := rfl

/-! ### putPasses -/

@[simp] theorem State.putPasses_pending (v : PassRegion) : (s.putPasses v).pending = s.pending := rfl
@[simp] theorem State.putPasses_power (v : PassRegion) : (s.putPasses v).power = s.power := rfl
@[simp] theorem State.putPasses_elapsed (v : PassRegion) : (s.putPasses v).elapsed = s.elapsed := rfl
@[simp] theorem State.putPasses_clock (v : PassRegion) : (s.putPasses v).clock = s.clock := rfl
@[simp] theorem State.putPasses_stationId (v : PassRegion) : (s.putPasses v).stationId = s.stationId := rfl
@[simp] theorem State.putPasses_strings (v : PassRegion) : (s.putPasses v).strings = s.strings := rfl
@[simp] theorem State.putPasses_nodes (v : PassRegion) : (s.putPasses v).nodes = s.nodes := rfl
@[simp] theorem State.putPasses_docks (v : PassRegion) : (s.putPasses v).docks = s.docks := rfl
@[simp] theorem State.putPasses_censusLimit (v : PassRegion) : (s.putPasses v).censusLimit = s.censusLimit := rfl
@[simp] theorem State.putPasses_censusReported (v : PassRegion) : (s.putPasses v).censusReported = s.censusReported := rfl
@[simp] theorem State.putPasses_hireExamAt (v : PassRegion) : (s.putPasses v).hireExamAt = s.hireExamAt := rfl
@[simp] theorem State.putPasses_passExamAt (v : PassRegion) : (s.putPasses v).passExamAt = s.passExamAt := rfl
@[simp] theorem State.putPasses_codePosition (v : PassRegion) : (s.putPasses v).codePosition = s.codePosition := rfl
@[simp] theorem State.putPasses_setAside (v : PassRegion) : (s.putPasses v).setAside = s.setAside := rfl
@[simp] theorem State.putPasses_replySlot (v : PassRegion) : (s.putPasses v).replySlot = s.replySlot := rfl
@[simp] theorem State.putPasses_backhaul (v : PassRegion) : (s.putPasses v).backhaul = s.backhaul := rfl
@[simp] theorem State.putPasses_fatal (v : PassRegion) : (s.putPasses v).fatal = s.fatal := rfl
@[simp] theorem State.putPasses_sixth (v : PassRegion) : (s.putPasses v).sixth = s.sixth := rfl
@[simp] theorem State.putPasses_attention (v : PassRegion) : (s.putPasses v).attention = s.attention := rfl
@[simp] theorem State.putPasses_faults (v : PassRegion) : (s.putPasses v).faults = s.faults := rfl
@[simp] theorem State.putPasses_faultsDropped (v : PassRegion) : (s.putPasses v).faultsDropped = s.faultsDropped := rfl
@[simp] theorem State.putPasses_readerRuns (v : PassRegion) : (s.putPasses v).readerRuns = s.readerRuns := rfl
@[simp] theorem State.putPasses_offlineAt (v : PassRegion) : (s.putPasses v).offlineAt = s.offlineAt := rfl
@[simp] theorem State.putPasses_van (v : PassRegion) : (s.putPasses v).van = s.van := rfl
@[simp] theorem State.putPasses_directives (v : PassRegion) : (s.putPasses v).directives = s.directives := rfl
@[simp] theorem State.putPasses_link (v : PassRegion) : (s.putPasses v).link = s.link := rfl
@[simp] theorem State.putPasses_store_settings (v : PassRegion) : (s.putPasses v).store.settings = s.store.settings := rfl
@[simp] theorem State.putPasses_store_plans (v : PassRegion) : (s.putPasses v).store.plans = s.store.plans := rfl
@[simp] theorem State.putPasses_store_tariffs (v : PassRegion) : (s.putPasses v).store.tariffs = s.store.tariffs := rfl
@[simp] theorem State.putPasses_store_deny (v : PassRegion) : (s.putPasses v).store.deny = s.store.deny := rfl
@[simp] theorem State.putPasses_store_passes (v : PassRegion) : (s.putPasses v).store.passes = s.store.passes.write v := rfl
@[simp] theorem State.putPasses_store_hires (v : PassRegion) : (s.putPasses v).store.hires = s.store.hires := rfl
@[simp] theorem State.putPasses_store_settle (v : PassRegion) : (s.putPasses v).store.settle = s.store.settle := rfl
@[simp] theorem State.putPasses_store_journal (v : PassRegion) : (s.putPasses v).store.journal = s.store.journal := rfl
@[simp] theorem State.putPasses_store_hireCount (v : PassRegion) : (s.putPasses v).store.hireCount = s.store.hireCount := rfl
@[simp] theorem State.putPasses_store_epoch (v : PassRegion) : (s.putPasses v).store.epoch = s.store.epoch := rfl

/-! ### putHires -/

@[simp] theorem State.putHires_pending (v : List OpenHire) : (s.putHires v).pending = s.pending := rfl
@[simp] theorem State.putHires_power (v : List OpenHire) : (s.putHires v).power = s.power := rfl
@[simp] theorem State.putHires_elapsed (v : List OpenHire) : (s.putHires v).elapsed = s.elapsed := rfl
@[simp] theorem State.putHires_clock (v : List OpenHire) : (s.putHires v).clock = s.clock := rfl
@[simp] theorem State.putHires_stationId (v : List OpenHire) : (s.putHires v).stationId = s.stationId := rfl
@[simp] theorem State.putHires_strings (v : List OpenHire) : (s.putHires v).strings = s.strings := rfl
@[simp] theorem State.putHires_nodes (v : List OpenHire) : (s.putHires v).nodes = s.nodes := rfl
@[simp] theorem State.putHires_docks (v : List OpenHire) : (s.putHires v).docks = s.docks := rfl
@[simp] theorem State.putHires_censusLimit (v : List OpenHire) : (s.putHires v).censusLimit = s.censusLimit := rfl
@[simp] theorem State.putHires_censusReported (v : List OpenHire) : (s.putHires v).censusReported = s.censusReported := rfl
@[simp] theorem State.putHires_hireExamAt (v : List OpenHire) : (s.putHires v).hireExamAt = s.hireExamAt := rfl
@[simp] theorem State.putHires_passExamAt (v : List OpenHire) : (s.putHires v).passExamAt = s.passExamAt := rfl
@[simp] theorem State.putHires_codePosition (v : List OpenHire) : (s.putHires v).codePosition = s.codePosition := rfl
@[simp] theorem State.putHires_setAside (v : List OpenHire) : (s.putHires v).setAside = s.setAside := rfl
@[simp] theorem State.putHires_replySlot (v : List OpenHire) : (s.putHires v).replySlot = s.replySlot := rfl
@[simp] theorem State.putHires_backhaul (v : List OpenHire) : (s.putHires v).backhaul = s.backhaul := rfl
@[simp] theorem State.putHires_fatal (v : List OpenHire) : (s.putHires v).fatal = s.fatal := rfl
@[simp] theorem State.putHires_sixth (v : List OpenHire) : (s.putHires v).sixth = s.sixth := rfl
@[simp] theorem State.putHires_attention (v : List OpenHire) : (s.putHires v).attention = s.attention := rfl
@[simp] theorem State.putHires_faults (v : List OpenHire) : (s.putHires v).faults = s.faults := rfl
@[simp] theorem State.putHires_faultsDropped (v : List OpenHire) : (s.putHires v).faultsDropped = s.faultsDropped := rfl
@[simp] theorem State.putHires_readerRuns (v : List OpenHire) : (s.putHires v).readerRuns = s.readerRuns := rfl
@[simp] theorem State.putHires_offlineAt (v : List OpenHire) : (s.putHires v).offlineAt = s.offlineAt := rfl
@[simp] theorem State.putHires_van (v : List OpenHire) : (s.putHires v).van = s.van := rfl
@[simp] theorem State.putHires_directives (v : List OpenHire) : (s.putHires v).directives = s.directives := rfl
@[simp] theorem State.putHires_link (v : List OpenHire) : (s.putHires v).link = s.link := rfl
@[simp] theorem State.putHires_store_settings (v : List OpenHire) : (s.putHires v).store.settings = s.store.settings := rfl
@[simp] theorem State.putHires_store_plans (v : List OpenHire) : (s.putHires v).store.plans = s.store.plans := rfl
@[simp] theorem State.putHires_store_tariffs (v : List OpenHire) : (s.putHires v).store.tariffs = s.store.tariffs := rfl
@[simp] theorem State.putHires_store_deny (v : List OpenHire) : (s.putHires v).store.deny = s.store.deny := rfl
@[simp] theorem State.putHires_store_passes (v : List OpenHire) : (s.putHires v).store.passes = s.store.passes := rfl
@[simp] theorem State.putHires_store_hires (v : List OpenHire) : (s.putHires v).store.hires = s.store.hires.write v := rfl
@[simp] theorem State.putHires_store_settle (v : List OpenHire) : (s.putHires v).store.settle = s.store.settle := rfl
@[simp] theorem State.putHires_store_journal (v : List OpenHire) : (s.putHires v).store.journal = s.store.journal := rfl
@[simp] theorem State.putHires_store_hireCount (v : List OpenHire) : (s.putHires v).store.hireCount = s.store.hireCount := rfl
@[simp] theorem State.putHires_store_epoch (v : List OpenHire) : (s.putHires v).store.epoch = s.store.epoch := rfl

/-! ### putSettle -/

@[simp] theorem State.putSettle_pending (v : SettleRegion) : (s.putSettle v).pending = s.pending := rfl
@[simp] theorem State.putSettle_power (v : SettleRegion) : (s.putSettle v).power = s.power := rfl
@[simp] theorem State.putSettle_elapsed (v : SettleRegion) : (s.putSettle v).elapsed = s.elapsed := rfl
@[simp] theorem State.putSettle_clock (v : SettleRegion) : (s.putSettle v).clock = s.clock := rfl
@[simp] theorem State.putSettle_stationId (v : SettleRegion) : (s.putSettle v).stationId = s.stationId := rfl
@[simp] theorem State.putSettle_strings (v : SettleRegion) : (s.putSettle v).strings = s.strings := rfl
@[simp] theorem State.putSettle_nodes (v : SettleRegion) : (s.putSettle v).nodes = s.nodes := rfl
@[simp] theorem State.putSettle_docks (v : SettleRegion) : (s.putSettle v).docks = s.docks := rfl
@[simp] theorem State.putSettle_censusLimit (v : SettleRegion) : (s.putSettle v).censusLimit = s.censusLimit := rfl
@[simp] theorem State.putSettle_censusReported (v : SettleRegion) : (s.putSettle v).censusReported = s.censusReported := rfl
@[simp] theorem State.putSettle_hireExamAt (v : SettleRegion) : (s.putSettle v).hireExamAt = s.hireExamAt := rfl
@[simp] theorem State.putSettle_passExamAt (v : SettleRegion) : (s.putSettle v).passExamAt = s.passExamAt := rfl
@[simp] theorem State.putSettle_codePosition (v : SettleRegion) : (s.putSettle v).codePosition = s.codePosition := rfl
@[simp] theorem State.putSettle_setAside (v : SettleRegion) : (s.putSettle v).setAside = s.setAside := rfl
@[simp] theorem State.putSettle_replySlot (v : SettleRegion) : (s.putSettle v).replySlot = s.replySlot := rfl
@[simp] theorem State.putSettle_backhaul (v : SettleRegion) : (s.putSettle v).backhaul = s.backhaul := rfl
@[simp] theorem State.putSettle_fatal (v : SettleRegion) : (s.putSettle v).fatal = s.fatal := rfl
@[simp] theorem State.putSettle_sixth (v : SettleRegion) : (s.putSettle v).sixth = s.sixth := rfl
@[simp] theorem State.putSettle_attention (v : SettleRegion) : (s.putSettle v).attention = s.attention := rfl
@[simp] theorem State.putSettle_faults (v : SettleRegion) : (s.putSettle v).faults = s.faults := rfl
@[simp] theorem State.putSettle_faultsDropped (v : SettleRegion) : (s.putSettle v).faultsDropped = s.faultsDropped := rfl
@[simp] theorem State.putSettle_readerRuns (v : SettleRegion) : (s.putSettle v).readerRuns = s.readerRuns := rfl
@[simp] theorem State.putSettle_offlineAt (v : SettleRegion) : (s.putSettle v).offlineAt = s.offlineAt := rfl
@[simp] theorem State.putSettle_van (v : SettleRegion) : (s.putSettle v).van = s.van := rfl
@[simp] theorem State.putSettle_directives (v : SettleRegion) : (s.putSettle v).directives = s.directives := rfl
@[simp] theorem State.putSettle_link (v : SettleRegion) : (s.putSettle v).link = s.link := rfl
@[simp] theorem State.putSettle_store_settings (v : SettleRegion) : (s.putSettle v).store.settings = s.store.settings := rfl
@[simp] theorem State.putSettle_store_plans (v : SettleRegion) : (s.putSettle v).store.plans = s.store.plans := rfl
@[simp] theorem State.putSettle_store_tariffs (v : SettleRegion) : (s.putSettle v).store.tariffs = s.store.tariffs := rfl
@[simp] theorem State.putSettle_store_deny (v : SettleRegion) : (s.putSettle v).store.deny = s.store.deny := rfl
@[simp] theorem State.putSettle_store_passes (v : SettleRegion) : (s.putSettle v).store.passes = s.store.passes := rfl
@[simp] theorem State.putSettle_store_hires (v : SettleRegion) : (s.putSettle v).store.hires = s.store.hires := rfl
@[simp] theorem State.putSettle_store_settle (v : SettleRegion) : (s.putSettle v).store.settle = s.store.settle.write v := rfl
@[simp] theorem State.putSettle_store_journal (v : SettleRegion) : (s.putSettle v).store.journal = s.store.journal := rfl
@[simp] theorem State.putSettle_store_hireCount (v : SettleRegion) : (s.putSettle v).store.hireCount = s.store.hireCount := rfl
@[simp] theorem State.putSettle_store_epoch (v : SettleRegion) : (s.putSettle v).store.epoch = s.store.epoch := rfl

/-! ### putJournal -/

@[simp] theorem State.putJournal_pending (v : JournalRegion) : (s.putJournal v).pending = s.pending := rfl
@[simp] theorem State.putJournal_power (v : JournalRegion) : (s.putJournal v).power = s.power := rfl
@[simp] theorem State.putJournal_elapsed (v : JournalRegion) : (s.putJournal v).elapsed = s.elapsed := rfl
@[simp] theorem State.putJournal_clock (v : JournalRegion) : (s.putJournal v).clock = s.clock := rfl
@[simp] theorem State.putJournal_stationId (v : JournalRegion) : (s.putJournal v).stationId = s.stationId := rfl
@[simp] theorem State.putJournal_strings (v : JournalRegion) : (s.putJournal v).strings = s.strings := rfl
@[simp] theorem State.putJournal_nodes (v : JournalRegion) : (s.putJournal v).nodes = s.nodes := rfl
@[simp] theorem State.putJournal_docks (v : JournalRegion) : (s.putJournal v).docks = s.docks := rfl
@[simp] theorem State.putJournal_censusLimit (v : JournalRegion) : (s.putJournal v).censusLimit = s.censusLimit := rfl
@[simp] theorem State.putJournal_censusReported (v : JournalRegion) : (s.putJournal v).censusReported = s.censusReported := rfl
@[simp] theorem State.putJournal_hireExamAt (v : JournalRegion) : (s.putJournal v).hireExamAt = s.hireExamAt := rfl
@[simp] theorem State.putJournal_passExamAt (v : JournalRegion) : (s.putJournal v).passExamAt = s.passExamAt := rfl
@[simp] theorem State.putJournal_codePosition (v : JournalRegion) : (s.putJournal v).codePosition = s.codePosition := rfl
@[simp] theorem State.putJournal_setAside (v : JournalRegion) : (s.putJournal v).setAside = s.setAside := rfl
@[simp] theorem State.putJournal_replySlot (v : JournalRegion) : (s.putJournal v).replySlot = s.replySlot := rfl
@[simp] theorem State.putJournal_backhaul (v : JournalRegion) : (s.putJournal v).backhaul = s.backhaul := rfl
@[simp] theorem State.putJournal_fatal (v : JournalRegion) : (s.putJournal v).fatal = s.fatal := rfl
@[simp] theorem State.putJournal_sixth (v : JournalRegion) : (s.putJournal v).sixth = s.sixth := rfl
@[simp] theorem State.putJournal_attention (v : JournalRegion) : (s.putJournal v).attention = s.attention := rfl
@[simp] theorem State.putJournal_faults (v : JournalRegion) : (s.putJournal v).faults = s.faults := rfl
@[simp] theorem State.putJournal_faultsDropped (v : JournalRegion) : (s.putJournal v).faultsDropped = s.faultsDropped := rfl
@[simp] theorem State.putJournal_readerRuns (v : JournalRegion) : (s.putJournal v).readerRuns = s.readerRuns := rfl
@[simp] theorem State.putJournal_offlineAt (v : JournalRegion) : (s.putJournal v).offlineAt = s.offlineAt := rfl
@[simp] theorem State.putJournal_van (v : JournalRegion) : (s.putJournal v).van = s.van := rfl
@[simp] theorem State.putJournal_directives (v : JournalRegion) : (s.putJournal v).directives = s.directives := rfl
@[simp] theorem State.putJournal_link (v : JournalRegion) : (s.putJournal v).link = s.link := rfl
@[simp] theorem State.putJournal_store_settings (v : JournalRegion) : (s.putJournal v).store.settings = s.store.settings := rfl
@[simp] theorem State.putJournal_store_plans (v : JournalRegion) : (s.putJournal v).store.plans = s.store.plans := rfl
@[simp] theorem State.putJournal_store_tariffs (v : JournalRegion) : (s.putJournal v).store.tariffs = s.store.tariffs := rfl
@[simp] theorem State.putJournal_store_deny (v : JournalRegion) : (s.putJournal v).store.deny = s.store.deny := rfl
@[simp] theorem State.putJournal_store_passes (v : JournalRegion) : (s.putJournal v).store.passes = s.store.passes := rfl
@[simp] theorem State.putJournal_store_hires (v : JournalRegion) : (s.putJournal v).store.hires = s.store.hires := rfl
@[simp] theorem State.putJournal_store_settle (v : JournalRegion) : (s.putJournal v).store.settle = s.store.settle := rfl
@[simp] theorem State.putJournal_store_journal (v : JournalRegion) : (s.putJournal v).store.journal = s.store.journal.write v := rfl
@[simp] theorem State.putJournal_store_hireCount (v : JournalRegion) : (s.putJournal v).store.hireCount = s.store.hireCount := rfl
@[simp] theorem State.putJournal_store_epoch (v : JournalRegion) : (s.putJournal v).store.epoch = s.store.epoch := rfl

/-! ### putHireCount -/

@[simp] theorem State.putHireCount_pending (v : Nat) : (s.putHireCount v).pending = s.pending := rfl
@[simp] theorem State.putHireCount_power (v : Nat) : (s.putHireCount v).power = s.power := rfl
@[simp] theorem State.putHireCount_elapsed (v : Nat) : (s.putHireCount v).elapsed = s.elapsed := rfl
@[simp] theorem State.putHireCount_clock (v : Nat) : (s.putHireCount v).clock = s.clock := rfl
@[simp] theorem State.putHireCount_stationId (v : Nat) : (s.putHireCount v).stationId = s.stationId := rfl
@[simp] theorem State.putHireCount_strings (v : Nat) : (s.putHireCount v).strings = s.strings := rfl
@[simp] theorem State.putHireCount_nodes (v : Nat) : (s.putHireCount v).nodes = s.nodes := rfl
@[simp] theorem State.putHireCount_docks (v : Nat) : (s.putHireCount v).docks = s.docks := rfl
@[simp] theorem State.putHireCount_censusLimit (v : Nat) : (s.putHireCount v).censusLimit = s.censusLimit := rfl
@[simp] theorem State.putHireCount_censusReported (v : Nat) : (s.putHireCount v).censusReported = s.censusReported := rfl
@[simp] theorem State.putHireCount_hireExamAt (v : Nat) : (s.putHireCount v).hireExamAt = s.hireExamAt := rfl
@[simp] theorem State.putHireCount_passExamAt (v : Nat) : (s.putHireCount v).passExamAt = s.passExamAt := rfl
@[simp] theorem State.putHireCount_codePosition (v : Nat) : (s.putHireCount v).codePosition = s.codePosition := rfl
@[simp] theorem State.putHireCount_setAside (v : Nat) : (s.putHireCount v).setAside = s.setAside := rfl
@[simp] theorem State.putHireCount_replySlot (v : Nat) : (s.putHireCount v).replySlot = s.replySlot := rfl
@[simp] theorem State.putHireCount_backhaul (v : Nat) : (s.putHireCount v).backhaul = s.backhaul := rfl
@[simp] theorem State.putHireCount_fatal (v : Nat) : (s.putHireCount v).fatal = s.fatal := rfl
@[simp] theorem State.putHireCount_sixth (v : Nat) : (s.putHireCount v).sixth = s.sixth := rfl
@[simp] theorem State.putHireCount_attention (v : Nat) : (s.putHireCount v).attention = s.attention := rfl
@[simp] theorem State.putHireCount_faults (v : Nat) : (s.putHireCount v).faults = s.faults := rfl
@[simp] theorem State.putHireCount_faultsDropped (v : Nat) : (s.putHireCount v).faultsDropped = s.faultsDropped := rfl
@[simp] theorem State.putHireCount_readerRuns (v : Nat) : (s.putHireCount v).readerRuns = s.readerRuns := rfl
@[simp] theorem State.putHireCount_offlineAt (v : Nat) : (s.putHireCount v).offlineAt = s.offlineAt := rfl
@[simp] theorem State.putHireCount_van (v : Nat) : (s.putHireCount v).van = s.van := rfl
@[simp] theorem State.putHireCount_directives (v : Nat) : (s.putHireCount v).directives = s.directives := rfl
@[simp] theorem State.putHireCount_link (v : Nat) : (s.putHireCount v).link = s.link := rfl
@[simp] theorem State.putHireCount_store_settings (v : Nat) : (s.putHireCount v).store.settings = s.store.settings := rfl
@[simp] theorem State.putHireCount_store_plans (v : Nat) : (s.putHireCount v).store.plans = s.store.plans := rfl
@[simp] theorem State.putHireCount_store_tariffs (v : Nat) : (s.putHireCount v).store.tariffs = s.store.tariffs := rfl
@[simp] theorem State.putHireCount_store_deny (v : Nat) : (s.putHireCount v).store.deny = s.store.deny := rfl
@[simp] theorem State.putHireCount_store_passes (v : Nat) : (s.putHireCount v).store.passes = s.store.passes := rfl
@[simp] theorem State.putHireCount_store_hires (v : Nat) : (s.putHireCount v).store.hires = s.store.hires := rfl
@[simp] theorem State.putHireCount_store_settle (v : Nat) : (s.putHireCount v).store.settle = s.store.settle := rfl
@[simp] theorem State.putHireCount_store_journal (v : Nat) : (s.putHireCount v).store.journal = s.store.journal := rfl
@[simp] theorem State.putHireCount_store_hireCount (v : Nat) : (s.putHireCount v).store.hireCount = s.store.hireCount.write v := rfl
@[simp] theorem State.putHireCount_store_epoch (v : Nat) : (s.putHireCount v).store.epoch = s.store.epoch := rfl

/-! ### putEpoch -/

@[simp] theorem State.putEpoch_pending (v : EpochRegion) : (s.putEpoch v).pending = s.pending := rfl
@[simp] theorem State.putEpoch_power (v : EpochRegion) : (s.putEpoch v).power = s.power := rfl
@[simp] theorem State.putEpoch_elapsed (v : EpochRegion) : (s.putEpoch v).elapsed = s.elapsed := rfl
@[simp] theorem State.putEpoch_clock (v : EpochRegion) : (s.putEpoch v).clock = s.clock := rfl
@[simp] theorem State.putEpoch_stationId (v : EpochRegion) : (s.putEpoch v).stationId = s.stationId := rfl
@[simp] theorem State.putEpoch_strings (v : EpochRegion) : (s.putEpoch v).strings = s.strings := rfl
@[simp] theorem State.putEpoch_nodes (v : EpochRegion) : (s.putEpoch v).nodes = s.nodes := rfl
@[simp] theorem State.putEpoch_docks (v : EpochRegion) : (s.putEpoch v).docks = s.docks := rfl
@[simp] theorem State.putEpoch_censusLimit (v : EpochRegion) : (s.putEpoch v).censusLimit = s.censusLimit := rfl
@[simp] theorem State.putEpoch_censusReported (v : EpochRegion) : (s.putEpoch v).censusReported = s.censusReported := rfl
@[simp] theorem State.putEpoch_hireExamAt (v : EpochRegion) : (s.putEpoch v).hireExamAt = s.hireExamAt := rfl
@[simp] theorem State.putEpoch_passExamAt (v : EpochRegion) : (s.putEpoch v).passExamAt = s.passExamAt := rfl
@[simp] theorem State.putEpoch_codePosition (v : EpochRegion) : (s.putEpoch v).codePosition = s.codePosition := rfl
@[simp] theorem State.putEpoch_setAside (v : EpochRegion) : (s.putEpoch v).setAside = s.setAside := rfl
@[simp] theorem State.putEpoch_replySlot (v : EpochRegion) : (s.putEpoch v).replySlot = s.replySlot := rfl
@[simp] theorem State.putEpoch_backhaul (v : EpochRegion) : (s.putEpoch v).backhaul = s.backhaul := rfl
@[simp] theorem State.putEpoch_fatal (v : EpochRegion) : (s.putEpoch v).fatal = s.fatal := rfl
@[simp] theorem State.putEpoch_sixth (v : EpochRegion) : (s.putEpoch v).sixth = s.sixth := rfl
@[simp] theorem State.putEpoch_attention (v : EpochRegion) : (s.putEpoch v).attention = s.attention := rfl
@[simp] theorem State.putEpoch_faults (v : EpochRegion) : (s.putEpoch v).faults = s.faults := rfl
@[simp] theorem State.putEpoch_faultsDropped (v : EpochRegion) : (s.putEpoch v).faultsDropped = s.faultsDropped := rfl
@[simp] theorem State.putEpoch_readerRuns (v : EpochRegion) : (s.putEpoch v).readerRuns = s.readerRuns := rfl
@[simp] theorem State.putEpoch_offlineAt (v : EpochRegion) : (s.putEpoch v).offlineAt = s.offlineAt := rfl
@[simp] theorem State.putEpoch_van (v : EpochRegion) : (s.putEpoch v).van = s.van := rfl
@[simp] theorem State.putEpoch_directives (v : EpochRegion) : (s.putEpoch v).directives = s.directives := rfl
@[simp] theorem State.putEpoch_link (v : EpochRegion) : (s.putEpoch v).link = s.link := rfl
@[simp] theorem State.putEpoch_store_settings (v : EpochRegion) : (s.putEpoch v).store.settings = s.store.settings := rfl
@[simp] theorem State.putEpoch_store_plans (v : EpochRegion) : (s.putEpoch v).store.plans = s.store.plans := rfl
@[simp] theorem State.putEpoch_store_tariffs (v : EpochRegion) : (s.putEpoch v).store.tariffs = s.store.tariffs := rfl
@[simp] theorem State.putEpoch_store_deny (v : EpochRegion) : (s.putEpoch v).store.deny = s.store.deny := rfl
@[simp] theorem State.putEpoch_store_passes (v : EpochRegion) : (s.putEpoch v).store.passes = s.store.passes := rfl
@[simp] theorem State.putEpoch_store_hires (v : EpochRegion) : (s.putEpoch v).store.hires = s.store.hires := rfl
@[simp] theorem State.putEpoch_store_settle (v : EpochRegion) : (s.putEpoch v).store.settle = s.store.settle := rfl
@[simp] theorem State.putEpoch_store_journal (v : EpochRegion) : (s.putEpoch v).store.journal = s.store.journal := rfl
@[simp] theorem State.putEpoch_store_hireCount (v : EpochRegion) : (s.putEpoch v).store.hireCount = s.store.hireCount := rfl
@[simp] theorem State.putEpoch_store_epoch (v : EpochRegion) : (s.putEpoch v).store.epoch = s.store.epoch.write v := rfl

/-! ### withMarks -/

@[simp] theorem State.withMarks_pending (m : Marks) : (s.withMarks m).pending = s.pending := rfl
@[simp] theorem State.withMarks_power (m : Marks) : (s.withMarks m).power = s.power := rfl
@[simp] theorem State.withMarks_elapsed (m : Marks) : (s.withMarks m).elapsed = s.elapsed := rfl
@[simp] theorem State.withMarks_clock (m : Marks) : (s.withMarks m).clock = s.clock := rfl
@[simp] theorem State.withMarks_store (m : Marks) : (s.withMarks m).store = s.store := rfl
@[simp] theorem State.withMarks_stationId (m : Marks) : (s.withMarks m).stationId = s.stationId := rfl
@[simp] theorem State.withMarks_strings (m : Marks) : (s.withMarks m).strings = s.strings := rfl
@[simp] theorem State.withMarks_nodes (m : Marks) : (s.withMarks m).nodes = s.nodes := rfl
@[simp] theorem State.withMarks_docks (m : Marks) : (s.withMarks m).docks = s.docks := rfl
@[simp] theorem State.withMarks_censusLimit (m : Marks) : (s.withMarks m).censusLimit = s.censusLimit := rfl
@[simp] theorem State.withMarks_censusReported (m : Marks) : (s.withMarks m).censusReported = s.censusReported := rfl
@[simp] theorem State.withMarks_hireExamAt (m : Marks) : (s.withMarks m).hireExamAt = s.hireExamAt := rfl
@[simp] theorem State.withMarks_passExamAt (m : Marks) : (s.withMarks m).passExamAt = s.passExamAt := rfl
@[simp] theorem State.withMarks_codePosition (m : Marks) : (s.withMarks m).codePosition = s.codePosition := rfl
@[simp] theorem State.withMarks_setAside (m : Marks) : (s.withMarks m).setAside = s.setAside := rfl
@[simp] theorem State.withMarks_replySlot (m : Marks) : (s.withMarks m).replySlot = s.replySlot := rfl
@[simp] theorem State.withMarks_backhaul (m : Marks) : (s.withMarks m).backhaul = s.backhaul := rfl
@[simp] theorem State.withMarks_fatal (m : Marks) : (s.withMarks m).fatal = s.fatal := rfl
@[simp] theorem State.withMarks_sixth (m : Marks) : (s.withMarks m).sixth = s.sixth := rfl
@[simp] theorem State.withMarks_attention (m : Marks) : (s.withMarks m).attention = s.attention := rfl
@[simp] theorem State.withMarks_faults (m : Marks) : (s.withMarks m).faults = s.faults := rfl
@[simp] theorem State.withMarks_faultsDropped (m : Marks) : (s.withMarks m).faultsDropped = s.faultsDropped := rfl
@[simp] theorem State.withMarks_readerRuns (m : Marks) : (s.withMarks m).readerRuns = s.readerRuns := rfl
@[simp] theorem State.withMarks_offlineAt (m : Marks) : (s.withMarks m).offlineAt = s.offlineAt := rfl
@[simp] theorem State.withMarks_van (m : Marks) : (s.withMarks m).van = s.van := rfl
@[simp] theorem State.withMarks_directives (m : Marks) : (s.withMarks m).directives = s.directives := rfl
@[simp] theorem State.withMarks_link (m : Marks) : (s.withMarks m).link = { s.link with marks := m } := rfl

/-! ### raise -/

@[simp] theorem State.raise_pending (k : NoticeKind) : (s.raise k).pending = s.pending := rfl
@[simp] theorem State.raise_power (k : NoticeKind) : (s.raise k).power = s.power := rfl
@[simp] theorem State.raise_elapsed (k : NoticeKind) : (s.raise k).elapsed = s.elapsed := rfl
@[simp] theorem State.raise_clock (k : NoticeKind) : (s.raise k).clock = s.clock := rfl
@[simp] theorem State.raise_store (k : NoticeKind) : (s.raise k).store = s.store := rfl
@[simp] theorem State.raise_stationId (k : NoticeKind) : (s.raise k).stationId = s.stationId := rfl
@[simp] theorem State.raise_strings (k : NoticeKind) : (s.raise k).strings = s.strings := rfl
@[simp] theorem State.raise_nodes (k : NoticeKind) : (s.raise k).nodes = s.nodes := rfl
@[simp] theorem State.raise_docks (k : NoticeKind) : (s.raise k).docks = s.docks := rfl
@[simp] theorem State.raise_censusLimit (k : NoticeKind) : (s.raise k).censusLimit = s.censusLimit := rfl
@[simp] theorem State.raise_censusReported (k : NoticeKind) : (s.raise k).censusReported = s.censusReported := rfl
@[simp] theorem State.raise_hireExamAt (k : NoticeKind) : (s.raise k).hireExamAt = s.hireExamAt := rfl
@[simp] theorem State.raise_passExamAt (k : NoticeKind) : (s.raise k).passExamAt = s.passExamAt := rfl
@[simp] theorem State.raise_codePosition (k : NoticeKind) : (s.raise k).codePosition = s.codePosition := rfl
@[simp] theorem State.raise_setAside (k : NoticeKind) : (s.raise k).setAside = s.setAside := rfl
@[simp] theorem State.raise_replySlot (k : NoticeKind) : (s.raise k).replySlot = s.replySlot := rfl
@[simp] theorem State.raise_backhaul (k : NoticeKind) : (s.raise k).backhaul = s.backhaul := rfl
@[simp] theorem State.raise_fatal (k : NoticeKind) : (s.raise k).fatal = s.fatal := rfl
@[simp] theorem State.raise_sixth (k : NoticeKind) : (s.raise k).sixth = s.sixth := rfl
@[simp] theorem State.raise_attention (k : NoticeKind) : (s.raise k).attention = s.attention := rfl
@[simp] theorem State.raise_faults (k : NoticeKind) : (s.raise k).faults = s.faults := rfl
@[simp] theorem State.raise_faultsDropped (k : NoticeKind) : (s.raise k).faultsDropped = s.faultsDropped := rfl
@[simp] theorem State.raise_readerRuns (k : NoticeKind) : (s.raise k).readerRuns = s.readerRuns := rfl
@[simp] theorem State.raise_offlineAt (k : NoticeKind) : (s.raise k).offlineAt = s.offlineAt := rfl
@[simp] theorem State.raise_van (k : NoticeKind) : (s.raise k).van = s.van := rfl
@[simp] theorem State.raise_directives (k : NoticeKind) : (s.raise k).directives = s.directives := rfl
@[simp] theorem State.raise_link (k : NoticeKind) : (s.raise k).link = { s.link with marks := s.link.marks.put k true } := rfl

/-! ### putNode -/

@[simp] theorem State.putNode_pending (d : Nat) (n : Node) : (s.putNode d n).pending = s.pending := rfl
@[simp] theorem State.putNode_power (d : Nat) (n : Node) : (s.putNode d n).power = s.power := rfl
@[simp] theorem State.putNode_elapsed (d : Nat) (n : Node) : (s.putNode d n).elapsed = s.elapsed := rfl
@[simp] theorem State.putNode_clock (d : Nat) (n : Node) : (s.putNode d n).clock = s.clock := rfl
@[simp] theorem State.putNode_store (d : Nat) (n : Node) : (s.putNode d n).store = s.store := rfl
@[simp] theorem State.putNode_stationId (d : Nat) (n : Node) : (s.putNode d n).stationId = s.stationId := rfl
@[simp] theorem State.putNode_strings (d : Nat) (n : Node) : (s.putNode d n).strings = s.strings := rfl
@[simp] theorem State.putNode_nodes (d : Nat) (n : Node) : (s.putNode d n).nodes = setEntry s.nodes d n := rfl
@[simp] theorem State.putNode_docks (d : Nat) (n : Node) : (s.putNode d n).docks = s.docks := rfl
@[simp] theorem State.putNode_censusLimit (d : Nat) (n : Node) : (s.putNode d n).censusLimit = s.censusLimit := rfl
@[simp] theorem State.putNode_censusReported (d : Nat) (n : Node) : (s.putNode d n).censusReported = s.censusReported := rfl
@[simp] theorem State.putNode_hireExamAt (d : Nat) (n : Node) : (s.putNode d n).hireExamAt = s.hireExamAt := rfl
@[simp] theorem State.putNode_passExamAt (d : Nat) (n : Node) : (s.putNode d n).passExamAt = s.passExamAt := rfl
@[simp] theorem State.putNode_codePosition (d : Nat) (n : Node) : (s.putNode d n).codePosition = s.codePosition := rfl
@[simp] theorem State.putNode_setAside (d : Nat) (n : Node) : (s.putNode d n).setAside = s.setAside := rfl
@[simp] theorem State.putNode_replySlot (d : Nat) (n : Node) : (s.putNode d n).replySlot = s.replySlot := rfl
@[simp] theorem State.putNode_backhaul (d : Nat) (n : Node) : (s.putNode d n).backhaul = s.backhaul := rfl
@[simp] theorem State.putNode_fatal (d : Nat) (n : Node) : (s.putNode d n).fatal = s.fatal := rfl
@[simp] theorem State.putNode_sixth (d : Nat) (n : Node) : (s.putNode d n).sixth = s.sixth := rfl
@[simp] theorem State.putNode_attention (d : Nat) (n : Node) : (s.putNode d n).attention = s.attention := rfl
@[simp] theorem State.putNode_faults (d : Nat) (n : Node) : (s.putNode d n).faults = s.faults := rfl
@[simp] theorem State.putNode_faultsDropped (d : Nat) (n : Node) : (s.putNode d n).faultsDropped = s.faultsDropped := rfl
@[simp] theorem State.putNode_readerRuns (d : Nat) (n : Node) : (s.putNode d n).readerRuns = s.readerRuns := rfl
@[simp] theorem State.putNode_offlineAt (d : Nat) (n : Node) : (s.putNode d n).offlineAt = s.offlineAt := rfl
@[simp] theorem State.putNode_van (d : Nat) (n : Node) : (s.putNode d n).van = s.van := rfl
@[simp] theorem State.putNode_directives (d : Nat) (n : Node) : (s.putNode d n).directives = s.directives := rfl
@[simp] theorem State.putNode_link (d : Nat) (n : Node) : (s.putNode d n).link = s.link := rfl

/-! ### putLine -/

@[simp] theorem State.putLine_pending (n : Nat) (l : StringLine) : (s.putLine n l).pending = s.pending := rfl
@[simp] theorem State.putLine_power (n : Nat) (l : StringLine) : (s.putLine n l).power = s.power := rfl
@[simp] theorem State.putLine_elapsed (n : Nat) (l : StringLine) : (s.putLine n l).elapsed = s.elapsed := rfl
@[simp] theorem State.putLine_clock (n : Nat) (l : StringLine) : (s.putLine n l).clock = s.clock := rfl
@[simp] theorem State.putLine_store (n : Nat) (l : StringLine) : (s.putLine n l).store = s.store := rfl
@[simp] theorem State.putLine_stationId (n : Nat) (l : StringLine) : (s.putLine n l).stationId = s.stationId := rfl
@[simp] theorem State.putLine_strings (n : Nat) (l : StringLine) : (s.putLine n l).strings = setEntry s.strings n l := rfl
@[simp] theorem State.putLine_nodes (n : Nat) (l : StringLine) : (s.putLine n l).nodes = s.nodes := rfl
@[simp] theorem State.putLine_docks (n : Nat) (l : StringLine) : (s.putLine n l).docks = s.docks := rfl
@[simp] theorem State.putLine_censusLimit (n : Nat) (l : StringLine) : (s.putLine n l).censusLimit = s.censusLimit := rfl
@[simp] theorem State.putLine_censusReported (n : Nat) (l : StringLine) : (s.putLine n l).censusReported = s.censusReported := rfl
@[simp] theorem State.putLine_hireExamAt (n : Nat) (l : StringLine) : (s.putLine n l).hireExamAt = s.hireExamAt := rfl
@[simp] theorem State.putLine_passExamAt (n : Nat) (l : StringLine) : (s.putLine n l).passExamAt = s.passExamAt := rfl
@[simp] theorem State.putLine_codePosition (n : Nat) (l : StringLine) : (s.putLine n l).codePosition = s.codePosition := rfl
@[simp] theorem State.putLine_setAside (n : Nat) (l : StringLine) : (s.putLine n l).setAside = s.setAside := rfl
@[simp] theorem State.putLine_replySlot (n : Nat) (l : StringLine) : (s.putLine n l).replySlot = s.replySlot := rfl
@[simp] theorem State.putLine_backhaul (n : Nat) (l : StringLine) : (s.putLine n l).backhaul = s.backhaul := rfl
@[simp] theorem State.putLine_fatal (n : Nat) (l : StringLine) : (s.putLine n l).fatal = s.fatal := rfl
@[simp] theorem State.putLine_sixth (n : Nat) (l : StringLine) : (s.putLine n l).sixth = s.sixth := rfl
@[simp] theorem State.putLine_attention (n : Nat) (l : StringLine) : (s.putLine n l).attention = s.attention := rfl
@[simp] theorem State.putLine_faults (n : Nat) (l : StringLine) : (s.putLine n l).faults = s.faults := rfl
@[simp] theorem State.putLine_faultsDropped (n : Nat) (l : StringLine) : (s.putLine n l).faultsDropped = s.faultsDropped := rfl
@[simp] theorem State.putLine_readerRuns (n : Nat) (l : StringLine) : (s.putLine n l).readerRuns = s.readerRuns := rfl
@[simp] theorem State.putLine_offlineAt (n : Nat) (l : StringLine) : (s.putLine n l).offlineAt = s.offlineAt := rfl
@[simp] theorem State.putLine_van (n : Nat) (l : StringLine) : (s.putLine n l).van = s.van := rfl
@[simp] theorem State.putLine_directives (n : Nat) (l : StringLine) : (s.putLine n l).directives = s.directives := rfl
@[simp] theorem State.putLine_link (n : Nat) (l : StringLine) : (s.putLine n l).link = s.link := rfl

/-! ### putLink -/

@[simp] theorem State.putLink_pending (l : Link) : (s.putLink l).pending = s.pending := rfl
@[simp] theorem State.putLink_power (l : Link) : (s.putLink l).power = s.power := rfl
@[simp] theorem State.putLink_elapsed (l : Link) : (s.putLink l).elapsed = s.elapsed := rfl
@[simp] theorem State.putLink_clock (l : Link) : (s.putLink l).clock = s.clock := rfl
@[simp] theorem State.putLink_store (l : Link) : (s.putLink l).store = s.store := rfl
@[simp] theorem State.putLink_stationId (l : Link) : (s.putLink l).stationId = s.stationId := rfl
@[simp] theorem State.putLink_strings (l : Link) : (s.putLink l).strings = s.strings := rfl
@[simp] theorem State.putLink_nodes (l : Link) : (s.putLink l).nodes = s.nodes := rfl
@[simp] theorem State.putLink_docks (l : Link) : (s.putLink l).docks = s.docks := rfl
@[simp] theorem State.putLink_censusLimit (l : Link) : (s.putLink l).censusLimit = s.censusLimit := rfl
@[simp] theorem State.putLink_censusReported (l : Link) : (s.putLink l).censusReported = s.censusReported := rfl
@[simp] theorem State.putLink_hireExamAt (l : Link) : (s.putLink l).hireExamAt = s.hireExamAt := rfl
@[simp] theorem State.putLink_passExamAt (l : Link) : (s.putLink l).passExamAt = s.passExamAt := rfl
@[simp] theorem State.putLink_codePosition (l : Link) : (s.putLink l).codePosition = s.codePosition := rfl
@[simp] theorem State.putLink_setAside (l : Link) : (s.putLink l).setAside = s.setAside := rfl
@[simp] theorem State.putLink_replySlot (l : Link) : (s.putLink l).replySlot = s.replySlot := rfl
@[simp] theorem State.putLink_backhaul (l : Link) : (s.putLink l).backhaul = s.backhaul := rfl
@[simp] theorem State.putLink_fatal (l : Link) : (s.putLink l).fatal = s.fatal := rfl
@[simp] theorem State.putLink_sixth (l : Link) : (s.putLink l).sixth = s.sixth := rfl
@[simp] theorem State.putLink_attention (l : Link) : (s.putLink l).attention = s.attention := rfl
@[simp] theorem State.putLink_faults (l : Link) : (s.putLink l).faults = s.faults := rfl
@[simp] theorem State.putLink_faultsDropped (l : Link) : (s.putLink l).faultsDropped = s.faultsDropped := rfl
@[simp] theorem State.putLink_readerRuns (l : Link) : (s.putLink l).readerRuns = s.readerRuns := rfl
@[simp] theorem State.putLink_offlineAt (l : Link) : (s.putLink l).offlineAt = s.offlineAt := rfl
@[simp] theorem State.putLink_van (l : Link) : (s.putLink l).van = s.van := rfl
@[simp] theorem State.putLink_directives (l : Link) : (s.putLink l).directives = s.directives := rfl
@[simp] theorem State.putLink_link (l : Link) : (s.putLink l).link = l := rfl

/-! ### takeSlot -/

@[simp] theorem State.takeSlot_pending : (s.takeSlot).pending = s.pending := rfl
@[simp] theorem State.takeSlot_power : (s.takeSlot).power = s.power := rfl
@[simp] theorem State.takeSlot_elapsed : (s.takeSlot).elapsed = s.elapsed := rfl
@[simp] theorem State.takeSlot_clock : (s.takeSlot).clock = s.clock := rfl
@[simp] theorem State.takeSlot_store : (s.takeSlot).store = s.store := rfl
@[simp] theorem State.takeSlot_stationId : (s.takeSlot).stationId = s.stationId := rfl
@[simp] theorem State.takeSlot_strings : (s.takeSlot).strings = s.strings := rfl
@[simp] theorem State.takeSlot_nodes : (s.takeSlot).nodes = s.nodes := rfl
@[simp] theorem State.takeSlot_docks : (s.takeSlot).docks = s.docks := rfl
@[simp] theorem State.takeSlot_censusLimit : (s.takeSlot).censusLimit = s.censusLimit := rfl
@[simp] theorem State.takeSlot_censusReported : (s.takeSlot).censusReported = s.censusReported := rfl
@[simp] theorem State.takeSlot_hireExamAt : (s.takeSlot).hireExamAt = s.hireExamAt := rfl
@[simp] theorem State.takeSlot_passExamAt : (s.takeSlot).passExamAt = s.passExamAt := rfl
@[simp] theorem State.takeSlot_codePosition : (s.takeSlot).codePosition = s.codePosition := rfl
@[simp] theorem State.takeSlot_setAside : (s.takeSlot).setAside = s.setAside + 1 := rfl
@[simp] theorem State.takeSlot_replySlot : (s.takeSlot).replySlot = s.replySlot := rfl
@[simp] theorem State.takeSlot_backhaul : (s.takeSlot).backhaul = s.backhaul := rfl
@[simp] theorem State.takeSlot_fatal : (s.takeSlot).fatal = s.fatal := rfl
@[simp] theorem State.takeSlot_sixth : (s.takeSlot).sixth = s.sixth := rfl
@[simp] theorem State.takeSlot_attention : (s.takeSlot).attention = s.attention := rfl
@[simp] theorem State.takeSlot_faults : (s.takeSlot).faults = s.faults := rfl
@[simp] theorem State.takeSlot_faultsDropped : (s.takeSlot).faultsDropped = s.faultsDropped := rfl
@[simp] theorem State.takeSlot_readerRuns : (s.takeSlot).readerRuns = s.readerRuns := rfl
@[simp] theorem State.takeSlot_offlineAt : (s.takeSlot).offlineAt = s.offlineAt := rfl
@[simp] theorem State.takeSlot_van : (s.takeSlot).van = s.van := rfl
@[simp] theorem State.takeSlot_directives : (s.takeSlot).directives = s.directives := rfl
@[simp] theorem State.takeSlot_link : (s.takeSlot).link = s.link := rfl

/-! ### returnSlot -/

@[simp] theorem State.returnSlot_pending : (s.returnSlot).pending = s.pending := rfl
@[simp] theorem State.returnSlot_power : (s.returnSlot).power = s.power := rfl
@[simp] theorem State.returnSlot_elapsed : (s.returnSlot).elapsed = s.elapsed := rfl
@[simp] theorem State.returnSlot_clock : (s.returnSlot).clock = s.clock := rfl
@[simp] theorem State.returnSlot_store : (s.returnSlot).store = s.store := rfl
@[simp] theorem State.returnSlot_stationId : (s.returnSlot).stationId = s.stationId := rfl
@[simp] theorem State.returnSlot_strings : (s.returnSlot).strings = s.strings := rfl
@[simp] theorem State.returnSlot_nodes : (s.returnSlot).nodes = s.nodes := rfl
@[simp] theorem State.returnSlot_docks : (s.returnSlot).docks = s.docks := rfl
@[simp] theorem State.returnSlot_censusLimit : (s.returnSlot).censusLimit = s.censusLimit := rfl
@[simp] theorem State.returnSlot_censusReported : (s.returnSlot).censusReported = s.censusReported := rfl
@[simp] theorem State.returnSlot_hireExamAt : (s.returnSlot).hireExamAt = s.hireExamAt := rfl
@[simp] theorem State.returnSlot_passExamAt : (s.returnSlot).passExamAt = s.passExamAt := rfl
@[simp] theorem State.returnSlot_codePosition : (s.returnSlot).codePosition = s.codePosition := rfl
@[simp] theorem State.returnSlot_setAside : (s.returnSlot).setAside = s.setAside - 1 := rfl
@[simp] theorem State.returnSlot_replySlot : (s.returnSlot).replySlot = s.replySlot := rfl
@[simp] theorem State.returnSlot_backhaul : (s.returnSlot).backhaul = s.backhaul := rfl
@[simp] theorem State.returnSlot_fatal : (s.returnSlot).fatal = s.fatal := rfl
@[simp] theorem State.returnSlot_sixth : (s.returnSlot).sixth = s.sixth := rfl
@[simp] theorem State.returnSlot_attention : (s.returnSlot).attention = s.attention := rfl
@[simp] theorem State.returnSlot_faults : (s.returnSlot).faults = s.faults := rfl
@[simp] theorem State.returnSlot_faultsDropped : (s.returnSlot).faultsDropped = s.faultsDropped := rfl
@[simp] theorem State.returnSlot_readerRuns : (s.returnSlot).readerRuns = s.readerRuns := rfl
@[simp] theorem State.returnSlot_offlineAt : (s.returnSlot).offlineAt = s.offlineAt := rfl
@[simp] theorem State.returnSlot_van : (s.returnSlot).van = s.van := rfl
@[simp] theorem State.returnSlot_directives : (s.returnSlot).directives = s.directives := rfl
@[simp] theorem State.returnSlot_link : (s.returnSlot).link = s.link := rfl

/-! ### putRun -/

@[simp] theorem State.putRun_pending (d n : Nat) : (s.putRun d n).pending = s.pending := rfl
@[simp] theorem State.putRun_power (d n : Nat) : (s.putRun d n).power = s.power := rfl
@[simp] theorem State.putRun_elapsed (d n : Nat) : (s.putRun d n).elapsed = s.elapsed := rfl
@[simp] theorem State.putRun_clock (d n : Nat) : (s.putRun d n).clock = s.clock := rfl
@[simp] theorem State.putRun_store (d n : Nat) : (s.putRun d n).store = s.store := rfl
@[simp] theorem State.putRun_stationId (d n : Nat) : (s.putRun d n).stationId = s.stationId := rfl
@[simp] theorem State.putRun_strings (d n : Nat) : (s.putRun d n).strings = s.strings := rfl
@[simp] theorem State.putRun_nodes (d n : Nat) : (s.putRun d n).nodes = s.nodes := rfl
@[simp] theorem State.putRun_docks (d n : Nat) : (s.putRun d n).docks = s.docks := rfl
@[simp] theorem State.putRun_censusLimit (d n : Nat) : (s.putRun d n).censusLimit = s.censusLimit := rfl
@[simp] theorem State.putRun_censusReported (d n : Nat) : (s.putRun d n).censusReported = s.censusReported := rfl
@[simp] theorem State.putRun_hireExamAt (d n : Nat) : (s.putRun d n).hireExamAt = s.hireExamAt := rfl
@[simp] theorem State.putRun_passExamAt (d n : Nat) : (s.putRun d n).passExamAt = s.passExamAt := rfl
@[simp] theorem State.putRun_codePosition (d n : Nat) : (s.putRun d n).codePosition = s.codePosition := rfl
@[simp] theorem State.putRun_setAside (d n : Nat) : (s.putRun d n).setAside = s.setAside := rfl
@[simp] theorem State.putRun_replySlot (d n : Nat) : (s.putRun d n).replySlot = s.replySlot := rfl
@[simp] theorem State.putRun_backhaul (d n : Nat) : (s.putRun d n).backhaul = s.backhaul := rfl
@[simp] theorem State.putRun_fatal (d n : Nat) : (s.putRun d n).fatal = s.fatal := rfl
@[simp] theorem State.putRun_sixth (d n : Nat) : (s.putRun d n).sixth = s.sixth := rfl
@[simp] theorem State.putRun_attention (d n : Nat) : (s.putRun d n).attention = s.attention := rfl
@[simp] theorem State.putRun_faults (d n : Nat) : (s.putRun d n).faults = s.faults := rfl
@[simp] theorem State.putRun_faultsDropped (d n : Nat) : (s.putRun d n).faultsDropped = s.faultsDropped := rfl
@[simp] theorem State.putRun_readerRuns (d n : Nat) : (s.putRun d n).readerRuns = setEntry s.readerRuns d n := rfl
@[simp] theorem State.putRun_offlineAt (d n : Nat) : (s.putRun d n).offlineAt = s.offlineAt := rfl
@[simp] theorem State.putRun_van (d n : Nat) : (s.putRun d n).van = s.van := rfl
@[simp] theorem State.putRun_directives (d n : Nat) : (s.putRun d n).directives = s.directives := rfl
@[simp] theorem State.putRun_link (d n : Nat) : (s.putRun d n).link = s.link := rfl

/-! ### A written region -/

@[simp] theorem Region.write_cur {α : Type} (r : Region α) (v : α) : (r.write v).cur = v := rfl
@[simp] theorem Region.write_old {α : Type} (r : Region α) (v : α) : (r.write v).old = r.cur := rfl
@[simp] theorem Region.write_curSound {α : Type} (r : Region α) (v : α) : (r.write v).curSound = true := rfl
@[simp] theorem Region.write_oldSound {α : Type} (r : Region α) (v : α) : (r.write v).oldSound = r.curSound := rfl

end Sys2Proof.Machine
end

