-- ==== Sys2Proof/Laws/Finish.lean ====
section
/-! SUPPORT. What follows every command leaves the steady view of a state as it was (R22, R167, R188), and what a request
row does in a part that is ready for it (R184). -/

namespace Sys2Proof.Machine

/-! ### Tables numbered from 1 -/

/-- An entry replaced by one that a map cannot tell from it leaves the mapped table as it was. -/
theorem map_setEntry_same {α β : Type} (f : α → β) (l : List α) (n : Nat) (x y : α)
    (h : f y = f ((entryAt l n).getD x)) : (setEntry l n y).map f = l.map f := by
  unfold setEntry
  split
  · rfl
  · rename_i hn
    apply List.ext_getElem
    · simp
    · intro i h1 h2
      simp only [List.getElem_map, List.getElem_set]
      split
      · rename_i hi
        subst hi
        rw [h]
        simp only [entryAt, hn, if_false]
        rw [List.getElem?_eq_getElem (by simpa using h2)]
        rfl
      · rfl

@[simp] theorem length_setEntry {α : Type} (l : List α) (n : Nat) (x : α) : (setEntry l n x).length = l.length := by
  unfold setEntry; split <;> simp

/-- The entry replaced is read back; another is read as before. -/
theorem entryAt_setEntry {α : Type} (l : List α) (n m : Nat) (x : α) :
    entryAt (setEntry l n x) m = if m = n ∧ (entryAt l n).isSome then some x else entryAt l m := by
  unfold entryAt setEntry
  by_cases hm : m = 0
  · subst hm
    by_cases hn : n = 0
    · simp [hn]
    · have : ¬ (0 = n) := fun h => hn h.symm
      simp [this]
  · by_cases hn : n = 0
    · simp [hn, hm]
    · simp only [hm, hn, if_false, List.getElem?_set]
      by_cases h : m = n
      · subst h
        by_cases hl : m - 1 < l.length
        · simp [hl]
        · simp [hl]
      · have : ¬ (n - 1 = m - 1) := by omega
        simp [h, this]

/-! ### The command lists -/

@[simp] theorem Node.bare_promote (n : Node) : n.promote.bare = n.bare := by
  unfold Node.promote; split <;> rfl

@[simp] theorem Node.bare_place (n : Node) (c : Command) : (n.place c).bare = n.bare := by
  unfold Node.place
  rw [Node.bare_promote]
  rfl

@[simp] theorem State.onDropped_eq (s : State) (d : Nat) (c : Command) (x : CommandResult) : s.onDropped d c x = s := rfl

/-- A function that leaves every state as it is leaves it so over a list. -/
theorem foldl_same {α β : Type} (f : α → β → α) (h : ∀ a b, f a b = a) (l : List β) (a : α) : l.foldl f a = a := by
  induction l with
  | nil => rfl
  | cons b l ih => rw [List.foldl_cons, h, ih]

@[simp] theorem State.reportReplaced_eq (s : State) (d : Nat) (c : Command) : s.reportReplaced d c = s :=
  foldl_same _ (fun _ _ => rfl) _ s

/-- What issuing a command leaves: a report of a command given up changes nothing (R9, R25). -/
theorem State.issue_eq (s : State) (d : Nat) (c : Command) :
    s.issue d c =
      if (s.dock d).configured ∧ (s.node d).phase = .answering then s.putNode d ((s.node d).place c) else s := by
  unfold State.issue State.returnsCommand
  by_cases h1 : (s.dock d).configured = true <;> by_cases h2 : (s.node d).phase = .answering <;> simp [h1, h2]

/-- What an abandonment leaves: the command list is empty (R7, R8, R16). -/
theorem State.abandonCommands_eq (s : State) (d : Nat) (cause : AbandonCause) :
    s.abandonCommands d cause = s.putNode d (s.node d).abandon :=
  foldl_same _ (fun _ _ => rfl) _ _

/-- Putting a node that differs in its command list only leaves the steady view. -/
theorem State.putNode_steady (s : State) (d : Nat) (n : Node) (h : n.bare = (s.node d).bare) :
    (s.putNode d n).steady = s.steady := by
  have := map_setEntry_same Node.bare s.nodes d (Node.atStart 0) n h
  simp [State.steady, State.putNode, this]

@[simp] theorem State.issue_steady (s : State) (d : Nat) (c : Command) : (s.issue d c).steady = s.steady := by
  rw [State.issue_eq]
  split
  · exact s.putNode_steady d _ (by simp)
  · rfl

/-- The indication issued last is no part of the steady view. -/
theorem State.dress_steady (s : State) (d : Nat) (i : Option Indication) :
    ({ s with docks := setEntry s.docks d { s.dock d with shown := i } } : State).steady = s.steady := by
  have := map_setEntry_same (fun x : Dock => { x with shown := none }) s.docks d (Dock.atStart false)
    { s.dock d with shown := i } rfl
  simp [State.steady, this]

@[simp] theorem State.showResting_steady (s : State) (d : Nat) : (s.showResting d).steady = s.steady := by
  unfold State.showResting
  dsimp only
  split
  · rw [State.issue_steady, State.dress_steady]
  · rfl

/-- A view that each step of a fold keeps is kept by the fold. -/
theorem foldl_keeps {α β γ : Type} (f : β → α → β) (v : β → γ) (h : ∀ b a, v (f b a) = v b) (l : List α) (b : β) :
    v (l.foldl f b) = v b := by
  induction l generalizing b with
  | nil => rfl
  | cons a l ih => rw [List.foldl_cons, ih, h]

@[simp] theorem State.showAll_steady (s : State) : s.showAll.steady = s.steady :=
  foldl_keeps State.showResting State.steady State.showResting_steady dockNumbers s

@[simp] theorem State.raise_steady (s : State) (k : NoticeKind) : (s.raise k).steady = s.steady := by
  simp [State.steady, State.raise, State.withMarks]

@[simp] theorem State.raiseReady_steady (s b : State) : (s.raiseReady b).steady = s.steady := by
  unfold State.raiseReady; split <;> simp

@[simp] theorem State.chooseFrame_steady (s : State) : s.chooseFrame.steady = s.steady := by
  unfold State.chooseFrame
  split <;> simp [State.steady, State.putLink]

/-- What follows every command leaves the steady view as it was. -/
@[simp] theorem State.finish_steady (s b : State) : (s.finish b).steady = s.steady := by
  simp [State.finish]

/-- The steady view keeps the power. -/
theorem power_of_steady {s t : State} (h : s.steady = t.steady) : s.power = t.power := by
  have := congrArg State.power h
  simpa [State.steady] using this

/-- A running part whose command leaves it running. -/
theorem State.running_steady {s : State} {f : State → State} (hs : s.power = .running) (hf : (f s).power = .running) :
    (s.running f).steady = (f s).steady := by
  simp [State.running, hs, hf]

/-! ### Records discarded and hires struck off -/

/-- Where no bike is recorded, none is discarded. -/
@[simp] theorem State.vacated_none {s : State} {d : Nat} (h : (s.dock d).bike = none) (reason : EarlyReason) :
    s.vacated d reason = s := by
  simp [State.vacated, h]

/-- A record discarded is the record of the state that its early finalise leaves, taken out (R18). -/
theorem State.vacated_some {s : State} {d : Nat} {b : Bike} (h : (s.dock d).bike = some b) (reason : EarlyReason) :
    s.vacated d reason =
      (s.settleDock d reason).putDock d { (s.settleDock d reason).dock d with bike := none } := by
  simp [State.vacated, h]

/-- A reference that no open hire has strikes off nothing (R57). -/
@[simp] theorem State.struckOff_none {s : State} {ref : HireRef} (h : s.hireOf ref = none) : s.struckOff ref = s := by
  simp [State.struckOff, h]

/-! ### Requests -/

/-- A discarded frame in whose bytes no whole frame stands leaves nothing behind (R182). -/
theorem State.searchAgain_quiet {s : State} (h : s.link.buried = []) :
    s.searchAgain = { s with link := { s.link with receiving := [] } } := by
  simp [State.searchAgain, h, State.takeFrames, State.putLink]

/-- With no byte of an unfinished frame at hand, none is discarded. -/
@[simp] theorem Link.buried_of_idle {l : Link} (h : l.receiving = []) : l.buried = [] := by
  simp [Link.buried, h, receive]

/-- A request at a ready part: the owner acts on the part while the link holds the request, and its reply is made (R184). -/
theorem State.receiveRequest_ready {s : State} (h : s.ready) (tag : Nat) (r : Request) :
    s.receiveRequest tag r =
      let held : State := { s with link := { s.link with receiving := [], holding := [⟨tag, r, none⟩] } }
      let done := own r held
      { done.1 with link := { done.1.link with holding := setReply done.2 done.1.link.holding } } := by
  have h0 : s.link.holding = [] := h.2.1
  simp [State.receiveRequest, State.searchAgain_quiet h.2.2, State.takeRequest, State.putLink, h0, State.handOn, Config.holdingPlaces]

end Sys2Proof.Machine
end

