-- ==== Sys2Proof/Laws/Flow.lean ====
section
/-! SUPPORT. Everything the blocks behind the link can do to the part, said once: `Flow a s` says that `s` comes from `a` by
the updates the blocks make, each within its bounds. Laws of the whole part are proved over these updates, and one lemma for
each block function says that the function is made of them. -/

namespace Sys2Proof.Machine

/-- `s` comes from `a` by updates that the blocks make. -/
inductive Flow (a : State) : State → Prop
  | refl : Flow a a
  | post {s : State} (h : Flow a s) (b : Body) : Flow a (s.post b)
  | putTariffs {s : State} (h : Flow a s) (v : TariffSet) : Flow a (s.putTariffs v)
  | putDenied {s : State} (h : Flow a s) (v : List Nat) : Flow a (s.putDenied v)
  | putHires {s : State} (h : Flow a s) (v : List OpenHire) : Flow a (s.putHires v)
  | putHireCount {s : State} (h : Flow a s) (v : Nat) : Flow a (s.putHireCount v)
  | putPass {s : State} (h : Flow a s) (slot : Nat) (p : Option Pass) : Flow a (s.putPass slot p)
  | sold {s : State} (h : Flow a s) (v : PassRegion) (hv : v.slots.length = s.store.passes.cur.slots.length) :
      Flow a ((s.putPasses v).raise .passState)
  | putSettle {s : State} (h : Flow a s) (v : SettleRegion)
      (hv : v.entries.length ≤ max a.entries.length Config.settlePlaces) : Flow a (s.putSettle v)
  | raise {s : State} (h : Flow a s) (k : NoticeKind) : Flow a (s.raise k)
  | putDock {s : State} (h : Flow a s) (d : Nat) (x : Dock) (hx : x.configured = (s.dock d).configured) :
      Flow a (s.putDock d x)
  | dress {s : State} (h : Flow a s) (ds : List Dock) (hs : ds.map Dock.share = s.docks.map Dock.share)
      (hc : ds.map Dock.configured = s.docks.map Dock.configured) : Flow a { s with docks := ds }
  | nodes {s : State} (h : Flow a s) (ns : List Node) (hn : ns.length = s.nodes.length) : Flow a { s with nodes := ns }
  | putVan {s : State} (h : Flow a s) (v : Van)
      (hv : v.moves.length ≤ s.van.moves.length ∨ v.moves.length ≤ Config.movePlaces) : Flow a (s.putVan v)
  | van {s : State} (h : Flow a s) (v : Van)
      (hv : v.moves.length ≤ s.van.moves.length ∨ v.moves.length ≤ Config.movePlaces)
      (hs : (v.phase, v.session, v.manifest) = (s.van.phase, s.van.session, s.van.manifest)) :
      Flow a { s with van := v }
  | attention {s : State} (h : Flow a s) (x : Attention) :
      Flow a (({ s with attention := x } : State).raise .attention)
  | faults {s : State} (h : Flow a s) (fs : List FaultRecord) (n : Nat)
      (hf : fs.length ≤ s.faults.length ∨ fs.length ≤ Config.faultPlaces) :
      Flow a { s with faults := fs, faultsDropped := n }
  | runs {s : State} (h : Flow a s) (rs : List Nat) (hr : rs.length = s.readerRuns.length) :
      Flow a { s with readerRuns := rs }
  | offline {s : State} (h : Flow a s) (os : List (Option Nat)) (ho : os.length = s.offlineAt.length) :
      Flow a { s with offlineAt := os }
  | sixth {s : State} (h : Flow a s) (x : List SixthRecord) : Flow a { s with sixth := x }
  | setAside {s : State} (h : Flow a s) (n : Nat) : Flow a { s with setAside := n }
  | replySlot {s : State} (h : Flow a s) (n : Nat) : Flow a { s with replySlot := n }
  | directives {s : State} (h : Flow a s) (ds : List Directive) (hd : ds.length ≤ s.directives.length) :
      Flow a { s with directives := ds }
  | codePosition {s : State} (h : Flow a s) (n : Nat) : Flow a { s with codePosition := n }
  | strings {s : State} (h : Flow a s) (ls : List StringLine)
      (hl : ls.map StringLine.count = s.strings.map StringLine.count) : Flow a { s with strings := ls }
  | censusLimit {s : State} (h : Flow a s) (t : Option Nat) : Flow a { s with censusLimit := t }
  | censusReported {s : State} (h : Flow a s) (b : Bool) : Flow a { s with censusReported := b }
  | hireExamAt {s : State} (h : Flow a s) (n : Nat) : Flow a { s with hireExamAt := n }
  | passExamAt {s : State} (h : Flow a s) (n : Nat) : Flow a { s with passExamAt := n }

/-! ### What such updates keep -/

/-- What no block behind the link changes but at its own request or at a start-up: power, time, the station id, the settings,
the plans, the backhaul, the fatal count, the link but for its marks, the configuration, the table sizes, and the number of
SENT records. -/
structure Spine where
  power : Power
  elapsed : Nat
  clock : Clock
  stationId : Nat
  settings : Region SettingsRegion
  plans : Region (List Plan)
  backhaul : Backhaul
  fatal : Nat
  link : Link
  configured : List Bool
  counts : List Nat
  nodes : Nat
  runs : Nat
  offline : Nat
  slots : Nat
  sent : Nat

/-- The spine of a state. -/
def State.spine (s : State) : Spine :=
  { power := s.power, elapsed := s.elapsed, clock := s.clock, stationId := s.stationId, settings := s.store.settings
    plans := s.store.plans, backhaul := s.backhaul, fatal := s.fatal, link := { s.link with marks := .none }
    configured := s.docks.map Dock.configured, counts := s.strings.map StringLine.count, nodes := s.nodes.length
    runs := s.readerRuns.length, offline := s.offlineAt.length, slots := s.store.passes.cur.slots.length
    sent := s.recordsIn .sent }

@[simp] theorem State.post_spine (s : State) (b : Body) : (s.post b).spine = s.spine := by
  unfold State.post
  dsimp only
  split <;> simp [State.spine, State.recordsIn, State.records]

theorem State.putDock_docks (s : State) (d : Nat) (x : Dock) : (s.putDock d x).docks = setEntry s.docks d x := by
  unfold State.putDock; split <;> rfl

theorem State.putDock_spine (s : State) (d : Nat) (x : Dock) (hx : x.configured = (s.dock d).configured) :
    (s.putDock d x).spine = s.spine := by
  have h : (setEntry s.docks d x).map Dock.configured = s.docks.map Dock.configured := by
    unfold setEntry
    split
    · rfl
    · rename_i hn
      apply List.ext_getElem
      · simp
      · intro i h1 h2
        simp only [List.getElem_map, List.getElem_set]
        split
        · rename_i hi
          subst hi
          rw [hx, State.dock]
          simp only [entryAt, hn, if_false]
          rw [List.getElem?_eq_getElem (by simpa using h2)]
          rfl
        · rfl
  unfold State.putDock
  dsimp only
  split <;> simp [State.spine, h, State.raise, State.withMarks, State.recordsIn, State.records]

/-- No update of a block changes the spine. -/
theorem Flow.spine {a s : State} (h : Flow a s) : s.spine = a.spine := by
  induction h with
  | refl => rfl
  | post _ b ih => simpa using ih
  | putPass _ slot p ih =>
    rw [← ih]
    unfold State.putPass
    dsimp only
    split <;> simp [State.spine, State.recordsIn, State.records]
  | sold _ v hv ih => rw [← ih]; simp [State.spine, State.recordsIn, State.records, hv]
  | putDock _ d x hx ih => rw [← ih]; exact State.putDock_spine _ d x hx
  | dress _ ds hs hc ih => rw [← ih]; simp [State.spine, State.recordsIn, State.records, hc]
  | putVan _ v hv ih =>
    rw [← ih]
    unfold State.putVan
    dsimp only
    split <;> simp [State.spine, State.recordsIn, State.records]
  | nodes _ ns hn ih => rw [← ih]; simp [State.spine, State.recordsIn, State.records, hn]
  | runs _ rs hr ih => rw [← ih]; simp [State.spine, State.recordsIn, State.records, hr]
  | offline _ os ho ih => rw [← ih]; simp [State.spine, State.recordsIn, State.records, ho]
  | strings _ ls hl ih => rw [← ih]; simp [State.spine, State.recordsIn, State.records, hl]
  | _ => rename_i ih; rw [← ih]; simp [State.spine, State.recordsIn, State.records]

@[simp] theorem State.post_entries (s : State) (b : Body) : (s.post b).entries = s.entries := by
  unfold State.post; dsimp only; split <;> rfl
@[simp] theorem State.post_faults (s : State) (b : Body) : (s.post b).faults = s.faults := by
  unfold State.post; dsimp only; split <;> rfl
@[simp] theorem State.post_van (s : State) (b : Body) : (s.post b).van = s.van := by
  unfold State.post; dsimp only; split <;> rfl
@[simp] theorem State.post_directives (s : State) (b : Body) : (s.post b).directives = s.directives := by
  unfold State.post; dsimp only; split <;> rfl
@[simp] theorem State.post_docks (s : State) (b : Body) : (s.post b).docks = s.docks := by
  unfold State.post; dsimp only; split <;> rfl
@[simp] theorem State.post_link (s : State) (b : Body) : (s.post b).link = s.link := by
  unfold State.post; dsimp only; split <;> rfl
@[simp] theorem State.post_attention (s : State) (b : Body) : (s.post b).attention = s.attention := by
  unfold State.post; dsimp only; split <;> rfl
@[simp] theorem State.post_slots (s : State) (b : Body) : (s.post b).store.passes = s.store.passes := by
  unfold State.post; dsimp only; split <;> rfl

/-- The settle list never grows past its places, or past what it held. -/
theorem Flow.entries_le {a s : State} (h : Flow a s) : s.entries.length ≤ max a.entries.length Config.settlePlaces := by
  induction h with
  | refl => exact Nat.le_max_left _ _
  | post _ b ih => simpa using ih
  | putPass _ slot p ih =>
    unfold State.putPass
    dsimp only
    split <;> simpa [State.entries] using ih
  | putSettle _ v hv ih => exact hv
  | putDock _ d x hx ih =>
    unfold State.putDock
    dsimp only
    split <;> simpa [State.entries] using ih
  | putVan _ v hv ih =>
    unfold State.putVan
    dsimp only
    split <;> exact ih
  | _ => rename_i ih; exact ih

/-- The updates keep the bounds. -/
theorem Flow.bounded {a s : State} (h : Flow a s) (ha : a.bounded) : s.bounded := by
  induction h with
  | refl => exact ha
  | post _ b ih =>
    unfold State.post
    dsimp only
    split <;> exact ih
  | putPass _ slot p ih =>
    unfold State.putPass
    dsimp only
    split <;> exact ih
  | putSettle _ v hv ih =>
    exact ⟨Nat.le_trans hv (Nat.max_le.2 ⟨ha.1, Nat.le_refl _⟩), ih.1, ih.2.2⟩
  | putDock _ d x hx ih =>
    unfold State.putDock
    dsimp only
    split <;> exact ih
  | putVan _ v hv ih =>
    obtain ⟨h1, h0, h2, h3, h4⟩ := ih
    have h5 : v.moves.length ≤ Config.movePlaces := by
      rcases hv with hv | hv
      · exact Nat.le_trans hv h3
      · exact hv
    unfold State.putVan
    dsimp only
    split <;> exact ⟨h1, h0, h2, h5, h4⟩
  | van _ v hv hs ih =>
    obtain ⟨h1, h0, h2, h3, h4⟩ := ih
    refine ⟨h1, h0, h2, ?_, h4⟩
    rcases hv with hv | hv
    · exact Nat.le_trans hv h3
    · exact hv
  | faults _ fs n hf ih =>
    obtain ⟨h1, h0, h2, h3⟩ := ih
    refine ⟨h1, h0, ?_, h3⟩
    rcases hf with hf | hf
    · exact Nat.le_trans hf h2
    · exact hf
  | directives _ ds hd ih =>
    obtain ⟨h1, h0, h2, h3, h4⟩ := ih
    exact ⟨h1, h0, h2, h3, Nat.le_trans hd h4⟩
  | _ => rename_i ih; exact ih

/-- The updates keep the sizes of the tables. -/
theorem Flow.sized {a s : State} (h : Flow a s) (ha : a.sized) : s.sized := by
  induction h with
  | refl => exact ha
  | post _ b ih =>
    unfold State.post
    dsimp only
    split <;> exact ih
  | putPass _ slot p ih =>
    obtain ⟨h1, h2, h3, h4, h5, h6, h7, h8⟩ := ih
    unfold State.putPass
    dsimp only
    split <;> exact ⟨h1, h2, h3, h4, h5, by simpa using h6, h6, h8⟩
  | sold _ v hv ih =>
    obtain ⟨h1, h2, h3, h4, h5, h6, h7, h8⟩ := ih
    exact ⟨h1, h2, h3, h4, h5, hv.trans h6, h6, h8⟩
  | putDock _ d x hx ih =>
    obtain ⟨h1, h2⟩ := ih
    unfold State.putDock
    dsimp only
    split <;> exact ⟨by simpa using h1, h2⟩
  | dress _ ds hs hc ih =>
    obtain ⟨h1, h2⟩ := ih
    refine ⟨?_, h2⟩
    have := congrArg List.length hc
    simpa [h1] using this
  | nodes _ ns hn ih => exact ⟨ih.1, hn.trans ih.2.1, ih.2.2⟩
  | strings _ ls hl ih =>
    refine ⟨ih.1, ih.2.1, ?_, ih.2.2.2⟩
    have := congrArg List.length hl
    simpa [ih.2.2.1] using this
  | runs _ rs hr ih => exact ⟨ih.1, ih.2.1, ih.2.2.1, hr.trans ih.2.2.2.1, ih.2.2.2.2⟩
  | offline _ os ho ih => exact ⟨ih.1, ih.2.1, ih.2.2.1, ih.2.2.2.1, ho.trans ih.2.2.2.2.1, ih.2.2.2.2.2⟩
  | putVan _ v hv ih =>
    unfold State.putVan
    dsimp only
    split <;> exact ih
  | _ => rename_i ih; exact ih

/-- What the notices DOCK_STATE, PASS_STATE, ATTENTION and VAN_STATE watch (R20, R76, R126, R139, R150). -/
def State.watched (s : State) :
    List (DockState × Bool × Bool × Bool × Bool) × List (Option PassState) × Attention × VanPhase × Nat ×
      List ManifestEntry :=
  (s.docks.map Dock.share, s.store.passes.cur.slots.map (fun p => p.map (fun q => q.state)), s.attention, s.van.phase,
    s.van.session, s.van.manifest)

/-- From `a` to `s` no pending mark is lost, and a change of what a notice watches has set the mark of that notice. -/
def Noticed (a s : State) : Prop :=
  (∀ k, a.link.marks.has k = true → s.link.marks.has k = true) ∧
    (s.watched.1 = a.watched.1 ∨ s.link.marks.dockState = true) ∧
    (s.watched.2.1 = a.watched.2.1 ∨ s.link.marks.passState = true) ∧
    (s.watched.2.2.1 = a.watched.2.2.1 ∨ s.link.marks.attention = true) ∧
    (s.watched.2.2.2 = a.watched.2.2.2 ∨ s.link.marks.vanState = true)

theorem Marks.has_put (m : Marks) (j k : NoticeKind) : (m.put j true).has k = (k == j || m.has k) := by
  cases j <;> cases k <;> rfl

/-- A step between states with the same marks and the same watched parts keeps what has been noticed. -/
theorem Noticed.same {a s t : State} (h : Noticed a s) (hm : t.link.marks = s.link.marks) (hw : t.watched = s.watched) :
    Noticed a t := by
  simpa [Noticed, hm, hw] using h

/-- Raising a kind keeps what has been noticed. -/
theorem Noticed.raise {a s : State} (h : Noticed a s) (k : NoticeKind) : Noticed a (s.raise k) := by
  obtain ⟨h1, h2, h3, h4, h5⟩ := h
  refine ⟨fun j hj => ?_, ?_, ?_, ?_, ?_⟩
  · simp [Marks.has_put, h1 j hj]
  · cases k <;> simp_all [State.watched, Marks.put]
  · cases k <;> simp_all [State.watched, Marks.put]
  · cases k <;> simp_all [State.watched, Marks.put]
  · cases k <;> simp_all [State.watched, Marks.put]

theorem State.putDock_noticed {a s : State} (h : Noticed a s) (d : Nat) (x : Dock) : Noticed a (s.putDock d x) := by
  unfold State.putDock
  dsimp only
  split
  · rename_i he
    refine h.same rfl ?_
    have := map_setEntry_same Dock.share s.docks d (Dock.atStart false) x he.symm
    simp [State.watched, this]
  · obtain ⟨h1, h2, h3, h4, h5⟩ := h
    refine ⟨fun j hj => ?_, ?_, ?_, ?_, ?_⟩
    · simp [Marks.has_put, h1 j hj]
    · simp [Marks.put]
    · simpa [State.watched, Marks.put] using h3
    · simpa [State.watched, Marks.put] using h4
    · simpa [State.watched, Marks.put] using h5

/-- Every update that changes what a notice watches sets its mark. -/
theorem Flow.noticed {a s : State} (h : Flow a s) : Noticed a s := by
  induction h with
  | refl => exact ⟨fun _ h => h, .inl rfl, .inl rfl, .inl rfl, .inl rfl⟩
  | post _ b ih => exact ih.same (by simp) (by simp [State.watched])
  | putPass _ slot p ih =>
    rename_i s _
    unfold State.putPass
    dsimp only
    split
    · rename_i he
      refine ih.same rfl ?_
      have := map_setEntry_same (fun p : Option Pass => p.map (fun q => q.state)) s.store.passes.cur.slots slot none p
        (by rw [← he, State.pass]; cases entryAt s.store.passes.cur.slots slot <;> rfl)
      simp [State.watched, this]
    · obtain ⟨h1, h2, h3, h4, h5⟩ := ih
      refine ⟨fun j hj => ?_, ?_, ?_, ?_, ?_⟩
      · simp [Marks.has_put, h1 j hj]
      · simpa [State.watched, Marks.put] using h2
      · simp [Marks.put]
      · simpa [State.watched, Marks.put] using h4
      · simpa [State.watched, Marks.put] using h5
  | sold _ v hv ih =>
    obtain ⟨h1, h2, h3, h4, h5⟩ := ih
    refine ⟨fun j hj => ?_, ?_, ?_, ?_, ?_⟩
    · simp [Marks.has_put, h1 j hj]
    · simpa [State.watched, Marks.put] using h2
    · simp [Marks.put]
    · simpa [State.watched, Marks.put] using h4
    · simpa [State.watched, Marks.put] using h5
  | raise _ k ih => exact ih.raise k
  | putDock _ d x hx ih => exact State.putDock_noticed ih d x
  | dress _ ds hs hc ih => exact ih.same rfl (by simp [State.watched, hs])
  | putVan _ v hv ih =>
    unfold State.putVan
    dsimp only
    split
    · rename_i he
      exact ih.same rfl (by simp [State.watched, he.1, he.2.1, he.2.2])
    · obtain ⟨h1, h2, h3, h4, h5⟩ := ih
      refine ⟨fun j hj => ?_, ?_, ?_, ?_, ?_⟩
      · simp [Marks.has_put, h1 j hj]
      · simpa [State.watched, Marks.put] using h2
      · simpa [State.watched, Marks.put] using h3
      · simpa [State.watched, Marks.put] using h4
      · simp [Marks.put]
  | van _ v hv hs ih =>
    refine ih.same rfl ?_
    simp only [Prod.mk.injEq] at hs
    simp [State.watched, hs.1, hs.2.1, hs.2.2]
  | attention _ x ih =>
    obtain ⟨h1, h2, h3, h4, h5⟩ := ih
    refine ⟨fun j hj => ?_, ?_, ?_, ?_, ?_⟩
    · simp [Marks.has_put, h1 j hj]
    · simpa [State.watched, Marks.put] using h2
    · simpa [State.watched, Marks.put] using h3
    · simp [Marks.put]
    · simpa [State.watched, Marks.put] using h5
  | _ => rename_i ih; exact ih.same rfl rfl

end Sys2Proof.Machine
end

