-- ==== Sys2Proof/Laws/FlowBlocks.lean ====
section
/-! SUPPORT. One lemma for each function of the blocks behind the link: it is made of the updates of `Flow`. -/

namespace Sys2Proof.Machine


/-! ### Ops -/

theorem State.putNode_flow {a s : State} (hs : Flow a s) (d : Nat) (n : Node) : Flow a (State.putNode s d n) := by
  unfold State.putNode
  try dsimp only
  all_goals (repeat' first | exact hs | apply Flow.nodes)
  all_goals first | rfl | simp

theorem State.markSettling_flow {a s : State} (hs : Flow a s) (d : Nat) (b : Bool) : Flow a (State.markSettling s d b) := by
  unfold State.markSettling
  try dsimp only
  all_goals (repeat' first | exact hs | apply Flow.putDock)
  all_goals rfl

theorem State.takeSlot_flow {a s : State} (hs : Flow a s) : Flow a (State.takeSlot s) := by
  unfold State.takeSlot
  try dsimp only
  all_goals (repeat' first | exact hs | apply Flow.setAside)

theorem State.returnSlot_flow {a s : State} (hs : Flow a s) : Flow a (State.returnSlot s) := by
  unfold State.returnSlot
  try dsimp only
  all_goals (repeat' first | exact hs | apply Flow.setAside)

theorem State.removeHire_flow {a s : State} (hs : Flow a s) (ref : HireRef) : Flow a (State.removeHire s ref) := by
  unfold State.removeHire
  try dsimp only
  all_goals (repeat' first | exact hs | apply Flow.putHires)

/-! ### Commands -/

theorem State.issue_flow {a s : State} (hs : Flow a s) (d : Nat) (c : Command) : Flow a (State.issue s d c) := by
  rw [State.issue_eq]
  repeat' split
  all_goals (repeat' first | exact hs | apply State.putNode_flow)

theorem State.endCommand_flow {a s : State} (hs : Flow a s) (d : Nat) : Flow a (State.endCommand s d) := by
  unfold State.endCommand
  try dsimp only
  all_goals (repeat' first | exact hs | apply State.putNode_flow)

/-- The indication issued last is watched by no notice. -/
theorem State.dress_flow {a s : State} (hs : Flow a s) (d : Nat) (i : Option Indication) :
    Flow a { s with docks := setEntry s.docks d { s.dock d with shown := i } } :=
  hs.dress _ (map_setEntry_same Dock.share s.docks d (Dock.atStart false) { s.dock d with shown := i } rfl)
    (map_setEntry_same Dock.configured s.docks d (Dock.atStart false) { s.dock d with shown := i } rfl)

theorem State.showResting_flow {a s : State} (hs : Flow a s) (d : Nat) : Flow a (State.showResting s d) := by
  unfold State.showResting
  dsimp only
  split
  · exact State.issue_flow (State.dress_flow hs d _) _ _
  · exact hs

theorem State.reissueShow_flow {a s : State} (hs : Flow a s) (d : Nat) : Flow a (State.reissueShow s d) := by
  unfold State.reissueShow
  dsimp only
  split
  · exact hs
  · exact State.issue_flow (State.dress_flow hs d _) _ _

/-- A fold whose every step flows, flows. -/
theorem Flow.foldl {α : Type} {a s : State} (f : State → α → State) (hf : ∀ s x, Flow a s → Flow a (f s x)) (l : List α)
    (hs : Flow a s) : Flow a (l.foldl f s) := by
  induction l generalizing s with
  | nil => exact hs
  | cons x l ih => exact ih (hf s x hs)

theorem State.showAll_flow {a s : State} (hs : Flow a s) : Flow a (State.showAll s) :=
  Flow.foldl State.showResting (fun _ d h => State.showResting_flow h d) dockNumbers hs

theorem State.showRefused_flow {a s : State} (hs : Flow a s) (d : Nat) : Flow a (State.showRefused s d) := by
  unfold State.showRefused
  try dsimp only
  all_goals (repeat' first | exact hs | apply State.issue_flow)

/-! ### Passes -/

theorem State.settlePass_flow {a s : State} (hs : Flow a s) (slot : Nat) : Flow a (State.settlePass s slot) := by
  unfold State.settlePass
  try dsimp only
  repeat' split
  all_goals (repeat' first | exact hs | apply Flow.post | apply Flow.putPass)

theorem State.enterSettling_flow {a s : State} (hs : Flow a s) (slot : Nat) (p : Pass) : Flow a (State.enterSettling s slot p) := by
  unfold State.enterSettling
  try dsimp only
  all_goals (repeat' first | exact hs | apply Flow.putPass | apply State.settlePass_flow)

theorem State.chargeAndMove_flow {a s : State} (hs : Flow a s) (slot : Nat) (p : Pass) (amount : Nat) : Flow a (State.chargeAndMove s slot p amount) := by
  unfold State.chargeAndMove
  try dsimp only
  repeat' split
  all_goals (repeat' first | exact hs | apply Flow.putPass | apply State.enterSettling_flow)

theorem State.chargeClose_flow {a s : State} (hs : Flow a s) (ref : HireRef) (hirer : Hirer) (fare : Nat) : Flow a (State.chargeClose s ref hirer fare).1 := by
  unfold State.chargeClose
  try dsimp only
  repeat' split
  all_goals (repeat' first | exact hs | apply State.chargeAndMove_flow)

theorem State.chargeRide_flow {a s : State} (hs : Flow a s) (slot serial : Nat) (ref : HireRef) (amount : Nat)
    {x : State × Nat × Nat × PassState} (hx : State.chargeRide s slot serial ref amount = some x) : Flow a x.1 := by
  unfold State.chargeRide at hx
  split at hx
  · cases hx
  · cases hx
    exact State.chargeAndMove_flow (State.removeHire_flow hs _) _ _ _

theorem State.passLeaves_flow {a s : State} (hs : Flow a s) (slot : Nat) (serial : Nat) (ref : HireRef) : Flow a (State.passLeaves s slot serial ref) := by
  unfold State.passLeaves
  try dsimp only
  repeat' split
  all_goals (repeat' first | exact hs | apply Flow.putPass)

theorem State.passReturns_flow {a s : State} (hs : Flow a s) (slot : Nat) (serial : Nat) (ref : HireRef) : Flow a (State.passReturns s slot serial ref) := by
  unfold State.passReturns
  try dsimp only
  repeat' split
  all_goals (repeat' first | exact hs | apply Flow.putPass)

theorem State.holdExpiry_flow {a s : State} (hs : Flow a s) (slot serial : Nat) :
    Flow a (State.holdExpiry s slot serial) := by
  refine hs.dress _ ?_ ?_ <;> simp [Function.comp_def, Dock.share, Dock.inStock, Dock.isOpen, Dock.holds]

theorem State.expirePass_flow {a s : State} (hs : Flow a s) (slot : Nat) (p : Pass) : Flow a (State.expirePass s slot p) := by
  unfold State.expirePass
  try dsimp only
  repeat' split
  all_goals (repeat' first | exact hs | apply State.enterSettling_flow | apply State.holdExpiry_flow)

theorem State.takeExpiry_flow {a s : State} (hs : Flow a s) (slot : Nat) : Flow a (State.takeExpiry s slot) := by
  unfold State.takeExpiry
  try dsimp only
  repeat' split
  all_goals (repeat' first | exact hs | apply State.expirePass_flow)

theorem State.takeHeldExpiry_flow {a s : State} (hs : Flow a s) (slot : Nat) (serial : Nat) (held : Bool) : Flow a (State.takeHeldExpiry s slot serial held) := by
  unfold State.takeHeldExpiry
  try dsimp only
  repeat' split
  all_goals (repeat' first | exact hs | apply State.expirePass_flow)

theorem State.retirePass_flow {a s : State} (hs : Flow a s) (slot : Nat) (p : Pass) (h : OpenHire) : Flow a (State.retirePass s slot p h) := by
  unfold State.retirePass
  try dsimp only
  all_goals (repeat' first | exact hs | apply Flow.post | apply State.removeHire_flow | apply State.enterSettling_flow)

theorem State.retireDue_flow {a s : State} (hs : Flow a s) (t : Nat) (l : List Nat) : Flow a (State.retireDue t l s) := by
  induction l generalizing s with
  | nil => exact hs
  | cons slot l ih =>
    unfold State.retireDue
    repeat' split
    all_goals first | exact ih hs | exact hs | exact ih (State.retirePass_flow hs _ _ _)

theorem State.examinePasses_flow {a s : State} (hs : Flow a s) : Flow a (State.examinePasses s) := by
  unfold State.examinePasses
  try dsimp only
  repeat' split
  all_goals (repeat' first | exact hs | apply State.retireDue_flow)

theorem State.sell_flow {a s : State} (hs : Flow a s) (slot terminal : Nat) (kind : PassKind) (hold : Nat)
    (authRef : List Byte) (t : Nat) : Flow a (State.sell s slot terminal kind hold authRef t).1 := by
  unfold State.sell
  dsimp only
  exact ((hs.codePosition _).sold _ (by simp)).post _

theorem ownTerminalAuth_flow {a s : State} (hs : Flow a s) (terminal : Nat) (kind : Nat) (hold : Nat) (authRef : List Byte) : Flow a (ownTerminalAuth terminal kind hold authRef s).1 := by
  unfold ownTerminalAuth
  try dsimp only
  repeat' split
  all_goals (repeat' first | exact hs | apply State.sell_flow)

theorem ownPassGet_flow {a s : State} (hs : Flow a s) (slot : Nat) : Flow a (ownPassGet slot s).1 := by
  unfold ownPassGet
  try dsimp only
  repeat' split
  all_goals (repeat' first | exact hs)

theorem ownPassCancel_flow {a s : State} (hs : Flow a s) (slot : Nat) (serial : Nat) : Flow a (ownPassCancel slot serial s).1 := by
  unfold ownPassCancel
  try dsimp only
  repeat' split
  all_goals (repeat' first | exact hs | apply State.enterSettling_flow)

/-! ### Journal -/

theorem State.postSixth_flow {a s : State} (hs : Flow a s) (r : SixthRecord) : Flow a (State.postSixth s r) := by
  unfold State.postSixth
  try dsimp only
  repeat' split
  all_goals (repeat' first | exact hs | apply Flow.putTariffs | apply Flow.post)

theorem State.makeSixth_flow {a s : State} (hs : Flow a s) (r : SixthRecord) : Flow a (State.makeSixth s r) := by
  unfold State.makeSixth
  try dsimp only
  repeat' split
  all_goals (repeat' first | exact hs | apply State.postSixth_flow | apply Flow.sixth)

theorem State.serveSixth_flow {a s : State} (hs : Flow a s) : Flow a (State.serveSixth s) := by
  unfold State.serveSixth
  try dsimp only
  repeat' split
  all_goals (repeat' first | exact hs | apply State.postSixth_flow | apply Flow.sixth)

/-! ### Fare -/

theorem ownStageBand_flow {a s : State} (hs : Flow a s) (band : Nat) (edge : Option Nat) (block : Nat) (rate : Nat) : Flow a (ownStageBand band edge block rate s).1 := by
  unfold ownStageBand
  try dsimp only
  repeat' split
  all_goals (repeat' first | exact hs | apply Flow.putTariffs)

theorem ownStageClear_flow {a s : State} (hs : Flow a s) : Flow a (ownStageClear s).1 := by
  unfold ownStageClear
  try dsimp only
  repeat' split
  all_goals (repeat' first | exact hs | apply Flow.putTariffs)

theorem State.applyCommit_flow {a s : State} (hs : Flow a s) (requested : Option Nat) : Flow a (State.applyCommit s requested) := by
  unfold State.applyCommit
  try dsimp only
  repeat' split
  all_goals (repeat' first | exact hs | apply Flow.putTariffs | apply Flow.post | apply Flow.sixth)

theorem State.applyAt_flow {a s : State} (hs : Flow a s) : Flow a (State.applyAt s) := by
  unfold State.applyAt
  try dsimp only
  repeat' split
  all_goals (repeat' first | exact hs | apply State.applyCommit_flow)

theorem ownTariffCommit_flow {a s : State} (hs : Flow a s) (mode : CommitArg) : Flow a (ownTariffCommit mode s).1 := by
  unfold ownTariffCommit
  try dsimp only
  repeat' split
  all_goals (repeat' first | exact hs | apply Flow.putTariffs | apply State.applyCommit_flow)

theorem ownTariffGet_flow {a s : State} (hs : Flow a s) (selector : Nat) : Flow a (ownTariffGet selector s).1 := by
  unfold ownTariffGet
  try dsimp only
  repeat' split
  all_goals (repeat' first | exact hs)

/-! ### Settle -/

theorem State.putEntries_flow {a s : State} (hs : Flow a s) (es : List SettleEntry)
    (he : es.length ≤ max a.entries.length Config.settlePlaces) : Flow a (State.putEntries s es) :=
  hs.putSettle _ he

theorem State.postClose_flow {a s : State} (hs : Flow a s) (i : Nat) (e : SettleEntry) (cause : FinalCause)
    (time : Option Nat) (pass : PassResult) : Flow a (State.postClose s i e cause time pass) := by
  refine (hs.post _).putSettle _ (Nat.le_trans (List.length_eraseIdx_le s.entries i) hs.entries_le)

theorem State.serveClose_flow {a s : State} (hs : Flow a s) : Flow a (State.serveClose s) := by
  unfold State.serveClose
  try dsimp only
  repeat' split
  all_goals (repeat' first | exact hs | apply State.postClose_flow)

theorem State.unmark_flow {a s : State} (hs : Flow a s) (dock : Nat) (bike : Nat) : Flow a (State.unmark s dock bike) := by
  unfold State.unmark
  try dsimp only
  repeat' split
  all_goals (repeat' first | exact hs | apply State.markSettling_flow)

theorem State.finalise_flow {a s : State} (hs : Flow a s) (i : Nat) (cause : FinalCause) :
    Flow a (State.finalise s i cause) := by
  unfold State.finalise
  split
  · exact hs
  · split
    · exact hs
    · rename_i e _ _ bike dock _ _
      dsimp only
      have h1 := State.unmark_flow (State.chargeClose_flow hs e.close.ref e.close.hirer e.finalFare) dock bike
      split
      · exact State.postClose_flow h1 _ _ _ _ _
      · exact State.putEntries_flow h1 _ (Nat.le_trans (Nat.le_of_eq List.length_set) h1.entries_le)

theorem State.finaliseBike_flow {a s : State} (hs : Flow a s) (bike : Nat) (reason : EarlyReason) : Flow a (State.finaliseBike s bike reason) := by
  unfold State.finaliseBike
  try dsimp only
  repeat' split
  all_goals (repeat' first | exact hs | apply State.finalise_flow)

theorem State.settleDock_flow {a s : State} (hs : Flow a s) (d : Nat) (reason : EarlyReason) : Flow a (State.settleDock s d reason) := by
  unfold State.settleDock
  try dsimp only
  repeat' split
  all_goals (repeat' first | exact hs | apply State.finaliseBike_flow)

theorem State.finaliseHire_flow {a s : State} (hs : Flow a s) (ref : HireRef) : Flow a (State.finaliseHire s ref) := by
  unfold State.finaliseHire
  try dsimp only
  repeat' split
  all_goals (repeat' first | exact hs | apply State.finalise_flow)

/-- The list whose oldest entry has been finalised where it was HELD. -/
theorem State.makeRoom_first {a s : State} (hs : Flow a s) :
    Flow a (if s.entries.head?.any SettleEntry.isHeld then s.finalise 0 (.earlyFinal .listFull) else s) := by
  split
  · exact State.finalise_flow hs _ _
  · exact hs

theorem State.makeRoom_flow {a s : State} (hs : Flow a s) : Flow a (State.makeRoom s) := by
  unfold State.makeRoom
  have h1 := State.makeRoom_first hs
  generalize (if s.entries.head?.any SettleEntry.isHeld then s.finalise 0 (.earlyFinal .listFull) else s) = t at h1 ⊢
  split
  · exact hs
  · dsimp only
    split
    · exact h1
    · exact h1.putSettle { entries := t.entries.tail, lost := _ }
        (Nat.le_trans (Nat.le_trans (Nat.le_of_eq List.length_tail) (Nat.sub_le _ _)) h1.entries_le)

/-- A list that has been made room in takes one entry more (R110). -/
theorem State.makeRoom_length (s : State) :
    s.makeRoom.entries.length + 1 ≤ max s.entries.length Config.settlePlaces := by
  unfold State.makeRoom
  have h1 := (State.makeRoom_first (Flow.refl (a := s))).entries_le
  generalize (if s.entries.head?.any SettleEntry.isHeld then s.finalise 0 (.earlyFinal .listFull) else s) = t at h1 ⊢
  split
  · omega
  · dsimp only
    split
    · omega
    · have h2 : ∀ l : Nat, (t.putSettle { entries := t.entries.tail, lost := l }).entries.length
          = t.entries.length - 1 := fun l => List.length_tail
      rw [h2]
      simp only [Config.settlePlaces] at *
      omega

theorem State.openEntry_flow {a s : State} (hs : Flow a s) (c : PricedClose) (bike dock : Nat) :
    Flow a (State.openEntry s c bike dock) := by
  unfold State.openEntry
  have h1 := State.finaliseBike_flow hs bike .replaced
  have h2 := h1.entries_le
  have h3 := State.makeRoom_length (s.finaliseBike bike .replaced)
  have h4 : ∀ e : SettleEntry, Flow a (((s.finaliseBike bike .replaced).makeRoom.putEntries
      ((s.finaliseBike bike .replaced).makeRoom.entries ++ [e])).markSettling dock true) := fun e =>
    State.markSettling_flow (State.putEntries_flow (State.makeRoom_flow h1) _ (by
      simp only [List.length_append, List.length_singleton]; omega)) _ _
  dsimp only
  split
  · exact State.finalise_flow (h4 _) _ _
  · exact h4 _

theorem State.waive_flow {a s : State} (hs : Flow a s) (bike : Nat) (source : WaiverSource) (kind : BikeFault) :
    Flow a (State.waive s bike source kind) := by
  unfold State.waive
  repeat' split
  all_goals first | exact hs | exact State.putEntries_flow hs _ (Nat.le_trans (Nat.le_of_eq List.length_set) hs.entries_le)

theorem State.waiveForReporter_flow {a s : State} (hs : Flow a s) (bike : Nat) (kind : BikeFault) (reporter : Reporter) : Flow a (State.waiveForReporter s bike kind reporter) := by
  unfold State.waiveForReporter
  try dsimp only
  repeat' split
  all_goals (repeat' first | exact hs | apply State.waive_flow)

theorem State.waiveForKey_flow {a s : State} (hs : Flow a s) (bike : Nat) (dock : Nat) (kind : BikeFault) (reporter : Reporter) : Flow a (State.waiveForKey s bike dock kind reporter) := by
  unfold State.waiveForKey
  try dsimp only
  repeat' split
  all_goals (repeat' first | exact hs | apply State.waive_flow)

theorem State.settleDue_flow {a s : State} (hs : Flow a s) (bike : Nat) : Flow a (State.settleDue s bike) := by
  unfold State.settleDue
  try dsimp only
  repeat' split
  all_goals (repeat' first | exact hs | apply State.finalise_flow)

theorem State.finaliseAll_flow {a s : State} (hs : Flow a s) (fuel : Nat) : Flow a (State.finaliseAll s fuel) := by
  induction fuel generalizing s with
  | zero => exact hs
  | succ fuel ih =>
    unfold State.finaliseAll
    split
    · exact ih (State.finalise_flow hs _ _)
    · exact hs

/-! ### Van -/

theorem State.putReservation_flow {a s : State} (hs : Flow a s) (d : Nat) (r : Reservation) : Flow a (State.putReservation s d r) := by
  unfold State.putReservation
  try dsimp only
  all_goals (repeat' first | exact hs | apply Flow.raise | apply Flow.putDock)
  all_goals rfl

theorem State.updateEntry_flow {a s : State} (hs : Flow a s) (n : Nat) (f : ManifestEntry → ManifestEntry) : Flow a (State.updateEntry s n f) := by
  unfold State.updateEntry
  try dsimp only
  repeat' split
  all_goals (repeat' first | exact hs | apply Flow.putVan)
  all_goals first | rfl | simp

theorem State.restartIdle_flow {a s : State} (hs : Flow a s) : Flow a (State.restartIdle s) := by
  unfold State.restartIdle
  try dsimp only
  repeat' split
  all_goals (repeat' first | exact hs | apply Flow.van)
  all_goals first | rfl | simp

theorem State.makeMove_flow {a s : State} (hs : Flow a s) (m : VanMove) : Flow a (State.makeMove s m) := by
  unfold State.makeMove
  split
  · exact hs.post _
  · split
    · rename_i h
      exact hs.van _ (.inr (by simpa using h)) rfl
    · exact hs.van _ (.inl (Nat.le_refl _)) rfl

theorem State.postSummary_flow {a s : State} (hs : Flow a s) (v : VanSummary) : Flow a (State.postSummary s v) :=
  (hs.post _).putVan _ (.inr (Nat.zero_le _))

theorem State.serveVan_flow {a s : State} (hs : Flow a s) : Flow a (State.serveVan s) := by
  unfold State.serveVan
  split
  · rename_i m rest hm
    exact (hs.van { s.van with moves := rest } (.inl (by simp [hm])) rfl).post _
  · split
    · exact State.postSummary_flow hs _
    · exact hs

theorem State.closeUp_flow {a s : State} (hs : Flow a s) : Flow a (State.closeUp s) := by
  unfold State.closeUp
  try dsimp only
  repeat' split
  all_goals (repeat' first | exact hs | apply State.postSummary_flow | apply Flow.van)
  all_goals first | rfl | simp

theorem State.endSession_flow {a s : State} (hs : Flow a s) (endedBy : EndedBy) (outcome : VanOutcome) :
    Flow a (State.endSession s endedBy outcome) := by
  unfold State.endSession
  dsimp only
  have h1 := Flow.foldl (fun t d => t.putReservation d .unreserved) (fun _ d h => State.putReservation_flow h d _)
    s.droppable hs
  exact State.closeUp_flow (h1.putVan _ (.inl (Nat.le_refl _)))

theorem State.endIfMet_flow {a s : State} (hs : Flow a s) : Flow a (State.endIfMet s) := by
  unfold State.endIfMet
  try dsimp only
  repeat' split
  all_goals (repeat' first | exact hs | apply State.endSession_flow)

theorem State.placeCollect_flow {a s : State} (hs : Flow a s) (n : Nat) (d : Nat) : Flow a (State.placeCollect s n d) := by
  unfold State.placeCollect
  try dsimp only
  all_goals (repeat' first | exact hs | apply State.settleDock_flow | apply State.putReservation_flow)

theorem State.placeOne_flow {a s t : State} (hs : Flow a s) (n : Nat) (kind : ManifestKind)
    (ht : State.placeOne s n kind = some t) : Flow a t := by
  unfold State.placeOne at ht
  split at ht
  · obtain ⟨d, _, rfl⟩ := Option.map_eq_some_iff.1 ht
    exact State.placeCollect_flow hs _ _
  · obtain ⟨d, _, rfl⟩ := Option.map_eq_some_iff.1 ht
    exact State.putReservation_flow hs _ _

theorem State.placeMany_flow {a s : State} (hs : Flow a s) (n : Nat) (kind : ManifestKind) (k : Nat) :
    Flow a (State.placeMany n kind k s) := by
  induction k generalizing s with
  | zero => exact hs
  | succ k ih =>
    unfold State.placeMany
    split
    · exact hs
    · rename_i t ht
      exact ih (State.updateEntry_flow (State.placeOne_flow hs _ _ ht) _ _)

theorem State.reserveFrom_flow {a s : State} (hs : Flow a s) (n : Nat) (l : List ManifestEntry) :
    Flow a (State.reserveFrom n l s) := by
  induction l generalizing s n with
  | nil => exact hs
  | cons m l ih => exact ih (State.updateEntry_flow (State.placeMany_flow hs _ _ _) _ _) _

theorem State.endPass_flow {a s : State} (hs : Flow a s) : Flow a (State.endPass s) := by
  unfold State.endPass
  try dsimp only
  repeat' split
  all_goals (repeat' first | exact hs | apply Flow.putVan | apply State.restartIdle_flow | apply State.endSession_flow)
  all_goals first | rfl | simp

theorem State.countMove_flow {a s : State} (hs : Flow a s) (collect : Bool) (n : Nat) (d : Nat) (bike : Nat) (reserved : Option Bool) : Flow a (State.countMove s collect n d bike reserved) := by
  unfold State.countMove
  try dsimp only
  all_goals (repeat' first | exact hs | apply State.updateEntry_flow | apply State.makeMove_flow)

theorem State.vanRemoval_flow {a s : State} (hs : Flow a s) (n : Nat) (d : Nat) (bike : Nat) : Flow a (State.vanRemoval s n d bike) := by
  unfold State.vanRemoval
  try dsimp only
  all_goals (repeat' first | exact hs | apply State.putReservation_flow | apply State.restartIdle_flow | apply State.closeUp_flow | apply State.endIfMet_flow | apply State.countMove_flow)

theorem State.dropHighest_flow {a s : State} (hs : Flow a s) (n : Nat) : Flow a (State.dropHighest s n) := by
  unfold State.dropHighest
  try dsimp only
  repeat' split
  all_goals (repeat' first | exact hs | apply State.putReservation_flow)

theorem State.vanArrival_flow {a s : State} (hs : Flow a s) (d : Nat) (bike : Nat) (wasEmpty : Bool) : Flow a (State.vanArrival s d bike wasEmpty) := by
  unfold State.vanArrival
  try dsimp only
  repeat' split
  all_goals (repeat' first | exact hs | apply State.putReservation_flow | apply State.restartIdle_flow | apply State.endIfMet_flow | apply State.countMove_flow | apply State.dropHighest_flow)

theorem State.fall_flow {a s : State} (hs : Flow a s) (n : Nat) : Flow a (State.fall s n) := by
  unfold State.fall
  try dsimp only
  all_goals (repeat' first | exact hs | apply State.updateEntry_flow | apply State.endIfMet_flow)

theorem State.moveDeliver_flow {a s : State} (hs : Flow a s) (n : Nat) : Flow a (State.moveDeliver s n) := by
  unfold State.moveDeliver
  try dsimp only
  repeat' split
  all_goals (repeat' first | exact hs | apply State.putReservation_flow | apply State.fall_flow)

theorem State.replaceCollect_flow {a s : State} (hs : Flow a s) (n : Nat) (lost : Nat) : Flow a (State.replaceCollect s n lost) := by
  unfold State.replaceCollect
  try dsimp only
  repeat' split
  all_goals (repeat' first | exact hs | apply State.placeCollect_flow | apply State.fall_flow)

theorem State.loseReservation_flow {a s : State} (hs : Flow a s) (d : Nat) : Flow a (State.loseReservation s d) := by
  unfold State.loseReservation
  try dsimp only
  repeat' split
  all_goals (repeat' first | exact hs | apply State.putReservation_flow | apply State.closeUp_flow | apply State.moveDeliver_flow | apply State.replaceCollect_flow)

theorem State.disturbDeliver_flow {a s : State} (hs : Flow a s) (d : Nat) : Flow a (State.disturbDeliver s d) := by
  unfold State.disturbDeliver
  try dsimp only
  repeat' split
  all_goals (repeat' first | exact hs | apply State.putReservation_flow | apply State.moveDeliver_flow)

theorem State.vanLapse_flow {a s : State} (hs : Flow a s) (d : Nat) : Flow a (State.vanLapse s d) := by
  unfold State.vanLapse
  try dsimp only
  repeat' split
  all_goals (repeat' first | exact hs | apply State.putReservation_flow | apply State.closeUp_flow)

theorem State.openVan_flow {a s : State} (hs : Flow a s) (van crew : Nat) (manifest : List ManifestEntry) :
    Flow a (State.openVan s van crew manifest).1 := by
  unfold State.openVan
  dsimp only
  refine State.endPass_flow (State.reserveFrom_flow (hs.putVan _ ?_) _ _)
  exact .inl (Nat.le_refl _)

theorem ownVanOpen_flow {a s : State} (hs : Flow a s) (van : Nat) (crew : Nat) (manifest : List ManifestArg) : Flow a (ownVanOpen van crew manifest s).1 := by
  unfold ownVanOpen
  try dsimp only
  repeat' split
  all_goals (repeat' first | exact hs | apply State.openVan_flow)

theorem ownVanClose_flow {a s : State} (hs : Flow a s) (session : Nat) : Flow a (ownVanClose session s).1 := by
  unfold ownVanClose
  try dsimp only
  repeat' split
  all_goals (repeat' first | exact hs | apply State.endSession_flow)

theorem ownVanGet_flow {a s : State} (hs : Flow a s) : Flow a (ownVanGet s).1 := by
  unfold ownVanGet
  try dsimp only
  repeat' split
  all_goals (repeat' first | exact hs)

theorem State.vanIdleDue_flow {a s : State} (hs : Flow a s) : Flow a (State.vanIdleDue s) := by
  unfold State.vanIdleDue
  try dsimp only
  repeat' split
  all_goals (repeat' first | exact hs | apply State.endSession_flow)

/-! ### Faults -/

theorem State.putAttention_flow {a s : State} (hs : Flow a s) (x : Attention) : Flow a (State.putAttention s x) := by
  unfold State.putAttention
  split
  · exact hs
  · exact hs.attention x

theorem State.setAttention_flow {a s : State} (hs : Flow a s) (c : AttentionCause) : Flow a (State.setAttention s c) := by
  unfold State.setAttention
  try dsimp only
  all_goals (repeat' first | exact hs | apply State.putAttention_flow)

theorem State.postFault_flow {a s : State} (hs : Flow a s) (f : FaultRecord) : Flow a (State.postFault s f) :=
  (hs.post _).faults _ 0 (.inl (Nat.le_refl _))

/-- A record that joins a list leaves it within its places, or no longer than it was (R131). -/
theorem joinFaults_length (fs : List FaultRecord) (f : FaultRecord) :
    (joinFaults fs f).1.length ≤ fs.length ∨ (joinFaults fs f).1.length ≤ Config.faultPlaces := by
  unfold joinFaults
  split
  · right; simpa using by assumption
  · split
    · left; exact Nat.le_refl _
    · rename_i h _
      have hp : 0 < fs.length := by simp only [Config.faultPlaces] at h; omega
      split
      · rename_i i hi
        have : i < fs.length := by
          have := (List.findIdx?_eq_some_iff_findIdx_eq.1 hi).1
          exact this
        left; simp [List.length_eraseIdx, this]; omega
      · left; simp; omega

theorem State.makeFault_flow {a s : State} (hs : Flow a s) (f : FaultRecord) : Flow a (State.makeFault s f) := by
  unfold State.makeFault
  split
  · exact State.postFault_flow hs _
  · exact hs.faults _ _ (joinFaults_length _ _)

theorem State.serveFault_flow {a s : State} (hs : Flow a s) : Flow a (State.serveFault s) := by
  unfold State.serveFault
  split
  · exact hs
  · rename_i f rest h
    exact State.postFault_flow (hs.faults rest s.faultsDropped (.inl (by simp [h]))) _

theorem State.putBike_flow {a s : State} (hs : Flow a s) (d : Nat) (b : Bike) : Flow a (State.putBike s d b) := by
  unfold State.putBike
  try dsimp only
  all_goals (repeat' first | exact hs | apply Flow.putDock)
  all_goals rfl

theorem State.attendEffect_flow {a s : State} (hs : Flow a s) (e : FaultEffect) : Flow a (State.attendEffect s e) := by
  unfold State.attendEffect
  try dsimp only
  repeat' split
  all_goals (repeat' first | exact hs | apply State.setAttention_flow)

theorem State.reportBike_flow {a s : State} (hs : Flow a s) (d : Nat) (b : Bike) (k : BikeFault) (source : FaultSource) (who : Reporter) : Flow a (State.reportBike s d b k source who).1 := by
  unfold State.reportBike
  try dsimp only
  repeat' split
  all_goals (repeat' first | exact hs | apply State.makeFault_flow | apply State.putBike_flow | apply State.attendEffect_flow)

theorem State.reportAbsent_flow {a s : State} (hs : Flow a s) (dock : Option Nat) (bike : Option Nat) (k : BikeFault) (source : FaultSource) (who : Reporter) : Flow a (State.reportAbsent s dock bike k source who) := by
  unfold State.reportAbsent
  try dsimp only
  all_goals (repeat' first | exact hs | apply State.makeFault_flow)

theorem State.reportTag_flow {a s : State} (hs : Flow a s) (d : Nat) : Flow a (State.reportTag s d) := by
  unfold State.reportTag
  try dsimp only
  repeat' split
  all_goals (repeat' first | exact hs | apply State.makeFault_flow | apply State.putBike_flow | apply State.attendEffect_flow)

theorem State.reportConflict_flow {a s : State} (hs : Flow a s) (d : Nat) (tagBike : Nat) (tagRef : Option HireRef) : Flow a (State.reportConflict s d tagBike tagRef) := by
  unfold State.reportConflict
  try dsimp only
  repeat' split
  all_goals (repeat' first | exact hs | apply State.makeFault_flow | apply State.putBike_flow | apply State.attendEffect_flow)

theorem State.applyLockout_flow {a s : State} (hs : Flow a s) (d : Nat) : Flow a (State.applyLockout s d) := by
  unfold State.applyLockout
  try dsimp only
  all_goals (repeat' first | exact hs | apply Flow.putDock | apply State.issue_flow | apply State.loseReservation_flow)
  all_goals rfl

theorem State.orderLockout_flow {a s : State} (hs : Flow a s) (d : Nat) : Flow a (State.orderLockout s d) := by
  unfold State.orderLockout
  try dsimp only
  repeat' split
  all_goals (repeat' first | exact hs | apply Flow.putDock | apply State.applyLockout_flow)
  all_goals rfl

theorem State.countFault_flow {a s : State} (hs : Flow a s) (d : Nat) (kind : DockFault) (cause : DockCause) : Flow a (State.countFault s d kind cause) := by
  unfold State.countFault
  try dsimp only
  repeat' split
  all_goals (repeat' first | exact hs | apply Flow.putDock | apply State.setAttention_flow | apply State.makeFault_flow | apply State.orderLockout_flow)
  all_goals rfl

theorem State.noteFault_flow {a s : State} (hs : Flow a s) (d : Nat) (kind : DockFault) (cause : DockCause) : Flow a (State.noteFault s d kind cause) := by
  unfold State.noteFault
  try dsimp only
  all_goals (repeat' first | exact hs | apply State.makeFault_flow)

theorem State.censusLockout_flow {a s : State} (hs : Flow a s) (d : Nat) : Flow a (State.censusLockout s d) := by
  unfold State.censusLockout
  try dsimp only
  all_goals (repeat' first | exact hs | apply State.setAttention_flow | apply State.makeFault_flow)

theorem State.putRun_flow {a s : State} (hs : Flow a s) (d : Nat) (n : Nat) : Flow a (State.putRun s d n) := by
  unfold State.putRun
  try dsimp only
  all_goals (repeat' first | exact hs | apply Flow.runs)
  all_goals first | rfl | simp

theorem State.reportTap_flow {a s : State} (hs : Flow a s) (d : Nat) (readable : Bool) : Flow a (State.reportTap s d readable) := by
  unfold State.reportTap
  try dsimp only
  repeat' split
  all_goals (repeat' first | exact hs | apply State.noteFault_flow | apply State.putRun_flow)

theorem State.startOffline_flow {a s : State} (hs : Flow a s) (d : Nat) : Flow a (State.startOffline s d) := by
  unfold State.startOffline
  try dsimp only
  repeat' split
  all_goals (repeat' first | exact hs | apply Flow.offline)
  all_goals first | rfl | simp

theorem State.cancelOffline_flow {a s : State} (hs : Flow a s) (d : Nat) : Flow a (State.cancelOffline s d) := by
  unfold State.cancelOffline
  try dsimp only
  all_goals (repeat' first | exact hs | apply Flow.offline)
  all_goals first | rfl | simp

theorem State.reportSilence_flow {a s : State} (hs : Flow a s) (d : Nat) : Flow a (State.reportSilence s d) := by
  unfold State.reportSilence
  try dsimp only
  repeat' split
  all_goals (repeat' first | exact hs | apply State.noteFault_flow)

theorem State.offlineDue_flow {a s : State} (hs : Flow a s) (d : Nat) : Flow a (State.offlineDue s d) := by
  unfold State.offlineDue
  try dsimp only
  repeat' split
  all_goals (repeat' first | exact hs | apply State.setAttention_flow | apply State.cancelOffline_flow)

theorem State.centralChange_flow {a s : State} (hs : Flow a s) (d : Nat) (b : Bike) (effect : FaultEffect) : Flow a (State.centralChange s d b effect) := by
  unfold State.centralChange
  try dsimp only
  repeat' split
  all_goals (repeat' first | exact hs | apply State.setAttention_flow | apply State.makeFault_flow | apply State.putBike_flow)

theorem State.setBike_flow {a s : State} (hs : Flow a s) (d : Nat) (b : Bike) (next : Condition) :
    Flow a (State.setBike s d b next).1 := by
  unfold State.setBike
  repeat' split
  all_goals first | exact hs | (dsimp only; exact State.centralChange_flow hs _ _ _)

theorem State.clearDock_flow {a s : State} (hs : Flow a s) (d : Nat) : Flow a (State.clearDock s d) := by
  unfold State.clearDock
  try dsimp only
  repeat' split
  all_goals (repeat' first | exact hs | apply Flow.putDock | apply State.issue_flow | apply State.makeFault_flow)
  all_goals rfl

theorem State.clearAttention_flow {a s : State} (hs : Flow a s) : Flow a (State.clearAttention s) := hs.attention _

theorem ownPolicyGet_flow {a s : State} (hs : Flow a s) (kind : Nat) : Flow a (ownPolicyGet kind s).1 := by
  unfold ownPolicyGet
  try dsimp only
  repeat' split
  all_goals (repeat' first | exact hs)

theorem State.takeReport_flow {a s : State} (hs : Flow a s) (target : TargetArg) (k : BikeFault) (source : FaultSource) (who : Reporter) : Flow a (State.takeReport s target k source who).1 := by
  unfold State.takeReport
  try dsimp only
  repeat' split
  all_goals (repeat' first | exact hs | apply State.waiveForReporter_flow | apply State.reportBike_flow | apply State.reportAbsent_flow)

theorem ownRiderReport_flow {a s : State} (hs : Flow a s) (target : TargetArg) (kind : Nat) (source : Nat) (reporter : ReporterArg) : Flow a (ownRiderReport target kind source reporter s).1 := by
  unfold ownRiderReport
  try dsimp only
  repeat' split
  all_goals (repeat' first | exact hs | apply State.takeReport_flow)

/-! ### Admission -/

theorem State.beginRelease_flow {a s : State} (hs : Flow a s) (d : Nat) (r : Release) : Flow a (State.beginRelease s d r) := by
  unfold State.beginRelease
  try dsimp only
  repeat' split
  all_goals (repeat' first | exact hs | apply Flow.putDock | apply State.issue_flow | apply State.settleDock_flow)
  all_goals rfl

theorem State.takeRef_flow {a s : State} (hs : Flow a s) : Flow a (State.takeRef s) := by
  unfold State.takeRef
  try dsimp only
  all_goals (repeat' first | exact hs | apply Flow.putHireCount)

theorem State.admitRelease_flow {a s : State} (hs : Flow a s) (d : Nat) (hirer : Hirer) (issue : Option Nat) (plan : Nat) (credit : Nat) (t : Nat) (fromDock : Bool) : Flow a (State.admitRelease s d hirer issue plan credit t fromDock) := by
  unfold State.admitRelease
  try dsimp only
  all_goals (repeat' first | exact hs | apply State.takeSlot_flow | apply State.beginRelease_flow | apply State.takeRef_flow)

theorem State.memberAttempt_flow {a s : State} (hs : Flow a s) (d : Nat) (card : CardImage) :
    Flow a (State.memberAttempt s d card).1 := by
  unfold State.memberAttempt
  repeat' split
  all_goals first | exact hs | exact State.admitRelease_flow hs _ _ _ _ _ _ _

theorem State.crewAttempt_flow {a s : State} (hs : Flow a s) (d : Nat) (card : CardImage) :
    Flow a (State.crewAttempt s d card).1 := by
  unfold State.crewAttempt
  repeat' split
  all_goals first | exact hs | exact State.admitRelease_flow hs _ _ _ _ _ _ _

theorem State.beginVan_flow {a s : State} (hs : Flow a s) (d : Nat) (entry : Nat) (fromDock : Bool) : Flow a (State.beginVan s d entry fromDock) := by
  unfold State.beginVan
  try dsimp only
  all_goals (repeat' first | exact hs | apply State.beginRelease_flow)

theorem State.collectRequest_flow {a s : State} (hs : Flow a s) (d : Nat) (entry : Nat) (crew : Nat) : Flow a (State.collectRequest s d entry crew).1 := by
  unfold State.collectRequest
  try dsimp only
  repeat' split
  all_goals (repeat' first | exact hs | apply State.restartIdle_flow | apply State.beginVan_flow)

theorem State.crewCard_flow {a s : State} (hs : Flow a s) (d : Nat) (card : CardImage) : Flow a (State.crewCard s d card).1 := by
  unfold State.crewCard
  try dsimp only
  repeat' split
  all_goals (repeat' first | exact hs | apply State.crewAttempt_flow | apply State.collectRequest_flow)

theorem State.cardAttempt_flow {a s : State} (hs : Flow a s) (d : Nat) (card : CardImage) : Flow a (State.cardAttempt s d card).1 := by
  unfold State.cardAttempt
  try dsimp only
  repeat' split
  all_goals (repeat' first | exact hs | apply State.memberAttempt_flow | apply State.crewCard_flow)

theorem ownVanRelease_flow {a s : State} (hs : Flow a s) (d : Nat) : Flow a (ownVanRelease d s).1 := by
  unfold ownVanRelease
  try dsimp only
  repeat' split
  all_goals (repeat' first | exact hs | apply State.restartIdle_flow | apply State.beginVan_flow)

theorem State.reusePass_flow {a s : State} (hs : Flow a s) (slot : Nat) : Flow a (State.reusePass s slot) := by
  unfold State.reusePass
  try dsimp only
  repeat' split
  all_goals (repeat' first | exact hs | apply State.finaliseHire_flow)

theorem State.passChecks_flow {a s : State} (hs : Flow a s) (d : Nat) (slot : Nat) (t : Nat) : Flow a (State.passChecks s d slot t).1 := by
  unfold State.passChecks
  try dsimp only
  repeat' split
  all_goals (repeat' first | exact hs | apply State.admitRelease_flow)

theorem State.keypadAttempt_flow {a s : State} (hs : Flow a s) (d : Nat) (code : Nat) : Flow a (State.keypadAttempt s d code).1 := by
  unfold State.keypadAttempt
  try dsimp only
  repeat' split
  all_goals (repeat' first | exact hs | apply State.reusePass_flow | apply State.passChecks_flow)

theorem State.openHire_flow {a s : State} (hs : Flow a s) (hirer : Hirer) (issue : Option Nat) (image : TripImage) (credit : Nat) (d : Nat) (bike : Nat) : Flow a (State.openHire s hirer issue image credit d bike) := by
  unfold State.openHire
  try dsimp only
  repeat' split
  all_goals (repeat' first | exact hs | apply Flow.putHires | apply Flow.post | apply State.returnSlot_flow | apply State.passLeaves_flow)

theorem State.closeHire_flow {a s : State} (hs : Flow a s) (ref : HireRef) : Flow a (State.closeHire s ref) := by
  unfold State.closeHire
  try dsimp only
  repeat' split
  all_goals (repeat' first | exact hs | apply State.removeHire_flow | apply State.passReturns_flow)

theorem State.expireHires_flow {a s : State} (hs : Flow a s) (t : Nat) (l : List OpenHire) :
    Flow a (State.expireHires t l s) := by
  induction l generalizing s with
  | nil => exact hs
  | cons x l ih =>
    unfold State.expireHires
    repeat' split
    all_goals first | exact ih hs | exact hs | exact ih ((State.removeHire_flow hs _).post _)

theorem State.examineHires_flow {a s : State} (hs : Flow a s) : Flow a (State.examineHires s) := by
  unfold State.examineHires
  try dsimp only
  repeat' split
  all_goals (repeat' first | exact hs | apply State.expireHires_flow)

theorem ownPlanGet_flow {a s : State} (hs : Flow a s) (code : Nat) : Flow a (ownPlanGet code s).1 := by
  unfold ownPlanGet
  try dsimp only
  repeat' split
  all_goals (repeat' first | exact hs)

/-! ### Directives -/

theorem runBikeSet_flow {a s : State} (hs : Flow a s) (bike : Nat) (condition : Nat) (next : Nat) : Flow a (runBikeSet bike condition next s).1 := by
  unfold runBikeSet
  try dsimp only
  repeat' split
  all_goals (repeat' first | exact hs | apply State.setBike_flow)

theorem doBikeSet_flow {a s : State} (hs : Flow a s) (args : List Byte) : Flow a (doBikeSet args s).1 := by
  unfold doBikeSet
  try dsimp only
  repeat' split
  all_goals (repeat' first | exact hs | apply runBikeSet_flow)

theorem runDockClear_flow {a s : State} (hs : Flow a s) (d : Nat) : Flow a (runDockClear d s).1 := by
  unfold runDockClear
  try dsimp only
  repeat' split
  all_goals (repeat' first | exact hs | apply State.clearDock_flow)

theorem doDockClear_flow {a s : State} (hs : Flow a s) (args : List Byte) : Flow a (doDockClear args s).1 := by
  unfold doDockClear
  try dsimp only
  repeat' split
  all_goals (repeat' first | exact hs | apply runDockClear_flow)

theorem runRemoteRelease_flow {a s : State} (hs : Flow a s) (d : Nat) (member : Nat) (plan : Nat) : Flow a (runRemoteRelease d member plan s).1 := by
  unfold runRemoteRelease
  try dsimp only
  repeat' split
  all_goals (repeat' first | exact hs | apply State.admitRelease_flow)

theorem doRemoteRelease_flow {a s : State} (hs : Flow a s) (args : List Byte) : Flow a (doRemoteRelease args s).1 := by
  unfold doRemoteRelease
  try dsimp only
  repeat' split
  all_goals (repeat' first | exact hs | apply runRemoteRelease_flow)

theorem runDenyAdd_flow {a s : State} (hs : Flow a s) (member : Nat) : Flow a (runDenyAdd member s).1 := by
  unfold runDenyAdd
  try dsimp only
  repeat' split
  all_goals (repeat' first | exact hs | apply Flow.putDenied)

theorem runDenyRemove_flow {a s : State} (hs : Flow a s) (member : Nat) : Flow a (runDenyRemove member s).1 := by
  unfold runDenyRemove
  try dsimp only
  repeat' split
  all_goals (repeat' first | exact hs | apply Flow.putDenied)

theorem doDenyAdd_flow {a s : State} (hs : Flow a s) (args : List Byte) : Flow a (doDenyAdd args s).1 := by
  unfold doDenyAdd
  try dsimp only
  repeat' split
  all_goals (repeat' first | exact hs | apply runDenyAdd_flow)

theorem doDenyRemove_flow {a s : State} (hs : Flow a s) (args : List Byte) : Flow a (doDenyRemove args s).1 := by
  unfold doDenyRemove
  try dsimp only
  repeat' split
  all_goals (repeat' first | exact hs | apply runDenyRemove_flow)

theorem closeHeldHire_flow {a s : State} (hs : Flow a s) (h : OpenHire) : Flow a (closeHeldHire h s).1 := by
  unfold closeHeldHire
  split
  · rename_i slot serial _
    split
    · rename_i s' c d x e
      exact State.chargeRide_flow hs slot serial h.ref 0 e
    · exact State.removeHire_flow hs _
  · exact State.removeHire_flow hs _

theorem doHireClosed_flow {a s : State} (hs : Flow a s) (args : List Byte) : Flow a (doHireClosed args s).1 := by
  unfold doHireClosed
  try dsimp only
  repeat' split
  all_goals (repeat' first | exact hs | apply closeHeldHire_flow)

theorem runPassCharge_flow {a s : State} (hs : Flow a s) (slot serial : Nat) (ref : HireRef) (amount : Nat) :
    Flow a (runPassCharge slot serial ref amount s).1 := by
  unfold runPassCharge
  split
  · rename_i s' c d x e
    exact State.chargeRide_flow hs slot serial ref amount e
  · exact hs

theorem doPassCharge_flow {a s : State} (hs : Flow a s) (args : List Byte) : Flow a (doPassCharge args s).1 := by
  unfold doPassCharge
  try dsimp only
  repeat' split
  all_goals (repeat' first | exact hs | apply runPassCharge_flow)

theorem doFaultSummary_flow {a s : State} (hs : Flow a s) : Flow a (doFaultSummary s).1 := by
  unfold doFaultSummary
  try dsimp only
  all_goals (repeat' first | exact hs | apply State.clearAttention_flow)

theorem doCensus_flow {a s : State} (hs : Flow a s) (id : Nat) : Flow a (doCensus id s).1 := by
  unfold doCensus
  try dsimp only
  repeat' split
  all_goals (repeat' first | exact hs | apply State.postSixth_flow | apply Flow.sixth)

theorem runDirective_flow {a s : State} (hs : Flow a s) (x : Directive) : Flow a (runDirective x s).1 := by
  unfold runDirective
  try dsimp only
  repeat' split
  all_goals (repeat' first | exact hs | apply doBikeSet_flow | apply doDockClear_flow | apply doRemoteRelease_flow | apply doDenyAdd_flow | apply doDenyRemove_flow | apply doHireClosed_flow | apply doPassCharge_flow | apply doFaultSummary_flow | apply doCensus_flow)

theorem State.replyDirective_flow {a s : State} (hs : Flow a s) (x : Directive) (r : DirectiveAnswer) :
    Flow a (State.replyDirective s x r) := by
  unfold State.replyDirective
  dsimp only
  exact ((hs.replySlot 0).post _).directives _ (by simp)

theorem State.executeHead_flow {a s : State} (hs : Flow a s) : Flow a (State.executeHead s) := by
  unfold State.executeHead
  split
  · exact hs
  · exact State.replyDirective_flow (runDirective_flow (hs.replySlot 1) _) _ _

/-! ### Arbiter -/

theorem State.serve_flow {a s : State} (hs : Flow a s) (p : Place) : Flow a (State.serve s p) := by
  unfold State.serve
  split
  · exact State.serveClose_flow hs
  · split
    · exact State.settlePass_flow hs _
    · exact hs
  · exact State.serveVan_flow hs
  · exact State.serveFault_flow hs
  · exact State.executeHead_flow hs
  · exact State.serveSixth_flow hs

theorem State.drainFor_flow {a s : State} (hs : Flow a s) (fuel : Nat) : Flow a (State.drainFor s fuel) := by
  induction fuel generalizing s with
  | zero => exact hs
  | succ fuel ih =>
    unfold State.drainFor
    split
    · exact hs
    · split
      · exact ih (State.serve_flow hs _)
      · exact hs

theorem State.drain_flow {a s : State} (hs : Flow a s) : Flow a (State.drain s) := by
  unfold State.drain
  try dsimp only
  all_goals (repeat' first | exact hs | apply State.drainFor_flow)

theorem State.giveBack_flow {a s : State} (hs : Flow a s) : Flow a (State.giveBack s) := by
  unfold State.giveBack
  try dsimp only
  all_goals (repeat' first | exact hs | apply State.returnSlot_flow | apply State.drain_flow)

theorem State.serveIfNext_flow {a s : State} (hs : Flow a s) (p : Place) : Flow a (State.serveIfNext s p) := by
  unfold State.serveIfNext
  try dsimp only
  repeat' split
  all_goals (repeat' first | exact hs | apply State.serve_flow)

/-! ### Custody -/

theorem State.editDock_flow {a s : State} (hs : Flow a s) (d : Nat) (f : Dock → Dock)
    (hf : ∀ x, (f x).configured = x.configured := by intro; rfl) : Flow a (State.editDock s d f) :=
  hs.putDock _ _ (hf _)

theorem State.discardRelease_flow {a s : State} (hs : Flow a s) (d : Nat) (x : DockState) : Flow a (State.discardRelease s d x) := by
  unfold State.discardRelease
  try dsimp only
  all_goals (repeat' first | exact hs | apply State.editDock_flow)
  all_goals first | rfl | (intro; rfl)

theorem State.showRefusal_flow {a s : State} (hs : Flow a s) (d : Nat) (r : Release) : Flow a (State.showRefusal s d r) := by
  unfold State.showRefusal
  try dsimp only
  repeat' split
  all_goals (repeat' first | exact hs | apply State.showRefused_flow)

theorem State.tellVan_flow {a s : State} (hs : Flow a s) (d : Nat) (r : Release) : Flow a (State.tellVan s d r) := by
  unfold State.tellVan
  try dsimp only
  repeat' split
  all_goals (repeat' first | exact hs | apply State.vanLapse_flow)

theorem State.clearTag_flow {a s : State} (hs : Flow a s) (d : Nat) (r : Release) : Flow a (State.clearTag s d r) := by
  unfold State.clearTag
  try dsimp only
  repeat' split
  all_goals (repeat' first | exact hs | apply State.issue_flow)

theorem State.applyPending_flow {a s : State} (hs : Flow a s) (d : Nat) : Flow a (State.applyPending s d) := by
  unfold State.applyPending
  try dsimp only
  repeat' split
  all_goals (repeat' first | exact hs | apply State.applyLockout_flow)

theorem State.giveUp_flow {a s : State} (hs : Flow a s) (r : Release) : Flow a (State.giveUp s r) := by
  unfold State.giveUp
  try dsimp only
  repeat' split
  all_goals (repeat' first | exact hs | apply State.takeHeldExpiry_flow | apply State.giveBack_flow)

theorem State.failTag_flow {a s : State} (hs : Flow a s) (d : Nat) (r : Release) : Flow a (State.failTag s d r) := by
  unfold State.failTag
  try dsimp only
  repeat' split
  all_goals (repeat' first | exact hs | apply State.issue_flow | apply State.reportTag_flow | apply State.applyLockout_flow | apply State.discardRelease_flow | apply State.showRefusal_flow | apply State.tellVan_flow | apply State.giveUp_flow)

theorem State.failUnlock_flow {a s : State} (hs : Flow a s) (d : Nat) (r : Release) (kind : DockFault) (cause : DockCause) : Flow a (State.failUnlock s d r kind cause) := by
  unfold State.failUnlock
  try dsimp only
  repeat' split
  all_goals (repeat' first | exact hs | apply State.issue_flow | apply State.countFault_flow | apply State.discardRelease_flow | apply State.showRefusal_flow | apply State.tellVan_flow | apply State.clearTag_flow | apply State.applyPending_flow | apply State.giveUp_flow)

theorem State.lapse_flow {a s : State} (hs : Flow a s) (d : Nat) (r : Release) : Flow a (State.lapse s d r) := by
  unfold State.lapse
  try dsimp only
  repeat' split
  all_goals (repeat' first | exact hs | apply State.issue_flow | apply State.discardRelease_flow | apply State.tellVan_flow | apply State.clearTag_flow | apply State.applyPending_flow | apply State.giveUp_flow)

theorem State.lapseLocked_flow {a s : State} (hs : Flow a s) (d : Nat) (r : Release) : Flow a (State.lapseLocked s d r) := by
  unfold State.lapseLocked
  try dsimp only
  all_goals (repeat' first | exact hs | apply State.discardRelease_flow | apply State.tellVan_flow | apply State.clearTag_flow | apply State.applyPending_flow | apply State.giveUp_flow)

theorem State.discardBike_flow {a s : State} (hs : Flow a s) (d : Nat) (reason : EarlyReason) : Flow a (State.discardBike s d reason) := by
  unfold State.discardBike
  try dsimp only
  all_goals (repeat' first | exact hs | apply State.settleDock_flow | apply State.editDock_flow)
  all_goals first | rfl | (intro; rfl)

theorem State.removal_flow {a s : State} (hs : Flow a s) (d : Nat) (r : Release) : Flow a (State.removal s d r) := by
  unfold State.removal
  try dsimp only
  repeat' split
  all_goals (repeat' first | exact hs | apply State.vanRemoval_flow | apply State.openHire_flow | apply State.discardRelease_flow | apply State.applyPending_flow | apply State.discardBike_flow)

theorem State.loseCollect_flow {a s : State} (hs : Flow a s) (d : Nat) : Flow a (State.loseCollect s d) := by
  unfold State.loseCollect
  try dsimp only
  repeat' split
  all_goals (repeat' first | exact hs | apply State.loseReservation_flow)

theorem State.unreleasedRemoval_flow {a s : State} (hs : Flow a s) (d : Nat) (reason : EarlyReason) :
    Flow a (State.unreleasedRemoval s d reason) := by
  unfold State.unreleasedRemoval
  dsimp only
  have h1 : ∀ x : DockState, Flow a (((s.discardBike d reason).discardRelease d x).editDock d
      (fun k => { k with relockAt := none })) := fun x =>
    State.editDock_flow (State.discardRelease_flow (State.discardBike_flow hs _ _) _ _) _ _
  cases (s.dock d).release with
  | none => exact State.loseCollect_flow (State.countFault_flow (h1 _) _ _ _) _
  | some r =>
    exact State.giveUp_flow (State.loseCollect_flow (State.countFault_flow (State.applyPending_flow
      (State.tellVan_flow (State.showRefusal_flow (h1 _) _ _) _ _) _) _ _ _) _) _

theorem State.onRemoved_flow {a s : State} (hs : Flow a s) (d : Nat) (reason : EarlyReason) : Flow a (State.onRemoved s d reason) := by
  unfold State.onRemoved
  try dsimp only
  repeat' split
  all_goals (repeat' first | exact hs | apply State.removal_flow | apply State.unreleasedRemoval_flow)

theorem State.dockBike_flow {a s : State} (hs : Flow a s) (d : Nat) (id : Nat) (found : Found) : Flow a (State.dockBike s d id found) := by
  unfold State.dockBike
  try dsimp only
  all_goals (repeat' first | exact hs | apply State.editDock_flow)
  all_goals first | rfl | (intro; rfl)

theorem State.lockArrival_flow {a s : State} (hs : Flow a s) (d : Nat) (found : Found) : Flow a (State.lockArrival s d found) := by
  unfold State.lockArrival
  try dsimp only
  repeat' split
  all_goals (repeat' first | exact hs | apply State.issue_flow)

theorem State.takeReturn_flow {a s : State} (hs : Flow a s) (d : Nat) (image : TripImage) (eligible : Bool) (startup : Bool) : Flow a (State.takeReturn s d image eligible startup) := by
  unfold State.takeReturn
  try dsimp only
  all_goals (repeat' first | exact hs | apply State.markSettling_flow | apply State.openEntry_flow | apply State.disturbDeliver_flow | apply State.closeHire_flow)

theorem State.arrive_flow {a s : State} (hs : Flow a s) (d : Nat) (image : Option TagImage)
    (found : Found) (startup : Bool) : Flow a (State.arrive s d image found startup) := by
  unfold State.arrive
  dsimp only
  have h1 : ∀ id, Flow a ((s.dockBike d id found).lockArrival d found) := fun id =>
    State.lockArrival_flow (State.dockBike_flow hs _ _ _) _ _
  split
  · exact State.disturbDeliver_flow (State.reportTag_flow (h1 _) _) _
  · split
    · exact State.disturbDeliver_flow (State.reportConflict_flow (h1 _) _ _ _) _
    · exact State.vanArrival_flow (h1 _) _ _ _
  · split
    · exact State.disturbDeliver_flow (State.reportConflict_flow (h1 _) _ _ _) _
    · exact State.takeReturn_flow (State.lockArrival_flow (State.issue_flow (State.dockBike_flow hs _ _ _) _ _) _ _) _ _ _ _

theorem State.replaceBike_flow {a s : State} (hs : Flow a s) (d : Nat) (image : Option TagImage) : Flow a (State.replaceBike s d image) := by
  unfold State.replaceBike
  try dsimp only
  all_goals (repeat' first | exact hs | apply State.discardBike_flow | apply State.arrive_flow)

theorem State.onPresent_flow {a s : State} (hs : Flow a s) (d : Nat) (image : Option TagImage) :
    Flow a (State.onPresent s d image) := by
  have h1 : ∀ (b : Option Bike) (found : Found), Flow a (match b with
      | some b => if sameBike image b then s else s.replaceBike d image
      | none => s.arrive d image found false) := fun b found => by
    cases b with
    | none => exact State.arrive_flow hs _ _ _ _
    | some b =>
      dsimp only
      by_cases h : sameBike image b = true
      · rw [if_pos h]; exact hs
      · rw [if_neg h]; exact State.replaceBike_flow hs _ _
  unfold State.onPresent
  dsimp only
  generalize (s.dock d).state = x
  cases x
  case empty => exact State.arrive_flow hs _ _ _ _
  case occupied => exact h1 _ _
  case lockedOut => exact h1 _ _
  all_goals exact hs

theorem State.onUnlocked_flow {a s : State} (hs : Flow a s) (d : Nat) : Flow a (State.onUnlocked s d) := by
  unfold State.onUnlocked
  try dsimp only
  repeat' split
  all_goals (repeat' first | exact hs | apply State.issue_flow | apply State.editDock_flow)
  all_goals first | rfl | (intro; rfl)

theorem State.onLocked_flow {a s : State} (hs : Flow a s) (d : Nat) : Flow a (State.onLocked s d) := by
  unfold State.onLocked
  try dsimp only
  repeat' split
  all_goals (repeat' first | exact hs | apply State.editDock_flow | apply State.lapseLocked_flow)
  all_goals first | rfl | (intro; rfl)

theorem State.failLock_flow {a s : State} (hs : Flow a s) (d : Nat) (kind : DockFault) (cause : DockCause) : Flow a (State.failLock s d kind cause) := by
  unfold State.failLock
  try dsimp only
  repeat' split
  all_goals (repeat' first | exact hs | apply State.countFault_flow | apply State.editDock_flow)
  all_goals first | rfl | (intro; rfl)

theorem State.onLockFail_flow {a s : State} (hs : Flow a s) (d : Nat) (kind : LockFailKind) (ended : Bool) :
    Flow a (State.onLockFail s d kind ended) := by
  unfold State.onLockFail
  try dsimp only
  repeat' split
  all_goals (repeat' first | exact hs | apply State.countFault_flow | apply State.failUnlock_flow | apply State.failLock_flow)

theorem State.answerAttempt_flow {a : State} {r : State × Option Reason} (hs : Flow a r.1) (d : Nat) :
    Flow a (State.answerAttempt d r) := by
  unfold State.answerAttempt
  split
  · exact State.showRefused_flow hs _
  · exact hs

theorem State.onTap_flow {a s : State} (hs : Flow a s) (d : Nat) (card : Option CardImage) : Flow a (State.onTap s d card) := by
  unfold State.onTap
  try dsimp only
  repeat' split
  all_goals (repeat' first | exact hs | apply State.showRefused_flow | apply State.reportTap_flow | apply State.cardAttempt_flow | apply State.answerAttempt_flow)

theorem State.onKeypad_flow {a s : State} (hs : Flow a s) (d : Nat) (code : Nat) : Flow a (State.onKeypad s d code) := by
  unfold State.onKeypad
  try dsimp only
  all_goals (repeat' first | exact hs | apply State.keypadAttempt_flow | apply State.answerAttempt_flow)

theorem State.onFaultKey_flow {a s : State} (hs : Flow a s) (d : Nat) (k : BikeFault) : Flow a (State.onFaultKey s d k) := by
  unfold State.onFaultKey
  try dsimp only
  repeat' split
  all_goals (repeat' first | exact hs | apply State.waiveForKey_flow | apply State.reportBike_flow | apply State.reportAbsent_flow)

theorem State.onPowerLow_flow {a s : State} (hs : Flow a s) (d : Nat) : Flow a (State.onPowerLow s d) := by
  unfold State.onPowerLow
  try dsimp only
  all_goals (repeat' first | exact hs | apply State.noteFault_flow)

theorem State.tagResult_flow {a s : State} (hs : Flow a s) (d : Nat) (r : Release) (x : CommandResult) : Flow a (State.tagResult s d r x) := by
  unfold State.tagResult
  try dsimp only
  repeat' split
  all_goals (repeat' first | exact hs | apply State.issue_flow | apply State.editDock_flow | apply State.failTag_flow)
  all_goals first | rfl | (intro; rfl)

theorem State.unlockTimedOut_flow {a s : State} (hs : Flow a s) (d : Nat) : Flow a (State.unlockTimedOut s d) := by
  unfold State.unlockTimedOut
  try dsimp only
  repeat' split
  all_goals (repeat' first | exact hs | apply State.countFault_flow | apply State.failUnlock_flow)

theorem State.lockTimedOut_flow {a s : State} (hs : Flow a s) (d : Nat) : Flow a (State.lockTimedOut s d) := by
  unfold State.lockTimedOut
  try dsimp only
  repeat' split
  all_goals (repeat' first | exact hs | apply State.countFault_flow | apply State.failLock_flow)

theorem State.onEnded_flow {a s : State} (hs : Flow a s) (d : Nat) (c : Command) (x : CommandResult) : Flow a (State.onEnded s d c x) := by
  unfold State.onEnded
  try dsimp only
  repeat' split
  all_goals (repeat' first | exact hs | apply State.reissueShow_flow | apply State.reportTag_flow | apply State.tagResult_flow | apply State.unlockTimedOut_flow | apply State.lockTimedOut_flow)

theorem State.onResult_flow {a s : State} (hs : Flow a s) (d : Nat) (c : Command) (x : CommandResult) : Flow a (State.onResult s d c x) := by
  unfold State.onResult
  split <;> first | exact hs | exact State.onEnded_flow hs _ _ _

theorem State.takeOffline_flow {a s : State} (hs : Flow a s) (d : Nat) (silence : Bool) : Flow a (State.takeOffline s d silence) := by
  unfold State.takeOffline
  try dsimp only
  repeat' split
  all_goals (repeat' first | exact hs | apply State.loseReservation_flow | apply State.startOffline_flow | apply State.reportSilence_flow | apply State.editDock_flow | apply State.discardRelease_flow | apply State.tellVan_flow | apply State.giveUp_flow)
  all_goals first | rfl | (intro; rfl)

theorem State.matchCensus_flow {a s : State} (hs : Flow a s) (d : Nat) (present : Option (Option TagImage)) : Flow a (State.matchCensus s d present) := by
  unfold State.matchCensus
  try dsimp only
  repeat' split
  all_goals (repeat' first | exact hs | apply State.issue_flow | apply State.reportTag_flow | apply State.discardBike_flow | apply State.arrive_flow)

theorem State.reconcile_flow {a s : State} (hs : Flow a s) (d : Nat) (lock : LockPosition)
    (present : Option (Option TagImage)) : Flow a (State.reconcile s d lock present) := by
  unfold State.reconcile
  extract_lets s0 s1 s2 s3 s4
  have h0 : Flow a s0 := by
    unfold s0
    split
    · exact hs
    · exact State.takeOffline_flow hs _ _
  have h1 : Flow a s1 := State.matchCensus_flow (State.editDock_flow h0 _ _) _ _
  have h2 : Flow a s2 := by
    unfold s2
    split
    · exact State.issue_flow h1 _ _
    · exact h1
  have h3 : Flow a s3 := State.editDock_flow h2 _ _
  have h4 : Flow a s4 := by
    unfold s4
    split
    · exact State.censusLockout_flow h3 _
    · exact h3
  exact State.putRun_flow (State.cancelOffline_flow h4 _) _ _

theorem State.overflowPresence_flow {a s : State} (hs : Flow a s) (d : Nat) (present : Option (Option TagImage)) : Flow a (State.overflowPresence s d present) := by
  unfold State.overflowPresence
  try dsimp only
  repeat' split
  all_goals (repeat' first | exact hs | apply State.onRemoved_flow | apply State.onPresent_flow)

theorem State.overflowLock_flow {a s : State} (hs : Flow a s) (d : Nat) (lock : LockPosition) : Flow a (State.overflowLock s d lock) := by
  unfold State.overflowLock
  try dsimp only
  repeat' split
  all_goals (repeat' first | exact hs | apply State.onUnlocked_flow | apply State.onLocked_flow)

theorem State.overflow_flow {a s : State} (hs : Flow a s) (d : Nat) (lock : LockPosition) (present : Option (Option TagImage)) : Flow a (State.overflow s d lock present) := by
  unfold State.overflow
  try dsimp only
  all_goals (repeat' first | exact hs | apply State.editDock_flow | apply State.overflowPresence_flow | apply State.overflowLock_flow)
  all_goals first | rfl | (intro; rfl)

theorem State.windowDue_flow {a s : State} (hs : Flow a s) (d : Nat) : Flow a (State.windowDue s d) := by
  unfold State.windowDue
  try dsimp only
  repeat' split
  all_goals (repeat' first | exact hs | apply State.lapse_flow)

theorem State.relockDue_flow {a s : State} (hs : Flow a s) (d : Nat) : Flow a (State.relockDue s d) := by
  unfold State.relockDue
  try dsimp only
  repeat' split
  all_goals (repeat' first | exact hs | apply State.issue_flow | apply State.editDock_flow)
  all_goals first | rfl | (intro; rfl)

theorem ownDockGet_flow {a s : State} (hs : Flow a s) (d : Nat) : Flow a (ownDockGet d s).1 := by
  unfold ownDockGet
  try dsimp only
  repeat' split
  all_goals (repeat' first | exact hs)

theorem ownDockList_flow {a s : State} (hs : Flow a s) : Flow a (ownDockList s).1 := by
  unfold ownDockList
  try dsimp only
  all_goals (repeat' first | exact hs)

/-! ### Line -/

theorem State.putLine_flow {a s : State} (hs : Flow a s) (n : Nat) (l : StringLine) (hl : l.count = (s.line n).count) :
    Flow a (State.putLine s n l) :=
  hs.strings _ (map_setEntry_same StringLine.count s.strings n (.atStart 0) l hl)

theorem State.poll_flow {a s : State} (hs : Flow a s) (n : Nat) : Flow a (State.poll s n) := by
  unfold State.poll
  dsimp only
  split
  · exact hs
  · split
    · refine State.putNode_flow (State.putLine_flow hs _ _ ?_) _ _
      rfl
    · refine State.putLine_flow hs _ _ ?_
      rfl

theorem State.endPoll_flow {a s : State} (hs : Flow a s) (n : Nat) : Flow a (State.endPoll s n) :=
  State.putLine_flow hs _ _ rfl

theorem State.missPoll_flow {a s : State} (hs : Flow a s) (n : Nat) : Flow a (State.missPoll s n) := by
  unfold State.missPoll
  try dsimp only
  repeat' split
  all_goals (repeat' first | exact hs | apply State.poll_flow | apply State.endPoll_flow)

theorem State.endCensus_flow {a s : State} (hs : Flow a s) : Flow a (State.endCensus s) := by
  unfold State.endCensus
  try dsimp only
  repeat' split
  all_goals (repeat' first | exact hs | apply State.makeSixth_flow | apply State.setAttention_flow | apply Flow.censusLimit)

theorem State.reportCensus_flow {a s : State} (hs : Flow a s) : Flow a (State.reportCensus s) := by
  unfold State.reportCensus
  try dsimp only
  repeat' split
  all_goals (repeat' first | exact hs | apply State.endCensus_flow | apply Flow.censusReported)

theorem State.censusLimitDue_flow {a s : State} (hs : Flow a s) : Flow a (State.censusLimitDue s) := by
  unfold State.censusLimitDue
  try dsimp only
  repeat' split
  all_goals (repeat' first | exact hs | apply State.endCensus_flow)

theorem State.takePower_flow {a s : State} (hs : Flow a s) (d : Nat) (p : PowerState) : Flow a (State.takePower s d p) := by
  unfold State.takePower
  try dsimp only
  repeat' split
  all_goals (repeat' first | exact hs | apply State.putNode_flow | apply State.onPowerLow_flow)

theorem State.takeCommand_flow {a s : State} (hs : Flow a s) (d : Nat) (taken : Option Nat) (o : NodeOutcome) : Flow a (State.takeCommand s d taken o) := by
  unfold State.takeCommand
  try dsimp only
  repeat' split
  all_goals (repeat' first | exact hs | apply State.putNode_flow | apply State.endCommand_flow | apply State.onResult_flow)

theorem State.endOn_flow {a s : State} (hs : Flow a s) (d : Nat) (f : Command → Bool) : Flow a (State.endOn s d f) := by
  unfold State.endOn
  try dsimp only
  repeat' split
  all_goals (repeat' first | exact hs | apply State.endCommand_flow)

theorem State.abandonCommands_flow {a s : State} (hs : Flow a s) (d : Nat) (cause : AbandonCause) :
    Flow a (State.abandonCommands s d cause) := by
  rw [State.abandonCommands_eq]
  exact State.putNode_flow hs _ _

theorem State.takeCensus_flow {a s : State} (hs : Flow a s) (d : Nat) (lock : LockPosition) (present : Option (Option TagImage)) (cause : CensusCause) : Flow a (State.takeCensus s d lock present cause) := by
  unfold State.takeCensus
  try dsimp only
  repeat' split
  all_goals (repeat' first | exact hs | apply State.putNode_flow | apply State.abandonCommands_flow | apply State.reconcile_flow | apply State.overflow_flow | apply State.reportCensus_flow)

theorem State.deliver_flow {a s : State} (hs : Flow a s) (d : Nat) (e : NodeEvent) : Flow a (State.deliver s d e) := by
  unfold State.deliver
  try dsimp only
  repeat' split
  all_goals (repeat' first | exact hs | apply State.removal_flow | apply State.onRemoved_flow | apply State.onPresent_flow | apply State.onUnlocked_flow | apply State.onLocked_flow | apply State.onLockFail_flow | apply State.onTap_flow | apply State.onKeypad_flow | apply State.onFaultKey_flow | apply State.endOn_flow | apply State.takeCensus_flow)

theorem State.takeEvent_flow {a s : State} (hs : Flow a s) (d : Nat) (e : Option (Nat × NodeEvent)) : Flow a (State.takeEvent s d e) := by
  unfold State.takeEvent
  try dsimp only
  repeat' split
  all_goals (repeat' first | exact hs | apply State.putNode_flow | apply State.deliver_flow)

theorem State.hearAnswering_flow {a s : State} (hs : Flow a s) (d : Nat) (r : NodeReply) : Flow a (State.hearAnswering s d r) := by
  unfold State.hearAnswering
  try dsimp only
  all_goals (repeat' first | exact hs | apply State.putNode_flow | apply State.takePower_flow | apply State.takeCommand_flow | apply State.takeEvent_flow)

theorem State.hearSilent_flow {a s : State} (hs : Flow a s) (d : Nat) (r : NodeReply) : Flow a (State.hearSilent s d r) := by
  unfold State.hearSilent
  try dsimp only
  repeat' split
  all_goals (repeat' first | exact hs | apply State.putNode_flow | apply State.reconcile_flow | apply State.reportCensus_flow | apply State.takePower_flow)

theorem State.hear_flow {a s : State} (hs : Flow a s) (n : Nat) (r : NodeReply) : Flow a (State.hear s n r) := by
  unfold State.hear
  try dsimp only
  repeat' split
  all_goals (repeat' first | exact hs | apply State.poll_flow | apply State.endPoll_flow | apply State.hearAnswering_flow | apply State.hearSilent_flow)

theorem State.silenceDue_flow {a s : State} (hs : Flow a s) (d : Nat) : Flow a (State.silenceDue s d) := by
  unfold State.silenceDue
  try dsimp only
  repeat' split
  all_goals (repeat' first | exact hs | apply State.abandonCommands_flow | apply State.putNode_flow | apply State.takeOffline_flow)

theorem State.commandDue_flow {a s : State} (hs : Flow a s) (d : Nat) (f : Command → Bool) : Flow a (State.commandDue s d f) := by
  unfold State.commandDue
  try dsimp only
  repeat' split
  all_goals (repeat' first | exact hs | apply State.endCommand_flow | apply State.onResult_flow)

theorem State.resetNode_flow {a s : State} (hs : Flow a s) (d : Nat) : Flow a (State.resetNode s d) := by
  unfold State.resetNode
  try dsimp only
  all_goals (repeat' first | exact hs | apply State.abandonCommands_flow | apply State.putNode_flow | apply State.takeOffline_flow)

theorem State.resetString_flow {a s : State} (hs : Flow a s) (n : Nat) : Flow a (State.resetString s n) :=
  Flow.foldl State.resetNode (fun _ d h => State.resetNode_flow h d) _ (State.putLine_flow hs _ _ rfl)

theorem ownStringReset_flow {a s : State} (hs : Flow a s) (string : Nat) : Flow a (ownStringReset string s).1 := by
  unfold ownStringReset
  try dsimp only
  repeat' split
  all_goals (repeat' first | exact hs | apply State.resetString_flow)

end Sys2Proof.Machine
end

