-- ==== Sys2Proof/Laws/PerInstr.lean ====
section
/-! SUPPORT. The family `Spelled`, said of each command: a request row stands for one request of the catalogue (11.5), whose kind
number is 1 to 29, and is well-formed where its tag and its fields fit their bytes; and it never acts on a part without power.
Another row is well-formed where its operands are. -/

namespace Sys2Proof.Laws.Spelled

/-- What holds of every command as it is spelled. -/
def Statement (i : Instr) : Prop :=
  match i.request? with
  | some (tag, r) =>
    1 ≤ Machine.requestKind r ∧ Machine.requestKind r ≤ 29 ∧ (i.wf = true ↔ tag < 256 ∧ r.wf = true) ∧ Machine.ofPower i = false
  | none => i.wf = i.eventOk

theorem of_request {i : Instr} {tag : Nat} {r : Request} (h : i.request? = some (tag, r))
    
    (hk : (Nat.ble 1 (Machine.requestKind r) && Nat.ble (Machine.requestKind r) 29) = true) (hp : Machine.ofPower i = false) : Statement i := by
  unfold Statement
  rw [h]
  rw [Bool.and_eq_true] at hk
  refine ⟨Nat.le_of_ble_eq_true hk.1, Nat.le_of_ble_eq_true hk.2, ?_, hp⟩
  simp [Instr.wf, h, fits]

theorem of_event {i : Instr} (h : i.request? = none) : Statement i := by
  unfold Statement
  rw [h]
  simp [Instr.wf, h]

theorem powerOn : Statement .powerOn := of_event rfl
theorem powerLoss (interrupted : List RegionName) : Statement (.powerLoss interrupted) := of_event rfl
theorem startUp (failing : List (RegionName × CopyRole)) : Statement (.startUp failing) := of_event rfl
theorem start : Statement .start := of_event rfl
theorem censusLimitExpiry : Statement .censusLimitExpiry := of_event rfl
theorem dockCensus : Statement .dockCensus := of_event rfl
theorem poll (string : StringName) : Statement (.poll string) := of_event rfl
theorem pollReply (string : StringName) (reply : NodeReply) : Statement (.pollReply string reply) := of_event rfl
theorem missedPoll (string : StringName) : Statement (.missedPoll string) := of_event rfl
theorem silenceTimeout (dock : Nat) : Statement (.silenceTimeout dock) := of_event rfl
theorem tagWriteTimeout (dock : Nat) : Statement (.tagWriteTimeout dock) := of_event rfl
theorem unlockTimeout (dock : Nat) : Statement (.unlockTimeout dock) := of_event rfl
theorem lockTimeout (dock : Nat) : Statement (.lockTimeout dock) := of_event rfl
theorem releaseWindowExpiry (dock : Nat) : Statement (.releaseWindowExpiry dock) := of_event rfl
theorem relockRetryExpiry (dock : Nat) : Statement (.relockRetryExpiry dock) := of_event rfl
theorem offlineTimerExpiry (dock : Nat) : Statement (.offlineTimerExpiry dock) := of_event rfl
theorem settleDeadline (bike : Nat) : Statement (.settleDeadline bike) := of_event rfl
theorem hireClose : Statement .hireClose := of_event rfl
theorem hireAgeExamination : Statement .hireAgeExamination := of_event rfl
theorem passLimitExamination : Statement .passLimitExamination := of_event rfl
theorem passExpiry (slot : Nat) : Statement (.passExpiry slot) := of_event rfl
theorem passSettle : Statement .passSettle := of_event rfl
theorem tariffApplyAt : Statement .tariffApplyAt := of_event rfl
theorem tariffApplied : Statement .tariffApplied := of_event rfl
theorem clockStep : Statement .clockStep := of_event rfl
theorem vanIdleTimeout : Statement .vanIdleTimeout := of_event rfl
theorem vanMove : Statement .vanMove := of_event rfl
theorem vanSummary : Statement .vanSummary := of_event rfl
theorem fault : Statement .fault := of_event rfl
theorem frameGapTimeout (bytes : List Byte) : Statement (.frameGapTimeout bytes) := of_event rfl
theorem badKind (kind tag : Nat) (body : List Byte) : Statement (.badKind kind tag body) := of_event rfl
theorem replySent : Statement .replySent := of_event rfl
theorem noticeSent : Statement .noticeSent := of_event rfl
theorem statusGet (tag : Nat) : Statement (.statusGet tag) := of_request rfl rfl rfl
theorem timeSet (tag time : Nat) : Statement (.timeSet tag time) := of_request rfl rfl rfl
theorem settingSet (tag setting value : Nat) : Statement (.settingSet tag setting value) := of_request rfl rfl rfl
theorem settingGet (tag setting : Nat) : Statement (.settingGet tag setting) := of_request rfl rfl rfl
theorem resetWarm (tag : Nat) : Statement (.resetWarm tag) := of_request rfl rfl rfl
theorem resetStore (tag : Nat) : Statement (.resetStore tag) := of_request rfl rfl rfl
theorem stringReset (tag string : Nat) : Statement (.stringReset tag string) := of_request rfl rfl rfl
theorem dockGet (tag dock : Nat) : Statement (.dockGet tag dock) := of_request rfl rfl rfl
theorem dockList (tag : Nat) : Statement (.dockList tag) := of_request rfl rfl rfl
theorem planSet (tag code : Nat) (fields : PlanArgs) : Statement (.planSet tag code fields) := of_request rfl rfl rfl
theorem planGet (tag code : Nat) : Statement (.planGet tag code) := of_request rfl rfl rfl
theorem terminalAuth (tag terminal kind hold : Nat) (authRef : List Byte) :
    Statement (.terminalAuth tag terminal kind hold authRef) := of_request rfl rfl rfl
theorem passGet (tag slot : Nat) : Statement (.passGet tag slot) := of_request rfl rfl rfl
theorem passCancel (tag slot serial : Nat) : Statement (.passCancel tag slot serial) := of_request rfl rfl rfl
theorem tariffStageBand (tag band : Nat) (edge : Option Nat) (block rate : Nat) :
    Statement (.tariffStageBand tag band edge block rate) := of_request rfl rfl rfl
theorem tariffStageClear (tag : Nat) : Statement (.tariffStageClear tag) := of_request rfl rfl rfl
theorem tariffCommitNow (tag : Nat) : Statement (.tariffCommitNow tag) := of_request rfl rfl rfl
theorem tariffCommitAt (tag time : Nat) : Statement (.tariffCommitAt tag time) := of_request rfl rfl rfl
theorem tariffCommitCancel (tag : Nat) : Statement (.tariffCommitCancel tag) := of_request rfl rfl rfl
theorem tariffGet (tag selector : Nat) : Statement (.tariffGet tag selector) := of_request rfl rfl rfl
theorem policySet (tag kind cls count : Nat) : Statement (.policySet tag kind cls count) := of_request rfl rfl rfl
theorem policyGet (tag kind : Nat) : Statement (.policyGet tag kind) := of_request rfl rfl rfl
theorem riderReport (tag : Nat) (target : TargetArg) (kind source : Nat) (reporter : ReporterArg) :
    Statement (.riderReport tag target kind source reporter) := of_request rfl rfl rfl
theorem vanOpen (tag van crew : Nat) (manifest : List ManifestArg) :
    Statement (.vanOpen tag van crew manifest) := of_request rfl rfl rfl
theorem vanRelease (tag dock : Nat) : Statement (.vanRelease tag dock) := of_request rfl rfl rfl
theorem vanClose (tag session : Nat) : Statement (.vanClose tag session) := of_request rfl rfl rfl
theorem vanGet (tag : Nat) : Statement (.vanGet tag) := of_request rfl rfl rfl
theorem journalRead (tag count : Nat) : Statement (.journalRead tag count) := of_request rfl rfl rfl
theorem journalAckAccepted (tag epoch sequence : Nat) :
    Statement (.journalAckAccepted tag epoch sequence) := of_request rfl rfl rfl
theorem journalAckFatal (tag epoch sequence : Nat) : Statement (.journalAckFatal tag epoch sequence) := of_request rfl rfl rfl
theorem journalAckRetry (tag epoch sequence : Nat) : Statement (.journalAckRetry tag epoch sequence) := of_request rfl rfl rfl
theorem journalReoffer (tag : Nat) : Statement (.journalReoffer tag) := of_request rfl rfl rfl
theorem linkStateUp (tag : Nat) : Statement (.linkStateUp tag) := of_request rfl rfl rfl
theorem linkStateDown (tag : Nat) : Statement (.linkStateDown tag) := of_request rfl rfl rfl
theorem directive (tag id kind : Nat) (args : List Byte) : Statement (.directive tag id kind args) := of_request rfl rfl rfl
theorem bikeSet : Statement .bikeSet := of_event rfl
theorem dockClear : Statement .dockClear := of_event rfl
theorem remoteRelease : Statement .remoteRelease := of_event rfl
theorem denyAdd : Statement .denyAdd := of_event rfl
theorem denyRemove : Statement .denyRemove := of_event rfl
theorem hireClosed : Statement .hireClosed := of_event rfl
theorem passCharge : Statement .passCharge := of_event rfl
theorem faultSummary : Statement .faultSummary := of_event rfl
theorem directiveCensus : Statement .directiveCensus := of_event rfl
theorem discardedFrame (bytes : List Byte) : Statement (.discardedFrame bytes) := of_event rfl

end Sys2Proof.Laws.Spelled
end

