-- ==== Sys2Proof/Laws/Whole.lean ====
section
/-! SUPPORT. The laws of the whole part: what a request's owner keeps, what the link keeps, and what every command keeps. -/

namespace Sys2Proof.Machine

/-! ### What the owner of a request keeps -/

/-- What every owner of a request keeps: the power, the link but for its marks, and the laws; and it has noticed what it
changed. -/
structure Owned (s t : State) : Prop where
  power : t.power = s.power
  link : ({ t.link with marks := .none } : Link) = { s.link with marks := .none }
  credit : s.creditLaw → t.creditLaw
  bounded : s.bounded → t.bounded
  sized : s.sized → t.sized
  noticed : s.sized → Noticed s t

theorem Owned.of_flow {s t : State} (h : Flow s t) : Owned s t := by
  have hs := h.spine
  have h1 : t.power = s.power := congrArg Spine.power hs
  have h2 : ({ t.link with marks := .none } : Link) = { s.link with marks := .none } := congrArg Spine.link hs
  have h3 : t.store.settings = s.store.settings := congrArg Spine.settings hs
  have h4 : t.recordsIn .sent = s.recordsIn .sent := congrArg Spine.sent hs
  refine ⟨h1, h2, fun hc => ?_, h.bounded, h.sized, fun _ => h.noticed⟩
  unfold State.creditLaw State.settings at *
  rw [h3, h4]; exact hc

theorem Noticed.refl (s : State) : Noticed s s := ⟨fun _ h => h, .inl rfl, .inl rfl, .inl rfl, .inl rfl⟩

theorem Noticed.trans {s t u : State} (h1 : Noticed s t) (h2 : Noticed t u) : Noticed s u := by
  obtain ⟨a1, a2, a3, a4, a5⟩ := h1
  obtain ⟨b1, b2, b3, b4, b5⟩ := h2
  refine ⟨fun k hk => b1 k (a1 k hk), ?_, ?_, ?_, ?_⟩
  · rcases b2 with b | b
    · rcases a2 with a | a
      · exact .inl (b.trans a)
      · exact .inr (b1 .dockState a)
    · exact .inr b
  · rcases b3 with b | b
    · rcases a3 with a | a
      · exact .inl (b.trans a)
      · exact .inr (b1 .passState a)
    · exact .inr b
  · rcases b4 with b | b
    · rcases a4 with a | a
      · exact .inl (b.trans a)
      · exact .inr (b1 .attention a)
    · exact .inr b
  · rcases b5 with b | b
    · rcases a5 with a | a
      · exact .inl (b.trans a)
      · exact .inr (b1 .vanState a)
    · exact .inr b

theorem Owned.refl (s : State) : Owned s s := Owned.of_flow .refl

theorem Owned.trans {s t u : State} (h1 : Owned s t) (h2 : Owned t u) : Owned s u :=
  ⟨h2.power.trans h1.power, h2.link.trans h1.link, fun h => h2.credit (h1.credit h), fun h => h2.bounded (h1.bounded h),
    fun h => h2.sized (h1.sized h), fun h => (h1.noticed h).trans (h2.noticed (h1.sized h))⟩

/-! ### Records that change their state -/

/-- Reading out marks at most `k` more records SENT. -/
theorem markSent_sent (k : Nat) (rs : List Record) :
    (markSent k rs).countP (fun r => r.state == .sent) ≤ rs.countP (fun r => r.state == .sent) + k := by
  induction rs generalizing k with
  | nil => cases k <;> simp [markSent]
  | cons r rs ih =>
    cases k with
    | zero => simp [markSent]
    | succ k =>
      by_cases h : r.state = .unsent
      · have := ih k
        simp only [markSent, h, if_true, List.countP_cons]
        simp; omega
      · have := ih (k + 1)
        simp only [markSent, h, if_false, List.countP_cons]
        split <;> omega

/-- A mapping that makes no record SENT leaves no more SENT records. -/
theorem countP_map_le (f : Record → Record) (h : ∀ r, (f r).state = .sent → r.state = .sent) (rs : List Record) :
    (rs.map f).countP (fun r => r.state == .sent) ≤ rs.countP (fun r => r.state == .sent) := by
  rw [List.countP_map]
  exact List.countP_mono_left (fun r _ hr => by simpa using h r (by simpa using hr))

theorem countP_unsend (rs : List Record) : (unsend rs).countP (fun r => r.state == .sent) = 0 := by
  unfold unsend
  rw [List.countP_map, List.countP_eq_zero]
  intro r _
  by_cases h : r.state = .sent <;> simp [h]

theorem State.readFit_le (s : State) (k : Nat) : s.readFit k ≤ k := by
  induction k with
  | zero => exact Nat.le_refl _
  | succ k ih =>
    unfold State.readFit
    split
    · exact Nat.le_refl _
    · omega

/-- Writing the journal's records keeps everything that no record is, and the credit law where no more are SENT. -/
theorem Owned.putRecords {s : State} (rs : List Record)
    (h : s.creditLaw → s.settings.creditLimit = 0 ∨ rs.countP (fun r => r.state == .sent) ≤ s.settings.creditLimit) :
    Owned s (s.putRecords rs) :=
  ⟨rfl, rfl, h, fun h => h, fun h => h, fun _ => (Noticed.refl s).same rfl rfl⟩

theorem State.sent_eq (s : State) : s.recordsIn .sent = s.records.countP (fun r => r.state == .sent) := rfl

theorem ownJournalRead_owned (n : Nat) (s : State) : Owned s (ownJournalRead n s).1 := by
  unfold ownJournalRead
  split
  · exact .refl s
  · dsimp only
    unfold State.readOut
    split
    · exact .refl s
    · refine .putRecords _ (fun hc => ?_)
      have h1 := markSent_sent (s.readFit (s.readLimit n)) s.records
      have h2 := s.readFit_le (s.readLimit n)
      rcases hc with hc | hc
      · exact .inl hc
      · by_cases h0 : s.settings.creditLimit = 0
        · exact .inl h0
        · right
          rw [State.sent_eq] at hc
          have h3 : s.readLimit n ≤ s.settings.creditLimit - s.recordsIn .sent := by
            unfold State.readLimit
            simp only [h0, if_false]
            omega
          rw [State.sent_eq] at h3
          omega

theorem ownRetry_owned (e q : Nat) (s : State) : Owned s (ownRetry e q s).1 := by
  unfold ownRetry
  split
  · exact .refl s
  · refine .putRecords _ (fun hc => hc.imp_right (Nat.le_trans (countP_map_le _ (fun r => ?_) _)))
    by_cases h : r.isSent e q = true
    · simp only [h, if_true]
      unfold Record.retry
      split <;> (intro hx; cases hx)
    · simp [h]

theorem ownReoffer_owned (s : State) : Owned s (ownReoffer s).1 := by
  unfold ownReoffer
  refine .putRecords _ (fun hc => hc.imp_right (Nat.le_trans (countP_map_le _ (fun r => ?_) _)))
  by_cases h : r.state = .parked <;> simp [h]

theorem ownLinkState_owned (v : Nat) (s : State) : Owned s (ownLinkState v s).1 := by
  unfold ownLinkState
  split
  · exact ⟨rfl, rfl, fun h => h, fun h => h, fun h => h, fun _ => (Noticed.refl s).same rfl rfl⟩
  · refine ⟨rfl, rfl, fun h => ?_, fun h => h, fun h => h, fun _ => (Noticed.refl s).same rfl rfl⟩
    right
    show (unsend s.records).countP (fun r => r.state == .sent) ≤ _
    rw [countP_unsend]; exact Nat.zero_le _
  · exact .refl s

theorem ownRemove_owned (fatal : Bool) (e q : Nat) (s : State) : Owned s (ownRemove fatal e q s).1 := by
  unfold ownRemove
  split
  · exact .refl s
  · have h1 : Owned s (s.removeRecord e q) :=
      .putRecords _ (fun hc => hc.imp_right (Nat.le_trans (List.eraseP_sublist.countP_le)))
    dsimp only
    cases fatal with
    | true =>
      refine h1.trans (Owned.trans (t := { s.removeRecord e q with fatal := countUp (s.removeRecord e q).fatal }) ?_
        (.of_flow (State.drain_flow .refl)))
      exact ⟨rfl, rfl, fun h => h, fun h => h, fun h => h, fun _ => (Noticed.refl _).same rfl rfl⟩
    | false => exact h1.trans (.of_flow (State.drain_flow .refl))

theorem ownJournalAck_owned (e q r : Nat) (s : State) : Owned s (ownJournalAck e q r s).1 := by
  unfold ownJournalAck
  split
  · exact ownRemove_owned _ _ _ _
  · exact ownRemove_owned _ _ _ _
  · exact ownRetry_owned _ _ _
  · exact .refl s

theorem ownDirective_owned (id k : Nat) (args : List Byte) (s : State) : Owned s (ownDirective id k args s).1 := by
  unfold ownDirective
  split
  · exact .refl s
  · split
    · exact .refl s
    · rename_i h
      refine Owned.trans (t := { s with directives := s.directives ++ [_] }) ?_ (.of_flow (State.drain_flow .refl))
      refine ⟨rfl, rfl, fun h => h, fun hb => ?_, fun h => h, fun _ => (Noticed.refl _).same rfl rfl⟩
      obtain ⟨h1, h2, h3, h4, _⟩ := hb
      refine ⟨h1, h2, h3, h4, ?_⟩
      simp only [List.length_append, List.length_singleton]
      omega

/-! ### Time, settings, plans and policies -/

theorem State.makeStep_flow {a s : State} (hs : Flow a s) (b : Option Nat) (t : Nat) : Flow a (s.makeStep b t) := by
  unfold State.makeStep
  split
  · split
    · exact State.makeSixth_flow hs _
    · exact hs
  · exact hs

theorem State.presentTime_flow {a s : State} (hs : Flow a s) : Flow a s.presentTime :=
  State.applyAt_flow (State.examineHires_flow (State.examinePasses_flow
    (Flow.foldl State.takeExpiry (fun _ d h => State.takeExpiry_flow h d) slotNumbers hs)))

theorem ownTimeSet_owned (t : Nat) (s : State) : Owned s (ownTimeSet t s).1 := by
  unfold ownTimeSet
  split
  · exact .refl s
  · dsimp only
    refine Owned.trans (t := { s with clock := .running t s.elapsed }) ?_
      (.of_flow (State.presentTime_flow (State.makeStep_flow .refl _ _)))
    exact ⟨rfl, rfl, fun h => h, fun h => h, fun h => h, fun _ => (Noticed.refl _).same rfl rfl⟩

/-- Writing the settings region keeps the laws where the policy table keeps its size and the credit limit its law. -/
theorem Owned.putSettings {s : State} (v : SettingsRegion) (hp : v.policy.length = s.store.settings.cur.policy.length)
    (hc : s.creditLaw → v.settings.creditLimit = 0 ∨ s.recordsIn .sent ≤ v.settings.creditLimit) :
    Owned s (s.putSettings v) := by
  refine ⟨rfl, rfl, hc, fun h => h, fun h => ?_, fun _ => (Noticed.refl s).same rfl rfl⟩
  obtain ⟨h1, h2, h3, h4, h5, h6, h7, h8, h9, h10, h11⟩ := h
  exact ⟨h1, h2, h3, h4, h5, h6, h7, h8, h9, hp.trans h10, h10⟩

theorem ownSettingSet_owned (n v : Nat) (s : State) : Owned s (ownSettingSet n v s).1 := by
  unfold ownSettingSet
  split
  · exact .refl s
  · rename_i n _
    split
    · exact .refl s
    · rename_i h
      cases n with
      | creditLimit =>
        refine .putSettings _ rfl (fun _ => ?_)
        by_cases h0 : SettingName.creditLimit.clamp v = 0
        · exact .inl h0
        · right
          simp only [State.settingRefusal] at h
          split at h
          · cases h
          · rename_i hn
            simp only [ne_eq, h0, not_false_eq_true, true_and, Nat.not_lt] at hn
            exact hn
      | stationId => exact ⟨rfl, rfl, fun h => h, fun h => h, fun h => h, fun _ => (Noticed.refl s).same rfl rfl⟩
      | _ => exact .putSettings _ rfl (fun hc => hc)

theorem ownPolicySet_owned (k c n : Nat) (s : State) : Owned s (ownPolicySet k c n s).1 := by
  unfold ownPolicySet
  split
  · exact .refl s
  · split
    · exact .refl s
    · split
      · exact .refl s
      · exact .putSettings _ (length_setEntry _ _ _) (fun hc => hc)

theorem ownPlanSet_owned (code : Nat) (f : PlanArgs) (s : State) : Owned s (ownPlanSet code f s).1 := by
  unfold ownPlanSet
  split
  · exact .refl s
  · split
    · exact .refl s
    · refine ⟨rfl, rfl, fun h => h, fun h => h, fun h => ?_, fun _ => (Noticed.refl s).same rfl rfl⟩
      obtain ⟨h1, h2, h3, h4, h5, h6, h7, h8, h9, h10⟩ := h
      refine ⟨h1, h2, h3, h4, h5, h6, h7, ?_, h8, h10⟩
      show (s.plans.set code _).length = 16
      rw [List.length_set]; exact h8

/-- Slots that are all FREE have no state. -/
theorem free_states (l : List (Option Pass)) (h : l.all (fun p => p.isNone) = true) :
    l.map (fun p => p.map (fun q => q.state)) = List.replicate l.length none := by
  induction l with
  | nil => rfl
  | cons p l ih =>
    simp only [List.all_cons, Bool.and_eq_true, Option.isNone_iff_eq_none] at h
    simp [h.1, List.replicate_succ, ih h.2]

theorem State.defaultStore_owned (s : State) (hf : s.store.passes.cur.slots.all (fun p => p.isNone) = true) :
    Owned s s.defaultStore := by
  refine ⟨by simp [State.defaultStore], by simp [State.defaultStore], fun _ => .inr ?_, fun h => ?_, fun h => ?_,
    fun h => ?_⟩
  · simp [State.recordsIn, State.records, State.defaultStore]
  · obtain ⟨h1, h2, h3⟩ := h
    refine ⟨?_, ?_, ?_⟩
    · simp [State.defaultStore, SettleRegion.default]
    · simpa [State.defaultStore] using h1
    · simpa [State.defaultStore] using h3
  · obtain ⟨h1, h2, h3, h4, h5, h6, h7, h8, h9, h10, h11⟩ := h
    simp [State.sized, State.defaultStore, PassRegion.default, SettingsRegion.default, Policy.defaults, plansDefault, *]
  · have h6 : s.store.passes.cur.slots.length = 32 := h.2.2.2.2.2.1
    have h7 := free_states _ hf
    rw [h6] at h7
    refine ⟨fun _ h => by simpa [State.defaultStore] using h, .inl ?_, .inl ?_, .inl ?_, .inl ?_⟩
    · simp [State.watched, State.defaultStore]
    · simp only [State.watched]
      rw [h7]
      simp [State.defaultStore, PassRegion.default]
    · simp [State.watched, State.defaultStore]
    · simp [State.watched, State.defaultStore]

theorem ownReset_owned (m : Nat) (s : State) : Owned s (ownReset m s).1 := by
  unfold ownReset
  split
  · exact .refl s
  · split
    · exact .refl s
    · rename_i h
      refine s.defaultStore_owned ?_
      unfold State.firstHeld at h
      split at h
      · cases h
      · split at h
        · cases h
        · split at h
          · cases h
          · split at h
            · assumption
            · cases h
  · exact .refl s

/-! ### The owners together -/

/-- Every owner of a request keeps what `Owned` says. -/
theorem own_owned (r : Request) (s : State) : Owned s (own r s).1 := by
  cases r with
  | statusGet => exact .refl s
  | timeSet t => exact ownTimeSet_owned t s
  | settingSet n v => exact ownSettingSet_owned n v s
  | settingGet n => unfold own ownSettingGet; dsimp only; repeat' split
                    all_goals exact .refl s
  | reset m => exact ownReset_owned m s
  | stringReset l => exact .of_flow (ownStringReset_flow .refl l)
  | dockGet d => exact .of_flow (ownDockGet_flow .refl d)
  | dockList => exact .refl s
  | planSet c f => exact ownPlanSet_owned c f s
  | planGet c => exact .of_flow (ownPlanGet_flow .refl c)
  | terminalAuth t k h ref => exact .of_flow (ownTerminalAuth_flow .refl t k h ref)
  | passGet n => exact .of_flow (ownPassGet_flow .refl n)
  | passCancel n m => exact .of_flow (ownPassCancel_flow .refl n m)
  | tariffStageBand b e k r => exact .of_flow (ownStageBand_flow .refl b e k r)
  | tariffStageClear => exact .of_flow (ownStageClear_flow .refl)
  | tariffCommit m => exact .of_flow (ownTariffCommit_flow .refl m)
  | tariffGet n => exact .of_flow (ownTariffGet_flow .refl n)
  | policySet k c n => exact ownPolicySet_owned k c n s
  | policyGet k => exact .of_flow (ownPolicyGet_flow .refl k)
  | riderReport t k x w => exact .of_flow (ownRiderReport_flow .refl t k x w)
  | vanOpen v c m => exact .of_flow (ownVanOpen_flow .refl v c m)
  | vanRelease d => exact .of_flow (ownVanRelease_flow .refl d)
  | vanClose n => exact .of_flow (ownVanClose_flow .refl n)
  | vanGet => exact .of_flow (ownVanGet_flow .refl)
  | journalRead n => exact ownJournalRead_owned n s
  | journalAck e q r => exact ownJournalAck_owned e q r s
  | journalReoffer => exact ownReoffer_owned s
  | linkState v => exact ownLinkState_owned v s
  | directive id k a => exact ownDirective_owned id k a s
  | badKind k => exact .refl s
  | badLength k => exact .refl s

end Sys2Proof.Machine
end

