-- ==== Sys2Proof/Laws/Steps.lean ====
section
/-! SUPPORT. The laws of the part over every command: the link, the rows, power and the start-up. -/

namespace Sys2Proof.Machine

/-- The laws of `s` are laws of `t`. -/
structure Lawful (s t : State) : Prop where
  credit : s.creditLaw → t.creditLaw
  holding : s.holdingLaw → t.holdingLaw
  bounded : s.bounded → t.bounded
  sized : s.sized → t.sized

theorem Lawful.refl (s : State) : Lawful s s := ⟨id, id, id, id⟩

theorem Lawful.trans {s t u : State} (h1 : Lawful s t) (h2 : Lawful t u) : Lawful s u :=
  ⟨fun h => h2.credit (h1.credit h), fun h => h2.holding (h1.holding h), fun h => h2.bounded (h1.bounded h),
    fun h => h2.sized (h1.sized h)⟩

theorem Owned.lawful {s t : State} (h : Owned s t) : Lawful s t := by
  refine ⟨h.credit, fun hh => ?_, h.bounded, h.sized⟩
  have h0 := congrArg Link.holding h.link
  have : t.link.holding = s.link.holding := h0
  unfold State.holdingLaw
  rw [this]; exact hh

theorem Flow.lawful {s t : State} (h : Flow s t) : Lawful s t := (Owned.of_flow h).lawful

/-- Another link with no more than four holding places keeps the laws. -/
theorem Lawful.link {s : State} (l : Link) (h : s.holdingLaw → l.holding.length ≤ Config.holdingPlaces) :
    Lawful s { s with link := l } :=
  ⟨id, h, id, id⟩

/-- Another link with the same marks has noticed all. -/
theorem Noticed.link {s : State} (l : Link) (h : l.marks = s.link.marks) : Noticed s { s with link := l } :=
  (Noticed.refl s).same h rfl

/-! ### The holding list -/

@[simp] theorem setReply_length (r : Reply) (l : List Held) : (setReply r l).length = l.length := by cases l <;> rfl

/-- Handing a request on keeps the laws, and notices what its owner changed. -/
theorem State.handOn_lawful (s : State) : Lawful s s.handOn ∧ (s.sized → Noticed s s.handOn) := by
  unfold State.handOn
  split
  · exact ⟨.refl s, fun _ => .refl s⟩
  · split
    · exact ⟨.refl s, fun _ => .refl s⟩
    · rename_i h _ _ _
      have ho := own_owned h.request s
      dsimp only [State.putLink]
      refine ⟨ho.lawful.trans (.link _ (fun hh => ?_)), fun hz => (ho.noticed hz).trans (.link _ rfl)⟩
      simp only [setReply_length]; exact hh

theorem State.takeRequest_lawful (s : State) (tag : Nat) (r : Request) :
    Lawful s (s.takeRequest tag r) ∧ (s.sized → Noticed s (s.takeRequest tag r)) := by
  unfold State.takeRequest
  split
  · exact ⟨.link _ id, fun _ => .link _ rfl⟩
  · rename_i h
    have h1 : Lawful s (s.putLink { s.link with holding := s.link.holding ++ [⟨tag, r, none⟩] }) :=
      .link _ (fun _ => by simp only [List.length_append, List.length_singleton]; omega)
    have h2 : Noticed s (s.putLink { s.link with holding := s.link.holding ++ [⟨tag, r, none⟩] }) := .link _ rfl
    dsimp only
    split
    · have h3 := State.handOn_lawful (s.putLink { s.link with holding := s.link.holding ++ [⟨tag, r, none⟩] })
      exact ⟨h1.trans h3.1, fun hz => h2.trans (h3.2 hz)⟩
    · exact ⟨h1, fun _ => h2⟩

theorem State.takeFrames_lawful (s : State) (frames : List RawFrame) :
    Lawful s (s.takeFrames frames) ∧ (s.sized → Noticed s (s.takeFrames frames)) := by
  unfold State.takeFrames
  induction frames generalizing s with
  | nil => exact ⟨.refl s, fun _ => .refl s⟩
  | cons f l ih =>
    have h1 := State.takeRequest_lawful s f.2.1 (requestOfFrame f.1 f.2.2)
    have h2 := ih (s.takeRequest f.2.1 (requestOfFrame f.1 f.2.2))
    exact ⟨h1.1.trans h2.1, fun hz => (h1.2 hz).trans (h2.2 (h1.1.sized hz))⟩

theorem State.searchAgain_lawful (s : State) : Lawful s s.searchAgain ∧ (s.sized → Noticed s s.searchAgain) := by
  have h1 : Lawful s (s.putLink { s.link with receiving := [] }) := .link _ id
  have h2 : Noticed s (s.putLink { s.link with receiving := [] }) := .link _ rfl
  have h3 := State.takeFrames_lawful (s.putLink { s.link with receiving := [] }) s.link.buried
  exact ⟨h1.trans h3.1, fun hz => h2.trans (h3.2 hz)⟩

theorem State.gapDue_lawful (s : State) : Lawful s s.gapDue ∧ (s.sized → Noticed s s.gapDue) := by
  unfold State.gapDue
  split
  · exact s.searchAgain_lawful
  · exact ⟨.refl s, fun _ => .refl s⟩

theorem State.receiveRequest_lawful (s : State) (tag : Nat) (r : Request) :
    Lawful s (s.receiveRequest tag r) ∧ (s.sized → Noticed s (s.receiveRequest tag r)) := by
  have h1 := s.searchAgain_lawful
  have h3 := State.takeRequest_lawful s.searchAgain tag r
  exact ⟨h1.1.trans h3.1, fun hz => (h1.2 hz).trans (h3.2 (h1.1.sized hz))⟩

theorem State.joinBytes_lawful (s : State) (bytes : List Byte) :
    Lawful s (s.joinBytes bytes) ∧ (s.sized → Noticed s (s.joinBytes bytes)) := by
  unfold State.joinBytes
  dsimp only
  generalize receive false (s.link.receiving ++ bytes).length (s.link.receiving ++ bytes) = found
  have h1 : Lawful s (s.putLink { s.link with receiving := found.2, lastByteAt := s.elapsed }) := .link _ id
  have h2 : Noticed s (s.putLink { s.link with receiving := found.2, lastByteAt := s.elapsed }) := .link _ rfl
  have h3 := State.takeFrames_lawful (s.putLink { s.link with receiving := found.2, lastByteAt := s.elapsed }) found.1
  exact ⟨h1.trans h3.1, fun hz => h2.trans (h3.2 hz)⟩

theorem State.takeBytes_lawful (s : State) (bytes : List Byte) :
    Lawful s (s.takeBytes bytes) ∧ (s.sized → Noticed s (s.takeBytes bytes)) := by
  unfold State.takeBytes
  split
  · exact ⟨.refl s, fun _ => .refl s⟩
  · have h1 := s.gapDue_lawful
    have h3 := State.joinBytes_lawful s.gapDue bytes
    exact ⟨h1.1.trans h3.1, fun hz => (h1.2 hz).trans (h3.2 (h1.1.sized hz))⟩

theorem State.gapThen_lawful (s : State) (bytes : List Byte) :
    Lawful s (if bytes = [] then s.gapDue else s.takeBytes bytes) ∧
      (s.sized → Noticed s (if bytes = [] then s.gapDue else s.takeBytes bytes)) := by
  split
  · exact s.gapDue_lawful
  · exact s.takeBytes_lawful bytes

/-! ### Frames sent -/

theorem State.sentNotice_lawful (s : State) : Lawful s s.sentNotice := by
  unfold State.sentNotice
  split
  · split
    · exact .link _ id
    · exact .link _ id
  · exact .refl s

theorem State.sentBusy_lawful (s : State) : Lawful s s.sentBusy ∧ Noticed s s.sentBusy := by
  unfold State.sentBusy
  split
  · exact ⟨.link _ id, .link _ rfl⟩
  · exact ⟨.link _ id, .link _ rfl⟩

theorem State.sentHeld_lawful (s : State) :
    Lawful s s.sentHeld ∧ (s.sized → s.sentHeld.power = .running → Noticed s s.sentHeld) := by
  unfold State.sentHeld
  split
  · exact ⟨.link _ id, fun _ _ => .link _ rfl⟩
  · rename_i h rest hh
    split
    · exact ⟨.link _ id, fun _ _ => .link _ rfl⟩
    · split
      · refine ⟨⟨id, fun _ => Nat.zero_le _, id, id⟩, fun _ hp => ?_⟩
        cases hp
      · rename_i r _ _ _
        have h1 : Lawful s (s.putLink { s.link with
            holding := rest, lastFrame := some (.reply (requestKind h.request) h.tag r), sending := none }) := by
          refine .link _ (fun hl => ?_)
          unfold State.holdingLaw at hl
          rw [hh] at hl
          exact Nat.le_trans (Nat.le_succ _) hl
        have h2 := State.handOn_lawful (s.putLink { s.link with
          holding := rest, lastFrame := some (.reply (requestKind h.request) h.tag r), sending := none })
        exact ⟨h1.trans h2.1, fun hz _ => Noticed.trans (.link _ rfl) (h2.2 hz)⟩

theorem State.sentReply_lawful (s : State) :
    Lawful s s.sentReply ∧ (s.sized → s.sentReply.power = .running → Noticed s s.sentReply) := by
  unfold State.sentReply
  split
  · exact s.sentHeld_lawful
  · exact ⟨s.sentBusy_lawful.1, fun _ _ => s.sentBusy_lawful.2⟩
  · exact ⟨.refl s, fun _ _ => .refl s⟩
  · exact ⟨.refl s, fun _ _ => .refl s⟩

/-! ### What follows every command -/

theorem State.raiseReady_flow {a s : State} (h : Flow a s) (b : State) : Flow a (s.raiseReady b) := by
  unfold State.raiseReady
  split
  · exact h.raise _
  · exact h

theorem State.chooseFrame_lawful (s : State) : Lawful s s.chooseFrame ∧ Noticed s s.chooseFrame := by
  unfold State.chooseFrame
  split
  · exact ⟨.link _ id, .link _ rfl⟩
  · exact ⟨.refl s, .refl s⟩

theorem State.finish_lawful (s b : State) : Lawful s (s.finish b) ∧ Noticed s (s.finish b) := by
  have h1 : Flow s (s.showAll.raiseReady b) := State.raiseReady_flow (State.showAll_flow .refl) b
  have h2 := State.chooseFrame_lawful (s.showAll.raiseReady b)
  exact ⟨h1.lawful.trans h2.1, h1.noticed.trans h2.2⟩

/-- What a command of a running part keeps, where its own effect keeps it. -/
theorem State.running_lawful {s : State} {f : State → State} (h : Lawful s (f s)) : Lawful s (s.running f) := by
  unfold State.running
  split
  · split
    · exact h.trans (State.finish_lawful _ _).1
    · exact h
  · exact .refl s

theorem State.running_noticed {s : State} {f : State → State} (hr : s.power = .running)
    (h : (f s).power = .running → Noticed s (f s)) (hp : (s.running f).power = .running) : Noticed s (s.running f) := by
  unfold State.running at hp ⊢
  rw [if_pos hr] at hp ⊢
  split
  · rename_i hf
    exact (h hf).trans (State.finish_lawful _ _).2
  · rename_i hf
    rw [if_neg hf] at hp
    exact absurd hp hf

/-! ### Power and the start-up -/

theorem State.losePower_lawful (s : State) (l : List RegionName) : Lawful s (s.losePower l) := by
  have h1 : ∀ x : Store, (l.foldl (fun x r => x.spoil (r, .newer)) x).settle.cur = x.settle.cur ∧
      (l.foldl (fun x r => x.spoil (r, .newer)) x).settle.old = x.settle.old ∧
      (l.foldl (fun x r => x.spoil (r, .newer)) x).passes.cur = x.passes.cur ∧
      (l.foldl (fun x r => x.spoil (r, .newer)) x).passes.old = x.passes.old ∧
      (l.foldl (fun x r => x.spoil (r, .newer)) x).plans.cur = x.plans.cur ∧
      (l.foldl (fun x r => x.spoil (r, .newer)) x).plans.old = x.plans.old ∧
      (l.foldl (fun x r => x.spoil (r, .newer)) x).settings.cur = x.settings.cur ∧
      (l.foldl (fun x r => x.spoil (r, .newer)) x).settings.old = x.settings.old ∧
      (l.foldl (fun x r => x.spoil (r, .newer)) x).journal.cur = x.journal.cur := by
    induction l with
    | nil => intro x; simp
    | cons r l ih =>
      intro x
      obtain ⟨a1, a2, a3, a4, a5, a6, a7, a8, a9⟩ := ih (x.spoil (r, .newer))
      cases r <;> exact ⟨a1, a2, a3, a4, a5, a6, a7, a8, a9⟩
  obtain ⟨a1, a2, a3, a4, a5, a6, a7, a8, a9⟩ := h1 s.store
  refine ⟨fun h => ?_, fun _ => Nat.zero_le _, fun h => ?_, fun h => ?_⟩
  · unfold State.creditLaw State.settings State.recordsIn State.records State.losePower State.volatile at *
    dsimp only at *
    rw [a7, a9]; exact h
  · obtain ⟨b1, b2, _⟩ := h
    unfold State.bounded State.losePower State.volatile
    dsimp only
    rw [a1, a2]
    exact ⟨b1, b2, Nat.zero_le _, Nat.zero_le _, Nat.zero_le _⟩
  · obtain ⟨_, _, _, _, _, b6, b7, b8, b9, b10, b11⟩ := h
    unfold State.sized State.losePower State.volatile
    dsimp only
    rw [a3, a4, a5, a6, a7, a8]
    exact ⟨rfl, rfl, rfl, rfl, rfl, b6, b7, b8, b9, b10, b11⟩

/-- What a store must hold in both copies for the laws. -/
def Store.fit (x : Store) : Prop :=
  x.settle.cur.entries.length ≤ Config.settlePlaces ∧ x.settle.old.entries.length ≤ Config.settlePlaces ∧
    x.passes.cur.slots.length = 32 ∧ x.passes.old.slots.length = 32 ∧ x.plans.cur.length = 16 ∧ x.plans.old.length = 16 ∧
    x.settings.cur.policy.length = 8 ∧ x.settings.old.policy.length = 8

theorem Store.spoil_fit {x : Store} (h : x.fit) (c : RegionName × CopyRole) : (x.spoil c).fit := by
  obtain ⟨n, r⟩ := c
  cases n <;> cases r <;> exact h

theorem Store.foldl_spoil_fit {x : Store} (h : x.fit) (l : List (RegionName × CopyRole)) : (l.foldl Store.spoil x).fit := by
  induction l generalizing x with
  | nil => exact h
  | cons c l ih => exact ih (Store.spoil_fit h c)

/-- The check of a region leaves two copies that were copies of it, or its defaults. -/
theorem Region.check_copies {α : Type} (r : Region α) (d : α) (P : α → Prop) (hc : P r.cur) (ho : P r.old) (hd : P d) :
    P (r.check d).1.cur ∧ P (r.check d).1.old := by
  unfold Region.check
  split
  · exact ⟨hc, ho⟩
  · split
    · exact ⟨ho, hc⟩
    · exact ⟨hd, hc⟩

theorem Store.check_fit {x : Store} (h : x.fit) : x.check.fit := by
  obtain ⟨h1, h2, h3, h4, h5, h6, h7, h8⟩ := h
  have a := x.settle.check_copies .default (fun v => v.entries.length ≤ Config.settlePlaces) h1 h2 (Nat.zero_le _)
  have b := x.passes.check_copies .default (fun v => v.slots.length = 32) h3 h4 rfl
  have c := x.plans.check_copies plansDefault (fun v => v.length = 16) h5 h6 rfl
  have d := x.settings.check_copies .default (fun v => v.policy.length = 8) h7 h8 rfl
  exact ⟨a.1, a.2, b.1, b.2, c.1, c.2, d.1, d.2⟩

theorem State.endRide_flow {a s : State} (hs : Flow a s) (x : PassState) (slot : Nat) :
    Flow a (State.endRide x s slot) := by
  unfold State.endRide
  split
  · split
    · exact hs.putPass _ _
    · exact hs
  · exact hs

theorem State.repairPasses_flow {a s : State} (hs : Flow a s) (p h e : Bool) : Flow a (s.repairPasses p h e) := by
  unfold State.repairPasses
  extract_lets s1 s2
  have h1 : Flow a s1 := by
    unfold s1
    split
    · exact hs.putHires _
    · exact hs
  have h2 : Flow a s2 := by
    unfold s2
    split
    · exact Flow.foldl _ (fun _ d h => State.endRide_flow h _ d) _ h1
    · exact h1
  split
  · exact Flow.foldl _ (fun _ d h => State.endRide_flow h _ d) _ h2
  · exact h2

theorem State.unsendAll_sent (s : State) : s.unsendAll.recordsIn .sent = 0 := by
  unfold State.unsendAll
  split
  · assumption
  · exact countP_unsend s.records

theorem State.unsendAll_owned (s : State) : Owned s s.unsendAll := by
  unfold State.unsendAll
  split
  · exact .refl s
  · refine .putRecords _ (fun _ => .inr ?_)
    rw [countP_unsend]; exact Nat.zero_le _

theorem State.resumeTariff_flow {a s : State} (hs : Flow a s) : Flow a s.resumeTariff := by
  unfold State.resumeTariff
  split
  · exact hs.sixth _
  · exact hs

theorem State.beginCensus_flow {a s : State} (hs : Flow a s) (c : StartCause) (l : List RegionName) :
    Flow a (s.beginCensus c l) :=
  State.reportCensus_flow ((State.makeSixth_flow hs _).censusLimit _)

/-- The laws of a state that a start-up leaves, from a store with fit contents. -/
theorem State.startUp_laws (s : State) (c : StartCause) (l : List (RegionName × CopyRole)) (h : s.store.fit) :
    (s.startUp c l).bounded ∧ (s.startUp c l).sized ∧ (s.startUp c l).holdingLaw := by
  unfold State.startUp
  extract_lets v0 v spoiled
  have h1 : spoiled.store.fit := by
    unfold spoiled v v0
    split
    · exact h
    · exact Store.foldl_spoil_fit h l
  have h2 : spoiled.faults = [] ∧ spoiled.van.moves = [] ∧ spoiled.directives = [] ∧ spoiled.link.holding = [] ∧
      spoiled.nodes.length = 64 ∧ spoiled.readerRuns.length = 64 ∧ spoiled.offlineAt.length = 64 := by
    unfold spoiled v v0
    split <;> exact ⟨rfl, rfl, rfl, rfl, by simp [State.volatile], by simp [State.volatile], by simp [State.volatile]⟩
  obtain ⟨e1, e2, e3, e4, e5, e6, e7⟩ := h2
  -- after the check of the store
  have k1 := Store.check_fit h1
  let t0 : State := { spoiled with store := spoiled.store.check }
  let t1 := t0.repairJournal spoiled.store.journal.isDamaged spoiled.store.epoch.isDamaged
  have hj : t1.store.settle = t0.store.settle ∧ t1.store.passes = t0.store.passes ∧ t1.store.plans = t0.store.plans ∧
      t1.store.settings = t0.store.settings ∧ t1.faults = t0.faults ∧ t1.van = t0.van ∧ t1.directives = t0.directives ∧
      t1.link = t0.link ∧ t1.nodes = t0.nodes ∧ t1.readerRuns = t0.readerRuns ∧ t1.offlineAt = t0.offlineAt := by
    unfold t1 State.repairJournal
    dsimp only
    split <;> split <;> exact ⟨rfl, rfl, rfl, rfl, rfl, rfl, rfl, rfl, rfl, rfl, rfl⟩
  obtain ⟨j1, j2, j3, j4, j5, j6, j7, j8, j9, j10, j11⟩ := hj
  have hf : Flow t1 spoiled.checkStore := State.repairPasses_flow .refl _ _ _
  have b1 : t1.bounded := by
    refine ⟨?_, ?_, ?_, ?_, ?_⟩
    · rw [j1]; exact k1.1
    · rw [j1]; exact k1.2.1
    · rw [j5]; show spoiled.faults.length ≤ _; rw [e1]; exact Nat.zero_le _
    · rw [j6]; show spoiled.van.moves.length ≤ _; rw [e2]; exact Nat.zero_le _
    · rw [j7]; show spoiled.directives.length ≤ _; rw [e3]; exact Nat.zero_le _
  have b2 := hf.bounded b1
  have sp := hf.spine
  -- the table sizes, once the dock table and the strings have been taken
  have z : (spoiled.checkStore.takeCounts).sized := by
    have f1 : spoiled.checkStore.nodes.length = 64 := by
      have := congrArg Spine.nodes sp
      simp only [State.spine] at this
      rw [this, j9]; exact e5
    have f2 : spoiled.checkStore.readerRuns.length = 64 := by
      have := congrArg Spine.runs sp
      simp only [State.spine] at this
      rw [this, j10]; exact e6
    have f3 : spoiled.checkStore.offlineAt.length = 64 := by
      have := congrArg Spine.offline sp
      simp only [State.spine] at this
      rw [this, j11]; exact e7
    have f4 : spoiled.checkStore.store.plans = t1.store.plans := congrArg Spine.plans sp
    have f5 : spoiled.checkStore.store.settings = t1.store.settings := congrArg Spine.settings sp
    let w : State := { t1 with docks := List.replicate 64 (.atStart false), strings := List.replicate 4 (.atStart 0) }
    have hw : ∀ {x : State}, Flow t1 x → x.store.passes.cur.slots.length = 32 ∧ x.store.passes.old.slots.length = 32 := by
      intro x hx
      induction hx with
      | refl => rw [j2]; exact ⟨k1.2.2.1, k1.2.2.2.1⟩
      | post _ b ih => simpa using ih
      | putPass _ slot p ih =>
        unfold State.putPass
        dsimp only
        split <;> exact ⟨by simpa using ih.1, ih.1⟩
      | sold _ v hv ih => exact ⟨hv.trans ih.1, ih.1⟩
      | putDock _ d x hx ih =>
        unfold State.putDock
        dsimp only
        split <;> exact ih
      | putVan _ v hv ih =>
        unfold State.putVan
        dsimp only
        split <;> exact ih
      | _ => rename_i ih; exact ih
    have f6 := hw hf
    refine ⟨?_, f1, ?_, f2, f3, f6.1, f6.2, ?_, ?_, ?_, ?_⟩
    · simp [State.takeCounts, dockNumbers]
    · unfold State.takeCounts State.countsInForce
      dsimp only
      split <;> simp
    · show spoiled.checkStore.store.plans.cur.length = 16
      rw [f4, j3]; exact k1.2.2.2.2.1
    · show spoiled.checkStore.store.plans.old.length = 16
      rw [f4, j3]; exact k1.2.2.2.2.2.1
    · show spoiled.checkStore.store.settings.cur.policy.length = 8
      rw [f5, j4]; exact k1.2.2.2.2.2.2.1
    · show spoiled.checkStore.store.settings.old.policy.length = 8
      rw [f5, j4]; exact k1.2.2.2.2.2.2.2
  have hl : (spoiled.checkStore.takeCounts).holdingLaw := by
    have h3 : spoiled.checkStore.link.holding = t1.link.holding := congrArg (fun x : Spine => x.link.holding) sp
    have h4 : t1.link.holding = [] := by rw [j8]; exact e4
    show spoiled.checkStore.link.holding.length ≤ _
    rw [h3, h4]; exact Nat.zero_le _
  have g1 : Flow (spoiled.checkStore.takeCounts)
      ((spoiled.checkStore.takeCounts.resumeTariff.drain).finaliseAll Config.settlePlaces) :=
    State.finaliseAll_flow (State.drain_flow (State.resumeTariff_flow .refl)) _
  have g2 : Lawful (spoiled.checkStore.takeCounts) (spoiled.checkStore.takeCounts.settleStart) :=
    g1.lawful.trans (State.unsendAll_owned _).lawful
  have g3 := g2.trans (Flow.lawful (State.beginCensus_flow (.refl (a := spoiled.checkStore.takeCounts.settleStart)) c
    spoiled.store.damaged))
  exact ⟨g3.bounded b2, g3.sized z, g3.holding hl⟩

theorem State.sent_of_spine {x y : State} (h : x.spine = y.spine) : x.recordsIn .sent = y.recordsIn .sent :=
  congrArg Spine.sent h

theorem State.holding_of_spine {x y : State} (h : x.spine = y.spine) : x.link.holding = y.link.holding :=
  congrArg (fun z : Spine => z.link.holding) h

/-- After a start-up no record is SENT (R168). -/
theorem State.startUp_sent (s : State) (c : StartCause) (l : List (RegionName × CopyRole)) :
    (s.startUp c l).recordsIn .sent = 0 := by
  unfold State.startUp
  extract_lets v0 v spoiled
  generalize spoiled.checkStore.takeCounts = t
  generalize spoiled.store.damaged = d
  rw [State.sent_of_spine (State.beginCensus_flow (.refl (a := t.settleStart)) c d).spine, State.settleStart]
  exact State.unsendAll_sent _

/-- A start-up holds no request (R194). -/
theorem State.startUp_holding (s : State) (c : StartCause) (l : List (RegionName × CopyRole)) :
    (s.startUp c l).link.holding = [] := by
  unfold State.startUp
  extract_lets v0 v spoiled
  have e : spoiled.link.holding = [] := by
    unfold spoiled v v0
    split <;> rfl
  have h1 : spoiled.checkStore.link.holding = spoiled.link.holding := by
    unfold State.checkStore
    refine (State.holding_of_spine (State.repairPasses_flow .refl _ _ _).spine).trans ?_
    unfold State.repairJournal
    dsimp only
    split <;> split <;> rfl
  have h2 : spoiled.checkStore.takeCounts.link.holding = [] := h1.trans e
  revert h2
  generalize spoiled.checkStore.takeCounts = t
  generalize spoiled.store.damaged = d
  intro h2
  rw [State.holding_of_spine (State.beginCensus_flow (.refl (a := t.settleStart)) c d).spine, State.settleStart]
  have h3 := congrArg Link.holding
    (State.unsendAll_owned (t.resumeTariff.drain.finaliseAll Config.settlePlaces)).link
  have h4 : (t.resumeTariff.drain.finaliseAll Config.settlePlaces).unsendAll.link.holding =
    (t.resumeTariff.drain.finaliseAll Config.settlePlaces).link.holding := h3
  rw [h4, State.holding_of_spine (State.finaliseAll_flow (State.drain_flow (State.resumeTariff_flow (.refl (a := t))))
    Config.settlePlaces).spine]
  exact h2

theorem execStartUp_lawful (l : List (RegionName × CopyRole)) (s t : State) (h : execStartUp l s = .next t) :
    (s.creditLaw → t.creditLaw) ∧ (s.holdingLaw → t.holdingLaw) ∧ (s.bounded ∧ s.sized → t.bounded ∧ t.sized) := by
  unfold execStartUp at h
  cases h
  split
  · rename_i c _
    have hl := (State.finish_lawful (s.startUp c l) { s.volatile with backhaul := .down }).1
    refine ⟨fun _ => hl.credit (.inr (by rw [State.startUp_sent]; exact Nat.zero_le _)), fun _ => ?_, fun hb => ?_⟩
    · refine hl.holding ?_
      unfold State.holdingLaw
      rw [State.startUp_holding]; exact Nat.zero_le _
    · obtain ⟨⟨b1, b2, _⟩, _, _, _, _, _, b6, b7, b8, b9, b10, b11⟩ := hb
      have := State.startUp_laws s c l ⟨b1, b2, b6, b7, b8, b9, b10, b11⟩
      exact ⟨hl.bounded this.1, hl.sized this.2.1⟩
  · exact ⟨id, id, id⟩
  · exact ⟨id, id, id⟩

/-! ### The rows -/

/-- What the own effect of a command of a running part keeps. -/
def Kept (f : State → State) : Prop :=
  ∀ s, Lawful s (f s) ∧ (s.sized → (f s).power = .running → Noticed s (f s))

theorem Kept.of_flow {f : State → State} (h : ∀ s, Flow s (f s)) : Kept f :=
  fun s => ⟨(h s).lawful, fun _ _ => (h s).noticed⟩

theorem Kept.of_link {f : State → State} (h : ∀ s, Lawful s (f s) ∧ (s.sized → Noticed s (f s))) : Kept f :=
  fun s => ⟨(h s).1, fun hz _ => (h s).2 hz⟩

theorem State.hireExamDue_flow (s : State) : Flow s s.hireExamDue := by
  unfold State.hireExamDue
  split
  · exact State.examineHires_flow (Flow.hireExamAt .refl _)
  · exact .refl

theorem State.passExamDue_flow (s : State) : Flow s s.passExamDue := by
  unfold State.passExamDue
  split
  · exact State.examinePasses_flow (Flow.passExamAt .refl _)
  · exact .refl

theorem State.serveSixthIf_flow (s : State) (f : SixthRecord → Bool) : Flow s (s.serveSixthIf f) := by
  unfold State.serveSixthIf
  split
  · exact State.serveIfNext_flow .refl _
  · exact .refl

theorem State.serveVanIf_flow (s : State) (b : Bool) : Flow s (s.serveVanIf b) := by
  unfold State.serveVanIf
  split
  · exact State.serveIfNext_flow .refl _
  · exact .refl

theorem State.serveDirective_flow (s : State) (k : Nat) : Flow s (s.serveDirective k) := by
  unfold State.serveDirective
  split
  · exact State.serveIfNext_flow .refl _
  · exact .refl

/-- A command whose own effect keeps the laws keeps them with what follows it. -/
theorem Kept.lawful {f : State → State} (h : Kept f) (s : State) : Lawful s (s.running f) :=
  State.running_lawful (h s).1

theorem Kept.noticed {f : State → State} (h : Kept f) {s : State} (hr : s.power = .running) (hz : s.sized)
    (hp : (s.running f).power = .running) : Noticed s (s.running f) :=
  State.running_noticed hr ((h s).2 hz) hp

/-- Each command of the table but the three of power and the start-up acts on a running part by an effect that keeps the laws;
NOTICE_SENT, which clears the mark of the notice sent, is the one that need not raise the mark of what it changes. -/
theorem exec_running (i : Instr) :
    i = .powerOn ∨ (∃ l, i = .powerLoss l) ∨ (∃ l, i = .startUp l) ∨ i = .noticeSent ∨
      ∃ f, Kept f ∧ ∀ s, exec i s = .next (s.running f) := by
  have hf : ∀ {f : State → State}, (∀ s, Flow s (f s)) → (∀ s, exec i s = .next (s.running f)) →
      ∃ f, Kept f ∧ ∀ s, exec i s = .next (s.running f) := fun h e => ⟨_, .of_flow h, e⟩
  have hl : ∀ {f : State → State}, (∀ s, Lawful s (f s) ∧ (s.sized → Noticed s (f s))) →
      (∀ s, exec i s = .next (s.running f)) → ∃ f, Kept f ∧ ∀ s, exec i s = .next (s.running f) :=
    fun h e => ⟨_, .of_link h, e⟩
  have hq : ∀ (tag : Nat) (r : Request), (∀ s, exec i s = .next (s.running (fun s => s.receiveRequest tag r))) →
      ∃ f, Kept f ∧ ∀ s, exec i s = .next (s.running f) :=
    fun tag r e => ⟨_, .of_link (fun s => s.receiveRequest_lawful tag r), e⟩
  cases i with
  | powerOn => exact .inl rfl
  | powerLoss l => exact .inr (.inl ⟨l, rfl⟩)
  | startUp l => exact .inr (.inr (.inl ⟨l, rfl⟩))
  | noticeSent => exact .inr (.inr (.inr (.inl rfl)))
  | start => exact .inr (.inr (.inr (.inr (hf (fun s => s.serveSixthIf_flow _) (fun _ => rfl)))))
  | censusLimitExpiry => exact .inr (.inr (.inr (.inr (hf (fun _ => State.censusLimitDue_flow .refl) (fun _ => rfl)))))
  | dockCensus => exact .inr (.inr (.inr (.inr (hf (fun s => s.serveSixthIf_flow _) (fun _ => rfl)))))
  | poll n => exact .inr (.inr (.inr (.inr (hf (fun _ => State.poll_flow .refl (stringNumber n)) (fun _ => rfl)))))
  | pollReply n r => exact .inr (.inr (.inr (.inr (hf (fun _ => State.hear_flow .refl (stringNumber n) r) (fun _ => rfl)))))
  | missedPoll n => exact .inr (.inr (.inr (.inr (hf (fun _ => State.missPoll_flow .refl (stringNumber n)) (fun _ => rfl)))))
  | silenceTimeout d => exact .inr (.inr (.inr (.inr (hf (fun _ => State.silenceDue_flow .refl d) (fun _ => rfl)))))
  | tagWriteTimeout d =>
    exact .inr (.inr (.inr (.inr (hf (fun _ => State.commandDue_flow .refl d Command.isTagWrite) (fun _ => rfl)))))
  | unlockTimeout d =>
    exact .inr (.inr (.inr (.inr (hf (fun _ => State.commandDue_flow .refl d (fun c => c == .unlock)) (fun _ => rfl)))))
  | lockTimeout d =>
    exact .inr (.inr (.inr (.inr (hf (fun _ => State.commandDue_flow .refl d (fun c => c == .lock)) (fun _ => rfl)))))
  | releaseWindowExpiry d => exact .inr (.inr (.inr (.inr (hf (fun _ => State.windowDue_flow .refl d) (fun _ => rfl)))))
  | relockRetryExpiry d => exact .inr (.inr (.inr (.inr (hf (fun _ => State.relockDue_flow .refl d) (fun _ => rfl)))))
  | offlineTimerExpiry d => exact .inr (.inr (.inr (.inr (hf (fun _ => State.offlineDue_flow .refl d) (fun _ => rfl)))))
  | settleDeadline b => exact .inr (.inr (.inr (.inr (hf (fun _ => State.settleDue_flow .refl b) (fun _ => rfl)))))
  | hireClose => exact .inr (.inr (.inr (.inr (hf (fun _ => State.serveIfNext_flow .refl .settle) (fun _ => rfl)))))
  | hireAgeExamination => exact .inr (.inr (.inr (.inr (hf State.hireExamDue_flow (fun _ => rfl)))))
  | passLimitExamination => exact .inr (.inr (.inr (.inr (hf State.passExamDue_flow (fun _ => rfl)))))
  | passExpiry n => exact .inr (.inr (.inr (.inr (hf (fun _ => State.takeExpiry_flow .refl n) (fun _ => rfl)))))
  | passSettle => exact .inr (.inr (.inr (.inr (hf (fun _ => State.serveIfNext_flow .refl .passes) (fun _ => rfl)))))
  | tariffApplyAt => exact .inr (.inr (.inr (.inr (hf (fun _ => State.applyAt_flow .refl) (fun _ => rfl)))))
  | tariffApplied => exact .inr (.inr (.inr (.inr (hf (fun s => s.serveSixthIf_flow _) (fun _ => rfl)))))
  | clockStep => exact .inr (.inr (.inr (.inr (hf (fun s => s.serveSixthIf_flow _) (fun _ => rfl)))))
  | vanIdleTimeout => exact .inr (.inr (.inr (.inr (hf (fun _ => State.vanIdleDue_flow .refl) (fun _ => rfl)))))
  | vanMove => exact .inr (.inr (.inr (.inr (hf (fun s => s.serveVanIf_flow true) (fun _ => rfl)))))
  | vanSummary => exact .inr (.inr (.inr (.inr (hf (fun s => s.serveVanIf_flow false) (fun _ => rfl)))))
  | fault => exact .inr (.inr (.inr (.inr (hf (fun _ => State.serveIfNext_flow .refl .faults) (fun _ => rfl)))))
  | frameGapTimeout b => exact .inr (.inr (.inr (.inr (hl (fun s => s.gapThen_lawful b) (fun _ => rfl)))))
  | discardedFrame b => exact .inr (.inr (.inr (.inr (hl (fun s => s.takeBytes_lawful b) (fun _ => rfl)))))
  | replySent => exact .inr (.inr (.inr (.inr ⟨_, State.sentReply_lawful, fun _ => rfl⟩)))
  | bikeSet => exact .inr (.inr (.inr (.inr (hf (fun s => s.serveDirective_flow 1) (fun _ => rfl)))))
  | dockClear => exact .inr (.inr (.inr (.inr (hf (fun s => s.serveDirective_flow 2) (fun _ => rfl)))))
  | remoteRelease => exact .inr (.inr (.inr (.inr (hf (fun s => s.serveDirective_flow 3) (fun _ => rfl)))))
  | denyAdd => exact .inr (.inr (.inr (.inr (hf (fun s => s.serveDirective_flow 4) (fun _ => rfl)))))
  | denyRemove => exact .inr (.inr (.inr (.inr (hf (fun s => s.serveDirective_flow 5) (fun _ => rfl)))))
  | hireClosed => exact .inr (.inr (.inr (.inr (hf (fun s => s.serveDirective_flow 6) (fun _ => rfl)))))
  | passCharge => exact .inr (.inr (.inr (.inr (hf (fun s => s.serveDirective_flow 7) (fun _ => rfl)))))
  | faultSummary => exact .inr (.inr (.inr (.inr (hf (fun s => s.serveDirective_flow 8) (fun _ => rfl)))))
  | directiveCensus => exact .inr (.inr (.inr (.inr (hf (fun s => s.serveDirective_flow 9) (fun _ => rfl)))))
  | badKind kind tag body => exact .inr (.inr (.inr (.inr (hq tag (requestOfFrame kind body) (fun _ => rfl)))))
  | statusGet tag => exact .inr (.inr (.inr (.inr (hq tag .statusGet (fun _ => rfl)))))
  | timeSet tag t => exact .inr (.inr (.inr (.inr (hq tag (.timeSet t) (fun _ => rfl)))))
  | settingSet tag n v => exact .inr (.inr (.inr (.inr (hq tag (.settingSet n v) (fun _ => rfl)))))
  | settingGet tag n => exact .inr (.inr (.inr (.inr (hq tag (.settingGet n) (fun _ => rfl)))))
  | resetWarm tag => exact .inr (.inr (.inr (.inr (hq tag (.reset 1) (fun _ => rfl)))))
  | resetStore tag => exact .inr (.inr (.inr (.inr (hq tag (.reset 2) (fun _ => rfl)))))
  | stringReset tag l => exact .inr (.inr (.inr (.inr (hq tag (.stringReset l) (fun _ => rfl)))))
  | dockGet tag d => exact .inr (.inr (.inr (.inr (hq tag (.dockGet d) (fun _ => rfl)))))
  | dockList tag => exact .inr (.inr (.inr (.inr (hq tag .dockList (fun _ => rfl)))))
  | planSet tag code f => exact .inr (.inr (.inr (.inr (hq tag (.planSet code f) (fun _ => rfl)))))
  | planGet tag code => exact .inr (.inr (.inr (.inr (hq tag (.planGet code) (fun _ => rfl)))))
  | terminalAuth tag t k h ref => exact .inr (.inr (.inr (.inr (hq tag (.terminalAuth t k h ref) (fun _ => rfl)))))
  | passGet tag slot => exact .inr (.inr (.inr (.inr (hq tag (.passGet slot) (fun _ => rfl)))))
  | passCancel tag slot serial => exact .inr (.inr (.inr (.inr (hq tag (.passCancel slot serial) (fun _ => rfl)))))
  | tariffStageBand tag b e k r => exact .inr (.inr (.inr (.inr (hq tag (.tariffStageBand b e k r) (fun _ => rfl)))))
  | tariffStageClear tag => exact .inr (.inr (.inr (.inr (hq tag .tariffStageClear (fun _ => rfl)))))
  | tariffCommitNow tag => exact .inr (.inr (.inr (.inr (hq tag (.tariffCommit .now) (fun _ => rfl)))))
  | tariffCommitAt tag t => exact .inr (.inr (.inr (.inr (hq tag (.tariffCommit (.at t)) (fun _ => rfl)))))
  | tariffCommitCancel tag => exact .inr (.inr (.inr (.inr (hq tag (.tariffCommit .cancel) (fun _ => rfl)))))
  | tariffGet tag n => exact .inr (.inr (.inr (.inr (hq tag (.tariffGet n) (fun _ => rfl)))))
  | policySet tag k c n => exact .inr (.inr (.inr (.inr (hq tag (.policySet k c n) (fun _ => rfl)))))
  | policyGet tag k => exact .inr (.inr (.inr (.inr (hq tag (.policyGet k) (fun _ => rfl)))))
  | riderReport tag a k c r => exact .inr (.inr (.inr (.inr (hq tag (.riderReport a k c r) (fun _ => rfl)))))
  | vanOpen tag v c m => exact .inr (.inr (.inr (.inr (hq tag (.vanOpen v c m) (fun _ => rfl)))))
  | vanRelease tag d => exact .inr (.inr (.inr (.inr (hq tag (.vanRelease d) (fun _ => rfl)))))
  | vanClose tag n => exact .inr (.inr (.inr (.inr (hq tag (.vanClose n) (fun _ => rfl)))))
  | vanGet tag => exact .inr (.inr (.inr (.inr (hq tag .vanGet (fun _ => rfl)))))
  | journalRead tag n => exact .inr (.inr (.inr (.inr (hq tag (.journalRead n) (fun _ => rfl)))))
  | journalAckAccepted tag e q => exact .inr (.inr (.inr (.inr (hq tag (.journalAck e q 1) (fun _ => rfl)))))
  | journalAckFatal tag e q => exact .inr (.inr (.inr (.inr (hq tag (.journalAck e q 2) (fun _ => rfl)))))
  | journalAckRetry tag e q => exact .inr (.inr (.inr (.inr (hq tag (.journalAck e q 3) (fun _ => rfl)))))
  | journalReoffer tag => exact .inr (.inr (.inr (.inr (hq tag .journalReoffer (fun _ => rfl)))))
  | linkStateUp tag => exact .inr (.inr (.inr (.inr (hq tag (.linkState 1) (fun _ => rfl)))))
  | linkStateDown tag => exact .inr (.inr (.inr (.inr (hq tag (.linkState 2) (fun _ => rfl)))))
  | directive tag n k a => exact .inr (.inr (.inr (.inr (hq tag (.directive n k a) (fun _ => rfl)))))

/-- NOTICE_SENT keeps the laws. -/
theorem execNoticeSent_lawful (s : State) : Lawful s (s.running (fun s => s.sentNotice)) :=
  State.running_lawful s.sentNotice_lawful

end Sys2Proof.Machine
end

