-- ==== Sys2Proof/Laws/Rows.lean ====
section
/-! SUPPORT. What a row does where the part runs, said once for the rows of requests and once for the others. -/

namespace Sys2Proof.Machine

/-- The state in which the link of a ready part has taken a request and handed it on. -/
def State.hold (s : State) (tag : Nat) (r : Request) : State :=
  { s with link := { s.link with receiving := [], holding := [{ tag := tag, request := r, reply := none }] } }

/-- A row of a running part whose own effect leaves it running. -/
theorem exec_event {i : Instr} {f : State → State} {s t : State} (hi : exec i s = .next (s.running f))
    (hs : s.power = .running) (hf : f s = t) (ht : t.power = .running) : exec i s = .next (t.finish s) := by
  subst hf
  rw [hi, State.running, if_pos hs, if_pos ht]

/-- A request row of a ready part, where the owner's effect and its reply are known (R184). -/
theorem exec_request {i : Instr} {s t : State} {tag : Nat} {r : Request} {reply : Reply}
    (hi : exec i s = .next (s.running (fun s => s.receiveRequest tag r))) (hs : s.ready)
    (ho : own r (s.hold tag r) = (t.hold tag r, reply)) (ht : t.power = .running) :
    exec i s = .next ((t.answered tag r reply).finish s) := by
  refine exec_event hi hs.1 ?_ ht
  rw [State.receiveRequest_ready hs]
  have : own r { s with link := { s.link with receiving := [], holding := [⟨tag, r, none⟩] } } = (t.hold tag r, reply) := ho
  dsimp only
  rw [this]
  rfl

/-- A request whose owner changes nothing. -/
theorem exec_read {i : Instr} {s : State} {tag : Nat} {r : Request} {reply : Reply}
    (hi : exec i s = .next (s.running (fun s => s.receiveRequest tag r))) (hs : s.ready)
    (ho : own r (s.hold tag r) = (s.hold tag r, reply)) : exec i s = .next ((s.answered tag r reply).finish s) :=
  exec_request hi hs ho hs.1

/-! ### Taking a request changes nothing that an owner reads -/

section Hold

variable (s : State) (tag : Nat) (r : Request)

@[simp] theorem hold_power : (s.hold tag r).power = s.power := rfl
@[simp] theorem hold_now : (s.hold tag r).now = s.now := rfl
@[simp] theorem hold_free : (s.hold tag r).free = s.free := rfl
@[simp] theorem hold_store : (s.hold tag r).store = s.store := rfl
@[simp] theorem hold_settings : (s.hold tag r).settings = s.settings := rfl
@[simp] theorem hold_plans : (s.hold tag r).plans = s.plans := rfl
@[simp] theorem hold_tariffs : (s.hold tag r).tariffs = s.tariffs := rfl
@[simp] theorem hold_records : (s.hold tag r).records = s.records := rfl
@[simp] theorem hold_recordsIn (x : RecordState) : (s.hold tag r).recordsIn x = s.recordsIn x := rfl
@[simp] theorem hold_hires : (s.hold tag r).hires = s.hires := rfl
@[simp] theorem hold_entries : (s.hold tag r).entries = s.entries := rfl
@[simp] theorem hold_pass (slot : Nat) : (s.hold tag r).pass slot = s.pass slot := rfl
@[simp] theorem hold_passInFlight (slot serial : Nat) : (s.hold tag r).passInFlight slot serial = s.passInFlight slot serial := rfl
@[simp] theorem hold_dock (d : Nat) : (s.hold tag r).dock d = s.dock d := rfl
@[simp] theorem hold_van : (s.hold tag r).van = s.van := rfl
@[simp] theorem hold_sixth : (s.hold tag r).sixth = s.sixth := rfl
@[simp] theorem hold_directives : (s.hold tag r).directives = s.directives := rfl
@[simp] theorem hold_firstPlace : (s.hold tag r).firstPlace = s.firstPlace := rfl
@[simp] theorem hold_heldCodes : (s.hold tag r).heldCodes = s.heldCodes := rfl
@[simp] theorem hold_newCode : (s.hold tag r).newCode = s.newCode := rfl
@[simp] theorem hold_raise (k : NoticeKind) : (s.hold tag r).raise k = (s.raise k).hold tag r := by cases k <;> rfl

theorem hold_post (b : Body) : (s.hold tag r).post b = (s.post b).hold tag r := by
  unfold State.post
  dsimp only
  rw [apply_ite (fun t : State => t.hold tag r)]
  rfl
theorem hold_putPass (slot : Nat) (p : Option Pass) : (s.hold tag r).putPass slot p = (s.putPass slot p).hold tag r := by
  unfold State.putPass
  dsimp only
  rw [apply_ite (fun t : State => t.hold tag r)]
  rfl
theorem hold_putDock (d : Nat) (x : Dock) : (s.hold tag r).putDock d x = (s.putDock d x).hold tag r := by
  unfold State.putDock
  dsimp only
  rw [apply_ite (fun t : State => t.hold tag r)]
  rfl

end Hold

end Sys2Proof.Machine
end

