-- ==== Sys2Proof/Tests/Slice0.lean ====
section
/-! SUPPORT. Small tests, and witnesses for the statements. The expected values come from the manual: its tables, its rules and
its worked sequences, named at each test. A theorem `test_meets_<Name>` shows states and operands that meet the hypotheses of
the statement `Obligations.<Name>`, clause by clause. -/

namespace Sys2Proof.Tests
open Sys2Proof.Machine

set_option Elab.async false

/-! ### Sample states -/

/-- A node that answers and has given its census. -/
def heardNode : Node := { Node.atStart 0 with phase := .answering, silenceAt := 5000, censused := true }

/-- A configured dock without a bike, its lock shut. -/
def emptyDock : Dock := { Dock.atStart true with state := .empty, lock := .locked, shown := some .off }

/-- Bike 101 as it arrived with an IDLE tag. -/
def bike : Bike := Bike.arrived 101 (some 999000)

/-- A dock with bike 101 locked in. -/
def fullDock : Dock := { emptyDock with state := .occupied, bike := some bike, shown := some .ready }

/-- Dock table of string A with bike 101 in dock 1, the other strings not configured. -/
def docks : List Dock := fullDock :: (List.replicate 15 emptyDock ++ List.replicate 48 (.atStart false))

/-- Station 7 with string A in service, scheme time 1,000,000 and an empty journal: one bike, in dock 1. -/
def part : State :=
  { State.reset with
    clock := .running 1000000 1000, elapsed := 1000, stationId := 7, docks := docks
    nodes := List.replicate 16 heardNode ++ List.replicate 48 (.atStart 0)
    strings := [.atStart 16, .atStart 0, .atStart 0, .atStart 0], link := .atStart
    store :=
      { State.resetStore with
        journal := .fresh { records := [], next := 3 }
        plans := .fresh ({ planDefault with admitted := true } :: List.replicate 14 planDefault ++ [planCrew])
        epoch := .fresh { epoch := 1, stationId := 7 } } }

/-- The part with another dock `d`. -/
def withDock (d : Nat) (x : Dock) (s : State) : State := { s with docks := setEntry s.docks d x }

/-- The part with another journal. -/
def withRecords (rs : List Record) (s : State) : State :=
  { s with store := { s.store with journal := .fresh { records := rs, next := 300 } } }

/-- The part with a pass in a slot. -/
def withPass (slot : Nat) (p : Pass) (s : State) : State :=
  { s with store := { s.store with passes := .fresh { slots := setEntry s.store.passes.cur.slots slot (some p), serial := 908 } } }

/-- The part with other tables. -/
def withHires (hs : List OpenHire) (s : State) : State := { s with store := { s.store with hires := .fresh hs } }
def withEntries (es : List SettleEntry) (s : State) : State :=
  { s with store := { s.store with settle := .fresh { entries := es, lost := 0 } } }
def withTariffs (t : TariffSet) (s : State) : State := { s with store := { s.store with tariffs := .fresh t } }
def withDenied (ids : List Nat) (s : State) : State := { s with store := { s.store with deny := .fresh ids } }
def withSettings (f : Settings → Settings) (s : State) : State :=
  { s with store := { s.store with settings := .fresh { settings := f s.settings, policy := Policy.defaults } } }

/-- The state after a command, and the same state where the command had none. -/
def after (c : Instr) (s : State) : State :=
  match exec c s with
  | .next t => t
  | .fault _ => s
  | .refused _ => s

/-- The reply the link holds. -/
def reply (s : State) : Option Reply := s.link.holding.head?.bind (fun h => h.reply)

/-- A record of a body, as number `n` of epoch 1. -/
def record (n : Nat) (state : RecordState) (retries : Nat) : Record :=
  { epoch := 1, sequence := n, time := some 1000000, body := .clockStep 1 400, state := state, retries := retries }

/-- A journal with no slot free. -/
def fullJournal : List Record := (List.range 256).map (fun n => record (n + 1) .unsent 3)

/-- A DAY pass sold at scheme time 999,000 (4.12, step 1), here in slot 3. -/
def dayPass : Pass :=
  { state := .issued, kind := .day, serial := 907, code := 583026, terminal := 2, authRef := List.replicate 12 0x11#8
    hold := 1500, issued := 999000, expiry := 1085400, charged := 0, rides := 0, current := none, cancelled := false
    unresolved := false, shortfall := false }

/-- Hire reference 7/90,015, and the hire of a member under it. -/
def ref : HireRef := { station := 7, count := 90015 }
def memberHire : OpenHire :=
  { ref := ref, hirer := .member 7700112, bikeId := 101, start := 999500, plan := 0, generation := 1 }
def passHire : OpenHire := { memberHire with hirer := .pass 3 907, plan := 14 }

/-- The trip image of the member's hire. -/
def trip : TripImage :=
  { bikeId := 101, ref := ref, hirer := .member 7700112, start := 999500, plan := 0, generation := 1, credit := 0 }

/-- A member's release from dock 1. -/
def memberRelease : Release :=
  { party := .hire (.member 7700112) (some 1) ref trip, credit := 0, origin := .occupied, fromDock := true
    expiryHeld := false }

/-- A pass's release from dock 1, and a VAN release for manifest entry 1. -/
def passRelease : Release := { memberRelease with party := .hire (.pass 3 907) none ref { trip with hirer := .pass 3 907 } }
def vanRelease : Release := { memberRelease with party := .van 12 1, fromDock := false }

/-- A directive of a kind with its arguments. -/
def directive (kind : Nat) (args : List Byte) : Directive := { id := 77, kind := kind, args := args, arrival := some 999000 }

/-- The part with one directive waiting for the room arbiter. -/
def withDirective (kind : Nat) (args : List Byte) (s : State) : State := { s with directives := [directive kind args] }

/-! ### The commands a sender can give: one ill-formed term for each check -/

theorem test_wf_accepts : Instr.wf (.timeSet 1 4294967295) = true ∧ Instr.wf (.passExpiry 32) = true ∧
    Instr.wf (.badKind 200 1 []) = true ∧ Instr.wf (.terminalAuth 1 2 1 500 (List.replicate 12 0#8)) = true := by decide +kernel
theorem test_wf_refuses_tag : Instr.wf (.statusGet 256) = false := by decide +kernel
theorem test_wf_refuses_request_fields :
    Request.wf (.timeSet 4294967296) = false ∧ Request.wf (.settingSet 1 4294967296) = false ∧
    Request.wf (.settingGet 256) = false ∧ Request.wf (.reset 256) = false ∧ Request.wf (.stringReset 256) = false ∧
    Request.wf (.dockGet 256) = false ∧ Request.wf (.planGet 256) = false ∧
    Request.wf (.terminalAuth 1 1 500 []) = false ∧ Request.wf (.passGet 256) = false ∧
    Request.wf (.passCancel 1 65536) = false ∧ Request.wf (.tariffStageBand 1 (some 65536) 1 1) = false ∧
    Request.wf (.tariffGet 256) = false ∧ Request.wf (.policySet 1 1 256) = false ∧ Request.wf (.policyGet 256) = false ∧
    Request.wf (.vanOpen 65536 1 []) = false ∧ Request.wf (.vanRelease 256) = false ∧ Request.wf (.vanClose 65536) = false ∧
    Request.wf (.journalRead 256) = false ∧ Request.wf (.journalAck 65536 1 1) = false ∧ Request.wf (.linkState 256) = false ∧
    Request.wf (.directive 4294967296 1 []) = false ∧ Request.wf (.badKind 30) = false ∧ Request.wf (.badLength 1) = false := by
  decide +kernel
theorem test_wf_refuses_plan : PlanArgs.wf ⟨1, 0, 100, 65536, 0, 1⟩ = false := by decide +kernel
theorem test_wf_refuses_manifest : ManifestArg.wf ⟨1, some 256, 1, true⟩ = false := by decide +kernel
theorem test_wf_refuses_commit : CommitArg.wf (.at 4294967296) = false ∧ CommitArg.wf (.other 2) = false := by decide +kernel
theorem test_wf_refuses_target :
    TargetArg.wf (.dock 256) = false ∧ TargetArg.wf (.bike 4294967296) = false ∧ TargetArg.wf (.other 2) = false := by decide +kernel
theorem test_wf_refuses_reporter :
    ReporterArg.wf (.member 4294967296) = false ∧ ReporterArg.wf (.passSlot 256) = false ∧ ReporterArg.wf (.other 3) = false := by
  decide +kernel
theorem test_wf_refuses_node_event :
    NodeEvent.wf (.tap (some [])) = false ∧ NodeEvent.wf (.present (some [])) = false ∧ NodeEvent.wf (.faultKey 256) = false ∧
    NodeEvent.wf (.keypad (List.replicate 256 0)) = false ∧
    NodeEvent.wf (.census .locked false (some (List.replicate 24 0#8)) .demand) = false := by decide +kernel
theorem test_wf_refuses_reply :
    NodeReply.wf ⟨true, 256, none, .working, .normal, none⟩ = false ∧
    NodeReply.wf ⟨true, 1, some 0, .working, .normal, none⟩ = false ∧
    NodeReply.wf ⟨true, 1, none, .working, .normal, some (256, .removed)⟩ = false := by decide +kernel
theorem test_wf_refuses_docks :
    Instr.wf (.silenceTimeout 0) = false ∧ Instr.wf (.tagWriteTimeout 65) = false ∧ Instr.wf (.unlockTimeout 0) = false ∧
    Instr.wf (.lockTimeout 65) = false ∧ Instr.wf (.releaseWindowExpiry 0) = false ∧ Instr.wf (.relockRetryExpiry 65) = false ∧
    Instr.wf (.offlineTimerExpiry 0) = false := by decide +kernel
theorem test_wf_refuses_events :
    Instr.wf (.settleDeadline 0) = false ∧ Instr.wf (.passExpiry 33) = false ∧ Instr.wf (.badKind 256 1 []) = false ∧
    Instr.wf (.discardedFrame []) = false := by decide +kernel

/-! ### Reset and the layouts -/

/-- A first start-up, with no copy of any region sound, comes to the state after reset (R194 to R197). -/
theorem test_reset_is_first_start_up :
    after (.startUp []) { State.reset with
      power := .startDue .powerOn
      store :=
        { settings := { cur := .default, old := .default, curSound := false, oldSound := false }
          plans := { cur := plansDefault, old := plansDefault, curSound := false, oldSound := false }
          tariffs := { cur := .default, old := .default, curSound := false, oldSound := false }
          deny := { cur := [], old := [], curSound := false, oldSound := false }
          passes := { cur := .default, old := .default, curSound := false, oldSound := false }
          hires := { cur := [], old := [], curSound := false, oldSound := false }
          settle := { cur := .default, old := .default, curSound := false, oldSound := false }
          journal := { cur := { records := [], next := 9 }, old := { records := [], next := 9 }, curSound := false, oldSound := false }
          hireCount := { cur := 1, old := 1, curSound := false, oldSound := false }
          epoch := { cur := { epoch := 5, stationId := 5 }, old := { epoch := 5, stationId := 5 }, curSound := false
                     oldSound := false } } } = State.reset := by decide +kernel

/-- The check of R200, polynomial 0x1021 from 0xFFFF: the value published for that check over the digits 1 to 9. -/
theorem test_check_sequence :
    checkBytes [0x31#8, 0x32#8, 0x33#8, 0x34#8, 0x35#8, 0x36#8, 0x37#8, 0x38#8, 0x39#8] = [0x29#8, 0xB1#8] := by decide +kernel

/-! ### Pricing (the worked cases of 5.10) -/

/-- The table of 5.10, generation 7, with generation 6 as previous. -/
def bands : List Band :=
  [{ edge := some 30, block := 30, rate := 100 }, { edge := some 90, block := 15, rate := 75 },
   { edge := none, block := 10, rate := 80 }]
def tariffs : TariffSet :=
  { TariffSet.default with
    current := { generation := 7, bands := bands }
    previous := some { generation := 6, bands := [{ edge := none, block := 60, rate := 0 }] } }

/-- Plan 2 of 5.10 at a percent, and its trip of a duration and a generation, with the return credit 50. -/
def plan2 (percent : Nat) : Plan :=
  { admitted := true, freeMinutes := 30, percent := percent, unlockFee := 0, ceiling := 1500, hireLimit := 1 }
def priced (p : Plan) (generation start e credit extra : Nat) : PricedClose :=
  priceTrip tariffs p { trip with plan := 2, generation := generation, start := start, credit := credit } 3 e extra

/-- The table of base charges of 5.10. -/
theorem test_base_charges :
    [0, 1, 30, 31, 45, 46, 90, 91, 100, 101].map (fun c => bandsCharge c 0 bands) =
      [0, 100, 100, 175, 175, 250, 400, 480, 480, 560] := by decide +kernel
theorem test_case_a :
    let c := priced (plan2 100) 7 1000000 1007385 0 50
    (c.duration, c.minutes, c.chargeable, c.base) = (some 7385, some 124, some 94, some 480) ∧
      (c.afterPercent, c.afterCredits, c.fare, c.creditApplied) = (some 480, some 430, 430, some 50) := by decide +kernel
theorem test_case_b :
    let c := priced (plan2 85) 7 1000000 1007385 0 50
    (c.base, c.afterPercent, c.afterCredits, c.fare) = (some 480, some 408, some 358, 358) := by decide +kernel
theorem test_case_c :
    let c := priced (plan2 100) 7 1000000 1001790 0 50
    (c.minutes, c.chargeable, c.base, c.fare, c.creditApplied) = (some 30, some 0, some 0, 0, some 0) := by decide +kernel
theorem test_case_d :
    let c := priced (plan2 100) 7 1000000 1700000 0 0
    (c.duration, c.base, c.fare, c.flags.overlong, c.flags.saturated) = (some 604800, some 80080, 1500, true, true) := by
  decide +kernel
theorem test_case_d_plan9 :
    let c := priced { plan2 100 with freeMinutes := 0, ceiling := 65535 } 7 1000000 1700000 0 0
    (c.base, c.fare, c.flags.overlong, c.flags.saturated) = (some 80320, 65535, true, true) := by decide +kernel
theorem test_case_e :
    let c := priced { plan2 100 with freeMinutes := 0, unlockFee := 150, ceiling := 2000 } 7 1000000 999960 30 0
    (c.duration, c.base, c.afterCredits, c.fare, c.flags.clockSkew) = (some 0, some 0, some 120, 120, true) := by
  decide +kernel
theorem test_case_f :
    let c := priced (plan2 100) 5 1000000 1007385 0 50
    (c.tagGeneration, c.usedGeneration, c.fare, c.flags.tariffStale) = (5, some 7, 430, true) := by decide +kernel
theorem test_case_f_previous :
    let c := priced (plan2 100) 6 1000000 1007385 0 50
    (c.usedGeneration, c.flags.tariffStale) = (some 6, false) := by decide +kernel
theorem test_case_g :
    let r := fun (plan : Nat) (e : Option Nat) (startup : Bool) =>
      let c := priceReturn tariffs plansDefault 50 { trip with plan := plan } 3 e false startup
      (c.fare, c.flags.deferred, c.flags.startupReturn, c.duration)
    r 2 none true = (0, true, true, none) ∧ r 15 (some 1000000) false = (0, false, false, none) ∧
      r 15 none false = (0, true, false, none) := by decide +kernel

/-! ### The dock line (1.8, 1.9) -/

/-- A node whose command list holds a current command, carried, and waiting ones. -/
def busyNode (c : Command) (number : Nat) (acknowledged : Bool) (waiting : List Command) : Node :=
  { heardNode with
    current := some { command := c, number := number, carried := true, deadline := some 900, acknowledged := acknowledged
                      unanswered := 0 }
    counter := number + 1, waiting := waiting }

/-- 1.9, steps 2 to 5: commands wait behind the current SHOW, and a waiting SHOW gives way to a later one. -/
theorem test_command_list_of_1_9 :
    (((((part.putNode 5 (busyNode (.show .release) 8 false [])).issue 5 (.tagClear .afterRelease)).issue 5 .lock).issue 5
      (.show .off)).issue 5 (.show .fault)).node 5 =
      busyNode (.show .release) 8 false [.tagClear .afterRelease, .lock, .show .fault] := by decide +kernel

/-- 1.9, step 6: a reply acknowledges SHOW #8, and TAG_CLEAR becomes current as #9. -/
theorem test_poll_reply_acknowledges :
    let s := (part.putNode 5 (busyNode (.show .release) 8 false [.tagClear .afterRelease, .lock, .show .fault])).putLine 1
      { part.line 1 with poll := some { address := 5, censusMark := false, lastEvent := none, command := none, windowAt := 1012 } }
    let n := (after (.pollReply .a ⟨true, 5, some 8, .done, .normal, none⟩) s).node 5
    (n.current.map (fun c => (c.command, c.number)), n.waiting, n.counter) =
      (some (.tagClear .afterRelease, 9), [.lock, .show .fault], 10) := by decide +kernel

/-- 1.8, step 6: the poll that first carries UNLOCK #18 starts its 2 s deadline (R13). -/
theorem test_poll_starts_deadline :
    let s := (part.putNode 1 { heardNode with current := some ⟨.unlock, 18, false, none, false, 0⟩, counter := 19 })
    let t := after (.poll .a) s
    ((t.line 1).poll.bind (fun p => p.command), (t.node 1).current.bind (fun c => c.deadline), (t.line 1).next) =
      (some (18, .unlock), some 3000, 2) := by decide +kernel
theorem test_missed_poll_waits_for_the_window :
    let s := fun (w : Nat) => part.putLine 1
      { part.line 1 with poll := some { address := 1, censusMark := false, lastEvent := none, command := none, windowAt := w } }
    ((after (.missedPoll .a) (s 1001)).line 1).poll ≠ none ∧ ((after (.missedPoll .a) (s 1000)).line 1).poll = none := by
  decide +kernel
theorem test_silence_takes_the_dock_offline :
    let t := after (.silenceTimeout 1) (part.putNode 1 { heardNode with silenceAt := 1000 })
    ((t.node 1).phase, (t.dock 1).state, (t.dock 1).bike, entryAt t.offlineAt 1, t.records.length) =
      (.silent, .offline, some bike, some (some 6000), 1) := by decide +kernel

/-! ### Custody (2.12) -/

/-- Dock 7 of 2.12 in a state, with its counter. -/
def dock7 (state : DockState) (counter : Nat) : Dock := { fullDock with state := state, counter := counter }

/-- 2.12, step 2: an eligible return is counted into stock, and its close is held for 120 s; the credit of 50 is given, as
stock before it was below the low mark. -/
theorem test_return_at_dock_7 :
    let s := withSettings (fun x => { x with returnCredit := 50 }) part
    let t := s.onPresent 7 (some (.onHire { trip with bikeId := 40211 }))
    ((t.dock 7).state, (t.dock 7).bike.map (fun b => (b.id, b.condition, b.settling)), t.stock,
      t.entries.map (fun e => (e.stage, e.close.returnCredit))) =
      (.occupied, some (40211, .available, true), 2, [(.held 40211 7 121000, some 50)]) := by decide +kernel

/-- 2.12, step 6: UNLOCK times out: one count, the release is over, TAG_CLEAR and LOCK are issued, RELOCKING. -/
theorem test_unlock_timeout_at_dock_7 :
    let s := withDock 7 { dock7 .unlocking 0 with release := some memberRelease } { part with setAside := 1 }
    let t := after (.unlockTimeout 7) (s.putNode 7 (busyNode .unlock 3 true []))
    ((t.dock 7).state, (t.dock 7).counter, (t.dock 7).release, t.setAside) = (.relocking, 1, none, 0) := by decide +kernel

/-- 2.12, step 9: LOCK times out in RELOCKING: the counter is 2 and the retry deadline is 3 s ahead. -/
theorem test_lock_timeout_at_dock_7 :
    let t := after (.lockTimeout 7) ((withDock 7 (dock7 .relocking 1) part).putNode 7 (busyNode .lock 3 true []))
    ((t.dock 7).state, (t.dock 7).counter, (t.dock 7).relockAt) = (.relocking, 2, some 4000) := by decide +kernel

/-- 2.12, step 10: the retry deadline runs out and LOCK is issued. -/
theorem test_relock_retry_at_dock_7 :
    let t := after (.relockRetryExpiry 7) (withDock 7 { dock7 .relocking 2 with relockAt := some 1000 } part)
    ((t.dock 7).state, (t.node 7).current.map (fun c => c.command)) = (.relocking, some .lock) := by decide +kernel

/-- 2.12, step 11: a third count reaches the limit: LOCKED_OUT with the bike AVAILABLE. -/
theorem test_lock_fail_at_dock_7 :
    let t := (withDock 7 (dock7 .relocking 2) part).deliver 7 (.lockFail .jam)
    ((t.dock 7).state, (t.dock 7).counter, (t.dock 7).bike, t.attention.lockout) = (.lockedOut, 3, some bike, true) := by
  decide +kernel

/-- A release window that runs out lapses: RELOCKING, no fault counted, the slot returned (R28, R53). -/
theorem test_release_lapses :
    let s := withDock 1 { fullDock with state := .releaseOpen, release := some memberRelease, windowAt := some 1000 }
      { part with setAside := 1 }
    let t := after (.releaseWindowExpiry 1) s
    ((t.dock 1).state, (t.dock 1).counter, t.setAside, t.hires, (t.node 1).waiting) =
      (.relocking, 0, 0, [], [.lock, .show .off]) := by decide +kernel

/-! ### Admission and passes (3.12, 4.12) -/

/-- R51, check 8: a member at the hire limit of the plan is refused HIRE_LIMIT, and one below it is not. -/
theorem test_member_hire_limit :
    let card : CardImage := { member := 7700112, plan := 0, expiryDay := 65535, issue := 1 }
    (((withHires [memberHire] part).cardAttempt 1 card).2, (part.cardAttempt 1 card).2, ((part.cardAttempt 1 card).1.dock 1).state) =
      (some .hireLimit, none, .tagWriting) := by decide +kernel

/-- 4.12, step 1: the sale of a DAY pass of hold 1500 into the lowest FREE slot. -/
theorem test_terminal_auth_sells :
    let s := withPass 2 { dayPass with serial := 2 } (withPass 1 { dayPass with serial := 1 } part)
    let t := after (.terminalAuth 5 2 2 1500 (List.replicate 12 0x22#8)) s
    ((t.pass 3).map (fun p => (p.state, p.serial, p.hold, p.expiry)), t.store.passes.cur.serial, t.records.length) =
      (some (.issued, 908, 1500, 1086400), 909, 1) := by decide +kernel

/-- 4.12, step 5: the settle deadline charges min(350, 1500) and the pass is IDLE. -/
theorem test_settle_deadline_charges_the_pass :
    let close := { priced (plan2 100) 7 996000 999000 0 0 with hirer := .pass 3 907, fare := 350 }
    let s := withEntries [{ close := close, waiver := none, stage := .held 101 1 1000 }]
      (withDock 1 { fullDock with bike := some { bike with settling := true } }
        (withPass 3 { dayPass with state := .closing, current := some ref } part))
    let t := after (.settleDeadline 101) s
    (t.pass 3).map (fun p => (p.state, p.charged, p.rides, p.balance)) = some (.idle, 350, 1, 1150) ∧
      t.entries = [] ∧ t.records.length = 1 ∧ (t.dock 1).bike = some bike := by decide +kernel

/-- 4.12, steps 9 and 10: the expiry of an IDLE pass posts PASS_SETTLE and frees the slot. -/
theorem test_pass_expiry_settles :
    let s := withPass 3 { dayPass with state := .idle, charged := 1350, rides := 2, expiry := 1000000 } part
    let t := after (.passExpiry 3) s
    (t.pass 3, t.records.map (fun r => bodyKind r.body)) = (none, [.passSettle]) := by decide +kernel

/-- 4.12, last case: a pass ON_RIDE 48 hours past its expiry is retired UNRESOLVED, with its hire. -/
theorem test_pass_limit_retires :
    let s := { withHires [passHire] (withPass 3 { dayPass with state := .onRide, current := some ref, expiry := 827200 } part) with
      elapsed := 60000 }
    let t := after .passLimitExamination s
    (t.pass 3, t.hires, t.records.map (fun r => bodyKind r.body)) = (none, [], [.hireExpired, .passSettle]) := by decide +kernel

/-- A pass that has made a ride is not cancelled (R74). -/
theorem test_pass_cancel_after_a_ride :
    reply (after (.passCancel 1 3 907) (withPass 3 { dayPass with state := .idle, rides := 1 } part)) =
      some { status := .conflict, result := .empty } := by decide +kernel

/-! ### Tariffs, plans, settings and clock -/

/-- An AT commit whose time has come applies at its command, under the next generation, with previous kept (R86, R87). -/
theorem test_apply_at :
    let s := withTariffs { tariffs with staged := [some ⟨none, 60, 0⟩, none, none, none, none, none, none, none], commit := some 1000000 } part
    let t := after .tariffApplyAt s
    (t.tariffs.current.generation, t.tariffs.previous, t.tariffs.commit, t.records.map (fun r => bodyKind r.body)) =
      (8, some tariffs.current, none, [.tariffApplied]) := by decide +kernel
/-- A staged edge that does not rise is EDGE_ORDER in its band (R83). -/
theorem test_commit_edge_order :
    let s := withTariffs { tariffs with staged := [some ⟨some 30, 1, 1⟩, some ⟨some 30, 1, 1⟩, some ⟨none, 1, 1⟩, none, none, none, none, none] } part
    reply (after (.tariffCommitNow 1) s) = some { status := .outOfRange, result := .badBand 2 .edgeOrder } := by decide +kernel
theorem test_stage_while_pending :
    reply (after (.tariffStageBand 1 1 none 1 1) (withTariffs { tariffs with commit := some 2000000 } part)) =
      some { status := .busy, result := .empty } := by decide +kernel
theorem test_plan_set_names_the_first_field :
    reply (after (.planSet 1 2 ⟨1, 241, 201, 0, 0, 1⟩) part) = some { status := .outOfRange, result := .field .freeMinutes } := by
  decide +kernel
/-- A clamped value is written and reported (R195); a node count waits for a restart. -/
theorem test_setting_clamped :
    let t := after (.settingSet 1 12 1001) part
    (reply t, t.settings.releaseCredit) = (some { status := .okClamped, result := .value 1000 }, 1000) := by decide +kernel
theorem test_setting_at_restart :
    let t := after (.settingSet 1 3 12) part
    (reply t, t.settings.countB, (t.line 2).count) = (some { status := .pendingRestart, result := .value 12 }, 12, 0) := by
  decide +kernel
/-- A change of exactly 300 s is no step, one of 301 s is (R193). -/
theorem test_time_set_step :
    ((after (.timeSet 1 1000300) part).records.length, (after (.timeSet 1 1000301) part).records.map (fun r => r.body)) =
      (0, [.clockStep 1000000 1000301]) := by decide +kernel
theorem test_reset_store_not_empty :
    reply (after (.resetStore 1) (withRecords [record 1 .unsent 3] part)) =
      some { status := .notEmpty, result := .notEmpty .journal } := by decide +kernel

/-! ### Faults (7.11) -/

/-- 7.11, step 3: rider A's entry at T + 30 is pruned at T + 90,000, so rider B's report is the first of two. -/
theorem test_tally_prunes :
    let old := { bike with tallies := [[{ who := .person 6004118, time := some 910030 }], [], [], [], [], [], [], []] }
    let s := withDock 1 { fullDock with bike := some old } part
    let t := after (.riderReport 1 (.bike 101) 1 1 (.member 2840517)) s
    (t.dock 1).bike = some { bike with tallies := [[{ who := .person 2840517, time := some 1000000 }], [], [], [], [], [], [], []] } ∧
      reply t = some { status := .ok, result := .report (some 101) (some 1) .suspect false } := by decide +kernel

/-- 7.11, step 6: an anonymous FAULT_KEY BRAKE is the second reporter: QUARANTINED, the tally emptied, attention raised. -/
theorem test_fault_key_confirms :
    let told := { bike with tallies := [[{ who := .person 2840517, time := some 999000 }], [], [], [], [], [], [], []] }
    let t := (withDock 1 { fullDock with bike := some told } part).deliver 1 (.faultKey 1)
    (t.dock 1).bike = some { bike with condition := .quarantined, faults := [.brake] } ∧ t.stock = 0 ∧
      t.attention = { Attention.clear with raised := true, quarantine := true } := by decide +kernel

/-! ### Van sessions -/

/-- One DELIVER of one bike reserves the lowest EMPTY dock, 2, and the session is ACTIVE (R136, R139). -/
theorem test_van_open_reserves :
    let t := after (.vanOpen 1 5 77 [{ kind := 2, selector := none, count := 1, endMark := true }]) part
    (t.van.phase, (t.dock 2).reservation, reply t) = (.active, .deliver 1, some { status := .ok, result := .vanOpened 1 [(1, 0)] }) := by
  decide +kernel
/-- An active session whose idle deadline runs out ends TIMED_OUT, its summary posted and the session IDLE (R149, R153; 8.9). -/
theorem test_van_idle_timeout :
    let t := after .vanIdleTimeout { part with van := { Van.idleWith 2 with phase := .active, session := 1, idleAt := some 1000 } }
    (t.van, t.records.map (fun r => bodyKind r.body)) = (.idleWith 2, [.vanSummary]) := by decide +kernel
theorem test_van_close_other_session :
    reply (after (.vanClose 1 9) { part with van := { Van.idleWith 2 with phase := .active, session := 1 } }) =
      some { status := .notFound, result := .empty } := by decide +kernel
theorem test_van_release_needs_a_reservation :
    reply (after (.vanRelease 1 1) { part with van := { Van.idleWith 2 with phase := .active, session := 1 } }) =
      some { status := .refused, result := .reason .notReserved } := by decide +kernel

/-! ### The journal (9.10) -/

/-- A read of 2 marks the two oldest UNSENT records SENT and leaves them in their places. -/
theorem test_journal_read :
    let s := withRecords [record 1 .sent 3, record 2 .unsent 3, record 3 .parked 0, record 4 .unsent 2, record 5 .unsent 3] part
    (after (.journalRead 1 2) s).records.map (fun r => (r.sequence, r.state)) =
      [(1, .sent), (2, .sent), (3, .parked), (4, .sent), (5, .unsent)] := by decide +kernel
theorem test_ack_needs_a_sent_record :
    reply (after (.journalAckAccepted 1 1 2) (withRecords [record 2 .unsent 3] part)) =
      some { status := .notFound, result := .empty } := by decide +kernel
theorem test_ack_fatal_counts :
    let t := after (.journalAckFatal 1 1 2) (withRecords [record 2 .sent 3] part)
    (t.records, t.fatal) = ([], 1) := by decide +kernel
/-- A record with one retry left is parked (R164). -/
theorem test_retry_parks :
    (after (.journalAckRetry 1 1 2) (withRecords [record 2 .sent 1] part)).records = [record 2 .parked 0] := by decide +kernel
theorem test_reoffer :
    (after (.journalReoffer 1) (withRecords [record 2 .parked 0, record 3 .sent 2] part)).records =
      [record 2 .unsent 3, record 3 .sent 2] := by decide +kernel
theorem test_link_down :
    (after (.linkStateDown 1) (withRecords [record 2 .sent 2] part)).records = [record 2 .unsent 2] := by decide +kernel
/-- 6.11, step 8: a slot that an acknowledgement frees goes to the waiting close. -/
theorem test_freed_slot_is_served :
    let close := priced (plan2 100) 7 996000 999000 0 0
    let s := withEntries [{ close := close, waiver := none, stage := .waiting .deadline none .noPass }]
      (withRecords (record 500 .sent 3 :: fullJournal.drop 1) part)
    let t := after (.journalAckAccepted 1 1 500) s
    (t.entries, t.records.length, t.records.getLast?.map (fun r => bodyKind r.body)) = ([], 256, some .hireClose) := by decide +kernel

/-! ### Directives -/

theorem test_directive_runs_at_once :
    let t := after (.directive 1 77 4 [0, 0, 0, 9]) part
    (t.denied, t.directives, t.records.map (fun r => bodyKind r.body), reply t) =
      ([9], [], [.directiveReply], some { status := .queued, result := .ahead 0 }) := by decide +kernel
theorem test_deny_remove :
    (after .denyRemove (withDirective 5 [0, 0, 0, 9] (withDenied [3, 9, 12] part))).denied = [3, 12] := by decide +kernel
theorem test_dock_clear_waits_for_the_lock :
    let t := after .dockClear (withDirective 2 [1] (withDock 1 { fullDock with state := .lockedOut, lock := .unlocked, counter := 3 } part))
    ((t.dock 1).state, (t.dock 1).counter, (t.node 1).current.map (fun c => c.command)) = (.relocking, 0, some .lock) := by
  decide +kernel
theorem test_bike_set_needs_the_condition :
    (after .bikeSet (withDirective 1 [0, 0, 0, 101, 3, 2] part)).records.map (fun r => r.body) =
      [.directiveReply 77 1 (some 999000) .conditionFalse (some .condition) (.conditionFound .available)] := by decide +kernel
theorem test_remote_release_begins :
    let t := after .remoteRelease (withDirective 3 [1, 0, 0, 0, 9, 0] part)
    ((t.dock 1).state, t.setAside, t.store.hireCount.cur) = (.tagWriting, 1, 2) := by decide +kernel
theorem test_fault_summary_clears_attention :
    (after .faultSummary (withDirective 8 [] { part with attention := { Attention.clear with raised := true, offline := true } })).attention =
      .clear := by decide +kernel

/-! ### The link and the power -/

/-- A frame of an unknown kind is answered BAD_KIND with that kind (R183). -/
theorem test_bad_kind : reply (after (.badKind 30 4 []) part) = some { status := .badKind, result := .kind 30 } := by decide +kernel
/-- A whole frame among other bytes becomes its request (R182): STATUS_GET, kind 1, under tag 9. -/
theorem test_frame_found :
    ((after (.discardedFrame ([1#8, 2#8] ++ frameBytes 1 9 [])) part).link.holding.map (fun h => (h.tag, h.request))) =
      [(9, .statusGet)] := by decide +kernel
theorem test_fifth_request_is_busy :
    let held : Held := { tag := 1, request := .vanGet, reply := none }
    let s := { part with link := { part.link with holding := List.replicate 4 held } }
    let t := after (.statusGet 9) s
    (t.link.busy, t.link.holding.length) = ([(1, 9)], 4) := by decide +kernel
theorem test_notice_numbers_wrap :
    let s := { part with link := { Link.atStart with sending := some .notice, noticeNumber := 255, marks := { Marks.none with dockState := true } } }
    let t := after .noticeSent s
    (t.link.noticeNumber, t.link.marks, t.link.lastNotice) = (1, .none, some .dockState) := by decide +kernel
theorem test_reset_warm_starts_up_after_its_reply :
    let t := after (.resetWarm 1) part
    (t.power, t.link.sending, (after .replySent t).power) = (.running, some .reply, .startDue .warm) := by decide +kernel
theorem test_power_loss_and_power_on :
    let t := after (.powerLoss [.journal]) part
    (t.power, t.clock, t.store.journal.curSound, t.store.plans.curSound, (after .powerOn t).power) =
      (.off, .unset, false, true, .startDue .powerOn) := by decide +kernel
/-- 12.5, step 1: a damaged journal is emptied, the epoch is one higher and the numbering starts at 1; step 3: START. -/
theorem test_lost_journal :
    let s := { part with
      power := .startDue .powerOn
      store := { part.store with journal := { part.store.journal with curSound := false }, epoch := .fresh { epoch := 6, stationId := 412 } } }
    (after (.startUp []) s).records.map (fun r => (r.epoch, r.sequence, bodyKind r.body)) = [(7, 1, .start), (7, 2, .dockCensus)] := by
  decide +kernel
/-- 12.5, step 5: the census limit leaves a silent dock OFFLINE, with attention and DOCK_CENSUS. -/
theorem test_census_limit :
    let t := after .censusLimitExpiry (withDock 16 (.atStart true) { part with censusLimit := some 1000, censusReported := false })
    ((t.dock 16).state, t.attention.offline, t.censusLimit, t.records.map (fun r => bodyKind r.body)) =
      (.offline, true, none, [.dockCensus]) := by decide +kernel
theorem test_idle_step_is_a_millisecond : step part = .next { part with elapsed := 1001 } := by rfl

/-! ### Witnesses: states and operands that meet the hypotheses of each statement -/

theorem part_ready : part.ready := ⟨rfl, rfl, rfl⟩
theorem part_sized : part.sized := by unfold State.sized; decide +kernel

/-- No pass is held. -/
theorem part_pass (slot : Nat) : part.pass slot = none := by
  show (entryAt (List.replicate 32 none) slot).join = none
  unfold entryAt
  split
  · rfl
  · rw [List.getElem?_replicate]
    split <;> rfl

/-- The part without power, and with a start-up due. -/
def dark : State := { part with power := .off }
def due : State := { part with power := .startDue .powerOn }

/-- The part whose credit is used up: 8 SENT records under a credit limit of 8, and more UNSENT. -/
def spent : State := withRecords ((List.range 8).map (fun n => record (n + 1) .sent 3) ++ [record 9 .unsent 3]) part

/-- The part with every place taken: 4 requests held, 64 settle entries, 32 faults, 64 moves and 8 directives. -/
def close : PricedClose := priced (plan2 100) 7 996000 999000 0 0
def faultNoted : FaultRecord := part.dockFault 1 (some .comms) (some .silence) .noted
def move : VanMove :=
  { session := 1, van := 5, collect := true, entry := 1, dock := 1, bikeId := 101, time := none, reserved := none }
def held : Held := { tag := 1, request := .vanGet, reply := none }
def crowded : State :=
  { withEntries (List.replicate 64 { close := close, waiver := none, stage := .waiting .deadline none .noPass }) part with
    faults := List.replicate 32 faultNoted
    van := { Van.idleWith 2 with moves := List.replicate 64 move }
    directives := (List.range 8).map (fun n => { directive 9 [] with id := n })
    link := { Link.atStart with holding := List.replicate 4 held } }

theorem test_meets_IdleAndStoppedParts : part.pending = [] ∧ part.power = .running ∧ dark.pending = [] ∧ dark.power ≠ .running ∧
    ofPower .replySent = false := by decide +kernel

theorem test_meets_CreditLawIsKept :
    spent.creditLaw ∧ spent.recordsIn .sent = spent.settings.creditLimit ∧
      ∃ t, step { spent with pending := [.journalRead 1 16] } = .next t := by
  refine ⟨by unfold State.creditLaw; decide +kernel, by decide +kernel, ?_⟩
  exact ⟨after (.journalRead 1 16) spent, rfl⟩

theorem test_meets_PlacesAreKept :
    (crowded.holdingLaw ∧ crowded.bounded ∧ crowded.sized) ∧ ∃ t, step { crowded with pending := [.statusGet 5] } = .next t := by
  refine ⟨by unfold State.holdingLaw State.bounded State.sized; decide +kernel, ?_⟩
  exact ⟨after (.statusGet 5) crowded, rfl⟩

/-- The part with its tables full or in use: three denied ids, a pass charged up to its hold, 95 hires with a release, two bikes,
and a full journal with that release's slot set aside. -/
def stocked : State :=
  withDock 1 { fullDock with state := .unlocking, release := some memberRelease } (withDock 2 { fullDock with bike := some { bike with id := 102 } }
    { withRecords (fullJournal.take 255) (withHires (List.replicate 95 passHire) (withPass 3 { dayPass with charged := 1500 }
      (withDenied [3, 9, 12] part))) with setAside := 1 })
theorem test_meets_PlacesAreKept_tables :
    (stocked.denyLaw ∧ stocked.chargeLaw ∧ stocked.hireLaw ∧ stocked.bikeLaw ∧ stocked.roomLaw ∧ stocked.numberLaw) ∧
      stocked.free = 0 ∧ stocked.store.journal.cur.next ≤ 4294966000 ∧ ofPower (.statusGet 5) = false ∧
      (∃ t, exec (.statusGet 5) stocked = .next t ∧ t.records.length ≤ 256) ∧
      ∃ t, step { stocked with pending := [.statusGet 5] } = .next t := by
  refine ⟨⟨?_, ?_, by unfold State.hireLaw; decide +kernel, ?_, by unfold State.roomLaw; decide +kernel, ?_⟩, by decide +kernel,
    by decide +kernel, rfl, ⟨after (.statusGet 5) stocked, rfl, by decide +kernel⟩, after (.statusGet 5) stocked, rfl⟩
  · have h : stocked.store.deny.cur.Pairwise (· < ·) ∧ stocked.store.deny.cur.length ≤ Config.denyPlaces :=
      by decide +kernel
    intro l hl
    have : l = stocked.store.deny.cur := hl.elim id id
    subst this
    exact h
  · have h : ∀ p ∈ stocked.store.passes.cur.slots, ∀ q, p = some q → q.charged ≤ q.hold := by decide +kernel
    intro r hr p hp
    have : r = stocked.store.passes.cur := hr.elim id id
    subst this
    exact h _ hp _ rfl
  · have h : ∀ d ∈ dockNumbers, ∀ e ∈ dockNumbers, d ≠ e → ∀ b, (stocked.dock d).bike = some b →
        ∀ c, (stocked.dock e).bike = some c → b.id = c.id → b.id = 0 := by decide +kernel
    exact fun d e hd he hn b c hb hc => h d hd e he hn b hb c hc
  · have h : stocked.records.Pairwise (fun a b => a.sequence < b.sequence) := by
      show (((List.range 256).map (fun n => record (n + 1) .unsent 3)).take 255).Pairwise _
      refine ((List.pairwise_map.2 ?_).sublist (List.take_sublist _ _))
      exact List.pairwise_lt_range.imp (fun h => Nat.succ_lt_succ h)
    refine ⟨?_, by decide +kernel⟩
    refine h.imp ?_
    exact fun h' _ => h'

/-- Both copies of the journal of `stocked` keep the law under both epochs; power fails, and a start-up runs. -/
theorem test_meets_PlacesAreKept_copies :
    (∀ j, j = stocked.store.journal.cur ∨ j = stocked.store.journal.old → j.next ≤ 4294966000 ∧
      j.records.Pairwise (fun a b => a.epoch = b.epoch → a.sequence < b.sequence) ∧
      ∀ e, e = stocked.store.epoch.cur.epoch ∨ e = stocked.store.epoch.old.epoch →
        ∀ r ∈ j.records, r.epoch = e → r.sequence < j.next) ∧
      (let up := { stocked with power := .startDue .powerOn }
       (∃ t, exec (.powerLoss []) stocked = .next t ∧ t.records.length ≤ 256) ∧
        (∃ t, exec (.startUp []) up = .next t ∧ t.records.length ≤ 256) ∧ up.store = stocked.store) := by
  have bound : stocked.store.journal.cur.next ≤ 4294966000 ∧
      ∀ r ∈ stocked.store.journal.cur.records, r.epoch = 1 → r.sequence < stocked.store.journal.cur.next := by decide +kernel
  have rise : stocked.records.Pairwise (fun a b => a.sequence < b.sequence) := by
    show (((List.range 256).map (fun n => record (n + 1) .unsent 3)).take 255).Pairwise _
    refine ((List.pairwise_map.2 ?_).sublist (List.take_sublist _ _))
    exact List.pairwise_lt_range.imp (fun h => Nat.succ_lt_succ h)
  refine ⟨fun j hj => ?_, ⟨after (.powerLoss []) stocked, rfl, by decide +kernel⟩,
    ⟨after (.startUp []) { stocked with power := .startDue .powerOn }, rfl, by decide +kernel⟩, rfl⟩
  have : j = stocked.store.journal.cur := hj.elim id id
  subst this
  refine ⟨bound.1, rise.imp ?_, fun e he r hr h => bound.2 r hr (h.trans (he.elim id id))⟩
  exact fun h _ => h

/-- A dock that falls silent changes what it adds to the counts, and its timer sets attention; a sale changes a slot; an
opening changes the session. -/
def silent : State := part.putNode 1 { heardNode with silenceAt := 1000 }
theorem test_meets_ChangesAreNoticed :
    (ofPower (.silenceTimeout 1) = false ∧ silent.sized ∧ exec (.silenceTimeout 1) silent = .next (after (.silenceTimeout 1) silent) ∧
      (after (.silenceTimeout 1) silent).docks.map Dock.share ≠ silent.docks.map Dock.share) ∧
    (after (.terminalAuth 1 1 1 100 (List.replicate 12 0#8)) part).store.passes.cur.slots.map (fun p => p.map (fun q => q.state)) ≠
      part.store.passes.cur.slots.map (fun p => p.map (fun q => q.state)) ∧
    (after .censusLimitExpiry { silent with docks := List.replicate 64 (.atStart true), censusLimit := some 1000 }).attention ≠
      silent.attention ∧
    (after (.vanOpen 1 5 77 [{ kind := 2, selector := none, count := 1, endMark := true }]) part).van.phase ≠ part.van.phase ∧
    (after (.vanOpen 1 5 77 [{ kind := 2, selector := none, count := 1, endMark := true }]) part).docks.map (fun x => x.reservation) ≠
      part.docks.map (fun x => x.reservation) := by
  refine ⟨⟨rfl, by unfold State.sized; decide +kernel, rfl, by decide +kernel⟩, ?_⟩
  decide +kernel

/-- Readiness that begins, that ends, and a record that parks. -/
theorem test_meets_ReadinessIsNoticed :
    (ofPower (.timeSet 1 2000000) = false ∧ part.power = .running ∧
      exec (.timeSet 1 2000000) part = .next (after (.timeSet 1 2000000) part)) ∧
    (part.journalReady = false ∧ (after (.timeSet 1 2000000) part).journalReady = true) ∧
    (let s := withRecords [record 1 .unsent 3] part
     s.journalReady = true ∧ (after (.journalRead 1 1) s).journalReady = false) ∧
    (let s := withRecords [record 1 .sent 1] part
     s.recordsIn .parked ≠ (after (.journalAckRetry 1 1 1) s).recordsIn .parked) := by
  refine ⟨⟨rfl, rfl, rfl⟩, ?_⟩
  decide +kernel

/-- A configured dock in each of the indicator's cases: LOCKED_OUT, RELEASE_OPEN, reserved, OCCUPIED and EMPTY. -/
theorem test_meets_IndicatorsFollow :
    let s := withDock 2 { emptyDock with state := .lockedOut } (withDock 3 { fullDock with state := .releaseOpen }
      (withDock 4 { emptyDock with reservation := .deliver 1 } part))
    let t := after (.statusGet 1) s
    ofPower (.statusGet 1) = false ∧ s.power = .running ∧ t.power = .running ∧
      [1, 2, 3, 4, 5].all (fun d => dockNumbers.contains d && (t.dock d).configured && (t.dock d).state != .offline) ∧
      [1, 2, 3, 4, 5].map (fun d => (t.dock d).shown) = [some .ready, some .fault, some .release, some .reserved, some .off] := by
  decide +kernel

/-- A dock that shows another indication than its resting one, with its node SILENT, with a current command and a waiting
SHOW, and with no command. -/
theorem test_meets_IndicatorsFollow_placed :
    let s := withDock 1 { fullDock with shown := some .off } part
    let u := s.putNode 1 (busyNode .lock 9 false [.show .refused, .unlock])
    let v := s.putNode 1 { heardNode with phase := .silent }
    (1 ∈ dockNumbers ∧ (s.dock 1).configured = true ∧ (s.dock 1).state ≠ .offline ∧ (s.dock 1).shown ≠ some (s.dock 1).resting ∧
      (s.dock 1).resting = .ready ∧ u.dock 1 = s.dock 1 ∧ v.dock 1 = s.dock 1) ∧
      ((v.node 1).phase ≠ .answering ∧ (u.node 1).phase = .answering ∧ (u.node 1).current.isSome = true) ∧
      ((s.node 1).phase = .answering ∧ (s.node 1).current = none ∧ (s.node 1).waiting = []) := by decide +kernel

theorem test_meets_FinishFrame :
    NoticeKind.dockState ≠ .journalReady ∧ (part.dock 64).configured = false ∧ (due.dock 17).state = .offline ∧
      (part.dock 1).shown = some (part.dock 1).resting ∧ [1, 17, 64].all dockNumbers.contains := by decide +kernel

/-- The outgoing direction in use, and free with a BUSY reply, a ready reply, a notice, both after a notice, and nothing. -/
theorem test_meets_NextFrameIsChosen :
    let h : Held := { held with reply := some { status := .ok, result := .empty } }
    let l := Link.atStart
    ({ l with sending := some .reply } : Link).sending ≠ none ∧
      (({ l with busy := [(1, 2)], sending := some .notice } : Link).sending ≠ some .reply ∧ l.busy = []) ∧
      (({ l with busy := [(1, 2)], sending := some .reply } : Link).busy ≠ []) ∧
      (({ l with holding := [h] } : Link).holding = [h] ∧ h.reply.isSome = true ∧ l.marks = .none) ∧
      (({ l with marks := { Marks.none with vanState := true } } : Link).marks ≠ .none ∧ ∀ n v, l.lastFrame ≠ some (.notice n v)) ∧
      (l.busy = [] ∧ l.holding = []) := by
  refine ⟨by decide, by decide, by decide, ⟨rfl, rfl, rfl⟩, ⟨by decide, nofun⟩, rfl, rfl⟩

theorem test_meets_RequestBodiesReadBack :
    Request.wf (.terminalAuth 255 255 65535 (List.replicate 12 0xFF#8)) = true ∧ Request.wf (.tariffCommit (.other 255)) = true ∧
      Request.wf (.tariffStageBand 255 (some 65535) 255 65535) = true ∧ Request.wf (.directive 4294967295 255 (List.replicate 255 1#8)) = true ∧
      Request.wf (.vanOpen 65535 4294967295 (List.replicate 255 ⟨255, some 255, 255, true⟩)) = true := by decide +kernel

theorem test_meets_ImagesAndFrames :
    (let c : CardImage := { member := 99999999, plan := 15, expiryDay := 65535, issue := 255 }
     1 ≤ c.member ∧ c.member ≤ 99999999 ∧ c.plan ≤ 15 ∧ c.expiryDay < 65536 ∧ c.issue < 256) ∧
    (1 ≤ 16777215 ∧ 16777215 ≤ 16777215) ∧
    (let i : TripImage :=
        { bikeId := 16777215, ref := { station := 65535, count := 16777215 }, hirer := .pass 255 65535, start := Config.maxTime
          plan := 255, generation := 255, credit := 65535 }
     1 ≤ i.bikeId ∧ i.bikeId ≤ 16777215 ∧ i.ref.station < 65536 ∧ i.ref.count ≤ 16777215 ∧ i.start ≤ Config.maxTime ∧
        i.plan < 256 ∧ i.generation < 256 ∧ i.credit < 65536) ∧
    (List.replicate Config.maxBody 0#8).length ≤ Config.maxBody := by decide +kernel

theorem test_meets_DurationStage :
    ((1000 : Nat) ≤ 605800 ∧ 605800 - 1000 ≤ 604800) ∧ (999 : Nat) < 1000 ∧ (604800 : Nat) < 605801 - 1000 := by decide

theorem test_meets_ValidTables :
    ([30, 90, 10080] : List Nat).Pairwise (· < ·) ∧ (∀ e ∈ [30, 90, 10080], 0 < e) ∧
      validateStaged ((bands.map some) ++ List.replicate 5 none) = none := by decide +kernel

/-- The current generation, the previous one, another with a previous table, and another without. -/
theorem test_meets_TableStage :
    (0 < 60) ∧ trip.generation = TariffSet.default.current.generation ∧
      (6 ≠ tariffs.current.generation ∧ tariffs.previous.map (fun q => q.generation) = some 6) ∧
      (5 ≠ tariffs.current.generation ∧ ∀ q, tariffs.previous = some q → 5 ≠ q.generation) := by decide +kernel

/-- Three bands, two of them bounded, with every rate in range. -/
theorem test_meets_TableStage_bands :
    let bounded : List Band := [{ edge := some 30, block := 10, rate := 50 }, { edge := some 90, block := 30, rate := 5000 }]
    let last : Band := { edge := none, block := 60, rate := 0 }
    last.edge = none ∧ (∀ b ∈ bounded, b.edge ≠ none) ∧ (∀ b ∈ bounded ++ [last], 0 < b.block) ∧
      (bounded.filterMap (fun b => b.edge)).Pairwise (· < ·) ∧ (∀ e ∈ bounded.filterMap (fun b => b.edge), 0 < e) ∧
      ∀ b ∈ bounded ++ [last], b.rate ≤ 5000 := by decide +kernel

theorem test_meets_CreditsAndTheFare :
    { trip with plan := 15 }.plan = 15 ∧ trip.plan ≠ 15 ∧ part.plans[trip.plan]?.isSome = true := by decide +kernel

theorem test_meets_PercentStage :
    480 * 85 = 40800 ∧ (200 ≤ 200 ∧ 50400000 ≤ 50400000) ∧ 430 * 95 = 40850 := by decide

theorem test_meets_RequestsWait :
    (Instr.statusGet 9).request? = some (9, .statusGet) ∧ part.power = .running ∧
      (let l := { part.link with holding := List.replicate 3 held }; l.holding ≠ [] ∧ l.holding.length < 4) ∧
      4 ≤ ({ part.link with holding := List.replicate 4 held } : Link).holding.length ∧ part.link.buried = [] ∧
      ({ part.link with receiving := startByte :: (natBytes 2 20 ++ frameBytes 1 9 []) } : Link).buried = [(1, 9, [])] := by
  decide +kernel

theorem test_meets_ReadsChangeNothing : part.ready ∧ part.sized := ⟨part_ready, part_sized⟩

/-- A time outside the range; and, with nothing due at the new time, the first TIME_SET, a change of 300 s, one of 301 s with a
slot free, and one with none. -/
theorem test_meets_TimeSetResult :
    part.ready ∧ (4294967295 < 4294967296) ∧
    (∀ t, (∀ slot p, part.pass slot = some p → t < p.expiry) ∧ (∀ h ∈ part.hires, h.pastAge part.settings.hireAgeLimit t = false) ∧
      (∀ a, part.tariffs.commit = some a → t < a)) ∧
    ({ part with clock := .unset } : State).now = none ∧ part.now = some 1000000 ∧ (1000300 ≤ 1000000 + 300) ∧
    (1000000 + 300 < 1000301 ∧ 0 < part.free ∧ part.sixth = []) ∧ (withRecords fullJournal part).free = 0 := by
  refine ⟨part_ready, by decide, fun t => ⟨fun slot p h => ?_, ?_, nofun⟩, ?_⟩
  · rw [part_pass] at h; cases h
  · intro h hh; exact absurd hh (List.not_mem_nil)
  · decide +kernel

/-- At a first setting, alone due: an ISSUED pass at its expiry, a hire at its age of 3 days, and a pending commit. -/
theorem test_meets_TimeSetResult_due :
    let unset := fun (s : State) => ({ s with clock := .unset } : State)
    let p := withPass 3 dayPass part
    (part.ready ∧ (unset part).now = none ∧ 0 < (unset part).free) ∧
      (3 ∈ slotNumbers ∧ p.pass 3 = some dayPass ∧ dayPass.state = .issued ∧ dayPass.expiry ≤ 1085400 ∧
        p.passInFlight 3 907 = false) ∧
      ((withHires [memberHire] part).hires = [] ++ memberHire :: [] ∧
        memberHire.pastAge part.settings.hireAgeLimit (999500 + 259200) = true) ∧
      ((withTariffs { tariffs with commit := some 1000000 } part).tariffs.commit = some 1000000 ∧ part.sixth = []) :=
  ⟨⟨part_ready, by decide +kernel⟩, by decide +kernel⟩

/-- A number outside the table; marks that would cross, a credit limit below the SENT records, and a value that passes. -/
theorem test_meets_SettingSetResult :
    part.ready ∧ settingOf 10 = some .lowMark ∧ part.settings.highMark ≤ 56 ∧ settingOf 11 = some .highMark ∧
      8 ≤ part.settings.lowMark ∧ settingOf 20 = some .creditLimit ∧ (7 ≠ 0 ∧ 7 < spent.recordsIn .sent) ∧
      55 < part.settings.highMark ∧ part.settings.lowMark < 9 ∧ spent.recordsIn .sent ≤ 8 ∧
      SettingName.lowMark ≠ SettingName.highMark ∧ SettingName.countA.atStart = true ∧ SettingName.lowMark.atStart = false :=
  ⟨part_ready, by decide +kernel⟩

theorem test_meets_ResetResult :
    part.ready ∧ spent.records ≠ [] ∧ part.records = [] ∧ (withHires [memberHire] part).hires ≠ [] ∧ part.hires = [] ∧
      crowded.entries ≠ [] ∧ crowded.records = [] ∧ part.entries = [] ∧
      (∃ p ∈ (withPass 3 dayPass part).store.passes.cur.slots, p ≠ none) ∧ ∀ p ∈ part.store.passes.cur.slots, p = none :=
  ⟨part_ready, by decide +kernel⟩

theorem test_meets_PlanAndPolicySetResult :
    part.ready ∧ (14 < 15) ∧
      (let f : PlanArgs := ⟨2, 240, 200, 1000, 65535, 4⟩
       (f.admitted = 1 ∨ f.admitted = 2) ∧ f.freeMinutes ≤ 240 ∧ f.percent ≤ 200 ∧ f.unlockFee ≤ 1000 ∧ f.ceiling ≤ 65535 ∧
          1 ≤ f.hireLimit ∧ f.hireLimit ≤ 4) ∧
      ¬ ((5 : Nat) ≤ 4) ∧ (8 < 9) ∧ ((3 : Nat) ≠ 1 ∧ (3 : Nat) ≠ 2) ∧ 3 < 4 := ⟨part_ready, by decide⟩

/-- A sale outside each range, a repeat, a clock that is UNSET, 32 passes held, too little room, and a sale that goes through;
and the answers of PASS_CANCEL. -/
theorem test_meets_PassSaleAndCancel :
    part.ready ∧ (part.repeatedAuth 2 (List.replicate 12 0x11#8) = none ∧
      (withPass 3 dayPass part).repeatedAuth 2 (List.replicate 12 0x11#8) = some (3, dayPass)) ∧
    ({ part with clock := .unset } : State).now = none ∧
    (let full := { part with store := { part.store with passes := .fresh { slots := List.replicate 32 (some dayPass), serial := 9 } } }
     full.repeatedAuth 1 [] = none ∧ full.now ≠ none ∧ ∀ slot ∈ slotNumbers, full.pass slot ≠ none) ∧
    ((∃ slot ∈ slotNumbers, part.pass slot = none) ∧ (withRecords fullJournal part).free < part.settings.openReserve) ∧
    (let one := withPass 1 dayPass part
     one.repeatedAuth 1 [] = none ∧ one.now = some 1000000 ∧ one.pass 2 = none ∧ (∀ other ∈ slotNumbers, other < 2 → one.pass other ≠ none) ∧
        one.settings.openReserve ≤ one.free ∧ one.heldCodes.length < 1000000) ∧
    (let s := withPass 3 dayPass part
     s.pass 3 = some dayPass ∧ (∀ p, s.pass 3 = some p → p.serial ≠ 906) ∧ dayPass.state = .issued ∧ dayPass.rides = 0 ∧
        s.passInFlight 3 907 = false ∧ 0 < s.free ∧ (withRecords fullJournal s).free = 0 ∧
        (withDock 1 { fullDock with state := .unlocking, release := some passRelease } s).passInFlight 3 907 = true ∧
        ({ dayPass with rides := 1 } : Pass).rides ≠ 0) :=
  ⟨part_ready, by decide +kernel⟩

theorem test_meets_StagingResult :
    part.ready ∧ part.tariffs.commit = none ∧ (withTariffs { tariffs with commit := some 2000000 } part).tariffs.commit ≠ none ∧
      (10080 < 10081) ∧ (∀ e, (none : Option Nat) = some e → 1 ≤ e ∧ e ≤ 10080) ∧ (60 < 61) ∧ (5000 < 5001) :=
  ⟨part_ready, by decide +kernel, by decide +kernel, by decide, nofun, by decide, by decide⟩

/-- A commit pending, an earlier record waiting, a table that fails, and a good table before, at and after its time, with the
clock UNSET, and with the sixth place held. -/
theorem test_meets_CommitResult :
    let good := { tariffs with staged := some ⟨none, 60, 0⟩ :: List.replicate 7 none }
    let s := withTariffs good part
    part.ready ∧ s.ready ∧ (withTariffs { good with commit := some 1000000 } part).tariffs.commit = some 1000000 ∧
      (s.tariffs.commit = none ∧ s.tariffs.waiting = none) ∧ validateStaged part.tariffs.staged = some (1, .missing) ∧
      validateStaged s.tariffs.staged = none ∧ ({ s with clock := .unset } : State).now = none ∧ s.now = some 1000000 ∧
      (1000000 ≤ 1000000 ∧ 1000000 < 1000001) ∧ (0 < s.free ∧ s.sixth = []) ∧ (withRecords fullJournal s).free = 0 :=
  ⟨part_ready, ⟨rfl, rfl, rfl⟩, by decide +kernel⟩

/-- A dock without a bike; a bike with the kind confirmed, and without; both policies; an attention flag set and clear. -/
theorem test_meets_RiderReportResult :
    part.ready ∧ (1 ≤ 99999999 ∧ bikeFaultOf 1 = some .brake ∧ bikeFaultOf 8 = some .other ∧ 0 < part.free ∧ part.faults = []) ∧
      (part.dock 64).bike = none ∧ (part.dock 1).bike = some bike ∧ part.heldAt 101 = none ∧ BikeFault.brake ∉ bike.faults ∧
      BikeFault.brake ∈ ({ bike with faults := [.brake] } : Bike).faults ∧ (part.policy .other).cls = .advisory ∧
      (part.policy .brake).cls = .quarantine ∧ bike.condition = .available ∧
      ¬ (part.attention.raised = true ∧ part.attention.quarantine = true) := ⟨part_ready, by decide +kernel⟩

/-- A settling bike with BRAKE confirmed: its entry without a waiver, and with one. -/
def settlingBike : Bike := { bike with settling := true, faults := [.brake] }
def heldEntry : SettleEntry := { close := close, waiver := none, stage := .held 101 1 1000 }
theorem test_meets_RiderReportResult_waiver :
    let s := withEntries [heldEntry] (withDock 1 { fullDock with bike := some settlingBike } part)
    s.ready ∧ (s.dock 1).bike = some settlingBike ∧ BikeFault.brake ∈ settlingBike.faults ∧ 0 < s.free ∧ s.faults = [] ∧
      s.entries = [] ++ heldEntry :: [] ∧ heldEntry.stage = .held settlingBike.id 1 1000 ∧ heldEntry.waiver = none ∧
      heldEntry.close.hirer = .member 7700112 ∧ 7700112 ≤ 99999999 ∧ Hirer.member 7700112 ≠ .member 9 ∧
      ({ heldEntry with waiver := some { source := .rider, kind := .brake, time := none } } : SettleEntry).waiver ≠ none :=
  ⟨⟨rfl, rfl, rfl⟩, by decide +kernel⟩

/-- Each argument out of its range; a FREE slot; a member, a pass and an anonymous reporter; a dock without a bike, a bike id at no
dock, a bike named by its id, and a settling bike whose hirer is the pass, or is not. -/
theorem test_meets_RiderReportResult_reporters :
    let s := withPass 3 dayPass part
    let passClose : SettleEntry := { heldEntry with close := { close with hirer := .pass 3 907 } }
    let h := withEntries [passClose] (withDock 1 { fullDock with bike := some settlingBike } s)
    (s.ready ∧ h.ready) ∧ (64 < 65 ∧ 8 < 9 ∧ 2 < 3 ∧ 99999999 < 100000000 ∧ 32 < 33 ∧ part.pass 3 = none) ∧
      (bikeFaultOf 1 = some .brake ∧ 7700112 ≤ 99999999 ∧ s.pass 3 = some dayPass ∧ dayPass.serial = 907) ∧
      (0 < s.free ∧ s.faults = [] ∧ (s.dock 2).bike = none ∧ ∀ d ∈ dockNumbers, ∀ b, (s.dock d).bike = some b → b.id ≠ 500) ∧
      (1 ∈ dockNumbers ∧ (s.dock 1).bike = some bike ∧ bike.id = 101 ∧
        ∀ c ∈ dockNumbers, c < 1 → ∀ x, (s.dock c).bike = some x → x.id ≠ 101) ∧
      ((h.dock 1).bike = some settlingBike ∧ BikeFault.brake ∈ settlingBike.faults ∧ h.entries = [] ++ passClose :: [] ∧
        passClose.stage = .held settlingBike.id 1 1000 ∧ passClose.waiver = none ∧ passClose.close.hirer = .pass 3 907 ∧
        0 < h.free ∧ h.faults = []) := ⟨⟨⟨rfl, rfl, rfl⟩, ⟨rfl, rfl, rfl⟩⟩, by decide +kernel⟩

/-- A session with its idle deadline at 1000. -/
def session : Van :=
  { Van.idleWith 2 with
    phase := .active, session := 1, van := 5, crew := 77, idleAt := some 1000
    manifest := [{ kind := .collect .any, asked := 1, target := 1, done := 0, short := 0 }] }
def touring : State := { part with van := session }
def collecting : State := withDock 1 { fullDock with state := .unlocking, release := some vanRelease } touring
/-- The part with no EMPTY dock. -/
def noEmpty : State := { part with docks := fullDock :: List.replicate 63 (.atStart false) }

/-- A part in the midst of its work: pass 3 on its ride with hire 7/90,016, a release of pass 4 at dock 3 and a VAN release at dock 5
in an ACTIVE session that has a delivery left for dock 6, and the close of settling bike 101 held at dock 1. -/
def rideRef : HireRef := { station := 7, count := 90016 }
def ridingPass : Pass := { dayPass with state := .onRide, current := some rideRef }
def freshPass : Pass := { dayPass with serial := 908, code := 583027 }
def rideHire : OpenHire := { passHire with ref := rideRef }
def keyRelease : Release := { memberRelease with party := .hire (.pass 4 908) none ref { trip with hirer := .pass 4 908 } }
def tour : List ManifestEntry :=
  [{ kind := .collect .any, asked := 1, target := 1, done := 0, short := 0 },
   { kind := .deliver, asked := 2, target := 2, done := 1, short := 0 }]
def lively : State :=
  withDock 1 { fullDock with bike := some settlingBike }
    (withDock 3 { fullDock with state := .unlocking, bike := some { bike with id := 103 }, release := some keyRelease }
      (withDock 5 { fullDock with state := .unlocking, bike := some { bike with id := 105 }, release := some vanRelease, reservation := .collect 1 }
        (withDock 6 { emptyDock with reservation := .deliver 2 }
          (withEntries [heldEntry] (withHires [rideHire] (withPass 4 freshPass (withPass 3 ridingPass
            { part with setAside := 1, van := { session with manifest := tour } })))))))

theorem lively_docks (d : Nat) (h : d ∈ dockNumbers) :
    ((lively.dock d).release = none ∨ (d = 3 ∧ (lively.dock d).release = some keyRelease) ∨
        (d = 5 ∧ (lively.dock d).release = some vanRelease ∧ (lively.dock d).reservation = .collect 1)) ∧
      ((lively.dock d).reservation = .unreserved ∨ (lively.dock d).reservation = .collect 1 ∨
        (lively.dock d).reservation = .deliver 2) ∧
      (∀ x, (lively.dock d).bike = some x → x.settling = true → d = 1 ∧ x.id = 101) ∧
      ((lively.dock d).state = .empty → (lively.dock d).bike = none) := by
  revert d; decide +kernel

theorem lively_rides : lively.refLaw ∧ lively.rideLaw := by
  have hires : lively.hires = [rideHire] := rfl
  have releases : lively.releases = [keyRelease, vanRelease] := rfl
  refine ⟨⟨by decide +kernel, by decide +kernel, fun r hr hirer issue ref' image hp => ?_⟩, fun h hm slot serial hh => ?_,
    by decide +kernel, fun r hr slot serial hh => ?_, fun d hd e he hne slot serial r q hr hq hh => ?_⟩
  · rw [releases] at hr
    rcases List.mem_cons.1 hr with rfl | hr
    · cases hp; rfl
    · cases List.mem_singleton.1 hr; cases hp
  · rw [hires] at hm
    cases List.mem_singleton.1 hm
    cases hh
    exact ⟨ridingPass, by decide +kernel⟩
  · rw [releases] at hr
    rcases List.mem_cons.1 hr with rfl | hr
    · cases hh; exact ⟨freshPass, by decide +kernel⟩
    · cases List.mem_singleton.1 hr; cases hh
  · intro hh'
    obtain ⟨x | ⟨rfl, x⟩ | ⟨-, x, -⟩, -⟩ := lively_docks d hd
    · rw [x] at hr; cases hr
    · obtain ⟨y | ⟨rfl, y⟩ | ⟨-, y, -⟩, -⟩ := lively_docks e he
      · rw [y] at hq; cases hq
      · exact hne rfl
      · rw [y] at hq; cases hq; cases hh'
    · rw [x] at hr; cases hr; cases hh

theorem lively_held : lively.heldLaw := by
  intro _
  refine ⟨by decide +kernel, fun e he b d t hs => ?_, fun d hd x hx hs => ?_, fun d hd => (lively_docks d hd).2.2.2⟩
  · have : lively.entries = [heldEntry] := rfl
    rw [this] at he
    cases List.mem_singleton.1 he
    cases hs
    exact ⟨by decide, settlingBike, by decide +kernel⟩
  · obtain ⟨rfl, h⟩ := (lively_docks d hd).2.2.1 x hx hs
    exact ⟨heldEntry, by decide +kernel, 1000, by rw [h]; rfl⟩

theorem lively_van : lively.vanLaw := by
  refine ⟨by decide +kernel, fun d hd n => ⟨fun h => ?_, fun h => ?_⟩, fun n m h => ⟨fun _ => ?_, nofun⟩, nofun,
    fun d hd r crew n hr hp => ?_, by decide +kernel⟩
  · rcases (lively_docks d hd).2.1 with x | x | x <;> rw [x] at h <;> cases h
    exact ⟨_, .any, rfl, rfl⟩
  · rcases (lively_docks d hd).2.1 with x | x | x <;> rw [x] at h <;> cases h
    exact ⟨_, rfl, rfl⟩
  · match n, h with
    | 1, h => cases h; decide +kernel
    | 2, h => cases h; decide +kernel
  · obtain ⟨x | ⟨-, x⟩ | ⟨-, x, y⟩, -⟩ := lively_docks d hd
    · rw [x] at hr; cases hr
    · rw [x] at hr; cases hr; cases hp
    · rw [x] at hr; cases hr; cases hp; exact y

/-- The laws of codes, references, rides, HELD entries and reservations, met together, with a command; and a start-up that takes the
newer copies. -/
theorem test_meets_PlacesAreKept_laws :
    (lively.sized ∧ lively.bounded ∧ lively.hireLaw) ∧ (lively.codeLaw ∧ lively.refLaw ∧ lively.rideLaw ∧ lively.heldLaw ∧ lively.vanLaw) ∧
      (∃ t, step { lively with pending := [.silenceTimeout 5] } = .next t) ∧ lively.power = .running ∧
      (let store := ([(.plans, .newer)] : List (RegionName × CopyRole)).foldl Store.spoil lively.store
       store.passes.curSound = true ∧ store.hires.curSound = true) := by
  refine ⟨⟨by unfold State.sized; decide +kernel, by unfold State.bounded; decide +kernel, by unfold State.hireLaw; decide +kernel⟩,
    ⟨fun r hr => ?_, lively_rides.1, lively_rides.2, lively_held, lively_van⟩, ⟨after (.silenceTimeout 5) lively, rfl⟩, rfl, by decide +kernel⟩
  have h : (lively.store.passes.cur.slots.filterMap (fun p => p.map (fun q => q.code))).Nodup := by decide +kernel
  have : r = lively.store.passes.cur := hr.elim id id
  subst this
  exact h

theorem test_meets_VanOpenAndIdleTimeout :
    (part.ready ∧ touring.ready ∧ noEmpty.ready) ∧ touring.van.phase ≠ .idle ∧ part.van.phase = .idle ∧ (9999 < 10000) ∧
      (99999999 < 100000000) ∧ manifestOf 1 [⟨3, none, 1, true⟩] = .error (1, .kind) ∧
      manifestOf 1 [⟨2, none, 1, true⟩] = .ok [⟨.deliver, 1, 0, 0, 0⟩] ∧ 77 ∈ (withDenied [77] part).denied ∧ 77 ∉ part.denied ∧
      part.nextDeliver = some 2 ∧
      (noEmpty.nextDeliver = none ∧ noEmpty.van.moves = [] ∧ noEmpty.van.summary = none ∧ noEmpty.vanReleases = [] ∧
        (∀ d ∈ dockNumbers, (noEmpty.dock d).reservation = .unreserved) ∧ 0 < noEmpty.free) ∧
      (manifestOf 1 [⟨1, some 1, 1, false⟩, ⟨2, none, 3, true⟩] =
          .ok [⟨.collect .any, 1, 0, 0, 0⟩, ⟨.deliver, 3, 0, 0, 0⟩] ∧
        (∀ d ∈ dockNumbers, (part.dock d).reservation = .unreserved) ∧ part.docks.length = 64) ∧
      (touring.van.idleAt = some 1000 ∧ 1000 ≤ touring.elapsed ∧ touring.vanReleases = [] ∧ touring.van.summary = none) ∧
      ((withRecords fullJournal touring).free = 0 ∧ touring.van.moves = [] ∧ 0 < touring.free ∧
        (let t := withRecords [] (after .vanIdleTimeout (withRecords fullJournal touring))
         t.van.phase = .closing ∧ t.van.summary.isSome = true ∧ t.van.moves = [] ∧ 0 < t.free)) ∧
      (collecting.van.phase = .active ∧ collecting.van.idleAt = some 1000 ∧ 1000 ≤ collecting.elapsed ∧ collecting.vanReleases ≠ [] ∧
        collecting.docks.length = 64) ∧
      part.van.idleAt = none := ⟨⟨⟨rfl, rfl, rfl⟩, ⟨rfl, rfl, rfl⟩, ⟨rfl, rfl, rfl⟩⟩, by decide +kernel⟩

/-- The dock in each state at which VAN_RELEASE answers, and VAN_CLOSE of the session, of another and in CLOSING. -/
theorem test_meets_VanReleaseAndClose :
    let at' := fun (x : DockState) => withDock 1 { fullDock with state := x, reservation := .collect 1 } touring
    (touring.ready ∧ (at' .occupied).ready) ∧ (64 < 65) ∧ part.van.phase ≠ .active ∧ touring.van.phase = .active ∧
      (∀ n, (touring.dock 1).reservation ≠ .collect n) ∧ ((at' .occupied).dock 1).reservation = .collect 1 ∧
      64 ≤ ({ touring with van := { session with moves := List.replicate 64 move } } : State).van.moves.length ∧
      (at' .offline).van.moves.length + (at' .offline).vanReleases.length < 64 ∧ ((at' .offline).dock 1).state = .offline ∧
      ((at' .lockedOut).dock 1).state ≠ .occupied ∧
      (∀ b, ((at' .occupied).dock 1).bike = some b → b.settling = false) ∧
      ({ touring with van := { session with phase := .closing } } : State).van.phase = .closing ∧
      (touring.van.session = 1 ∧ touring.van.summary = none ∧ touring.docks.length = 64 ∧ touring.vanReleases = [] ∧
        collecting.vanReleases = [1] ∧ ((at' .occupied).dock 1).reservation ≠ .unreserved) :=
  ⟨⟨⟨rfl, rfl, rfl⟩, ⟨rfl, rfl, rfl⟩⟩, by decide +kernel, by decide +kernel, by decide +kernel, nofun, by decide +kernel⟩

theorem test_meets_JournalReadResult :
    part.ready ∧ (16 < 17) ∧ (let s := withRecords [record 1 .unsent 3, record 2 .unsent 3] part
                              1 ≤ min 1 (min (s.recordsIn .unsent) (s.settings.creditLimit - s.recordsIn .sent)) ∧
      readSize (s.putJournal { s.store.journal.cur with records := markSent 1 s.records }).journalSummary
        (readRecords 1 s.records) ≤ Config.maxBody ∧
      ∀ j, 1 < j → ¬ j ≤ min 1 (min (s.recordsIn .unsent) (s.settings.creditLimit - s.recordsIn .sent))) ∧
    2 ≤ ([record 1 .unsent 3, record 2 .unsent 3] : List Record).countP (fun r => r.state == .unsent) := by
  refine ⟨part_ready, by decide, ⟨by decide +kernel, by decide +kernel, fun j h hh => ?_⟩, by decide +kernel⟩
  exact absurd (Nat.le_trans hh (Nat.min_le_left _ _)) (by omega)

theorem test_meets_AcksAndRetries :
    part.ready ∧ (∀ r ∈ part.records, ¬ (r.epoch = 1 ∧ r.sequence = 2 ∧ r.state = .sent)) ∧
      (let s := withRecords [record 1 .unsent 3, record 2 .sent 1, record 3 .sent 0] part
       s.records = [record 1 .unsent 3] ++ record 2 .sent 1 :: [record 3 .sent 0] ∧ (record 2 .sent 1).state = .sent ∧
        (∀ x ∈ [record 1 .unsent 3] ++ [record 3 .sent 0], ¬ (x.epoch = 1 ∧ x.sequence = 2 ∧ x.state = .sent)) ∧
        s.firstPlace = none) ∧ (record 2 .sent 1).retries = 1 ∧ (record 3 .sent 0).retries ≠ 1 :=
  ⟨part_ready, by decide +kernel⟩

/-- A full journal with a SENT record, and a close, and a CLOCK_STEP, that waits for a slot. -/
theorem test_meets_AcksAndRetries_served :
    let full := withRecords (record 500 .sent 3 :: fullJournal.drop 1) part
    let s := withEntries [{ close := close, waiver := none, stage := .waiting .deadline none .noPass }] full
    let u := { full with sixth := [.clockStep 1 400] }
    (s.ready ∧ u.ready ∧ s.postsIn .settle ∧ u.postsIn .sixth) ∧ s.records = [] ++ record 500 .sent 3 :: fullJournal.drop 1 ∧
      (s.firstPlace = some .settle ∧ u.firstPlace = some .sixth ∧ s.records.length + s.setAside = 256 ∧ s.replySlot = 0) :=
  ⟨⟨⟨rfl, rfl, rfl⟩, ⟨rfl, rfl, rfl⟩, nofun, nofun⟩, by decide +kernel⟩

theorem test_meets_ReofferResult : part.ready ∧ (withRecords [record 1 .parked 0] part).ready := ⟨part_ready, rfl, rfl, rfl⟩
theorem test_meets_LinkStateResult : part.ready ∧ spent.ready := ⟨part_ready, rfl, rfl, rfl⟩

theorem test_meets_DirectiveIsQueued :
    let queued := { part with directives := (List.range 8).map (fun n => { directive 9 [] with id := n }) }
    part.ready ∧ (∃ x ∈ queued.directives, x.id = 7) ∧ (∀ x ∈ queued.directives, x.id ≠ 8) ∧ 8 ≤ queued.directives.length ∧
      (withRecords fullJournal part).directives.length < 8 ∧ (withRecords fullJournal part).free = 0 ∧
      (part.directives = [] ∧ 0 < part.free ∧ part.firstPlace = none ∧ part.replySlot = 0 ∧ part.denied.length < 1024) ∧
      (argument [0, 0, 0, 9] 0 4 1 99999999 = some 9 ∧ 9 ∉ part.denied ∧
        (({ part with directives := [directive 4 [0, 0, 0, 9]] } : State).executeHead).firstPlace = none) :=
  ⟨part_ready, by decide +kernel⟩

theorem test_meets_PowerAndStore :
    dark.power = .off ∧ part.power ≠ .off ∧
      (let damaged : Region Nat := { cur := 2, old := 1, curSound := false, oldSound := false }
       damaged.curSound = false ∧ damaged.oldSound = false ∧ ({ damaged with curSound := true } : Region Nat).curSound = true ∧
        ({ damaged with oldSound := true } : Region Nat).oldSound = true) ∧
      ({ part.store.journal with curSound := false } : Region JournalRegion).isDamaged = true ∧
      part.store.hires.isDamaged = false ∧ part.store.settle.isDamaged = false ∧ part.store.journal.isDamaged = false ∧
      part.store.epoch.isDamaged = false ∧ part.store.passes.isDamaged = false := by decide +kernel

theorem test_meets_StartUpAndCensus :
    due.power = .startDue .powerOn ∧ part.power = .running ∧ part.censusLimit = none ∧
      (let s := { part with censusLimit := some 1000 }
       s.censusLimit = some 1000 ∧ 1000 ≤ s.elapsed ∧ 999 < 1000 ∧ 0 < s.free ∧ s.sixth = [] ∧
        (∀ d ∈ dockNumbers, (s.dock d).configured = true → (s.dock d).state ≠ .offline) ∧
        ∃ d ∈ dockNumbers, ((withDock 16 (.atStart true) s).dock d).configured = true ∧
          ((withDock 16 (.atStart true) s).dock d).state = .offline) := by decide +kernel

/-- A start-up with a HELD entry, without a configured dock, and with 16. -/
theorem test_meets_StartUpAndCensus_held :
    let s := withEntries [heldEntry] due
    let t := after (.startUp []) s
    let u := after (.startUp []) (withSettings (fun x => { x with countA := 16 }) s)
    s.power = .startDue .powerOn ∧ (s.store.settle.check { entries := [], lost := 0 }).1.cur.entries = [heldEntry] ∧
      heldEntry.isHeld = true ∧ (∀ d ∈ dockNumbers, (t.dock d).configured = false) ∧ (u.dock 16).configured = true ∧
      t.records.map (fun r => bodyKind r.body) = [.hireClose, .start, .dockCensus] ∧ u.censusLimit = some 5000 := by decide +kernel

/-- A start-up over a SENT record, a WAITING close, passes in each state and the HELD close of one of them; and over a damaged
hire table, a damaged settle list and a store cleared. -/
theorem test_meets_StartUpAndCensus_kept :
    let closing := { dayPass with state := .closing, current := some ref }
    let passClose : SettleEntry := { heldEntry with close := { close with hirer := .pass 3 907, ref := ref } }
    let waiting : SettleEntry := { close := close, waiver := none, stage := .waiting .deadline none .noPass }
    let s := withEntries [waiting, passClose] (withHires [passHire] (withRecords [record 1 .sent 3]
      (withPass 5 { dayPass with state := .onRide } (withPass 4 { dayPass with state := .settling } (withPass 2 { dayPass with state := .idle }
        (withPass 3 closing due))))))
    let kept := (s.store.settle.check { entries := [], lost := 0 }).1.cur
    let passes := (s.store.passes.check { slots := List.replicate 32 none, serial := 1 }).1.cur
    let journal := (s.store.journal.check { records := [], next := 1 }).1.cur
    s.power = .startDue .powerOn ∧
      (journal.next = 300 ∧ journal.records.length < 256 ∧ journal.records.map (fun r => r.state) = [.sent] ∧
        kept.entries = [] ++ waiting :: [passClose] ∧ waiting.stage = .waiting .deadline none .noPass) ∧
      (entryAt passes.slots 1 = some none ∧ entryAt passes.slots 2 = some (some { dayPass with state := .idle }) ∧
        entryAt passes.slots 4 = some (some { dayPass with state := .settling }) ∧
        entryAt passes.slots 5 = some (some { dayPass with state := .onRide }) ∧ [1, 2, 3, 4, 5].all slotNumbers.contains = true) ∧
      (entryAt passes.slots 3 = some (some closing) ∧ passClose ∈ kept.entries ∧ kept.entries.length ≤ 64 ∧ passClose.isHeld = true ∧
        passClose.close.hirer = .pass 3 closing.serial ∧ closing.state = .closing ∧ closing.current = some passClose.close.ref ∧
        (∀ x ∈ kept.entries, x.isHeld = true → x.close.ref = passClose.close.ref → x = passClose) ∧ closing.kind = .day ∧
        ({ closing with kind := .single } : Pass).kind = .single) ∧
      (let failing : List (RegionName × CopyRole) :=
        [(.openHires, .newer), (.settle, .newer), (.journal, .newer), (.passes, .newer), (.journal, .older)]
       let spoiled := failing.foldl Store.spoil s.store
       spoiled.hires.isDamaged = true ∧ spoiled.settle.isDamaged = true ∧ spoiled.journal.isDamaged = true ∧
        spoiled.passes.isDamaged = true ∧ s.store.hires.isDamaged = false) := by decide +kernel

/-- A start-up in which no pass changes state, and one in which a SETTLING pass is settled. -/
def slotStates (s : State) : List (Option PassState) := slotNumbers.map (fun slot => (s.pass slot).map (fun p => p.state))
theorem test_meets_StartUpAndCensus_marks :
    slotStates (after (.startUp []) (withPass 2 { dayPass with state := .idle } due)) =
        slotStates (withPass 2 { dayPass with state := .idle } due) ∧
      slotStates (after (.startUp []) (withPass 2 { dayPass with state := .settling } due)) = List.replicate 32 none := by
  decide +kernel

/-- A waiting record in each place of the room arbiter, with nothing in the places before it. -/
theorem test_meets_RoomArbiterServes :
    let waiting : SettleEntry := { close := close, waiver := none, stage := .waiting .deadline none .noPass }
    let settling := withPass 3 { dayPass with state := .settling } part
    (part.power = .running ∧ (withRecords fullJournal part).free = 0 ∧ 0 < part.free) ∧
      (withEntries [waiting] part).entries = [] ++ waiting :: [] ∧
      (settling.noClose ∧ settling.pass 3 = some { dayPass with state := .settling } ∧
        ∀ other ∈ slotNumbers, other < 3 → ∀ q, settling.pass other = some q → q.state ≠ .settling) ∧
      (part.noClose ∧ part.noSettling ∧ part.van.moves = [] ∧ part.van.summary = none ∧ part.faults = [] ∧ part.directives = []) ∧
      ({ part with sixth := [.clockStep 1 400] } : State).sixth = .clockStep 1 400 :: [] := by
  unfold State.noClose State.noSettling
  decide +kernel

/-- FAULT records at an empty and at a full list, which holds one of effect NOTED and none; and moves counted with none waiting, with
one, and with 64. -/
theorem test_meets_RoomArbiterServes_lists :
    let major : FaultRecord := { faultNoted with effect := .lockedOut }
    let mixed := { part with faults := List.replicate 20 major ++ faultNoted :: List.replicate 11 major }
    let majors := { part with faults := List.replicate 32 major }
    let waiting := fun (n : Nat) => ({ touring with van := { session with moves := List.replicate n move } } : State)
    (0 < part.free ∧ part.faults = [] ∧ faultNoted.effect = .noted ∧ (withRecords fullJournal part).free = 0) ∧
      (mixed.faults.length = 32 ∧ mixed.faults ≠ [] ∧ mixed.faults = List.replicate 20 major ++ faultNoted :: List.replicate 11 major ∧
        ∀ y ∈ List.replicate 20 major, ¬ (y.effect = .noted ∨ y.effect = .suspect)) ∧
      (majors.faults = major :: List.replicate 31 major ∧ ∀ y ∈ majors.faults, ¬ (y.effect = .noted ∨ y.effect = .suspect)) ∧
      (entryAt touring.van.manifest 1 = some { kind := .collect .any, asked := 1, target := 1, done := 0, short := 0 } ∧
        touring.van.moves = [] ∧ 0 < touring.free ∧ (waiting 1).van.moves.length < 64 ∧ 64 ≤ (waiting 64).van.moves.length) := by
  decide +kernel

/-- A directive of each kind as the room arbiter's next. -/
theorem part_headDue (kind : Nat) (args : List Byte) : (withDirective kind args part).headDue (directive kind args) [] := by
  have h : part.noClose ∧ part.noSettling := by
    unfold State.noClose State.noSettling
    decide +kernel
  exact ⟨rfl, (by decide +kernel : 0 < part.free), h.1, h.2, rfl, rfl, rfl, rfl⟩

theorem test_meets_DenyDirectives :
    (withDirective 4 [5, 0xF5, 0xE0, 0xFF] part).headDue (directive 4 [5, 0xF5, 0xE0, 0xFF]) [] ∧
      argument [5, 0xF5, 0xE0, 0xFF] 0 4 1 99999999 = some 99999999 ∧ argument [0, 0, 0, 0] 0 4 1 99999999 = none ∧
      9 ∈ (withDenied [3, 9, 12] part).denied ∧ (withDenied [3, 9, 12] part).denied = [3] ++ 9 :: [12] ∧ 9 ∉ part.denied ∧
      1024 ≤ (List.range 1024).length ∧ part.denied.length < 1024 ∧ ([3, 12] : List Nat).Pairwise (· < ·) ∧ 9 ∉ [3, 12] :=
  ⟨part_headDue _ _, by decide +kernel⟩

theorem test_meets_BikeAndDockDirectives :
    (withDirective 1 [0, 0, 0, 101, 1, 4] part).headDue (directive 1 [0, 0, 0, 101, 1, 4]) [] ∧
      (argument [0, 0, 0, 101, 1, 4] 0 4 1 16777215 = some 101 ∧ argument [0, 0, 0, 101, 1, 4] 4 1 1 4 = some 1 ∧
        argument [0, 0, 0, 101, 1, 4] 5 1 1 4 = some 4) ∧
      part.dockOfBike 102 = none ∧ part.dockOfBike 101 = some 1 ∧ (part.dock 1).bike = some bike ∧ bike.condition = .available ∧
      (part.dock 1).state.transient = false ∧ 1 < (withDirective 1 [0, 0, 0, 101, 1, 4] part).free ∧ part.replySlot = 0 ∧
      argument [65] 0 1 1 64 = none ∧ argument [64] 0 1 1 64 = some 64 ∧ (dock7 .relocking 2).state.transient = true ∧
      (dock7 .lockedOut 3).bike = some bike ∧ (dock7 .lockedOut 3).lock = .locked ∧
      (argument [0, 0, 0, 101, 1, 2] 5 1 1 4 = some 2 ∧ bike.faults = [] ∧ (∀ x ∈ bike.tallies, x = []) ∧
        ({ bike with faults := [.brake] } : Bike).faults ≠ []) := ⟨part_headDue _ _, by decide +kernel⟩

theorem test_meets_RemoteReleaseDirective :
    (withDirective 3 [1, 0, 0, 0, 9, 0] part).headDue (directive 3 [1, 0, 0, 0, 9, 0]) [] ∧
      (argument [1, 0, 0, 0, 9, 0] 0 1 1 64 = some 1 ∧ argument [1, 0, 0, 0, 9, 0] 1 4 1 99999999 = some 9 ∧
        argument [1, 0, 0, 0, 9, 0] 5 1 0 14 = some 0) ∧
      (part.now = some 1000000 ∧ (part.dock 64).configured = false ∧ (part.dock 2).bike = none ∧ (part.dock 1).state = .occupied ∧
        (part.dock 1).reservation = .unreserved ∧ (part.dock 1).bike = some bike ∧ bike.settling = false) ∧
      9 ∈ (withDenied [9] part).denied ∧ 9 ∉ part.denied ∧ part.plans[0]?.map (fun p => (p.admitted, p.hireLimit)) = some (true, 1) ∧
      part.plans[14]?.map (fun p => p.admitted) = some false ∧ part.memberHires 9 = 0 ∧
      (withHires [memberHire] part).memberHires 7700112 = 1 ∧
      96 ≤ (withHires (List.replicate 96 passHire) part).hires.length ∧ part.replySlot = 0 ∧ part.settings.openReserve < part.free ∧
      (withRecords (fullJournal.take 208) part).free ≤ part.settings.openReserve ∧
      (1 ≤ part.store.hireCount.cur ∧ part.store.hireCount.cur ≤ 16777215 ∧ part.hires.length + part.releases.length ≤ 160) :=
  ⟨part_headDue _ _, by decide +kernel⟩

/-- Argument fields of HIRE_CLOSED and PASS_CHARGE for reference 7/90,015, slot 3, serial 907 and 500 cents. -/
def rideArgs : List Byte := [0, 7, 0, 1, 0x5F, 0x9F]
def chargeArgs : List Byte := [3, 3, 0x8B] ++ rideArgs ++ [1, 0xF4]
theorem test_meets_RideDirectives :
    ((withDirective 6 rideArgs part).headDue (directive 6 rideArgs) [] ∧
      (withDirective 7 chargeArgs part).headDue (directive 7 chargeArgs) [] ∧
      ∀ slot serial, memberHire.hirer ≠ .pass slot serial) ∧
    (argument rideArgs 0 2 1 4095 = some 7 ∧ argument rideArgs 2 4 1 16777215 = some 90015) ∧
    (argument chargeArgs 0 1 1 32 = some 3 ∧ argument chargeArgs 1 2 1 65535 = some 907 ∧ argument chargeArgs 3 2 1 4095 = some 7 ∧
      argument chargeArgs 5 4 1 16777215 = some 90015 ∧ argument chargeArgs 9 2 0 65535 = some 500) ∧
    (withHires [memberHire] part).hires = [] ++ memberHire :: [] ∧ memberHire.ref = ref ∧ passHire.hirer = .pass 3 907 ∧
    (let riding := { dayPass with state := .onRide, current := some ref }
     (withPass 3 riding part).pass 3 = some riding ∧ riding.kind = .day ∧ 1000000 < riding.expiry) ∧
    (∀ p, part.pass 3 = some p → ¬ (p.serial = 907 ∧ p.state = .onRide ∧ p.current = some ref)) ∧
    (({ dayPass with kind := .single } : Pass).kind = .single ∧ ({ dayPass with expiry := 1000000 } : Pass).expiry ≤ 1000000 ∧
      1 < (withDirective 6 rideArgs part).free ∧ part.replySlot = 0) :=
  ⟨⟨part_headDue _ _, part_headDue _ _, nofun⟩, by decide +kernel⟩

theorem test_meets_ReportsAndRanges :
    ((withDirective 8 [] part).headDue (directive 8 []) [] ∧ (withDirective 9 [] part).headDue (directive 9 []) []) ∧
      (1 < (withDirective 9 [] part).free ∧ part.sixth = [] ∧ part.replySlot = 0) ∧ (9 < (directive 10 []).kind) ∧
      (argument [0, 0, 0, 0, 1, 1] 0 4 1 16777215 = none ∧ argument [0, 0, 0, 1, 5, 1] 4 1 1 4 = none ∧
        argument [0, 0, 0, 1, 4, 5] 5 1 1 4 = none) ∧
      (argument [65] 0 1 1 64 = none ∧ argument [1, 5, 0xF5, 0xE1, 0] 1 4 1 99999999 = none ∧
        argument [1, 0, 0, 0, 1, 15] 5 1 0 14 = none) ∧
      (argument [0x10, 0] 0 2 1 4095 = none ∧ argument [0, 1, 0, 0, 0, 0] 2 4 1 16777215 = none) ∧
      argument [33] 0 1 1 32 = none ∧ argument [1, 0, 0] 1 2 1 65535 = none := ⟨⟨part_headDue _ _, part_headDue _ _⟩, by decide +kernel⟩

/-- A directive as the room arbiter's next with one slot free, and with records waiting in the sixth place. -/
theorem one_free_headDue (kind : Nat) (args : List Byte) (sixth : List SixthRecord) :
    let s := { withDirective kind args (withRecords (fullJournal.take 255) part) with sixth := sixth }
    s.headDue (directive kind args) [] ∧ s.free = 1 ∧ s.replySlot = 0 := by
  have h : part.noClose ∧ part.noSettling := by
    unfold State.noClose State.noSettling
    decide +kernel
  exact ⟨⟨rfl, (by decide +kernel : 0 < (withRecords (fullJournal.take 255) part).free), h.1, h.2, rfl, rfl, rfl, rfl⟩,
    (by decide +kernel : (withRecords (fullJournal.take 255) part).free = 1), rfl⟩

/-- A CENSUS with one slot free, the sixth place clear and with the record of an earlier one; a PASS_CHARGE and a HIRE_CLOSED with
one slot free, and with the clock UNSET. -/
theorem test_meets_ReportsAndRanges_waiting :
    let earlier : SixthRecord := .dockCensus { reason := .directive 5, stock := 1, available := 1, items := [] }
    ({ withDirective 9 [] (withRecords (fullJournal.take 255) part) with sixth := [earlier] } : State).headDue (directive 9 []) [] ∧
      [earlier] ≠ [] :=
  ⟨(one_free_headDue 9 [] _).1, by decide⟩

theorem test_meets_RideDirectives_one_free :
    ({ withDirective 7 chargeArgs (withRecords (fullJournal.take 255) part) with sixth := [] } : State).headDue
        (directive 7 chargeArgs) [] ∧
      (∀ t, ({ part with clock := .unset } : State).now = some t → t < dayPass.expiry) :=
  ⟨(one_free_headDue 7 chargeArgs _).1, nofun⟩

/-- A string with a poll in progress at the address 16, its window at 1000. -/
def polling : State :=
  part.putLine 1 { part.line 1 with
    poll := some { address := 16, censusMark := false, lastEvent := none, command := none, windowAt := 1000 } }

/-- A reply that fails its check leaves the poll; the valid one after it, within the window, is taken (R2, R3). -/
theorem test_stray_reply_leaves_the_poll :
    let r : NodeReply := { checkOk := false, address := 16, taken := none, outcome := .done, power := .normal, event := some (255, .removed) }
    let t := after (.pollReply .a r) polling
    ((t.line 1).poll = (polling.line 1).poll ∧ (t.node 16).lastEvent = (polling.node 16).lastEvent) ∧
      ((after (.pollReply .a { r with checkOk := true }) t).node 16).lastEvent = some 255 := by decide +kernel

/-- A LOCK_FAIL that ends a LOCK sets the retry 3 s ahead, and one outside a lock command leaves it (R29, R35). -/
theorem test_lock_fail_and_the_retry :
    let s := withDock 16 { fullDock with state := .relocking, relockAt := some 1500 } part
    let u := s.putNode 16 (busyNode .lock 9 true [])
    ((s.deliver 16 (.lockFail .jam)).dock 16).relockAt = some 1500 ∧
      ((u.deliver 16 (.lockFail .jam)).dock 16).relockAt = some (u.elapsed + 3000) := by decide +kernel

theorem test_meets_PollAndMissedPoll :
    part.power = .running ∧ (part.line 4).count = 0 ∧ (polling.line 1).poll ≠ none ∧ (0 < (part.line 1).count ∧ (part.line 1).poll = none) ∧
      (part.node 17).phase ≠ .answering ∧ (∀ c, (part.node 1).current = some c → c.acknowledged = true) ∧
      (let n := busyNode .lock 1 false []; n.phase = .answering ∧ n.current.map (fun c => c.acknowledged) = some false) ∧
      (polling.line 1).poll.map (fun p => p.windowAt) = some polling.elapsed ∧
      (polling.line 1).poll.all (fun p => ({ polling with elapsed := 999 } : State).elapsed < p.windowAt) = true := by decide +kernel

/-- A CENSUS of a node not ANSWERING, its power NORMAL or LOW already; an OFFLINE dock that records no bike, its own bike, and a counter at
the limit; a bike held elsewhere, and one nowhere. -/
theorem test_meets_PollAndMissedPoll_census :
    let s := withDock 16 (.atStart true) (polling.putNode 16 (.atStart 0))
    let r : NodeReply :=
      { checkOk := true, address := 16, taken := none, outcome := .done, power := .normal, event := some (1, .census .locked true none .restart) }
    let own := withDock 16 { Dock.atStart true with bike := some { bike with id := 116 } } s
    (s.power = .running ∧ (s.line 1).poll.map (fun p => (p.address, p.windowAt)) = some (16, 1000) ∧ r.checkOk = true ∧ r.address = 16 ∧
        s.elapsed ≤ 1000 ∧ dockAt 1 16 = 16 ∧ (s.node 16).phase ≠ .answering ∧ r.power = .normal) ∧
      (s.docks.length = 64 ∧ (s.dock 16).state = .offline ∧ (s.dock 16).release = none ∧ (s.dock 16).reservation = .unreserved ∧
        (s.dock 16).bike = none ∧ (own.dock 16).bike = some { bike with id := 116 } ∧ (own.dock 16).state = .offline) ∧
      (s.bikeElsewhere 16 101 = true ∧ s.bikeElsewhere 16 102 = false ∧ own.bikeElsewhere 16 102 = false ∧ s.heldAt 102 = none ∧
        (own.vacated 16 .census).entries.length < 64 ∧ 0 < s.settings.settleWindow) ∧
      (let x := { Dock.atStart true with counter := 3 }; 0 < s.settings.dockFaultLimit ∧ s.settings.dockFaultLimit ≤ x.counter) := by
  decide +kernel

theorem test_meets_PollReplyResult :
    let r : NodeReply := { checkOk := true, address := 16, taken := none, outcome := .working, power := .normal, event := none }
    (part.power = .running ∧ (part.line 1).poll = none ∧ (polling.line 1).poll.map (fun p => (p.address, p.windowAt)) = some (16, 1000) ∧
      polling.elapsed ≤ 1000) ∧ ({ r with checkOk := false } : NodeReply).checkOk = false ∧ ({ r with address := 15 } : NodeReply).address ≠ 16 ∧
      ({ polling with elapsed := 1001 } : State).elapsed > 1000 ∧
      (∀ number lock there image cause, r.event ≠ some (number, .census lock there image cause)) ∧
      (dockAt 1 16 = 16 ∧ (polling.node 16).phase = .answering ∧ r.power = (polling.node 16).power ∧ (polling.node 16).current = none) ∧
      ({ r with event := some (255, .removed) } : NodeReply).event = some (255, .removed) ∧ (polling.node 16).lastEvent ≠ some 255 ∧
      ({ heardNode with lastEvent := some 255 } : Node).lastEvent = some 255 :=
  ⟨by decide +kernel, by decide, by decide, by decide +kernel, nofun, by decide +kernel⟩

/-- A current command acknowledged and not, one at its eighth reply without it, a TAG_WRITE of the release of its dock; and a
node of an OFFLINE dock that gives its census. -/
theorem test_meets_PollReplyResult_reports :
    let s := withDock 16 { fullDock with state := .tagWriting, release := some memberRelease }
      (polling.putNode 16 (busyNode (.tagWrite trip) 9 false []))
    let c : CurrentCommand := ⟨.tagWrite trip, 9, true, some 900, false, 0⟩
    let u := withDock 16 (.atStart true) (polling.putNode 16 (.atStart 0))
    (s.power = .running ∧ (s.node 16).phase = .answering ∧ (s.node 16).power = .normal ∧ (s.node 16).current = some c ∧
      (s.dock 16).state = .tagWriting ∧ (s.dock 16).release = some memberRelease ∧
      memberRelease.party = .hire (.member 7700112) (some 1) ref trip) ∧
      ({ c with unanswered := 6 } : CurrentCommand).unanswered + 1 < 8 ∧ 8 ≤ ({ c with unanswered := 7 } : CurrentCommand).unanswered + 1 ∧
      ((u.node 16).phase ≠ .answering ∧ (u.dock 16).state = .offline ∧ (u.dock 16).configured = true ∧ (u.dock 16).bike = none ∧
        (u.dock 16).counter < u.settings.dockFaultLimit ∧ u.censusReported = true ∧ u.docks.length = 64) ∧
      ((withDock 16 { Dock.atStart true with bike := some bike } u).dock 16).bike = some bike ∧
      tagImage (tagBytes (.idle 101)) = some (.idle bike.id) := by decide +kernel

/-- A node whose power falls and is back; a TAG_CLEAR of a return at its end; and the last census due, with the census phase over, and
with it running, where no dock is left OFFLINE and where dock 15 is. -/
theorem test_meets_PollReplyResult_phase :
    let low := polling.putNode 16 { polling.node 16 with power := .low }
    let c := polling.putNode 16 (busyNode (.tagClear .atReturn) 9 false [])
    let u := { withDock 16 (.atStart true) (polling.putNode 16 (.atStart 0)) with censusReported := false }
    let runs := { u with censusLimit := some 5000 }
    let goesOn := fun (s : State) => s.censusReported = true ∨
      ∃ other ∈ dockNumbers, other ≠ 16 ∧ (s.dock other).configured = true ∧ (s.node other).censused = false
    ((polling.node 16).power = .normal ∧ (low.node 16).power = .low ∧ (low.node 16).current = none ∧ 0 < polling.free ∧
        polling.faults = []) ∧
      ((c.node 16).current.map (fun x => (x.command, x.number)) = some (.tagClear .atReturn, 9) ∧ (c.node 16).phase = .answering) ∧
      (¬ goesOn u ∧ u.censusLimit = none ∧ ¬ goesOn runs ∧ runs.censusLimit ≠ none ∧ 0 < runs.free ∧ runs.sixth = [] ∧
        goesOn (u.putNode 3 (.atStart 0)) ∧ (u.node 16).phase ≠ .answering ∧ (u.dock 16).state = .offline) ∧
      ((∀ e ∈ dockNumbers, e ≠ 16 → (runs.dock e).configured = true → (runs.dock e).state ≠ .offline) ∧
        ((withDock 15 (.atStart true) runs).dock 15).configured = true ∧
        ((withDock 15 (.atStart true) runs).dock 15).state = .offline ∧ ¬ goesOn (withDock 15 (.atStart true) runs)) := by decide +kernel

/-- Deliveries: an acknowledged LOCK and UNLOCK current, and none; a LOCK_FAIL outside, in RELOCKING with and without a retry,
and in UNLOCKING; a tap unreadable first and for the third time, and a readable one; six digits and others; FAULT_KEY of a kind
outside 1 to 8, without a bike, at a bike not settling, and at a settling one whose close is held, waived or not. -/
theorem test_meets_PollReplyResult_deliver :
    let busy := fun (c : Command) => part.putNode 1 (busyNode c 9 true [])
    let release := withDock 1 { fullDock with state := .unlocking, release := some memberRelease } { part with setAside := 1 }
    let held := fun (e : SettleEntry) => withEntries [e] (withDock 1 { fullDock with bike := some settlingBike } part)
    let waived := { heldEntry with waiver := some { source := .dock, kind := .brake, time := none } }
    (((busy .lock).node 1).current.any (fun c => c.acknowledged && c.command == .lock) = true ∧
      ((busy .unlock).node 1).current.any (fun c => c.acknowledged && c.command == .unlock) = true ∧ (part.node 1).current = none) ∧
      ((part.dock 1).state ≠ .unlocking ∧ (part.dock 1).state ≠ .relocking) ∧
      ((dock7 .relocking 1).state = .relocking ∧ min 7 ((dock7 .relocking 1).counter + 1) < part.settings.dockFaultLimit ∧
        (dock7 .relocking 1).relockAt = none ∧ ({ dock7 .relocking 1 with relockAt := some 1500 } : Dock).relockAt ≠ none) ∧
      ((release.dock 1).state = .unlocking ∧ (release.dock 1).release = some memberRelease ∧ memberRelease.origin = .occupied ∧
        memberRelease.party = .hire (.member 7700112) (some 1) ref trip ∧ (release.dock 1).lockoutPending = false ∧
        min 7 ((release.dock 1).counter + 1) < release.settings.dockFaultLimit ∧ release.firstPlace = none ∧ 0 < release.free) ∧
      (cardImage [0#8] = none ∧ (entryAt part.readerRuns 1).getD 0 < 2 ∧
        2 ≤ (entryAt ({ part with readerRuns := setEntry part.readerRuns 1 2 } : State).readerRuns 1).getD 0 ∧ 0 < part.free ∧
        part.faults = []) ∧
      (let card : CardImage := { member := 9, plan := 0, expiryDay := 11, issue := 1 }
       cardImage (cardBytes card) = some card) ∧
      ((∀ n ∈ [0, 5, 8, 3, 0, 9], n ≤ 9) ∧ [1, 2, 3, 4, 5].length ≠ 6 ∧ ∃ n ∈ [0, 5, 8, 3, 0, 10], 9 < n) ∧
      (8 < 9 ∧ bikeFaultOf 1 = some .brake ∧ (part.dock 1).bike = some bike ∧ part.heldAt bike.id = none ∧ (part.dock 2).bike = none) ∧
      (((held heldEntry).dock 1).bike = some settlingBike ∧ settlingBike.settling = true ∧
        (held heldEntry).entries = [] ++ heldEntry :: [] ∧ heldEntry.stage = .held settlingBike.id 1 1000 ∧ heldEntry.waiver = none ∧
        (held waived).entries = [] ++ waived :: [] ∧ waived.stage = .held settlingBike.id 1 1000 ∧ waived.waiver ≠ none) := by
  decide +kernel

theorem test_meets_PollReplyResult_hirer : (∀ slot serial, Hirer.member 7700112 ≠ .pass slot serial) := nofun

theorem test_meets_SilenceResult :
    (part.power = .running ∧ (part.dock 64).configured = false ∧ part.elapsed < (part.node 1).silenceAt) ∧
      ((silent.dock 1).configured = true ∧ (silent.node 1).silenceAt ≤ silent.elapsed ∧ (silent.node 1).phase ≠ .silent ∧
        (silent.dock 1).release = none ∧ (silent.dock 1).reservation = .unreserved ∧ silent.censusLimit = none ∧ 0 < silent.free ∧
        silent.faults = []) ∧ ({ silent with censusLimit := some 5000 } : State).censusLimit ≠ none ∧
      ({ heardNode with phase := .silent } : Node).phase = .silent := by decide +kernel

/-- Docks that fall silent: with a member's release, with a pass's release before its expiry, at it, and with the expiry held
back; with a DELIVER or COLLECT reservation in an open session; and with a VAN release in ACTIVE, and in CLOSING with another
one and as the last. -/
theorem test_meets_SilenceResult_releases :
    let falls := fun (x : Dock) (s : State) => withDock 1 x (s.putNode 1 { heardNode with silenceAt := 1000 })
    let inRelease := fun (r : Release) => { fullDock with state := .unlocking, release := some r }
    let ending : VanEnding := { endedBy := .vanClose, outcome := .closedEarly, time := none }
    let closing := { touring with van := { session with phase := .closing, ending := some ending } }
    let van := { inRelease vanRelease with reservation := .collect 1 }
    let m := falls (inRelease memberRelease) { part with setAside := 1 }
    let p := fun (expiry : Nat) => withPass 3 { dayPass with expiry := expiry } (falls (inRelease passRelease) { part with setAside := 1 })
    let last := falls van closing
    let fell := fun (s : State) => (s.putNode 1
      { s.node 1 with phase := .silent, silenceAt := s.elapsed + 2000, lastEvent := none, current := none, waiting := [] }).putDock 1
      { s.dock 1 with
        state := .offline, release := none, windowAt := none, relockAt := none, lockoutPending := false, shown := none }
    let room := fun (s : State) => 0 < s.free ∧ s.faults = []
    (m.power = .running ∧ (m.dock 1).configured = true ∧ (m.node 1).silenceAt ≤ m.elapsed ∧ (m.node 1).phase ≠ .silent ∧
      (m.dock 1).release = some memberRelease ∧ memberRelease.party = .hire (.member 7700112) (some 1) ref trip ∧
      (m.dock 1).reservation = .unreserved ∧ m.censusLimit = none ∧ room (fell m) ∧ m.firstPlace = none) ∧
      (((p 1085400).dock 1).release = some passRelease ∧ (p 1085400).pass 3 = some { dayPass with expiry := 1085400 } ∧
        dayPass.serial = 907 ∧ passRelease.expiryHeld = false ∧ (p 1085400).now = some 1000000 ∧ 1000000 < 1085400 ∧
        passRelease.party = .hire (.pass 3 907) none ref { trip with hirer := .pass 3 907 } ∧ (p 1085400).firstPlace = none) ∧
      ((p 1000000).now = some 1000000 ∧ 3 ∈ slotNumbers ∧ dayPass.state = .issued ∧ 1 < (p 1000000).free ∧
        (p 1000000).firstPlace = none ∧ (p 1000000).docks.length = 64 ∧
        (∀ other ∈ dockNumbers, other ≠ 1 → ((p 1000000).dock other).release = none) ∧
        ({ passRelease with expiryHeld := true } : Release).expiryHeld = true) ∧
      (let r := falls { emptyDock with reservation := .deliver 1 } touring
       (r.dock 1).release = none ∧ r.van.phase = .active ∧ (r.dock 1).reservation = .deliver 1 ∧
        room ((fell r).loseReservation 1)) ∧
      (let a := falls van touring
       (a.dock 1).release = some vanRelease ∧ vanRelease.party = .van 12 1 ∧ a.van.phase = .active ∧ room ((fell a).loseReservation 1)) ∧
      (let other := withDock 3 van last
       other.van.phase = .closing ∧ other.vanReleases = [1, 3] ∧ other.docks.length = 64 ∧
        room (((fell other).putDock 1 { (fell other).dock 1 with reservation := .unreserved }).raise .dockState)) ∧
      (last.van.phase = .closing ∧ last.vanReleases = [1] ∧ last.van.ending = some ending ∧ last.van.summary = none ∧
        last.van.moves = [] ∧ 1 < last.free ∧ last.faults = []) := by decide +kernel

/-- A reservation lost: none held; one for DELIVER with an EMPTY dock free and with none; one for COLLECT with a candidate and
with none; a session that goes on, and one whose entries are then met. A candidate, and none. -/
theorem test_meets_SilenceResult_lost :
    let deliver : ManifestEntry := { kind := .deliver, asked := 1, target := 1, done := 0, short := 0 }
    let collect : ManifestEntry := { deliver with kind := .collect .any }
    let tour := fun (m : List ManifestEntry) (s : State) => { s with van := { session with manifest := m } }
    let reserved := fun (r : Reservation) (s : State) => withDock 1 { fullDock with state := .offline, reservation := r } s
    let dropped := fun (s : State) => ((s.putDock 1 { s.dock 1 with reservation := .unreserved }).raise .dockState).raise .vanState
    let d := reserved (.deliver 1) (tour [deliver] part)
    let none' := reserved (.deliver 1) (tour [deliver, collect] noEmpty)
    let c := reserved (.collect 1) (tour [collect] (withDock 2 { fullDock with bike := some { bike with id := 102 } }
      (withSettings (fun x => { x with memberFloor := 0 }) part)))
    let gone := reserved (.collect 1) (tour [collect] part)
    (part.dock 1).reservation = .unreserved ∧
      (1 ∈ dockNumbers ∧ 1 ≤ d.docks.length ∧ d.van.phase = .active ∧ (d.dock 1).reservation = .deliver 1 ∧ (d.dock 1).state ≠ .empty ∧
        entryAt d.van.manifest 1 = some deliver) ∧
      (2 ∈ dockNumbers ∧ (d.dock 2).state = .empty ∧ (d.dock 2).reservation = .unreserved ∧
        ∀ x ∈ dockNumbers, x < 2 → (d.dock x).state ≠ .empty ∨ (d.dock x).reservation ≠ .unreserved) ∧
      ((∀ x ∈ dockNumbers, (none'.dock x).state ≠ .empty ∨ (none'.dock x).reservation ≠ .unreserved) ∧
        (none'.dock 1).reservation = .deliver 1 ∧ entryAt none'.van.manifest 1 = some deliver ∧ collect.done ≠ collect.target ∧
        (let fallen := setEntry [deliver] 1 { deliver with target := 0, short := 1 }; ∀ x ∈ fallen, x.done = x.target)) ∧
      ((c.dock 1).reservation = .collect 1 ∧ entryAt c.van.manifest 1 = some collect ∧ collect.kind = .collect .any ∧
        (dropped c).nextCollect .any 1 = some 2 ∧ ∀ b, (c.dock 2).bike = some b → b.settling = false) ∧
      ((gone.dock 1).reservation = .collect 1 ∧ (dropped gone).nextCollect .any 1 = none) ∧
      (c.nextCollect .any 1 = some 2 ∧ part.nextCollect .any 1 = none ∧
        Selector.groups .recalledFirst = [[.recalled]] ++ [.quarantined] :: [[.available]]) := by decide +kernel

/-- The timeouts of the commands of a member's release: TAG_WRITE in TAG_WRITING and UNLOCK in UNLOCKING; and TAG reported on a
bike with TAG confirmed, without, and with id 0. -/
theorem test_meets_CommandTimeouts_release :
    let s := fun (x : DockState) (c : Command) =>
      withDock 1 { fullDock with state := x, release := some memberRelease } { part.putNode 1 (busyNode c 9 true []) with setAside := 1 }
    (∀ slot serial, Hirer.member 7700112 ≠ .pass slot serial) ∧
      (((s .tagWriting (.tagWrite trip)).node 1).current.map (fun c => (c.command, c.deadline)) = some (.tagWrite trip, some 900) ∧
        ((s .tagWriting (.tagWrite trip)).dock 1).state = .tagWriting ∧ ((s .unlocking .unlock).dock 1).state = .unlocking ∧
        ((s .unlocking .unlock).dock 1).release = some memberRelease ∧ ((s .unlocking .unlock).dock 1).lockoutPending = false ∧
        (s .unlocking .unlock).firstPlace = none ∧ 0 < (s .unlocking .unlock).free ∧
        min 7 (((s .unlocking .unlock).dock 1).counter + 1) < (s .unlocking .unlock).settings.dockFaultLimit) ∧
      (BikeFault.tag ∉ bike.faults ∧ (part.policy .tag).cls = .quarantine ∧ bike.condition = .available ∧
        BikeFault.tag ∈ ({ bike with faults := [.tag] } : Bike).faults ∧ ({ bike with id := 0 } : Bike).id = 0 ∧
        ({ bike with condition := .recalled } : Bike).condition ≠ .available) := ⟨nofun, by decide +kernel⟩

/-- A command of each kind at its deadline of 900; a dock in RELOCKING; and a counter below, at and above the limit. -/
theorem test_meets_CommandTimeouts :
    let s := fun (c : Command) => part.putNode 1 (busyNode c 9 true [])
    (part.power = .running ∧ ∀ c, (part.node 1).current = some c → c.deadline = none ∨ ∃ t, c.deadline = some t ∧ part.elapsed < t) ∧
      ((s .lock).node 1).current.map (fun c => (c.command, c.deadline)) = some (.lock, some 900) ∧ (900 ≤ part.elapsed) ∧
      (part.dock 1).state ≠ .tagWriting ∧ (part.dock 1).state ≠ .unlocking ∧ (part.dock 1).state ≠ .relocking ∧
      (dock7 .relocking 1).state = .relocking ∧ min 7 (1 + 1) < part.settings.dockFaultLimit ∧
      (0 < part.free ∧ part.faults = [] ∧ min 7 ((part.dock 1).counter + 1) < part.settings.dockFaultLimit) ∧
      (part.settings.dockFaultLimit ≤ min 7 ((dock7 .occupied 2).counter + 1) ∧ (dock7 .occupied 2).release = none ∧
        (dock7 .occupied 2).reservation = .unreserved) ∧ (dock7 .lockedOut 7).state = .lockedOut :=
  ⟨⟨rfl, nofun⟩, by decide +kernel⟩

/-- The results of commands: a SHOW of a dock not OFFLINE; a LOCK in RELOCKING below the limit and at it; a release of a member, of a pass
at its expiry, begun from LOCKED_OUT, with a lockout that waits, and of a VAN in a session CLOSING, in TAG_WRITING and UNLOCKING. -/
theorem test_meets_CommandTimeouts_results :
    let at' := fun (x : DockState) (r : Release) => withDock 1 { fullDock with state := x, release := some r } { part with setAside := 1 }
    let counted := fun (s : State) => s.countFault 1 .lockJam .unlockTimeout
    let relock := fun (n : Nat) => withDock 1 (dock7 .relocking n) part
    let served := fun (u : State) => u.firstPlace = none ∧ 0 < u.free
    let pass := withPass 3 { dayPass with expiry := 1000000 } (at' .unlocking passRelease)
    let van := { at' .tagWriting vanRelease with setAside := 0, van := { session with phase := .closing } }
    (1 ≤ part.docks.length ∧ (part.dock 1).state ≠ .offline ∧ (part.dock 1).state ≠ .tagWriting) ∧
      (((relock 0).countFault 1 .lockJam .lockTimeout).dock 1).state = .relocking ∧
      (((relock 2).countFault 1 .lockJam .lockTimeout).dock 1).state = .lockedOut ∧
      (served (at' .tagWriting memberRelease) ∧ served (counted (at' .unlocking memberRelease)) ∧
        served (counted (at' .unlocking { memberRelease with origin := .lockedOut })) ∧ served (counted pass) ∧
        served (counted (withDock 1 { fullDock with state := .unlocking, release := some memberRelease, lockoutPending := true }
          { part with setAside := 1 }))) ∧
      ((counted pass).pass 3 = some { dayPass with expiry := 1000000 } ∧ 3 ∈ slotNumbers ∧ dayPass.state = .issued ∧
        pass.now = some 1000000 ∧
        (let u := counted pass
         (u.putDock 1 { u.dock 1 with state := .relocking, release := none, windowAt := none }).passInFlight 3 907 = false)) ∧
      ((van.dock 1).state = .tagWriting ∧ (van.dock 1).release = some vanRelease ∧ vanRelease.party = .van 12 1) := by
  decide +kernel

/-- Counts in a release begun from LOCKED_OUT, at the limit in one begun from OCCUPIED, and at the limit of a reserved dock. -/
theorem test_meets_CommandTimeouts_counts :
    let release := fun (o : Origin) => { dock7 .unlocking 2 with release := some { memberRelease with origin := o } }
    let reserved := { dock7 .relocking 2 with reservation := .collect 1 }
    let s := withDock 1 reserved touring
    let lost := (((s.putDock 1 { s.dock 1 with counter := 3 }).putDock 1
      { s.dock 1 with
        counter := 3, state := .lockedOut, relockAt := none, lockoutPending := false, shown := some .fault }).issue 1
      (.show .fault)).loseReservation 1
    ((release .lockedOut).release.map (fun r => r.origin) = some .lockedOut ∧ (release .occupied).state ≠ .lockedOut ∧
        (release .occupied).release.map (fun r => r.origin) = some .occupied) ∧
      (0 < s.free ∧ s.faults = [] ∧ 0 < s.settings.dockFaultLimit ∧ s.settings.dockFaultLimit ≤ min 7 ((s.dock 1).counter + 1) ∧
        (s.dock 1).state ≠ .lockedOut ∧ (s.dock 1).release = none ∧ (s.dock 1).reservation ≠ .unreserved ∧ 0 < lost.free ∧
        lost.faults = [] ∧ lost.faultsDropped = s.faultsDropped) := by decide +kernel

theorem test_meets_LockEventsAndArrival :
    (1 ≤ 64 ∧ 64 ≤ part.docks.length) ∧ (dock7 .relocking 1).state = .relocking ∧ (dock7 .unlocking 0).state = .unlocking ∧
      (part.dock 1).state = .occupied ∧ (part.dock 2).state ≠ .relocking ∧ (part.dock 2).state ≠ .releaseOpen ∧
      (part.dock 2).state ≠ .unlocking ∧
      ((part.dock 2).state = .empty ∧ (part.dock 2).reservation = .unreserved ∧ part.van.phase = .idle ∧
        part.bikeElsewhere 2 102 = false ∧ (part.dock 2).lock = .locked) ∧ ({ emptyDock with lock := .unknown } : Dock).lock ≠ .locked := by
  decide +kernel

/-- A release open at its LOCKED event, a dock in a transient state, the dock's own bike present again; an unreadable tag and one
of a bike docked elsewhere; a node's RESTART or DEMAND census that finds no bike, its own and another one. -/
theorem test_meets_LockEventsAndArrival_more :
    let open' := { fullDock with state := .releaseOpen, release := some memberRelease, windowAt := some 31000 }
    ((open'.state = .releaseOpen ∧ open'.release = some memberRelease ∧ memberRelease.origin = .occupied ∧
        memberRelease.party = .hire (.member 7700112) (some 1) ref trip ∧ open'.lockoutPending = false ∧
        (withDock 1 open' { part with setAside := 1 }).firstPlace = none) ∧ (dock7 .relocking 0).state.transient = true ∧
      (dock7 .offline 0).state = .offline ∧ ((part.dock 1).state = .occupied ∧ (part.dock 1).bike = some bike ∧ bike.id = 101)) ∧
      ((part.dock 2).state = .empty ∧ (part.dock 2).reservation = .unreserved ∧ part.bikeElsewhere 2 101 = true ∧ 0 < part.free ∧
        part.faults = []) ∧
      (part.docks.length = 64 ∧ (part.dock 1).configured = true ∧ (part.dock 1).state ≠ .offline ∧ (part.dock 1).release = none ∧
        (part.dock 1).reservation = .unreserved ∧ (part.dock 1).counter < part.settings.dockFaultLimit ∧ part.censusReported = true ∧
        bike.settling = false ∧ tagImage (tagBytes (.idle 101)) = some (.idle bike.id) ∧
        tagImage (tagBytes (.idle 102)) = some (.idle 102) ∧ part.bikeElsewhere 1 102 = false ∧ bike.id ≠ 102) := by decide +kernel

theorem test_meets_LockEventsAndArrival_hirer : (∀ slot serial, Hirer.member 7700112 ≠ .pass slot serial) := nofun

/-- A delivery at the reserved dock, and at a dock without a reservation while dock 3 is reserved: in a session that goes on, and
in one whose last bike it is. -/
theorem test_meets_LockEventsAndArrival_delivery :
    let m := fun (target : Nat) => ({ kind := .deliver, asked := target, target := target, done := 0, short := 0 } : ManifestEntry)
    let tour := fun (target : Nat) (phase : VanPhase) (d : Nat) => withDock d { emptyDock with reservation := .deliver 1 }
      { part with van := { session with manifest := [m target], phase := phase } }
    let met := fun (target : Nat) => ∀ x ∈ setEntry [m target] 1 { m target with done := (m target).done + 1 }, x.done = x.target
    let s := tour 2 .active 3
    let last := tour 1 .active 3
    (s.bikeElsewhere 3 102 = false ∧ s.van.phase = .active ∧ (tour 2 .reserving 3).van.phase = .reserving ∧
      entryAt s.van.manifest 1 = some (m 2) ∧ s.van.moves = [] ∧ 0 < s.free ∧ (s.dock 3).state = .empty ∧
      (s.dock 3).reservation = .deliver 1) ∧ ¬ met 2 ∧
      (last.van.phase = .active ∧ met 1 ∧ last.vanReleases = [] ∧ last.van.summary = none ∧ 1 < last.free ∧
        (last.dock 3).reservation = .deliver 1 ∧ (∀ e ∈ dockNumbers, e ≠ 3 → (last.dock e).reservation = .unreserved)) ∧
      (3 ∈ dockNumbers ∧ (s.dock 2).state = .empty ∧ (s.dock 2).reservation = .unreserved ∧ s.bikeElsewhere 2 102 = false ∧
        (m 2).kind = .deliver ∧ (m 2).done < (m 2).target ∧
        (∀ c ∈ dockNumbers, 3 < c → (s.dock c).reservation ≠ .deliver 1 ∧ (s.dock c).reservation ≠ .collect 1) ∧
        (∀ c ∈ dockNumbers, 3 < c → (last.dock c).reservation ≠ .deliver 1 ∧ (last.dock c).reservation ≠ .collect 1)) := by
  decide +kernel

theorem test_meets_RemovalOpensTheHire :
    let s := withDock 1 { fullDock with state := .releaseOpen, release := some memberRelease, windowAt := some 31000 } { part with setAside := 1 }
    1 ≤ s.docks.length ∧ (s.dock 1).state = .releaseOpen ∧ (dock7 .unlocking 0).state = .unlocking ∧
      (s.dock 1).release = some memberRelease ∧ memberRelease.party = .hire (.member 7700112) (some 1) ref trip ∧
      memberRelease.origin = .occupied ∧ (s.dock 1).bike = some bike ∧ bike.settling = false ∧ (s.dock 1).lockoutPending = false := by
  decide +kernel

/-- The release of a crew card with room in the hire table and with none, of a pass that is ISSUED, and one with a lockout that
waits at an unreserved dock. -/
theorem test_meets_RemovalOpensTheHire_hirers :
    let crewTrip : TripImage := { trip with hirer := .crew 12, plan := 15 }
    let at' := fun (r : Release) => withDock 1 { fullDock with state := .releaseOpen, release := some r, windowAt := some 31000 }
      { part with setAside := 1 }
    let crew := { memberRelease with party := .hire (.crew 12) (some 1) ref crewTrip }
    let full := withHires (List.replicate 96 passHire) (at' crew)
    (((at' crew).dock 1).state = .releaseOpen ∧ ((at' crew).dock 1).release = some crew ∧
      crew.party = .hire (.crew 12) (some 1) ref crewTrip ∧ ((at' crew).dock 1).bike = some bike ∧ bike.settling = false) ∧
      ((at' crew).hires.length + (at' crew).riderReleases < 96 ∧ 96 ≤ full.hires.length + full.riderReleases) ∧
      ((withPass 3 dayPass (at' passRelease)).pass 3 = some dayPass ∧ dayPass.serial = 907 ∧ dayPass.state = .issued ∧
        passRelease.party = .hire (.pass 3 907) none ref { trip with hirer := .pass 3 907 }) ∧
      (let x := { fullDock with state := .unlocking, release := some memberRelease, lockoutPending := true }
       x.lockoutPending = true ∧ x.reservation = .unreserved) ∧ ({ memberRelease with origin := .lockedOut } : Release).origin = .lockedOut := by
  decide +kernel

/-- Removals under a VAN release: in ACTIVE with the session going on and ending, in CLOSING with another release and as the
last. -/
theorem test_meets_RemovalOpensTheHire_van :
    let m := fun (target : Nat) => ({ kind := .collect .any, asked := target, target := target, done := 0, short := 0 } : ManifestEntry)
    let x := { fullDock with state := .releaseOpen, release := some vanRelease, reservation := .collect 1 }
    let ending : VanEnding := { endedBy := .vanClose, outcome := .closedEarly, time := none }
    let tour := fun (target : Nat) (phase : VanPhase) => withDock 1 x
      { part with van := { session with manifest := [m target], phase := phase, ending := some ending } }
    let met := fun (target : Nat) => ∀ x ∈ setEntry [m target] 1 { m target with done := (m target).done + 1 }, x.done = x.target
    let s := tour 1 .active
    (s.docks.length = 64 ∧ (s.dock 1).state = .releaseOpen ∧ (s.dock 1).release = some vanRelease ∧ vanRelease.party = .van 12 1 ∧
      vanRelease.origin = .occupied ∧ (s.dock 1).bike = some bike ∧ bike.settling = false ∧ (s.dock 1).lockoutPending = false ∧
      entryAt s.van.manifest 1 = some (m 1) ∧ s.van.moves = [] ∧ 1 < s.free) ∧ (s.van.phase = .active ∧ ¬ met 2 ∧ met 1) ∧
      (s.vanReleases = [1] ∧ (∀ e ∈ dockNumbers, e ≠ 1 → (s.dock e).reservation = .unreserved) ∧ s.van.summary = none) ∧
      ((tour 1 .closing).van.phase = .closing ∧ (tour 1 .closing).vanReleases = [1] ∧
        (tour 1 .closing).van.ending = some ending ∧ (tour 1 .closing).van.summary = none) ∧
      (withDock 3 x (tour 1 .closing)).vanReleases = [1, 3] := by decide +kernel

/-- Removals without a release open: at a dock that holds no bike, at one that does, at a COLLECT reservation, and in the
TAG_WRITING of a VAN release and of a member's. -/
theorem test_meets_RemovalOpensTheHire_unreleased :
    let r := withDock 1 { fullDock with state := .tagWriting, release := some memberRelease } { part with setAside := 1 }
    let v := { fullDock with state := .tagWriting, release := some vanRelease, reservation := .collect 1 }
    ((part.dock 2).state = .empty ∧ (dock7 .offline 0).state = .offline ∧
      ({ emptyDock with state := .lockedOut } : Dock).bike = none) ∧
      ((∀ b, (part.dock 1).bike = some b → b.settling = false) ∧ (part.dock 1).release = none ∧ (part.dock 1).state = .occupied ∧
        (∀ n, (part.dock 1).reservation ≠ .collect n)) ∧
      ({ fullDock with reservation := .collect 1 } : Dock).reservation = .collect 1 ∧
      (touring.van.phase ≠ .closing ∧ v.state = .tagWriting ∧ v.release = some vanRelease ∧ vanRelease.party = .van 12 1 ∧
        vanRelease.origin = .occupied ∧ v.lockoutPending = false ∧ min 7 (v.counter + 1) < touring.settings.dockFaultLimit) ∧
      ((r.dock 1).state = .tagWriting ∧ (r.dock 1).release = some memberRelease ∧ (r.dock 1).reservation = .unreserved ∧
        memberRelease.party = .hire (.member 7700112) (some 1) ref trip ∧ r.firstPlace = none ∧ 0 < r.free ∧
        min 7 ((r.dock 1).counter + 1) < r.settings.dockFaultLimit) :=
  ⟨by decide +kernel, ⟨by decide +kernel, by decide +kernel, by decide +kernel, nofun⟩, by decide +kernel⟩

theorem test_meets_ReturnIsHeld :
    let s := withHires [memberHire] part
    (∀ h, s.hireOf ref = some h → ∀ slot serial, h.hirer ≠ .pass slot serial) ∧
      (16 ≤ s.docks.length ∧ (s.dock 16).state = .empty ∧ (s.dock 16).lock = .locked ∧ (s.dock 16).reservation = .unreserved) ∧
      s.bikeElsewhere 16 102 = false ∧ s.heldAt 102 = none ∧ s.entries.length < 64 ∧ 0 < s.settings.settleWindow := by
  refine ⟨fun h e => ?_, by decide +kernel⟩
  have : some memberHire = some h := e
  cases this
  nofun

/-- Returns at an unlocked dock, of a pass that is ON_RIDE, of a crew's bike, and at a dock with a DELIVER reservation: with
another dock EMPTY and with none, in a session that goes on. -/
theorem test_meets_ReturnIsHeld_more :
    let m : ManifestEntry := { kind := .deliver, asked := 2, target := 2, done := 0, short := 0 }
    let p := { dayPass with state := .onRide, current := some ref }
    let s := withPass 3 p (withHires [passHire] part)
    let reserved := fun (s : State) => withDock 2 { emptyDock with reservation := .deliver 1 } { s with van := { session with manifest := [m] } }
    let image : TripImage := { trip with bikeId := 102 }
    let fits := fun (d : Nat) (s : State) => (s.dock d).state = .empty ∧ s.bikeElsewhere d image.bikeId = false ∧
      s.heldAt image.bikeId = none ∧ s.entries.length < 64 ∧ 0 < s.settings.settleWindow
    (fits 16 s ∧ s.hireOf ref = some passHire ∧ passHire.hirer = .pass 3 907 ∧ s.pass 3 = some p ∧ p.serial = 907 ∧
      p.state = .onRide ∧ p.current = some image.ref) ∧ ({ emptyDock with lock := .unlocked } : Dock).lock ≠ .locked ∧
      ({ image with plan := 15 } : TripImage).plan = 15 ∧
      (fits 2 (reserved part) ∧ ((reserved part).dock 2).reservation = .deliver 1 ∧ (reserved part).van.phase = .active ∧
        entryAt (reserved part).van.manifest 1 = some m) ∧
      (3 ∈ dockNumbers ∧ ((reserved part).dock 3).state = .empty ∧ ((reserved part).dock 3).reservation = .unreserved ∧
        ∀ c ∈ dockNumbers, c < 3 → ((reserved part).dock c).state ≠ .empty ∨ ((reserved part).dock c).reservation ≠ .unreserved) ∧
      (fits 2 (reserved noEmpty) ∧ (∀ c ∈ dockNumbers, ((reserved noEmpty).dock c).state ≠ .empty ∨
          ((reserved noEmpty).dock c).reservation ≠ .unreserved) ∧
        ∃ x ∈ setEntry [m] 1 { m with target := m.target - 1, short := m.short + 1 }, x.done ≠ x.target) := by decide +kernel

theorem test_meets_ReturnIsHeld_reservation : (∀ n, (part.dock 16).reservation ≠ .deliver n) := nofun

/-- Returns with a settle window of 0, and with 64 entries the oldest of which waits, or is held for the bike in dock 1; with a slot
free and with none. -/
theorem test_meets_ReturnIsHeld_full :
    let waiting : SettleEntry := { close := close, waiver := none, stage := .waiting .deadline none .noPass }
    let at0 := withSettings (fun x => { x with settleWindow := 0 }) part
    let full := fun (e : SettleEntry) => withEntries (e :: List.replicate 63 waiting) (withDock 1 { fullDock with bike := some settlingBike } part)
    let fits := fun (s : State) => (s.dock 16).state = .empty ∧ s.bikeElsewhere 16 102 = false ∧ s.heldAt 102 = none ∧
      (s.dock 16).reservation = .unreserved
    (fits at0 ∧ at0.settings.settleWindow = 0 ∧ at0.entries.length < 64 ∧ 0 < at0.free ∧ (withRecords fullJournal at0).free = 0) ∧
      (fits (withRecords fullJournal (full waiting)) ∧ (full waiting).entries = waiting :: List.replicate 63 waiting ∧
        (List.replicate 63 waiting).length = 63 ∧ waiting.stage = .waiting .deadline none .noPass ∧
        (withRecords fullJournal (full waiting)).free = 0 ∧ 0 < (full waiting).settings.settleWindow) ∧
      (fits (full heldEntry) ∧ heldEntry.stage = .held 101 1 1000 ∧ heldEntry.close.hirer = .member 7700112 ∧ 1 ≠ 16 ∧
        ((full heldEntry).dock 1).bike = some settlingBike ∧ settlingBike.id = 101 ∧ 0 < (full heldEntry).free ∧
        (withRecords fullJournal (full heldEntry)).free = 0) := by decide +kernel

theorem test_meets_ReturnIsHeld_hirer : (∀ slot serial, heldEntry.close.hirer ≠ .pass slot serial) := nofun

/-- A bike present at an OCCUPIED dock that records another one, settling, and at a LOCKED_OUT dock with and without one: with its own
id, and with one held in another dock. -/
theorem test_meets_ReturnIsHeld_replaced :
    let s := withEntries [heldEntry] (withDock 1 { fullDock with bike := some settlingBike } part)
    let out := fun (b : Option Bike) => withDock 1 { fullDock with state := .lockedOut, lock := .unlocked, bike := b } part
    let room := fun (v : State) => v.entries.length < 64 ∧ 0 < v.settings.settleWindow ∧ 0 < v.free ∧ v.faults = []
    ((s.dock 1).state = .occupied ∧ (∀ b, (s.dock 1).bike = some b → b.id ≠ 102) ∧ s.bikeElsewhere 1 102 = false ∧
        s.heldAt 102 = none ∧ room (s.vacated 1 .replaced)) ∧
      (((out (some bike)).dock 1).state = .lockedOut ∧ ((out none).dock 1).bike = none ∧ (out none).bikeElsewhere 1 102 = false ∧
        (out none).heldAt 102 = none ∧ room ((out none).vacated 1 .replaced) ∧ room ((out (some bike)).vacated 1 .replaced)) ∧
      ((withDock 2 { fullDock with bike := some { bike with id := 102 } } s).bikeElsewhere 1 102 = true ∧
        room ((withDock 2 { fullDock with bike := some { bike with id := 102 } } s).vacated 1 .replaced)) := by decide +kernel

theorem test_meets_ReturnIsHeld_unreserved : (∀ n, fullDock.reservation ≠ .deliver n) := nofun

/-- A dock in each state, an expired card, a denied member, a closed plan, a full table, a short journal, and room. -/
theorem test_meets_MemberAttempt :
    let card : CardImage := { member := 9, plan := 0, expiryDay := 11, issue := 1 }
    card.plan ≠ 15 ∧ ({ part with clock := .unset } : State).now = none ∧ part.now = some 1000000 ∧
      ((part.dock 64).configured = false ∧ (part.dock 1).configured = true ∧ (part.dock 2).state = .empty) ∧
      (dock7 .tagWriting 0).state.transient = true ∧ ({ fullDock with reservation := .collect 1 } : Dock).reservation ≠ .unreserved ∧
      ((part.dock 1).state = .occupied ∧ (part.dock 1).reservation = .unreserved ∧ (part.dock 1).bike = some bike ∧
        bike.condition = .available ∧ bike.settling = false) ∧
      ({ fullDock with bike := some { bike with condition := .recalled } } : Dock).holds .available = false ∧
      (10 < (1000000 - part.settings.dayOffset) / 86400 ∧ (1000000 - part.settings.dayOffset) / 86400 ≤ card.expiryDay) ∧
      9 ∈ (withDenied [9] part).denied ∧ 9 ∉ part.denied ∧ part.plans[0]?.map (fun p => (p.admitted, p.hireLimit)) = some (true, 1) ∧
      1 ≤ (withHires [memberHire] part).memberHires 7700112 ∧ part.memberHires 9 < 1 ∧
      96 ≤ (withHires (List.replicate 96 passHire) part).hires.length ∧ part.hires.length + part.hireReleases < 96 ∧
      (withRecords (fullJournal.take 209) part).free < part.settings.openReserve ∧ part.settings.openReserve ≤ part.free := by
  decide +kernel

/-- A crew card at a dock without a reservation in each state, and at a LOCKED_OUT one with and without a bike; at a DELIVER
reservation, at a COLLECT one of another crew, and at its own session's with the card denied, the moves full, the dock busy, and
the bike there. -/
theorem test_meets_MemberAttempt_crew :
    let card : CardImage := { member := 77, plan := 15, expiryDay := 0, issue := 1 }
    let reserved := fun (x : DockState) (s : State) => withDock 1 { fullDock with state := x, reservation := .collect 1 } s
    let s := reserved .occupied touring
    card.plan = 15 ∧ ((part.dock 1).reservation = .unreserved ∧ ({ part with clock := .unset } : State).now = none ∧
        part.now = some 1000000) ∧
      ((part.dock 64).configured = false ∧ (part.dock 1).configured = true ∧ (part.dock 2).state = .empty ∧
        (dock7 .unlocking 0).state.transient = true ∧ ({ emptyDock with state := .lockedOut } : Dock).bike = none) ∧
      ((part.dock 1).state = .occupied ∧ (dock7 .lockedOut 3).state = .lockedOut ∧ (dock7 .lockedOut 3).bike = some bike ∧
        77 ∈ (withDenied [77] part).denied ∧ 77 ∉ part.denied ∧ bike.settling = false ∧
        (withRecords (fullJournal.take 209) part).free < part.settings.openReserve ∧ part.settings.openReserve ≤ part.free) ∧
      ({ emptyDock with reservation := .deliver 1 } : Dock).reservation = .deliver 1 ∧
      ((s.dock 1).reservation = .collect 1 ∧ s.van.phase = .active ∧ s.van.crew = card.member ∧ s.van.crew ≠ 78 ∧
        ({ s with van := { session with phase := .closing } } : State).van.phase ≠ .active) ∧
      (77 ∈ (withDenied [77] s).denied ∧ 77 ∉ s.denied ∧
        64 ≤ ({ s with van := { session with moves := List.replicate 64 move } } : State).van.moves.length ∧
        s.van.moves.length + s.vanReleases.length < 64 ∧ ((reserved .relocking touring).dock 1).state ≠ .occupied ∧
        (reserved .relocking touring).van.moves.length + (reserved .relocking touring).vanReleases.length < 64 ∧
        (s.dock 1).state = .occupied ∧ ∀ b, (s.dock 1).bike = some b → b.settling = false) := by decide +kernel

theorem test_meets_ReleaseTimers :
    let s := withDock 1 { fullDock with state := .releaseOpen, release := some memberRelease, windowAt := some 1000 } { part with setAside := 1 }
    (s.power = .running ∧ (s.dock 1).state = .releaseOpen ∧ (s.dock 1).release = some memberRelease ∧ (s.dock 1).windowAt = some 1000 ∧
      1000 ≤ s.elapsed ∧ (s.dock 1).lockoutPending = false ∧ s.firstPlace = none) ∧ (part.dock 1).windowAt = none ∧
      999 < 1000 ∧
      (let x := { dock7 .relocking 2 with relockAt := some 1000 }; x.state = .relocking ∧ x.relockAt = some 1000) ∧
      (part.dock 1).relockAt = none := by decide +kernel

/-- A release window that runs out at a full journal where a close waits. -/
theorem test_meets_ReleaseTimers_served :
    let s := withEntries [{ close := close, waiver := none, stage := .waiting .deadline none .noPass }]
      (withDock 1 { fullDock with state := .releaseOpen, release := some memberRelease, windowAt := some 1000 }
        { withRecords (fullJournal.take 255) part with setAside := 1 })
    s.postsIn .settle ∧ s.firstPlace = some .settle ∧ s.records.length + s.setAside = 256 ∧ 0 < s.setAside ∧ s.replySlot = 0 :=
  ⟨nofun, by decide +kernel⟩

/-- Windows that run out: of a release begun from LOCKED_OUT, with a lockout that waits, of a pass at its expiry with a slot free and
with none; of a VAN release in ACTIVE, with a lockout that waits, and in CLOSING with another one, as the last, and as the last with a
move waiting and with no slot free. -/
theorem test_meets_ReleaseTimers_kinds :
    let open' := fun (r : Release) => { fullDock with state := .releaseOpen, release := some r, windowAt := some 1000 }
    let ending : VanEnding := { endedBy := .vanClose, outcome := .closedEarly, time := none }
    let pass := withPass 3 { dayPass with expiry := 1000000 } (withDock 1 (open' passRelease) { part with setAside := 1 })
    let full := withRecords (fullJournal.take 255) pass
    let van := { open' vanRelease with reservation := .collect 1 }
    let active := withDock 1 van touring
    let last := withDock 1 van { touring with van := { session with phase := .closing, ending := some ending } }
    (({ memberRelease with origin := .lockedOut } : Release).origin = .lockedOut ∧
        (let x := { open' memberRelease with lockoutPending := true }; x.lockoutPending = true ∧ x.reservation = .unreserved)) ∧
      ((pass.dock 1).release = some passRelease ∧ passRelease.party = .hire (.pass 3 907) none ref { trip with hirer := .pass 3 907 } ∧
        3 ∈ slotNumbers ∧ pass.pass 3 = some { dayPass with expiry := 1000000 } ∧ dayPass.serial = 907 ∧ dayPass.state = .issued ∧
        pass.now = some 1000000 ∧ (∀ other ∈ dockNumbers, other ≠ 1 → (pass.dock other).release = none) ∧ pass.docks.length = 64 ∧
        pass.firstPlace = none ∧ 0 < pass.free ∧ full.firstPlace = none ∧ full.records.length + full.setAside = 256 ∧
        0 < full.setAside ∧ full.replySlot = 0) ∧
      ((active.dock 1).release = some vanRelease ∧ vanRelease.party = .van 12 1 ∧ active.van.phase ≠ .closing ∧
        (active.dock 1).lockoutPending = false ∧ (active.dock 1).state = .releaseOpen ∧ (active.dock 1).windowAt = some 1000) ∧
      (last.van.phase = .closing ∧ (withDock 3 van last).vanReleases = [1, 3] ∧ last.vanReleases = [1] ∧ last.van.ending = some ending ∧
        last.van.summary = none ∧ last.van.moves = [] ∧ 0 < last.free ∧ last.docks.length = 64 ∧
        ({ last with van := { last.van with moves := [move] } } : State).van.moves ≠ [] ∧
        (withRecords fullJournal last).free = 0) := by decide +kernel

theorem test_meets_StringResetResult :
    part.ready ∧ part.sized ∧ (4 < 5) ∧ (part.line 1).count ≤ 16 ∧ (part.line 4).count ≤ 16 ∧
      ∀ a ∈ List.range' 1 16, (part.dock (16 * (1 - 1) + a)).release = none ∧ (part.dock (16 * (1 - 1) + a)).reservation = .unreserved :=
  ⟨part_ready, part_sized, by decide +kernel⟩

/-- Nodes reset: a dock with a DELIVER reservation, with a member's release, with a pass's release at its expiry, and with a VAN
release in ACTIVE, and in CLOSING with another one and as the last. -/
theorem test_meets_StringResetResult_releases :
    let open' := fun (r : Release) => { fullDock with state := .releaseOpen, release := some r, windowAt := some 1000 }
    let ending : VanEnding := { endedBy := .vanClose, outcome := .closedEarly, time := none }
    let member := withDock 1 (open' memberRelease) { part with setAside := 1 }
    let pass := withPass 3 { dayPass with expiry := 1000000 } (withDock 1 (open' passRelease) { part with setAside := 1 })
    let van := { open' vanRelease with reservation := .collect 1 }
    let last := withDock 1 van { touring with van := { session with phase := .closing, ending := some ending } }
    (1 ∈ dockNumbers ∧ (lively.dock 6).release = none ∧ (lively.dock 6).reservation = .deliver 2) ∧
      ((member.dock 1).release = some memberRelease ∧ (member.dock 1).reservation = .unreserved ∧ member.firstPlace = none ∧
        memberRelease.party = .hire (.member 7700112) (some 1) ref trip ∧ member.docks.length = 64) ∧
      ((pass.dock 1).release = some passRelease ∧ pass.pass 3 = some { dayPass with expiry := 1000000 } ∧ pass.now = some 1000000 ∧
        3 ∈ slotNumbers ∧ pass.firstPlace = none ∧ (∀ other ∈ dockNumbers, other ≠ 1 → (pass.dock other).release = none) ∧
        0 < pass.free) ∧
      ((lively.dock 5).release = some vanRelease ∧ lively.van.phase = .active) ∧
      (last.van.phase = .closing ∧ (withDock 3 van last).vanReleases = [1, 3] ∧ last.vanReleases = [1] ∧ last.van.ending = some ending ∧
        last.van.summary = none ∧ last.van.moves = [] ∧ 0 < last.free) := by decide +kernel

/-- A timer at its end and before it; a HELD entry before its deadline, at it with a slot free, and at it with none. -/
theorem test_meets_OfflineAndSettleDeadlines :
    let e : SettleEntry := { close := close, waiver := none, stage := .held 101 1 1000 }
    let s := withEntries [e] part
    ((∀ slot serial, e.close.hirer ≠ .pass slot serial) ∧ ∀ t, entryAt part.offlineAt 1 = some (some t) → part.elapsed < t) ∧
      part.power = .running ∧ entryAt ({ part with offlineAt := setEntry part.offlineAt 64 (some 1000) } : State).offlineAt 64 = some (some 1000) ∧
      ¬ (part.attention.raised = true ∧ part.attention.offline = true) ∧ s.entries = [] ++ e :: [] ∧ 1000 ≤ s.elapsed ∧
      ({ s with elapsed := 999 } : State).elapsed < 1000 ∧ (∀ b, (s.dock 1).bike = some b → b.id = 101) ∧ (s.dock 1).bike ≠ none ∧
      0 < s.free ∧ (withRecords fullJournal s).free = 0 ∧ ∀ x ∈ s.entries, x.linksTo 102 = false :=
  ⟨⟨nofun, fun _ h => nomatch (show some none = some (some _) from h)⟩, by decide +kernel⟩

/-- The entry of a pass's ride: a DAY pass before its expiry, a SINGLE one, one at its expiry, and no such pass. -/
theorem test_meets_OfflineAndSettleDeadlines_pass :
    let e : SettleEntry := { heldEntry with close := { close with hirer := .pass 3 907 } }
    let p := { dayPass with state := .closing, current := some ref }
    let s := withEntries [e] (withPass 3 p part)
    s.entries = [] ++ e :: [] ∧ e.stage = .held 101 1 1000 ∧ 1000 ≤ s.elapsed ∧ e.close.hirer = .pass 3 907 ∧ 1 < s.free ∧
      (s.pass 3 = some p ∧ p.serial = 907 ∧ p.state = .closing ∧ p.current = some e.close.ref ∧ p.kind = .day) ∧
      (s.now = some 1000000 ∧ 1000000 < p.expiry ∧ ({ p with expiry := 1000000 } : Pass).expiry ≤ 1000000) ∧
      (∀ q, (withPass 3 dayPass s).pass 3 = some q → ¬ (q.serial = 907 ∧ q.state = .closing ∧ q.current = some e.close.ref)) := by
  decide +kernel

/-- For `OfflineAndSettleDeadlines` and the statements of releases, removals, reservations and censuses: a dock whose settling bike
has its close held, free for a release, a removal, a reservation or a census; the same with a full
journal, with no entry of the bike, and with a pass CLOSING that rode it; and a VAN_OPEN that reserves it. -/
theorem test_meets_settling :
    let s := withEntries [heldEntry] (withDock 1 { fullDock with bike := some settlingBike } part)
    let opened := after (.vanOpen 3 5 77 [⟨1, some 1, 1, true⟩]) (withSettings (fun x => { x with memberFloor := 0 }) s)
    (1 ∈ dockNumbers ∧ (s.dock 1).state = .occupied ∧ (s.dock 1).configured = true ∧ (s.dock 1).release = none ∧
        (s.dock 1).reservation = .unreserved ∧ (s.dock 1).bike = some settlingBike ∧ settlingBike.settling = true ∧
        settlingBike.condition = .available ∧ settlingBike.id = 101) ∧
      (s.entries = [] ++ heldEntry :: [] ∧ heldEntry.stage = .held 101 1 1000 ∧ 0 < s.free ∧ s.firstPlace = none ∧
        (withRecords fullJournal s).free = 0 ∧ s.settings.openReserve ≤ s.free ∧ s.now = some 1000000) ∧
      ((∀ e ∈ (withEntries [] s).entries, e.linksTo 101 = false) ∧ (part.dock 1).bike = some bike ∧ bike.settling = false) ∧
      ((opened.dock 1).reservation = .collect 1 ∧ (opened.dock 1).bike = some { settlingBike with settling := false } ∧
        opened.entries = []) := by decide +kernel

/-- An examination not due and due; a hire at its age of 3 days; a pass at its 48-hour limit; an expiry at its time. -/
theorem test_meets_ExaminationsAndExpiry :
    let old := { memberHire with start := 740800 }
    let riding := { dayPass with state := .onRide, current := some ref, expiry := 827200 }
    let aged := { withHires [old] part with elapsed := 60000, clock := .running 1000000 60000 }
    let limit := { withHires [passHire] (withPass 3 riding part) with elapsed := 60000, clock := .running 1000000 60000 }
    let expiring := withPass 3 { dayPass with expiry := 1000000 } part
    (part.elapsed < part.hireExamAt ∧ part.elapsed < part.passExamAt ∧ aged.hireExamAt ≤ aged.elapsed) ∧
      (aged.now = some 1000000 ∧ aged.hires = [] ++ old :: [] ∧ old.start + aged.settings.hireAgeLimit * 86400 ≤ 1000000 ∧ 0 < aged.free) ∧
      (limit.now = some 1000000 ∧ limit.pass 3 = some riding ∧ riding.expiry + 172800 ≤ 1000000 ∧ riding.current = some passHire.ref ∧
        limit.hires = [] ++ passHire :: [] ∧
        (∀ other ∈ slotNumbers, other ≠ 3 → ∀ q, limit.pass other = some q → q.state = .onRide → 1000000 < q.expiry + 172800) ∧
        1 < limit.free) ∧
      ({ part with clock := .unset } : State).now = none ∧ part.pass 3 = none ∧ 999999 < dayPass.expiry ∧
      (expiring.pass 3 = some { dayPass with expiry := 1000000 } ∧ expiring.passInFlight 3 907 = false ∧ 0 < expiring.free) ∧
      (withDock 1 { fullDock with state := .unlocking, release := some passRelease } expiring).passInFlight 3 907 = true ∧
      (withRecords fullJournal expiring).free = 0 := by decide +kernel

theorem test_meets_ExaminationsAndExpiry_hirer : (∀ slot serial, memberHire.hirer ≠ .pass slot serial) := nofun

/-- Two hires past their age in a journal with one slot free; and a pass past its limit whose hire has no entry. -/
theorem test_meets_ExaminationsAndExpiry_several :
    let old := { memberHire with start := 740800 }
    let s := { withRecords (fullJournal.take 255) (withHires [old, { old with ref := rideRef }] part) with
      elapsed := 60000, clock := .running 1000000 60000 }
    s.power = .running ∧ s.hireExamAt ≤ s.elapsed ∧ s.passExamAt ≤ s.elapsed ∧ s.now = some 1000000 ∧ s.free = 1 ∧
      old.start + s.settings.hireAgeLimit * 86400 ≤ 1000000 ∧
      (let lone := withPass 3 { dayPass with state := .onRide, current := some rideRef, expiry := 827200 } s
       lone.pass 3 = some { dayPass with state := .onRide, current := some rideRef, expiry := 827200 } ∧
         (withHires [] lone).hires.find? (fun h => some rideRef == some h.ref) = none ∧ 827200 + 172800 ≤ 1000000) := by
  decide +kernel

/-- Bytes without a start byte; an incomplete frame; a bad length, and a bad check; a request in a frame; and an unfinished
frame before its gap, after it, and with a whole frame in its bytes. -/
theorem test_meets_FrameRows :
    let l := part.link
    let buried := { l with receiving := startByte :: (natBytes 2 20 ++ frameBytes 1 9 []) }
    (part.ready ∧ (∀ b ∈ l.receiving ++ [1, 2], b ≠ startByte) ∧ l.receiving = [] ∧ part.elapsed < 951 + 50 ∧ 950 + 50 ≤ part.elapsed) ∧
      ([] : List Byte).length < 2 + 2 ∧ (1 < 2 ∧ 4096 < 4097) ∧
      (2 + 2 ≤ ([1, 9, 0, 0] : List Byte).length ∧
        (([1, 9, 0, 0] : List Byte).drop 2).take 2 ≠ checkBytes (natBytes 2 2 ++ [1, 9])) ∧
      ((Instr.statusGet 9).request? = some (9, .statusGet) ∧ Request.statusGet.wf = true ∧ requestKind .statusGet = 1 ∧
        requestBody .statusGet = []) ∧
      (requestOfBody 29 [] = none ∧ requestOfBody 1 [1] = none ∧ requestOfBody 30 [] = none) ∧
      ({ l with receiving := [startByte] } : Link).buried = [] ∧ buried.receiving ≠ [] ∧
      ((∀ b ∈ natBytes 2 20 ++ [1, 2, 3], b ≠ startByte) ∧ (frameBytes 1 9 []).length < 20 + 2) := ⟨⟨part_ready, by decide +kernel⟩, by decide +kernel⟩

theorem test_meets_FramesSent :
    let ok : Reply := { status := .ok, result := .empty }
    let l := { Link.atStart with sending := some Sending.reply, holding := [{ held with reply := some ok }] }
    (part.power = .running ∧ part.link.sending = none) ∧
      (let b := { l with sending := some Sending.busyReply, busy := [(1, 9)] }; b.sending = some .busyReply ∧ b.busy = (1, 9) :: []) ∧
      (l.sending = some .reply ∧ l.holding = [{ held with reply := some ok }]) ∧ (Request.reset 1 = .reset 1 ∧ ok.status = .ok) ∧
      (∀ m, held.request ≠ .reset m) ∧
      ((Instr.vanGet 1).request? = some (held.tag, held.request) ∧ held.reply = none ∧ l.receiving = [] ∧
        ({ l with holding := [{ held with reply := some ok }, held] } : Link).holding = { held with reply := some ok } :: held :: []) ∧
      (let n := { l with sending := some Sending.notice, marks := { Marks.none with dockState := true } }
       n.sending = some .notice ∧ n.nextNotice = some .dockState) ∧
      (noticeKinds[0]? = some .journalReady ∧ noticeKinds[4]? = some .dockState ∧ (1 + 4 - 0) % 5 < (4 + 4 - 0) % 5) :=
  ⟨by decide +kernel, by decide, by decide, by decide, nofun, by decide, by decide, by decide⟩

/-- A tally of distinct reporters; a member, a pass and an anonymous reporter; a bike below the confirm count of LIGHT and at that
of TAG. -/
theorem test_meets_RiderTally :
    ([{ who := Reporter.person 1, time := some 5 }, { who := .anonymous, time := none }].map TallyEntry.who).Nodup ∧ part.ready ∧
      (bikeFaultOf 4 = some .light ∧ bikeFaultOf 7 = some .tag ∧ (part.dock 1).bike = some bike ∧ part.heldAt bike.id = none ∧
        BikeFault.tag ∉ bike.faults ∧ (enterTally (.person 9) part.now []).length < (part.policy .light).count ∧
        (part.policy .tag).count ≤ (enterTally (.person 9) part.now []).length ∧ (part.policy .tag).cls = .quarantine ∧
        (withPass 3 dayPass part).pass 3 = some dayPass ∧ (enterTally (.pass 3 907) part.now []).length = 1 ∧
        (part.policy .light).cls = .advisory) := ⟨by decide, part_ready, by decide +kernel⟩

/-- A code no pass holds; a pass expired, short of funds, in use, and one that is admitted. -/
theorem test_meets_PassAttempt :
    let s := withPass 3 dayPass part
    (s.now = some 1000000 ∧ (s.dock 1).configured = true ∧ (s.dock 1).state = .occupied ∧ (s.dock 1).reservation = .unreserved ∧
      (s.dock 1).bike = some bike ∧ bike.condition = .available) ∧
      (∀ slot ∈ slotNumbers, ∀ p, s.pass slot = some p → ¬ (p.code = 1 ∧ (p.state = .issued ∨ p.state = .idle ∨ p.state = .closing))) ∧
      (s.pass 3 = some dayPass ∧ dayPass.code = 583026 ∧ dayPass.state = .issued ∧
        ∀ other ∈ slotNumbers, other ≠ 3 → ∀ q, s.pass other = some q → q.code ≠ 583026) ∧
      ({ dayPass with expiry := 1000000 } : Pass).expiry ≤ 1000000 ∧ 1000000 < dayPass.expiry ∧
      ({ dayPass with charged := 1301 } : Pass).hold - 1301 < s.settings.minPassBalance ∧
      s.settings.minPassBalance ≤ dayPass.hold - dayPass.charged ∧ s.passInFlight 3 907 = false ∧
      (withDock 2 { fullDock with state := .unlocking, release := some passRelease } s).passInFlight 3 907 = true ∧
      s.hires.length + s.hireReleases < 96 ∧ s.settings.openReserve ≤ s.free := by decide +kernel

/-- The code of a CLOSING pass: a DAY pass before its expiry, a SINGLE one, and one at its expiry; and one whose hire has no entry. -/
theorem test_meets_PassAttempt_closing :
    let e : SettleEntry := { heldEntry with close := { close with hirer := .pass 3 907 } }
    let p := { dayPass with state := .closing, current := some ref }
    let s := withEntries [e] (withPass 3 p part)
    (s.now = some 1000000 ∧ (s.dock 1).configured = true ∧ (s.dock 1).state = .occupied ∧ (s.dock 1).reservation = .unreserved ∧
      (s.dock 1).holds .available = true) ∧
      (3 ∈ slotNumbers ∧ s.pass 3 = some p ∧ p.code = 583026 ∧ p.state = .closing ∧ p.current = some ref ∧
        ∀ other ∈ slotNumbers, other ≠ 3 → ∀ q, s.pass other = some q → q.code ≠ 583026) ∧
      (s.entries = [] ++ e :: [] ∧ e.stage = .held 101 1 1000 ∧ e.close.ref = ref ∧ e.close.hirer = .pass 3 p.serial ∧ 1 < s.free) ∧
      ((s.dock 1).bike = some bike ∧ bike.id = 101) ∧ (p.kind = .day ∧ 1000000 < p.expiry) ∧
      ({ p with kind := .single } : Pass).kind = .single ∧ ({ p with expiry := 1000000 } : Pass).expiry ≤ 1000000 ∧
      (let lone := withPass 3 p part
       lone.now = some 1000000 ∧ (lone.dock 1).bike = some bike ∧ lone.pass 3 = some p ∧
         (∀ other ∈ slotNumbers, other ≠ 3 → ∀ q, lone.pass other = some q → q.code ≠ 583026) ∧
         ∀ x ∈ lone.entries, x.isHeld = false ∨ p.current ≠ some x.close.ref) := by decide +kernel

end Sys2Proof.Tests
end

