-- ==== Sys2Proof/Proofs/Fare.lean ====
section
/-! PROOFS. Pricing stages 2 to 4 (R93, R94), and the staging requests TARIFF_STAGE_BAND and TARIFF_STAGE_CLEAR (R81, R82). -/

namespace Sys2Proof.Machine

/-! ### Division rounded up -/

theorem le_mul_ceilDiv (a : Nat) {b : Nat} (hb : 0 < b) : a ≤ b * ceilDiv a b := by
  have h : a + b - 1 < b * ((a + b - 1) / b + 1) := Nat.lt_mul_div_succ _ hb
  rw [Nat.mul_add_one] at h
  unfold ceilDiv
  omega

theorem mul_ceilDiv_lt (a : Nat) {b : Nat} (hb : 0 < b) : b * ceilDiv a b < a + b := by
  have h : b * ((a + b - 1) / b) ≤ a + b - 1 := Nat.mul_div_le _ _
  unfold ceilDiv
  omega

/-! ### Stage 2: the duration (R93) -/

theorem tripDuration_le (start e : Nat) : tripDuration start e ≤ 604800 := Nat.min_le_left _ _

theorem tripDuration_of_le {start e : Nat} (h : e - start ≤ 604800) : tripDuration start e = e - start :=
  Nat.min_eq_right h

theorem tripDuration_of_before {start e : Nat} (h : e < start) : tripDuration start e = 0 := by
  rw [tripDuration_of_le] <;> omega

theorem tripDuration_of_overlong {start e : Nat} (h : 604800 < e - start) : tripDuration start e = 604800 :=
  Nat.min_eq_left h.le

/-! ### What pricing writes into the close (R93 to R95) -/

section PriceTrip

variable (t : TariffSet) (p : Plan) (i : TripImage) (dock e extra : Nat)

@[simp] theorem priceTrip_duration : (priceTrip t p i dock e extra).duration = some (tripDuration i.start e) := rfl
@[simp] theorem priceTrip_minutes :
    (priceTrip t p i dock e extra).minutes = some (ceilDiv (tripDuration i.start e) 60) := rfl
@[simp] theorem priceTrip_chargeable :
    (priceTrip t p i dock e extra).chargeable =
      some (chargeableMinutes (ceilDiv (tripDuration i.start e) 60) p.freeMinutes) := rfl
theorem priceTrip_base :
    (priceTrip t p i dock e extra).base =
      (priceTrip t p i dock e extra).chargeable.map (fun n => bandsCharge n 0 (t.tableFor i.generation).1.bands) := rfl
@[simp] theorem priceTrip_clockSkew : (priceTrip t p i dock e extra).flags.clockSkew = decide (e < i.start) := rfl
@[simp] theorem priceTrip_overlong : (priceTrip t p i dock e extra).flags.overlong = decide (604800 < e - i.start) := rfl

end PriceTrip

/-- Settles O14: the three places a return time can have against the start, each by its lemma about `tripDuration`. -/
theorem durationStage : Obligations.DurationStage := by
  intro t p i dock e extra
  simp only [priceTrip_duration, priceTrip_clockSkew, priceTrip_overlong, decide_eq_true_eq, decide_eq_false_iff_not,
    Option.some.injEq]
  refine ⟨fun hse hd => ⟨tripDuration_of_le hd, ?_, ?_⟩, fun hse => ⟨tripDuration_of_before hse, hse, ?_⟩,
    fun hd => ⟨tripDuration_of_overlong hd, hd, ?_⟩⟩ <;> omega

/-- Settles O15: the two bounds of a division rounded up, and the bound on the duration, fix the minutes. -/
theorem minutesStages : Obligations.MinutesStages := by
  intro t p i dock e extra
  have hd : tripDuration i.start e ≤ 604800 := tripDuration_le i.start e
  have hlow : tripDuration i.start e ≤ 60 * ceilDiv (tripDuration i.start e) 60 := le_mul_ceilDiv _ (by decide)
  have hhigh : 60 * ceilDiv (tripDuration i.start e) 60 < tripDuration i.start e + 60 := mul_ceilDiv_lt _ (by decide)
  refine ⟨_, _, priceTrip_duration .., priceTrip_minutes .., hlow, hhigh, ?_, ?_, ?_, priceTrip_chargeable ..,
    priceTrip_base ..⟩ <;> omega

/-! ### The first field of a band outside its range (R81) -/

section BandRange

variable {band block rate : Nat} {edge : Option Nat}

/-- An edge is out of range where it is given and lies outside 1 to 10,080; UNBOUNDED is in range (R79). -/
theorem edge_out_iff : edge.any (fun e => e < 1 || 10080 < e) = true ↔ ∃ e, edge = some e ∧ (e = 0 ∨ 10080 < e) := by
  simp [Option.any_eq_true]

theorem not_edge_out (h : ∀ e, edge = some e → 1 ≤ e ∧ e ≤ 10080) :
    ¬ edge.any (fun e => e < 1 || 10080 < e) = true := by
  rw [edge_out_iff]
  rintro ⟨e, he, hout⟩
  have := h e he
  omega

theorem bandRange_band (h : band = 0 ∨ 8 < band) : bandRange band edge block rate = some .band :=
  if_pos (by omega)

theorem bandRange_edge (h1 : 1 ≤ band) (h8 : band ≤ 8) (he : ∃ e, edge = some e ∧ (e = 0 ∨ 10080 < e)) :
    bandRange band edge block rate = some .edge := by
  rw [bandRange, if_neg (by omega), if_pos (edge_out_iff.2 he)]

/-- With position and edge in range, the block and the rate remain to be examined. -/
theorem bandRange_of_edge_ok (h1 : 1 ≤ band) (h8 : band ≤ 8) (he : ∀ e, edge = some e → 1 ≤ e ∧ e ≤ 10080) :
    bandRange band edge block rate =
      if block < 1 ∨ 60 < block then some .block else if 5000 < rate then some .rate else none := by
  rw [bandRange, if_neg (by omega), if_neg (not_edge_out he)]

theorem bandRange_block (h1 : 1 ≤ band) (h8 : band ≤ 8) (he : ∀ e, edge = some e → 1 ≤ e ∧ e ≤ 10080)
    (hb : block = 0 ∨ 60 < block) : bandRange band edge block rate = some .block := by
  rw [bandRange_of_edge_ok h1 h8 he, if_pos (by omega)]

theorem bandRange_rate (h1 : 1 ≤ band) (h8 : band ≤ 8) (he : ∀ e, edge = some e → 1 ≤ e ∧ e ≤ 10080)
    (hb1 : 1 ≤ block) (hb60 : block ≤ 60) (hr : 5000 < rate) : bandRange band edge block rate = some .rate := by
  rw [bandRange_of_edge_ok h1 h8 he, if_neg (by omega), if_pos hr]

theorem bandRange_none (h1 : 1 ≤ band) (h8 : band ≤ 8) (he : ∀ e, edge = some e → 1 ≤ e ∧ e ≤ 10080)
    (hb1 : 1 ≤ block) (hb60 : block ≤ 60) (hr : rate ≤ 5000) : bandRange band edge block rate = none := by
  rw [bandRange_of_edge_ok h1 h8 he, if_neg (by omega), if_neg (by omega)]

end BandRange

/-! ### What the owner does with a staging request (R81, R82) -/

section StagingOwner

variable {s : State} {band : Nat} {edge : Option Nat} {block rate : Nat}

theorem commitPending_iff : s.commitPending = true ↔ s.tariffs.commit ≠ none := by
  rw [State.commitPending, Option.isSome_iff_ne_none]

theorem not_commitPending (h : s.tariffs.commit = none) : ¬ s.commitPending = true := fun hp => commitPending_iff.1 hp h

theorem ownStageBand_busy (h : s.tariffs.commit ≠ none) : ownStageBand band edge block rate s = (s, .plain .busy) :=
  if_pos (commitPending_iff.2 h)

theorem ownStageBand_range (h : s.tariffs.commit = none) {f : Field} (hf : bandRange band edge block rate = some f) :
    ownStageBand band edge block rate s = (s, .range f) := by
  rw [ownStageBand, if_neg (not_commitPending h), hf]

theorem ownStageBand_ok (h : s.tariffs.commit = none) (hf : bandRange band edge block rate = none) :
    ownStageBand band edge block rate s =
      (s.putTariffs { s.tariffs with
        staged := setEntry s.tariffs.staged band (some { edge := edge, block := block, rate := rate }) }, .plain .ok) := by
  rw [ownStageBand, if_neg (not_commitPending h), hf]

theorem ownStageClear_busy (h : s.tariffs.commit ≠ none) : ownStageClear s = (s, .plain .busy) :=
  if_pos (commitPending_iff.2 h)

theorem ownStageClear_ok (h : s.tariffs.commit = none) :
    ownStageClear s = (s.putTariffs { s.tariffs with staged := emptyStaged }, .plain .ok) :=
  if_neg (not_commitPending h)

end StagingOwner

/-! ### The staging rows at a ready part -/

section StagingRows

variable {s : State} (hs : s.ready) (tag : Nat)

theorem exec_tariffStageBand_eq (s : State) (tag band : Nat) (edge : Option Nat) (block rate : Nat) :
    exec (.tariffStageBand tag band edge block rate) s =
      .next (s.running (fun s => s.receiveRequest tag (.tariffStageBand band edge block rate))) := rfl

theorem exec_tariffStageClear_eq (s : State) (tag : Nat) :
    exec (.tariffStageClear tag) s = .next (s.running (fun s => s.receiveRequest tag .tariffStageClear)) := rfl

include hs

theorem exec_tariffStageClear_busy (hc : s.tariffs.commit ≠ none) :
    exec (.tariffStageClear tag) s = .next ((s.answered tag .tariffStageClear (.plain .busy)).finish s) :=
  exec_read (exec_tariffStageClear_eq s tag) hs (ownStageClear_busy hc)

theorem exec_tariffStageClear_ok (hc : s.tariffs.commit = none) :
    exec (.tariffStageClear tag) s =
      .next (((s.putTariffs { s.tariffs with staged := emptyStaged }).answered tag .tariffStageClear (.plain .ok)).finish s) :=
  exec_request (exec_tariffStageClear_eq s tag) hs (ownStageClear_ok hc) hs.1

variable {band : Nat} {edge : Option Nat} {block rate : Nat}

theorem exec_tariffStageBand_busy (hc : s.tariffs.commit ≠ none) :
    exec (.tariffStageBand tag band edge block rate) s =
      .next ((s.answered tag (.tariffStageBand band edge block rate) (.plain .busy)).finish s) :=
  exec_read (exec_tariffStageBand_eq s tag band edge block rate) hs (ownStageBand_busy hc)

theorem exec_tariffStageBand_range (hc : s.tariffs.commit = none) {f : Field}
    (hf : bandRange band edge block rate = some f) :
    exec (.tariffStageBand tag band edge block rate) s =
      .next ((s.answered tag (.tariffStageBand band edge block rate) (.range f)).finish s) :=
  exec_read (exec_tariffStageBand_eq s tag band edge block rate) hs (ownStageBand_range (s := s.hold tag _) hc hf)

theorem exec_tariffStageBand_ok (hc : s.tariffs.commit = none) (hf : bandRange band edge block rate = none) :
    exec (.tariffStageBand tag band edge block rate) s =
      .next (((s.putTariffs { s.tariffs with
        staged := setEntry s.tariffs.staged band (some { edge := edge, block := block, rate := rate }) }).answered tag
          (.tariffStageBand band edge block rate) (.plain .ok)).finish s) :=
  exec_request (exec_tariffStageBand_eq s tag band edge block rate) hs (ownStageBand_ok hc hf) hs.1

end StagingRows

/-- Settles O27: each range of R81 fixes what `bandRange` names, and the rows' lemmas give the state and the reply. -/
theorem stagingResult : Obligations.StagingResult := by
  refine ⟨fun tag band edge block rate s hs => ⟨exec_tariffStageBand_busy hs tag, fun hc => ?_⟩,
    fun tag s hs => ⟨exec_tariffStageClear_busy hs tag, exec_tariffStageClear_ok hs tag⟩⟩
  have names {f : Field} (hf : bandRange band edge block rate = some f) := exec_tariffStageBand_range hs tag hc hf
  exact ⟨fun hb => names (bandRange_band hb),
    fun h1 h8 he => names (bandRange_edge h1 h8 he),
    fun h1 h8 he => ⟨fun hb => names (bandRange_block h1 h8 he hb),
      fun hb1 hb60 => ⟨fun hr => names (bandRange_rate h1 h8 he hb1 hb60 hr),
        fun hr => exec_tariffStageBand_ok hs tag hc (bandRange_none h1 h8 he hb1 hb60 hr)⟩⟩⟩

end Sys2Proof.Machine
end

