-- ==== Sys2Proof/Proofs/Journal.lean ====
section
/-! PROOFS. JOURNAL_REOFFER (R165). -/

namespace Sys2Proof.Machine

section Reoffer

variable (s : State) (tag : Nat)

/-- Writing the journal's records leaves the request that the link has taken where it is. -/
theorem hold_putRecords (r : Request) (rs : List Record) :
    (s.hold tag r).putRecords rs = (s.putRecords rs).hold tag r := rfl

/-- The journal's owner reads the records and the retry limit only, so it reoffers alike with a request taken. -/
theorem ownReoffer_hold (r : Request) :
    ownReoffer (s.hold tag r) = ((ownReoffer s).1.hold tag r, (ownReoffer s).2) := by
  simp only [ownReoffer, hold_records, hold_settings, hold_recordsIn, hold_putRecords]

theorem exec_journalReoffer_eq :
    exec (.journalReoffer tag) s = .next (s.running (fun s => s.receiveRequest tag .journalReoffer)) := rfl

/-- At a ready part the row is the owner's effect, answered with the owner's reply. -/
theorem exec_journalReoffer_ready (hs : s.ready) :
    exec (.journalReoffer tag) s = .next (((ownReoffer s).1.answered tag .journalReoffer (ownReoffer s).2).finish s) :=
  exec_request (exec_journalReoffer_eq s tag) hs (ownReoffer_hold s tag .journalReoffer) hs.1

end Reoffer

/-- Settles O34: the owner's effect and reply, unfolded once, are those of R165. -/
theorem reofferResult : Obligations.ReofferResult := by
  intro tag s hs
  rw [exec_journalReoffer_ready s tag hs]
  simp only [ownReoffer, State.putRecords, State.recordsIn]

end Sys2Proof.Machine
end

