-- ==== Sys2Proof/Proofs/Machine.lean ====
section
/-! PROOFS. The step, the stopped part, the state after reset, what follows every command, and the credit law of R162. -/

namespace Sys2Proof.Machine

/-! ### The step and the rows -/

/-- Settles O1: the queue's front is what `step` matches on. -/
theorem stepTakesFront : Obligations.StepTakesFront := fun _ _ _ => rfl

/-- Every row but the three of power acts by an effect on a running part. -/
theorem exec_eq_running {c : Instr} (h : ofPower c = false) : ∃ f, ∀ s, exec c s = .next (s.running f) := by
  rcases exec_running c with rfl | ⟨l, rfl⟩ | ⟨l, rfl⟩ | rfl | ⟨f, _, he⟩
  · simp [ofPower] at h
  · simp [ofPower] at h
  · simp [ofPower] at h
  · exact ⟨_, fun _ => rfl⟩
  · exact ⟨f, he⟩

theorem State.running_of_stopped {s : State} (f : State → State) (h : s.power ≠ .running) : s.running f = s := if_neg h

theorem State.running_of_kept {s : State} {f : State → State} (h : s.power = .running) (hf : (f s).power = .running) :
    s.running f = (f s).finish s := by
  rw [State.running, if_pos h, if_pos hf]

@[simp] theorem State.finish_power (s b : State) : (s.finish b).power = s.power := power_of_steady (s.finish_steady b)

/-- A command of a running part that leaves it running ends with what follows every command. -/
theorem exec_finish {c : Instr} {s t : State} (hc : ofPower c = false) (hs : s.power = .running)
    (he : exec c s = .next t) (ht : t.power = .running) : ∃ u : State, u.power = .running ∧ t = u.finish s := by
  obtain ⟨f, hf⟩ := exec_eq_running hc
  rw [hf] at he
  cases he
  by_cases hu : (f s).power = .running
  · exact ⟨f s, hu, State.running_of_kept hs hu⟩
  · rw [State.running, if_pos hs, if_neg hu] at ht
    exact absurd ht hu

theorem step_of_idle {s : State} (h : s.pending = []) : step s = .next s.tick := by
  unfold step; rw [h]

/-- Settles O2: an empty queue ticks, and a row that is none of power's acts on a running part only. -/
theorem idleAndStoppedParts : Obligations.IdleAndStoppedParts := by
  refine ⟨fun s hp => ⟨fun hr => ?_, fun hr => ?_⟩, fun c s hs hc => ?_⟩
  · rw [step_of_idle hp, State.tick, if_pos hr]
  · rw [step_of_idle hp, State.tick, if_neg hr]
  · obtain ⟨f, hf⟩ := exec_eq_running hc
    rw [hf, State.running_of_stopped f hs]

/-- Settles O3: each field of the reset state is written out in its definition. -/
theorem resetState : Obligations.ResetState := by
  refine ⟨rfl, rfl, rfl, rfl, rfl, rfl, rfl, rfl, rfl, rfl, rfl, rfl, rfl, rfl, rfl, rfl, rfl, rfl, rfl, rfl, ?_, ?_, rfl,
    rfl, rfl, rfl, rfl, rfl, rfl, rfl, rfl, rfl, rfl, rfl, rfl, rfl, rfl⟩ <;> decide

/-! ### What every command keeps -/

/-- What every command keeps: the credit law, the holding places, and the bounds with the table sizes. -/
theorem exec_keeps {c : Instr} {s t : State} (h : exec c s = .next t) :
    (s.creditLaw → t.creditLaw) ∧ (s.holdingLaw → t.holdingLaw) ∧ (s.bounded ∧ s.sized → t.bounded ∧ t.sized) := by
  have of_lawful {u : State} (hl : Lawful s u) :
      (s.creditLaw → u.creditLaw) ∧ (s.holdingLaw → u.holdingLaw) ∧ (s.bounded ∧ s.sized → u.bounded ∧ u.sized) :=
    ⟨hl.credit, hl.holding, fun hb => ⟨hl.bounded hb.1, hl.sized hb.2⟩⟩
  rcases exec_running c with rfl | ⟨l, rfl⟩ | ⟨l, rfl⟩ | rfl | ⟨f, hf, he⟩
  · cases h
    split <;> exact ⟨id, id, id⟩
  · cases h
    exact of_lawful (State.losePower_lawful s l)
  · exact execStartUp_lawful l s t h
  · cases h
    exact of_lawful (execNoticeSent_lawful s)
  · rw [he] at h
    cases h
    exact of_lawful (hf.lawful s)

/-- A law that the passing of a millisecond and every command keep is kept by every step. -/
theorem step_induct {p : State → Prop} (htick : ∀ s, p s → p { s with elapsed := s.elapsed + 1 })
    (hqueue : ∀ s rest, p s → p { s with pending := rest })
    (hexec : ∀ c s t, p s → exec c s = .next t → p t) {s t : State} (hs : p s) (h : step s = .next t) : p t := by
  unfold step at h
  split at h
  · cases h
    unfold State.tick
    split
    · exact htick s hs
    · exact hs
  · exact hexec _ _ t (hqueue s _ hs) h

/-- Settles O5: no part of the credit law is time or the queue, and every command keeps it. -/
theorem creditLawIsKept : Obligations.CreditLawIsKept := fun _ _ hs h =>
  step_induct (p := State.creditLaw) (fun _ h => h) (fun _ _ h => h) (fun _ _ _ hs h => (exec_keeps h).1 hs) hs h

/-! ### Docks and nodes by number -/

/-- What the table of docks reads after an entry has been replaced. -/
theorem dock_setEntry (s : State) (d e : Nat) (x : Dock) :
    ({ s with docks := setEntry s.docks d x } : State).dock e =
      if e = d ∧ (entryAt s.docks d).isSome then x else s.dock e := by
  simp only [State.dock, entryAt_setEntry]
  split <;> rfl

theorem node_putNode (s : State) (d e : Nat) (n : Node) :
    (s.putNode d n).node e = if e = d ∧ (entryAt s.nodes d).isSome then n else s.node e := by
  simp only [State.node, State.putNode, entryAt_setEntry]
  split <;> rfl

/-- A dock that is configured stands in the table. -/
theorem entryAt_docks_of_configured {s : State} {d : Nat} (h : (s.dock d).configured = true) :
    (entryAt s.docks d).isSome = true := by
  unfold State.dock at h
  cases hd : entryAt s.docks d with
  | none => rw [hd] at h; simp [Dock.atStart] at h
  | some x => rfl

/-- A node that answers stands in the table. -/
theorem entryAt_nodes_of_answering {s : State} {d : Nat} (h : (s.node d).phase = .answering) :
    (entryAt s.nodes d).isSome = true := by
  unfold State.node at h
  cases hd : entryAt s.nodes d with
  | none => rw [hd] at h; simp [Node.atStart] at h
  | some x => rfl

@[simp] theorem State.issue_dock (s : State) (d e : Nat) (c : Command) : (s.issue d c).dock e = s.dock e := by
  rw [State.issue_eq]; split <;> rfl

/-! ### Indications (R22) -/

/-- Whether a dock's indicator is to be brought to its resting indication (R22). -/
def Dock.stale (x : Dock) : Prop := x.configured = true ∧ x.state ≠ .offline ∧ x.shown ≠ some x.resting

theorem State.showResting_of_stale {s : State} {d : Nat} (h : (s.dock d).stale) :
    s.showResting d =
      ({ s with docks := setEntry s.docks d { s.dock d with shown := some (s.dock d).resting } } : State).issue d
        (.show (s.dock d).resting) := if_pos h

theorem State.showResting_of_fresh {s : State} {d : Nat} (h : ¬ (s.dock d).stale) : s.showResting d = s := if_neg h

/-- A stale dock is told its resting indication, and its own is all that the showing changes. -/
theorem State.showResting_dock {s : State} {d : Nat} (h : (s.dock d).stale) (e : Nat) :
    (s.showResting d).dock e = if e = d then { s.dock d with shown := some (s.dock d).resting } else s.dock e := by
  rw [State.showResting_of_stale h, State.issue_dock, dock_setEntry]
  simp [entryAt_docks_of_configured h.1]

/-- A stale dock's node is given the SHOW where it answers. -/
theorem State.showResting_node {s : State} {d : Nat} (h : (s.dock d).stale) (e : Nat) :
    (s.showResting d).node e =
      if e = d ∧ (s.node d).phase = .answering then (s.node d).place (.show (s.dock d).resting) else s.node e := by
  rw [State.showResting_of_stale h, State.issue_eq, dock_setEntry]
  have hnode : ∀ ds e, ({ s with docks := ds } : State).node e = s.node e := fun _ _ => rfl
  simp only [hnode, entryAt_docks_of_configured h.1, h.1, and_self, if_true, true_and]
  by_cases ha : (s.node d).phase = .answering
  · rw [if_pos ha, node_putNode]
    simp [ha, hnode, entryAt_nodes_of_answering ha]
  · simp [ha, hnode]

theorem State.showResting_dock_other (s : State) {d e : Nat} (h : e ≠ d) : (s.showResting d).dock e = s.dock e := by
  by_cases hs : (s.dock d).stale
  · rw [State.showResting_dock hs, if_neg h]
  · rw [State.showResting_of_fresh hs]

theorem State.showResting_node_other (s : State) {d e : Nat} (h : e ≠ d) : (s.showResting d).node e = s.node e := by
  by_cases hs : (s.dock d).stale
  · rw [State.showResting_node hs, if_neg (fun h' => h h'.1)]
  · rw [State.showResting_of_fresh hs]

/-- Over docks that do not repeat, each is shown by its own turn alone. -/
theorem State.foldl_showResting (l : List Nat) (hl : l.Nodup) (s : State) {d : Nat} (hd : d ∈ l) :
    (l.foldl State.showResting s).dock d = (s.showResting d).dock d ∧
      (l.foldl State.showResting s).node d = (s.showResting d).node d := by
  have untouched (l : List Nat) (s : State) (h : d ∉ l) :
      (l.foldl State.showResting s).dock d = s.dock d ∧ (l.foldl State.showResting s).node d = s.node d := by
    induction l generalizing s with
    | nil => exact ⟨rfl, rfl⟩
    | cons e l ih =>
      obtain ⟨hde, hdl⟩ : d ≠ e ∧ d ∉ l := by simpa using h
      have := ih (s.showResting e) hdl
      rwa [State.showResting_dock_other s hde, State.showResting_node_other s hde] at this
  induction l generalizing s with
  | nil => cases hd
  | cons e l ih =>
    obtain ⟨hel, hl⟩ := List.nodup_cons.1 hl
    rcases List.mem_cons.1 hd with rfl | hdl
    · exact untouched l _ hel
    · have hde : d ≠ e := fun h => hel (h ▸ hdl)
      have same : ((s.showResting e).showResting d).dock d = (s.showResting d).dock d ∧
          ((s.showResting e).showResting d).node d = (s.showResting d).node d := by
        have hdock := State.showResting_dock_other s hde
        have hnode := State.showResting_node_other s hde
        by_cases hs : (s.dock d).stale
        · rw [State.showResting_dock hs, State.showResting_node hs, State.showResting_dock (hdock ▸ hs),
            State.showResting_node (hdock ▸ hs), hdock, hnode]
          exact ⟨rfl, rfl⟩
        · rw [State.showResting_of_fresh hs, State.showResting_of_fresh (hdock ▸ hs)]
          exact ⟨hdock, hnode⟩
      rw [List.foldl_cons]
      exact (ih hl (s.showResting e) hdl).imp (·.trans same.1) (·.trans same.2)

theorem dockNumbers_nodup : dockNumbers.Nodup := List.nodup_range'

/-! ### What follows every command (R22, R167, R188) -/

@[simp] theorem State.raiseReady_docks (s b : State) : (s.raiseReady b).docks = s.docks := by
  unfold State.raiseReady; split <;> rfl

@[simp] theorem State.raiseReady_nodes (s b : State) : (s.raiseReady b).nodes = s.nodes := by
  unfold State.raiseReady; split <;> rfl

@[simp] theorem State.chooseFrame_docks (s : State) : s.chooseFrame.docks = s.docks := by
  unfold State.chooseFrame; split <;> rfl

@[simp] theorem State.chooseFrame_nodes (s : State) : s.chooseFrame.nodes = s.nodes := by
  unfold State.chooseFrame; split <;> rfl

@[simp] theorem State.chooseFrame_marks (s : State) : s.chooseFrame.link.marks = s.link.marks := by
  unfold State.chooseFrame; split <;> rfl

theorem State.finish_dock (s b : State) (d : Nat) : (s.finish b).dock d = s.showAll.dock d := by
  simp [State.dock, State.finish]

theorem State.finish_node (s b : State) (d : Nat) : (s.finish b).node d = s.showAll.node d := by
  simp [State.node, State.finish]

/-- What follows a command at one dock: its own showing. -/
theorem State.finish_at (s b : State) {d : Nat} (hd : d ∈ dockNumbers) :
    (s.finish b).dock d = (s.showResting d).dock d ∧ (s.finish b).node d = (s.showResting d).node d := by
  rw [State.finish_dock, State.finish_node]
  exact State.foldl_showResting dockNumbers dockNumbers_nodup s hd

@[simp] theorem State.issue_link (s : State) (d : Nat) (c : Command) : (s.issue d c).link = s.link := by
  rw [State.issue_eq]; split <;> rfl

@[simp] theorem State.showResting_link (s : State) (d : Nat) : (s.showResting d).link = s.link := by
  by_cases hs : (s.dock d).stale
  · rw [State.showResting_of_stale hs, State.issue_link]
  · rw [State.showResting_of_fresh hs]

@[simp] theorem State.showAll_link (s : State) : s.showAll.link = s.link :=
  foldl_keeps State.showResting (fun s => s.link) State.showResting_link dockNumbers s

/-- The steady view keeps the store. -/
theorem store_of_steady {s t : State} (h : s.steady = t.steady) : s.store = t.store := by
  simpa [State.steady] using congrArg State.store h

theorem backhaul_of_steady {s t : State} (h : s.steady = t.steady) : s.backhaul = t.backhaul := by
  simpa [State.steady] using congrArg State.backhaul h

/-- The readiness of the journal and its counts are read from the store and the backhaul state (R167). -/
theorem readyRaised_congr {b s t : State} (hs : s.store = t.store) (hb : s.backhaul = t.backhaul) :
    readyRaised b s = readyRaised b t := by
  unfold readyRaised State.journalReady State.recordsIn State.records State.settings
  rw [hs, hb]

theorem readyRaised_of_steady {b s t : State} (h : s.steady = t.steady) : readyRaised b s = readyRaised b t :=
  readyRaised_congr (store_of_steady h) (backhaul_of_steady h)

/-- What follows a command raises JOURNAL_READY where R167 asks for it. -/
theorem State.finish_marks (s b : State) :
    (s.finish b).link.marks = if readyRaised b s then s.link.marks.put .journalReady true else s.link.marks := by
  rw [State.finish, State.chooseFrame_marks, State.raiseReady, readyRaised_of_steady s.showAll_steady]
  split <;> simp

/-- Settles O8: the three cases of R167 are the cases of `readyRaised`. -/
theorem readinessIsNoticed : Obligations.ReadinessIsNoticed := by
  intro c s t hc _ hs he ht hraised
  obtain ⟨u, _, rfl⟩ := exec_finish hc hs he ht
  have hr : readyRaised s (u.finish s) = true := by
    simp only [readyRaised, Bool.or_eq_true, Bool.and_eq_true, bne_iff_ne, Bool.not_eq_true']
    tauto
  rw [readyRaised_of_steady (u.finish_steady s)] at hr
  rw [State.finish_marks, if_pos hr]
  rfl

/-- Settles O10: showing, raising and choosing each leave the steady view, and a dock that is not stale. -/
theorem finishFrame : Obligations.FinishFrame := by
  refine fun s before => ⟨s.finish_steady before, fun k hk => ?_, fun d hd hd' => ?_⟩
  · rw [State.finish_marks]
    split
    · rw [Marks.has_put]; simp [hk]
    · rfl
  · have fresh : ¬ (s.dock d).stale := by
      rintro ⟨h1, h2, h3⟩
      simp_all
    have := s.finish_at before hd
    rwa [State.showResting_of_fresh fresh, and_comm] at this

theorem Node.place_show_of_busy {n : Node} {c : CurrentCommand} (h : n.current = some c) (i : Indication) :
    n.place (.show i) =
      { n with waiting := n.waiting.filter (fun w => match w with | .show _ => false | _ => true) ++ [.show i] } := by
  have hf : (fun w : Command => w.cls != (Command.show i).cls) = fun w => match w with | .show _ => false | _ => true := by
    funext w; cases w <;> rfl
  rw [Node.place, hf, Node.promote, h]

theorem Node.place_show_of_free {n : Node} (h : n.current = none)
    (hw : n.waiting.filter (fun w => match w with | .show _ => false | _ => true) = []) (i : Indication) :
    n.place (.show i) =
      { n with
        current := some { command := .show i, number := n.counter, carried := false, deadline := none
                          acknowledged := false, unanswered := 0 }
        waiting := [], counter := wrapUp 255 n.counter } := by
  have hf : (fun w : Command => w.cls != (Command.show i).cls) = fun w => match w with | .show _ => false | _ => true := by
    funext w; cases w <;> rfl
  rw [Node.place, hf, hw, Node.promote, h]
  rfl

/-- Settles O9: after its turn a dock shows its resting indication, which the showing does not change. -/
theorem indicatorsFollow : Obligations.IndicatorsFollow := by
  refine ⟨fun c s t hc hs he ht => ?_, fun d s before hd hcfg hoff hsh => ?_⟩
  · obtain ⟨u, hu, rfl⟩ := exec_finish hc hs he ht
    refine ⟨fun d hd hcfg hoff => ?_, u, hu, rfl⟩
    rw [(u.finish_at s hd).1] at hcfg hoff ⊢
    by_cases hst : (u.dock d).stale
    · rw [State.showResting_dock hst, if_pos rfl]
      rfl
    · rw [State.showResting_of_fresh hst] at hcfg hoff ⊢
      exact not_not.1 fun h => hst ⟨hcfg, hoff, h⟩
  · have hst : (s.dock d).stale := ⟨hcfg, hoff, hsh⟩
    have hnode := (s.finish_at before hd).2.trans (State.showResting_node hst d)
    refine ⟨?_, fun hph => ?_, fun hph => ⟨fun c hc => ?_, fun hc hw => ?_⟩⟩
    · rw [(s.finish_at before hd).1, State.showResting_dock hst, if_pos rfl]
      rfl
    · rw [hnode, if_neg (fun h => hph h.2)]
    · rw [hnode, if_pos ⟨rfl, hph⟩]
      exact Node.place_show_of_busy hc _
    · rw [hnode, if_pos ⟨rfl, hph⟩]
      exact Node.place_show_of_free hc hw _

/-! ### The next frame (R184, R188) -/

/-- A notice waits where a mark is pending. -/
theorem Link.nextNotice_isSome_iff (l : Link) : l.nextNotice.isSome = true ↔ l.marks ≠ .none := by
  have hall : ∀ k, k ∈ searchOrder l.lastNotice := by
    intro k
    cases h : l.lastNotice with
    | none => cases k <;> simp [searchOrder]
    | some j => cases j <;> cases k <;> simp [searchOrder]
  have hnone : l.marks = .none ↔ ∀ k, l.marks.has k = false := by
    refine ⟨fun h k => by rw [h]; cases k <;> rfl, fun h => ?_⟩
    rcases hm : l.marks with ⟨j, a, v, p, d⟩
    rw [hm] at h
    have := h .journalReady
    have := h .attention
    have := h .vanState
    have := h .passState
    have := h .dockState
    simp_all [Marks.has, Marks.none]
  rw [Link.nextNotice, List.find?_isSome, Ne, hnone, not_forall]
  exact ⟨fun ⟨k, _, hk⟩ => ⟨k, by simp [hk]⟩, fun ⟨k, hk⟩ => ⟨k, hall k, by simpa using hk⟩⟩

/-- Choosing a frame reads nothing of the frame being sent. -/
theorem State.chooseFrame_sending (s : State) :
    s.chooseFrame.link.sending = if s.link.undecided then s.chooseFrame.link.choose else s.link.sending := by
  unfold State.chooseFrame
  split
  · rfl
  · rfl

theorem State.raiseReady_link (s b : State) : ∃ m, (s.raiseReady b).link = { s.link with marks := m } := by
  unfold State.raiseReady
  split
  · exact ⟨_, rfl⟩
  · exact ⟨s.link.marks, rfl⟩

/-- The frame sent after a command: chosen from the link as it then stands where the choice is open. -/
theorem State.finish_sending (s b : State) :
    (s.finish b).link.sending = if s.link.undecided then (s.finish b).link.choose else s.link.sending := by
  obtain ⟨m, hm⟩ := s.showAll.raiseReady_link b
  rw [State.showAll_link] at hm
  rw [State.finish, State.chooseFrame_sending, hm]
  rfl

theorem State.chooseFrame_link (s : State) : ∃ x, s.chooseFrame.link = { s.link with sending := x } := by
  unfold State.chooseFrame
  split
  · exact ⟨_, rfl⟩
  · exact ⟨s.link.sending, rfl⟩

theorem State.finish_busy (s b : State) : (s.finish b).link.busy = s.link.busy := by
  obtain ⟨m, hm⟩ := s.showAll.raiseReady_link b
  obtain ⟨x, hx⟩ := (s.showAll.raiseReady b).chooseFrame_link
  rw [State.finish, hx, hm, State.showAll_link]

/-- A made reply stands ready where it is the oldest request's. -/
theorem Link.replyReady_cons {l : Link} {h : Held} {rest : List Held} (hl : l.holding = h :: rest) :
    l.replyReady = h.reply.isSome := by
  simp [Link.replyReady, hl]

theorem Link.not_replyReady_iff (l : Link) :
    l.replyReady = false ↔ ∀ h rest, l.holding = h :: rest → h.reply = none := by
  unfold Link.replyReady
  cases hl : l.holding with
  | nil => simp
  | cons h rest => simp

theorem Link.noticeLast_iff (l : Link) : l.noticeLast = true ↔ ∃ n v, l.lastFrame = some (.notice n v) := by
  unfold Link.noticeLast
  split <;> simp_all

/-- Settles O11: the order of `Link.choose`, case by case. -/
theorem nextFrameIsChosen : Obligations.NextFrameIsChosen := by
  intro s before
  refine ⟨fun hne hs => ?_, fun hs hb => ?_, fun hs => ?_⟩
  · have : s.link.undecided = false := by
      rcases hs with h | h
      · cases hx : s.link.sending <;> simp_all [Link.undecided]
      · cases hx : s.link.sending <;> simp_all [Link.undecided]
    rw [State.finish_sending, this]
    rfl
  · have hu : s.link.undecided = true := by simp [Link.undecided, hs, hb]
    rw [State.finish_sending, if_pos hu, Link.choose, if_pos (by rwa [State.finish_busy])]
  · have hu : s.link.undecided = true := by simp [Link.undecided, hs]
    have hsend := s.finish_sending before
    rw [if_pos hu, Link.choose] at hsend
    intro t
    refine ⟨fun hb => ?_, fun hb h rest hl hr hlast => ?_, fun hb hm hlast => ?_, fun hb hm hl => ?_⟩
    · rw [hsend, if_pos hb]
    · have ready : t.link.replyReady = true := (Link.replyReady_cons hl).trans hr
      rw [hsend, if_neg (not_not.2 hb)]
      rcases hlast with hlast | hm
      · rw [if_pos ⟨ready, (Link.noticeLast_iff _).2 hlast⟩]
      · have : ¬ t.link.nextNotice.isSome = true := fun h => (Link.nextNotice_isSome_iff _).1 h hm
        rw [if_neg this, if_pos ready, ite_self]
    · have wait : ¬ (t.link.replyReady = true ∧ t.link.noticeLast = true) := by
        rintro ⟨ready, last⟩
        rcases hlast with hl | hl
        · rw [(Link.not_replyReady_iff _).2 hl] at ready
          cases ready
        · obtain ⟨n, v, h⟩ := (Link.noticeLast_iff _).1 last
          exact hl n v h
      rw [hsend, if_neg (not_not.2 hb), if_neg wait, if_pos ((Link.nextNotice_isSome_iff _).2 hm)]
    · have idle : (s.finish before).link.replyReady = false := (Link.not_replyReady_iff _).2 hl
      have quiet : ¬ t.link.nextNotice.isSome = true := fun h => (Link.nextNotice_isSome_iff _).1 h hm
      rw [hsend, if_neg (not_not.2 hb), if_neg (by simp [idle]), if_neg quiet, if_neg (by simp [idle])]

/-- The reset state's tables repeat one entry, so that each law is read off one dock or one slot. -/
theorem reset_dock (d : Nat) : State.reset.dock d = .atStart false := by
  unfold State.dock entryAt
  split
  · rfl
  · simp only [State.reset, List.getElem?_replicate]
    split <;> rfl

theorem reset_pass (slot : Nat) : State.reset.pass slot = none := by
  unfold State.pass entryAt
  split
  · rfl
  · simp only [State.reset, State.resetStore, PassRegion.default, Region.fresh, List.getElem?_replicate]
    split <;> rfl

theorem reset_releases : State.reset.releases = [] := by decide

theorem reset_safe : State.reset.safe := by
  unfold State.safe State.creditLaw State.holdingLaw State.bounded State.sized
  decide

/-- Settles O4: nothing is held, hired or reserved in the reset state, and its journal is written out. -/
theorem resetIsSafe : Obligations.ResetIsSafe := by
  refine ⟨reset_safe, fun l hl => ?_, fun r hr p hp => ?_, (by unfold State.hireLaw; decide), fun d e _ _ _ b c hb => ?_,
    ⟨fun x hx => ?_, by decide, rfl, by decide, by decide, by decide, by decide⟩, (by unfold State.numberLaw; decide),
    fun r hr => ?_, ⟨by decide, by decide, fun r hr => ?_⟩,
    ⟨fun h hh => (by cases hh), fun slot _ p hp => ?_, fun r hr => ?_, fun d _ e _ _ slot serial r q hr => ?_⟩,
    fun _ => ⟨by decide, fun e he => (by cases he), fun d _ x hx => ?_, fun d _ _ => (by rw [reset_dock]; rfl)⟩,
    ⟨fun _ d _ => (by rw [reset_dock]; rfl), fun d _ n => ?_, fun n m hm => ?_, fun h => (by cases h),
      fun d _ r crew n hr => ?_, fun h => (h rfl).elim⟩⟩
  · rcases hl with rfl | rfl <;> decide
  · have : r.slots = List.replicate 32 none := by rcases hr with rfl | rfl <;> rfl
    simp [this] at hp
  · rw [reset_dock] at hb; cases hb
  · rw [List.eq_of_mem_replicate (hx : x ∈ List.replicate 64 (Dock.atStart false))]
    simp [Dock.atStart]
  · rcases hr with rfl | rfl <;> decide
  · rw [reset_releases] at hr; cases hr
  · rw [reset_pass] at hp; cases hp
  · rw [reset_releases] at hr; cases hr
  · rw [reset_dock] at hr; cases hr
  · rw [reset_dock] at hx; cases hx
  · rw [reset_dock]
    exact ⟨fun h => (by cases h), fun h => (by cases h)⟩
  · simp [State.reset, Van.idleWith, entryAt] at hm
  · rw [reset_dock] at hr; cases hr

end Sys2Proof.Machine
end

