-- ==== Sys2Proof/Proofs/Layouts.lean ====
section
/-! PROOFS. The byte layouts of chapter 13 are read back: numbers, images, frames and request bodies. -/

namespace Sys2Proof.Machine

/-! ### Numbers (R200) -/

@[simp] theorem length_natBytes (n v : Nat) : (natBytes n v).length = n := by
  induction n with
  | zero => rfl
  | succ n ih => simp [natBytes, ih]

theorem beNat_foldl (bs : List Byte) (a : Nat) :
    bs.foldl (fun acc b => acc * 256 + b.toNat) a = a * 256 ^ bs.length + beNat bs := by
  induction bs generalizing a with
  | nil => simp [beNat]
  | cons b bs ih =>
    have hb : beNat (b :: bs) = (0 * 256 + b.toNat) * 256 ^ bs.length + beNat bs := ih _
    rw [List.foldl_cons, ih, hb, List.length_cons, Nat.pow_succ]
    ring

theorem beNat_cons (b : Byte) (bs : List Byte) : beNat (b :: bs) = b.toNat * 256 ^ bs.length + beNat bs := by
  rw [beNat, List.foldl_cons, beNat_foldl]; simp

/-- A number is read back from its bytes, as far as they hold it. -/
theorem beNat_natBytes_mod (n v : Nat) : beNat (natBytes n v) = v % 256 ^ n := by
  induction n with
  | zero => simp [natBytes, beNat, Nat.mod_one]
  | succ n ih =>
    have hmod : v % 256 ^ (n + 1) = v % 256 ^ n + 256 ^ n * (v / 256 ^ n % 256) := by rw [Nat.pow_succ, Nat.mod_mul]
    rw [natBytes, beNat_cons, length_natBytes, ih, BitVec.toNat_ofNat, hmod]
    ring

theorem beNat_natBytes {n v : Nat} (h : v < 256 ^ n) : beNat (natBytes n v) = v := by
  rw [beNat_natBytes_mod, Nat.mod_eq_of_lt h]

/-! ### Fields of a format -/

theorem drop_natBytes_append {n k : Nat} (h : n ≤ k) (v : Nat) (bs : List Byte) :
    (natBytes n v ++ bs).drop k = bs.drop (k - n) := by
  rw [List.drop_append, length_natBytes, List.drop_of_length_le (by simpa), List.nil_append]

/-- A field that starts after the number at the front is a field of what follows it. -/
theorem fieldAt_skip {n k : Nat} (h : n ≤ k) (v size : Nat) (bs : List Byte) :
    fieldAt (natBytes n v ++ bs) k size = fieldAt bs (k - n) size := by
  rw [fieldAt, fieldAt, drop_natBytes_append h]

theorem fieldAt_front {n v : Nat} (h : v < 256 ^ n) (bs : List Byte) : fieldAt (natBytes n v ++ bs) 0 n = v := by
  rw [fieldAt, List.drop_zero, List.take_append_of_le_length (by simp), List.take_of_length_le (by simp), beNat_natBytes h]

theorem fieldAt_whole {n v : Nat} (h : v < 256 ^ n) : fieldAt (natBytes n v) 0 n = v := by
  simpa using fieldAt_front h []

@[simp] theorem length_checkBytes (bs : List Byte) : (checkBytes bs).length = 2 := length_natBytes 2 _

/-- A format is read back: its content stands before its check (R200). -/
theorem checked_format {n : Nat} {content : List Byte} (h : content.length = n) :
    checked n (content ++ checkBytes content) = some content := by
  subst h
  simp [checked]

/-! ### Card and tag images (13.2, 13.3) -/

theorem cardImage_cardBytes {c : CardImage} (h1 : 1 ≤ c.member) (h2 : c.member ≤ 99999999) (h3 : c.plan ≤ 15)
    (h4 : c.expiryDay < 65536) (h5 : c.issue < 256) : cardImage (cardBytes c) = some c := by
  have hm : c.member < 256 ^ 4 := by omega
  have hp : c.plan < 256 ^ 1 := by omega
  have he : c.expiryDay < 256 ^ 2 := by omega
  have hi : c.issue < 256 ^ 1 := by omega
  rw [cardImage, cardBytes, checked_format (by simp)]
  simp only [List.append_assoc]
  rw [fieldAt_front hm, fieldAt_skip (by omega), fieldAt_front hp, fieldAt_skip (by omega), fieldAt_skip (by omega),
    fieldAt_front he, fieldAt_skip (by omega), fieldAt_skip (by omega), fieldAt_skip (by omega), fieldAt_whole hi]
  rw [if_neg (by omega)]

/-- The ids of a hirer fit the four bytes that hold them (13.3). -/
def Hirer.fits : Hirer → Prop
  | .pass slot serial => slot < 256 ∧ serial < 65536
  | .member id => id < 4294967296
  | .crew id => id < 4294967296
  | .remote id => id < 4294967296

@[simp] theorem length_hirerBytes (h : Hirer) : (hirerBytes h).length = 4 := by cases h <;> simp [hirerBytes]

theorem hirerOf_hirerBytes {h : Hirer} (hf : h.fits) : hirerOf (hirerCode h) (hirerBytes h) = some h := by
  cases h with
  | member id => simp only [hirerCode, hirerBytes, hirerOf, beNat_natBytes (show id < 256 ^ 4 from hf)]
  | crew id => simp only [hirerCode, hirerBytes, hirerOf, beNat_natBytes (show id < 256 ^ 4 from hf)]
  | remote id => simp only [hirerCode, hirerBytes, hirerOf, beNat_natBytes (show id < 256 ^ 4 from hf)]
  | pass slot serial =>
    obtain ⟨h1, h2⟩ := hf
    simp only [hirerCode, hirerBytes, hirerOf, List.append_assoc, fieldAt_front (show slot < 256 ^ 1 from h1),
      fieldAt_skip (le_refl 1), Nat.sub_self, fieldAt_front (show serial < 256 ^ 2 from h2)]

@[simp] theorem length_tagContent (t : TagImage) : (tagContent t).length = 22 := by cases t <;> simp [tagContent]

theorem tagImage_idle {b : Nat} (h1 : 1 ≤ b) (h2 : b ≤ 16777215) : tagImage (tagBytes (.idle b)) = some (.idle b) := by
  have hb : b < 256 ^ 3 := by omega
  have hbike : fieldAt (tagContent (.idle b)) 1 3 = b := by
    simp only [tagContent, List.append_assoc]
    rw [fieldAt_skip (le_refl 1), Nat.sub_self, fieldAt_front hb]
  have hmark : fieldAt (tagContent (.idle b)) 0 1 = 1 := by
    simp only [tagContent, List.append_assoc]
    rw [fieldAt_front (by decide)]
  simp only [tagImage, tagBytes, checked_format (length_tagContent _), hbike, hmark]
  rw [if_neg (by omega)]

theorem tagImage_onHire {i : TripImage} (h1 : 1 ≤ i.bikeId) (h2 : i.bikeId ≤ 16777215) (h3 : i.ref.station < 65536)
    (h4 : i.ref.count ≤ 16777215) (h5 : i.hirer.fits) (h6 : i.start ≤ Config.maxTime) (h7 : i.plan < 256)
    (h8 : i.generation < 256) (h9 : i.credit < 65536) : tagImage (tagBytes (.onHire i)) = some (.onHire i) := by
  have hstart : i.start < 256 ^ 4 := Nat.lt_of_le_of_lt h6 (by decide)
  have hcode : hirerCode i.hirer < 256 ^ 1 := by cases i.hirer <;> simp [hirerCode]
  obtain ⟨post, hpost⟩ : ∃ post, post = natBytes 4 i.start ++ (natBytes 1 i.plan ++ (natBytes 1 i.generation ++
    natBytes 2 i.credit)) := ⟨_, rfl⟩
  have hc : tagContent (.onHire i) = natBytes 1 2 ++ (natBytes 3 i.bikeId ++ (natBytes 2 i.ref.station ++
      (natBytes 3 i.ref.count ++ (natBytes 1 (hirerCode i.hirer) ++ (hirerBytes i.hirer ++ post))))) := by
    simp only [tagContent, hpost, List.append_assoc]
  have hskip (k size : Nat) (h : 4 ≤ k) : fieldAt (hirerBytes i.hirer ++ post) k size = fieldAt post (k - 4) size := by
    rw [fieldAt, fieldAt, List.drop_append, length_hirerBytes, List.drop_of_length_le (by simpa), List.nil_append]
  have f0 : fieldAt (tagContent (.onHire i)) 0 1 = 2 := by rw [hc, fieldAt_front (by decide)]
  have f1 : fieldAt (tagContent (.onHire i)) 1 3 = i.bikeId := by
    rw [hc, fieldAt_skip (by omega), fieldAt_front (by omega)]
  have f4 : fieldAt (tagContent (.onHire i)) 4 2 = i.ref.station := by
    rw [hc, fieldAt_skip (by omega), fieldAt_skip (by omega), fieldAt_front (by omega)]
  have f6 : fieldAt (tagContent (.onHire i)) 6 3 = i.ref.count := by
    rw [hc, fieldAt_skip (by omega), fieldAt_skip (by omega), fieldAt_skip (by omega), fieldAt_front (by omega)]
  have f9 : fieldAt (tagContent (.onHire i)) 9 1 = hirerCode i.hirer := by
    rw [hc, fieldAt_skip (by omega), fieldAt_skip (by omega), fieldAt_skip (by omega), fieldAt_skip (by omega),
      fieldAt_front hcode]
  have f10 : ((tagContent (.onHire i)).drop 10).take 4 = hirerBytes i.hirer := by
    rw [hc, drop_natBytes_append (by omega), drop_natBytes_append (by omega), drop_natBytes_append (by omega),
      drop_natBytes_append (by omega), drop_natBytes_append (by omega), List.drop_zero, List.take_left' (by simp)]
  have past (k size : Nat) (h : 14 ≤ k) : fieldAt (tagContent (.onHire i)) k size = fieldAt post (k - 14) size := by
    rw [hc, fieldAt_skip (by omega), fieldAt_skip (by omega), fieldAt_skip (by omega), fieldAt_skip (by omega),
      fieldAt_skip (by omega), hskip _ _ (by omega)]
    rfl
  have f14 : fieldAt (tagContent (.onHire i)) 14 4 = i.start := by
    rw [past _ _ (by omega), hpost, Nat.sub_self, fieldAt_front hstart]
  have f18 : fieldAt (tagContent (.onHire i)) 18 1 = i.plan := by
    rw [past _ _ (by omega), hpost, fieldAt_skip (by omega), fieldAt_front (by omega)]
  have f19 : fieldAt (tagContent (.onHire i)) 19 1 = i.generation := by
    rw [past _ _ (by omega), hpost, fieldAt_skip (by omega), fieldAt_skip (by omega), fieldAt_front (by omega)]
  have f20 : fieldAt (tagContent (.onHire i)) 20 2 = i.credit := by
    rw [past _ _ (by omega), hpost, fieldAt_skip (by omega), fieldAt_skip (by omega), fieldAt_skip (by omega),
      fieldAt_whole (by omega)]
  simp only [tagImage, tagBytes, checked_format (length_tagContent _), f0, f1, f4, f6, f9, f10, f14, f18, f19, f20,
    hirerOf_hirerBytes h5]
  rw [if_neg (by omega)]

/-! ### Frames (13.1, R182) -/

theorem frameView_frame {kind tag : Nat} {body : List Byte} (hk : kind < 256) (ht : tag < 256)
    (hb : body.length ≤ Config.maxBody) (rest : List Byte) :
    frameView (natBytes 2 (body.length + 2) ++ natBytes 1 kind ++ natBytes 1 tag ++ body ++
        checkBytes (natBytes 2 (body.length + 2) ++ natBytes 1 kind ++ natBytes 1 tag ++ body) ++ rest) =
      .whole (kind, tag, body) rest := by
  have hlen : body.length ≤ 4094 := hb
  obtain ⟨covered, hc⟩ : ∃ c, c = natBytes 2 (body.length + 2) ++ natBytes 1 kind ++ natBytes 1 tag ++ body := ⟨_, rfl⟩
  have hcl : covered.length = body.length + 4 := by rw [hc]; simp; omega
  have hn : beNat ((covered ++ checkBytes covered ++ rest).take 2) = body.length + 2 := by
    rw [hc]
    simp only [List.append_assoc]
    rw [List.take_append_of_le_length (by simp), List.take_of_length_le (by simp), beNat_natBytes (by omega)]
  have htake : (covered ++ checkBytes covered ++ rest).take (body.length + 2 + 2) = covered := by
    rw [List.append_assoc, List.take_append_of_le_length (by omega), List.take_of_length_le (by omega)]
  have hdrop : (covered ++ checkBytes covered ++ rest).drop (body.length + 2 + 2) = checkBytes covered ++ rest := by
    rw [List.append_assoc, ← hcl, List.drop_left]
  have hrest : (covered ++ checkBytes covered ++ rest).drop (body.length + 2 + 4) = rest := by
    have : body.length + 2 + 4 = (covered ++ checkBytes covered).length := by simp; omega
    rw [this, List.drop_left]
  have f2 : fieldAt covered 2 1 = kind := by
    rw [hc]; simp only [List.append_assoc]
    rw [fieldAt_skip (le_refl 2), Nat.sub_self, fieldAt_front (by omega)]
  have f3 : fieldAt covered 3 1 = tag := by
    rw [hc]; simp only [List.append_assoc]
    rw [fieldAt_skip (by omega), fieldAt_skip (by omega), fieldAt_front (by omega)]
  have fb : covered.drop 4 = body := by
    rw [hc]; simp only [List.append_assoc]
    rw [drop_natBytes_append (by omega), drop_natBytes_append (by omega), drop_natBytes_append (by omega), List.drop_zero]
  rw [← hc, frameView, if_neg (by simp; omega)]
  simp only [hn]
  rw [if_neg (by omega), if_neg (by simp; omega), htake, hdrop, List.take_left' (length_checkBytes _), if_pos rfl, f2, f3,
    fb, hrest]

/-- Settles O13: each layout holds its numbers in the bytes given to them. -/
theorem imagesAndFrames : Obligations.ImagesAndFrames := by
  refine ⟨⟨fun c => cardImage_cardBytes, fun b => tagImage_idle, fun i h1 h2 h3 h4 h5 => ?_⟩,
    fun gap kind tag fuel body rest hk ht hb => ?_⟩
  · have hf : i.hirer.fits := by cases hi : i.hirer <;> simpa [hi, Hirer.fits] using h5
    exact tagImage_onHire h1 h2 h3 h4 hf
  · rw [frameBytes, List.cons_append, receive, if_neg (not_not.2 rfl), frameView_frame hk ht hb]

/-! ### Request bodies (R183, R200) -/

theorem takeNat_fits {n v : Nat} (h : fits n v = true) (bs : List Byte) :
    takeNat n (natBytes n v ++ bs) = some (v, bs) := by
  have hv : v < 256 ^ n := by simpa [fits] using h
  rw [takeNat, if_neg (by simp), List.take_left' (by simp), List.drop_left' (by simp), beNat_natBytes hv]

theorem takeAll_fits {n v : Nat} (h : fits n v = true) (ns : List Nat) (bs : List Byte) :
    takeAll (n :: ns) (natBytes n v ++ bs) = (takeAll ns bs).map (v :: ·) := by
  rw [takeAll, takeNat_fits h]
  cases h' : takeAll ns bs <;> simp [h']

@[simp] theorem takeAll_nil : takeAll [] [] = some [] := rfl

/-- The last number of a body is all that is left of it. -/
theorem takeAll_last {n v : Nat} (h : fits n v = true) : takeAll [n] (natBytes n v) = some [v] := by
  have := takeAll_fits h [] []
  rwa [List.append_nil] at this

theorem takeNat_last {n v : Nat} (h : fits n v = true) : takeNat n (natBytes n v) = some (v, []) := by
  have := takeNat_fits h []
  rwa [List.append_nil] at this

/-- An optional number is read back from its presence byte and its bytes (R200). -/
theorem takeOpt_optBytes {n : Nat} {o : Option Nat} (h : o.all (fits n) = true) (bs : List Byte) :
    takeOpt n (optBytes (natBytes n) o ++ bs) = some (o, bs) := by
  cases o with
  | none => simp only [optBytes, takeOpt, takeNat_fits (show fits 1 0 = true by decide)]
  | some v =>
    have hv : fits n v = true := h
    simp only [optBytes, takeOpt, List.append_assoc, takeNat_fits (show fits 1 1 = true by decide), takeNat_fits hv]

theorem takeLoose_optBytes {n : Nat} {o : Option Nat} (h : o.all (fits n) = true) (filled : Bool) (bs : List Byte) :
    takeLoose filled n (optBytes (natBytes n) o ++ bs) = some (o, bs) := by
  have hopt := takeOpt_optBytes h bs
  rw [takeLoose]
  cases o with
  | none => simpa only [optBytes, List.append_assoc, takeNat_fits (show fits 1 0 = true by decide)] using hopt
  | some v => simpa only [optBytes, List.append_assoc, takeNat_fits (show fits 1 1 = true by decide)] using hopt

theorem fits_yesNo (b : Bool) : fits 1 (if b then 1 else 2) = true := by cases b <;> decide

/-- A manifest is read back entry by entry (R135). -/
theorem takeManifest_flatMap (m : List ManifestArg) (h : m.all ManifestArg.wf = true) :
    takeManifest m.length (m.flatMap manifestArgBytes) = some m := by
  induction m with
  | nil => rfl
  | cons x m ih =>
    obtain ⟨⟨⟨hk, hs⟩, hc⟩, hm⟩ : ((fits 1 x.kind = true ∧ x.selector.all (fits 1) = true) ∧ fits 1 x.count = true) ∧
        m.all ManifestArg.wf = true := by simpa [ManifestArg.wf] using h
    have hmark : ((if x.endMark then 1 else 2) == 1) = x.endMark := by cases x.endMark <;> rfl
    simp only [List.length_cons, List.flatMap_cons, takeManifest, manifestArgBytes, yesNo, List.append_assoc,
      takeNat_fits hk, takeLoose_optBytes hs, takeNat_fits hc, takeNat_fits (fits_yesNo _), ih hm, hmark]

theorem commitOf_requestBody {mode : CommitArg} (h : mode.wf = true) :
    commitOf (requestBody (.tariffCommit mode)) = some mode := by
  match mode, h with
  | .now, _ => rfl
  | .cancel, _ => rfl
  | .at t, h =>
    have ht : fits 4 t = true := h
    simp [requestBody, commitOf, takeNat_fits (show fits 1 2 = true by decide), takeAll_last ht]
  | .other m, h =>
    obtain ⟨hm, hne⟩ : fits 1 m = true ∧ (m = 0 ∨ 4 ≤ m) := by simpa [CommitArg.wf] using h
    rw [requestBody, commitOf, takeNat_last hm]
    dsimp only
    split
    · omega
    · omega
    · omega
    · simp

/-- The bytes of a reporter in a RIDER_REPORT body (R117). -/
def reporterArgBytes : ReporterArg → List Byte
  | .member m => natBytes 1 1 ++ natBytes 4 m
  | .passSlot p => natBytes 1 2 ++ natBytes 1 p
  | .anonymous => natBytes 1 3
  | .other p => natBytes 1 p

theorem reporterArgOf_bytes {x : ReporterArg} (h : x.wf = true) : reporterArgOf (reporterArgBytes x) = some x := by
  cases x with
  | member m =>
    have hm : fits 4 m = true := h
    simp [reporterArgOf, reporterArgBytes, takeNat_fits (show fits 1 1 = true by decide), takeAll_last hm]
  | passSlot p =>
    have hp : fits 1 p = true := h
    simp [reporterArgOf, reporterArgBytes, takeNat_fits (show fits 1 2 = true by decide), takeAll_last hp]
  | anonymous => rfl
  | other p =>
    obtain ⟨hp, hne⟩ : fits 1 p = true ∧ (p = 0 ∨ 4 ≤ p) := by simpa [ReporterArg.wf] using h
    rw [reporterArgBytes, reporterArgOf, takeNat_last hp]
    split
    · simp_all
    · simp_all
    · simp_all
    · rename_i heq
      cases heq
      simp
    · simp_all

theorem riderRest_bytes {kind source : Nat} {x : ReporterArg} (hk : fits 1 kind = true) (hs : fits 1 source = true)
    (hx : x.wf = true) (target : TargetArg) :
    riderRest target (natBytes 1 kind ++ (natBytes 1 source ++ reporterArgBytes x)) = some (.riderReport target kind source x) := by
  simp only [riderRest, takeNat_fits hk, takeNat_fits hs, reporterArgOf_bytes hx, Option.map_some]

/-- The bytes of a target in a RIDER_REPORT body (R117). -/
def targetBytes : TargetArg → List Byte
  | .dock d => natBytes 1 1 ++ natBytes 1 d
  | .bike b => natBytes 1 2 ++ natBytes 4 b
  | .other c => natBytes 1 c ++ natBytes 1 0

theorem requestBody_riderReport (target : TargetArg) (kind source : Nat) (x : ReporterArg) :
    requestBody (.riderReport target kind source x) =
      targetBytes target ++ (natBytes 1 kind ++ (natBytes 1 source ++ reporterArgBytes x)) := by
  simp only [requestBody, List.append_assoc]
  cases target <;> cases x <;> rfl

theorem riderReportOf_requestBody {target : TargetArg} {kind source : Nat} {x : ReporterArg} (ht : target.wf = true)
    (hk : fits 1 kind = true) (hs : fits 1 source = true) (hx : x.wf = true) :
    riderReportOf (requestBody (.riderReport target kind source x)) = some (.riderReport target kind source x) := by
  have rest := riderRest_bytes hk hs hx
  rw [requestBody_riderReport]
  cases target with
  | dock d =>
    have hd : fits 1 d = true := ht
    simp [riderReportOf, targetBytes, takeNat_fits (show fits 1 1 = true by decide), takeNat_fits hd, rest]
  | bike b =>
    have hb : fits 4 b = true := ht
    simp [riderReportOf, targetBytes, takeNat_fits (show fits 1 2 = true by decide), takeNat_fits hb, rest]
  | other c =>
    obtain ⟨hc, hne⟩ : fits 1 c = true ∧ (c = 0 ∨ 3 ≤ c) := by simpa [TargetArg.wf] using ht
    rw [targetBytes, riderReportOf, List.append_assoc, takeNat_fits hc]
    split
    · simp_all
    · simp_all
    · rename_i heq
      cases heq
      rw [takeNat_fits (by decide), Option.bind_some, rest]
    · simp_all

/-- Settles O12: each kind's fields are taken off its body in the order in which they were put there. -/
theorem requestBodiesReadBack : Obligations.RequestBodiesReadBack := by
  intro r hr
  cases r with
  | badKind k => cases hr
  | badLength k => cases hr
  | tariffCommit mode =>
    show (commitOf _).map _ = _
    rw [commitOf_requestBody hr]; rfl
  | riderReport target kind source x =>
    obtain ⟨⟨⟨ht, hk⟩, hs⟩, hx⟩ := by simpa [Request.wf] using hr
    exact riderReportOf_requestBody ht hk hs hx
  | vanOpen van crew m =>
    obtain ⟨⟨⟨hv, hc⟩, hl⟩, hm⟩ : ((fits 2 van = true ∧ fits 4 crew = true) ∧ m.length < 256) ∧
      m.all ManifestArg.wf = true := by simpa only [Request.wf, Bool.and_eq_true, decide_eq_true_eq] using hr
    have hn : fits 1 m.length = true := by simpa [fits] using hl
    simp only [requestKind, requestBody, requestOfBody, listBytes, List.append_assoc, takeNat_fits hv, takeNat_fits hc,
      takeNat_fits hn, takeManifest_flatMap m hm, Option.map_some]
  | terminalAuth t k h ref =>
    obtain ⟨⟨⟨ht, hk⟩, hh⟩, hl⟩ : ((fits 1 t = true ∧ fits 1 k = true) ∧ fits 2 h = true) ∧ ref.length = 12 := by
      simpa only [Request.wf, Bool.and_eq_true, beq_iff_eq] using hr
    have ht : t < 256 ^ 1 := by simpa [fits] using ht
    have hk : k < 256 ^ 1 := by simpa [fits] using hk
    have hh : h < 256 ^ 2 := by simpa [fits] using hh
    simp only [requestKind, requestBody, requestOfBody, List.append_assoc]
    rw [if_pos (by simp [hl]), fieldAt_front ht, fieldAt_skip (le_refl 1), fieldAt_front hk, fieldAt_skip (by omega),
      fieldAt_skip (by omega), fieldAt_front hh, drop_natBytes_append (by omega), drop_natBytes_append (by omega),
      drop_natBytes_append (by omega), List.drop_zero]
  | tariffStageBand band edge block rate =>
    obtain ⟨⟨⟨hb, he⟩, hk⟩, hr⟩ : ((fits 1 band = true ∧ edge.all (fits 2) = true) ∧ fits 1 block = true) ∧
      fits 2 rate = true := by simpa only [Request.wf, Bool.and_eq_true] using hr
    simp only [requestKind, requestBody, requestOfBody, List.append_assoc, takeNat_fits hb, takeLoose_optBytes he,
      takeAll_fits hk, takeAll_last hr, Option.map_some]
  | directive id k args =>
    obtain ⟨⟨hi, hk⟩, hl⟩ : (fits 4 id = true ∧ fits 1 k = true) ∧ args.length < 256 := by
      simpa only [Request.wf, Bool.and_eq_true, decide_eq_true_eq] using hr
    have hn : fits 1 args.length = true := by simpa [fits] using hl
    simp only [requestKind, requestBody, requestOfBody, List.append_assoc, takeNat_fits hi, takeNat_fits hk,
      takeNat_fits hn, if_true]
  | planSet code f =>
    simp only [Request.wf, PlanArgs.wf, Bool.and_eq_true] at hr
    obtain ⟨hc, ⟨⟨⟨⟨h1, h2⟩, h3⟩, h4⟩, h5⟩, h6⟩ := hr
    simp only [requestKind, requestBody, requestOfBody, List.append_assoc, takeAll_fits hc, takeAll_fits h1,
      takeAll_fits h2, takeAll_fits h3, takeAll_fits h4, takeAll_fits h5, takeAll_last h6, Option.map_some]
  | settingSet n v | passCancel n v =>
    simp only [Request.wf, Bool.and_eq_true] at hr
    simp only [requestKind, requestBody, requestOfBody, takeAll_fits hr.1, takeAll_last hr.2, Option.map_some]
  | policySet k c n | journalAck k c n =>
    simp only [Request.wf, Bool.and_eq_true] at hr
    obtain ⟨⟨h1, h2⟩, h3⟩ := hr
    simp only [requestKind, requestBody, requestOfBody, List.append_assoc, takeAll_fits h1, takeAll_fits h2,
      takeAll_last h3, Option.map_some]
  | statusGet | dockList | tariffStageClear | vanGet | journalReoffer => rfl
  | timeSet v | settingGet v | reset v | stringReset v | dockGet v | planGet v | passGet v | tariffGet v | policyGet v
  | vanRelease v | vanClose v | journalRead v | linkState v =>
    simp only [requestKind, requestBody, requestOfBody, takeAll_last hr]

end Sys2Proof.Machine
end

