-- ==== Sys2Proof/Proofs/Pricing.lean ====
section
/-! PROOFS. Validation of a staged table (R83) and pricing stages 1 and 5 to 8 (R92, R95 to R98). -/

namespace Sys2Proof.Machine

/-! ### Validation (R83) -/

/-- The edges from band `i` on rise, above the edge before them but for band 1, which has none before it (R83). -/
def edgesRise (i before : Nat) (edges : List Nat) : Prop :=
  (2 ≤ i → ∀ e ∈ edges, before < e) ∧ edges.Pairwise (· < ·)

theorem edgesRise_cons {i before e : Nat} {edges : List Nat} (hi : 1 ≤ i) :
    edgesRise i before (e :: edges) ↔ ¬ (2 ≤ i ∧ e ≤ before) ∧ edgesRise (i + 1) e edges := by
  unfold edgesRise
  rw [List.pairwise_cons]
  constructor
  · rintro ⟨h1, h2, h3⟩
    refine ⟨fun ⟨h, he⟩ => ?_, fun _ => h2, h3⟩
    have := h1 h e List.mem_cons_self
    omega
  · rintro ⟨h1, h2, h3⟩
    refine ⟨fun h x hx => ?_, h2 (by omega), h3⟩
    rcases List.mem_cons.1 hx with rfl | hx
    · omega
    · have := h2 (by omega) x hx
      omega

/-- The examination finds no fault where every band but the last has an edge, the edges rise, and the last is UNBOUNDED
(R83). -/
theorem examineBands_none_iff (l : List (Option Band)) (hl : l ≠ []) (i before : Nat) (hi : 1 ≤ i) :
    examineBands i before l = none ↔ ∃ (bounded : List Band) (last : Band), l = (bounded ++ [last]).map some ∧
      last.edge = none ∧ (∀ b ∈ bounded, b.edge ≠ none) ∧ edgesRise i before (bounded.filterMap (fun b => b.edge)) := by
  induction l generalizing i before with
  | nil => exact absurd rfl hl
  | cons x l ih =>
    cases x with
    | none =>
      refine ⟨fun h => by simp [examineBands] at h, ?_⟩
      rintro ⟨bounded, last, h, _⟩
      cases bounded <;> simp at h
    | some b =>
      cases l with
      | nil =>
        constructor
        · intro h
          have hb : b.edge = none := by
            cases he : b.edge with
            | none => rfl
            | some e => simp [examineBands, he] at h
          exact ⟨[], b, rfl, hb, by simp, by simp [edgesRise]⟩
        · rintro ⟨bounded, last, h, hlast, _⟩
          cases bounded with
          | nil =>
            obtain rfl : b = last := by simpa using h
            simp [examineBands, hlast]
          | cons c bounded => simp at h
      | cons y l =>
        have ih := ih (by simp)
        cases he : b.edge with
        | none =>
          refine ⟨fun h => by simp [examineBands, he] at h, ?_⟩
          rintro ⟨bounded, last, h, _, hb, _⟩
          cases bounded with
          | nil => simp at h
          | cons c bounded =>
            obtain rfl : b = c := by simp at h; exact h.1
            exact absurd he (hb b List.mem_cons_self)
        | some e =>
          have hex : examineBands i before (some b :: y :: l) = none ↔
              ¬ (2 ≤ i ∧ e ≤ before) ∧ examineBands (i + 1) e (y :: l) = none := by
            rw [examineBands, he]
            · dsimp only
              split <;> simp_all
            · simp
          rw [hex, ih (i + 1) e (by omega)]
          constructor
          · rintro ⟨hne, bounded, last, hl, hlast, hb, hr⟩
            refine ⟨b :: bounded, last, by simp [hl], hlast, ?_, ?_⟩
            · intro c hc
              rcases List.mem_cons.1 hc with rfl | hc
              · simp [he]
              · exact hb c hc
            · rw [List.filterMap_cons, he]
              exact (edgesRise_cons hi).2 ⟨hne, hr⟩
          · rintro ⟨bounded, last, hl, hlast, hb, hr⟩
            cases bounded with
            | nil => simp at hl
            | cons c bounded =>
              obtain ⟨rfl, htail⟩ : b = c ∧ y :: l = (bounded ++ [last]).map some := by simpa using hl
              rw [List.filterMap_cons, he] at hr
              obtain ⟨hne, hr⟩ := (edgesRise_cons hi).1 hr
              exact ⟨hne, bounded, last, htail, hlast, fun c hc => hb c (List.mem_cons_of_mem _ hc), hr⟩

/-- What follows the highest filled position is empty (R83). -/
theorem stagedUpTo_append (staged : List (Option Band)) : ∃ n, staged = stagedUpTo staged ++ List.replicate n none := by
  refine ⟨(staged.reverse.takeWhile (fun b => b.isNone)).length, ?_⟩
  have hrep : staged.reverse.takeWhile (fun b => b.isNone) =
      List.replicate (staged.reverse.takeWhile (fun b => b.isNone)).length none :=
    List.eq_replicate_of_mem fun b hb => by simpa using List.mem_takeWhile_imp hb
  have := congrArg List.reverse (List.takeWhile_append_dropWhile (p := fun b : Option Band => b.isNone) (l := staged.reverse))
  rw [List.reverse_reverse, List.reverse_append, hrep, List.reverse_replicate] at this
  exact this.symm

theorem stagedUpTo_of_filled (bounded : List Band) (last : Band) (n : Nat) :
    stagedUpTo ((bounded ++ [last]).map some ++ List.replicate n none) = (bounded ++ [last]).map some := by
  have hdrop : (List.replicate n (none : Option Band) ++ ((bounded ++ [last]).map some).reverse).dropWhile
      (fun b => b.isNone) = ((bounded ++ [last]).map some).reverse := by
    induction n with
    | zero => simp
    | succ n ih => rw [List.replicate_succ, List.cons_append, List.dropWhile_cons, if_pos (show (none : Option Band).isNone = true from rfl), ih]
  rw [stagedUpTo, List.reverse_append, List.reverse_replicate, hdrop, List.reverse_reverse]

theorem validateStaged_none_iff (staged : List (Option Band)) :
    validateStaged staged = none ↔ stagedUpTo staged ≠ [] ∧ examineBands 1 0 (stagedUpTo staged) = none := by
  unfold validateStaged
  split <;> simp_all

/-! ### The base charge of a table (R95) -/

theorem bandMinutes_none (c lo : Nat) : bandMinutes c lo none = c - lo := by
  unfold bandMinutes
  split
  · rfl
  · omega

theorem bandMinutes_some (c lo hi : Nat) : bandMinutes c lo (some hi) = if lo < c then min c hi - lo else 0 := rfl

theorem ceilDiv_one (a : Nat) : ceilDiv a 1 = a := by simp [ceilDiv]

theorem ceilDiv_le (a : Nat) {b : Nat} (hb : 0 < b) : ceilDiv a b ≤ a := by
  have := mul_ceilDiv_lt a hb
  by_contra h
  have : b * (a + 1) ≤ b * ceilDiv a b := Nat.mul_le_mul_left b (by omega)
  have : a ≤ b * a := Nat.le_mul_of_pos_left a hb
  rw [Nat.mul_add] at *
  omega

/-- With one unit a minute the bands above `lo` charge the minutes above it. -/
theorem bandsCharge_units (c : Nat) (edges : List Nat) (lo : Nat) (hlo : ∀ e ∈ edges, lo < e)
    (hr : edges.Pairwise (· < ·)) :
    bandsCharge c lo (edges.map (fun e => { edge := some e, block := 1, rate := 1 }) ++
      [{ edge := none, block := 1, rate := 1 }]) = c - lo := by
  induction edges generalizing lo with
  | nil =>
    simp only [List.map_nil, List.nil_append, bandsCharge, bandMinutes_none, ceilDiv_one]
    omega
  | cons e edges ih =>
    obtain ⟨he, hr⟩ := List.pairwise_cons.1 hr
    have hle := hlo e List.mem_cons_self
    simp only [List.map_cons, List.cons_append, bandsCharge, bandMinutes_some, ceilDiv_one, Option.getD_some, ih e he hr]
    split <;> omega

/-- Settles O16: trailing empty positions fall away, and the rest is examined band by band. -/
theorem validTables : Obligations.ValidTables := by
  refine ⟨fun staged => ?_, fun edges c hr hpos => by simpa using bandsCharge_units c edges 0 hpos hr⟩
  rw [validateStaged_none_iff]
  constructor
  · rintro ⟨hne, hex⟩
    obtain ⟨bounded, last, hl, hlast, hb, _, hr⟩ := (examineBands_none_iff _ hne 1 0 (le_refl 1)).1 hex
    obtain ⟨n, hn⟩ := stagedUpTo_append staged
    rw [hl] at hn
    exact ⟨bounded, last, n, hn, hlast, hb, hr⟩
  · rintro ⟨bounded, last, n, rfl, hlast, hb, hr⟩
    rw [stagedUpTo_of_filled]
    have hne : (bounded ++ [last]).map some ≠ [] := by simp
    exact ⟨hne, (examineBands_none_iff _ hne 1 0 (le_refl 1)).2 ⟨bounded, last, rfl, hlast, hb, by simp, hr⟩⟩

/-- The edge below band `i` of a table whose bands stand above `lo` (R95). -/
def lowerEdge (lo : Nat) (edges : List Nat) (i : Nat) : Nat := if i = 0 then lo else edges.getD (i - 1) 0

/-- The base charge is the sum of what its bands charge, each from its own lower edge on (R95). -/
theorem bandsCharge_eq_sum (c : Nat) (bounded : List Band) (last : Band) (hlast : last.edge = none)
    (hb : ∀ b ∈ bounded, b.edge ≠ none) (lo : Nat) :
    bandsCharge c lo (bounded ++ [last]) =
      ((bounded ++ [last]).zipIdx.map (fun b =>
        ceilDiv (bandMinutes c (lowerEdge lo (bounded.filterMap (fun b => b.edge)) b.2)
          (bounded.filterMap (fun b => b.edge))[b.2]?) b.1.block * b.1.rate)).sum := by
  induction bounded generalizing lo with
  | nil => simp [bandsCharge, hlast, lowerEdge]
  | cons b bounded ih =>
    obtain ⟨e, he⟩ := Option.ne_none_iff_exists'.1 (hb b List.mem_cons_self)
    have ih := ih (fun b h => hb b (List.mem_cons_of_mem _ h)) e
    rw [List.cons_append, bandsCharge, he, Option.getD_some, ih, List.zipIdx_cons', List.map_cons, List.sum_cons,
      List.filterMap_cons, he, List.map_map]
    congr 2
    refine List.map_congr_left fun x _ => ?_
    obtain ⟨y, i⟩ := x
    cases i <;> rfl

/-- With rising edges and rates of at most 5000 cents a table charges at most 5000 cents a minute (R95). -/
theorem bandsCharge_le (c : Nat) (bounded : List Band) (last : Band) (hlast : last.edge = none)
    (hb : ∀ b ∈ bounded, b.edge ≠ none) (hblock : ∀ b ∈ bounded ++ [last], 0 < b.block)
    (hrate : ∀ b ∈ bounded ++ [last], b.rate ≤ 5000) (lo : Nat)
    (hlo : ∀ e ∈ bounded.filterMap (fun b => b.edge), lo < e)
    (hr : (bounded.filterMap (fun b => b.edge)).Pairwise (· < ·)) :
    bandsCharge c lo (bounded ++ [last]) ≤ 5000 * (c - lo) := by
  have share (m : Nat) {b : Band} (hk : 0 < b.block) (hr : b.rate ≤ 5000) : ceilDiv m b.block * b.rate ≤ m * 5000 :=
    Nat.mul_le_mul (ceilDiv_le m hk) hr
  induction bounded generalizing lo with
  | nil =>
    have hk := hblock last (by simp)
    have := share (c - lo) hk (hrate last (by simp))
    simp only [List.nil_append, bandsCharge, hlast, bandMinutes_none]
    omega
  | cons b bounded ih =>
    obtain ⟨e, he⟩ := Option.ne_none_iff_exists'.1 (hb b List.mem_cons_self)
    rw [List.filterMap_cons, he] at hlo hr
    obtain ⟨hpe, hr⟩ := List.pairwise_cons.1 hr
    have hle : lo < e := hlo e List.mem_cons_self
    have ih := ih (fun b h => hb b (List.mem_cons_of_mem _ h)) (fun b h => hblock b (List.mem_cons_of_mem _ h))
      (fun b h => hrate b (List.mem_cons_of_mem _ h)) e hpe hr
    have := share (bandMinutes c lo (some e)) (hblock b (by simp)) (hrate b (by simp))
    have hm : bandMinutes c lo (some e) + (c - e) = c - lo := by
      rw [bandMinutes_some]
      split <;> omega
    rw [List.cons_append, bandsCharge, he, Option.getD_some]
    omega

/-! ### The table that prices a generation (R95) -/

theorem tableFor_current {t : TariffSet} {g : Nat} (h : g = t.current.generation) : t.tableFor g = (t.current, false) :=
  if_pos h

theorem tableFor_previous {t : TariffSet} {g : Nat} (h : g ≠ t.current.generation) {q : Tariff} (hq : t.previous = some q)
    (hg : g = q.generation) : t.tableFor g = (q, false) := by
  rw [TariffSet.tableFor, if_neg h, hq]
  exact if_pos hg

theorem tableFor_stale {t : TariffSet} {g : Nat} (h : g ≠ t.current.generation)
    (hq : ∀ q, t.previous = some q → g ≠ q.generation) : t.tableFor g = (t.current, true) := by
  rw [TariffSet.tableFor, if_neg h]
  cases hp : t.previous with
  | none => rfl
  | some q => exact if_neg (hq q hp)

theorem priceTrip_usedGeneration (t : TariffSet) (p : Plan) (i : TripImage) (dock e extra : Nat) :
    (priceTrip t p i dock e extra).usedGeneration = some (t.tableFor i.generation).1.generation := rfl

theorem priceTrip_tariffStale (t : TariffSet) (p : Plan) (i : TripImage) (dock e extra : Nat) :
    (priceTrip t p i dock e extra).flags.tariffStale = (t.tableFor i.generation).2 := rfl

/-- Settles O17: the charge of a table band by band, and the table by its generation. -/
theorem tableStage : Obligations.TableStage := by
  refine ⟨fun bounded last c hlast hb hblock => ⟨?_, fun hr hpos hrate => ?_⟩, fun block rate c hblock => ?_,
    fun t p i dock e extra => ⟨rfl, fun h => ?_, fun h q hq hg => ?_, fun h hq => ?_⟩⟩
  · rw [bandsCharge_eq_sum c bounded last hlast hb 0]
    refine congrArg List.sum (List.map_congr_left fun x _ => ?_)
    unfold ceilDiv bandMinutes lowerEdge
    dsimp only
    cases (bounded.filterMap (fun b => b.edge))[x.2]? <;> rfl
  · simpa using bandsCharge_le c bounded last hlast hb hblock hrate 0 hpos hr
  · refine ⟨ceilDiv c block, ?_, ?_, ?_⟩
    · simp [bandsCharge, bandMinutes_none]
    · rw [mul_comm]; exact le_mul_ceilDiv c hblock
    · rw [mul_comm]; exact mul_ceilDiv_lt c hblock
  · rw [priceTrip_usedGeneration, priceTrip_tariffStale, tableFor_current h]
    exact ⟨rfl, rfl⟩
  · rw [priceTrip_usedGeneration, priceTrip_tariffStale, tableFor_previous h hq hg]
    exact ⟨rfl, rfl, rfl⟩
  · rw [priceTrip_usedGeneration, priceTrip_tariffStale, tableFor_stale h hq]
    exact ⟨rfl, rfl, rfl⟩

/-! ### The percent, the fee, the credits and the fare (R92, R96 to R98) -/

/-- Settles O18: the rounding is the division that `priceTrip` writes. -/
theorem percentStage : Obligations.PercentStage := by
  intro t p i dock e extra
  refine ⟨_, _, rfl, rfl, rfl, fun h => ?_, fun h => ?_, fun h => ?_, fun hp hg => ?_, fun h => ?_, fun h => ?_⟩
  · rw [h]; omega
  · rw [h]; omega
  · rw [h]; omega
  · have := Nat.mul_le_mul hg hp
    omega
  · rw [h]
  · rw [h]

theorem priceTrip_fare_le_ceiling (t : TariffSet) (p : Plan) (i : TripImage) (dock e extra : Nat) :
    (priceTrip t p i dock e extra).fare ≤ p.ceiling :=
  (Nat.min_le_right _ _).trans (Nat.min_le_left _ _)

theorem priceTrip_fare_le (t : TariffSet) (p : Plan) (i : TripImage) (dock e extra : Nat) :
    (priceTrip t p i dock e extra).fare ≤ 65535 :=
  (Nat.min_le_right _ _).trans (Nat.min_le_right _ _)

/-- Settles O19: the last stages are minima and differences, and stage 1 is the first match of `priceReturn`. -/
theorem creditsAndTheFare : Obligations.CreditsAndTheFare := by
  refine ⟨fun t p i dock e extra => ⟨rfl, rfl, _, _, rfl, rfl, rfl, ?_, Nat.min_le_left _ _,
    priceTrip_fare_le_ceiling .., priceTrip_fare_le .., ?_, decide_eq_true_iff⟩,
    fun t plans credit i dock eligible startup => ⟨⟨rfl, rfl, rfl, rfl⟩, fun e => ⟨fun h => ?_, fun p h hp => ?_⟩⟩⟩
  · omega
  · simp only [priceTrip, Config.maxFare]
    omega
  · simp [priceReturn, h, cutOut, CloseFlags.clear]
  · have heq : priceReturn t plans credit i dock (some e) eligible startup =
        priceTrip t p i dock e (if eligible then credit else 0) := by
      have : planEntry plans i.plan = p := by simp [planEntry, List.getD, hp]
      rw [priceReturn, if_neg h, this]
    rw [heq]
    exact ⟨rfl, priceTrip_fare_le_ceiling .., priceTrip_fare_le ..⟩

end Sys2Proof.Machine
end

