-- ==== Sys2Proof/Proofs/Requests.lean ====
section
/-! PROOFS. How the link takes a request (R182, R184), and the requests that only read. -/

namespace Sys2Proof.Machine

/-- A request row receives its request (R184). -/
theorem exec_of_request {i : Instr} {tag : Nat} {r : Request} (h : i.request? = some (tag, r)) (s : State) :
    exec i s = .next (s.running (fun s => s.receiveRequest tag r)) := by
  cases i <;> cases h <;> rfl

/-- A request row of a ready part, where the owner's effect and reply are known (R184). -/
theorem exec_answer {i : Instr} {tag : Nat} {r : Request} (h : i.request? = some (tag, r)) {s t : State} {reply : Reply}
    (hs : s.ready) (ho : own r (s.hold tag r) = (t.hold tag r, reply)) (ht : t.power = .running) :
    exec i s = .next ((t.answered tag r reply).finish s) :=
  exec_request (exec_of_request h s) hs ho ht

/-- A request row of a ready part whose owner changes nothing. -/
theorem exec_reply {i : Instr} {tag : Nat} {r : Request} (h : i.request? = some (tag, r)) {s : State} {reply : Reply}
    (hs : s.ready) (ho : own r (s.hold tag r) = (s.hold tag r, reply)) :
    exec i s = .next ((s.answered tag r reply).finish s) :=
  exec_read (exec_of_request h s) hs ho

/-! ### Requests that wait (R184) -/

theorem State.takeRequest_busy {s : State} (h : 4 ≤ s.link.holding.length) (tag : Nat) (r : Request) :
    s.takeRequest tag r = { s with link := { s.link with busy := s.link.busy ++ [(requestKind r, tag)] } } := if_pos h

theorem State.takeRequest_waits {s : State} (hne : s.link.holding ≠ []) (h : s.link.holding.length < 4) (tag : Nat)
    (r : Request) :
    s.takeRequest tag r =
      { s with link := { s.link with holding := s.link.holding ++ [{ tag := tag, request := r, reply := none }] } } := by
  rw [State.takeRequest, if_neg (by unfold Config.holdingPlaces; omega)]
  exact if_neg hne

/-- A frame whose bytes hold one whole frame hands that one on as its request before it (R182). -/
theorem State.searchAgain_one {s : State} {kind tag : Nat} {body : List Byte} (h : s.link.buried = [(kind, tag, body)]) :
    s.searchAgain =
      ({ s with link := { s.link with receiving := [] } } : State).takeRequest tag (requestOfFrame kind body) := by
  simp [State.searchAgain, h, State.takeFrames, State.putLink]

/-- Settles O20: the request joins the list behind those held, or is answered BUSY. -/
theorem requestsWait : Obligations.RequestsWait := by
  intro i tag r s hi hs
  have row {u : State} (hu : s.receiveRequest tag r = u) (hp : u.power = .running) : exec i s = .next (u.finish s) :=
    exec_event (exec_of_request hi s) hs hu hp
  refine ⟨fun hq => ⟨fun hne h => ?_, fun h => ?_⟩, fun kind tag' body hb hne h => ?_⟩
  · exact row ((congrArg (fun u : State => u.takeRequest tag r) (State.searchAgain_quiet hq)).trans
      (State.takeRequest_waits (s := { s with link := { s.link with receiving := [] } }) hne h tag r)) hs
  · exact row ((congrArg (fun u : State => u.takeRequest tag r) (State.searchAgain_quiet hq)).trans
      (State.takeRequest_busy (s := { s with link := { s.link with receiving := [] } }) h tag r)) hs
  · have first := (State.searchAgain_one hb).trans
      (State.takeRequest_waits (s := { s with link := { s.link with receiving := [] } }) hne (Nat.lt_succ_of_lt h) tag'
        (requestOfFrame kind body))
    refine row ((congrArg (fun u : State => u.takeRequest tag r) first).trans
      ((State.takeRequest_waits (by simp) (by simp; omega) tag r).trans ?_)) hs
    simp

/-! ### Requests that only read -/

theorem ownSettingGet_eq (n : Nat) (s : State) :
    ownSettingGet n s = (s, if n = 22 then { status := .ok, result := .settings (settingNames.map s.readSetting) }
       else match settingOf n with
        | some x => { status := .ok, result := .settings [(x, s.inForce x, if x.atStart then some (s.stored x) else none)] }
        | none => { status := .outOfRange, result := .field .setting }) := by
  unfold ownSettingGet
  split
  · rfl
  · cases settingOf n <;> rfl

theorem ownDockGet_of_range {d : Nat} (h : 1 ≤ d ∧ d ≤ 64) (s : State) :
    ownDockGet d s = (s, { status := .ok, result := .dock (s.dockReport d) }) := if_neg (by omega)

theorem ownDockGet_range {d : Nat} (h : ¬ (1 ≤ d ∧ d ≤ 64)) (s : State) : ownDockGet d s = (s, .range .dock) :=
  if_pos (by omega)

theorem ownPlanGet_eq {s : State} (h : s.plans.length = 16) (code : Nat) :
    ownPlanGet code s = (s, match s.plans[code]? with
        | some p => { status := .ok, result := .plan p }
        | none => { status := .outOfRange, result := .field .code }) := by
  unfold ownPlanGet
  cases hc : s.plans[code]? with
  | none => rfl
  | some p =>
    have : code < 16 := h ▸ (List.getElem?_eq_some_iff.1 hc).1
    exact if_neg (by omega)

theorem ownPassGet_of_range {slot : Nat} (h : 1 ≤ slot ∧ slot ≤ 32) (s : State) :
    ownPassGet slot s = (s, match s.pass slot with
        | none => { status := .ok, result := .passFree }
        | some p => { status := .ok, result := .pass p p.balance (s.passInFlight slot p.serial) }) := by
  rw [ownPassGet, if_neg (by omega)]
  cases s.pass slot <;> rfl

theorem ownPassGet_range {slot : Nat} (h : ¬ (1 ≤ slot ∧ slot ≤ 32)) (s : State) : ownPassGet slot s = (s, .range .slot) :=
  if_pos (by omega)

theorem ownTariffGet_eq (n : Nat) (s : State) :
    ownTariffGet n s = (s, if n = 1 then { status := .ok, result := .tariff s.tariffs.summary s.tariffs.current.bands }
       else if n = 2 then
        { status := .ok
          result := .tariff s.tariffs.summary (match s.tariffs.previous with | some q => q.bands | none => []) }
       else if n = 3 then { status := .ok, result := .staged s.tariffs.summary s.tariffs.staged }
       else { status := .outOfRange, result := .field .selector }) := by
  unfold ownTariffGet
  dsimp only
  split
  · rfl
  · cases s.tariffs.previous <;> rfl
  · rfl
  · rename_i h1 h2 h3
    rw [if_neg h1, if_neg h2, if_neg h3]
    rfl

theorem ownPolicyGet_eq (k : Nat) (s : State) :
    ownPolicyGet k s = (s, if k = 9 then { status := .ok, result := .policies s.store.settings.cur.policy }
       else match entryAt s.store.settings.cur.policy k with
        | some p => { status := .ok, result := .policies [p] }
        | none => { status := .outOfRange, result := .field .kind }) := by
  unfold ownPolicyGet
  split
  · rfl
  · cases entryAt s.store.settings.cur.policy k <;> rfl

theorem ownVanGet_eq (s : State) :
    ownVanGet s = (s, if s.van.phase = .idle then { status := .ok, result := .vanIdle s.van.counter }
       else { status := .ok, result := .vanDetail s.vanDetail }) := by
  unfold ownVanGet
  split <;> rfl

/-- Settles O21: each owner answers from the state, which a request held does not change. -/
theorem readsChangeNothing : Obligations.ReadsChangeNothing := by
  intro tag s hs hz
  refine ⟨exec_reply rfl hs rfl, fun n => exec_reply rfl hs (ownSettingGet_eq n _), fun d => ?_, exec_reply rfl hs rfl,
    fun code => exec_reply rfl hs (ownPlanGet_eq (s := s.hold tag _) hz.2.2.2.2.2.2.2.1 code), fun slot => ?_,
    fun n => exec_reply rfl hs (ownTariffGet_eq n _), fun k => exec_reply rfl hs (ownPolicyGet_eq k _),
    exec_reply rfl hs (ownVanGet_eq _)⟩
  · by_cases h : 1 ≤ d ∧ d ≤ 64
    · rw [if_pos h]; exact exec_reply rfl hs (ownDockGet_of_range h _)
    · rw [if_neg h]; exact exec_reply rfl hs (ownDockGet_range h _)
  · by_cases h : 1 ≤ slot ∧ slot ≤ 32
    · rw [if_pos h]; exact exec_reply rfl hs (ownPassGet_of_range h _)
    · rw [if_neg h]; exact exec_reply rfl hs (ownPassGet_range h _)

end Sys2Proof.Machine
end

