-- ==== Sys2Proof/Proofs/Hold.lean ====
section
/-! PROOFS. Taking a request changes nothing that an owner reads, and an owner leaves the request held: each operation of the
blocks gives on `s.hold tag req` what it gives on `s`, with the request held there (R184). -/

namespace Sys2Proof.Machine

section Hold

variable (s : State) (tag : Nat) (req : Request)
@[simp] theorem hold_node (d : Nat) : (s.hold tag req).node d = s.node d := rfl
@[simp] theorem hold_denied : (s.hold tag req).denied = s.denied := rfl
@[simp] theorem hold_elapsed : (s.hold tag req).elapsed = s.elapsed := rfl
@[simp] theorem hold_strings : (s.hold tag req).strings = s.strings := rfl
@[simp] theorem hold_nodes : (s.hold tag req).nodes = s.nodes := rfl
@[simp] theorem hold_docks : (s.hold tag req).docks = s.docks := rfl
@[simp] theorem hold_setAside : (s.hold tag req).setAside = s.setAside := rfl
@[simp] theorem hold_replySlot : (s.hold tag req).replySlot = s.replySlot := rfl
@[simp] theorem hold_faults : (s.hold tag req).faults = s.faults := rfl
@[simp] theorem hold_faultsDropped : (s.hold tag req).faultsDropped = s.faultsDropped := rfl
@[simp] theorem hold_attention : (s.hold tag req).attention = s.attention := rfl
@[simp] theorem hold_readerRuns : (s.hold tag req).readerRuns = s.readerRuns := rfl
@[simp] theorem hold_offlineAt : (s.hold tag req).offlineAt = s.offlineAt := rfl
@[simp] theorem hold_censusLimit : (s.hold tag req).censusLimit = s.censusLimit := rfl
@[simp] theorem hold_stationId : (s.hold tag req).stationId = s.stationId := rfl
@[simp] theorem hold_line (n : Nat) : (s.hold tag req).line n = s.line n := rfl
@[simp] theorem hold_stock : (s.hold tag req).stock = s.stock := rfl
@[simp] theorem hold_available : (s.hold tag req).available = s.available := rfl
@[simp] theorem hold_releases : (s.hold tag req).releases = s.releases := rfl
@[simp] theorem hold_hireReleases : (s.hold tag req).hireReleases = s.hireReleases := rfl
@[simp] theorem hold_memberHires (n : Nat) : (s.hold tag req).memberHires n = s.memberHires n := rfl
@[simp] theorem hold_vanReleases : (s.hold tag req).vanReleases = s.vanReleases := rfl
@[simp] theorem hold_hireOf (ref : HireRef) : (s.hold tag req).hireOf ref = s.hireOf ref := rfl
@[simp] theorem hold_lowestSettling : (s.hold tag req).lowestSettling = s.lowestSettling := rfl
@[simp] theorem hold_passRides (slot serial : Nat) (x : PassState) (ref : HireRef) :
    (s.hold tag req).passRides slot serial x ref = s.passRides slot serial x ref := rfl

@[simp] theorem hold_sixthWaits : (s.hold tag req).sixthWaits = s.sixthWaits := rfl
@[simp] theorem hold_sentRecord (e q : Nat) : (s.hold tag req).sentRecord e q = s.sentRecord e q := rfl
@[simp] theorem hold_readLimit (n : Nat) : (s.hold tag req).readLimit n = s.readLimit n := rfl
@[simp] theorem hold_commitTest : (s.hold tag req).commitTest = s.commitTest := rfl
@[simp] theorem hold_commitPending : (s.hold tag req).commitPending = s.commitPending := rfl
@[simp] theorem hold_appliedRecord (q : Option Nat) : (s.hold tag req).appliedRecord q = s.appliedRecord q := rfl
@[simp] theorem hold_heldAt (b : Nat) : (s.hold tag req).heldAt b = s.heldAt b := rfl
@[simp] theorem hold_heldHirer (b : Nat) : (s.hold tag req).heldHirer b = s.heldHirer b := rfl
@[simp] theorem hold_droppable : (s.hold tag req).droppable = s.droppable := rfl
@[simp] theorem hold_reservedFor (n : Nat) : (s.hold tag req).reservedFor n = s.reservedFor n := rfl
@[simp] theorem hold_nextCollect (x : Selector) (k : Nat) : (s.hold tag req).nextCollect x k = s.nextCollect x k := rfl
@[simp] theorem hold_nextDeliver : (s.hold tag req).nextDeliver = s.nextDeliver := rfl
@[simp] theorem hold_bikeFault (d : Nat) (e : FaultEffect) : (s.hold tag req).bikeFault d e = s.bikeFault d e := rfl
@[simp] theorem hold_dockFault (d : Nat) (k : Option DockFault) (c : Option DockCause) (e : FaultEffect) :
    (s.hold tag req).dockFault d k c e = s.dockFault d k c e := rfl

@[simp] theorem hold_policy (k : BikeFault) : (s.hold tag req).policy k = s.policy k := rfl
@[simp] theorem hold_decideReport (b : Bike) (k : BikeFault) (w : Option Reporter) :
    (s.hold tag req).decideReport b k w = s.decideReport b k w := rfl

@[simp] theorem hold_reportersAfter (b : Bike) (k : BikeFault) (w : Reporter) :
    (s.hold tag req).reportersAfter b k w = s.reportersAfter b k w := rfl

@[simp] theorem hold_censusRuns : (s.hold tag req).censusRuns = s.censusRuns := rfl
@[simp] theorem hold_summaryItems : (s.hold tag req).summaryItems = s.summaryItems := rfl
@[simp] theorem hold_reporterOf (x : ReporterArg) : (s.hold tag req).reporterOf x = s.reporterOf x := rfl
@[simp] theorem hold_targetDock (x : TargetArg) : (s.hold tag req).targetDock x = s.targetDock x := rfl
@[simp] theorem hold_dockOfBike (b : Nat) : (s.hold tag req).dockOfBike b = s.dockOfBike b := rfl
@[simp] theorem hold_releaseCredit : (s.hold tag req).releaseCredit = s.releaseCredit := rfl
@[simp] theorem hold_hirePlace : (s.hold tag req).hirePlace = s.hirePlace := rfl
@[simp] theorem hold_journalRoom : (s.hold tag req).journalRoom = s.journalRoom := rfl
@[simp] theorem hold_vanRoom : (s.hold tag req).vanRoom = s.vanRoom := rfl
@[simp] theorem hold_remoteRefusal (d : Nat) : (s.hold tag req).remoteRefusal d = s.remoteRefusal d := rfl
@[simp] theorem hold_remoteChecks (m p : Nat) : (s.hold tag req).remoteChecks m p = s.remoteChecks m p := rfl
@[simp] theorem hold_censusBody (x : CensusReason) : (s.hold tag req).censusBody x = s.censusBody x := rfl
@[simp] theorem hold_firstHeld : (s.hold tag req).firstHeld = s.firstHeld := rfl
@[simp] theorem hold_settingRefusal (n : SettingName) (v : Nat) :
    (s.hold tag req).settingRefusal n v = s.settingRefusal n v := rfl

@[simp] theorem hold_stringDocks (n : Nat) : (s.hold tag req).stringDocks n = s.stringDocks n := rfl
@[simp] theorem hold_repeatedAuth (t : Nat) (l : List Byte) :
    (s.hold tag req).repeatedAuth t l = s.repeatedAuth t l := rfl

@[simp] theorem hold_returnsCommand (d : Nat) : (s.hold tag req).returnsCommand d = s.returnsCommand d := rfl
theorem hold_freeCount (fuel c : Nat) : (s.hold tag req).freeCount fuel c = s.freeCount fuel c := by
  induction fuel generalizing c with
  | zero => rfl
  | succ n ih => unfold State.freeCount; rw [ih]; rfl

@[simp] theorem hold_nextRef : (s.hold tag req).nextRef = s.nextRef := by
  unfold State.nextRef; rw [hold_freeCount]; rfl

@[simp] theorem hold_tripImage (d : Nat) (h : Hirer) (p c t : Nat) :
    (s.hold tag req).tripImage d h p c t = s.tripImage d h p c t := by
  unfold State.tripImage; rw [hold_nextRef]; rfl
/-! ### Regions and the tables -/

theorem hold_putSettings (v : SettingsRegion) : (s.hold tag req).putSettings v = (s.putSettings v).hold tag req := rfl
theorem hold_putPlans (v : List Plan) : (s.hold tag req).putPlans v = (s.putPlans v).hold tag req := rfl
theorem hold_putTariffs (v : TariffSet) : (s.hold tag req).putTariffs v = (s.putTariffs v).hold tag req := rfl
theorem hold_putDenied (v : List Nat) : (s.hold tag req).putDenied v = (s.putDenied v).hold tag req := rfl
theorem hold_putPasses (v : PassRegion) : (s.hold tag req).putPasses v = (s.putPasses v).hold tag req := rfl
theorem hold_putHires (v : List OpenHire) : (s.hold tag req).putHires v = (s.putHires v).hold tag req := rfl
theorem hold_putSettle (v : SettleRegion) : (s.hold tag req).putSettle v = (s.putSettle v).hold tag req := rfl
theorem hold_putJournal (v : JournalRegion) : (s.hold tag req).putJournal v = (s.putJournal v).hold tag req := rfl
theorem hold_putHireCount (v : Nat) : (s.hold tag req).putHireCount v = (s.putHireCount v).hold tag req := rfl
theorem hold_putEpoch (v : EpochRegion) : (s.hold tag req).putEpoch v = (s.putEpoch v).hold tag req := rfl
theorem hold_putNode (d : Nat) (n : Node) : (s.hold tag req).putNode d n = (s.putNode d n).hold tag req := rfl
theorem hold_takeSlot : (s.hold tag req).takeSlot = (s.takeSlot).hold tag req := rfl
theorem hold_returnSlot : (s.hold tag req).returnSlot = (s.returnSlot).hold tag req := rfl
theorem hold_removeHire (ref : HireRef) : (s.hold tag req).removeHire ref = (s.removeHire ref).hold tag req := rfl
theorem hold_putEntries (es : List SettleEntry) : (s.hold tag req).putEntries es = (s.putEntries es).hold tag req := rfl
theorem hold_putRun (d n : Nat) : (s.hold tag req).putRun d n = (s.putRun d n).hold tag req := rfl
theorem hold_cancelOffline (d : Nat) : (s.hold tag req).cancelOffline d = (s.cancelOffline d).hold tag req := rfl
theorem hold_takeRef : (s.hold tag req).takeRef = (s.takeRef).hold tag req := by
  simp only [State.takeRef, hold_putHireCount, hold_nextRef]

theorem hold_putLine (n : Nat) (l : StringLine) : (s.hold tag req).putLine n l = (s.putLine n l).hold tag req := rfl
theorem hold_endCommand (d : Nat) : (s.hold tag req).endCommand d = (s.endCommand d).hold tag req := rfl

/-! ### Passes, fares and closes -/

theorem hold_settlePass (slot : Nat) : (s.hold tag req).settlePass slot = (s.settlePass slot).hold tag req := by
  unfold State.settlePass
  simp only [hold_pass, hold_free, hold_post, hold_putPass]
  split
  · rfl
  · split <;> rfl

theorem hold_enterSettling (slot : Nat) (p : Pass) :
    (s.hold tag req).enterSettling slot p = (s.enterSettling slot p).hold tag req := by
  simp only [State.enterSettling, hold_putPass, hold_settlePass]

theorem hold_chargeAndMove (slot : Nat) (p : Pass) (amount : Nat) :
    (s.hold tag req).chargeAndMove slot p amount = (s.chargeAndMove slot p amount).hold tag req := by
  unfold State.chargeAndMove
  simp only [hold_now, hold_enterSettling, hold_putPass]
  split <;> rfl

theorem hold_holdExpiry (slot serial : Nat) :
    (s.hold tag req).holdExpiry slot serial = (s.holdExpiry slot serial).hold tag req := rfl

theorem hold_expirePass (slot : Nat) (p : Pass) :
    (s.hold tag req).expirePass slot p = (s.expirePass slot p).hold tag req := by
  unfold State.expirePass
  simp only [hold_passInFlight, hold_holdExpiry, hold_enterSettling]
  repeat' split
  all_goals rfl

theorem hold_takeExpiry (slot : Nat) : (s.hold tag req).takeExpiry slot = (s.takeExpiry slot).hold tag req := by
  unfold State.takeExpiry
  simp only [hold_now, hold_pass, hold_expirePass]
  split
  · split <;> rfl
  · rfl

theorem hold_takeHeldExpiry (slot serial : Nat) (held : Bool) :
    (s.hold tag req).takeHeldExpiry slot serial held = (s.takeHeldExpiry slot serial held).hold tag req := by
  unfold State.takeHeldExpiry
  simp only [hold_pass, hold_now, hold_expirePass]
  split
  · split <;> rfl
  · rfl

theorem hold_retirePass (slot : Nat) (p : Pass) (h : OpenHire) :
    (s.hold tag req).retirePass slot p h = (s.retirePass slot p h).hold tag req := by
  simp only [State.retirePass, hold_removeHire, hold_post, hold_enterSettling]

theorem hold_readOut (k : Nat) : (s.hold tag req).readOut k = (s.readOut k).hold tag req := by
  unfold State.readOut
  simp only [hold_records]
  split <;> rfl

theorem hold_removeRecord (epoch sequence : Nat) :
    (s.hold tag req).removeRecord epoch sequence = (s.removeRecord epoch sequence).hold tag req := rfl

theorem hold_applyCommit (requested : Option Nat) :
    (s.hold tag req).applyCommit requested = (s.applyCommit requested).hold tag req := by
  unfold State.applyCommit
  simp only [hold_sixthWaits, hold_putTariffs, hold_tariffs, hold_appliedRecord, hold_sixth, hold_post]
  split <;> rfl

theorem hold_applyAt : (s.hold tag req).applyAt = (s.applyAt).hold tag req := by
  unfold State.applyAt
  simp only [hold_now, hold_tariffs, hold_applyCommit]
  split
  · split <;> rfl
  · rfl

theorem hold_markSettling (d : Nat) (b : Bool) :
    (s.hold tag req).markSettling d b = (s.markSettling d b).hold tag req := by
  simp only [State.markSettling, hold_putDock, hold_dock]

theorem hold_postClose (i : Nat) (e : SettleEntry) (cause : FinalCause) (time : Option Nat) (pass : PassResult) :
    (s.hold tag req).postClose i e cause time pass = (s.postClose i e cause time pass).hold tag req := by
  simp only [State.postClose, hold_post, hold_store, hold_putSettle, hold_entries]

theorem hold_serveClose : (s.hold tag req).serveClose = (s.serveClose).hold tag req := by
  unfold State.serveClose
  simp only [hold_entries, hold_postClose]
  repeat' split
  all_goals rfl

theorem hold_unmark (dock bike : Nat) : (s.hold tag req).unmark dock bike = (s.unmark dock bike).hold tag req := by
  unfold State.unmark
  simp only [hold_dock, hold_markSettling]
  split <;> rfl

/-! ### The van session, faults and commands -/

theorem hold_putVan (v : Van) : (s.hold tag req).putVan v = (s.putVan v).hold tag req := by
  unfold State.putVan
  dsimp only
  rw [apply_ite (fun t : State => t.hold tag req)]
  rfl

theorem hold_updateEntry (n : Nat) (f : ManifestEntry → ManifestEntry) :
    (s.hold tag req).updateEntry n f = (s.updateEntry n f).hold tag req := by
  unfold State.updateEntry
  simp only [hold_van, hold_putVan]
  split <;> rfl

theorem hold_restartIdle : (s.hold tag req).restartIdle = (s.restartIdle).hold tag req := by
  unfold State.restartIdle
  dsimp only
  rw [apply_ite (fun t : State => t.hold tag req)]
  rfl

theorem hold_postSummary (v : VanSummary) : (s.hold tag req).postSummary v = (s.postSummary v).hold tag req := by
  simp only [State.postSummary, hold_post, hold_putVan, hold_van]

theorem hold_closeUp : (s.hold tag req).closeUp = (s.closeUp).hold tag req := by
  unfold State.closeUp
  simp only [hold_van, hold_vanReleases, hold_free, hold_postSummary]
  repeat' split
  all_goals rfl

theorem hold_postFault (f : FaultRecord) : (s.hold tag req).postFault f = (s.postFault f).hold tag req := by
  unfold State.postFault
  simp only [hold_post, hold_faultsDropped]
  rfl

theorem hold_makeFault (f : FaultRecord) : (s.hold tag req).makeFault f = (s.makeFault f).hold tag req := by
  unfold State.makeFault
  simp only [hold_free, hold_faults, hold_postFault, hold_faultsDropped]
  split <;> rfl

theorem hold_putBike (d : Nat) (b : Bike) : (s.hold tag req).putBike d b = (s.putBike d b).hold tag req := by
  simp only [State.putBike, hold_putDock, hold_dock]

theorem hold_issue (d : Nat) (c : Command) : (s.hold tag req).issue d c = (s.issue d c).hold tag req := by
  simp only [State.issue_eq]
  rw [apply_ite (fun t : State => t.hold tag req)]
  rfl

theorem hold_showRefused (d : Nat) : (s.hold tag req).showRefused d = (s.showRefused d).hold tag req :=
  hold_issue s tag req d _

theorem hold_postSixth (x : SixthRecord) : (s.hold tag req).postSixth x = (s.postSixth x).hold tag req := by
  cases x with
  | tariffApplied =>
    simp only [State.postSixth, hold_tariffs]
    split
    · simp only [hold_post, hold_putTariffs, hold_tariffs]
    · rfl
  | _ => exact hold_post ..

theorem hold_makeSixth (x : SixthRecord) : (s.hold tag req).makeSixth x = (s.makeSixth x).hold tag req := by
  unfold State.makeSixth
  simp only [hold_sixthWaits, hold_sixth, hold_postSixth]
  split <;> rfl

theorem hold_serveSixth : (s.hold tag req).serveSixth = s.serveSixth.hold tag req := by
  unfold State.serveSixth
  rw [hold_sixth]
  split
  · rfl
  · exact hold_postSixth { s with sixth := _ } tag req _

theorem hold_putReservation (d : Nat) (x : Reservation) :
    (s.hold tag req).putReservation d x = (s.putReservation d x).hold tag req := by
  simp only [State.putReservation, hold_putDock, hold_dock, hold_raise]

theorem hold_makeMove (m : VanMove) : (s.hold tag req).makeMove m = (s.makeMove m).hold tag req := by
  unfold State.makeMove
  rw [hold_post, apply_ite (fun t : State => t.hold tag req), apply_ite (fun t : State => t.hold tag req)]
  rfl

theorem hold_serveVan : (s.hold tag req).serveVan = s.serveVan.hold tag req := by
  unfold State.serveVan
  simp only [hold_van, hold_postSummary]
  split
  · exact hold_post { s with van := _ } tag req _
  · split <;> rfl

theorem hold_putAttention (a : Attention) : (s.hold tag req).putAttention a = (s.putAttention a).hold tag req := by
  unfold State.putAttention
  rw [hold_attention]
  split <;> rfl

theorem hold_setAttention (c : AttentionCause) : (s.hold tag req).setAttention c = (s.setAttention c).hold tag req :=
  hold_putAttention s tag req _

theorem hold_attendEffect (e : FaultEffect) : (s.hold tag req).attendEffect e = (s.attendEffect e).hold tag req := by
  unfold State.attendEffect
  rw [hold_setAttention]
  split <;> rfl

theorem hold_serveFault : (s.hold tag req).serveFault = s.serveFault.hold tag req := by
  unfold State.serveFault
  rw [hold_faults]
  split
  · rfl
  · exact hold_postFault { s with faults := _ } tag req _

theorem hold_retireDue (t : Nat) (slots : List Nat) :
    State.retireDue t slots (s.hold tag req) = (State.retireDue t slots s).hold tag req := by
  induction slots generalizing s with
  | nil => rfl
  | cons slot rest ih =>
    simp only [State.retireDue, hold_pass, hold_free, hold_retirePass, ih]
    have hire : (s.hold tag req).hireOf = s.hireOf := rfl
    rw [hire]
    repeat' split
    all_goals rfl

theorem hold_examinePasses : (s.hold tag req).examinePasses = s.examinePasses.hold tag req := by
  unfold State.examinePasses
  simp only [hold_now, hold_retireDue]
  split <;> rfl

theorem hold_expireHires (t : Nat) (hires : List OpenHire) :
    State.expireHires t hires (s.hold tag req) = (State.expireHires t hires s).hold tag req := by
  induction hires generalizing s with
  | nil => rfl
  | cons h rest ih =>
    simp only [State.expireHires, hold_settings, hold_free, hold_removeHire, hold_post, ih]
    repeat' split
    all_goals rfl

theorem hold_examineHires : (s.hold tag req).examineHires = s.examineHires.hold tag req := by
  unfold State.examineHires
  simp only [hold_now, hold_hires, hold_expireHires]
  split <;> rfl

/-- A step that commutes with taking a request does so over a list. -/
theorem hold_foldl {α : Type} {f : State → α → State} (h : ∀ s a, f (s.hold tag req) a = (f s a).hold tag req)
    (l : List α) : l.foldl f (s.hold tag req) = (l.foldl f s).hold tag req := by
  induction l generalizing s with
  | nil => rfl
  | cons a l ih => rw [List.foldl_cons, h, ih, List.foldl_cons]

theorem hold_presentTime : (s.hold tag req).presentTime = s.presentTime.hold tag req := by
  unfold State.presentTime
  rw [hold_foldl s tag req (fun s slot => hold_takeExpiry s tag req slot), hold_examinePasses, hold_examineHires,
    hold_applyAt]

theorem hold_chargeClose (ref : HireRef) (h : Hirer) (fare : Nat) :
    (s.hold tag req).chargeClose ref h fare =
      ((s.chargeClose ref h fare).1.hold tag req, (s.chargeClose ref h fare).2) := by
  unfold State.chargeClose
  simp only [hold_passRides, hold_chargeAndMove]
  repeat' split
  all_goals rfl

theorem hold_chargeRide (slot serial : Nat) (ref : HireRef) (amount : Nat) :
    (s.hold tag req).chargeRide slot serial ref amount =
      (s.chargeRide slot serial ref amount).map (fun x => (x.1.hold tag req, x.2)) := by
  unfold State.chargeRide
  simp only [hold_passRides, hold_removeHire, hold_chargeAndMove, hold_now]
  split <;> rfl

theorem hold_finalise (i : Nat) (cause : FinalCause) :
    (s.hold tag req).finalise i cause = (s.finalise i cause).hold tag req := by
  unfold State.finalise
  simp only [hold_entries]
  split
  · rfl
  · split
    · rfl
    · simp only [hold_chargeClose, hold_unmark, hold_free, hold_postClose, hold_putEntries, hold_entries, hold_now]
      split <;> rfl

theorem hold_finaliseBike (bike : Nat) (reason : EarlyReason) :
    (s.hold tag req).finaliseBike bike reason = (s.finaliseBike bike reason).hold tag req := by
  unfold State.finaliseBike
  simp only [hold_heldAt, hold_finalise]
  split <;> rfl

theorem hold_settleDock (d : Nat) (reason : EarlyReason) :
    (s.hold tag req).settleDock d reason = (s.settleDock d reason).hold tag req := by
  unfold State.settleDock
  simp only [hold_dock, hold_finaliseBike]
  split
  · split <;> rfl
  · rfl

theorem hold_waive (bike : Nat) (source : WaiverSource) (kind : BikeFault) :
    (s.hold tag req).waive bike source kind = (s.waive bike source kind).hold tag req := by
  unfold State.waive
  simp only [hold_heldAt, hold_entries, hold_putEntries, hold_now]
  repeat' split
  all_goals rfl

theorem hold_waiveForReporter (bike : Nat) (kind : BikeFault) (who : Reporter) :
    (s.hold tag req).waiveForReporter bike kind who = (s.waiveForReporter bike kind who).hold tag req := by
  unfold State.waiveForReporter
  simp only [hold_heldHirer, hold_waive]
  split
  · split <;> rfl
  · rfl

theorem hold_endSession (endedBy : EndedBy) (outcome : VanOutcome) :
    (s.hold tag req).endSession endedBy outcome = (s.endSession endedBy outcome).hold tag req := by
  unfold State.endSession
  rw [hold_droppable, hold_foldl s tag req (fun s d => hold_putReservation s tag req d .unreserved)]
  simp only [hold_van, hold_putVan, hold_now, hold_closeUp]

theorem hold_endIfMet : (s.hold tag req).endIfMet = s.endIfMet.hold tag req := by
  unfold State.endIfMet
  simp only [hold_van, hold_endSession]
  split <;> rfl

theorem hold_placeCollect (n d : Nat) : (s.hold tag req).placeCollect n d = (s.placeCollect n d).hold tag req := by
  simp only [State.placeCollect, hold_settleDock, hold_putReservation]

theorem hold_placeOne (n : Nat) (kind : ManifestKind) :
    (s.hold tag req).placeOne n kind = (s.placeOne n kind).map (fun t => t.hold tag req) := by
  cases kind with
  | collect selector => simp [State.placeOne, hold_placeCollect, Function.comp_def]
  | deliver => simp [State.placeOne, hold_putReservation, Function.comp_def]

theorem hold_placeMany (n : Nat) (kind : ManifestKind) (k : Nat) :
    State.placeMany n kind k (s.hold tag req) = (State.placeMany n kind k s).hold tag req := by
  induction k generalizing s with
  | zero => rfl
  | succ k ih =>
    simp only [State.placeMany, hold_placeOne]
    cases s.placeOne n kind with
    | none => rfl
    | some t => simp only [Option.map_some, hold_updateEntry, ih]

theorem hold_reserveFrom (n : Nat) (ms : List ManifestEntry) :
    State.reserveFrom n ms (s.hold tag req) = (State.reserveFrom n ms s).hold tag req := by
  induction ms generalizing s n with
  | nil => rfl
  | cons m rest ih => simp only [State.reserveFrom, hold_placeMany, hold_updateEntry, ih]

theorem hold_endPass : (s.hold tag req).endPass = s.endPass.hold tag req := by
  unfold State.endPass
  simp only [hold_van, hold_endSession, hold_putVan, hold_restartIdle]
  split <;> rfl

theorem hold_fall (n : Nat) : (s.hold tag req).fall n = (s.fall n).hold tag req := by
  simp only [State.fall, hold_updateEntry, hold_endIfMet]

theorem hold_moveDeliver (n : Nat) : (s.hold tag req).moveDeliver n = (s.moveDeliver n).hold tag req := by
  unfold State.moveDeliver
  simp only [hold_nextDeliver, hold_putReservation, hold_fall]
  split <;> rfl

theorem hold_replaceCollect (n lost : Nat) :
    (s.hold tag req).replaceCollect n lost = (s.replaceCollect n lost).hold tag req := by
  unfold State.replaceCollect
  simp only [hold_van, hold_nextCollect, hold_placeCollect, hold_fall]
  repeat' split
  all_goals rfl

theorem hold_loseReservation (d : Nat) :
    (s.hold tag req).loseReservation d = (s.loseReservation d).hold tag req := by
  unfold State.loseReservation
  simp only [hold_dock, hold_van, hold_putReservation, hold_replaceCollect, hold_moveDeliver, hold_closeUp]
  repeat' split
  all_goals rfl

theorem hold_vanLapse (d : Nat) : (s.hold tag req).vanLapse d = (s.vanLapse d).hold tag req := by
  unfold State.vanLapse
  simp only [hold_van, hold_putReservation, hold_closeUp]
  split <;> rfl

theorem hold_vanIdleDue : (s.hold tag req).vanIdleDue = s.vanIdleDue.hold tag req := by
  unfold State.vanIdleDue
  simp only [hold_van, hold_elapsed, hold_endSession]
  repeat' split
  all_goals rfl

theorem hold_reportBike (d : Nat) (b : Bike) (k : BikeFault) (source : FaultSource) (who : Reporter) :
    (s.hold tag req).reportBike d b k source who =
      ((s.reportBike d b k source who).1.hold tag req, (s.reportBike d b k source who).2) := by
  simp only [State.reportBike, hold_decideReport, hold_putBike, hold_bikeFault, hold_reportersAfter, hold_policy,
    hold_makeFault, hold_attendEffect]

theorem hold_reportAbsent (dock bike : Option Nat) (k : BikeFault) (source : FaultSource) (who : Reporter) :
    (s.hold tag req).reportAbsent dock bike k source who = (s.reportAbsent dock bike k source who).hold tag req :=
  hold_makeFault s tag req _

theorem hold_reportTag (d : Nat) : (s.hold tag req).reportTag d = (s.reportTag d).hold tag req := by
  unfold State.reportTag
  simp only [hold_dock, hold_policy, hold_putBike, hold_bikeFault, hold_makeFault, hold_attendEffect]
  split <;> rfl

theorem hold_applyLockout (d : Nat) : (s.hold tag req).applyLockout d = (s.applyLockout d).hold tag req := by
  simp only [State.applyLockout, hold_dock, hold_putDock, hold_issue, hold_loseReservation]

theorem hold_startOffline (d : Nat) : (s.hold tag req).startOffline d = (s.startOffline d).hold tag req := by
  unfold State.startOffline
  rw [apply_ite (fun t : State => t.hold tag req)]
  rfl

theorem hold_noteFault (d : Nat) (kind : DockFault) (cause : DockCause) :
    (s.hold tag req).noteFault d kind cause = (s.noteFault d kind cause).hold tag req := by
  simp only [State.noteFault, hold_dockFault, hold_makeFault]

theorem hold_reportSilence (d : Nat) : (s.hold tag req).reportSilence d = (s.reportSilence d).hold tag req := by
  unfold State.reportSilence
  simp only [hold_censusRuns, hold_noteFault]
  split <;> rfl

theorem hold_centralChange (d : Nat) (b : Bike) (e : FaultEffect) :
    (s.hold tag req).centralChange d b e = (s.centralChange d b e).hold tag req := by
  simp only [State.centralChange, hold_putBike, hold_bikeFault, hold_makeFault, hold_setAttention]
  split <;> rfl

theorem hold_setBike (d : Nat) (b : Bike) (next : Condition) :
    (s.hold tag req).setBike d b next = ((s.setBike d b next).1.hold tag req, (s.setBike d b next).2) := by
  unfold State.setBike
  simp only [hold_centralChange]
  repeat' split
  all_goals rfl

theorem hold_clearDock (d : Nat) : (s.hold tag req).clearDock d = (s.clearDock d).hold tag req := by
  unfold State.clearDock
  simp only [hold_dock, hold_putDock, hold_issue]
  split
  · simp only [hold_dockFault, hold_makeFault]
  · split <;> simp only [hold_dockFault, hold_makeFault]

theorem hold_clearAttention : (s.hold tag req).clearAttention = s.clearAttention.hold tag req := rfl
theorem hold_beginRelease (d : Nat) (x : Release) :
    (s.hold tag req).beginRelease d x = (s.beginRelease d x).hold tag req := by
  simp only [State.beginRelease, hold_settleDock, hold_dock, hold_putDock, hold_issue]
  split <;> rfl

theorem hold_admitRelease (d : Nat) (h : Hirer) (issue : Option Nat) (plan credit t : Nat) (fromDock : Bool) :
    (s.hold tag req).admitRelease d h issue plan credit t fromDock =
      (s.admitRelease d h issue plan credit t fromDock).hold tag req := by
  simp only [State.admitRelease, hold_takeRef, hold_takeSlot, hold_nextRef, hold_tripImage, hold_dock,
    hold_beginRelease]

theorem hold_beginVan (d n : Nat) (fromDock : Bool) :
    (s.hold tag req).beginVan d n fromDock = (s.beginVan d n fromDock).hold tag req := by
  simp only [State.beginVan, hold_van, hold_dock, hold_beginRelease]
/-! ### Directives and the room arbiter -/

/-- What an execution leaves, with a request held. -/
def heldAnswer (tag : Nat) (req : Request) (a : State × DirectiveAnswer) : State × DirectiveAnswer := (a.1.hold tag req, a.2)

theorem hold_runBikeSet (bike condition next : Nat) :
    runBikeSet bike condition next (s.hold tag req) = heldAnswer tag req (runBikeSet bike condition next s) := by
  unfold runBikeSet
  simp only [hold_dockOfBike, hold_dock, hold_setBike]
  repeat' split
  all_goals rfl

theorem hold_doBikeSet (args : List Byte) :
    doBikeSet args (s.hold tag req) = heldAnswer tag req (doBikeSet args s) := by
  unfold doBikeSet
  simp only [hold_runBikeSet]
  repeat' split
  all_goals rfl

theorem hold_doDockClear (args : List Byte) :
    doDockClear args (s.hold tag req) = heldAnswer tag req (doDockClear args s) := by
  unfold doDockClear runDockClear
  simp only [hold_dock, hold_clearDock]
  repeat' split
  all_goals rfl

theorem hold_doRemoteRelease (args : List Byte) :
    doRemoteRelease args (s.hold tag req) = heldAnswer tag req (doRemoteRelease args s) := by
  unfold doRemoteRelease runRemoteRelease
  simp only [hold_now, hold_remoteRefusal, hold_remoteChecks, hold_admitRelease, hold_releaseCredit, hold_dock,
    hold_nextRef]
  repeat' split
  all_goals rfl

theorem hold_doDenyAdd (args : List Byte) :
    doDenyAdd args (s.hold tag req) = heldAnswer tag req (doDenyAdd args s) := by
  unfold doDenyAdd runDenyAdd
  split
  · rfl
  · rw [apply_ite (heldAnswer tag req), apply_ite (heldAnswer tag req)]
    rfl

theorem hold_doDenyRemove (args : List Byte) :
    doDenyRemove args (s.hold tag req) = heldAnswer tag req (doDenyRemove args s) := by
  unfold doDenyRemove runDenyRemove
  split
  · rfl
  · rw [apply_ite (heldAnswer tag req)]
    rfl

theorem hold_closeHeldHire (h : OpenHire) :
    closeHeldHire h (s.hold tag req) = heldAnswer tag req (closeHeldHire h s) := by
  unfold closeHeldHire
  simp only [hold_chargeRide, hold_removeHire, hold_pass]
  cases h.hirer with
  | pass slot serial => dsimp only; cases s.chargeRide slot serial h.ref 0 <;> rfl
  | _ => rfl

theorem hold_doHireClosed (args : List Byte) :
    doHireClosed args (s.hold tag req) = heldAnswer tag req (doHireClosed args s) := by
  unfold doHireClosed
  simp only [hold_hireOf, hold_closeHeldHire]
  repeat' split
  all_goals rfl

theorem hold_runPassCharge (slot serial : Nat) (ref : HireRef) (amount : Nat) :
    runPassCharge slot serial ref amount (s.hold tag req) =
      heldAnswer tag req (runPassCharge slot serial ref amount s) := by
  unfold runPassCharge
  rw [hold_chargeRide]
  cases s.chargeRide slot serial ref amount <;> rfl

theorem hold_doPassCharge (args : List Byte) :
    doPassCharge args (s.hold tag req) = heldAnswer tag req (doPassCharge args s) := by
  unfold doPassCharge
  simp only [hold_runPassCharge]
  repeat' split
  all_goals rfl

theorem doCensus_posts {s : State} (h : s.sixthWaits = false) (id : Nat) :
    doCensus id s =
      (s.post (.dockCensus (s.censusBody (.directive id))),
        answerDone (.census (s.censusBody (.directive id)).items.length true false)) := by
  simp [doCensus, h, State.postSixth]

/-- The record of a CENSUS that cannot be posted waits, and takes the place of one that waits already (R180). -/
theorem doCensus_waits {s : State} (h : s.sixthWaits = true) (id : Nat) :
    doCensus id s =
      ({ s with
          sixth := (if s.sixth.any SixthRecord.directiveCensus then s.sixth.filter (fun x => !x.directiveCensus)
            else s.sixth) ++ [.dockCensus (s.censusBody (.directive id))] },
        answerDone (.census (s.censusBody (.directive id)).items.length false
          (s.sixth.any SixthRecord.directiveCensus))) := by
  unfold doCensus
  cases ha : s.sixth.any SixthRecord.directiveCensus <;> simp [h]

theorem hold_doCensus (s : State) (tag : Nat) (req : Request) (id : Nat) :
    doCensus id (s.hold tag req) = heldAnswer tag req (doCensus id s) := by
  cases h : s.sixthWaits with
  | false => rw [doCensus_posts h, doCensus_posts (s := s.hold tag req) h, hold_post]; rfl
  | true => rw [doCensus_waits h, doCensus_waits (s := s.hold tag req) h]; rfl

theorem hold_runDirective (x : Directive) :
    runDirective x (s.hold tag req) = heldAnswer tag req (runDirective x s) := by
  unfold runDirective
  simp only [hold_doBikeSet, hold_doDockClear, hold_doRemoteRelease, hold_doDenyAdd, hold_doDenyRemove,
    hold_doHireClosed, hold_doPassCharge, hold_doCensus]
  repeat' split
  all_goals rfl

theorem hold_replyDirective (x : Directive) (a : DirectiveAnswer) :
    (s.hold tag req).replyDirective x a = (s.replyDirective x a).hold tag req := by
  unfold State.replyDirective
  dsimp only
  rw [show ({ s.hold tag req with replySlot := 0 } : State) = ({ s with replySlot := 0 } : State).hold tag req from rfl,
    hold_post]
  rfl

theorem executeHead_cons {s : State} {x : Directive} {rest : List Directive} (h : s.directives = x :: rest) :
    s.executeHead =
      (runDirective x { s with replySlot := 1 }).1.replyDirective x (runDirective x { s with replySlot := 1 }).2 := by
  unfold State.executeHead
  rw [h]

theorem executeHead_nil {s : State} (h : s.directives = []) : s.executeHead = s := by
  unfold State.executeHead
  rw [h]

theorem hold_executeHead (s : State) (tag : Nat) (req : Request) :
    (s.hold tag req).executeHead = s.executeHead.hold tag req := by
  cases h : s.directives with
  | nil => rw [executeHead_nil h, executeHead_nil (s := s.hold tag req) h]
  | cons x rest =>
    rw [executeHead_cons h, executeHead_cons (s := s.hold tag req) h]
    exact (congrArg (fun a : State × DirectiveAnswer => a.1.replyDirective x a.2)
      (hold_runDirective { s with replySlot := 1 } tag req x)).trans (hold_replyDirective _ tag req x _)

theorem hold_serve (p : Place) : (s.hold tag req).serve p = (s.serve p).hold tag req := by
  cases p with
  | settle => exact hold_serveClose s tag req
  | passes =>
    simp only [State.serve, hold_lowestSettling, hold_settlePass]
    split <;> rfl
  | van => exact hold_serveVan s tag req
  | faults => exact hold_serveFault s tag req
  | directives => exact hold_executeHead s tag req
  | sixth => exact hold_serveSixth s tag req

theorem hold_drainFor (fuel : Nat) : (s.hold tag req).drainFor fuel = (s.drainFor fuel).hold tag req := by
  induction fuel generalizing s with
  | zero => rfl
  | succ n ih =>
    simp only [State.drainFor, hold_free, hold_firstPlace, hold_serve, ih]
    repeat' split
    all_goals rfl

theorem hold_drain : (s.hold tag req).drain = s.drain.hold tag req := hold_drainFor s tag req _
theorem hold_giveBack : (s.hold tag req).giveBack = s.giveBack.hold tag req := hold_drain s.returnSlot tag req
theorem hold_giveUp (x : Release) : (s.hold tag req).giveUp x = (s.giveUp x).hold tag req := by
  unfold State.giveUp
  simp only [hold_takeHeldExpiry, hold_giveBack]
  split <;> rfl

/-! ### A dock taken offline -/

theorem hold_editDock (d : Nat) (f : Dock → Dock) : (s.hold tag req).editDock d f = (s.editDock d f).hold tag req :=
  hold_putDock s tag req d _

theorem hold_discardRelease (d : Nat) (x : DockState) :
    (s.hold tag req).discardRelease d x = (s.discardRelease d x).hold tag req := hold_editDock s tag req d _

theorem hold_tellVan (d : Nat) (x : Release) : (s.hold tag req).tellVan d x = (s.tellVan d x).hold tag req := by
  unfold State.tellVan
  rw [hold_vanLapse]
  split <;> rfl

theorem hold_takeOffline (d : Nat) (silence : Bool) :
    (s.hold tag req).takeOffline d silence = (s.takeOffline d silence).hold tag req := by
  unfold State.takeOffline
  simp only [hold_dock, hold_discardRelease, hold_editDock]
  cases (s.dock d).release with
  | none =>
    dsimp only
    rw [hold_loseReservation]
    cases silence <;> simp [hold_reportSilence, hold_startOffline]
  | some x =>
    dsimp only
    rw [hold_tellVan, hold_loseReservation]
    cases silence <;> simp [hold_reportSilence, hold_startOffline, hold_giveUp]

theorem hold_resetNode (d : Nat) : (s.hold tag req).resetNode d = (s.resetNode d).hold tag req := by
  unfold State.resetNode
  simp only [State.abandonCommands_eq, hold_node, hold_putNode, hold_takeOffline, hold_elapsed]

theorem hold_resetString (n : Nat) : (s.hold tag req).resetString n = (s.resetString n).hold tag req := by
  unfold State.resetString
  simp only [hold_line, hold_putLine, hold_stringDocks]
  exact hold_foldl _ tag req (fun s d => hold_resetNode s tag req d) _
end Hold

end Sys2Proof.Machine
end

