-- ==== Sys2Proof/Proofs/Owners.lean ====
section
/-! PROOFS. An owner acts on a part that holds a request as it acts on the part without it, so a request row gives what its
owner gives (R184). -/

namespace Sys2Proof.Machine

section Hold

variable (s : State) (tag : Nat) (req : Request)

/-- What an owner leaves, with a request held. -/
def heldReply (tag : Nat) (req : Request) (a : State × Reply) : State × Reply := (a.1.hold tag req, a.2)

theorem hold_makeStep (before : Option Nat) (t : Nat) :
    (s.hold tag req).makeStep before t = (s.makeStep before t).hold tag req := by
  unfold State.makeStep
  simp only [hold_makeSixth]
  split
  · split <;> rfl
  · rfl

theorem hold_ownTimeSet (t : Nat) : ownTimeSet t (s.hold tag req) = heldReply tag req (ownTimeSet t s) := by
  unfold ownTimeSet
  split
  · rfl
  · simp only [heldReply, hold_now]
    rw [show ({ s.hold tag req with clock := .running t (s.hold tag req).elapsed } : State) =
      ({ s with clock := .running t s.elapsed } : State).hold tag req from rfl, hold_makeStep, hold_presentTime]

theorem hold_writeSetting (n : SettingName) (v : Nat) :
    (s.hold tag req).writeSetting n v = (s.writeSetting n v).hold tag req := by
  cases n <;> rfl

theorem hold_ownSettingSet (n v : Nat) :
    ownSettingSet n v (s.hold tag req) = heldReply tag req (ownSettingSet n v s) := by
  unfold ownSettingSet
  simp only [hold_settingRefusal, hold_writeSetting]
  split
  · rfl
  · split <;> rfl

theorem hold_ownReset (m : Nat) : ownReset m (s.hold tag req) = heldReply tag req (ownReset m s) := by
  unfold ownReset
  simp only [hold_firstHeld]
  split
  · rfl
  · split <;> rfl
  · rfl

theorem hold_ownStringReset (n : Nat) : ownStringReset n (s.hold tag req) = heldReply tag req (ownStringReset n s) := by
  unfold ownStringReset
  simp only [hold_resetString]
  split <;> rfl

theorem hold_ownPlanSet (code : Nat) (f : PlanArgs) :
    ownPlanSet code f (s.hold tag req) = heldReply tag req (ownPlanSet code f s) := by
  unfold ownPlanSet
  split
  · rfl
  · split <;> rfl

theorem hold_ownPlanGet (code : Nat) : ownPlanGet code (s.hold tag req) = heldReply tag req (ownPlanGet code s) := by
  unfold ownPlanGet
  simp only [hold_plans]
  split
  · split <;> rfl
  · rfl

theorem hold_sell (slot terminal : Nat) (kind : PassKind) (hold : Nat) (authRef : List Byte) (t : Nat) :
    (s.hold tag req).sell slot terminal kind hold authRef t =
      heldReply tag req (s.sell slot terminal kind hold authRef t) := by
  simp only [State.sell, heldReply, hold_newCode, hold_store, ← hold_post, ← hold_raise]
  rfl

theorem hold_ownTerminalAuth (t k h : Nat) (l : List Byte) :
    ownTerminalAuth t k h l (s.hold tag req) = heldReply tag req (ownTerminalAuth t k h l s) := by
  unfold ownTerminalAuth
  simp only [hold_repeatedAuth, hold_now, hold_pass, hold_free, hold_settings, hold_sell]
  repeat' split
  all_goals rfl

theorem hold_ownPassGet (slot : Nat) : ownPassGet slot (s.hold tag req) = heldReply tag req (ownPassGet slot s) := by
  unfold ownPassGet
  simp only [hold_pass, hold_passInFlight]
  repeat' split
  all_goals rfl

theorem hold_ownPassCancel (slot serial : Nat) :
    ownPassCancel slot serial (s.hold tag req) = heldReply tag req (ownPassCancel slot serial s) := by
  unfold ownPassCancel
  simp only [hold_pass, hold_passInFlight, hold_enterSettling]
  repeat' split
  all_goals rfl

theorem hold_ownStageBand (band : Nat) (edge : Option Nat) (block rate : Nat) :
    ownStageBand band edge block rate (s.hold tag req) = heldReply tag req (ownStageBand band edge block rate s) := by
  unfold ownStageBand
  rw [apply_ite (heldReply tag req)]
  cases bandRange band edge block rate <;> rfl

theorem hold_ownStageClear : ownStageClear (s.hold tag req) = heldReply tag req (ownStageClear s) := by
  unfold ownStageClear
  rw [apply_ite (heldReply tag req)]
  rfl

theorem hold_ownTariffCommit (m : CommitArg) :
    ownTariffCommit m (s.hold tag req) = heldReply tag req (ownTariffCommit m s) := by
  have reply (u : State) : appliedReply (u.hold tag req) = appliedReply u := rfl
  cases m with
  | cancel =>
    unfold ownTariffCommit
    dsimp only
    rw [apply_ite (heldReply tag req)]
    rfl
  | _ =>
    simp only [ownTariffCommit, hold_commitTest, hold_now, hold_applyCommit, reply, hold_tariffs, hold_putTariffs]
    repeat' split
    all_goals rfl

theorem hold_ownTariffGet (n : Nat) : ownTariffGet n (s.hold tag req) = heldReply tag req (ownTariffGet n s) := by
  simp only [ownTariffGet_eq, hold_tariffs, heldReply]

theorem hold_ownPolicySet (k c n : Nat) :
    ownPolicySet k c n (s.hold tag req) = heldReply tag req (ownPolicySet k c n s) := by
  unfold ownPolicySet
  simp only [hold_store, hold_putSettings]
  repeat' split
  all_goals rfl

theorem hold_takeReport (target : TargetArg) (k : BikeFault) (source : FaultSource) (who : Reporter) :
    (s.hold tag req).takeReport target k source who = heldReply tag req (s.takeReport target k source who) := by
  unfold State.takeReport
  simp only [hold_targetDock, hold_dock, hold_reportBike, hold_waiveForReporter, hold_reportAbsent]
  repeat' split
  all_goals rfl

theorem hold_ownRiderReport (target : TargetArg) (k n : Nat) (x : ReporterArg) :
    ownRiderReport target k n x (s.hold tag req) = heldReply tag req (ownRiderReport target k n x s) := by
  unfold ownRiderReport
  simp only [hold_reporterOf, hold_takeReport]
  repeat' split
  all_goals rfl

theorem hold_openVan (van crew : Nat) (ms : List ManifestEntry) :
    (s.hold tag req).openVan van crew ms = heldReply tag req (s.openVan van crew ms) := by
  simp only [State.openVan, heldReply, hold_van, hold_now, hold_putVan, hold_reserveFrom, hold_endPass]

theorem hold_ownVanOpen (van crew : Nat) (ms : List ManifestArg) :
    ownVanOpen van crew ms (s.hold tag req) = heldReply tag req (ownVanOpen van crew ms s) := by
  unfold ownVanOpen
  simp only [hold_van, hold_denied, hold_openVan]
  repeat' split
  all_goals rfl

theorem hold_ownVanRelease (d : Nat) : ownVanRelease d (s.hold tag req) = heldReply tag req (ownVanRelease d s) := by
  unfold ownVanRelease
  simp only [hold_van, hold_restartIdle, hold_dock, hold_vanRoom, hold_beginVan]
  repeat' split
  all_goals rfl

theorem hold_ownVanClose (id : Nat) : ownVanClose id (s.hold tag req) = heldReply tag req (ownVanClose id s) := by
  unfold ownVanClose
  simp only [hold_van, hold_endSession]
  repeat' split
  all_goals rfl

theorem hold_readFit (n : Nat) : (s.hold tag req).readFit n = s.readFit n := by
  induction n with
  | zero => rfl
  | succ k ih =>
    unfold State.readFit
    rw [ih, hold_readOut]
    rfl

theorem hold_ownJournalRead (n : Nat) : ownJournalRead n (s.hold tag req) = heldReply tag req (ownJournalRead n s) := by
  unfold ownJournalRead
  simp only [hold_readLimit, hold_readFit, hold_readOut, hold_records]
  split <;> rfl

theorem hold_ownRemove (fatal : Bool) (e q : Nat) :
    ownRemove fatal e q (s.hold tag req) = heldReply tag req (ownRemove fatal e q s) := by
  unfold ownRemove
  simp only [hold_sentRecord, hold_removeRecord]
  split
  · rfl
  · cases fatal with
    | false => simp only [Bool.false_eq_true, if_false, hold_drain]; rfl
    | true => exact Prod.ext (hold_drain { s.removeRecord e q with fatal := _ } tag req) rfl

theorem hold_ownRetry (e q : Nat) : ownRetry e q (s.hold tag req) = heldReply tag req (ownRetry e q s) := by
  unfold ownRetry
  simp only [hold_sentRecord, hold_records]
  split <;> rfl

theorem hold_ownJournalAck (e q n : Nat) :
    ownJournalAck e q n (s.hold tag req) = heldReply tag req (ownJournalAck e q n s) := by
  unfold ownJournalAck
  simp only [hold_ownRemove, hold_ownRetry]
  split <;> rfl

theorem hold_ownLinkState (v : Nat) : ownLinkState v (s.hold tag req) = heldReply tag req (ownLinkState v s) := by
  unfold ownLinkState
  split <;> rfl

theorem hold_ownDirective (id k : Nat) (args : List Byte) :
    ownDirective id k args (s.hold tag req) = heldReply tag req (ownDirective id k args s) := by
  unfold ownDirective
  rw [apply_ite (heldReply tag req), apply_ite (heldReply tag req), heldReply, heldReply, heldReply,
    ← hold_drain]
  rfl

theorem hold_ownSettingGet (n : Nat) : ownSettingGet n (s.hold tag req) = heldReply tag req (ownSettingGet n s) := by
  rw [ownSettingGet_eq, ownSettingGet_eq]
  rfl

theorem hold_ownDockGet (d : Nat) : ownDockGet d (s.hold tag req) = heldReply tag req (ownDockGet d s) := by
  unfold ownDockGet
  split <;> rfl

/-- An owner acts on a part that holds a request as on the part without it; STATUS_GET alone counts the places held (R189). -/
theorem own_hold (q : Request) (h : q ≠ .statusGet) : own q (s.hold tag req) = heldReply tag req (own q s) := by
  cases q with
  | statusGet => exact absurd rfl h
  | timeSet t => exact hold_ownTimeSet ..
  | settingSet n v => exact hold_ownSettingSet ..
  | settingGet n => exact hold_ownSettingGet ..
  | reset m => exact hold_ownReset ..
  | stringReset n => exact hold_ownStringReset ..
  | dockGet d => exact hold_ownDockGet ..
  | dockList => rfl
  | planSet code f => exact hold_ownPlanSet ..
  | planGet code => exact hold_ownPlanGet ..
  | terminalAuth t k h l => exact hold_ownTerminalAuth ..
  | passGet slot => exact hold_ownPassGet ..
  | passCancel slot serial => exact hold_ownPassCancel ..
  | tariffStageBand band edge block rate => exact hold_ownStageBand ..
  | tariffStageClear => exact hold_ownStageClear ..
  | tariffCommit m => exact hold_ownTariffCommit ..
  | tariffGet n => exact hold_ownTariffGet ..
  | policySet k c n => exact hold_ownPolicySet ..
  | policyGet k => rw [own, own, ownPolicyGet_eq, ownPolicyGet_eq]; rfl
  | riderReport target k n x => exact hold_ownRiderReport ..
  | vanOpen van crew ms => exact hold_ownVanOpen ..
  | vanRelease d => exact hold_ownVanRelease ..
  | vanClose id => exact hold_ownVanClose ..
  | vanGet => rw [own, own, ownVanGet_eq, ownVanGet_eq]; rfl
  | journalRead n => exact hold_ownJournalRead ..
  | journalAck e q n => exact hold_ownJournalAck ..
  | journalReoffer => exact ownReoffer_hold ..
  | linkState v => exact hold_ownLinkState ..
  | directive id k args => exact hold_ownDirective ..
  | badKind k => rfl
  | badLength k => rfl
end Hold

/-- A request row of a ready part gives what its owner gives, with the reply made (R184). -/
theorem exec_own {i : Instr} {tag : Nat} {q : Request} (hi : i.request? = some (tag, q))
    {s t : State} {reply : Reply} (hs : s.ready) (ho : own q s = (t, reply)) (hq : q ≠ .statusGet := by nofun) :
    exec i s = .next ((t.answered tag q reply).finish s) := by
  have held : own q (s.hold tag q) = (t.hold tag q, reply) := by rw [own_hold s tag q q hq, ho]; rfl
  have power : t.power = s.power := by
    have := (own_owned q s).power
    rwa [ho] at this
  exact exec_answer hi hs held (power.trans hs.1)

end Sys2Proof.Machine
end

