-- ==== Sys2Proof/Proofs/Settings.lean ====
section
/-! PROOFS. The requests that write settings, plans and policies, RESET, and the requests of the journal that do not free a slot
(R47, R116, R161, R166, R195, R198). -/

namespace Sys2Proof.Machine

/-! ### LINK_STATE (R166) -/

/-- Settles O35: the owner writes the backhaul state, and at DOWN the records. -/
theorem linkStateResult : Obligations.LinkStateResult := by
  intro tag s hs
  exact ⟨exec_own rfl hs rfl, exec_own rfl hs rfl⟩

/-! ### RESET (R198) -/

section FirstHeld

variable {s : State}

theorem State.firstHeld_journal (h : s.records ≠ []) : s.firstHeld = some .journal := if_pos h

theorem State.firstHeld_hires (h : s.records = []) (hh : s.hires ≠ []) : s.firstHeld = some .openHires := by
  rw [State.firstHeld, if_neg (not_not.2 h), if_pos hh]

theorem State.firstHeld_settle (h : s.records = []) (hh : s.hires = []) (he : s.entries ≠ []) :
    s.firstHeld = some .settle := by
  rw [State.firstHeld, if_neg (not_not.2 h), if_neg (not_not.2 hh), if_pos he]

/-- With journal, hires and settle list empty, the passes decide. -/
theorem State.firstHeld_passes (h : s.records = []) (hh : s.hires = []) (he : s.entries = []) :
    s.firstHeld = if s.store.passes.cur.slots.all (fun p => p.isNone) then none else some .passes := by
  rw [State.firstHeld, if_neg (not_not.2 h), if_neg (not_not.2 hh), if_neg (not_not.2 he)]

end FirstHeld

theorem ownReset_store (s : State) :
    ownReset 2 s = match s.firstHeld with
      | some c => (s, { status := .notEmpty, result := .notEmpty c })
      | none => (s.defaultStore, .plain .ok) := by
  unfold ownReset
  rfl

/-- Each region is written once (R198). -/
theorem State.defaultStore_eq (s : State) :
    s.defaultStore = { s with store :=
      { settings := s.store.settings.write .default, plans := s.store.plans.write plansDefault
        tariffs := s.store.tariffs.write .default, deny := s.store.deny.write []
        passes := s.store.passes.write .default, hires := s.store.hires.write []
        settle := s.store.settle.write .default
        journal := s.store.journal.write { records := [], next := s.store.journal.cur.next }
        hireCount := s.store.hireCount.write 1, epoch := s.store.epoch } } := by
  simp only [State.defaultStore, State.putSettings, State.putPlans, State.putTariffs, State.putDenied, State.putPasses,
    State.putHires, State.putSettle, State.putJournal, State.putHireCount]

theorem ownReset_notEmpty {s : State} {c : Collection} (h : s.firstHeld = some c) :
    ownReset 2 s = (s, { status := .notEmpty, result := .notEmpty c }) := by
  rw [ownReset_store, h]

/-- Settles O24: the first collection that holds anything names the refusal, and none lets the defaults be written. -/
theorem resetResult : Obligations.ResetResult := by
  intro tag s hs
  have refused {c : Collection} (h : s.firstHeld = some c) :
      exec (.resetStore tag) s =
        .next ((s.answered tag (.reset 2) { status := .notEmpty, result := .notEmpty c }).finish s) :=
    exec_own rfl hs (ownReset_notEmpty h)
  refine ⟨exec_own rfl hs rfl, fun h => refused (State.firstHeld_journal h),
    fun h hh => refused (State.firstHeld_hires h hh), fun h hh he => refused (State.firstHeld_settle h hh he),
    fun h hh he hp => refused ?_, fun h hh he hp => exec_own rfl hs ?_⟩
  · rw [State.firstHeld_passes h hh he, if_neg]
    simpa [Option.isNone_iff_eq_none] using hp
  · have none : s.firstHeld = none := by
      rw [State.firstHeld_passes h hh he, if_pos]
      simpa [Option.isNone_iff_eq_none] using hp
    rw [own, ownReset_store, none, s.defaultStore_eq]
    rfl

/-! ### PLAN_SET and POLICY_SET (R47, R116) -/

theorem planRange_none {f : PlanArgs}
    (h : (f.admitted = 1 ∨ f.admitted = 2) ∧ f.freeMinutes ≤ 240 ∧ f.percent ≤ 200 ∧ f.unlockFee ≤ 1000 ∧
      f.ceiling ≤ 65535 ∧ 1 ≤ f.hireLimit ∧ f.hireLimit ≤ 4) : planRange f = none := by
  obtain ⟨ha, hm, hp, hu, hc, h1, h4⟩ := h
  rw [planRange, if_neg (by omega), if_neg (by omega), if_neg (by omega), if_neg (by omega), if_neg (by omega),
    if_neg (by omega)]

theorem planRange_some {f : PlanArgs}
    (h : ¬ ((f.admitted = 1 ∨ f.admitted = 2) ∧ f.freeMinutes ≤ 240 ∧ f.percent ≤ 200 ∧ f.unlockFee ≤ 1000 ∧
      f.ceiling ≤ 65535 ∧ 1 ≤ f.hireLimit ∧ f.hireLimit ≤ 4)) :
    planRange f = some
      (if ¬ (f.admitted = 1 ∨ f.admitted = 2) then .admitted
       else if 240 < f.freeMinutes then .freeMinutes
       else if 200 < f.percent then .percent
       else if 1000 < f.unlockFee then .unlockFee
       else if 65535 < f.ceiling then .ceiling
       else .hireLimit) := by
  unfold planRange
  by_cases ha : f.admitted = 1 ∨ f.admitted = 2
  · rw [if_neg (by omega), if_neg (not_not.2 ha)]
    by_cases hl : f.hireLimit < 1 ∨ 4 < f.hireLimit
    · rw [if_pos hl]
      simp only [apply_ite some]
    · rw [if_neg hl]
      split_ifs <;> first | rfl | omega
  · rw [if_pos (by omega), if_pos ha]

theorem classOf_none {cls : Nat} (h1 : cls ≠ 1) (h2 : cls ≠ 2) : classOf cls = none := by
  unfold classOf
  split
  · exact absurd rfl h1
  · exact absurd rfl h2
  · rfl

theorem classOf_some {cls : Nat} (h : cls = 1 ∨ cls = 2) :
    classOf cls = some (if cls = 1 then .quarantine else .advisory) := by
  rcases h with rfl | rfl <;> rfl

/-- Settles O25: the first range that fails is named, and with none the entry is replaced. -/
theorem planAndPolicySetResult : Obligations.PlanAndPolicySetResult := by
  refine ⟨fun tag code f s hs => ⟨fun hc => ?_, fun hc ha hm hp hu hce h1 h4 => ?_, fun hc hn => ?_⟩,
    fun tag kind cls count s hs => ⟨fun hk => ?_, fun h1 h8 => ⟨fun c1 c2 => ?_, fun hc => ⟨fun hn => ?_, ?_⟩⟩⟩⟩
  · exact exec_own rfl hs (if_pos hc)
  · refine exec_own rfl hs ?_
    rw [own, ownPlanSet, if_neg (by omega), planRange_none ⟨ha, hm, hp, hu, hce, h1, h4⟩]
    rfl
  · refine exec_own rfl hs ?_
    rw [own, ownPlanSet, if_neg (by omega), planRange_some hn]
    rfl
  · exact exec_own rfl hs (if_pos (by omega))
  · refine exec_own rfl hs ?_
    rw [own, ownPolicySet, if_neg (by omega), classOf_none c1 c2]
    rfl
  · refine exec_own rfl hs ?_
    rw [own, ownPolicySet, if_neg (by omega), classOf_some hc]
    exact if_pos (by omega)
  · intro n1 n3
    refine exec_own rfl hs ?_
    rw [own, ownPolicySet, if_neg (by omega), classOf_some hc]
    exact if_neg (by omega)

/-! ### SETTING_SET (R195) -/

/-- The nearer end of a setting's range, spelled out. -/
theorem SettingName.clamp_eq (x : SettingName) (v : Nat) :
    x.clamp v = if v < x.range.1 then x.range.1 else if x.range.2 < v then x.range.2 else v := by
  have h : x.range.1 ≤ x.range.2 := by cases x <;> decide
  unfold SettingName.clamp
  split
  · omega
  · split <;> omega

theorem settingOf_none {n : Nat} (h : n = 0 ∨ 21 < n) : settingOf n = none := by
  unfold settingOf
  split <;> first | omega | rfl

theorem ownSettingSet_refused {n v : Nat} {x : SettingName} {s : State} {y : Status} (hx : settingOf n = some x)
    (h : s.settingRefusal x (x.clamp v) = some y) : ownSettingSet n v s = (s, .plain y) := by
  unfold ownSettingSet
  rw [hx]
  dsimp only
  rw [h]

theorem ownSettingSet_writes {n v : Nat} {x : SettingName} {s : State} (hx : settingOf n = some x)
    (h : s.settingRefusal x (x.clamp v) = none) :
    ownSettingSet n v s = (s.writeSetting x (x.clamp v), settingReply x v (x.clamp v)) := by
  unfold ownSettingSet
  rw [hx]
  dsimp only
  rw [h]

theorem State.settingRefusal_none {s : State} {x : SettingName} {w : Nat} (hl : x = .lowMark → w < s.settings.highMark)
    (hh : x = .highMark → s.settings.lowMark < w) (hc : x = .creditLimit → w = 0 ∨ s.recordsIn .sent ≤ w) :
    s.settingRefusal x w = none := by
  cases x with
  | lowMark => exact if_neg (by have := hl rfl; omega)
  | highMark => exact if_neg (by have := hh rfl; omega)
  | creditLimit => exact if_neg (by have := hc rfl; omega)
  | _ => rfl

theorem settingReply_eq (x : SettingName) (v w : Nat) :
    settingReply x v w =
      if x = .stationId ∨ x = .countA ∨ x = .countB ∨ x = .countC ∨ x = .countD then
        { status := .pendingRestart, result := .value w }
      else if v = w then { status := .ok, result := .empty }
      else { status := .okClamped, result := .value w } := by
  cases x <;> rfl

/-- Settles O23: the refusals by setting, and what a write of one setting does to every other. -/
theorem settingSetResult : Obligations.SettingSetResult := by
  refine ⟨fun tag n v s hs => ⟨fun hn => exec_own rfl hs ?_, fun x hx => ?_⟩, fun x y v s => ?_⟩
  · rw [own, ownSettingSet, settingOf_none hn]
    rfl
  · intro w
    have hw : x.clamp v = w := x.clamp_eq v
    have refused {y : Status} (h : s.settingRefusal x w = some y) :
        exec (.settingSet tag n v) s =
          .next ((s.answered tag (.settingSet n v) { status := y, result := .empty }).finish s) :=
      exec_own rfl hs (ownSettingSet_refused hx (hw ▸ h))
    refine ⟨fun h hm => refused ?_, fun h hm => refused ?_, fun h h0 hm => refused ?_, fun hl hh hc => ?_⟩
    · subst h; exact if_pos hm
    · subst h; exact if_pos hm
    · subst h; exact if_pos ⟨h0, hm⟩
    · refine exec_own rfl hs ?_
      rw [own, ownSettingSet_writes hx (hw.symm ▸ State.settingRefusal_none hl hh hc), hw, settingReply_eq]
  · refine ⟨by cases x <;> rfl, fun h => ?_, fun h => ?_, fun h => ?_, by cases x <;> rfl, by cases x <;> rfl,
      by cases x <;> rfl⟩
    · cases x <;> cases y <;> first | rfl | exact absurd rfl h
    · cases x <;> first | rfl | cases h
    · cases x <;> first | rfl | cases h

/-! ### JOURNAL_READ (R161) -/

/-- The greatest count up to a bound whose reply fits is the one that is read (R200). -/
theorem State.readFit_eq {s : State} {k n : Nat}
    (hfit : k = 0 ∨ readSize (s.readOut k).journalSummary (readRecords k s.records) ≤ Config.maxBody) (hk : k ≤ n)
    (hmax : ∀ j, k < j → j ≤ n →
      ¬ (j = 0 ∨ readSize (s.readOut j).journalSummary (readRecords j s.records) ≤ Config.maxBody)) :
    s.readFit n = k := by
  induction n with
  | zero => rw [Nat.le_zero.1 hk]; rfl
  | succ n ih =>
    unfold State.readFit
    rcases Nat.eq_or_lt_of_le hk with rfl | hlt
    · exact if_pos (hfit.resolve_left (by omega))
    · rw [if_neg (fun h => hmax (n + 1) hlt le_rfl (.inr h)), ih (by omega) (fun j h1 h2 => hmax j h1 (by omega))]

theorem State.readLimit_eq (s : State) {n : Nat} (hn : n ≤ 16) :
    s.readLimit n = min n (min (s.recordsIn .unsent)
      (if s.settings.creditLimit = 0 then 16 else s.settings.creditLimit - s.recordsIn .sent)) := by
  unfold State.readLimit
  dsimp only
  split <;> omega

section Read

variable (k : Nat) (rs : List Record)

theorem length_readRecords (h : k ≤ rs.countP (fun r => r.state == .unsent)) : (readRecords k rs).length = k := by
  rw [List.countP_eq_length_filter] at h
  simp [readRecords, h]

/-- A record marked SENT differs from the record as it stood in its state only. -/
theorem map_unsent_markSent :
    (markSent k rs).map (fun r => { r with state := .unsent }) = rs.map (fun r => { r with state := .unsent }) := by
  induction rs generalizing k with
  | nil => cases k <;> rfl
  | cons r rs ih =>
    cases k with
    | zero => rfl
    | succ k => unfold markSent; split <;> simp [ih]

/-- What marking does to the number of records in each state. -/
theorem countP_markSent (h : k ≤ rs.countP (fun r => r.state == .unsent)) :
    (markSent k rs).countP (fun r => r.state == .unsent) + k = rs.countP (fun r => r.state == .unsent) ∧
      (markSent k rs).countP (fun r => r.state == .sent) = rs.countP (fun r => r.state == .sent) + k ∧
      (markSent k rs).countP (fun r => r.state == .parked) = rs.countP (fun r => r.state == .parked) := by
  induction rs generalizing k with
  | nil => simp only [List.countP_nil, Nat.le_zero] at h; subst h; simp [markSent]
  | cons r rs ih =>
    cases k with
    | zero => simp [markSent]
    | succ k =>
      unfold markSent
      by_cases hr : r.state = .unsent
      · simp only [List.countP_cons, hr, beq_self_eq_true, if_true] at h
        obtain ⟨hu, hsent, hp⟩ := ih k (by omega)
        rw [if_pos hr]
        simp only [List.countP_cons, hr, beq_self_eq_true, if_true]
        refine ⟨?_, ?_, ?_⟩ <;> simp <;> omega
      · have hb : (r.state == .unsent) = false := by simpa using hr
        simp only [List.countP_cons, hb, Bool.false_eq_true, if_false, Nat.add_zero] at h
        obtain ⟨hu, hsent, hp⟩ := ih (k + 1) h
        rw [if_neg hr]
        simp only [List.countP_cons, hb, Bool.false_eq_true, if_false, Nat.add_zero]
        exact ⟨hu, by omega, by omega⟩

/-- The records read and those still UNSENT are, in order, those that were UNSENT. -/
theorem readRecords_append_markSent :
    (readRecords k rs ++ (markSent k rs).filter (fun r => r.state == .unsent)).map (fun r => (r.epoch, r.sequence)) =
      (rs.filter (fun r => r.state == .unsent)).map (fun r => (r.epoch, r.sequence)) := by
  induction rs generalizing k with
  | nil => cases k <;> rfl
  | cons r rs ih =>
    cases k with
    | zero => simp [readRecords, markSent]
    | succ k =>
      unfold markSent
      by_cases hr : r.state = .unsent
      · have := ih k
        simp only [readRecords, List.map_append] at this
        simpa [readRecords, hr] using this
      · have := ih (k + 1)
        simp only [readRecords, List.map_append] at this
        simpa [readRecords, hr] using this

end Read

/-- Settles O32: the greatest count that fits is read, and marking keeps each record in its place. -/
theorem journalReadResult : Obligations.JournalReadResult := by
  refine ⟨fun tag n s hs => ⟨fun hn => exec_own rfl hs (if_pos hn), ?_⟩, fun k rs h => ?_⟩
  · intro k hn most after fits hk hfit hmax
    have hafter (j : Nat) : s.readOut j = after j := rfl
    have hread : s.readFit (s.readLimit n) = k := by
      rw [s.readLimit_eq hn]
      exact State.readFit_eq hfit hk hmax
    refine exec_own rfl hs ?_
    rw [own, ownJournalRead, if_neg (by omega)]
    dsimp only
    rw [hread, hafter]
  · obtain ⟨hu, hsent, hp⟩ := countP_markSent k rs h
    exact ⟨length_readRecords k rs h, map_unsent_markSent k rs, by omega, hsent, hp, readRecords_append_markSent k rs⟩

end Sys2Proof.Machine
end

