-- ==== Sys2Proof/Proofs/Effects.lean ====
section
/-! PROOFS. What the operations that write one table leave as it was: a journal post, a pass, a dock, a reservation, the van
session, a command issued, the attention flag and a FAULT record. -/

namespace Sys2Proof.Machine

section Effects

variable (s : State)

/-! ### What `State.post` leaves as it was -/

section

variable (b : Body)

@[simp] theorem State.post_power : (s.post b).power = s.power := by
  unfold State.post; dsimp only; split <;> rfl
@[simp] theorem State.post_elapsed : (s.post b).elapsed = s.elapsed := by
  unfold State.post; dsimp only; split <;> rfl
@[simp] theorem State.post_stationId : (s.post b).stationId = s.stationId := by
  unfold State.post; dsimp only; split <;> rfl
@[simp] theorem State.post_strings : (s.post b).strings = s.strings := by
  unfold State.post; dsimp only; split <;> rfl
@[simp] theorem State.post_nodes : (s.post b).nodes = s.nodes := by
  unfold State.post; dsimp only; split <;> rfl
@[simp] theorem State.post_censusLimit : (s.post b).censusLimit = s.censusLimit := by
  unfold State.post; dsimp only; split <;> rfl
@[simp] theorem State.post_setAside : (s.post b).setAside = s.setAside := by
  unfold State.post; dsimp only; split <;> rfl
@[simp] theorem State.post_replySlot : (s.post b).replySlot = s.replySlot := by
  unfold State.post; dsimp only; split <;> rfl
@[simp] theorem State.post_sixth : (s.post b).sixth = s.sixth := by
  unfold State.post; dsimp only; split <;> rfl
@[simp] theorem State.post_faultsDropped : (s.post b).faultsDropped = s.faultsDropped := by
  unfold State.post; dsimp only; split <;> rfl
@[simp] theorem State.post_readerRuns : (s.post b).readerRuns = s.readerRuns := by
  unfold State.post; dsimp only; split <;> rfl
@[simp] theorem State.post_offlineAt : (s.post b).offlineAt = s.offlineAt := by
  unfold State.post; dsimp only; split <;> rfl
@[simp] theorem State.post_store_settings : (s.post b).store.settings = s.store.settings := by
  unfold State.post; dsimp only; split <;> rfl
@[simp] theorem State.post_store_plans : (s.post b).store.plans = s.store.plans := by
  unfold State.post; dsimp only; split <;> rfl
@[simp] theorem State.post_store_tariffs : (s.post b).store.tariffs = s.store.tariffs := by
  unfold State.post; dsimp only; split <;> rfl
@[simp] theorem State.post_store_deny : (s.post b).store.deny = s.store.deny := by
  unfold State.post; dsimp only; split <;> rfl
@[simp] theorem State.post_store_passes : (s.post b).store.passes = s.store.passes := by
  unfold State.post; dsimp only; split <;> rfl
@[simp] theorem State.post_store_hires : (s.post b).store.hires = s.store.hires := by
  unfold State.post; dsimp only; split <;> rfl
@[simp] theorem State.post_store_settle : (s.post b).store.settle = s.store.settle := by
  unfold State.post; dsimp only; split <;> rfl
@[simp] theorem State.post_store_hireCount : (s.post b).store.hireCount = s.store.hireCount := by
  unfold State.post; dsimp only; split <;> rfl
@[simp] theorem State.post_now : (s.post b).now = s.now := by
  unfold State.post; dsimp only; split <;> rfl
@[simp] theorem State.post_settings : (s.post b).settings = s.settings := by
  unfold State.post; dsimp only; split <;> rfl
@[simp] theorem State.post_dock (e : Nat) : (s.post b).dock e = s.dock e := by
  unfold State.post; dsimp only; split <;> rfl
@[simp] theorem State.post_pass (n : Nat) : (s.post b).pass n = s.pass n := by
  unfold State.post; dsimp only; split <;> rfl
@[simp] theorem State.post_node (e : Nat) : (s.post b).node e = s.node e := by
  unfold State.post; dsimp only; split <;> rfl
@[simp] theorem State.post_hires : (s.post b).hires = s.hires := by
  unfold State.post; dsimp only; split <;> rfl
@[simp] theorem State.post_tariffs : (s.post b).tariffs = s.tariffs := by
  unfold State.post; dsimp only; split <;> rfl
@[simp] theorem State.post_denied : (s.post b).denied = s.denied := by
  unfold State.post; dsimp only; split <;> rfl
@[simp] theorem State.post_stock : (s.post b).stock = s.stock := by
  unfold State.post; dsimp only; split <;> rfl
@[simp] theorem State.post_available : (s.post b).available = s.available := by
  unfold State.post; dsimp only; split <;> rfl
@[simp] theorem State.post_releases : (s.post b).releases = s.releases := by
  unfold State.post; dsimp only; split <;> rfl
@[simp] theorem State.post_lowestSettling : (s.post b).lowestSettling = s.lowestSettling := by
  unfold State.post; dsimp only; split <;> rfl
@[simp] theorem State.post_plans : (s.post b).plans = s.plans := by
  unfold State.post; dsimp only; split <;> rfl
@[simp] theorem State.post_vanReleases : (s.post b).vanReleases = s.vanReleases := by
  unfold State.post; dsimp only; split <;> rfl
@[simp] theorem State.post_hireReleases : (s.post b).hireReleases = s.hireReleases := by
  unfold State.post; dsimp only; split <;> rfl
@[simp] theorem State.post_droppable : (s.post b).droppable = s.droppable := by
  unfold State.post; dsimp only; split <;> rfl
@[simp] theorem State.post_heldAt (n : Nat) : (s.post b).heldAt n = s.heldAt n := by
  unfold State.post; dsimp only; split <;> rfl
@[simp] theorem State.post_hireOf (ref : HireRef) : (s.post b).hireOf ref = s.hireOf ref := by
  unfold State.post; dsimp only; split <;> rfl

end

/-! ### What `State.putPass` leaves as it was -/

section

variable (slot : Nat) (p : Option Pass)

@[simp] theorem State.putPass_power : (s.putPass slot p).power = s.power := by
  unfold State.putPass; dsimp only; split <;> rfl
@[simp] theorem State.putPass_elapsed : (s.putPass slot p).elapsed = s.elapsed := by
  unfold State.putPass; dsimp only; split <;> rfl
@[simp] theorem State.putPass_stationId : (s.putPass slot p).stationId = s.stationId := by
  unfold State.putPass; dsimp only; split <;> rfl
@[simp] theorem State.putPass_strings : (s.putPass slot p).strings = s.strings := by
  unfold State.putPass; dsimp only; split <;> rfl
@[simp] theorem State.putPass_nodes : (s.putPass slot p).nodes = s.nodes := by
  unfold State.putPass; dsimp only; split <;> rfl
@[simp] theorem State.putPass_docks : (s.putPass slot p).docks = s.docks := by
  unfold State.putPass; dsimp only; split <;> rfl
@[simp] theorem State.putPass_censusLimit : (s.putPass slot p).censusLimit = s.censusLimit := by
  unfold State.putPass; dsimp only; split <;> rfl
@[simp] theorem State.putPass_setAside : (s.putPass slot p).setAside = s.setAside := by
  unfold State.putPass; dsimp only; split <;> rfl
@[simp] theorem State.putPass_replySlot : (s.putPass slot p).replySlot = s.replySlot := by
  unfold State.putPass; dsimp only; split <;> rfl
@[simp] theorem State.putPass_sixth : (s.putPass slot p).sixth = s.sixth := by
  unfold State.putPass; dsimp only; split <;> rfl
@[simp] theorem State.putPass_attention : (s.putPass slot p).attention = s.attention := by
  unfold State.putPass; dsimp only; split <;> rfl
@[simp] theorem State.putPass_faults : (s.putPass slot p).faults = s.faults := by
  unfold State.putPass; dsimp only; split <;> rfl
@[simp] theorem State.putPass_faultsDropped : (s.putPass slot p).faultsDropped = s.faultsDropped := by
  unfold State.putPass; dsimp only; split <;> rfl
@[simp] theorem State.putPass_readerRuns : (s.putPass slot p).readerRuns = s.readerRuns := by
  unfold State.putPass; dsimp only; split <;> rfl
@[simp] theorem State.putPass_offlineAt : (s.putPass slot p).offlineAt = s.offlineAt := by
  unfold State.putPass; dsimp only; split <;> rfl
@[simp] theorem State.putPass_van : (s.putPass slot p).van = s.van := by
  unfold State.putPass; dsimp only; split <;> rfl
@[simp] theorem State.putPass_directives : (s.putPass slot p).directives = s.directives := by
  unfold State.putPass; dsimp only; split <;> rfl
@[simp] theorem State.putPass_store_settings : (s.putPass slot p).store.settings = s.store.settings := by
  unfold State.putPass; dsimp only; split <;> rfl
@[simp] theorem State.putPass_store_plans : (s.putPass slot p).store.plans = s.store.plans := by
  unfold State.putPass; dsimp only; split <;> rfl
@[simp] theorem State.putPass_store_tariffs : (s.putPass slot p).store.tariffs = s.store.tariffs := by
  unfold State.putPass; dsimp only; split <;> rfl
@[simp] theorem State.putPass_store_deny : (s.putPass slot p).store.deny = s.store.deny := by
  unfold State.putPass; dsimp only; split <;> rfl
@[simp] theorem State.putPass_store_hires : (s.putPass slot p).store.hires = s.store.hires := by
  unfold State.putPass; dsimp only; split <;> rfl
@[simp] theorem State.putPass_store_settle : (s.putPass slot p).store.settle = s.store.settle := by
  unfold State.putPass; dsimp only; split <;> rfl
@[simp] theorem State.putPass_store_journal : (s.putPass slot p).store.journal = s.store.journal := by
  unfold State.putPass; dsimp only; split <;> rfl
@[simp] theorem State.putPass_store_hireCount : (s.putPass slot p).store.hireCount = s.store.hireCount := by
  unfold State.putPass; dsimp only; split <;> rfl
@[simp] theorem State.putPass_store_epoch : (s.putPass slot p).store.epoch = s.store.epoch := by
  unfold State.putPass; dsimp only; split <;> rfl
@[simp] theorem State.putPass_now : (s.putPass slot p).now = s.now := by
  unfold State.putPass; dsimp only; split <;> rfl
@[simp] theorem State.putPass_settings : (s.putPass slot p).settings = s.settings := by
  unfold State.putPass; dsimp only; split <;> rfl
@[simp] theorem State.putPass_dock (e : Nat) : (s.putPass slot p).dock e = s.dock e := by
  unfold State.putPass; dsimp only; split <;> rfl
@[simp] theorem State.putPass_node (e : Nat) : (s.putPass slot p).node e = s.node e := by
  unfold State.putPass; dsimp only; split <;> rfl
@[simp] theorem State.putPass_free : (s.putPass slot p).free = s.free := by
  unfold State.putPass; dsimp only; split <;> rfl
@[simp] theorem State.putPass_records : (s.putPass slot p).records = s.records := by
  unfold State.putPass; dsimp only; split <;> rfl
@[simp] theorem State.putPass_hires : (s.putPass slot p).hires = s.hires := by
  unfold State.putPass; dsimp only; split <;> rfl
@[simp] theorem State.putPass_entries : (s.putPass slot p).entries = s.entries := by
  unfold State.putPass; dsimp only; split <;> rfl
@[simp] theorem State.putPass_tariffs : (s.putPass slot p).tariffs = s.tariffs := by
  unfold State.putPass; dsimp only; split <;> rfl
@[simp] theorem State.putPass_denied : (s.putPass slot p).denied = s.denied := by
  unfold State.putPass; dsimp only; split <;> rfl
@[simp] theorem State.putPass_stock : (s.putPass slot p).stock = s.stock := by
  unfold State.putPass; dsimp only; split <;> rfl
@[simp] theorem State.putPass_available : (s.putPass slot p).available = s.available := by
  unfold State.putPass; dsimp only; split <;> rfl
@[simp] theorem State.putPass_releases : (s.putPass slot p).releases = s.releases := by
  unfold State.putPass; dsimp only; split <;> rfl
@[simp] theorem State.putPass_plans : (s.putPass slot p).plans = s.plans := by
  unfold State.putPass; dsimp only; split <;> rfl
@[simp] theorem State.putPass_vanReleases : (s.putPass slot p).vanReleases = s.vanReleases := by
  unfold State.putPass; dsimp only; split <;> rfl
@[simp] theorem State.putPass_hireReleases : (s.putPass slot p).hireReleases = s.hireReleases := by
  unfold State.putPass; dsimp only; split <;> rfl
@[simp] theorem State.putPass_droppable : (s.putPass slot p).droppable = s.droppable := by
  unfold State.putPass; dsimp only; split <;> rfl
@[simp] theorem State.putPass_heldAt (n : Nat) : (s.putPass slot p).heldAt n = s.heldAt n := by
  unfold State.putPass; dsimp only; split <;> rfl
@[simp] theorem State.putPass_hireOf (ref : HireRef) : (s.putPass slot p).hireOf ref = s.hireOf ref := by
  unfold State.putPass; dsimp only; split <;> rfl

end

/-! ### What `State.putDock` leaves as it was -/

section

variable (d : Nat) (x : Dock)

@[simp] theorem State.putDock_power : (s.putDock d x).power = s.power := by
  unfold State.putDock; dsimp only; split <;> rfl
@[simp] theorem State.putDock_elapsed : (s.putDock d x).elapsed = s.elapsed := by
  unfold State.putDock; dsimp only; split <;> rfl
@[simp] theorem State.putDock_stationId : (s.putDock d x).stationId = s.stationId := by
  unfold State.putDock; dsimp only; split <;> rfl
@[simp] theorem State.putDock_strings : (s.putDock d x).strings = s.strings := by
  unfold State.putDock; dsimp only; split <;> rfl
@[simp] theorem State.putDock_nodes : (s.putDock d x).nodes = s.nodes := by
  unfold State.putDock; dsimp only; split <;> rfl
@[simp] theorem State.putDock_censusLimit : (s.putDock d x).censusLimit = s.censusLimit := by
  unfold State.putDock; dsimp only; split <;> rfl
@[simp] theorem State.putDock_setAside : (s.putDock d x).setAside = s.setAside := by
  unfold State.putDock; dsimp only; split <;> rfl
@[simp] theorem State.putDock_replySlot : (s.putDock d x).replySlot = s.replySlot := by
  unfold State.putDock; dsimp only; split <;> rfl
@[simp] theorem State.putDock_sixth : (s.putDock d x).sixth = s.sixth := by
  unfold State.putDock; dsimp only; split <;> rfl
@[simp] theorem State.putDock_attention : (s.putDock d x).attention = s.attention := by
  unfold State.putDock; dsimp only; split <;> rfl
@[simp] theorem State.putDock_faults : (s.putDock d x).faults = s.faults := by
  unfold State.putDock; dsimp only; split <;> rfl
@[simp] theorem State.putDock_faultsDropped : (s.putDock d x).faultsDropped = s.faultsDropped := by
  unfold State.putDock; dsimp only; split <;> rfl
@[simp] theorem State.putDock_readerRuns : (s.putDock d x).readerRuns = s.readerRuns := by
  unfold State.putDock; dsimp only; split <;> rfl
@[simp] theorem State.putDock_offlineAt : (s.putDock d x).offlineAt = s.offlineAt := by
  unfold State.putDock; dsimp only; split <;> rfl
@[simp] theorem State.putDock_van : (s.putDock d x).van = s.van := by
  unfold State.putDock; dsimp only; split <;> rfl
@[simp] theorem State.putDock_directives : (s.putDock d x).directives = s.directives := by
  unfold State.putDock; dsimp only; split <;> rfl
@[simp] theorem State.putDock_store_settings : (s.putDock d x).store.settings = s.store.settings := by
  unfold State.putDock; dsimp only; split <;> rfl
@[simp] theorem State.putDock_store_plans : (s.putDock d x).store.plans = s.store.plans := by
  unfold State.putDock; dsimp only; split <;> rfl
@[simp] theorem State.putDock_store_tariffs : (s.putDock d x).store.tariffs = s.store.tariffs := by
  unfold State.putDock; dsimp only; split <;> rfl
@[simp] theorem State.putDock_store_deny : (s.putDock d x).store.deny = s.store.deny := by
  unfold State.putDock; dsimp only; split <;> rfl
@[simp] theorem State.putDock_store_passes : (s.putDock d x).store.passes = s.store.passes := by
  unfold State.putDock; dsimp only; split <;> rfl
@[simp] theorem State.putDock_store_hires : (s.putDock d x).store.hires = s.store.hires := by
  unfold State.putDock; dsimp only; split <;> rfl
@[simp] theorem State.putDock_store_settle : (s.putDock d x).store.settle = s.store.settle := by
  unfold State.putDock; dsimp only; split <;> rfl
@[simp] theorem State.putDock_store_journal : (s.putDock d x).store.journal = s.store.journal := by
  unfold State.putDock; dsimp only; split <;> rfl
@[simp] theorem State.putDock_store_hireCount : (s.putDock d x).store.hireCount = s.store.hireCount := by
  unfold State.putDock; dsimp only; split <;> rfl
@[simp] theorem State.putDock_store_epoch : (s.putDock d x).store.epoch = s.store.epoch := by
  unfold State.putDock; dsimp only; split <;> rfl
@[simp] theorem State.putDock_store : (s.putDock d x).store = s.store := by
  unfold State.putDock; dsimp only; split <;> rfl
@[simp] theorem State.putDock_now : (s.putDock d x).now = s.now := by
  unfold State.putDock; dsimp only; split <;> rfl
@[simp] theorem State.putDock_settings : (s.putDock d x).settings = s.settings := by
  unfold State.putDock; dsimp only; split <;> rfl
@[simp] theorem State.putDock_pass (n : Nat) : (s.putDock d x).pass n = s.pass n := by
  unfold State.putDock; dsimp only; split <;> rfl
@[simp] theorem State.putDock_node (e : Nat) : (s.putDock d x).node e = s.node e := by
  unfold State.putDock; dsimp only; split <;> rfl
@[simp] theorem State.putDock_free : (s.putDock d x).free = s.free := by
  unfold State.putDock; dsimp only; split <;> rfl
@[simp] theorem State.putDock_records : (s.putDock d x).records = s.records := by
  unfold State.putDock; dsimp only; split <;> rfl
@[simp] theorem State.putDock_hires : (s.putDock d x).hires = s.hires := by
  unfold State.putDock; dsimp only; split <;> rfl
@[simp] theorem State.putDock_entries : (s.putDock d x).entries = s.entries := by
  unfold State.putDock; dsimp only; split <;> rfl
@[simp] theorem State.putDock_tariffs : (s.putDock d x).tariffs = s.tariffs := by
  unfold State.putDock; dsimp only; split <;> rfl
@[simp] theorem State.putDock_denied : (s.putDock d x).denied = s.denied := by
  unfold State.putDock; dsimp only; split <;> rfl
@[simp] theorem State.putDock_lowestSettling : (s.putDock d x).lowestSettling = s.lowestSettling := by
  unfold State.putDock; dsimp only; split <;> rfl
@[simp] theorem State.putDock_plans : (s.putDock d x).plans = s.plans := by
  unfold State.putDock; dsimp only; split <;> rfl
@[simp] theorem State.putDock_heldAt (n : Nat) : (s.putDock d x).heldAt n = s.heldAt n := by
  unfold State.putDock; dsimp only; split <;> rfl
@[simp] theorem State.putDock_hireOf (ref : HireRef) : (s.putDock d x).hireOf ref = s.hireOf ref := by
  unfold State.putDock; dsimp only; split <;> rfl

end

/-! ### What `State.putVan` leaves as it was -/

section

variable (v : Van)

@[simp] theorem State.putVan_power : (s.putVan v).power = s.power := by
  unfold State.putVan; dsimp only; split <;> rfl
@[simp] theorem State.putVan_elapsed : (s.putVan v).elapsed = s.elapsed := by
  unfold State.putVan; dsimp only; split <;> rfl
@[simp] theorem State.putVan_stationId : (s.putVan v).stationId = s.stationId := by
  unfold State.putVan; dsimp only; split <;> rfl
@[simp] theorem State.putVan_strings : (s.putVan v).strings = s.strings := by
  unfold State.putVan; dsimp only; split <;> rfl
@[simp] theorem State.putVan_nodes : (s.putVan v).nodes = s.nodes := by
  unfold State.putVan; dsimp only; split <;> rfl
@[simp] theorem State.putVan_docks : (s.putVan v).docks = s.docks := by
  unfold State.putVan; dsimp only; split <;> rfl
@[simp] theorem State.putVan_censusLimit : (s.putVan v).censusLimit = s.censusLimit := by
  unfold State.putVan; dsimp only; split <;> rfl
@[simp] theorem State.putVan_setAside : (s.putVan v).setAside = s.setAside := by
  unfold State.putVan; dsimp only; split <;> rfl
@[simp] theorem State.putVan_replySlot : (s.putVan v).replySlot = s.replySlot := by
  unfold State.putVan; dsimp only; split <;> rfl
@[simp] theorem State.putVan_sixth : (s.putVan v).sixth = s.sixth := by
  unfold State.putVan; dsimp only; split <;> rfl
@[simp] theorem State.putVan_attention : (s.putVan v).attention = s.attention := by
  unfold State.putVan; dsimp only; split <;> rfl
@[simp] theorem State.putVan_faults : (s.putVan v).faults = s.faults := by
  unfold State.putVan; dsimp only; split <;> rfl
@[simp] theorem State.putVan_faultsDropped : (s.putVan v).faultsDropped = s.faultsDropped := by
  unfold State.putVan; dsimp only; split <;> rfl
@[simp] theorem State.putVan_readerRuns : (s.putVan v).readerRuns = s.readerRuns := by
  unfold State.putVan; dsimp only; split <;> rfl
@[simp] theorem State.putVan_offlineAt : (s.putVan v).offlineAt = s.offlineAt := by
  unfold State.putVan; dsimp only; split <;> rfl
@[simp] theorem State.putVan_directives : (s.putVan v).directives = s.directives := by
  unfold State.putVan; dsimp only; split <;> rfl
@[simp] theorem State.putVan_store_settings : (s.putVan v).store.settings = s.store.settings := by
  unfold State.putVan; dsimp only; split <;> rfl
@[simp] theorem State.putVan_store_plans : (s.putVan v).store.plans = s.store.plans := by
  unfold State.putVan; dsimp only; split <;> rfl
@[simp] theorem State.putVan_store_tariffs : (s.putVan v).store.tariffs = s.store.tariffs := by
  unfold State.putVan; dsimp only; split <;> rfl
@[simp] theorem State.putVan_store_deny : (s.putVan v).store.deny = s.store.deny := by
  unfold State.putVan; dsimp only; split <;> rfl
@[simp] theorem State.putVan_store_passes : (s.putVan v).store.passes = s.store.passes := by
  unfold State.putVan; dsimp only; split <;> rfl
@[simp] theorem State.putVan_store_hires : (s.putVan v).store.hires = s.store.hires := by
  unfold State.putVan; dsimp only; split <;> rfl
@[simp] theorem State.putVan_store_settle : (s.putVan v).store.settle = s.store.settle := by
  unfold State.putVan; dsimp only; split <;> rfl
@[simp] theorem State.putVan_store_journal : (s.putVan v).store.journal = s.store.journal := by
  unfold State.putVan; dsimp only; split <;> rfl
@[simp] theorem State.putVan_store_hireCount : (s.putVan v).store.hireCount = s.store.hireCount := by
  unfold State.putVan; dsimp only; split <;> rfl
@[simp] theorem State.putVan_store_epoch : (s.putVan v).store.epoch = s.store.epoch := by
  unfold State.putVan; dsimp only; split <;> rfl
@[simp] theorem State.putVan_store : (s.putVan v).store = s.store := by
  unfold State.putVan; dsimp only; split <;> rfl
@[simp] theorem State.putVan_now : (s.putVan v).now = s.now := by
  unfold State.putVan; dsimp only; split <;> rfl
@[simp] theorem State.putVan_settings : (s.putVan v).settings = s.settings := by
  unfold State.putVan; dsimp only; split <;> rfl
@[simp] theorem State.putVan_dock (e : Nat) : (s.putVan v).dock e = s.dock e := by
  unfold State.putVan; dsimp only; split <;> rfl
@[simp] theorem State.putVan_pass (n : Nat) : (s.putVan v).pass n = s.pass n := by
  unfold State.putVan; dsimp only; split <;> rfl
@[simp] theorem State.putVan_node (e : Nat) : (s.putVan v).node e = s.node e := by
  unfold State.putVan; dsimp only; split <;> rfl
@[simp] theorem State.putVan_free : (s.putVan v).free = s.free := by
  unfold State.putVan; dsimp only; split <;> rfl
@[simp] theorem State.putVan_records : (s.putVan v).records = s.records := by
  unfold State.putVan; dsimp only; split <;> rfl
@[simp] theorem State.putVan_hires : (s.putVan v).hires = s.hires := by
  unfold State.putVan; dsimp only; split <;> rfl
@[simp] theorem State.putVan_entries : (s.putVan v).entries = s.entries := by
  unfold State.putVan; dsimp only; split <;> rfl
@[simp] theorem State.putVan_tariffs : (s.putVan v).tariffs = s.tariffs := by
  unfold State.putVan; dsimp only; split <;> rfl
@[simp] theorem State.putVan_denied : (s.putVan v).denied = s.denied := by
  unfold State.putVan; dsimp only; split <;> rfl
@[simp] theorem State.putVan_stock : (s.putVan v).stock = s.stock := by
  unfold State.putVan; dsimp only; split <;> rfl
@[simp] theorem State.putVan_available : (s.putVan v).available = s.available := by
  unfold State.putVan; dsimp only; split <;> rfl
@[simp] theorem State.putVan_releases : (s.putVan v).releases = s.releases := by
  unfold State.putVan; dsimp only; split <;> rfl
@[simp] theorem State.putVan_lowestSettling : (s.putVan v).lowestSettling = s.lowestSettling := by
  unfold State.putVan; dsimp only; split <;> rfl
@[simp] theorem State.putVan_plans : (s.putVan v).plans = s.plans := by
  unfold State.putVan; dsimp only; split <;> rfl
@[simp] theorem State.putVan_vanReleases : (s.putVan v).vanReleases = s.vanReleases := by
  unfold State.putVan; dsimp only; split <;> rfl
@[simp] theorem State.putVan_hireReleases : (s.putVan v).hireReleases = s.hireReleases := by
  unfold State.putVan; dsimp only; split <;> rfl
@[simp] theorem State.putVan_droppable : (s.putVan v).droppable = s.droppable := by
  unfold State.putVan; dsimp only; split <;> rfl
@[simp] theorem State.putVan_heldAt (n : Nat) : (s.putVan v).heldAt n = s.heldAt n := by
  unfold State.putVan; dsimp only; split <;> rfl
@[simp] theorem State.putVan_hireOf (ref : HireRef) : (s.putVan v).hireOf ref = s.hireOf ref := by
  unfold State.putVan; dsimp only; split <;> rfl

end

/-! ### What `State.issue` leaves as it was -/

section

variable (d : Nat) (c : Command)

@[simp] theorem State.issue_power : (s.issue d c).power = s.power := by
  rw [State.issue_eq]; split <;> rfl
@[simp] theorem State.issue_elapsed : (s.issue d c).elapsed = s.elapsed := by
  rw [State.issue_eq]; split <;> rfl
@[simp] theorem State.issue_stationId : (s.issue d c).stationId = s.stationId := by
  rw [State.issue_eq]; split <;> rfl
@[simp] theorem State.issue_strings : (s.issue d c).strings = s.strings := by
  rw [State.issue_eq]; split <;> rfl
@[simp] theorem State.issue_docks : (s.issue d c).docks = s.docks := by
  rw [State.issue_eq]; split <;> rfl
@[simp] theorem State.issue_censusLimit : (s.issue d c).censusLimit = s.censusLimit := by
  rw [State.issue_eq]; split <;> rfl
@[simp] theorem State.issue_setAside : (s.issue d c).setAside = s.setAside := by
  rw [State.issue_eq]; split <;> rfl
@[simp] theorem State.issue_replySlot : (s.issue d c).replySlot = s.replySlot := by
  rw [State.issue_eq]; split <;> rfl
@[simp] theorem State.issue_sixth : (s.issue d c).sixth = s.sixth := by
  rw [State.issue_eq]; split <;> rfl
@[simp] theorem State.issue_attention : (s.issue d c).attention = s.attention := by
  rw [State.issue_eq]; split <;> rfl
@[simp] theorem State.issue_faults : (s.issue d c).faults = s.faults := by
  rw [State.issue_eq]; split <;> rfl
@[simp] theorem State.issue_faultsDropped : (s.issue d c).faultsDropped = s.faultsDropped := by
  rw [State.issue_eq]; split <;> rfl
@[simp] theorem State.issue_readerRuns : (s.issue d c).readerRuns = s.readerRuns := by
  rw [State.issue_eq]; split <;> rfl
@[simp] theorem State.issue_offlineAt : (s.issue d c).offlineAt = s.offlineAt := by
  rw [State.issue_eq]; split <;> rfl
@[simp] theorem State.issue_van : (s.issue d c).van = s.van := by
  rw [State.issue_eq]; split <;> rfl
@[simp] theorem State.issue_directives : (s.issue d c).directives = s.directives := by
  rw [State.issue_eq]; split <;> rfl
@[simp] theorem State.issue_store_settings : (s.issue d c).store.settings = s.store.settings := by
  rw [State.issue_eq]; split <;> rfl
@[simp] theorem State.issue_store_plans : (s.issue d c).store.plans = s.store.plans := by
  rw [State.issue_eq]; split <;> rfl
@[simp] theorem State.issue_store_tariffs : (s.issue d c).store.tariffs = s.store.tariffs := by
  rw [State.issue_eq]; split <;> rfl
@[simp] theorem State.issue_store_deny : (s.issue d c).store.deny = s.store.deny := by
  rw [State.issue_eq]; split <;> rfl
@[simp] theorem State.issue_store_passes : (s.issue d c).store.passes = s.store.passes := by
  rw [State.issue_eq]; split <;> rfl
@[simp] theorem State.issue_store_hires : (s.issue d c).store.hires = s.store.hires := by
  rw [State.issue_eq]; split <;> rfl
@[simp] theorem State.issue_store_settle : (s.issue d c).store.settle = s.store.settle := by
  rw [State.issue_eq]; split <;> rfl
@[simp] theorem State.issue_store_journal : (s.issue d c).store.journal = s.store.journal := by
  rw [State.issue_eq]; split <;> rfl
@[simp] theorem State.issue_store_hireCount : (s.issue d c).store.hireCount = s.store.hireCount := by
  rw [State.issue_eq]; split <;> rfl
@[simp] theorem State.issue_store_epoch : (s.issue d c).store.epoch = s.store.epoch := by
  rw [State.issue_eq]; split <;> rfl
@[simp] theorem State.issue_store : (s.issue d c).store = s.store := by
  rw [State.issue_eq]; split <;> rfl
@[simp] theorem State.issue_now : (s.issue d c).now = s.now := by
  rw [State.issue_eq]; split <;> rfl
@[simp] theorem State.issue_settings : (s.issue d c).settings = s.settings := by
  rw [State.issue_eq]; split <;> rfl
@[simp] theorem State.issue_pass (n : Nat) : (s.issue d c).pass n = s.pass n := by
  rw [State.issue_eq]; split <;> rfl
@[simp] theorem State.issue_free : (s.issue d c).free = s.free := by
  rw [State.issue_eq]; split <;> rfl
@[simp] theorem State.issue_records : (s.issue d c).records = s.records := by
  rw [State.issue_eq]; split <;> rfl
@[simp] theorem State.issue_hires : (s.issue d c).hires = s.hires := by
  rw [State.issue_eq]; split <;> rfl
@[simp] theorem State.issue_entries : (s.issue d c).entries = s.entries := by
  rw [State.issue_eq]; split <;> rfl
@[simp] theorem State.issue_tariffs : (s.issue d c).tariffs = s.tariffs := by
  rw [State.issue_eq]; split <;> rfl
@[simp] theorem State.issue_denied : (s.issue d c).denied = s.denied := by
  rw [State.issue_eq]; split <;> rfl
@[simp] theorem State.issue_stock : (s.issue d c).stock = s.stock := by
  rw [State.issue_eq]; split <;> rfl
@[simp] theorem State.issue_available : (s.issue d c).available = s.available := by
  rw [State.issue_eq]; split <;> rfl
@[simp] theorem State.issue_releases : (s.issue d c).releases = s.releases := by
  rw [State.issue_eq]; split <;> rfl
@[simp] theorem State.issue_lowestSettling : (s.issue d c).lowestSettling = s.lowestSettling := by
  rw [State.issue_eq]; split <;> rfl
@[simp] theorem State.issue_plans : (s.issue d c).plans = s.plans := by
  rw [State.issue_eq]; split <;> rfl
@[simp] theorem State.issue_vanReleases : (s.issue d c).vanReleases = s.vanReleases := by
  rw [State.issue_eq]; split <;> rfl
@[simp] theorem State.issue_hireReleases : (s.issue d c).hireReleases = s.hireReleases := by
  rw [State.issue_eq]; split <;> rfl
@[simp] theorem State.issue_droppable : (s.issue d c).droppable = s.droppable := by
  rw [State.issue_eq]; split <;> rfl
@[simp] theorem State.issue_heldAt (n : Nat) : (s.issue d c).heldAt n = s.heldAt n := by
  rw [State.issue_eq]; split <;> rfl
@[simp] theorem State.issue_hireOf (ref : HireRef) : (s.issue d c).hireOf ref = s.hireOf ref := by
  rw [State.issue_eq]; split <;> rfl

end

/-! ### What `State.raise` leaves as it was -/

section

variable (k : NoticeKind)

@[simp] theorem State.raise_store_settings : (s.raise k).store.settings = s.store.settings := rfl
@[simp] theorem State.raise_store_plans : (s.raise k).store.plans = s.store.plans := rfl
@[simp] theorem State.raise_store_tariffs : (s.raise k).store.tariffs = s.store.tariffs := rfl
@[simp] theorem State.raise_store_deny : (s.raise k).store.deny = s.store.deny := rfl
@[simp] theorem State.raise_store_passes : (s.raise k).store.passes = s.store.passes := rfl
@[simp] theorem State.raise_store_hires : (s.raise k).store.hires = s.store.hires := rfl
@[simp] theorem State.raise_store_settle : (s.raise k).store.settle = s.store.settle := rfl
@[simp] theorem State.raise_store_journal : (s.raise k).store.journal = s.store.journal := rfl
@[simp] theorem State.raise_store_hireCount : (s.raise k).store.hireCount = s.store.hireCount := rfl
@[simp] theorem State.raise_store_epoch : (s.raise k).store.epoch = s.store.epoch := rfl
@[simp] theorem State.raise_now : (s.raise k).now = s.now := rfl
@[simp] theorem State.raise_settings : (s.raise k).settings = s.settings := rfl
@[simp] theorem State.raise_dock (e : Nat) : (s.raise k).dock e = s.dock e := rfl
@[simp] theorem State.raise_pass (n : Nat) : (s.raise k).pass n = s.pass n := rfl
@[simp] theorem State.raise_node (e : Nat) : (s.raise k).node e = s.node e := rfl
@[simp] theorem State.raise_free : (s.raise k).free = s.free := rfl
@[simp] theorem State.raise_records : (s.raise k).records = s.records := rfl
@[simp] theorem State.raise_hires : (s.raise k).hires = s.hires := rfl
@[simp] theorem State.raise_entries : (s.raise k).entries = s.entries := rfl
@[simp] theorem State.raise_tariffs : (s.raise k).tariffs = s.tariffs := rfl
@[simp] theorem State.raise_denied : (s.raise k).denied = s.denied := rfl
@[simp] theorem State.raise_stock : (s.raise k).stock = s.stock := rfl
@[simp] theorem State.raise_available : (s.raise k).available = s.available := rfl
@[simp] theorem State.raise_releases : (s.raise k).releases = s.releases := rfl
@[simp] theorem State.raise_lowestSettling : (s.raise k).lowestSettling = s.lowestSettling := rfl
@[simp] theorem State.raise_plans : (s.raise k).plans = s.plans := rfl
@[simp] theorem State.raise_vanReleases : (s.raise k).vanReleases = s.vanReleases := rfl
@[simp] theorem State.raise_hireReleases : (s.raise k).hireReleases = s.hireReleases := rfl
@[simp] theorem State.raise_droppable : (s.raise k).droppable = s.droppable := rfl
@[simp] theorem State.raise_heldAt (n : Nat) : (s.raise k).heldAt n = s.heldAt n := rfl
@[simp] theorem State.raise_hireOf (ref : HireRef) : (s.raise k).hireOf ref = s.hireOf ref := rfl

end

/-! ### What `State.putReservation` leaves as it was -/

section

variable (d : Nat) (x : Reservation)

@[simp] theorem State.putReservation_power : (s.putReservation d x).power = s.power := by
  simp [State.putReservation]
@[simp] theorem State.putReservation_elapsed : (s.putReservation d x).elapsed = s.elapsed := by
  simp [State.putReservation]
@[simp] theorem State.putReservation_stationId : (s.putReservation d x).stationId = s.stationId := by
  simp [State.putReservation]
@[simp] theorem State.putReservation_strings : (s.putReservation d x).strings = s.strings := by
  simp [State.putReservation]
@[simp] theorem State.putReservation_nodes : (s.putReservation d x).nodes = s.nodes := by
  simp [State.putReservation]
@[simp] theorem State.putReservation_censusLimit : (s.putReservation d x).censusLimit = s.censusLimit := by
  simp [State.putReservation]
@[simp] theorem State.putReservation_setAside : (s.putReservation d x).setAside = s.setAside := by
  simp [State.putReservation]
@[simp] theorem State.putReservation_replySlot : (s.putReservation d x).replySlot = s.replySlot := by
  simp [State.putReservation]
@[simp] theorem State.putReservation_sixth : (s.putReservation d x).sixth = s.sixth := by
  simp [State.putReservation]
@[simp] theorem State.putReservation_attention : (s.putReservation d x).attention = s.attention := by
  simp [State.putReservation]
@[simp] theorem State.putReservation_faults : (s.putReservation d x).faults = s.faults := by
  simp [State.putReservation]
@[simp] theorem State.putReservation_faultsDropped : (s.putReservation d x).faultsDropped = s.faultsDropped := by
  simp [State.putReservation]
@[simp] theorem State.putReservation_readerRuns : (s.putReservation d x).readerRuns = s.readerRuns := by
  simp [State.putReservation]
@[simp] theorem State.putReservation_offlineAt : (s.putReservation d x).offlineAt = s.offlineAt := by
  simp [State.putReservation]
@[simp] theorem State.putReservation_van : (s.putReservation d x).van = s.van := by
  simp [State.putReservation]
@[simp] theorem State.putReservation_directives : (s.putReservation d x).directives = s.directives := by
  simp [State.putReservation]
@[simp] theorem State.putReservation_store_settings : (s.putReservation d x).store.settings = s.store.settings := by
  simp [State.putReservation]
@[simp] theorem State.putReservation_store_plans : (s.putReservation d x).store.plans = s.store.plans := by
  simp [State.putReservation]
@[simp] theorem State.putReservation_store_tariffs : (s.putReservation d x).store.tariffs = s.store.tariffs := by
  simp [State.putReservation]
@[simp] theorem State.putReservation_store_deny : (s.putReservation d x).store.deny = s.store.deny := by
  simp [State.putReservation]
@[simp] theorem State.putReservation_store_passes : (s.putReservation d x).store.passes = s.store.passes := by
  simp [State.putReservation]
@[simp] theorem State.putReservation_store_hires : (s.putReservation d x).store.hires = s.store.hires := by
  simp [State.putReservation]
@[simp] theorem State.putReservation_store_settle : (s.putReservation d x).store.settle = s.store.settle := by
  simp [State.putReservation]
@[simp] theorem State.putReservation_store_journal : (s.putReservation d x).store.journal = s.store.journal := by
  simp [State.putReservation]
@[simp] theorem State.putReservation_store_hireCount : (s.putReservation d x).store.hireCount = s.store.hireCount := by
  simp [State.putReservation]
@[simp] theorem State.putReservation_store_epoch : (s.putReservation d x).store.epoch = s.store.epoch := by
  simp [State.putReservation]
@[simp] theorem State.putReservation_store : (s.putReservation d x).store = s.store := by
  simp [State.putReservation]
@[simp] theorem State.putReservation_now : (s.putReservation d x).now = s.now := by
  simp [State.putReservation]
@[simp] theorem State.putReservation_settings : (s.putReservation d x).settings = s.settings := by
  simp [State.putReservation]
@[simp] theorem State.putReservation_pass (n : Nat) : (s.putReservation d x).pass n = s.pass n := by
  simp [State.putReservation]
@[simp] theorem State.putReservation_node (e : Nat) : (s.putReservation d x).node e = s.node e := by
  simp [State.putReservation]
@[simp] theorem State.putReservation_free : (s.putReservation d x).free = s.free := by
  simp [State.putReservation]
@[simp] theorem State.putReservation_records : (s.putReservation d x).records = s.records := by
  simp [State.putReservation]
@[simp] theorem State.putReservation_hires : (s.putReservation d x).hires = s.hires := by
  simp [State.putReservation]
@[simp] theorem State.putReservation_entries : (s.putReservation d x).entries = s.entries := by
  simp [State.putReservation]
@[simp] theorem State.putReservation_tariffs : (s.putReservation d x).tariffs = s.tariffs := by
  simp [State.putReservation]
@[simp] theorem State.putReservation_denied : (s.putReservation d x).denied = s.denied := by
  simp [State.putReservation]
@[simp] theorem State.putReservation_lowestSettling : (s.putReservation d x).lowestSettling = s.lowestSettling := by
  simp [State.putReservation]
@[simp] theorem State.putReservation_plans : (s.putReservation d x).plans = s.plans := by
  simp [State.putReservation]
@[simp] theorem State.putReservation_heldAt (n : Nat) : (s.putReservation d x).heldAt n = s.heldAt n := by
  simp [State.putReservation]
@[simp] theorem State.putReservation_hireOf (ref : HireRef) : (s.putReservation d x).hireOf ref = s.hireOf ref := by
  simp [State.putReservation]

end

/-! ### What `State.setAttention` leaves as it was -/

section

variable (c : AttentionCause)

@[simp] theorem State.setAttention_power : (s.setAttention c).power = s.power := by
  unfold State.setAttention State.putAttention; split <;> rfl
@[simp] theorem State.setAttention_elapsed : (s.setAttention c).elapsed = s.elapsed := by
  unfold State.setAttention State.putAttention; split <;> rfl
@[simp] theorem State.setAttention_stationId : (s.setAttention c).stationId = s.stationId := by
  unfold State.setAttention State.putAttention; split <;> rfl
@[simp] theorem State.setAttention_strings : (s.setAttention c).strings = s.strings := by
  unfold State.setAttention State.putAttention; split <;> rfl
@[simp] theorem State.setAttention_nodes : (s.setAttention c).nodes = s.nodes := by
  unfold State.setAttention State.putAttention; split <;> rfl
@[simp] theorem State.setAttention_docks : (s.setAttention c).docks = s.docks := by
  unfold State.setAttention State.putAttention; split <;> rfl
@[simp] theorem State.setAttention_censusLimit : (s.setAttention c).censusLimit = s.censusLimit := by
  unfold State.setAttention State.putAttention; split <;> rfl
@[simp] theorem State.setAttention_setAside : (s.setAttention c).setAside = s.setAside := by
  unfold State.setAttention State.putAttention; split <;> rfl
@[simp] theorem State.setAttention_replySlot : (s.setAttention c).replySlot = s.replySlot := by
  unfold State.setAttention State.putAttention; split <;> rfl
@[simp] theorem State.setAttention_sixth : (s.setAttention c).sixth = s.sixth := by
  unfold State.setAttention State.putAttention; split <;> rfl
@[simp] theorem State.setAttention_faults : (s.setAttention c).faults = s.faults := by
  unfold State.setAttention State.putAttention; split <;> rfl
@[simp] theorem State.setAttention_faultsDropped : (s.setAttention c).faultsDropped = s.faultsDropped := by
  unfold State.setAttention State.putAttention; split <;> rfl
@[simp] theorem State.setAttention_readerRuns : (s.setAttention c).readerRuns = s.readerRuns := by
  unfold State.setAttention State.putAttention; split <;> rfl
@[simp] theorem State.setAttention_offlineAt : (s.setAttention c).offlineAt = s.offlineAt := by
  unfold State.setAttention State.putAttention; split <;> rfl
@[simp] theorem State.setAttention_van : (s.setAttention c).van = s.van := by
  unfold State.setAttention State.putAttention; split <;> rfl
@[simp] theorem State.setAttention_directives : (s.setAttention c).directives = s.directives := by
  unfold State.setAttention State.putAttention; split <;> rfl
@[simp] theorem State.setAttention_store_settings : (s.setAttention c).store.settings = s.store.settings := by
  unfold State.setAttention State.putAttention; split <;> rfl
@[simp] theorem State.setAttention_store_plans : (s.setAttention c).store.plans = s.store.plans := by
  unfold State.setAttention State.putAttention; split <;> rfl
@[simp] theorem State.setAttention_store_tariffs : (s.setAttention c).store.tariffs = s.store.tariffs := by
  unfold State.setAttention State.putAttention; split <;> rfl
@[simp] theorem State.setAttention_store_deny : (s.setAttention c).store.deny = s.store.deny := by
  unfold State.setAttention State.putAttention; split <;> rfl
@[simp] theorem State.setAttention_store_passes : (s.setAttention c).store.passes = s.store.passes := by
  unfold State.setAttention State.putAttention; split <;> rfl
@[simp] theorem State.setAttention_store_hires : (s.setAttention c).store.hires = s.store.hires := by
  unfold State.setAttention State.putAttention; split <;> rfl
@[simp] theorem State.setAttention_store_settle : (s.setAttention c).store.settle = s.store.settle := by
  unfold State.setAttention State.putAttention; split <;> rfl
@[simp] theorem State.setAttention_store_journal : (s.setAttention c).store.journal = s.store.journal := by
  unfold State.setAttention State.putAttention; split <;> rfl
@[simp] theorem State.setAttention_store_hireCount : (s.setAttention c).store.hireCount = s.store.hireCount := by
  unfold State.setAttention State.putAttention; split <;> rfl
@[simp] theorem State.setAttention_store_epoch : (s.setAttention c).store.epoch = s.store.epoch := by
  unfold State.setAttention State.putAttention; split <;> rfl
@[simp] theorem State.setAttention_store : (s.setAttention c).store = s.store := by
  unfold State.setAttention State.putAttention; split <;> rfl
@[simp] theorem State.setAttention_now : (s.setAttention c).now = s.now := by
  unfold State.setAttention State.putAttention; split <;> rfl
@[simp] theorem State.setAttention_settings : (s.setAttention c).settings = s.settings := by
  unfold State.setAttention State.putAttention; split <;> rfl
@[simp] theorem State.setAttention_dock (e : Nat) : (s.setAttention c).dock e = s.dock e := by
  unfold State.setAttention State.putAttention; split <;> rfl
@[simp] theorem State.setAttention_pass (n : Nat) : (s.setAttention c).pass n = s.pass n := by
  unfold State.setAttention State.putAttention; split <;> rfl
@[simp] theorem State.setAttention_node (e : Nat) : (s.setAttention c).node e = s.node e := by
  unfold State.setAttention State.putAttention; split <;> rfl
@[simp] theorem State.setAttention_free : (s.setAttention c).free = s.free := by
  unfold State.setAttention State.putAttention; split <;> rfl
@[simp] theorem State.setAttention_records : (s.setAttention c).records = s.records := by
  unfold State.setAttention State.putAttention; split <;> rfl
@[simp] theorem State.setAttention_hires : (s.setAttention c).hires = s.hires := by
  unfold State.setAttention State.putAttention; split <;> rfl
@[simp] theorem State.setAttention_entries : (s.setAttention c).entries = s.entries := by
  unfold State.setAttention State.putAttention; split <;> rfl
@[simp] theorem State.setAttention_tariffs : (s.setAttention c).tariffs = s.tariffs := by
  unfold State.setAttention State.putAttention; split <;> rfl
@[simp] theorem State.setAttention_denied : (s.setAttention c).denied = s.denied := by
  unfold State.setAttention State.putAttention; split <;> rfl
@[simp] theorem State.setAttention_stock : (s.setAttention c).stock = s.stock := by
  unfold State.setAttention State.putAttention; split <;> rfl
@[simp] theorem State.setAttention_available : (s.setAttention c).available = s.available := by
  unfold State.setAttention State.putAttention; split <;> rfl
@[simp] theorem State.setAttention_releases : (s.setAttention c).releases = s.releases := by
  unfold State.setAttention State.putAttention; split <;> rfl
@[simp] theorem State.setAttention_lowestSettling : (s.setAttention c).lowestSettling = s.lowestSettling := by
  unfold State.setAttention State.putAttention; split <;> rfl
@[simp] theorem State.setAttention_plans : (s.setAttention c).plans = s.plans := by
  unfold State.setAttention State.putAttention; split <;> rfl
@[simp] theorem State.setAttention_vanReleases : (s.setAttention c).vanReleases = s.vanReleases := by
  unfold State.setAttention State.putAttention; split <;> rfl
@[simp] theorem State.setAttention_hireReleases : (s.setAttention c).hireReleases = s.hireReleases := by
  unfold State.setAttention State.putAttention; split <;> rfl
@[simp] theorem State.setAttention_droppable : (s.setAttention c).droppable = s.droppable := by
  unfold State.setAttention State.putAttention; split <;> rfl
@[simp] theorem State.setAttention_heldAt (n : Nat) : (s.setAttention c).heldAt n = s.heldAt n := by
  unfold State.setAttention State.putAttention; split <;> rfl
@[simp] theorem State.setAttention_hireOf (ref : HireRef) : (s.setAttention c).hireOf ref = s.hireOf ref := by
  unfold State.setAttention State.putAttention; split <;> rfl

end

/-! ### What `State.makeFault` leaves as it was -/

section

variable (f : FaultRecord)

@[simp] theorem State.makeFault_power : (s.makeFault f).power = s.power := by
  unfold State.makeFault State.postFault State.post; dsimp only; split <;> [split; skip] <;> rfl
@[simp] theorem State.makeFault_elapsed : (s.makeFault f).elapsed = s.elapsed := by
  unfold State.makeFault State.postFault State.post; dsimp only; split <;> [split; skip] <;> rfl
@[simp] theorem State.makeFault_stationId : (s.makeFault f).stationId = s.stationId := by
  unfold State.makeFault State.postFault State.post; dsimp only; split <;> [split; skip] <;> rfl
@[simp] theorem State.makeFault_strings : (s.makeFault f).strings = s.strings := by
  unfold State.makeFault State.postFault State.post; dsimp only; split <;> [split; skip] <;> rfl
@[simp] theorem State.makeFault_nodes : (s.makeFault f).nodes = s.nodes := by
  unfold State.makeFault State.postFault State.post; dsimp only; split <;> [split; skip] <;> rfl
@[simp] theorem State.makeFault_docks : (s.makeFault f).docks = s.docks := by
  unfold State.makeFault State.postFault State.post; dsimp only; split <;> [split; skip] <;> rfl
@[simp] theorem State.makeFault_censusLimit : (s.makeFault f).censusLimit = s.censusLimit := by
  unfold State.makeFault State.postFault State.post; dsimp only; split <;> [split; skip] <;> rfl
@[simp] theorem State.makeFault_setAside : (s.makeFault f).setAside = s.setAside := by
  unfold State.makeFault State.postFault State.post; dsimp only; split <;> [split; skip] <;> rfl
@[simp] theorem State.makeFault_replySlot : (s.makeFault f).replySlot = s.replySlot := by
  unfold State.makeFault State.postFault State.post; dsimp only; split <;> [split; skip] <;> rfl
@[simp] theorem State.makeFault_sixth : (s.makeFault f).sixth = s.sixth := by
  unfold State.makeFault State.postFault State.post; dsimp only; split <;> [split; skip] <;> rfl
@[simp] theorem State.makeFault_attention : (s.makeFault f).attention = s.attention := by
  unfold State.makeFault State.postFault State.post; dsimp only; split <;> [split; skip] <;> rfl
@[simp] theorem State.makeFault_readerRuns : (s.makeFault f).readerRuns = s.readerRuns := by
  unfold State.makeFault State.postFault State.post; dsimp only; split <;> [split; skip] <;> rfl
@[simp] theorem State.makeFault_offlineAt : (s.makeFault f).offlineAt = s.offlineAt := by
  unfold State.makeFault State.postFault State.post; dsimp only; split <;> [split; skip] <;> rfl
@[simp] theorem State.makeFault_van : (s.makeFault f).van = s.van := by
  unfold State.makeFault State.postFault State.post; dsimp only; split <;> [split; skip] <;> rfl
@[simp] theorem State.makeFault_directives : (s.makeFault f).directives = s.directives := by
  unfold State.makeFault State.postFault State.post; dsimp only; split <;> [split; skip] <;> rfl
@[simp] theorem State.makeFault_link : (s.makeFault f).link = s.link := by
  unfold State.makeFault State.postFault State.post; dsimp only; split <;> [split; skip] <;> rfl
@[simp] theorem State.makeFault_store_settings : (s.makeFault f).store.settings = s.store.settings := by
  unfold State.makeFault State.postFault State.post; dsimp only; split <;> [split; skip] <;> rfl
@[simp] theorem State.makeFault_store_plans : (s.makeFault f).store.plans = s.store.plans := by
  unfold State.makeFault State.postFault State.post; dsimp only; split <;> [split; skip] <;> rfl
@[simp] theorem State.makeFault_store_tariffs : (s.makeFault f).store.tariffs = s.store.tariffs := by
  unfold State.makeFault State.postFault State.post; dsimp only; split <;> [split; skip] <;> rfl
@[simp] theorem State.makeFault_store_deny : (s.makeFault f).store.deny = s.store.deny := by
  unfold State.makeFault State.postFault State.post; dsimp only; split <;> [split; skip] <;> rfl
@[simp] theorem State.makeFault_store_passes : (s.makeFault f).store.passes = s.store.passes := by
  unfold State.makeFault State.postFault State.post; dsimp only; split <;> [split; skip] <;> rfl
@[simp] theorem State.makeFault_store_hires : (s.makeFault f).store.hires = s.store.hires := by
  unfold State.makeFault State.postFault State.post; dsimp only; split <;> [split; skip] <;> rfl
@[simp] theorem State.makeFault_store_settle : (s.makeFault f).store.settle = s.store.settle := by
  unfold State.makeFault State.postFault State.post; dsimp only; split <;> [split; skip] <;> rfl
@[simp] theorem State.makeFault_store_hireCount : (s.makeFault f).store.hireCount = s.store.hireCount := by
  unfold State.makeFault State.postFault State.post; dsimp only; split <;> [split; skip] <;> rfl
@[simp] theorem State.makeFault_now : (s.makeFault f).now = s.now := by
  unfold State.makeFault State.postFault State.post; dsimp only; split <;> [split; skip] <;> rfl
@[simp] theorem State.makeFault_settings : (s.makeFault f).settings = s.settings := by
  unfold State.makeFault State.postFault State.post; dsimp only; split <;> [split; skip] <;> rfl
@[simp] theorem State.makeFault_dock (e : Nat) : (s.makeFault f).dock e = s.dock e := by
  unfold State.makeFault State.postFault State.post; dsimp only; split <;> [split; skip] <;> rfl
@[simp] theorem State.makeFault_pass (n : Nat) : (s.makeFault f).pass n = s.pass n := by
  unfold State.makeFault State.postFault State.post; dsimp only; split <;> [split; skip] <;> rfl
@[simp] theorem State.makeFault_node (e : Nat) : (s.makeFault f).node e = s.node e := by
  unfold State.makeFault State.postFault State.post; dsimp only; split <;> [split; skip] <;> rfl
@[simp] theorem State.makeFault_hires : (s.makeFault f).hires = s.hires := by
  unfold State.makeFault State.postFault State.post; dsimp only; split <;> [split; skip] <;> rfl
@[simp] theorem State.makeFault_entries : (s.makeFault f).entries = s.entries := by
  unfold State.makeFault State.postFault State.post; dsimp only; split <;> [split; skip] <;> rfl
@[simp] theorem State.makeFault_tariffs : (s.makeFault f).tariffs = s.tariffs := by
  unfold State.makeFault State.postFault State.post; dsimp only; split <;> [split; skip] <;> rfl
@[simp] theorem State.makeFault_denied : (s.makeFault f).denied = s.denied := by
  unfold State.makeFault State.postFault State.post; dsimp only; split <;> [split; skip] <;> rfl
@[simp] theorem State.makeFault_stock : (s.makeFault f).stock = s.stock := by
  unfold State.makeFault State.postFault State.post; dsimp only; split <;> [split; skip] <;> rfl
@[simp] theorem State.makeFault_available : (s.makeFault f).available = s.available := by
  unfold State.makeFault State.postFault State.post; dsimp only; split <;> [split; skip] <;> rfl
@[simp] theorem State.makeFault_releases : (s.makeFault f).releases = s.releases := by
  unfold State.makeFault State.postFault State.post; dsimp only; split <;> [split; skip] <;> rfl
@[simp] theorem State.makeFault_lowestSettling : (s.makeFault f).lowestSettling = s.lowestSettling := by
  unfold State.makeFault State.postFault State.post; dsimp only; split <;> [split; skip] <;> rfl
@[simp] theorem State.makeFault_plans : (s.makeFault f).plans = s.plans := by
  unfold State.makeFault State.postFault State.post; dsimp only; split <;> [split; skip] <;> rfl
@[simp] theorem State.makeFault_vanReleases : (s.makeFault f).vanReleases = s.vanReleases := by
  unfold State.makeFault State.postFault State.post; dsimp only; split <;> [split; skip] <;> rfl
@[simp] theorem State.makeFault_hireReleases : (s.makeFault f).hireReleases = s.hireReleases := by
  unfold State.makeFault State.postFault State.post; dsimp only; split <;> [split; skip] <;> rfl
@[simp] theorem State.makeFault_droppable : (s.makeFault f).droppable = s.droppable := by
  unfold State.makeFault State.postFault State.post; dsimp only; split <;> [split; skip] <;> rfl
@[simp] theorem State.makeFault_heldAt (n : Nat) : (s.makeFault f).heldAt n = s.heldAt n := by
  unfold State.makeFault State.postFault State.post; dsimp only; split <;> [split; skip] <;> rfl
@[simp] theorem State.makeFault_hireOf (ref : HireRef) : (s.makeFault f).hireOf ref = s.hireOf ref := by
  unfold State.makeFault State.postFault State.post; dsimp only; split <;> [split; skip] <;> rfl

end
end Effects

/-! ### Tables of the arbiter -/

/-- A post stands at the end of the journal (R157). -/
theorem State.post_records (s : State) (b : Body) :
    (s.post b).records = s.records ++
      [{ epoch := s.store.epoch.cur.epoch, sequence := s.store.journal.cur.next, time := s.now, body := b, state := .unsent
         retries := s.settings.retryLimit }] := by
  unfold State.post; dsimp only; split <;> rfl

/-- A post takes a free slot (R156). -/
@[simp] theorem State.post_free (s : State) (b : Body) : (s.post b).free = s.free - 1 := by
  unfold State.free
  rw [State.post_records, List.length_append, State.post_setAside, State.post_replySlot, List.length_singleton]
  omega

theorem State.sixthWaits_iff {s : State} : s.sixthWaits = true ↔ s.free = 0 ∨ s.sixth ≠ [] := by
  simp [State.sixthWaits]

theorem State.sixthWaits_false {s : State} (hf : 0 < s.free) (hx : s.sixth = []) : s.sixthWaits = false := by
  simp [State.sixthWaits, hx]
  omega

/-- A row of a running part whose own effect keeps the power. -/
theorem exec_row {i : Instr} {f : State → State} {s t : State} (hi : exec i s = .next (s.running f))
    (hs : s.power = .running) (hf : f s = t) (ht : t.power = s.power) : exec i s = .next (t.finish s) :=
  exec_event hi hs hf (ht.trans hs)

end Sys2Proof.Machine
end

