-- ==== Sys2Proof/Proofs/Commits.lean ====
section
/-! PROOFS. TARIFF_COMMIT and the apply at its time (R83 to R88). -/

namespace Sys2Proof.Machine

/-! ### The tests of a commit (R84) -/

theorem commitTest_busy {s : State} (h : s.tariffs.commit ≠ none ∨ s.tariffs.waiting ≠ none) :
    s.commitTest = some (.plain .busy) := by
  unfold State.commitTest State.commitPending
  by_cases hc : s.tariffs.commit.isSome = true
  · rw [if_pos hc]
  · rw [if_neg hc, if_pos]
    exact Option.isSome_iff_ne_none.2 (h.resolve_left (by simpa using hc))

/-- With no commit and no record pending, the validation decides. -/
theorem commitTest_of_clear {s : State} (hc : s.tariffs.commit = none) (hw : s.tariffs.waiting = none) :
    s.commitTest = (validateStaged s.tariffs.staged).map
      (fun x => { status := .outOfRange, result := .badBand x.1 x.2 }) := by
  unfold State.commitTest State.commitPending
  simp only [hc, hw, Option.isSome_none, Bool.false_eq_true, if_false]
  cases validateStaged s.tariffs.staged <;> rfl

/-! ### An apply (R87, R88) -/

/-- The tariff set an apply leaves, spelled out. -/
theorem TariffSet.applied_eq (t : TariffSet) :
    t.applied =
      { current := { generation := if 255 ≤ t.current.generation then 1 else t.current.generation + 1
                     bands := t.staged.filterMap id }
        previous := some t.current, staged := List.replicate 8 none, commit := none, waiting := t.waiting } := rfl

theorem applyCommit_waits {s : State} (h : s.free = 0 ∨ s.sixth ≠ []) (q : Option Nat) :
    s.applyCommit q =
      { s.putTariffs { s.tariffs.applied with waiting := some (s.appliedRecord q) } with
        sixth := s.sixth ++ [.tariffApplied] } := if_pos (State.sixthWaits_iff.2 h)

theorem applyCommit_posts {s : State} (h : ¬ (s.free = 0 ∨ s.sixth ≠ [])) (q : Option Nat) :
    s.applyCommit q = (s.putTariffs s.tariffs.applied).post (.tariffApplied (s.appliedRecord q)) :=
  if_neg (fun hw => h (State.sixthWaits_iff.1 hw))

/-- The reply to a commit applied names the next generation (R84). -/
theorem appliedReply_applyCommit (s : State) (q : Option Nat) :
    appliedReply (s.applyCommit q) =
      { status := .ok
        result := .applied (if 255 ≤ s.tariffs.current.generation then 1 else s.tariffs.current.generation + 1) } := by
  by_cases h : s.free = 0 ∨ s.sixth ≠ []
  · rw [applyCommit_waits h]; rfl
  · rw [applyCommit_posts h]; simp [appliedReply, Region.write, State.tariffs, TariffSet.applied, wrapUp]

section Owner

variable {s : State}

theorem ownTariffCommit_refused {m : CommitArg} {r : Reply} (hm : m = .now ∨ ∃ a, m = .at a)
    (h : s.commitTest = some r) : ownTariffCommit m s = (s, r) := by
  rcases hm with rfl | ⟨a, rfl⟩ <;> simp only [ownTariffCommit, h]

theorem ownTariffCommit_now (h : s.commitTest = none) :
    ownTariffCommit .now s = (s.applyCommit none, appliedReply (s.applyCommit none)) := by
  simp only [ownTariffCommit, h]

theorem ownTariffCommit_at_unset (h : s.commitTest = none) (hn : s.now = none) (a : Nat) :
    ownTariffCommit (.at a) s = (s, .plain .clockUnset) := by
  simp only [ownTariffCommit, h, hn]

theorem ownTariffCommit_at_reached {t a : Nat} (h : s.commitTest = none) (hn : s.now = some t) (hle : a ≤ t) :
    ownTariffCommit (.at a) s = (s.applyCommit (some a), appliedReply (s.applyCommit (some a))) := by
  simp only [ownTariffCommit, h, hn, if_pos hle]

theorem ownTariffCommit_at_pending {t a : Nat} (h : s.commitTest = none) (hn : s.now = some t) (hlt : t < a) :
    ownTariffCommit (.at a) s =
      (s.putTariffs { s.tariffs with commit := some a },
        { status := .ok, result := .commitPending a (wrapUp 255 s.tariffs.current.generation) }) := by
  simp only [ownTariffCommit, h, hn, if_neg (Nat.not_le.2 hlt)]

theorem ownTariffCommit_cancel_pending (h : s.tariffs.commit ≠ none) :
    ownTariffCommit .cancel s = (s.putTariffs { s.tariffs with commit := none }, .plain .ok) :=
  if_pos (Option.isSome_iff_ne_none.2 h)

theorem ownTariffCommit_cancel_none (h : s.tariffs.commit = none) : ownTariffCommit .cancel s = (s, .plain .notFound) :=
  if_neg (by simp [State.commitPending, h])

end Owner

/-! ### The apply at its time (R86) -/

theorem applyAt_idle {s : State}
    (h : s.now = none ∨ s.tariffs.commit = none ∨ ∃ t a, s.now = some t ∧ s.tariffs.commit = some a ∧ t < a) :
    s.applyAt = s := by
  unfold State.applyAt
  rcases h with h | h | ⟨t, a, hn, hc, hlt⟩
  · rw [h]
  · rw [h]; cases s.now <;> rfl
  · rw [hn, hc]; exact if_neg (Nat.not_le.2 hlt)

theorem applyAt_due {s : State} {t a : Nat} (hn : s.now = some t) (hc : s.tariffs.commit = some a) (h : a ≤ t) :
    s.applyAt = s.applyCommit (some a) := by
  unfold State.applyAt
  rw [hn, hc]
  exact if_pos h

/-- Settles O28: the tests in order, then the apply, the pending commit or the refusal. -/
theorem commitResult : Obligations.CommitResult := by
  refine ⟨fun tag s hs => ?_, fun tag s hs => ⟨fun h => ?_, fun h => ?_⟩, fun s hs => ⟨fun h => ?_, ?_⟩⟩
  · intro applied next gives
    refine ⟨fun h => ⟨?_, fun a => ?_⟩, fun hc hw => ?_⟩
    · exact exec_own rfl hs (ownTariffCommit_refused (.inl rfl) (commitTest_busy h))
    · exact exec_own rfl hs (ownTariffCommit_refused (.inr ⟨a, rfl⟩) (commitTest_busy h))
    · have test := commitTest_of_clear hc hw
      have happlied (q : Option Nat) : s.applyCommit q = applied q := by
        by_cases h : s.free = 0 ∨ s.sixth ≠ []
        · rw [applyCommit_waits h]
          exact (if_pos h).symm
        · rw [applyCommit_posts h, TariffSet.applied_eq, hw]
          exact (if_neg h).symm
      refine ⟨fun band fault hv => ?_, fun hv => ?_⟩
      · rw [hv] at test
        exact ⟨exec_own rfl hs (ownTariffCommit_refused (.inl rfl) test),
          fun a => exec_own rfl hs (ownTariffCommit_refused (.inr ⟨a, rfl⟩) test)⟩
      · rw [hv] at test
        refine ⟨exec_own rfl hs ?_, fun hn a => exec_own rfl hs (ownTariffCommit_at_unset test hn a),
          fun t a hn hle => exec_own rfl hs ?_, fun t a hn hlt => exec_own rfl hs ?_⟩
        · rw [own, ownTariffCommit_now test, appliedReply_applyCommit, happlied]
        · rw [own, ownTariffCommit_at_reached test hn hle, appliedReply_applyCommit, happlied]
        · exact ownTariffCommit_at_pending test hn hlt
  · exact exec_own rfl hs (ownTariffCommit_cancel_pending h)
  · exact exec_own rfl hs (ownTariffCommit_cancel_none h)
  · exact exec_row rfl hs (applyAt_idle h) rfl
  · intro t a hn hc hle hf hx
    refine exec_row rfl hs ?_ (by simp)
    rw [applyAt_due hn hc hle, applyCommit_posts (by simp [hx]; omega), TariffSet.applied_eq]
    unfold State.appliedRecord
    rw [hn, TariffSet.applied_eq]

end Sys2Proof.Machine
end

