-- ==== Sys2Proof/Proofs/Passes.lean ====
section
/-! PROOFS. The pass table, the settlement of a pass, TERMINAL_AUTH and PASS_CANCEL (R61 to R64, R74, R75). -/

namespace Sys2Proof.Machine

/-! ### A slot written and read (R61) -/

section PutPass

variable {s : State} {slot n : Nat} {p : Pass} (x : Option Pass)

theorem State.putPass_slots (s : State) (slot : Nat) (x : Option Pass) :
    (s.putPass slot x).store.passes.cur.slots = setEntry s.store.passes.cur.slots slot x := by
  unfold State.putPass; dsimp only; split <;> rfl

theorem State.pass_putPass_ne (h : n ≠ slot) : (s.putPass slot x).pass n = s.pass n := by
  unfold State.pass
  rw [State.putPass_slots, entryAt_setEntry, if_neg (fun hn => h hn.1)]

/-- A slot that holds a pass is one of the table, so what is written there is read there. -/
theorem State.pass_putPass_same (h : s.pass slot = some p) : (s.putPass slot x).pass slot = x := by
  have hin : (entryAt s.store.passes.cur.slots slot).isSome = true := by
    unfold State.pass at h
    cases he : entryAt s.store.passes.cur.slots slot with
    | none => simp [he] at h
    | some y => rfl
  unfold State.pass
  rw [State.putPass_slots, entryAt_setEntry, if_pos ⟨rfl, hin⟩]
  rfl

end PutPass

/-! ### Settlement (R75) -/

section Settle

variable {s : State} {slot : Nat} {p q : Pass}

theorem settlePass_posts (h : s.pass slot = some p) (hp : p.state = .settling) (hf : 0 < s.free) :
    s.settlePass slot = (s.post (.passSettle slot p)).putPass slot none := by
  unfold State.settlePass
  rw [h]
  exact if_pos ⟨hp, hf⟩

theorem settlePass_full (hf : s.free = 0) : s.settlePass slot = s := by
  unfold State.settlePass
  split
  · rfl
  · exact if_neg (by omega)

/-- A pass that enters SETTLING with a slot free has its PASS_SETTLE posted and leaves its slot FREE. -/
theorem enterSettling_posts (h : s.pass slot = some q) (hf : 0 < s.free) (p : Pass) :
    s.enterSettling slot p =
      ((s.putPass slot (some { p with state := .settling })).post (.passSettle slot { p with state := .settling })).putPass
        slot none :=
  settlePass_posts (State.pass_putPass_same _ h) rfl (by simpa using hf)

theorem enterSettling_waits (hf : s.free = 0) (p : Pass) :
    s.enterSettling slot p = s.putPass slot (some { p with state := .settling }) := settlePass_full (by simpa using hf)

end Settle

/-! ### The code of a new pass (R62) -/

theorem le_nthUnheld (l : List Nat) (k : Nat) : k ≤ nthUnheld l k := by
  induction l generalizing k with
  | nil => exact le_rfl
  | cons h rest ih =>
    unfold nthUnheld
    split
    · exact (Nat.le_succ k).trans (ih (k + 1))
    · exact le_rfl

theorem nthUnheld_le (l : List Nat) (k : Nat) : nthUnheld l k ≤ k + l.length := by
  induction l generalizing k with
  | nil => exact le_rfl
  | cons h rest ih =>
    unfold nthUnheld
    have := ih (k + 1)
    rw [List.length_cons]
    split <;> omega

/-- The value counted off past a rising list stands on none of its members. -/
theorem nthUnheld_notMem {l : List Nat} (hl : l.Pairwise (· ≤ ·)) (k : Nat) : nthUnheld l k ∉ l := by
  induction l generalizing k with
  | nil => exact List.not_mem_nil
  | cons h rest ih =>
    obtain ⟨hh, hrest⟩ := List.pairwise_cons.1 hl
    unfold nthUnheld
    split
    · have := le_nthUnheld rest (k + 1)
      exact fun hk => (List.mem_cons.1 hk).elim (by omega) (ih hrest (k + 1))
    · refine fun hk => (List.mem_cons.1 hk).elim (by omega) fun hk => ?_
      have := hh k hk
      omega

theorem newCode_lt {s : State} (h : s.heldCodes.length < 1000000) : s.newCode < 1000000 := by
  unfold State.newCode
  have hl : (s.heldCodes.insertionSort (· ≤ ·)).length = s.heldCodes.length := List.length_insertionSort _ _
  have := nthUnheld_le (s.heldCodes.insertionSort (· ≤ ·))
    (Config.codeDraw s.codePosition % (1000000 - (s.heldCodes.insertionSort (· ≤ ·)).length))
  have : Config.codeDraw s.codePosition % (1000000 - (s.heldCodes.insertionSort (· ≤ ·)).length) <
      1000000 - (s.heldCodes.insertionSort (· ≤ ·)).length := Nat.mod_lt _ (by omega)
  dsimp only
  omega

theorem newCode_notMem (s : State) : s.newCode ∉ s.heldCodes := by
  unfold State.newCode
  intro h
  exact nthUnheld_notMem (List.pairwise_insertionSort (· ≤ ·) s.heldCodes) _ ((List.mem_insertionSort _).2 h)

/-! ### TERMINAL_AUTH (R63) -/

section TerminalAuth

variable {terminal kind hold : Nat} {ref : List Byte} {s : State}

/-- The kind of pass that 1 or 2 names. -/
theorem passKindOf_of_range (h : kind = 1 ∨ kind = 2) :
    passKindOf kind = some (if kind = 1 then .single else .day) := by
  rcases h with rfl | rfl <;> rfl

theorem passKindOf_none (h1 : kind ≠ 1) (h2 : kind ≠ 2) : passKindOf kind = none := by
  unfold passKindOf
  split
  · exact absurd rfl h1
  · exact absurd rfl h2
  · rfl

/-- Within the ranges the tests of R63 follow: a repeat, the clock, a FREE slot and the room of the journal. -/
theorem ownTerminalAuth_of_range (ht : 1 ≤ terminal ∧ terminal ≤ 4) (hk : kind = 1 ∨ kind = 2)
    (hh : 100 ≤ hold ∧ hold ≤ 50000) :
    ownTerminalAuth terminal kind hold ref s =
      match s.repeatedAuth terminal ref with
      | some (slot, p) => (s, { status := .duplicate, result := .repeated slot p.serial p.code })
      | none =>
        match s.now with
        | none => (s, .plain .clockUnset)
        | some t =>
          match slotNumbers.find? (fun slot => (s.pass slot).isNone) with
          | none => (s, .plain .full)
          | some slot =>
            if s.free < s.settings.openReserve then (s, .refused .journalFull)
            else s.sell slot terminal (if kind = 1 then .single else .day) hold ref t := by
  unfold ownTerminalAuth
  rw [if_neg (by omega), passKindOf_of_range hk]
  exact if_neg (by omega)

/-- The lowest FREE slot. -/
theorem find_free_slot {slot : Nat} (hin : slot ∈ slotNumbers) (hn : s.pass slot = none)
    (hlow : ∀ other ∈ slotNumbers, other < slot → s.pass other ≠ none) :
    slotNumbers.find? (fun slot => (s.pass slot).isNone) = some slot := by
  unfold slotNumbers at *
  rw [List.find?_range'_eq_some]
  refine ⟨by simp [hn], hin, fun j h1 hj => ?_⟩
  have hj' : j ∈ List.range' 1 32 := by
    rw [List.mem_range'_1] at *
    omega
  simpa [Option.isSome_iff_ne_none] using hlow j hj' hj

theorem find_slot_none (h : ∀ slot ∈ slotNumbers, s.pass slot ≠ none) :
    slotNumbers.find? (fun slot => (s.pass slot).isNone) = none := by
  rw [List.find?_eq_none]
  intro slot hs
  simpa [Option.isNone_iff_eq_none] using h slot hs

theorem life_of_kind : PassKind.life (if kind = 1 then .single else .day) = if kind = 1 then 1800 else 86400 := by
  split <;> rfl

end TerminalAuth

/-! ### PASS_CANCEL (R74) -/

section Cancel

variable {slot serial : Nat} {s : State} {p : Pass}

theorem ownPassCancel_notFound (hr : 1 ≤ slot ∧ slot ≤ 32) (h : ∀ p, s.pass slot = some p → p.serial ≠ serial) :
    ownPassCancel slot serial s = (s, .plain .notFound) := by
  unfold ownPassCancel
  rw [if_neg (by omega)]
  cases hp : s.pass slot with
  | none => rfl
  | some p => exact if_pos (h p hp)

/-- For the pass of a slot and serial, its state and rides decide. -/
theorem ownPassCancel_of_pass (hr : 1 ≤ slot ∧ slot ≤ 32) (hp : s.pass slot = some p) (hserial : p.serial = serial) :
    ownPassCancel slot serial s =
      if p.state = .issued ∧ p.rides = 0 then
        if s.passInFlight slot serial then (s, .plain .busy)
        else (s.enterSettling slot { p with cancelled := true }, .plain .ok)
      else (s, .plain .conflict) := by
  unfold ownPassCancel
  rw [if_neg (by omega), hp]
  exact if_neg (not_not.2 hserial)

end Cancel

/-- Settles O26: the tests in order; a sale takes the lowest FREE slot and a code that none holds, and a cancelled pass
settles. -/
theorem passSaleAndCancel : Obligations.PassSaleAndCancel := by
  refine ⟨fun tag terminal kind hold ref s hs => ?_, fun tag slot serial s hs => ?_⟩
  · intro outside
    refine ⟨fun h => exec_own rfl hs (if_pos (by omega)), fun h1 h4 k1 k2 => exec_own rfl hs ?_,
      fun h1 h4 hk hh => exec_own rfl hs ?_, fun h1 h4 hk hl hu => ?_⟩
    · rw [own, ownTerminalAuth, if_neg (by omega), passKindOf_none k1 k2]
      rfl
    · rw [own, ownTerminalAuth, if_neg (by omega), passKindOf_of_range hk]
      exact if_pos hh
    · intro gives
      have auth := ownTerminalAuth_of_range (s := s) (ref := ref) ⟨h1, h4⟩ hk ⟨hl, hu⟩
      refine ⟨fun slot p hr => exec_own rfl hs ?_, fun hr hn => exec_own rfl hs ?_, fun hr hn hfull => exec_own rfl hs ?_,
        fun hr hn hfree hroom => exec_own rfl hs ?_, ?_⟩
      · rw [own, auth, hr]
      · rw [own, auth, hr, hn]; rfl
      · obtain ⟨t, ht⟩ := Option.ne_none_iff_exists'.1 hn
        rw [own, auth, hr, ht, find_slot_none hfull]
        rfl
      · obtain ⟨t, ht⟩ := Option.ne_none_iff_exists'.1 hn
        obtain ⟨slot, hslot, hnone⟩ := hfree
        have found : (slotNumbers.find? (fun slot => (s.pass slot).isNone)).isSome = true :=
          List.find?_isSome.2 ⟨slot, hslot, by simp [hnone]⟩
        obtain ⟨first, hfirst⟩ := Option.isSome_iff_exists.1 found
        rw [own, auth, hr, ht, hfirst]
        exact if_pos hroom
      · intro t slot hr hn hslot hnone hlow hroom hheld
        refine ⟨s.newCode, newCode_lt hheld, newCode_notMem s, exec_own rfl hs ?_⟩
        rw [own, auth, hr, hn, find_free_slot hslot hnone hlow]
        dsimp only
        rw [if_neg (by omega), State.sell, life_of_kind]
        rfl
  · intro gives
    refine ⟨fun h => exec_own rfl hs (if_pos (by omega)),
      fun h1 h32 h => exec_own rfl hs (ownPassCancel_notFound ⟨h1, h32⟩ h),
      fun p h1 h32 hp hser hc => exec_own rfl hs ?_, fun p h1 h32 hp hser hst hrides => ⟨fun hb => exec_own rfl hs ?_, ?_⟩⟩
    · rw [own, ownPassCancel_of_pass ⟨h1, h32⟩ hp hser, if_neg (fun h => hc.elim (· h.1) (· h.2))]
      rfl
    · rw [own, ownPassCancel_of_pass ⟨h1, h32⟩ hp hser, if_pos ⟨hst, hrides⟩, if_pos hb]
      rfl
    · intro hb q settling
      have cancel : ownPassCancel slot serial s = (s.enterSettling slot { p with cancelled := true }, .plain .ok) := by
        rw [ownPassCancel_of_pass ⟨h1, h32⟩ hp hser, if_pos ⟨hst, hrides⟩, if_neg (by simp [hb])]
      refine ⟨fun hf => exec_own rfl hs ?_, fun hf => exec_own rfl hs ?_⟩
      · rw [own, cancel, enterSettling_posts hp hf]
        rfl
      · rw [own, cancel, enterSettling_waits hf]
        rfl

end Sys2Proof.Machine
end

