-- ==== Sys2Proof/Proofs/Examinations.lean ====
section
/-! PROOFS. The deadlines of the scheme-time column: the hire age and pass limit examinations, the expiry of a pass, and TIME_SET,
which presents a new time to all of them (R58, R67, R72, R73, R193). -/

namespace Sys2Proof.Machine

/-! ### Expiry of a pass (R67, R72) -/

section Expiry

variable {s : State} {slot t : Nat} {p : Pass}

theorem takeExpiry_unset (h : s.now = none ∨ s.pass slot = none) : s.takeExpiry slot = s := by
  unfold State.takeExpiry
  rcases h with h | h
  · rw [h]
  · rw [h]; cases s.now <;> rfl

theorem takeExpiry_of_pass (hn : s.now = some t) (hp : s.pass slot = some p) :
    s.takeExpiry slot = if p.expiry ≤ t then s.expirePass slot p else s := by
  unfold State.takeExpiry
  rw [hn, hp]

/-- A pass whose expiry is not reached stands. -/
theorem takeExpiry_early (hn : s.now = some t) (h : ∀ p, s.pass slot = some p → t < p.expiry) : s.takeExpiry slot = s := by
  cases hp : s.pass slot with
  | none => exact takeExpiry_unset (.inr hp)
  | some p => rw [takeExpiry_of_pass hn hp, if_neg (Nat.not_le.2 (h p hp))]

/-- An expiry moves no pass that is ON_RIDE, CLOSING or SETTLING. -/
theorem expirePass_busy (h : p.state = .onRide ∨ p.state = .closing ∨ p.state = .settling) : s.expirePass slot p = s := by
  unfold State.expirePass
  rcases h with h | h | h <;> rw [h]

/-- An ISSUED or IDLE pass settles at its expiry, or has it held back by its release. -/
theorem expirePass_idle (h : p.state = .issued ∨ p.state = .idle) :
    s.expirePass slot p =
      if s.passInFlight slot p.serial then s.holdExpiry slot p.serial else s.enterSettling slot p := by
  unfold State.expirePass
  rcases h with h | h <;> rw [h]

end Expiry

/-! ### The examination of the hires (R58) -/

/-- An open hire past its age, but for one of a pass. -/
theorem OpenHire.pastAge_iff (h : OpenHire) (limit t : Nat) :
    h.pastAge limit t = true ↔ (∀ slot serial, h.hirer ≠ .pass slot serial) ∧ h.start + limit * 86400 ≤ t := by
  unfold OpenHire.pastAge Config.daySeconds
  split
  · rename_i slot serial hh
    simp [hh]
  · rename_i hh
    simpa using fun _ => hh

/-- What the examination does with one hire. -/
def State.expireStep (limit t : Nat) (s : State) (h : OpenHire) : State :=
  if h.pastAge limit t = true ∧ 0 < s.free then (s.removeHire h.ref).post (.hireExpired h .age) else s

theorem expireStep_settings (limit t : Nat) (s : State) (h : OpenHire) :
    (s.expireStep limit t h).settings = s.settings := by
  unfold State.expireStep
  split <;> simp [State.removeHire, State.settings]

theorem expireStep_full {s : State} (hf : s.free = 0) (limit t : Nat) (h : OpenHire) : s.expireStep limit t h = s :=
  if_neg (by omega)

/-- The hires are taken one after another; with no slot free nothing more changes (R58). -/
theorem expireHires_eq_foldl (t : Nat) (hires : List OpenHire) (s : State) :
    State.expireHires t hires s = hires.foldl (State.expireStep s.settings.hireAgeLimit t) s := by
  induction hires generalizing s with
  | nil => rfl
  | cons h rest ih =>
    rw [State.expireHires, List.foldl_cons]
    by_cases hp : h.pastAge s.settings.hireAgeLimit t = true
    · rw [if_pos hp]
      by_cases hf : 0 < s.free
      · have step : s.expireStep s.settings.hireAgeLimit t h = (s.removeHire h.ref).post (.hireExpired h .age) :=
          if_pos ⟨hp, hf⟩
        rw [if_pos hf, ih, step, ← step, expireStep_settings]
      · have step (g : OpenHire) := expireStep_full (s := s) (by omega) s.settings.hireAgeLimit t g
        rw [if_neg hf, step]
        exact (List.foldl_fixed' step rest).symm
    · rw [if_neg hp, ih, State.expireStep, if_neg (fun h => hp h.1)]

theorem examineHires_unset {s : State} (h : s.now = none) : s.examineHires = s := by
  unfold State.examineHires
  rw [h]

theorem examineHires_eq {s : State} {t : Nat} (h : s.now = some t) :
    s.examineHires = s.hires.foldl (State.expireStep s.settings.hireAgeLimit t) s := by
  unfold State.examineHires
  rw [h]
  exact expireHires_eq_foldl t s.hires s

/-- A fold in which only one member acts gives what that member does. -/
theorem foldl_one {α β : Type} {f : β → α → β} {before after : List α} {a : α} {s t : β}
    (hb : ∀ b ∈ before, f s b = s) (ha : f s a = t) (hc : ∀ b ∈ after, f t b = t) :
    (before ++ a :: after).foldl f s = t := by
  have fixed {u : β} {l : List α} (h : ∀ b ∈ l, f u b = u) : l.foldl f u = u := by
    induction l with
    | nil => rfl
    | cons b l ih =>
      rw [List.foldl_cons, h b List.mem_cons_self]
      exact ih fun c hc => h c (List.mem_cons_of_mem _ hc)
  rw [List.foldl_append, fixed hb, List.foldl_cons, ha, fixed hc]

/-- A fold in which no member acts. -/
theorem foldl_none {α β : Type} {f : β → α → β} {l : List α} {s : β} (h : ∀ b ∈ l, f s b = s) : l.foldl f s = s := by
  induction l with
  | nil => rfl
  | cons b l ih =>
    rw [List.foldl_cons, h b List.mem_cons_self]
    exact ih fun c hc => h c (List.mem_cons_of_mem _ hc)

theorem expireStep_young {s : State} {h : OpenHire} {limit t : Nat} (hp : h.pastAge limit t = false) :
    s.expireStep limit t h = s := if_neg (fun h => by simp [hp] at h)

theorem examineHires_young {s : State} (h : ∀ t, s.now = some t → ∀ g ∈ s.hires, g.pastAge s.settings.hireAgeLimit t = false) :
    s.examineHires = s := by
  cases hn : s.now with
  | none => exact examineHires_unset hn
  | some t => rw [examineHires_eq hn]; exact foldl_none fun g hg => expireStep_young (h t hn g hg)

/-- The table without the hire of a reference that stands in it once. -/
theorem removeHire_split {s : State} {before after : List OpenHire} {h : OpenHire} (hs : s.hires = before ++ h :: after)
    (hr : ∀ g ∈ before ++ after, g.ref ≠ h.ref) : s.removeHire h.ref = s.putHires (before ++ after) := by
  have keep {l : List OpenHire} (hl : ∀ g ∈ l, g.ref ≠ h.ref) : l.filter (fun g => g.ref != h.ref) = l :=
    List.filter_eq_self.2 fun g hg => by simpa using hl g hg
  unfold State.removeHire
  rw [hs, List.filter_append, List.filter_cons_of_neg (by simp),
    keep fun g hg => hr g (List.mem_append_left _ hg), keep fun g hg => hr g (List.mem_append_right _ hg)]

/-- The one hire past its age leaves the table (R58). -/
theorem examineHires_one {s : State} {t : Nat} {before after : List OpenHire} {h : OpenHire} (hn : s.now = some t)
    (hs : s.hires = before ++ h :: after) (hp : h.pastAge s.settings.hireAgeLimit t = true)
    (hr : ∀ g ∈ before ++ after, g.ref ≠ h.ref ∧ g.pastAge s.settings.hireAgeLimit t = false) (hf : 0 < s.free) :
    s.examineHires = (s.putHires (before ++ after)).post (.hireExpired h .age) := by
  rw [examineHires_eq hn, hs]
  refine foldl_one (fun g hg => expireStep_young (hr g (List.mem_append_left _ hg)).2) ?_
    (fun g hg => expireStep_young (hr g (List.mem_append_right _ hg)).2)
  rw [State.expireStep, if_pos ⟨hp, hf⟩, removeHire_split hs fun g hg => (hr g hg).1]

/-! ### The examination of the passes (R73) -/

/-- What the examination does with one slot. -/
def State.retireStep (t : Nat) (s : State) (slot : Nat) : State :=
  match s.pass slot with
  | some p =>
    match p.current.bind s.hireOf with
    | some h => if p.due t = true ∧ 0 < s.free then s.retirePass slot p h else s
    | none => s
  | none => s

theorem retireStep_full {s : State} (hf : s.free = 0) (t slot : Nat) : s.retireStep t slot = s := by
  unfold State.retireStep
  split
  · split
    · exact if_neg (by omega)
    · rfl
  · rfl

theorem retireStep_early {s : State} {t slot : Nat} (h : ∀ p, s.pass slot = some p → p.due t = false) :
    s.retireStep t slot = s := by
  unfold State.retireStep
  split
  · rename_i p hp
    split
    · exact if_neg (fun hd => by simp [h p hp] at hd)
    · rfl
  · rfl

/-- The slots are taken one after another; with no journal slot free nothing more changes (R73). -/
theorem retireDue_eq_foldl (t : Nat) (slots : List Nat) (s : State) :
    State.retireDue t slots s = slots.foldl (State.retireStep t) s := by
  induction slots generalizing s with
  | nil => rfl
  | cons slot rest ih =>
    rw [State.retireDue, List.foldl_cons]
    cases hp : s.pass slot with
    | none => rw [retireStep_early fun p h => by simp [hp] at h]; exact ih s
    | some p =>
      dsimp only
      cases hd : p.due t with
      | false =>
        rw [retireStep_early fun q h => by rw [hp] at h; cases h; exact hd]
        exact ih s
      | true =>
        rw [if_pos rfl]
        by_cases hf : 0 < s.free
        · rw [if_pos hf]
          have step : s.retireStep t slot =
              match p.current.bind s.hireOf with
              | some h => s.retirePass slot p h
              | none => s := by
            unfold State.retireStep
            rw [hp]
            dsimp only
            cases p.current.bind s.hireOf with
            | none => rfl
            | some h => exact if_pos ⟨hd, hf⟩
          rw [step]
          cases p.current.bind s.hireOf <;> exact ih _
        · have step (n : Nat) := retireStep_full (s := s) (by omega) t n
          rw [if_neg hf, step]
          exact (List.foldl_fixed' step rest).symm

theorem examinePasses_unset {s : State} (h : s.now = none) : s.examinePasses = s := by
  unfold State.examinePasses
  rw [h]

theorem examinePasses_eq {s : State} {t : Nat} (h : s.now = some t) :
    s.examinePasses = slotNumbers.foldl (State.retireStep t) s := by
  unfold State.examinePasses
  rw [h]
  exact retireDue_eq_foldl t slotNumbers s

theorem Pass.due_iff (p : Pass) (t : Nat) : p.due t = true ↔ p.state = .onRide ∧ p.expiry + 172800 ≤ t := by
  unfold Pass.due Config.passLimit
  rw [Bool.and_eq_true, beq_iff_eq, decide_eq_true_iff]

theorem examinePasses_early {s : State} (h : ∀ t, s.now = some t → ∀ slot p, s.pass slot = some p → t < p.expiry) :
    s.examinePasses = s := by
  cases hn : s.now with
  | none => exact examinePasses_unset hn
  | some t =>
    rw [examinePasses_eq hn]
    refine foldl_none fun slot _ => retireStep_early fun p hp => ?_
    have := h t hn slot p hp
    rw [Bool.eq_false_iff, Ne, Pass.due_iff]
    omega

/-- The open hire of a pass's current reference, sought in the table. -/
theorem currentHire_eq (s : State) (p : Pass) :
    p.current.bind s.hireOf = s.hires.find? (fun h => p.current == some h.ref) := by
  cases p.current with
  | none => exact (List.find?_eq_none.2 (by simp)).symm
  | some ref =>
    show s.hires.find? _ = _
    congr 1
    funext h
    by_cases hr : h.ref = ref
    · simp [hr]
    · have : ref ≠ h.ref := fun h' => hr h'.symm
      simp [hr, this]

/-- What retiring a pass leaves, with its PASS_SETTLE posted where a slot is free (R73, R75). -/
theorem retirePass_eq {s : State} {slot : Nat} {p q : Pass} (hp : s.pass slot = some q) (h : OpenHire) :
    s.retirePass slot p h =
      let x : Pass := { p with state := .settling, current := none, unresolved := true }
      let v := ((s.removeHire h.ref).post (.hireExpired h .passLimit)).putPass slot (some x)
      if 0 < v.free then (v.post (.passSettle slot x)).putPass slot none else v := by
  have stands : ((s.removeHire h.ref).post (.hireExpired h .passLimit)).pass slot = some q := by
    simpa [State.removeHire, State.pass] using hp
  dsimp only
  unfold State.retirePass
  split
  · rename_i hf
    rw [State.putPass_free] at hf
    exact enterSettling_posts stands hf _
  · rename_i hf
    rw [State.putPass_free] at hf
    exact enterSettling_waits (by omega) _

/-- The one pass past the limit settles, and its hire goes (R73). -/
theorem examinePasses_one {s : State} {t slot : Nat} {p : Pass} {before after : List OpenHire} {h : OpenHire}
    (hn : s.now = some t) (hin : slot ∈ slotNumbers) (hp : s.pass slot = some p) (hd : p.due t = true)
    (hc : p.current = some h.ref) (hs : s.hires = before ++ h :: after) (hr : ∀ g ∈ before ++ after, g.ref ≠ h.ref)
    (hother : ∀ other ∈ slotNumbers, other ≠ slot → ∀ q, s.pass other = some q → q.due t = false) (hf : 1 < s.free) :
    let q : Pass := { p with state := .settling, current := none, unresolved := true }
    s.examinePasses =
      ((((s.putHires (before ++ after)).post (.hireExpired h .passLimit)).putPass slot (some q)).post
        (.passSettle slot q)).putPass slot none := by
  intro q
  have found : p.current.bind s.hireOf = some h := by
    rw [hc, Option.bind_some, State.hireOf, hs, List.find?_append,
      List.find?_eq_none.2 fun g hg => by simpa using hr g (List.mem_append_left _ hg)]
    simp
  have stands : ((s.putHires (before ++ after)).post (.hireExpired h .passLimit)).pass slot = some p := by
    simpa [State.pass] using hp
  have room : 0 < ((s.putHires (before ++ after)).post (.hireExpired h .passLimit)).free := by
    have := State.post_free (s.putHires (before ++ after)) (.hireExpired h .passLimit)
    have : (s.putHires (before ++ after)).free = s.free := rfl
    omega
  have step : s.retireStep t slot =
      ((((s.putHires (before ++ after)).post (.hireExpired h .passLimit)).putPass slot (some q)).post
        (.passSettle slot q)).putPass slot none := by
    unfold State.retireStep
    rw [hp]
    dsimp only
    rw [found]
    dsimp only
    rw [if_pos ⟨hd, by omega⟩, State.retirePass, removeHire_split hs hr]
    exact enterSettling_posts stands room _
  obtain ⟨low, high, hsplit⟩ := List.append_of_mem hin
  have hnodup : (low ++ slot :: high).Nodup := hsplit ▸ (by decide : slotNumbers.Nodup)
  have hne : ∀ n ∈ low ++ high, n ≠ slot := by
    rw [List.nodup_middle, List.nodup_cons] at hnodup
    exact fun n hn h' => hnodup.1 (h' ▸ hn)
  have mem {n : Nat} (h : n ∈ low ++ high) : n ∈ slotNumbers := by
    rw [hsplit, List.mem_append, List.mem_cons]
    exact (List.mem_append.1 h).imp id .inr
  have rest {n : Nat} (h : n ∈ low ++ high) : ∀ q, s.pass n = some q → q.due t = false := hother n (mem h) (hne n h)
  rw [examinePasses_eq hn, hsplit]
  refine foldl_one (fun n h => retireStep_early (rest (List.mem_append_left _ h))) step
    (fun n hh => retireStep_early fun x hx => rest (List.mem_append_right _ hh) x ?_)
  have hne' := hne n (List.mem_append_right _ hh)
  rwa [State.pass_putPass_ne _ hne', State.post_pass, State.pass_putPass_ne _ hne', State.post_pass] at hx

/-! ### The rows of the examinations -/

theorem hireExamDue_early {s : State} (h : s.elapsed < s.hireExamAt) : s.hireExamDue = s := if_neg (by omega)

theorem hireExamDue_due {s : State} (h : s.hireExamAt ≤ s.elapsed) :
    s.hireExamDue = ({ s with hireExamAt := s.hireExamAt + 60000 } : State).examineHires := if_pos h

theorem passExamDue_early {s : State} (h : s.elapsed < s.passExamAt) : s.passExamDue = s := if_neg (by omega)

theorem passExamDue_due {s : State} (h : s.passExamAt ≤ s.elapsed) :
    s.passExamDue = ({ s with passExamAt := s.passExamAt + 60000 } : State).examinePasses := if_pos h

/-! ### What the examinations do, spelled out -/

/-- Whether a pass holds the hire (R58). -/
theorem pastAge_spelled (h : OpenHire) (limit t : Nat) :
    h.pastAge limit t = true ↔
      (match h.hirer with | .pass _ _ => true | _ => false) = false ∧ h.start + limit * 86400 ≤ t := by
  rw [OpenHire.pastAge_iff]
  cases h.hirer <;> simp

theorem expireStep_spelled (limit t : Nat) (u : State) (h : OpenHire) :
    u.expireStep limit t h =
      if (match h.hirer with | .pass _ _ => true | _ => false) = false ∧ h.start + limit * 86400 ≤ t ∧ 0 < u.free then
        (u.putHires (u.hires.filter (fun g => g.ref != h.ref))).post (.hireExpired h .age)
      else u :=
  if_congr ((and_congr_left' (pastAge_spelled h limit t)).trans and_assoc) rfl rfl

theorem retireStep_spelled (t : Nat) (u : State) (slot : Nat) :
    u.retireStep t slot =
      match u.pass slot with
      | some p =>
        match u.hires.find? (fun h => p.current == some h.ref) with
        | some h =>
          if p.state = .onRide ∧ p.expiry + 172800 ≤ t ∧ 0 < u.free then
            let q : Pass := { p with state := .settling, current := none, unresolved := true }
            let v := ((u.putHires (u.hires.filter (fun g => g.ref != h.ref))).post (.hireExpired h .passLimit)).putPass slot
              (some q)
            if 0 < v.free then (v.post (.passSettle slot q)).putPass slot none else v
          else u
        | none => u
      | none => u := by
  unfold State.retireStep
  cases hp : u.pass slot with
  | none => rfl
  | some p =>
    dsimp only
    rw [currentHire_eq]
    cases u.hires.find? (fun h => p.current == some h.ref) with
    | none => rfl
    | some h => exact if_congr ((and_congr_left' (p.due_iff t)).trans and_assoc) (retirePass_eq hp h) rfl

/-- Settles O56: the examinations as folds, the cases in which one member acts, and the expiry by the state of the pass. -/
theorem examinationsAndExpiry : Obligations.ExaminationsAndExpiry := by
  refine ⟨fun s hs => ⟨fun h => exec_row rfl hs (hireExamDue_early h) rfl,
    fun h => exec_row rfl hs (passExamDue_early h) rfl, fun h => ?_, fun h => ?_⟩,
    fun slot s hs => ⟨fun h => exec_row rfl hs (takeExpiry_unset h) rfl, fun t p hn hp => ⟨fun h => ?_, fun hle hi => ?_⟩⟩⟩
  · intro examined
    have row {u : State} (hu : examined.examineHires = u) : exec .hireAgeExamination s = .next (u.finish s) :=
      exec_row rfl hs ((hireExamDue_due h).trans hu)
        ((congrArg State.power hu).symm.trans (congrArg Spine.power (State.examineHires_flow (a := examined) .refl).spine))
    refine ⟨fun hn => row (examineHires_unset hn), fun t before h after hn hs hh hage hr hf => row ?_, fun t hn => ?_⟩
    · refine examineHires_one (s := examined) hn hs ((h.pastAge_iff _ t).2 ⟨hh, hage⟩) (fun g hg => ⟨(hr g hg).1, ?_⟩) hf
      rw [Bool.eq_false_iff, Ne, OpenHire.pastAge_iff]
      exact fun hp => absurd hp.2 (Nat.not_le.2 (hr g hg).2)
    · intro isPass
      refine row ((examineHires_eq (s := examined) hn).trans ?_)
      congr 1
      funext u g
      exact expireStep_spelled _ t u g
  · intro examined
    have row {u : State} (hu : examined.examinePasses = u) : exec .passLimitExamination s = .next (u.finish s) :=
      exec_row rfl hs ((passExamDue_due h).trans hu)
        ((congrArg State.power hu).symm.trans (congrArg Spine.power (State.examinePasses_flow (a := examined) .refl).spine))
    refine ⟨fun hn => row (examinePasses_unset hn), ?_, fun t hn => row ((examinePasses_eq (s := examined) hn).trans ?_)⟩
    · intro t slot p before h after hn hin hp hst hexp hc hs hr hother hf
      refine row (examinePasses_one (s := examined) hn hin hp ((p.due_iff t).2 ⟨hst, hexp⟩) hc hs hr
        (fun other ho hne q hq => ?_) hf)
      rw [Bool.eq_false_iff, Ne, Pass.due_iff]
      exact fun hd => absurd hd.2 (Nat.not_le.2 (hother other ho hne q hq hd.1))
    · congr 1
      funext u n
      exact retireStep_spelled t u n
  · refine exec_row rfl hs ?_ rfl
    rw [takeExpiry_of_pass hn hp]
    rcases h with h | h
    · exact if_neg (Nat.not_le.2 h)
    · rw [expirePass_busy h, ite_self]
  · have taken : s.takeExpiry slot =
        if s.passInFlight slot p.serial then s.holdExpiry slot p.serial else s.enterSettling slot p := by
      rw [takeExpiry_of_pass hn hp, if_pos hle, expirePass_idle hi]
    refine ⟨fun hb => exec_row rfl hs (taken.trans (if_pos hb)) rfl, fun hb => ?_⟩
    have settles : s.takeExpiry slot = s.enterSettling slot p := taken.trans (if_neg (by simp [hb]))
    exact ⟨fun hf => exec_row rfl hs (settles.trans (enterSettling_posts hp hf p)) (by simp),
      fun hf => exec_row rfl hs (settles.trans (enterSettling_waits hf p)) (by simp)⟩

end Sys2Proof.Machine
end

