-- ==== Sys2Proof/Proofs/Clock.lean ====
section
/-! PROOFS. TIME_SET: the step, and the deadlines that a new time meets (R193). -/

namespace Sys2Proof.Machine

/-- The clock just set reads the time set (R192). -/
theorem now_of_set (s : State) {t : Nat} (h : t ≤ 4294967295) :
    ({ s with clock := .running t s.elapsed } : State).now = some t := by
  unfold State.now Config.maxTime
  simp [h]

/-! ### Deadlines not due -/

/-- A time before every deadline of the scheme-time column changes nothing. -/
theorem presentTime_quiet {s : State} {t : Nat} (hn : s.now = some t) (hp : ∀ slot p, s.pass slot = some p → t < p.expiry)
    (hh : ∀ h ∈ s.hires, h.pastAge s.settings.hireAgeLimit t = false) (hc : ∀ a, s.tariffs.commit = some a → t < a) :
    s.presentTime = s := by
  have at_now {u : Nat} (h : s.now = some u) : u = t := Option.some.inj (h.symm.trans hn)
  unfold State.presentTime
  rw [foldl_none fun slot _ => takeExpiry_early hn (hp slot),
    examinePasses_early fun u hu slot p h => at_now hu ▸ hp slot p h,
    examineHires_young fun u hu g hg => at_now hu ▸ hh g hg]
  refine applyAt_idle ?_
  cases hcommit : s.tariffs.commit with
  | none => exact .inr (.inl rfl)
  | some a => exact .inr (.inr ⟨t, a, hn, rfl, hc a hcommit⟩)

/-- The pass expiry that alone is due is taken. -/
theorem presentTime_expiry {s u : State} {t slot : Nat} (hn : s.now = some t) (hin : slot ∈ slotNumbers)
    (hu : s.takeExpiry slot = u) (hnu : u.now = some t) (hother : ∀ n ≠ slot, u.pass n = s.pass n)
    (hfree : u.pass slot = none) (hpass : ∀ other q, other ≠ slot → s.pass other = some q → t < q.expiry)
    (hh : ∀ h ∈ u.hires, h.pastAge u.settings.hireAgeLimit t = false) (hc : ∀ a, u.tariffs.commit = some a → t < a) :
    s.presentTime = u := by
  have quiet : ∀ n p, u.pass n = some p → t < p.expiry := by
    intro n p hp
    by_cases hne : n = slot
    · subst hne; simp [hfree] at hp
    · exact hpass n p hne ((hother n hne).symm.trans hp)
  have folded : slotNumbers.foldl State.takeExpiry s = u := by
    obtain ⟨low, high, hsplit⟩ := List.append_of_mem hin
    have hnodup : (low ++ slot :: high).Nodup := hsplit ▸ (by decide : slotNumbers.Nodup)
    rw [List.nodup_middle, List.nodup_cons] at hnodup
    have hne {n : Nat} (h : n ∈ low ++ high) : n ≠ slot := fun h' => hnodup.1 (h' ▸ h)
    rw [hsplit]
    exact foldl_one
      (fun n h => takeExpiry_early hn fun p hp => hpass n p (hne (List.mem_append_left _ h)) hp) hu
      (fun n h => takeExpiry_early hnu (quiet n))
  have idle : u.presentTime = u := presentTime_quiet hnu quiet hh hc
  have fixed : slotNumbers.foldl State.takeExpiry u = u := foldl_none fun n _ => takeExpiry_early hnu (quiet n)
  unfold State.presentTime at idle ⊢
  rw [fixed] at idle
  rw [folded, idle]

/-! ### The step (R193) -/

theorem isStep_some (b t : Nat) : isStep (some b) t = true ↔ b + 300 < t ∨ t + 300 < b := by
  unfold isStep Config.stepLimit
  rw [Option.any_some, Bool.or_eq_true, decide_eq_true_iff, decide_eq_true_iff]

theorem makeStep_none (s : State) (t : Nat) : s.makeStep none t = s := rfl

theorem makeStep_small {s : State} {b t : Nat} (h : isStep (some b) t = false) : s.makeStep (some b) t = s :=
  if_neg (by simp [h])

theorem makeStep_big {s : State} {b t : Nat} (h : isStep (some b) t = true) :
    s.makeStep (some b) t =
      if s.free = 0 ∨ s.sixth ≠ [] then { s with sixth := s.sixth ++ [.clockStep b t] } else s.post (.clockStep b t) := by
  unfold State.makeStep State.makeSixth
  dsimp only
  rw [if_pos h]
  exact if_congr State.sixthWaits_iff rfl rfl

theorem ownTimeSet_of_range {t : Nat} (h : 1 ≤ t ∧ t ≤ 4294967295) (s : State) :
    ownTimeSet t s =
      ((({ s with clock := .running t s.elapsed } : State).makeStep s.now t).presentTime,
        { status := .ok, result := .timeSet s.now t (isStep s.now t) }) := by
  unfold ownTimeSet Config.maxTime
  exact if_neg (by omega)

theorem isStep_false {b t : Nat} (h1 : t ≤ b + 300) (h2 : b ≤ t + 300) : isStep (some b) t = false := by
  rw [Bool.eq_false_iff, Ne, isStep_some]
  omega

/-- Settles O22: the clock, the CLOCK_STEP, and the deadlines due, by the lemma for each. -/
theorem timeSetResult : Obligations.TimeSetResult := by
  intro tag t s hs
  refine ⟨fun h => exec_own rfl hs (if_pos (by unfold Config.maxTime; omega)), fun h1 hmax hp hh hc => ?_, fun h1 hmax => ?_⟩
  · intro set
    have time : set.now = some t := now_of_set s hmax
    have quiet {u : State} {step : Bool} (hu : set.makeStep s.now t = u) (hn : u.now = set.now)
        (hpass : u.store.passes = s.store.passes) (hhires : u.hires = s.hires) (hset : u.settings = s.settings)
        (htar : u.tariffs = s.tariffs) (hstep : isStep s.now t = step) :
        exec (.timeSet tag t) s = .next ((u.answered tag (.timeSet t)
          { status := .ok, result := .timeSet s.now t step }).finish s) := by
      refine exec_own rfl hs ?_
      rw [own, ownTimeSet_of_range ⟨h1, hmax⟩, hstep, show ({ s with clock := .running t s.elapsed } : State) = set from rfl,
        hu, presentTime_quiet (hn.trans time)]
      · intro slot p h
        exact hp slot p (by simpa [State.pass, hpass] using h)
      · rw [hhires, hset]; exact hh
      · rw [htar]; exact hc
    refine ⟨fun hn => ?_, fun b hn hl hu => ?_, fun b hn hstep hf hx => ?_, fun b hn hstep hw => ?_⟩
    · have := quiet (u := set) (step := false) (by rw [hn]; rfl) rfl rfl rfl rfl rfl (by rw [hn]; rfl)
      rwa [hn] at this
    · have := quiet (u := set) (step := false) (by rw [hn]; exact makeStep_small (isStep_false hl hu)) rfl rfl rfl rfl rfl
        (by rw [hn]; exact isStep_false hl hu)
      rwa [hn] at this
    · have := quiet (u := set.post (.clockStep b t)) (step := true)
        (by rw [hn, makeStep_big ((isStep_some b t).2 hstep)]
            exact if_neg (fun h => h.elim (fun h0 => (show s.free ≠ 0 by omega) h0) (fun h0 => h0 hx)))
        (by simp) (by simp [set]) (by simp [State.hires, set]) (by simp [State.settings, set])
        (by simp [State.tariffs, set]) (by rw [hn]; exact (isStep_some b t).2 hstep)
      rwa [hn] at this
    · have := quiet (u := { set with sixth := s.sixth ++ [.clockStep b t] }) (step := true)
        (by rw [hn, makeStep_big ((isStep_some b t).2 hstep)]; exact if_pos hw) rfl rfl rfl rfl rfl
        (by rw [hn]; exact (isStep_some b t).2 hstep)
      rwa [hn] at this
  · intro set gives due
    have time : set.now = some t := now_of_set s hmax
    have sets {u : State} {step : Bool} (hu : (set.makeStep s.now t).presentTime = u) (hstep : isStep s.now t = step) :
        gives u step := by
      refine exec_own rfl hs ?_
      rw [own, ownTimeSet_of_range ⟨h1, hmax⟩, hstep, ← hu]
    have first {u : State} (hn : s.now = none) (hu : set.presentTime = u) : gives u false :=
      sets (by rw [hn, makeStep_none, hu]) (by rw [hn]; rfl)
    refine ⟨fun b hn hstep => sets ?_ ?_, fun h => ?_, fun hn hf => ⟨?_, ?_, ?_⟩⟩
    · rw [hn, makeStep_big ((isStep_some b t).2 hstep)]
      rfl
    · rw [hn]; exact (isStep_some b t).2 hstep
    · rcases h with hn | ⟨b, hn, hl, hu⟩
      · exact first hn rfl
      · exact sets (by rw [hn, makeStep_small (isStep_false hl hu)]; rfl) (by rw [hn]; exact isStep_false hl hu)
    · intro slot p hin hp hi hexp hb hother hh hc q
      have taken : set.takeExpiry slot = ((set.putPass slot (some q)).post (.passSettle slot q)).putPass slot none := by
        rw [takeExpiry_of_pass (s := set) time hp, if_pos hexp, expirePass_idle hi, if_neg (by
          show ¬ s.passInFlight slot p.serial = true
          simp [hb])]
        exact enterSettling_posts (s := set) hp hf p
      refine first hn (presentTime_expiry time hin taken (by simpa using time) (fun n hne => ?_) ?_ hother ?_ ?_)
      · rw [State.pass_putPass_ne _ hne, State.post_pass, State.pass_putPass_ne _ hne]
      · refine State.pass_putPass_same (p := q) _ ?_
        rw [State.post_pass, State.pass_putPass_same (s := set) (p := p) _ hp]
      · simp only [State.putPass_hires, State.post_hires, State.putPass_settings, State.post_settings]
        exact hh
      · simp only [State.putPass_tariffs, State.post_tariffs]
        exact hc
    · intro before h after hsplit hage hr hp hc
      refine first hn ?_
      have young : ((set.putHires (before ++ after)).post (.hireExpired h .age)).tariffs = s.tariffs := by simp; rfl
      unfold State.presentTime
      rw [foldl_none fun slot _ => takeExpiry_early time (hp slot),
        examinePasses_early fun u hu slot p h => Option.some.inj (hu.symm.trans time) ▸ hp slot p h,
        examineHires_one (s := set) time hsplit hage hr hf]
      refine applyAt_idle ?_
      cases hcommit : s.tariffs.commit with
      | none => exact .inr (.inl (by rw [young, hcommit]))
      | some a => exact .inr (.inr ⟨t, a, (State.post_now ..).trans time, by rw [young, hcommit], hc a hcommit⟩)
    · intro a hcommit hle hx hp hh table
      refine first hn ?_
      unfold State.presentTime
      rw [foldl_none fun slot _ => takeExpiry_early time (hp slot),
        examinePasses_early fun u hu slot p h => Option.some.inj (hu.symm.trans time) ▸ hp slot p h,
        examineHires_young fun u hu g hg => Option.some.inj (hu.symm.trans time) ▸ hh g hg,
        applyAt_due (s := set) time hcommit hle,
        applyCommit_posts (s := set) (fun h => h.elim (fun h0 => (show s.free ≠ 0 by omega) h0) (fun h0 => h0 hx)),
        TariffSet.applied_eq]
      unfold State.appliedRecord
      rw [time, TariffSet.applied_eq]
      rfl

end Sys2Proof.Machine
end

