-- ==== Sys2Proof/Proofs/Arbiter.lean ====
section
/-! PROOFS. The room arbiter: which place is first, what its service does, and how a record comes to wait (R131, R142, R143,
R152, R160). -/

namespace Sys2Proof.Machine

/-! ### The first place (R160) -/

theorem SettleEntry.isWaiting_iff (e : SettleEntry) : e.isWaiting = true ↔ e.isHeld = false := by
  simp [SettleEntry.isWaiting]

theorem noClose_iff {s : State} : s.noClose ↔ s.entries.any SettleEntry.isWaiting = false := by
  simp [State.noClose, SettleEntry.isWaiting]

theorem noSettling_iff {s : State} : s.noSettling ↔ s.lowestSettling = none := by
  unfold State.noSettling State.lowestSettling
  rw [List.find?_eq_none]
  refine forall₂_congr fun slot _ => ?_
  cases s.pass slot with
  | none => simp
  | some p => simp

/-- No place holds a waiting record. -/
theorem firstPlace_none_iff {s : State} :
    s.firstPlace = none ↔
      s.noClose ∧ s.noSettling ∧ s.van.moves = [] ∧ s.van.summary = none ∧ s.faults = [] ∧ s.directives = [] ∧
        s.sixth = [] := by
  rw [noClose_iff, noSettling_iff]
  unfold State.firstPlace
  cases s.entries.any SettleEntry.isWaiting <;> cases s.lowestSettling <;> cases s.van.moves <;>
    cases s.van.summary <;> cases s.faults <;> cases s.directives <;> cases s.sixth <;> simp

section First

variable {s : State}

theorem firstPlace_settle {e : SettleEntry} (h : e ∈ s.entries) (he : e.isHeld = false) : s.firstPlace = some .settle :=
  if_pos (List.any_eq_true.2 ⟨e, h, e.isWaiting_iff.2 he⟩)

theorem firstPlace_of_noClose (h : s.noClose) :
    s.firstPlace =
      if s.lowestSettling.isSome then some .passes
      else if s.van.moves ≠ [] ∨ s.van.summary.isSome then some .van
      else if s.faults ≠ [] then some .faults
      else if s.directives ≠ [] then some .directives
      else if s.sixth ≠ [] then some .sixth
      else none := if_neg (by rw [noClose_iff.1 h]; simp)

theorem firstPlace_of_noSettling (h : s.noClose) (hp : s.noSettling) :
    s.firstPlace =
      if s.van.moves ≠ [] ∨ s.van.summary.isSome then some .van
      else if s.faults ≠ [] then some .faults
      else if s.directives ≠ [] then some .directives
      else if s.sixth ≠ [] then some .sixth
      else none := by
  rw [firstPlace_of_noClose h, if_neg]
  rw [noSettling_iff.1 hp]
  simp

theorem firstPlace_of_noVan (h : s.noClose) (hp : s.noSettling) (hm : s.van.moves = []) (hv : s.van.summary = none) :
    s.firstPlace =
      if s.faults ≠ [] then some .faults
      else if s.directives ≠ [] then some .directives
      else if s.sixth ≠ [] then some .sixth
      else none := by
  rw [firstPlace_of_noSettling h hp, if_neg]
  simp [hm, hv]

theorem lowestSettling_eq {slot : Nat} {p : Pass} (hin : slot ∈ slotNumbers) (hp : s.pass slot = some p)
    (hst : p.state = .settling)
    (hlow : ∀ other ∈ slotNumbers, other < slot → ∀ q, s.pass other = some q → q.state ≠ .settling) :
    s.lowestSettling = some slot := by
  unfold State.lowestSettling slotNumbers at *
  rw [List.find?_range'_eq_some]
  refine ⟨by simp [hp, hst], hin, fun j h1 hj => ?_⟩
  have hj' : j ∈ List.range' 1 32 := by
    rw [List.mem_range'_1] at *
    omega
  cases hq : s.pass j with
  | none => rfl
  | some q => simpa using hlow j hj' hj q hq

end First

/-! ### Services (R160) -/

section Serve

variable {s : State}

theorem serveIfNext_full (hf : s.free = 0) (p : Place) : s.serveIfNext p = s := if_neg (by omega)

theorem serveIfNext_first {p : Place} (hf : 0 < s.free) (hp : s.firstPlace = some p) : s.serveIfNext p = s.serve p :=
  if_pos ⟨hf, hp⟩

theorem serveVanIf_full (hf : s.free = 0) (b : Bool) : s.serveVanIf b = s := by
  unfold State.serveVanIf
  rw [serveIfNext_full hf, ite_self]

theorem serveSixthIf_full (hf : s.free = 0) (f : SixthRecord → Bool) : s.serveSixthIf f = s := by
  unfold State.serveSixthIf
  rw [serveIfNext_full hf, ite_self]

theorem serveSixthIf_first {f : SixthRecord → Bool} {x : SixthRecord} {rest : List SixthRecord} (hx : s.sixth = x :: rest)
    (hfx : f x = true) (hf : 0 < s.free) (hp : s.firstPlace = some .sixth) : s.serveSixthIf f = s.serveSixth := by
  unfold State.serveSixthIf
  rw [hx, List.head?_cons, Option.any_some, hfx, if_pos rfl]
  exact serveIfNext_first hf hp

/-- The oldest WAITING close is posted (R109). -/
theorem serveClose_eq {before after : List SettleEntry} {e : SettleEntry} {cause : FinalCause} {time : Option Nat}
    {pass : PassResult} (hs : s.entries = before ++ e :: after) (hb : ∀ x ∈ before, x.isHeld = true)
    (he : e.stage = .waiting cause time pass) :
    s.serveClose =
      (s.post (.hireClose e.close e.waiver cause time pass s.store.settle.cur.lost)).putSettle
        { entries := before ++ after, lost := 0 } := by
  have waits : e.isWaiting = true := by simp [SettleEntry.isWaiting, SettleEntry.isHeld, he]
  have found : s.entries.findIdx? SettleEntry.isWaiting = some before.length := by
    rw [hs, List.findIdx?_append, List.findIdx?_eq_none_iff.2 fun x hx => by simp [SettleEntry.isWaiting, hb x hx],
      List.findIdx?_cons, waits]
    simp
  have entry : s.entries[before.length]? = some e := by rw [hs]; simp
  have erased : s.entries.eraseIdx before.length = before ++ after := by
    rw [hs, List.eraseIdx_append_of_length_le le_rfl, Nat.sub_self, List.eraseIdx_cons_zero]
  unfold State.serveClose
  rw [found]
  dsimp only
  rw [entry]
  dsimp only
  rw [he]
  unfold State.postClose
  rw [erased]

theorem serveVan_move {m : VanMove} {rest : List VanMove} (h : s.van.moves = m :: rest) :
    s.serveVan = ({ s with van := { s.van with moves := rest } } : State).post (.vanMove m) := by
  unfold State.serveVan
  rw [h]

theorem serveVan_summary {v : VanSummary} (hm : s.van.moves = []) (h : s.van.summary = some v) :
    s.serveVan = (s.post (.vanSummary v)).putVan (.idleWith s.van.counter) := by
  unfold State.serveVan
  rw [hm, h]
  rfl

theorem serveFault_cons {f : FaultRecord} {rest : List FaultRecord} (h : s.faults = f :: rest) :
    s.serveFault =
      { ({ s with faults := rest } : State).post (.fault f s.faultsDropped) with faultsDropped := 0 } := by
  unfold State.serveFault
  rw [h]
  rfl

theorem serveSixth_cons {x : SixthRecord} {rest : List SixthRecord} (h : s.sixth = x :: rest) :
    s.serveSixth = ({ s with sixth := rest } : State).postSixth x := by
  unfold State.serveSixth
  rw [h]

theorem postSixth_tariff {w : TariffApplied} (h : s.tariffs.waiting = some w) :
    s.postSixth .tariffApplied =
      (s.post (.tariffApplied w)).putTariffs { s.tariffs with waiting := none } := by
  unfold State.postSixth
  dsimp only
  rw [h]
  dsimp only
  rw [State.post_tariffs]

end Serve

/-! ### How a FAULT record comes to wait (R130, R131) -/

section MakeFault

variable {s : State} {f : FaultRecord}

theorem FaultRecord.minor_iff (f : FaultRecord) : f.minor = true ↔ f.effect = .noted ∨ f.effect = .suspect := by
  simp [FaultRecord.minor]

theorem makeFault_posts (hf : 0 < s.free) (hn : s.faults = []) :
    s.makeFault f = { s.post (.fault f s.faultsDropped) with faultsDropped := 0 } := if_pos ⟨hf, hn⟩

theorem makeFault_waits (h : s.free = 0 ∨ s.faults ≠ []) :
    s.makeFault f =
      { s with
        faults := (joinFaults s.faults f).1
        faultsDropped := if (joinFaults s.faults f).2 then countUp s.faultsDropped else s.faultsDropped } :=
  if_neg (fun hc => h.elim (fun h0 => by omega) (fun h0 => h0 hc.2))

theorem joinFaults_room {fs : List FaultRecord} (h : fs.length < 32) : joinFaults fs f = (fs ++ [f], false) := if_pos h

theorem joinFaults_minor {fs : List FaultRecord} (h : 32 ≤ fs.length) (hf : f.minor = true) :
    joinFaults fs f = (fs, true) := by
  unfold joinFaults Config.faultPlaces
  rw [if_neg (by omega), if_pos hf]

theorem joinFaults_major {fs : List FaultRecord} (h : 32 ≤ fs.length) (hf : f.minor = false) :
    joinFaults fs f =
      match fs.findIdx? FaultRecord.minor with
      | some i => (fs.eraseIdx i ++ [f], true)
      | none => (fs.tail ++ [f], true) :=
  (if_neg (by simpa [Config.faultPlaces] using h)).trans (if_neg (by simp [hf]))

end MakeFault

/-! ### How a move is counted (R142, R143, R152) -/

/-- A session whose manifest changes raises VAN_STATE (R139). -/
theorem putVan_of_manifest {s : State} {v : Van} (h : s.van.manifest ≠ v.manifest) :
    s.putVan v = ({ s with van := v } : State).raise .vanState := if_neg (fun hc => h hc.2.2)

/-- A done count that rises changes the manifest. -/
theorem setEntry_done_ne {l : List ManifestEntry} {n : Nat} {e : ManifestEntry} (h : entryAt l n = some e) :
    l ≠ setEntry l n { e with done := e.done + 1 } := by
  intro heq
  have hn := entryAt_setEntry l n n { e with done := e.done + 1 }
  rw [← heq, h] at hn
  have hd := congrArg (fun x : Option ManifestEntry => x.map (fun y => y.done)) hn
  simp at hd

theorem updateEntry_done {s : State} {n : Nat} {e : ManifestEntry} (h : entryAt s.van.manifest n = some e) :
    s.updateEntry n (fun m => { m with done := m.done + 1 }) =
      ({ s with van := { s.van with manifest := setEntry s.van.manifest n { e with done := e.done + 1 } } } : State).raise
        .vanState := by
  unfold State.updateEntry
  rw [h]
  exact putVan_of_manifest (setEntry_done_ne h)

theorem makeMove_posts {s : State} (hm : s.van.moves = []) (hf : 0 < s.free) (m : VanMove) :
    s.makeMove m = s.post (.vanMove m) := if_pos ⟨hm, hf⟩

theorem makeMove_waits {s : State} (h : s.van.moves ≠ [] ∨ s.free = 0) (hl : s.van.moves.length < 64) (m : VanMove) :
    s.makeMove m = { s with van := { s.van with moves := s.van.moves ++ [m] } } := by
  unfold State.makeMove Config.movePlaces
  rw [if_neg (fun hc => h.elim (fun h0 => h0 hc.1) (fun h0 => by omega)), if_pos hl]

theorem makeMove_dropped {s : State} (h : s.van.moves ≠ [] ∨ s.free = 0) (hl : 64 ≤ s.van.moves.length) (m : VanMove) :
    s.makeMove m = { s with van := { s.van with dropped := min 65535 (s.van.dropped + 1) } } := by
  unfold State.makeMove Config.movePlaces
  rw [if_neg (fun hc => h.elim (fun h0 => h0 hc.1) (fun h0 => by omega)), if_neg (by omega)]
  rfl

/-- Settles O39: each row serves its place where it is the first to wait; and where a record made joins its list, or not. -/
theorem roomArbiterServes : Obligations.RoomArbiterServes := by
  refine ⟨fun s hs => ⟨fun hf c hc => ?_, fun hf => ⟨?_, ?_, ?_, ?_, ?_⟩⟩, fun rest s hs => ⟨fun hf c hc => ?_, ?_⟩, ?_, ?_⟩
  · simp only [List.mem_cons, List.not_mem_nil, or_false] at hc
    rcases hc with rfl | rfl | rfl | rfl | rfl
    · exact exec_row rfl hs (serveIfNext_full hf _) rfl
    · exact exec_row rfl hs (serveIfNext_full hf _) rfl
    · exact exec_row rfl hs (serveVanIf_full hf _) rfl
    · exact exec_row rfl hs (serveVanIf_full hf _) rfl
    · exact exec_row rfl hs (serveIfNext_full hf _) rfl
  · intro before e after cause time pass hsplit hb he
    have hin : e ∈ s.entries := by rw [hsplit]; simp
    have first : s.firstPlace = some .settle := firstPlace_settle hin (by simp [SettleEntry.isHeld, he])
    exact exec_row rfl hs ((serveIfNext_first hf first).trans (serveClose_eq hsplit hb he)) (by simp)
  · intro slot p hc hin hp hst hlow
    have low := lowestSettling_eq hin hp hst hlow
    have first : s.firstPlace = some .passes := by rw [firstPlace_of_noClose hc, low]; rfl
    refine exec_row rfl hs ((serveIfNext_first hf first).trans ?_) (by simp)
    unfold State.serve
    dsimp only
    rw [low]
    exact settlePass_posts hp hst hf
  · intro m rest hc hp hm
    have first : s.firstPlace = some .van := by rw [firstPlace_of_noSettling hc hp, if_pos (.inl (by simp [hm]))]
    have row : s.serveVanIf true = s.serveIfNext .van := if_pos (by simp [hm])
    exact exec_row rfl hs (row.trans ((serveIfNext_first hf first).trans (serveVan_move hm))) (by simp)
  · intro v hc hp hm hv
    have first : s.firstPlace = some .van := by rw [firstPlace_of_noSettling hc hp, if_pos (.inr (by simp [hv]))]
    have row : s.serveVanIf false = s.serveIfNext .van := if_pos (by simp [hm])
    exact exec_row rfl hs (row.trans ((serveIfNext_first hf first).trans (serveVan_summary hm hv))) (by simp)
  · intro f rest hc hp hm hv hfaults
    have first : s.firstPlace = some .faults := by
      rw [firstPlace_of_noVan hc hp hm hv, if_pos (by simp [hfaults])]
    exact exec_row rfl hs ((serveIfNext_first hf first).trans (serveFault_cons hfaults)) (by simp)
  · simp only [List.mem_cons, List.not_mem_nil, or_false] at hc
    rcases hc with rfl | rfl | rfl | rfl <;> exact exec_row rfl hs (serveSixthIf_full hf _) rfl
  · intro hf hc hp hm hv hfaults hd served
    have first {x : SixthRecord} (hx : s.sixth = x :: rest) : s.firstPlace = some .sixth := by
      rw [firstPlace_of_noVan hc hp hm hv, if_neg (by simp [hfaults]), if_neg (by simp [hd]), if_pos (by simp [hx])]
    refine ⟨fun b hx => ?_, fun b hx => ?_, fun a b hx => ?_, fun w hx hw => ?_⟩
    · exact exec_row rfl hs ((serveSixthIf_first hx rfl hf (first hx)).trans (serveSixth_cons hx)) (State.post_power ..)
    · exact exec_row rfl hs ((serveSixthIf_first hx rfl hf (first hx)).trans (serveSixth_cons hx)) (State.post_power ..)
    · exact exec_row rfl hs ((serveSixthIf_first hx rfl hf (first hx)).trans (serveSixth_cons hx)) (State.post_power ..)
    · exact exec_row rfl hs ((serveSixthIf_first hx rfl hf (first hx)).trans
        ((serveSixth_cons hx).trans (postSixth_tariff (s := served) hw))) (by simp [served])
  · intro f s minor keeps
    refine ⟨makeFault_posts, fun hw => ⟨fun hl => ?_, fun hl => ⟨fun hm => ?_, ?_, ?_⟩⟩⟩
    · rw [makeFault_waits hw, joinFaults_room hl]
      rfl
    · show s.makeFault f = _
      rw [makeFault_waits hw, joinFaults_minor hl ((f.minor_iff).2 hm)]
      rfl
    · intro before x after hm hsplit hx hb
      have hfalse : f.minor = false := by rw [Bool.eq_false_iff, Ne, f.minor_iff]; exact hm
      have found : s.faults.findIdx? FaultRecord.minor = some before.length := by
        rw [hsplit, List.findIdx?_append, List.findIdx?_eq_none_iff.2 fun y hy => by
          rw [Bool.eq_false_iff, Ne, y.minor_iff]; exact hb y hy, List.findIdx?_cons, (x.minor_iff).2 hx]
        simp
      have erased : s.faults.eraseIdx before.length = before ++ after := by
        rw [hsplit, List.eraseIdx_append_of_length_le le_rfl, Nat.sub_self, List.eraseIdx_cons_zero]
      show s.makeFault f = _
      rw [makeFault_waits hw, joinFaults_major hl hfalse, found]
      dsimp only
      rw [erased]
      rfl
    · intro oldest rest hm hsplit hb
      have hfalse : f.minor = false := by rw [Bool.eq_false_iff, Ne, f.minor_iff]; exact hm
      have found : s.faults.findIdx? FaultRecord.minor = none := List.findIdx?_eq_none_iff.2 fun y hy => by
        rw [Bool.eq_false_iff, Ne, y.minor_iff]; exact hb y hy
      show s.makeFault f = _
      rw [makeFault_waits hw, joinFaults_major hl hfalse, found, hsplit]
      rfl
  · intro collect n d bike reserved e s he move manifest counts
    refine ⟨fun hm hf => ?_, fun hw => ⟨fun hl => ?_, fun hl => ?_⟩⟩
    · show s.countMove collect n d bike reserved = _
      unfold State.countMove
      rw [makeMove_posts hm hf, updateEntry_done (by simpa using he), State.post_van]
    · show s.countMove collect n d bike reserved = _
      unfold State.countMove
      rw [makeMove_waits hw hl]
      exact updateEntry_done (s := { s with van := { s.van with moves := _ } }) he
    · show s.countMove collect n d bike reserved = _
      unfold State.countMove
      rw [makeMove_dropped hw hl]
      exact updateEntry_done (s := { s with van := { s.van with dropped := _ } }) he

end Sys2Proof.Machine
end

