-- ==== Sys2Proof/Proofs/Directives.lean ====
section
/-! PROOFS. The execution of the directive at the head, the deny list, FAULT_SUMMARY, CENSUS and the ranges of directives, and the
directives of rides (R171, R172, R177 to R180). -/

namespace Sys2Proof.Machine

/-! ### While a directive executes, a slot is held for its reply (R171) -/

/-- The state in which the slot of the reply is held. -/
def State.executing (s : State) : State := { s with replySlot := 1 }

section Executing

variable (s : State)

@[simp] theorem executing_dock (d : Nat) : s.executing.dock d = s.dock d := rfl
@[simp] theorem executing_node (d : Nat) : s.executing.node d = s.node d := rfl
@[simp] theorem executing_pass (slot : Nat) : s.executing.pass slot = s.pass slot := rfl
@[simp] theorem executing_now : s.executing.now = s.now := rfl
@[simp] theorem executing_hires : s.executing.hires = s.hires := rfl
@[simp] theorem executing_denied : s.executing.denied = s.denied := rfl
@[simp] theorem executing_faults : s.executing.faults = s.faults := rfl
@[simp] theorem executing_attention : s.executing.attention = s.attention := rfl

/-- With no slot held before, the reply's leaves one slot less. -/
theorem executing_free (h : s.replySlot = 0) : s.executing.free = s.free - 1 := by
  unfold State.free State.executing State.records
  dsimp only
  omega

theorem executing_putDenied (v : List Nat) : s.executing.putDenied v = (s.putDenied v).executing := rfl
theorem executing_putHires (v : List OpenHire) : s.executing.putHires v = (s.putHires v).executing := rfl
theorem executing_raise (k : NoticeKind) : s.executing.raise k = (s.raise k).executing := by cases k <;> rfl
theorem executing_post (b : Body) : s.executing.post b = (s.post b).executing := by
  unfold State.post
  dsimp only
  rw [apply_ite State.executing]
  rfl
theorem executing_putPass (slot : Nat) (p : Option Pass) :
    s.executing.putPass slot p = (s.putPass slot p).executing := by
  unfold State.putPass
  dsimp only
  rw [apply_ite State.executing]
  rfl
theorem executing_putDock (d : Nat) (x : Dock) : s.executing.putDock d x = (s.putDock d x).executing := by
  unfold State.putDock
  dsimp only
  rw [apply_ite State.executing]
  rfl
theorem executing_issue (d : Nat) (c : Command) : s.executing.issue d c = (s.issue d c).executing := by
  simp only [State.issue_eq]
  rw [apply_ite State.executing]
  rfl
theorem executing_setAttention (c : AttentionCause) : s.executing.setAttention c = (s.setAttention c).executing := by
  unfold State.setAttention State.putAttention
  rw [apply_ite State.executing]
  rfl

end Executing

/-! ### The head's turn (R160, R171) -/

section Head

variable {s : State} {x : Directive} {rest : List Directive}

theorem headDue_first (h : s.headDue x rest) : s.firstPlace = some .directives := by
  obtain ⟨-, -, hc, hp, hm, hv, hf, hd⟩ := h
  rw [firstPlace_of_noVan hc hp hm hv, if_neg (by simp [hf]), if_pos (by simp [hd])]

/-- What a directive's execution leaves, with its reply (R171). -/
theorem executeHead_eq {t : State} {a : DirectiveAnswer} (hd : s.directives = x :: rest)
    (hrun : runDirective x s.executing = (t.executing, a)) (ht : t.directives = s.directives) :
    s.executeHead = t.replied x rest a.outcome a.reason a.result := by
  have run : runDirective x { s with replySlot := 1 } = (t.executing, a) := hrun
  rw [executeHead_cons hd, run]
  unfold State.replyDirective State.replied
  dsimp only
  rw [show ({ t.executing with replySlot := 0 } : State) = { t with replySlot := 0 } from rfl, State.post_directives]
  dsimp only
  rw [ht, hd]
  rfl

/-- The row of a directive executes the head of its kind (R172). -/
theorem exec_head {i : Instr} {k : Nat} (hi : exec i s = .next (s.running (fun s => s.serveDirective k)))
    (h : s.headDue x rest) (hk : x.kind = k) {t : State} {o : DirectiveOutcome} {r : Option Reason} {a : DirectiveResult}
    (hrun : runDirective x s.executing = (t.executing, { outcome := o, reason := r, result := a }))
    (ht : t.directives = s.directives) (hp : t.power = s.power) :
    exec i s = .next ((t.replied x rest o r a).finish s) := by
  have hfirst := headDue_first h
  obtain ⟨hrunning, hfree, -, -, -, -, -, hd⟩ := h
  refine exec_row hi hrunning ?_ ((State.post_power ..).trans hp)
  unfold State.serveDirective
  rw [hd, List.head?_cons, Option.any_some, hk, beq_self_eq_true, if_pos rfl, serveIfNext_first hfree hfirst]
  exact executeHead_eq hd hrun ht

end Head

/-! ### What each kind runs (R172) -/

section Kinds

variable {x : Directive} (s : State)

theorem runDirective_bikeSet (h : x.kind = 1) : runDirective x s = doBikeSet x.args s := by simp only [runDirective, h]
theorem runDirective_dockClear (h : x.kind = 2) : runDirective x s = doDockClear x.args s := by
  simp only [runDirective, h]
theorem runDirective_remoteRelease (h : x.kind = 3) : runDirective x s = doRemoteRelease x.args s := by
  simp only [runDirective, h]
theorem runDirective_denyAdd (h : x.kind = 4) : runDirective x s = doDenyAdd x.args s := by simp only [runDirective, h]
theorem runDirective_denyRemove (h : x.kind = 5) : runDirective x s = doDenyRemove x.args s := by
  simp only [runDirective, h]
theorem runDirective_hireClosed (h : x.kind = 6) : runDirective x s = doHireClosed x.args s := by
  simp only [runDirective, h]
theorem runDirective_passCharge (h : x.kind = 7) : runDirective x s = doPassCharge x.args s := by
  simp only [runDirective, h]
theorem runDirective_faultSummary (h : x.kind = 8) : runDirective x s = doFaultSummary s := by
  simp only [runDirective, h]
theorem runDirective_census (h : x.kind = 9) : runDirective x s = doCensus x.id s := by simp only [runDirective, h]

theorem runDirective_unknown (h : x.kind = 0 ∨ 9 < x.kind) : runDirective x s = (s, answerRange .kind) := by
  unfold runDirective
  split <;> first | omega | rfl

end Kinds

/-! ### The deny list (R48, R177) -/

theorem length_insertId (m : Nat) (l : List Nat) : (insertId m l).length = l.length + 1 := by
  induction l with
  | nil => rfl
  | cons x xs ih => unfold insertId; split <;> simp [ih]

theorem mem_insertId (m x : Nat) (l : List Nat) : x ∈ insertId m l ↔ x = m ∨ x ∈ l := by
  induction l with
  | nil => simp [insertId]
  | cons y ys ih =>
    unfold insertId
    split
    · exact List.mem_cons
    · simp only [List.mem_cons, ih]
      exact or_left_comm

/-- An id is placed behind the smaller ones, so the list keeps its order. -/
theorem pairwise_insertId {m : Nat} {l : List Nat} (hl : l.Pairwise (· < ·)) (hm : m ∉ l) :
    (insertId m l).Pairwise (· < ·) := by
  induction l with
  | nil => exact List.pairwise_singleton _ _
  | cons x xs ih =>
    obtain ⟨hx, hxs⟩ := List.pairwise_cons.1 hl
    rw [List.mem_cons, not_or] at hm
    unfold insertId
    split
    · rename_i hlt
      exact List.pairwise_cons.2 ⟨fun y hy => (List.mem_cons.1 hy).elim (fun h => h ▸ hlt) (fun h => hlt.trans (hx y h)), hl⟩
    · refine List.pairwise_cons.2 ⟨fun y hy => ?_, ih hxs hm.2⟩
      rcases (mem_insertId m y xs).1 hy with rfl | h
      · omega
      · exact hx y h

section Deny

variable {s : State} {args : List Byte} {m : Nat}

theorem doDenyAdd_of_range (h : argument args 0 4 1 99999999 = some m) : doDenyAdd args s = runDenyAdd m s := by
  unfold doDenyAdd
  rw [h]

theorem doDenyRemove_of_range (h : argument args 0 4 1 99999999 = some m) :
    doDenyRemove args s = runDenyRemove m s := by
  unfold doDenyRemove
  rw [h]

theorem runDenyAdd_held (h : m ∈ s.denied) :
    runDenyAdd m s = (s, answerDone (.deny false s.denied.length)) := if_pos (List.contains_iff_mem.2 h)

theorem runDenyAdd_full (h : m ∉ s.denied) (hl : 1024 ≤ s.denied.length) :
    runDenyAdd m s = (s, answerPlain .tableFull none) := by
  unfold runDenyAdd
  rw [if_neg (fun hc => h (List.contains_iff_mem.1 hc))]
  exact if_pos hl

theorem runDenyAdd_adds (h : m ∉ s.denied) (hl : s.denied.length < 1024) :
    runDenyAdd m s = (s.putDenied (insertId m s.denied), answerDone (.deny true (s.denied.length + 1))) := by
  unfold runDenyAdd
  rw [if_neg (fun hc => h (List.contains_iff_mem.1 hc)), if_neg (by unfold Config.denyPlaces; omega)]
  dsimp only
  rw [length_insertId]

theorem runDenyRemove_absent (h : m ∉ s.denied) : runDenyRemove m s = (s, answerPlain .notFound none) :=
  if_neg (fun hc => h (List.contains_iff_mem.1 hc))

theorem runDenyRemove_removes {before after : List Nat} (hs : s.denied = before ++ m :: after) (hb : m ∉ before)
    (ha : m ∉ after) :
    runDenyRemove m s =
      (s.putDenied (before ++ after), answerDone (.deny true (before.length + after.length))) := by
  have keep {l : List Nat} (hl : m ∉ l) : l.filter (fun y => y != m) = l :=
    List.filter_eq_self.2 fun y hy => by simpa using fun h : y = m => hl (h ▸ hy)
  have gone : s.denied.filter (fun y => y != m) = before ++ after := by
    rw [hs, List.filter_append, List.filter_cons_of_neg (by simp), keep hb, keep ha]
  unfold runDenyRemove
  rw [if_pos (by rw [hs]; simp)]
  dsimp only
  rw [gone, List.length_append]

end Deny

/-- Settles O40: each case of the two kinds at the head, and the order of the list. -/
theorem denyDirectives : Obligations.DenyDirectives := by
  refine ⟨fun x rest s h => ?_, fun m l hl hm => ⟨pairwise_insertId hl hm, fun y => mem_insertId m y l⟩⟩
  intro ends
  refine ⟨fun hk => ?_, fun hk => ?_⟩
  · have row {t : State} {o : DirectiveOutcome} {r : DirectiveResult}
        (hrun : doDenyAdd x.args s.executing = (t.executing, { outcome := o, reason := none, result := r }))
        (ht : t.directives = s.directives) (hp : t.power = s.power) : ends .denyAdd t o r :=
      exec_head rfl h hk ((runDirective_denyAdd s.executing hk).trans hrun) ht hp
    refine ⟨fun hn => row ?_ rfl rfl, fun m hm => ⟨fun hin => row ?_ rfl rfl, fun hin hl => row ?_ rfl rfl,
      fun hin hl => row ?_ rfl rfl⟩⟩
    · simp only [doDenyAdd, hn]; rfl
    · exact (doDenyAdd_of_range hm).trans (runDenyAdd_held (s := s.executing) hin)
    · exact (doDenyAdd_of_range hm).trans (runDenyAdd_full (s := s.executing) hin hl)
    · exact (doDenyAdd_of_range hm).trans (runDenyAdd_adds (s := s.executing) hin hl)
  · have row {t : State} {o : DirectiveOutcome} {r : DirectiveResult}
        (hrun : doDenyRemove x.args s.executing = (t.executing, { outcome := o, reason := none, result := r }))
        (ht : t.directives = s.directives) (hp : t.power = s.power) : ends .denyRemove t o r :=
      exec_head rfl h hk ((runDirective_denyRemove s.executing hk).trans hrun) ht hp
    refine ⟨fun hn => row ?_ rfl rfl, fun m hm => ⟨fun hin => row ?_ rfl rfl, fun before after hs hb ha => row ?_ rfl rfl⟩⟩
    · simp only [doDenyRemove, hn]; rfl
    · exact (doDenyRemove_of_range hm).trans (runDenyRemove_absent (s := s.executing) hin)
    · exact (doDenyRemove_of_range hm).trans (runDenyRemove_removes (s := s.executing) hs hb ha)

/-! ### FAULT_SUMMARY, CENSUS and the ranges (R172, R180) -/

/-- A record waiting that is a DOCK_CENSUS of a directive, spelled out. -/
theorem directiveCensus_spelled (r : SixthRecord) :
    r.directiveCensus = match r with
      | .dockCensus b => (match b.reason with | .directive _ => true | .startup => false)
      | _ => false := by
  cases r <;> rfl

/-- A sixth place without such a record is left whole as one is dropped. -/
theorem filter_directiveCensus (l : List SixthRecord) :
    (if l.any SixthRecord.directiveCensus then l.filter (fun x => !x.directiveCensus) else l) =
      l.filter (fun x => !x.directiveCensus) := by
  split
  · rfl
  · rename_i h
    simp only [Bool.not_eq_true, List.any_eq_false] at h
    exact (List.filter_eq_self.2 fun x hx => by simpa using h x hx).symm

/-- Settles O44: the summary and the census at the head, and the first field that fails by kind. -/
theorem reportsAndRanges : Obligations.ReportsAndRanges := by
  refine ⟨fun x rest s h => ⟨fun hk => ?_, fun hk hr => ?_⟩, fun x s => ?_⟩
  · exact exec_head rfl h hk (t := s.clearAttention) ((runDirective_faultSummary s.executing hk).trans rfl) rfl rfl
  · intro items body byDirective
    have hby : byDirective = SixthRecord.directiveCensus := funext fun r => (directiveCensus_spelled r).symm
    have free := executing_free s hr
    refine ⟨fun hf hx => ?_, fun hw => ?_⟩
    · refine exec_head rfl h hk (t := s.post (.dockCensus body)) ?_ (State.post_directives ..) (State.post_power ..)
      rw [runDirective_census s.executing hk, doCensus_posts (s := s.executing) (State.sixthWaits_false (by omega) hx), executing_post]
      rfl
    · rw [hby]
      refine exec_head rfl h hk (t := { s with sixth := s.sixth.filter (fun r => !r.directiveCensus) ++ [.dockCensus body] })
        ?_ rfl rfl
      rw [runDirective_census s.executing hk, doCensus_waits (s := s.executing) (State.sixthWaits_iff.2 (hw.imp (by omega) id)),
        filter_directiveCensus]
      rfl
  · intro names
    refine ⟨fun h => runDirective_unknown s h, fun hk => ?_, fun hk => ?_, fun hk => ?_, fun hk => ?_⟩
    · have row {f : Field} (h : doBikeSet x.args s = (s, answerRange f)) : names f := (runDirective_bikeSet s hk).trans h
      refine ⟨fun h => row ?_, fun h0 => ⟨fun h => row ?_, fun h1 h => row ?_⟩⟩ <;>
        simp only [doBikeSet, ne_eq, Option.ne_none_iff_exists'] at *
      · rw [h]
      · obtain ⟨a, ha⟩ := h0
        rw [ha, h]
      · obtain ⟨a, ha⟩ := h0
        obtain ⟨b, hb⟩ := h1
        rw [ha, hb, h]
    · have row {f : Field} (h : doRemoteRelease x.args s = (s, answerRange f)) : names f :=
        (runDirective_remoteRelease s hk).trans h
      refine ⟨fun h => row ?_, fun h0 => ⟨fun h => row ?_, fun h1 h => row ?_⟩⟩ <;>
        simp only [doRemoteRelease, ne_eq, Option.ne_none_iff_exists'] at *
      · rw [h]
      · obtain ⟨a, ha⟩ := h0
        rw [ha, h]
      · obtain ⟨a, ha⟩ := h0
        obtain ⟨b, hb⟩ := h1
        rw [ha, hb, h]
    · have row {f : Field} (h : doHireClosed x.args s = (s, answerRange f)) : names f :=
        (runDirective_hireClosed s hk).trans h
      refine ⟨fun h => row ?_, fun h0 h => row ?_⟩ <;> simp only [doHireClosed, ne_eq, Option.ne_none_iff_exists'] at *
      · rw [h]
      · obtain ⟨a, ha⟩ := h0
        rw [ha, h]
    · have row {f : Field} (h : doPassCharge x.args s = (s, answerRange f)) : names f :=
        (runDirective_passCharge s hk).trans h
      refine ⟨fun h => row ?_, fun h0 => ⟨fun h => row ?_, fun h1 => ⟨fun h => row ?_, fun h2 => ⟨fun h => row ?_,
        fun h3 h => row ?_⟩⟩⟩⟩ <;>
        simp only [doPassCharge, ne_eq, Option.ne_none_iff_exists'] at *
      · rw [h]
      · obtain ⟨a, ha⟩ := h0
        rw [ha, h]
      · obtain ⟨a, ha⟩ := h0
        obtain ⟨b, hb⟩ := h1
        rw [ha, hb, h]
      · obtain ⟨a, ha⟩ := h0
        obtain ⟨b, hb⟩ := h1
        obtain ⟨c, hc⟩ := h2
        rw [ha, hb, hc, h]
      · obtain ⟨a, ha⟩ := h0
        obtain ⟨b, hb⟩ := h1
        obtain ⟨c, hc⟩ := h2
        obtain ⟨e, he⟩ := h3
        rw [ha, hb, hc, he, h]

end Sys2Proof.Machine
end

