-- ==== Sys2Proof/Proofs/Rides.lean ====
section
/-! PROOFS. The end of a ride at a charge, and HIRE_CLOSED and PASS_CHARGE at the head of the queue (R70, R71, R178, R179). -/

namespace Sys2Proof.Machine

/-! ### Where a ride leaves its pass (R70) -/

section Ride

variable {s : State} {p : Pass} {slot serial amount : Nat} {ref : HireRef}

theorem stateAfterRide_idle {now : Option Nat} (hk : p.kind = .day) (h : ∀ t, now = some t → t < p.expiry) :
    p.stateAfterRide now = .idle := by
  unfold Pass.stateAfterRide
  rw [hk]
  refine if_neg ?_
  cases now with
  | none => simp
  | some t => simpa using h t rfl

theorem stateAfterRide_settling {now : Option Nat} (h : p.kind = .single ∨ ∃ t, now = some t ∧ p.expiry ≤ t) :
    p.stateAfterRide now = .settling := by
  unfold Pass.stateAfterRide
  rcases h with h | ⟨t, ht, hle⟩
  · rw [h]
  · cases p.kind with
    | single => rfl
    | day => exact if_pos (by simp [ht, hle])

theorem chargeAndMove_idle (h : p.stateAfterRide s.now = .idle) :
    s.chargeAndMove slot p amount = s.putPass slot (some { p.charge amount with state := .idle }) := by
  unfold State.chargeAndMove
  rw [h]

theorem chargeAndMove_settling (h : p.stateAfterRide s.now = .settling) :
    s.chargeAndMove slot p amount = s.enterSettling slot (p.charge amount) := by
  unfold State.chargeAndMove
  rw [h]

/-- A charge of 0 counts the ride and clears the hire. -/
theorem Pass.charge_zero (p : Pass) : p.charge 0 = { p with rides := min 255 (p.rides + 1), current := none } := by
  simp [Pass.charge]

/-- The ride of a slot's pass, where it is the one named. -/
theorem passRides_some {x : PassState} (hp : s.pass slot = some p) (hs : p.serial = serial) (hx : p.state = x)
    (hc : p.current = some ref) : s.passRides slot serial x ref = some p := by
  simp [State.passRides, hp, hs, hx, hc, Option.filter]

theorem passRides_none {x : PassState}
    (h : ∀ p, s.pass slot = some p → ¬ (p.serial = serial ∧ p.state = x ∧ p.current = some ref)) :
    s.passRides slot serial x ref = none := by
  unfold State.passRides
  rw [Option.filter_eq_none_iff]
  intro p hp
  have := h p hp
  simp only [Bool.and_eq_true, beq_iff_eq]
  tauto

theorem chargeRide_some (hp : s.pass slot = some p) (hs : p.serial = serial) (hx : p.state = .onRide)
    (hc : p.current = some ref) :
    s.chargeRide slot serial ref amount =
      some ((s.removeHire ref).chargeAndMove slot p amount, min amount p.balance, amount - min amount p.balance,
        p.stateAfterRide s.now) := by
  unfold State.chargeRide
  rw [passRides_some hp hs hx hc]

theorem chargeRide_none (h : ∀ p, s.pass slot = some p → ¬ (p.serial = serial ∧ p.state = .onRide ∧ p.current = some ref)) :
    s.chargeRide slot serial ref amount = none := by
  unfold State.chargeRide
  rw [passRides_none h]

end Ride

/-! ### Directives of rides -/

section Do

variable {s : State} {args : List Byte}

theorem doHireClosed_of_range {station count : Nat} (hs : argument args 0 2 1 4095 = some station)
    (hc : argument args 2 4 1 16777215 = some count) :
    doHireClosed args s =
      match s.hireOf { station := station, count := count } with
      | none => (s, answerPlain .notFound none)
      | some h => closeHeldHire h s := by
  simp only [doHireClosed, hs, hc] <;> rfl

theorem doPassCharge_of_range {slot serial station count amount : Nat} (h0 : argument args 0 1 1 32 = some slot)
    (h1 : argument args 1 2 1 65535 = some serial) (h2 : argument args 3 2 1 4095 = some station)
    (h3 : argument args 5 4 1 16777215 = some count) (h4 : argument args 9 2 0 65535 = some amount) :
    doPassCharge args s = runPassCharge slot serial { station := station, count := count } amount s := by
  simp only [doPassCharge, h0, h1, h2, h3, h4]

theorem hireOf_none {ref : HireRef} (h : ∀ g ∈ s.hires, g.ref ≠ ref) : s.hireOf ref = none :=
  List.find?_eq_none.2 fun g hg => by simpa using h g hg

theorem hireOf_split {before after : List OpenHire} {h : OpenHire} {ref : HireRef} (hs : s.hires = before ++ h :: after)
    (hr : h.ref = ref) (hb : ∀ g ∈ before, g.ref ≠ ref) : s.hireOf ref = some h := by
  unfold State.hireOf
  rw [hs, List.find?_append, List.find?_eq_none.2 fun g hg => by simpa using hb g hg, List.find?_cons, hr]
  simp

theorem closeHeldHire_plain {h : OpenHire} (hh : ∀ slot serial, h.hirer ≠ .pass slot serial) :
    closeHeldHire h s = (s.removeHire h.ref, answerDone (.hireClosed h none)) := by
  unfold closeHeldHire
  split
  · rename_i slot serial heq
    exact absurd heq (hh slot serial)
  · rfl

/-- The open hire of a pass, with its ride charged 0 where the pass is on it (R178). -/
theorem closeHeldHire_pass {h : OpenHire} {slot serial : Nat} (hh : h.hirer = .pass slot serial) :
    closeHeldHire h s =
      match s.chargeRide slot serial h.ref 0 with
      | some (s', _, _, after) => (s', answerDone (.hireClosed h (some after)))
      | none =>
        (s.removeHire h.ref,
          answerDone (.hireClosed h (((s.pass slot).filter (fun p => p.serial == serial)).map (fun p => p.state)))) := by
  unfold closeHeldHire
  rw [hh] <;> rfl

end Do

/-- The executing part enters SETTLING with a second slot free, or waits. -/
theorem executing_enterSettling_posts {s : State} {slot : Nat} {p q : Pass} (hp : s.pass slot = some q)
    (hr : s.replySlot = 0) (hf : 1 < s.free) (x : Pass) (hx : x = { p with state := .settling }) :
    s.executing.enterSettling slot p =
      (((s.putPass slot (some x)).post (.passSettle slot x)).putPass slot none).executing := by
  subst hx
  have room : 0 < s.executing.free := by rw [executing_free s hr]; omega
  rw [enterSettling_posts (s := s.executing) hp room, executing_putPass, executing_post, executing_putPass]

theorem executing_enterSettling_waits {s : State} {slot : Nat} {p : Pass} (hr : s.replySlot = 0) (hf : s.free = 1)
    (x : Pass) (hx : x = { p with state := .settling }) :
    s.executing.enterSettling slot p = (s.putPass slot (some x)).executing := by
  subst hx
  rw [enterSettling_waits (s := s.executing) (by rw [executing_free s hr]; omega), executing_putPass]

/-- Settles O43: the hire and the pass by the state the ride leaves it in, with the slots free beside the reply's. -/
theorem rideDirectives : Obligations.RideDirectives := by
  refine ⟨fun x rest s station count h hk hst hct => ?_, fun x rest s slot serial station count amount h hk h0 h1 h2 h3 h4 => ?_⟩
  · intro ref ends
    have row {t : State} {o : DirectiveOutcome} {a : DirectiveResult}
        (hrun : doHireClosed x.args s.executing = (t.executing, { outcome := o, reason := none, result := a }))
        (ht : t.directives = s.directives) (hp : t.power = s.power) : ends t o a :=
      exec_head rfl h hk ((runDirective_hireClosed s.executing hk).trans hrun) ht hp
    have closes := doHireClosed_of_range (s := s.executing) hst hct
    refine ⟨fun hn => row ?_ rfl rfl, fun before g after hs hr hne => ?_⟩
    · rw [closes, hireOf_none (s := s.executing) hn]
      rfl
    · intro removed
      have hne' : ∀ y ∈ before ++ after, y.ref ≠ g.ref := hr ▸ hne
      have found : s.executing.hireOf g.ref = some g :=
        hireOf_split (s := s.executing) hs rfl fun y hy => hne' y (List.mem_append_left _ hy)
      have gone : s.executing.removeHire g.ref = removed.executing := removeHire_split (s := s.executing) hs hne'
      have closed : doHireClosed x.args s.executing = closeHeldHire g s.executing := by
        rw [closes, show s.executing.hireOf { station := station, count := count } = some g from
          (congrArg s.executing.hireOf hr.symm).trans found]
      have rides {slot serial : Nat} {p : Pass} (hh : g.hirer = .pass slot serial) (hp : s.pass slot = some p)
          (hserial : p.serial = serial) (hx : p.state = .onRide) (hc : p.current = some g.ref) :
          doHireClosed x.args s.executing =
            (removed.executing.chargeAndMove slot p 0, answerDone (.hireClosed g (some (p.stateAfterRide s.now)))) := by
        rw [closed, closeHeldHire_pass hh, chargeRide_some (s := s.executing) hp hserial hx hc, gone]
        rfl
      refine ⟨fun hh => row ?_ rfl rfl, ?_, ?_, ?_⟩
      · rw [closed, closeHeldHire_plain hh, gone]
        rfl
      · intro slot serial p hh hp hserial hx hc hkind hexp
        have after := stateAfterRide_idle hkind hexp
        refine row ?_ (State.putPass_directives ..) (State.putPass_power ..)
        rw [rides hh hp hserial hx (hc.trans (congrArg some hr.symm)), after, chargeAndMove_idle (s := removed.executing) after, Pass.charge_zero,
          executing_putPass]
        rfl
      · intro slot serial hh hnone
        refine row ?_ rfl rfl
        rw [closed, closeHeldHire_pass hh, chargeRide_none (s := s.executing) (hr ▸ hnone), gone]
        cases hp : s.pass slot with
        | none => simp [hp, answerDone]
        | some p => by_cases hserial : p.serial = serial <;> simp [hp, hserial, answerDone, Option.filter]
      · intro slot serial p hh hp hserial hx hc hend hreply q
        have after := stateAfterRide_settling hend
        have settles : doHireClosed x.args s.executing =
            (removed.executing.enterSettling slot (p.charge 0), answerDone (.hireClosed g (some .settling))) := by
          rw [rides hh hp hserial hx (hc.trans (congrArg some hr.symm)), after, chargeAndMove_settling (s := removed.executing) after]
        have hq : q = { p.charge 0 with state := .settling } := by rw [Pass.charge_zero]
        refine ⟨fun hf => row ?_ (by simp [removed]) (by simp [removed]), fun hf => row ?_ (by simp [removed]) (by simp [removed])⟩
        · rw [settles, executing_enterSettling_posts (s := removed) hp hreply hf q hq]
          rfl
        · rw [settles, executing_enterSettling_waits (s := removed) hreply hf q hq]
          rfl
  · intro ref
    have charges : runDirective x s.executing = runPassCharge slot serial ref amount s.executing :=
      (runDirective_passCharge s.executing hk).trans (doPassCharge_of_range (s := s.executing) h0 h1 h2 h3 h4)
    have gone : s.executing.removeHire ref = (s.removeHire ref).executing := rfl
    have rides {p : Pass} (hp : s.pass slot = some p) (hserial : p.serial = serial) (hx : p.state = .onRide)
        (hc : p.current = some ref) :
        runDirective x s.executing =
          ((s.removeHire ref).executing.chargeAndMove slot p amount,
            answerDone (.passCharge (min amount p.balance) (amount - min amount p.balance) (p.stateAfterRide s.now))) := by
      rw [charges, runPassCharge, chargeRide_some (s := s.executing) hp hserial hx hc]
      rfl
    refine ⟨fun hn => exec_head rfl h hk (t := s) ?_ rfl rfl, ?_, ?_⟩
    · rw [charges, runPassCharge, chargeRide_none (s := s.executing) hn]
      rfl
    · intro p hp hserial hx hc hkind hexp charge
      have after := stateAfterRide_idle hkind hexp
      refine exec_head rfl h hk ?_ (State.putPass_directives ..) (State.putPass_power ..)
      rw [rides hp hserial hx hc, after, chargeAndMove_idle (s := (s.removeHire ref).executing) after, executing_putPass]
      rfl
    · intro p hp hserial hx hc hend hreply charge q settling ends
      have after := stateAfterRide_settling hend
      have settles : runDirective x s.executing =
          ((s.removeHire ref).executing.enterSettling slot (p.charge amount),
            answerDone (.passCharge charge (amount - charge) .settling)) := by
        rw [rides hp hserial hx hc, after, chargeAndMove_settling (s := (s.removeHire ref).executing) after]
        rfl
      refine ⟨fun hf => exec_head rfl h hk ?_ (by simp [settling]) (by simp [settling]),
        fun hf => exec_head rfl h hk ?_ (by simp [settling]) (by simp [settling])⟩
      · rw [settles, executing_enterSettling_posts (s := s.removeHire ref) hp hreply hf q rfl]
        rfl
      · rw [settles, executing_enterSettling_waits (s := s.removeHire ref) hreply hf q rfl]
        rfl

end Sys2Proof.Machine
end

