-- ==== Sys2Proof/Proofs/Acks.lean ====
section
/-! PROOFS. The room arbiter where one slot is free, with the acknowledgements that free it, and the directive that joins the
queue (R159, R160, R163, R164, R170, R171). -/

namespace Sys2Proof.Machine

/-! ### The slots set aside stand (R159)

Nothing that a directive runs gives a slot back: only REMOTE_RELEASE sets one more aside. -/

section SetAside

variable (s : State)

@[simp] theorem settlePass_setAside (slot : Nat) : (s.settlePass slot).setAside = s.setAside := by
  unfold State.settlePass
  split
  · rfl
  · split <;> simp

@[simp] theorem enterSettling_setAside (slot : Nat) (p : Pass) : (s.enterSettling slot p).setAside = s.setAside := by
  simp [State.enterSettling]

@[simp] theorem chargeAndMove_setAside (slot : Nat) (p : Pass) (n : Nat) :
    (s.chargeAndMove slot p n).setAside = s.setAside := by
  unfold State.chargeAndMove
  split <;> simp

@[simp] theorem chargeClose_setAside (ref : HireRef) (h : Hirer) (fare : Nat) :
    (s.chargeClose ref h fare).1.setAside = s.setAside := by
  unfold State.chargeClose
  repeat' split
  all_goals simp

theorem chargeRide_setAside {slot serial n : Nat} {ref : HireRef} {x : State × Nat × Nat × PassState}
    (h : s.chargeRide slot serial ref n = some x) : x.1.setAside = s.setAside := by
  unfold State.chargeRide at h
  split at h
  · cases h
  · cases h
    exact chargeAndMove_setAside ..

@[simp] theorem unmark_setAside (d bike : Nat) : (s.unmark d bike).setAside = s.setAside := by
  unfold State.unmark State.markSettling
  split <;> simp

@[simp] theorem finalise_setAside (i : Nat) (c : FinalCause) : (s.finalise i c).setAside = s.setAside := by
  unfold State.finalise
  split
  · rfl
  · split
    · rfl
    · dsimp only
      split <;> simp [State.postClose, State.putEntries]

@[simp] theorem settleDock_setAside (d : Nat) (r : EarlyReason) : (s.settleDock d r).setAside = s.setAside := by
  unfold State.settleDock State.finaliseBike
  repeat' split
  all_goals simp

theorem setBike_setAside (d : Nat) (b : Bike) (c : Condition) : (s.setBike d b c).1.setAside = s.setAside := by
  unfold State.setBike State.centralChange State.putBike
  cases c <;> dsimp only <;> split <;> simp

theorem clearDock_setAside (d : Nat) : (s.clearDock d).setAside = s.setAside := by
  unfold State.clearDock
  dsimp only
  repeat' split
  all_goals simp

theorem admitRelease_setAside (d : Nat) (h : Hirer) (issue : Option Nat) (plan credit t : Nat) (fromDock : Bool) :
    (s.admitRelease d h issue plan credit t fromDock).setAside = s.setAside + 1 := by
  simp [State.admitRelease, State.beginRelease, State.takeSlot, State.takeRef]

/-- No directive gives a slot back. -/
theorem setAside_le_runDirective (x : Directive) : s.setAside ≤ (runDirective x s).1.setAside := by
  unfold runDirective
  split
  · unfold doBikeSet runBikeSet
    repeat' split
    all_goals simp [setBike_setAside]
  · unfold doDockClear runDockClear
    dsimp only
    repeat' split
    all_goals simp [clearDock_setAside]
  · unfold doRemoteRelease runRemoteRelease
    repeat' split
    all_goals simp [admitRelease_setAside]
  · unfold doDenyAdd runDenyAdd
    repeat' split
    all_goals exact le_rfl
  · unfold doDenyRemove runDenyRemove
    repeat' split
    all_goals exact le_rfl
  · unfold doHireClosed closeHeldHire
    repeat' split
    all_goals first | exact le_rfl | exact (chargeRide_setAside s ‹_›).ge
  · unfold doPassCharge runPassCharge
    repeat' split
    all_goals first | exact le_rfl | exact (chargeRide_setAside s ‹_›).ge
  · exact le_rfl
  · cases h : s.sixthWaits with
    | false => rw [doCensus_posts h]; simp
    | true => rw [doCensus_waits h]
  · exact le_rfl

end SetAside

/-! ### One service takes the slot (R160) -/

/-- No update of a block behind the link takes a record out of the journal. -/
theorem Flow.records_le {a s : State} (h : Flow a s) : a.records.length ≤ s.records.length := by
  induction h with
  | refl => exact le_rfl
  | post _ b ih => rw [State.post_records, List.length_append]; omega
  | putPass _ slot p ih =>
    unfold State.putPass
    dsimp only
    split <;> exact ih
  | putDock _ d x hx ih =>
    unfold State.putDock
    dsimp only
    split <;> exact ih
  | putVan _ v hv ih =>
    unfold State.putVan
    dsimp only
    split <;> exact ih
  | _ => rename_i ih; exact ih

/-- The slots that are neither free nor held for a reply. -/
def State.taken (s : State) : Nat := s.records.length + s.setAside

@[simp] theorem State.post_taken (s : State) (b : Body) : (s.post b).taken = s.taken + 1 := by
  unfold State.taken
  rw [State.post_records, List.length_append, State.post_setAside, List.length_singleton]
  omega

theorem executeHead_taken {s : State} (h : s.directives ≠ []) : s.taken + 1 ≤ s.executeHead.taken := by
  obtain ⟨x, rest, hd⟩ := List.exists_cons_of_ne_nil h
  rw [executeHead_cons hd]
  have records := (runDirective_flow (a := s.executing) .refl x).records_le
  have aside := setAside_le_runDirective s.executing x
  have kept : s.executing.taken ≤ (runDirective x s.executing).1.taken := Nat.add_le_add records aside
  show s.executing.taken + 1 ≤ (({ (runDirective x s.executing).1 with replySlot := 0 } : State).post _).taken
  rw [State.post_taken]
  exact Nat.succ_le_succ kept

theorem postSixth_taken {s : State} {x : SixthRecord} (h : x = .tariffApplied → s.tariffs.waiting ≠ none) :
    (s.postSixth x).taken = s.taken + 1 := by
  cases x with
  | tariffApplied =>
    obtain ⟨w, hw⟩ := Option.ne_none_iff_exists'.1 (h rfl)
    unfold State.postSixth
    dsimp only
    rw [hw]
    exact State.post_taken s (.tariffApplied w)
  | _ => exact State.post_taken s _

/-- The service of the first place takes a slot: it posts a record. -/
theorem serve_taken {s : State} {p : Place} (hf : 0 < s.free) (hp : s.firstPlace = some p) (hpost : s.postsIn p) :
    s.taken + 1 ≤ (s.serve p).taken := by
  unfold State.firstPlace at hp
  split at hp
  · rename_i hw
    cases hp
    obtain ⟨e, he, hwait⟩ := List.any_eq_true.1 hw
    show s.taken + 1 ≤ s.serveClose.taken
    unfold State.serveClose
    cases hi : s.entries.findIdx? SettleEntry.isWaiting with
    | none => exact absurd hwait (by simpa using List.findIdx?_eq_none_iff.1 hi e he)
    | some i =>
      obtain ⟨hlt, hwi, -⟩ := List.findIdx?_eq_some_iff_getElem.1 hi
      dsimp only
      rw [List.getElem?_eq_getElem hlt]
      dsimp only
      cases hst : s.entries[i].stage with
      | held b d t => simp [SettleEntry.isWaiting, SettleEntry.isHeld, hst] at hwi
      | waiting c t r =>
        exact (State.post_taken ..).ge
  · split at hp
    · rename_i hs
      cases hp
      obtain ⟨slot, hslot⟩ := Option.isSome_iff_exists.1 hs
      have found := List.find?_some hslot
      cases hq : s.pass slot with
      | none => simp [hq] at found
      | some q =>
        show s.taken + 1 ≤ (match s.lowestSettling with | some slot => s.settlePass slot | none => s).taken
        rw [hslot]
        dsimp only
        rw [settlePass_posts hq (by simpa [hq] using found) hf]
        simp [State.taken, State.post_records]
    · split at hp
      · rename_i hv
        cases hp
        show s.taken + 1 ≤ s.serveVan.taken
        cases hm : s.van.moves with
        | cons m rest => rw [serveVan_move hm, State.post_taken]; exact le_rfl
        | nil =>
          obtain ⟨v, hv⟩ := Option.isSome_iff_exists.1 (hv.resolve_left (fun h => h hm))
          rw [serveVan_summary hm hv]
          simp [State.taken, State.post_records]
      · split at hp
        · rename_i hfs
          cases hp
          obtain ⟨f, rest, hfs⟩ := List.exists_cons_of_ne_nil hfs
          show s.taken + 1 ≤ s.serveFault.taken
          rw [serveFault_cons hfs]
          show s.taken + 1 ≤ (({ s with faults := rest } : State).post _).taken
          rw [State.post_taken]
          exact le_rfl
        · split at hp
          · rename_i hd
            cases hp
            exact executeHead_taken hd
          · split at hp
            · rename_i hx
              cases hp
              obtain ⟨x, rest, hx⟩ := List.exists_cons_of_ne_nil hx
              show s.taken + 1 ≤ s.serveSixth.taken
              rw [serveSixth_cons hx]
              have ht : x = .tariffApplied → s.tariffs.waiting ≠ none := fun h => hpost rfl (by rw [hx, h]; rfl)
              exact (postSixth_taken (s := { s with sixth := rest }) ht).ge
            · cases hp

section Drain

variable {s : State}

/-- With no slot free, or with no producer waiting, the arbiter does nothing. -/
theorem drainFor_idle (h : s.free = 0 ∨ s.firstPlace = none) (fuel : Nat) : s.drainFor fuel = s := by
  cases fuel with
  | zero => rfl
  | succ fuel =>
    unfold State.drainFor
    by_cases hf : s.free = 0
    · exact if_pos hf
    · rw [if_neg hf, h.resolve_left hf]

theorem drain_idle (h : s.free = 0 ∨ s.firstPlace = none) : s.drain = s := drainFor_idle h _

/-- After one service that leaves nothing to do, the arbiter stops. -/
theorem drain_once {p : Place} (hf : 0 < s.free) (hp : s.firstPlace = some p)
    (h : (s.serve p).free = 0 ∨ (s.serve p).firstPlace = none) : s.drain = s.serve p := by
  unfold State.drain Config.journalSlots State.drainFor
  rw [if_neg (by omega), hp]
  exact drainFor_idle h _

/-- With one slot free, the first place has it (R160). -/
theorem drain_serves {p : Place} (ht : s.taken = 255) (hr : s.replySlot = 0) (hp : s.firstPlace = some p)
    (hpost : s.postsIn p) : s.drain = s.serve p := by
  have free : s.free = 1 := by
    unfold State.taken at ht
    unfold State.free Config.journalSlots
    omega
  have filled := serve_taken (by omega) hp hpost
  refine drain_once (by omega) hp (.inl ?_)
  unfold State.taken at filled ht
  unfold State.free Config.journalSlots
  omega

end Drain

/-! ### JOURNAL_ACK (R163, R164) -/

section Ack

variable {s : State} {epoch sequence : Nat}

theorem sentRecord_none (h : ∀ r ∈ s.records, ¬ (r.epoch = epoch ∧ r.sequence = sequence ∧ r.state = .sent)) :
    s.sentRecord epoch sequence = none :=
  List.find?_eq_none.2 fun r hr => by simpa [and_assoc] using h r hr

theorem isSent_iff (r : Record) : r.isSent epoch sequence = true ↔ r.epoch = epoch ∧ r.sequence = sequence ∧ r.state = .sent := by
  simp [Record.isSent, and_assoc]

variable {before after : List Record} {r : Record}

theorem sentRecord_split (hs : s.records = before ++ r :: after) (hr : r.isSent epoch sequence = true)
    (hb : ∀ x ∈ before, ¬ x.isSent epoch sequence = true) : s.sentRecord epoch sequence = some r := by
  show s.records.find? (fun x => x.isSent epoch sequence) = some r
  rw [hs, List.find?_append, List.find?_eq_none.2 hb, List.find?_cons, hr]
  rfl

theorem removeRecord_split (hs : s.records = before ++ r :: after) (hr : r.isSent epoch sequence = true)
    (hb : ∀ x ∈ before, ¬ x.isSent epoch sequence = true) :
    s.removeRecord epoch sequence = s.putRecords (before ++ after) := by
  unfold State.removeRecord
  rw [hs, List.eraseP_append_right _ hb, List.eraseP_cons_of_pos (p := fun b : Record => b.isSent epoch sequence) hr]

theorem ownRemove_of_sent {fatal : Bool} (h : s.sentRecord epoch sequence = some r) :
    ownRemove fatal epoch sequence s =
      ((if fatal then ({ s.removeRecord epoch sequence with fatal := countUp (s.removeRecord epoch sequence).fatal } : State)
        else s.removeRecord epoch sequence).drain,
        { status := .ok, result := .disposition .removed (if fatal then some (bodyKind r.body) else none) }) := by
  unfold ownRemove
  rw [h]

theorem ownRemove_of_none {fatal : Bool} (h : s.sentRecord epoch sequence = none) :
    ownRemove fatal epoch sequence s = (s, .plain .notFound) := by
  unfold ownRemove
  rw [h]

theorem ownRetry_of_none (h : s.sentRecord epoch sequence = none) :
    ownRetry epoch sequence s = (s, .plain .notFound) := by
  unfold ownRetry
  rw [h]

theorem ownRetry_of_sent (hs : s.records = before ++ r :: after) (hr : r.isSent epoch sequence = true)
    (hb : ∀ x ∈ before ++ after, ¬ x.isSent epoch sequence = true) :
    ownRetry epoch sequence s =
      (s.putRecords (before ++ r.retry :: after),
        { status := .ok, result := .disposition (if r.retries = 1 then .parked else .requeued) none }) := by
  have keep {l : List Record} (hl : ∀ x ∈ l, x ∈ before ++ after) :
      l.map (fun x => if x.isSent epoch sequence then x.retry else x) = l := by
    conv_rhs => rw [← List.map_id l]
    exact List.map_congr_left fun x hx => if_neg (hb x (hl x hx))
  unfold ownRetry
  rw [sentRecord_split hs hr fun x hx => hb x (List.mem_append_left _ hx)]
  dsimp only
  rw [hs, List.map_append, List.map_cons, if_pos hr, keep fun x hx => List.mem_append_left _ hx,
    keep fun x hx => List.mem_append_right _ hx]

end Ack

/-- Settles O33: the record acknowledged, and the one service that its slot allows. -/
theorem acksAndRetries : Obligations.AcksAndRetries := by
  refine ⟨fun tag epoch sequence s hs => ⟨fun hn => ?_, fun before r after hrs he hq hst hb => ?_⟩,
    fun tag epoch sequence s hs => ⟨fun hn => ?_, fun before r after hrs he hq hst hb => ?_⟩⟩
  · have none := sentRecord_none hn
    exact ⟨exec_own rfl hs (ownRemove_of_none none), exec_own rfl hs (ownRemove_of_none none)⟩
  · intro t counted leaves
    have sent : r.isSent epoch sequence = true := isSent_iff r |>.2 ⟨he, hq, hst⟩
    have others : ∀ x ∈ before, ¬ x.isSent epoch sequence = true := fun x hx hc => hb x hx ((isSent_iff x).1 hc)
    have found := sentRecord_split hrs sent others
    have gone : s.removeRecord epoch sequence = t := removeRecord_split hrs sent others
    have result {t' counted' : State} (h1 : t.drain = t') (h2 : counted.drain = counted') : leaves t' counted' := by
      subst h1 h2
      refine ⟨exec_own rfl hs ?_, exec_own rfl hs ?_⟩
      · refine (ownRemove_of_sent (fatal := false) found).trans ?_
        rw [gone]
        rfl
      · refine (ownRemove_of_sent (fatal := true) found).trans ?_
        rw [gone, if_pos rfl]
        rfl
    refine ⟨fun hp => result (drain_idle (.inr hp)) (drain_idle (.inr hp)), fun p hp hfull hreply hpost => ?_⟩
    have taken : t.taken = 255 := by
      have : s.records.length = (before ++ after).length + 1 := by rw [hrs]; simp; omega
      show (before ++ after).length + s.setAside = 255
      omega
    exact result (drain_serves (s := t) taken hreply hp hpost) (drain_serves (s := counted) taken hreply hp hpost)
  · exact exec_own rfl hs (ownRetry_of_none (sentRecord_none hn))
  · intro makes
    have retried := ownRetry_of_sent hrs ((isSent_iff r).2 ⟨he, hq, hst⟩) fun x hx hc => hb x hx ((isSent_iff x).1 hc)
    refine ⟨fun h1 => exec_own rfl hs (retried.trans ?_), fun h1 => exec_own rfl hs (retried.trans ?_)⟩
    · rw [Record.retry, if_pos h1, if_pos h1]
      rfl
    · rw [Record.retry, if_neg h1, if_neg h1]
      rfl

/-! ### DIRECTIVE (R170, R171) -/

/-- A reply leaves the queue that it names, whatever stood in it. -/
theorem replied_withDirectives (s : State) {ds rest : List Directive} {x : Directive} {o : DirectiveOutcome}
    {r : Option Reason} {a : DirectiveResult} :
    ({ s with directives := ds } : State).replied x rest o r a = s.replied x rest o r a := by
  unfold State.replied State.post
  dsimp only
  by_cases h : Config.maxSequence ≤ s.store.journal.cur.next
  · rw [if_pos h, if_pos h]
    rfl
  · rw [if_neg h, if_neg h]
    rfl

section Queue

variable {s : State} {id kind : Nat} {args : List Byte}

theorem ownDirective_new (hid : ∀ x ∈ s.directives, x.id ≠ id) (hl : s.directives.length < 8) :
    ownDirective id kind args s =
      (({ s with directives := s.directives ++ [{ id := id, kind := kind, args := args, arrival := s.now }] } : State).drain,
        { status := .queued, result := .ahead s.directives.length }) := by
  unfold ownDirective Config.directivePlaces
  rw [if_neg (by simpa using hid), if_neg (by omega)]

end Queue

/-- Settles O36: the queue tested in order, and the arbiter at the head of an otherwise idle part. -/
theorem directiveIsQueued : Obligations.DirectiveIsQueued := by
  intro tag id kind args s hs gives
  refine ⟨fun hdup => ?_, fun hid hl => ?_, fun hid hl hf => ?_, fun hf hp => ?_⟩
  · obtain ⟨x, hx, he⟩ := hdup
    refine exec_own rfl hs ?_
    exact if_pos (List.any_eq_true.2 ⟨x, hx, by simp [he]⟩)
  · refine exec_own rfl hs ?_
    exact (if_neg (by simpa using hid)).trans (if_pos hl)
  · refine exec_own rfl hs ((ownDirective_new hid hl).trans ?_)
    exact congrArg (fun t => (t, _)) (drain_idle (s := { s with directives := _ }) (.inl hf))
  · intro x done
    obtain ⟨hc, hset, hm, hv, hfaults, hd, hx⟩ := firstPlace_none_iff.1 hp
    have first : ({ s with directives := [x] } : State).firstPlace = some .directives := by
      rw [firstPlace_of_noVan (s := { s with directives := [x] }) hc hset hm hv]
      simp [hfaults]
    have joined : ownDirective id kind args s =
        (({ s with directives := [x] } : State).drain, { status := .queued, result := .ahead 0 }) := by
      rw [ownDirective_new (by simp [hd]) (by simp [hd]), hd]
      rfl
    have executed (h : done.free = 0 ∨ done.firstPlace = none) : gives done { status := .queued, result := .ahead 0 } := by
      refine exec_own rfl hs (joined.trans ?_)
      rw [drain_once (s := { s with directives := [x] }) hf first h]
      rfl
    refine ⟨executed, fun m hk hreply harg hnew hl => ?_⟩
    have runs : done = (({ s with directives := [x] } : State).putDenied (insertId m s.denied)).replied x [] .done none
        (.deny true (s.denied.length + 1)) := by
      refine executeHead_eq (s := { s with directives := [x] })
        (t := ({ s with directives := [x] } : State).putDenied (insertId m s.denied))
        (a := answerDone (.deny true (s.denied.length + 1))) rfl ?_ rfl
      exact (runDirective_denyAdd _ hk).trans ((doDenyAdd_of_range harg).trans (runDenyAdd_adds hnew hl))
    have same : (({ s with directives := [x] } : State).putDenied (insertId m s.denied)).replied x [] .done none
        (.deny true (s.denied.length + 1)) =
        (s.putDenied (insertId m s.denied)).replied x [] .done none (.deny true (s.denied.length + 1)) :=
      replied_withDirectives (s.putDenied (insertId m s.denied))
    rw [← same, ← runs]
    refine executed (.inr ?_)
    rw [runs, same]
    unfold State.replied
    refine firstPlace_none_iff.2 ⟨?_, ?_, ?_, ?_, ?_, rfl, ?_⟩
    · exact noClose_iff.2 ((congrArg (List.any · SettleEntry.isWaiting) (State.post_entries ..)).trans (noClose_iff.1 hc))
    · exact noSettling_iff.2 ((State.post_lowestSettling ..).trans (noSettling_iff.1 hset))
    · exact (congrArg Van.moves (State.post_van ..)).trans hm
    · exact (congrArg Van.summary (State.post_van ..)).trans hv
    · exact (State.post_faults ..).trans hfaults
    · exact (State.post_sixth ..).trans hx

end Sys2Proof.Machine
end

