-- ==== Sys2Proof/Proofs/DockDirectives.lean ====
section
/-! PROOFS. The dock table after a write, and BIKE_SET and DOCK_CLEAR at the head of the queue (R39, R41, R129, R173, R174). -/

namespace Sys2Proof.Machine

/-! ### The dock table after a write -/

section DockTable

variable {s : State} {d e : Nat} {x : Dock}

theorem dock_putDock : (s.putDock d x).dock e = if e = d ∧ (entryAt s.docks d).isSome then x else s.dock e := by
  rw [← dock_setEntry]
  unfold State.dock
  rw [State.putDock_docks]

/-- A dock that is not as one outside the table stands in the table. -/
theorem dock_putDock_same (h : s.dock d ≠ .atStart false) : (s.putDock d x).dock d = x := by
  rw [dock_putDock, if_pos]
  refine ⟨rfl, Option.isSome_iff_ne_none.2 fun he => h ?_⟩
  unfold State.dock
  rw [he]
  rfl

theorem dock_putDock_ne (h : e ≠ d) : (s.putDock d x).dock e = s.dock e := by
  rw [dock_putDock, if_neg fun hc => h hc.1]

theorem inTable_of_bike {b : Bike} (h : (s.dock d).bike = some b) : s.dock d ≠ .atStart false :=
  fun hc => by rw [hc] at h; cases h

theorem inTable_of_state {y : DockState} (h : (s.dock d).state = y) (hy : y ≠ .offline) : s.dock d ≠ .atStart false :=
  fun hc => by rw [hc] at h; exact hy h.symm

end DockTable

theorem argument_bounds {args : List Byte} {offset size lo hi n : Nat} (h : argument args offset size lo hi = some n) :
    lo ≤ n ∧ n ≤ hi := by
  unfold argument at h
  split at h
  · cases h
  · split at h
    · cases h
    · cases h
      omega

/-! ### BIKE_SET (R39, R129, R173) -/

theorem conditionMatches_iff {n : Nat} (h : 1 ≤ n ∧ n ≤ 4) (c : Condition) :
    conditionMatches n c = true ↔
      n = 1 ∨ (n = 2 ∧ c = .available) ∨ (n = 3 ∧ c = .quarantined) ∨ (n = 4 ∧ c = .recalled) := by
  obtain ⟨h1, h4⟩ := h
  interval_cases n <;> simp [conditionMatches]

section BikeSet

variable {s : State} {bike condition next d : Nat} {b : Bike}

theorem doBikeSet_of_range {args : List Byte} (hb : argument args 0 4 1 16777215 = some bike)
    (hc : argument args 4 1 1 4 = some condition) (hn : argument args 5 1 1 4 = some next) :
    doBikeSet args s = runBikeSet bike condition next s := by
  simp only [doBikeSet, hb, hc, hn]

theorem runBikeSet_absent (h : s.dockOfBike bike = none) :
    runBikeSet bike condition next s = (s, answerPlain .notPresent none) := by
  unfold runBikeSet
  rw [h]

theorem runBikeSet_other (h : s.dockOfBike bike = some d) (hb : (s.dock d).bike = some b)
    (hm : conditionMatches condition b.condition = false) :
    runBikeSet bike condition next s =
      (s, { outcome := .conditionFalse, reason := some .condition, result := .conditionFound b.condition }) := by
  unfold runBikeSet
  rw [h]
  dsimp only
  rw [hb]
  exact if_pos hm

theorem runBikeSet_busy (h : s.dockOfBike bike = some d) (hb : (s.dock d).bike = some b)
    (hm : conditionMatches condition b.condition = true) (ht : (s.dock d).state.transient = true) :
    runBikeSet bike condition next s = (s, answerPlain .targetBusy none) := by
  unfold runBikeSet
  rw [h]
  dsimp only
  rw [hb]
  exact (if_neg (by simp [hm])).trans (if_pos ht)

/-- Past its checks BIKE_SET does what its next state asks (R173). -/
theorem runBikeSet_sets (h : s.dockOfBike bike = some d) (hb : (s.dock d).bike = some b)
    (hm : conditionMatches condition b.condition = true) (ht : (s.dock d).state.transient = false) :
    runBikeSet bike condition next s =
      match nextCondition next with
      | none => (s, answerDone (.bikeSet bike d b.condition b.condition false))
      | some c => ((s.setBike d b c).1, answerDone (.bikeSet bike d b.condition c (s.setBike d b c).2)) := by
  unfold runBikeSet
  rw [h]
  dsimp only
  rw [hb]
  exact (if_neg (by simp [hm])).trans (if_neg (by simp [ht]))

theorem setBike_same {c : Condition} (h : b.condition = c) (hc : c ≠ .available) : s.setBike d b c = (s, false) := by
  subst h
  unfold State.setBike
  cases hb : b.condition with
  | available => exact absurd hb hc
  | quarantined => exact if_pos rfl
  | recalled => exact if_pos rfl

theorem setBike_available_same (h : b.condition = .available) (hf : b.faults = []) (ht : ∀ t ∈ b.tallies, t = []) :
    s.setBike d b .available = (s, false) :=
  if_pos ⟨h, hf, List.all_eq_true.2 fun t hx => by simp [ht t hx]⟩

theorem setBike_quarantined (h : b.condition ≠ .quarantined) :
    s.setBike d b .quarantined = (s.centralChange d { b with condition := .quarantined } .quarantined, true) := if_neg h

theorem setBike_recalled (h : b.condition ≠ .recalled) :
    s.setBike d b .recalled = (s.centralChange d { b with condition := .recalled } .noted, true) := if_neg h

theorem setBike_available (h : b.condition ≠ .available ∨ b.faults ≠ [] ∨ ∃ t ∈ b.tallies, t ≠ []) :
    s.setBike d b .available =
      (s.centralChange d
        { b with condition := .available, faults := [], tallies := [[], [], [], [], [], [], [], []] } .cleared, true) := by
  refine if_neg ?_
  rintro ⟨hc, hf, ht⟩
  obtain h | h | ⟨t, hx, hne⟩ := h
  · exact h hc
  · exact h hf
  · exact hne (by simpa using List.all_eq_true.1 ht t hx)

/-- The record of a change of a bike by the centre (R129, R130). -/
theorem centralChange_posts {b' : Bike} {effect : FaultEffect} (hd : s.dock d ≠ .atStart false) (hf : 0 < s.free)
    (hn : s.faults = []) (he : effect ≠ .quarantined) :
    s.centralChange d b' effect =
      { (s.putDock d { s.dock d with bike := some b' }).post
          (.fault
            { subject := .bike, dock := some d, bikeId := some b'.id, tagBikeId := none, tagRef := none, kind := none
              source := some .central, cause := none, reporter := none, reporters := none, confirmCount := none
              effect := effect, conditionAfter := some b'.condition, counterAfter := none, counterBefore := none
              dockState := none, bikeAbsent := false } s.faultsDropped) with faultsDropped := 0 } := by
  unfold State.centralChange
  dsimp only
  rw [if_neg he, makeFault_posts (by simpa [State.putBike] using hf) (by simpa [State.putBike] using hn)]
  unfold State.bikeFault State.putBike
  rw [dock_putDock_same hd, State.putDock_faultsDropped]
  rfl

theorem centralChange_quarantines {b' : Bike} (hd : s.dock d ≠ .atStart false) (hf : 0 < s.free) (hn : s.faults = []) :
    s.centralChange d b' .quarantined =
      ({ (s.putDock d { s.dock d with bike := some b' }).post
          (.fault
            { subject := .bike, dock := some d, bikeId := some b'.id, tagBikeId := none, tagRef := none, kind := none
              source := some .central, cause := none, reporter := none, reporters := none, confirmCount := none
              effect := .quarantined, conditionAfter := some b'.condition, counterAfter := none, counterBefore := none
              dockState := none, bikeAbsent := false } s.faultsDropped) with faultsDropped := 0 } : State).setAttention
        .quarantine := by
  unfold State.centralChange
  dsimp only
  rw [if_pos rfl, makeFault_posts (by simpa [State.putBike] using hf) (by simpa [State.putBike] using hn)]
  unfold State.bikeFault State.putBike
  rw [dock_putDock_same hd, State.putDock_faultsDropped]
  rfl

end BikeSet

/-! ### DOCK_CLEAR (R41, R129, R174) -/

section DockClear

variable {s : State} {d : Nat}

theorem doDockClear_of_range {args : List Byte} (h : argument args 0 1 1 64 = some d) :
    doDockClear args s = runDockClear d s := by
  simp only [doDockClear, h]

/-- The dock as DOCK_CLEAR leaves it: by presence and lock state (R41). -/
def State.left (s : State) (d : Nat) : State :=
  let x := s.dock d
  if x.bike.isNone then s.putDock d { x with counter := 0, state := .empty }
  else if x.lock = .locked then s.putDock d { x with counter := 0, state := .occupied }
  else (s.putDock d { x with counter := 0, state := .relocking }).issue d .lock

/-- A dock cleared has its record made as it then stands (R129). -/
theorem clearDock_eq (s : State) (d : Nat) :
    s.clearDock d =
      (s.left d).makeFault { (s.left d).dockFault d none none .cleared with counterBefore := some (s.dock d).counter } := rfl

theorem runDockClear_busy (h : (s.dock d).state.transient = true) :
    runDockClear d s =
      (s, { outcome := .targetBusy, reason := none, result := .dockClear d (s.dock d).counter (s.dock d).state }) := if_pos h

theorem runDockClear_other (h : (s.dock d).state.transient = false) (hl : (s.dock d).state ≠ .lockedOut) :
    runDockClear d s =
      (s, { outcome := .conditionFalse, reason := some .notLockedOut
            result := .dockClear d (s.dock d).counter (s.dock d).state }) :=
  (if_neg (by simp [h])).trans (if_neg hl)

/-- A LOCKED_OUT dock with a slot free and no record waiting: the record carries the dock as it is left. -/
theorem runDockClear_clears {t : State} {after : DockState} (hl : (s.dock d).state = .lockedOut) (ht : s.left d = t)
    (hx : t.dock d = { s.dock d with counter := 0, state := after }) (hf : 0 < t.free) (hn : t.faults = []) :
    runDockClear d s =
      ({ t.post (.fault
          { subject := .dock, dock := some d, bikeId := (s.dock d).bike.map (fun b => b.id), tagBikeId := none
            tagRef := none, kind := none, source := none, cause := none, reporter := none, reporters := none
            confirmCount := none, effect := .cleared, conditionAfter := none, counterAfter := some 0
            counterBefore := some (s.dock d).counter, dockState := some after, bikeAbsent := false } t.faultsDropped) with
          faultsDropped := 0 },
        answerDone (.dockClear d (s.dock d).counter after)) := by
  have cleared : s.clearDock d =
      { t.post (.fault
          { subject := .dock, dock := some d, bikeId := (s.dock d).bike.map (fun b => b.id), tagBikeId := none
            tagRef := none, kind := none, source := none, cause := none, reporter := none, reporters := none
            confirmCount := none, effect := .cleared, conditionAfter := none, counterAfter := some 0
            counterBefore := some (s.dock d).counter, dockState := some after, bikeAbsent := false } t.faultsDropped) with
        faultsDropped := 0 } := by
    rw [clearDock_eq, ht, makeFault_posts hf hn]
    unfold State.dockFault
    rw [hx]
    rfl
  unfold runDockClear
  dsimp only
  rw [if_neg (by rw [hl]; decide), if_pos hl, cleared]
  refine Prod.ext rfl ?_
  show answerDone (.dockClear d (s.dock d).counter (((t.post _).dock d).state)) = _
  rw [State.post_dock, hx]

end DockClear

/-- Settles O41: the checks of both directives in their order, and the change with its record. -/
theorem bikeAndDockDirectives : Obligations.BikeAndDockDirectives := by
  refine ⟨fun x rest s bike condition next h hk hbike hcond hnext => ?_, fun x rest s h hk => ?_⟩
  · intro ends asked
    have row {t : State} {o : DirectiveOutcome} {r : Option Reason} {a : DirectiveResult}
        (hrun : runBikeSet bike condition next s.executing = (t.executing, { outcome := o, reason := r, result := a }))
        (ht : t.directives = s.directives) (hp : t.power = s.power) : ends t o r a :=
      exec_head rfl h hk ((runDirective_bikeSet s.executing hk).trans ((doBikeSet_of_range hbike hcond hnext).trans hrun)) ht hp
    have matched (c : Condition) : conditionMatches condition c = true ↔ asked c :=
      conditionMatches_iff (argument_bounds hcond) c
    refine ⟨fun hn => row (runBikeSet_absent (s := s.executing) hn) rfl rfl, fun d b hd hb =>
      ⟨fun ha => ?_, fun ha ht => row (runBikeSet_busy (s := s.executing) hd hb ((matched _).2 ha) ht) rfl rfl,
        fun ha ht => ?_⟩⟩
    · have other : conditionMatches condition b.condition = false := Bool.eq_false_iff.2 fun hc => ha ((matched _).1 hc)
      exact row (runBikeSet_other (s := s.executing) hd hb other) rfl rfl
    · have sets {c : Condition} {u : State × Bool} (hc : nextCondition next = some c)
          (hu : s.executing.setBike d b c = u) :
          runBikeSet bike condition next s.executing = (u.1, answerDone (.bikeSet bike d b.condition c u.2)) := by
        rw [runBikeSet_sets (s := s.executing) hd hb ((matched _).2 ha) ht, hc, ← hu]
      have table : s.executing.dock d ≠ .atStart false := inTable_of_bike hb
      refine ⟨fun hx => ?_, fun hx hc => ?_, fun hx hc => ?_, fun hf hr => ?_, fun hx hc hfaults htallies => ?_⟩
      · refine row (t := s) ?_ rfl rfl
        rw [runBikeSet_sets (s := s.executing) hd hb ((matched _).2 ha) ht, hx]
        rfl
      · exact row (t := s) ((sets (by rw [hx]; rfl) (setBike_same hc (by decide))).trans (by rw [hc]; rfl)) rfl rfl
      · exact row (t := s) ((sets (by rw [hx]; rfl) (setBike_same hc (by decide))).trans (by rw [hc]; rfl)) rfl rfl
      · have free : 0 < s.executing.free := by rw [executing_free s hr]; omega
        obtain ⟨-, -, -, -, -, -, hfaults, -⟩ := id h
        intro record
        refine ⟨fun hx hc => ?_, fun hx hc => ?_, fun hx hc => ?_⟩
        · intro t
          refine row ((sets (by rw [hx]; rfl) (setBike_recalled hc)).trans ?_) (by simp [t]) (by simp [t])
          rw [centralChange_posts table free hfaults (by decide), executing_putDock, executing_post]
          rfl
        · intro t
          refine row ((sets (by rw [hx]; rfl) (setBike_quarantined hc)).trans ?_) (by simp [t]) (by simp [t])
          rw [centralChange_quarantines table free hfaults, executing_putDock, executing_post, ← executing_setAttention]
          rfl
        · intro t
          refine row ((sets (by rw [hx]; rfl) (setBike_available hc)).trans ?_) (by simp [t]) (by simp [t])
          rw [centralChange_posts table free hfaults (by decide), executing_putDock, executing_post]
          rfl
      · exact row (t := s)
          ((sets (by rw [hx]; rfl) (setBike_available_same hc hfaults htallies)).trans (by rw [hc]; rfl)) rfl rfl
  · intro ends
    have row {t : State} {o : DirectiveOutcome} {r : Option Reason} {a : DirectiveResult}
        (hrun : doDockClear x.args s.executing = (t.executing, { outcome := o, reason := r, result := a }))
        (ht : t.directives = s.directives) (hp : t.power = s.power) : ends t o r a :=
      exec_head rfl h hk ((runDirective_dockClear s.executing hk).trans hrun) ht hp
    refine ⟨fun hn => row (t := s) ?_ rfl rfl, fun d hd => ⟨fun ht => ?_, fun ht hl => ?_, fun hl hf hr => ?_⟩⟩
    · simp only [doDockClear, hn]
      rfl
    · exact row ((doDockClear_of_range hd).trans (runDockClear_busy (s := s.executing) ht)) rfl rfl
    · exact row ((doDockClear_of_range hd).trans (runDockClear_other (s := s.executing) ht hl)) rfl rfl
    · intro record cleared done
      obtain ⟨-, -, -, -, -, -, hfaults, -⟩ := id h
      have table : s.dock d ≠ .atStart false := inTable_of_state hl (by decide)
      have result {t : State} {after : DockState} (ht : s.executing.left d = t.executing)
          (hx : t.dock d = { s.dock d with counter := 0, state := after }) (hfree : t.free = s.free) (hr' : t.replySlot = s.replySlot)
          (hn : t.faults = s.faults) (hdropped : t.faultsDropped = s.faultsDropped) (hdir : t.directives = s.directives)
          (hp : t.power = s.power) : done t after := by
        have free : 0 < t.executing.free := by rw [executing_free t (hr'.trans hr)]; omega
        refine row ?_ ((State.post_directives ..).trans hdir) ((State.post_power ..).trans hp)
        rw [doDockClear_of_range hd, runDockClear_clears (s := s.executing) hl ht hx free (hn.trans hfaults), executing_post]
        show (({ (t.post (.fault _ t.faultsDropped)).executing with faultsDropped := 0 } : State), _) = _
        rw [hdropped]
        rfl
      refine ⟨fun hb => ?_, fun b hb => ⟨fun hlock => ?_, fun hlock => ?_⟩⟩
      · refine result ?_ (dock_putDock_same table) ?_ ?_ ?_ ?_ ?_ ?_
        · unfold State.left
          dsimp only
          rw [if_pos (by simp [hb]), executing_putDock]
          rfl
        all_goals simp [cleared]
      · refine result ?_ (dock_putDock_same table) ?_ ?_ ?_ ?_ ?_ ?_
        · unfold State.left
          dsimp only
          rw [if_neg (by simp [hb]), if_pos (by simpa using hlock), executing_putDock]
          rfl
        all_goals simp [cleared]
      · refine result ?_ ((State.issue_dock ..).trans (dock_putDock_same table)) ?_ ?_ ?_ ?_ ?_ ?_
        · unfold State.left
          dsimp only
          rw [if_neg (by simp [hb]), if_neg (by simpa using hlock), executing_putDock, executing_issue]
          rfl
        all_goals simp [cleared]

end Sys2Proof.Machine
end

