-- ==== Sys2Proof/Proofs/Settled.lean ====
section
/-! PROOFS. What a finalise may touch: the journal with its numbering, the passes, the settle list, settling marks and pending
marks, and nothing else (R104 to R110). -/

namespace Sys2Proof.Machine

/-- A dock but for the settling mark of its bike. -/
def Dock.still (x : Dock) : Dock := { x with bike := x.bike.map (fun b => { b with settling := false }) }

/-- `s` comes from `a` by a change of journal, passes, settle list, settling marks and pending marks alone. -/
structure Settled (a s : State) : Prop where
  same : s = { a with
    store := { a.store with
      journal := s.store.journal, epoch := s.store.epoch, passes := s.store.passes, settle := s.store.settle }
    docks := s.docks
    link := { a.link with marks := s.link.marks } }
  docks : s.docks.map Dock.still = a.docks.map Dock.still

namespace Settled

variable {a s t : State}

theorem refl (a : State) : Settled a a := ⟨rfl, rfl⟩

theorem trans (h1 : Settled a s) (h2 : Settled s t) : Settled a t := by
  refine ⟨?_, h2.docks.trans h1.docks⟩
  have e2 := h2.same
  rw [h1.same] at e2
  exact e2

theorem post (b : Body) : Settled s (s.post b) := by
  unfold State.post
  dsimp only
  split <;> exact ⟨rfl, rfl⟩

theorem putPass (slot : Nat) (p : Option Pass) : Settled s (s.putPass slot p) := by
  unfold State.putPass
  dsimp only
  split <;> exact ⟨rfl, rfl⟩

theorem putSettle (v : SettleRegion) : Settled s (s.putSettle v) := ⟨rfl, rfl⟩

theorem markSettling (d : Nat) (b : Bool) : Settled s (s.markSettling d b) := by
  have still : (s.markSettling d b).docks.map Dock.still = s.docks.map Dock.still := by
    unfold State.markSettling
    rw [State.putDock_docks]
    exact map_setEntry_same Dock.still s.docks d (.atStart false) _ (by
      show Dock.still { s.dock d with bike := _ } = Dock.still (s.dock d)
      unfold Dock.still
      cases (s.dock d).bike <;> rfl)
  refine ⟨?_, still⟩
  unfold State.markSettling State.putDock
  dsimp only
  split <;> rfl

theorem settlePass (slot : Nat) : Settled s (s.settlePass slot) := by
  unfold State.settlePass
  split
  · exact refl s
  · split
    · exact (post _).trans (putPass _ _)
    · exact refl s

theorem enterSettling (slot : Nat) (p : Pass) : Settled s (s.enterSettling slot p) := (putPass _ _).trans (settlePass _)

theorem chargeAndMove (slot : Nat) (p : Pass) (n : Nat) : Settled s (s.chargeAndMove slot p n) := by
  unfold State.chargeAndMove
  split
  · exact enterSettling _ _
  · exact putPass _ _

theorem chargeClose (ref : HireRef) (h : Hirer) (fare : Nat) : Settled s (s.chargeClose ref h fare).1 := by
  unfold State.chargeClose
  split
  · split
    · exact refl s
    · exact chargeAndMove _ _ _
  · exact refl s

theorem unmark (d bike : Nat) : Settled s (s.unmark d bike) := by
  unfold State.unmark
  split
  · exact markSettling _ _
  · exact refl s

theorem finalise (i : Nat) (c : FinalCause) : Settled s (s.finalise i c) := by
  unfold State.finalise
  split
  · exact refl s
  · split
    · exact refl s
    · have charged (e : SettleEntry) (d bike : Nat) :
          Settled s ((s.chargeClose e.close.ref e.close.hirer e.finalFare).1.unmark d bike) :=
        (chargeClose _ _ _).trans (unmark _ _)
      dsimp only
      split
      · exact ((charged _ _ _).trans (post _)).trans (putSettle _)
      · exact (charged _ _ _).trans (putSettle _)

theorem finaliseBike (bike : Nat) (r : EarlyReason) : Settled s (s.finaliseBike bike r) := by
  unfold State.finaliseBike
  split
  · exact finalise _ _
  · exact refl s

theorem finaliseHire (ref : HireRef) : Settled s (s.finaliseHire ref) := by
  unfold State.finaliseHire
  split
  · exact finalise _ _
  · exact refl s

theorem settleDock (d : Nat) (r : EarlyReason) : Settled s (s.settleDock d r) := by
  unfold State.settleDock
  split
  · split
    · exact finaliseBike _ _
    · exact refl s
  · exact refl s

theorem reusePass (slot : Nat) : Settled s (s.reusePass slot) := by
  unfold State.reusePass
  repeat' split
  all_goals first | exact refl s | exact finaliseHire _

/-! ### What stands -/

theorem power (h : Settled a s) : s.power = a.power := (congrArg State.power h.same :)
theorem elapsed (h : Settled a s) : s.elapsed = a.elapsed := (congrArg State.elapsed h.same :)
theorem now (h : Settled a s) : s.now = a.now := (congrArg State.now h.same :)
theorem stationId (h : Settled a s) : s.stationId = a.stationId := (congrArg State.stationId h.same :)
theorem node (h : Settled a s) (d : Nat) : s.node d = a.node d := (congrArg (fun x => State.node x d) h.same :)
theorem settings (h : Settled a s) : s.settings = a.settings := (congrArg State.settings h.same :)
theorem tariffs (h : Settled a s) : s.tariffs = a.tariffs := (congrArg State.tariffs h.same :)
theorem denied (h : Settled a s) : s.denied = a.denied := (congrArg State.denied h.same :)
theorem hires (h : Settled a s) : s.hires = a.hires := (congrArg State.hires h.same :)
theorem setAside (h : Settled a s) : s.setAside = a.setAside := (congrArg State.setAside h.same :)
theorem replySlot (h : Settled a s) : s.replySlot = a.replySlot := (congrArg State.replySlot h.same :)
theorem sixth (h : Settled a s) : s.sixth = a.sixth := (congrArg State.sixth h.same :)
theorem attention (h : Settled a s) : s.attention = a.attention := (congrArg State.attention h.same :)
theorem faults (h : Settled a s) : s.faults = a.faults := (congrArg State.faults h.same :)
theorem faultsDropped (h : Settled a s) : s.faultsDropped = a.faultsDropped := (congrArg State.faultsDropped h.same :)
theorem van (h : Settled a s) : s.van = a.van := (congrArg State.van h.same :)
theorem directives (h : Settled a s) : s.directives = a.directives := (congrArg State.directives h.same :)

theorem dock_still (h : Settled a s) (d : Nat) : (s.dock d).still = (a.dock d).still := by
  have at_ (x : State) : (x.dock d).still = ((entryAt (x.docks.map Dock.still) d).getD (.atStart false)) := by
    unfold State.dock entryAt
    split
    · rfl
    · rw [List.getElem?_map]
      cases x.docks[d - 1]? <;> rfl
  rw [at_, at_, h.docks]

theorem configured (h : Settled a s) (d : Nat) : (s.dock d).configured = (a.dock d).configured :=
  (congrArg Dock.configured (h.dock_still d) :)
theorem state (h : Settled a s) (d : Nat) : (s.dock d).state = (a.dock d).state := (congrArg Dock.state (h.dock_still d) :)
theorem lock (h : Settled a s) (d : Nat) : (s.dock d).lock = (a.dock d).lock := (congrArg Dock.lock (h.dock_still d) :)
theorem counter (h : Settled a s) (d : Nat) : (s.dock d).counter = (a.dock d).counter :=
  (congrArg Dock.counter (h.dock_still d) :)
theorem reservation (h : Settled a s) (d : Nat) : (s.dock d).reservation = (a.dock d).reservation :=
  (congrArg Dock.reservation (h.dock_still d) :)
theorem release (h : Settled a s) (d : Nat) : (s.dock d).release = (a.dock d).release :=
  (congrArg Dock.release (h.dock_still d) :)

end Settled

end Sys2Proof.Machine
end

