-- ==== Sys2Proof/Proofs/RemoteReleases.lean ====
section
/-! PROOFS. The reference that a release takes, and REMOTE_RELEASE at the head of the queue (R50, R52, R175, R176). -/

namespace Sys2Proof.Machine

/-! ### A reference that is not held (R50) -/

section Refs

variable {s : State}

/-- The local count `i` places on from `c`. -/
def countFrom (c i : Nat) : Nat := (c - 1 + i) % 16777215 + 1

theorem countFrom_zero {c : Nat} (h1 : 1 ≤ c) (h2 : c ≤ 16777215) : countFrom c 0 = c := by unfold countFrom; omega

theorem countFrom_succ (c i : Nat) : wrapUp Config.maxHireCount (countFrom c i) = countFrom c (i + 1) := by
  unfold wrapUp countFrom Config.maxHireCount
  split <;> omega

/-- The search finds a count that is not held where there is one within its fuel. -/
theorem freeCount_free {c : Nat} (fuel k : Nat)
    (h : ∃ i, k ≤ i ∧ i < k + fuel ∧ s.refHeld { station := s.stationId, count := countFrom c i } = false) :
    s.refHeld { station := s.stationId, count := s.freeCount fuel (countFrom c k) } = false ∧
      ∃ i, s.freeCount fuel (countFrom c k) = countFrom c i := by
  induction fuel generalizing k with
  | zero => obtain ⟨i, h1, h2, -⟩ := h; omega
  | succ fuel ih =>
    unfold State.freeCount
    cases held : s.refHeld { station := s.stationId, count := countFrom c k } with
    | false => exact ⟨held, k, rfl⟩
    | true =>
      rw [if_pos rfl, countFrom_succ]
      refine ih (k + 1) ?_
      obtain ⟨i, h1, h2, hi⟩ := h
      refine ⟨i, ?_, by omega, hi⟩
      rcases Nat.lt_or_eq_of_le h1 with hlt | rfl
      · exact hlt
      · rw [held] at hi
        cases hi

/-- The references held. -/
def State.heldRefs (s : State) : List HireRef := s.hires.map (fun h => h.ref) ++ s.releases.filterMap Release.ref?

theorem refHeld_iff (ref : HireRef) : s.refHeld ref = true ↔ ref ∈ s.heldRefs := by
  simp [State.refHeld, State.heldRefs]

/-- Of 161 counts one is not held, where fewer than 161 references are. -/
theorem exists_not_held {c : Nat} (h : s.hires.length + s.releases.length ≤ 160) :
    ∃ i, i < 161 ∧ s.refHeld { station := s.stationId, count := countFrom c i } = false := by
  by_contra hc
  push Not at hc
  let refs : List HireRef := (List.range 161).map fun i => { station := s.stationId, count := countFrom c i }
  have distinct : refs.Nodup := by
    refine List.Nodup.map_on (fun i hi j hj he => ?_) List.nodup_range
    rw [List.mem_range] at hi hj
    have : countFrom c i = countFrom c j := congrArg HireRef.count he
    unfold countFrom at this
    omega
  have held : refs ⊆ s.heldRefs := by
    intro ref hr
    obtain ⟨i, hi, rfl⟩ := List.mem_map.1 hr
    exact (refHeld_iff _).1 (by simpa using hc i (List.mem_range.1 hi))
  have bound := (List.subperm_of_subset distinct held).length_le
  have few : s.heldRefs.length ≤ 160 := by
    unfold State.heldRefs
    rw [List.length_append, List.length_map]
    have := List.length_filterMap_le Release.ref? s.releases
    omega
  simp only [refs, List.length_map, List.length_range] at bound
  omega

/-- The next reference is within range and not held (R50). -/
theorem nextRef_free (h1 : 1 ≤ s.store.hireCount.cur) (h2 : s.store.hireCount.cur ≤ 16777215)
    (h : s.hires.length + s.releases.length ≤ 160) :
    1 ≤ s.nextRef.count ∧ s.nextRef.count ≤ 16777215 ∧ s.nextRef ∉ s.heldRefs := by
  obtain ⟨i, hi, hfree⟩ := exists_not_held (c := s.store.hireCount.cur) h
  have found := freeCount_free (s := s) (c := s.store.hireCount.cur) 161 0 ⟨i, by omega, by omega, hfree⟩
  rw [countFrom_zero h1 h2] at found
  obtain ⟨hnot, j, hj⟩ := found
  refine ⟨?_, ?_, fun hc => ?_⟩
  · show 1 ≤ s.freeCount 161 s.store.hireCount.cur
    rw [hj]
    unfold countFrom
    omega
  · show s.freeCount 161 s.store.hireCount.cur ≤ 16777215
    rw [hj]
    unfold countFrom
    omega
  · rw [← refHeld_iff, show s.refHeld s.nextRef = false from hnot] at hc
    cases hc

end Refs

/-! ### Checks 9 and 10 (R51) -/

theorem hirePlace_iff {s : State} : s.hirePlace = true ↔ s.hires.length + s.hireReleases < 96 := decide_eq_true_iff

theorem hirePlace_false {s : State} : s.hirePlace = false ↔ 96 ≤ s.hires.length + s.hireReleases :=
  decide_eq_false_iff_not.trans not_lt

theorem journalRoom_iff {s : State} : s.journalRoom = true ↔ s.settings.openReserve ≤ s.free := by
  simp [State.journalRoom]

theorem journalRoom_false {s : State} : s.journalRoom = false ↔ s.free < s.settings.openReserve := by
  simp [State.journalRoom]

/-! ### A release admitted (R23, R50, R52) -/

section Admit

variable {s : State} {d : Nat}

/-- The state in which a release has its reference and its slot, with the close of a settling bike finalised (R23, R50). -/
def State.admitted (s : State) (d : Nat) : State :=
  ({ s.putHireCount (if 16777215 ≤ s.nextRef.count then 1 else s.nextRef.count + 1) with
    setAside := s.setAside + 1 } : State).settleDock d .release

/-- A hire release begins with the next reference and its slot set aside, TAG_WRITE being issued (R52). -/
theorem admitRelease_eq (hirer : Hirer) (issue : Option Nat) (plan credit t : Nat) (fromDock : Bool) :
    s.admitRelease d hirer issue plan credit t fromDock =
      ((s.admitted d).putDock d { (s.admitted d).dock d with
          state := .tagWriting
          release := some
            { party := .hire hirer issue s.nextRef (s.tripImage d hirer plan credit t), credit := credit
              origin := (s.dock d).origin, fromDock := fromDock, expiryHeld := false } }).issue d
        (.tagWrite (s.tripImage d hirer plan credit t)) := rfl

end Admit

/-! ### While a directive executes -/

theorem executing_of_held {s : State} (h : s.replySlot = 1) : s.executing = s := by
  unfold State.executing
  rw [← h]

theorem executing_freeCount (s : State) (fuel c : Nat) : s.executing.freeCount fuel c = s.freeCount fuel c := by
  induction fuel generalizing c with
  | zero => rfl
  | succ fuel ih =>
    unfold State.freeCount
    rw [ih]
    rfl

theorem executing_nextRef (s : State) : s.executing.nextRef = s.nextRef :=
  congrArg (HireRef.mk s.stationId) (executing_freeCount s 161 _)

/-! ### The checks of REMOTE_RELEASE (R175) -/

section Remote

variable {s : State} {d member plan : Nat}

theorem doRemoteRelease_of_range {args : List Byte} (h0 : argument args 0 1 1 64 = some d)
    (h1 : argument args 1 4 1 99999999 = some member) (h2 : argument args 5 1 0 14 = some plan) :
    doRemoteRelease args s = runRemoteRelease d member plan s := by
  simp only [doRemoteRelease, h0, h1, h2]

theorem runRemoteRelease_unset (h : s.now = none) :
    runRemoteRelease d member plan s = (s, answerPlain .conditionFalse (some .clockUnset)) := by
  unfold runRemoteRelease
  rw [h]

theorem runRemoteRelease_refused {o : DirectiveOutcome} {r : Reason} (hn : s.now ≠ none)
    (h : s.remoteRefusal d = some (o, r)) : runRemoteRelease d member plan s = (s, answerPlain o (some r)) := by
  obtain ⟨t, ht⟩ := Option.ne_none_iff_exists'.1 hn
  unfold runRemoteRelease
  rw [ht]
  dsimp only
  rw [h]

theorem runRemoteRelease_checked {o : DirectiveOutcome} {r : Reason} (hn : s.now ≠ none)
    (h : s.remoteRefusal d = none) (hc : s.remoteChecks member plan = some (o, r)) :
    runRemoteRelease d member plan s = (s, answerPlain o (some r)) := by
  obtain ⟨t, ht⟩ := Option.ne_none_iff_exists'.1 hn
  unfold runRemoteRelease
  rw [ht]
  dsimp only
  rw [h]
  dsimp only
  rw [hc]

theorem runRemoteRelease_admits {t : Nat} {b : Bike} (ht : s.now = some t) (hb : (s.dock d).bike = some b)
    (h : s.remoteRefusal d = none) (hc : s.remoteChecks member plan = none) :
    runRemoteRelease d member plan s =
      (s.admitRelease d (.remote member) none plan s.releaseCredit t false, answerDone (.remoteRelease d b.id s.nextRef)) := by
  unfold runRemoteRelease
  rw [ht]
  dsimp only
  rw [h]
  dsimp only
  rw [hc, hb]
  rfl

theorem remoteRefusal_offline (h : (s.dock d).configured = false ∨ (s.dock d).state = .offline) :
    s.remoteRefusal d = some (.notPresent, .dockOffline) := if_pos h

theorem remoteRefusal_empty (hc : (s.dock d).configured = true) (ho : (s.dock d).state ≠ .offline)
    (hb : (s.dock d).bike = none) : s.remoteRefusal d = some (.notPresent, .noBike) := by
  unfold State.remoteRefusal
  dsimp only
  rw [if_neg (by simp [hc, ho]), if_pos (by simp [hb])]

/-- With a bike there, the checks that follow. -/
theorem remoteRefusal_bike {b : Bike} (hc : (s.dock d).configured = true) (ho : (s.dock d).state ≠ .offline)
    (hb : (s.dock d).bike = some b) :
    s.remoteRefusal d =
      if (s.dock d).state = .lockedOut then some (.conditionFalse, .dockFault)
      else if (s.dock d).reservation ≠ .unreserved then some (.conditionFalse, .dockReserved)
      else if b.condition ≠ .available then some (.conditionFalse, .bikeUnavailable)
      else if (s.dock d).state.transient then some (.targetBusy, .dockBusy)
      else none := by
  have holds : ((s.dock d).holds .available = false) = (b.condition ≠ .available) := by simp [Dock.holds, hb]
  unfold State.remoteRefusal
  dsimp only
  rw [if_neg (by simp [hc, ho]), if_neg (by simp [hb])]
  simp only [holds]

end Remote

/-- Settles O42: the checks in their order, the release that passes them, and the reference it takes. -/
theorem remoteReleaseDirective : Obligations.RemoteReleaseDirective := by
  refine ⟨fun x rest s d member plan h hk hd hm hp => ?_, fun s h1 h2 hfew => ?_⟩
  · intro ends
    have free : s.replySlot = 0 → s.executing.free = s.free - 1 := executing_free s
    obtain ⟨-, hfree, -⟩ := id h
    have row {t : State} {o : DirectiveOutcome} {r : Option Reason} {a : DirectiveResult}
        (hrun : runRemoteRelease d member plan s.executing = (t.executing, { outcome := o, reason := r, result := a }))
        (ht : t.directives = s.directives) (hpow : t.power = s.power) : ends t o r a :=
      exec_head rfl h hk
        ((runDirective_remoteRelease s.executing hk).trans ((doRemoteRelease_of_range hd hm hp).trans hrun)) ht hpow
    have refused {o : DirectiveOutcome} {r : Reason} (hn : s.now ≠ none) (hr : s.executing.remoteRefusal d = some (o, r)) :
        ends s o (some r) .empty := row (runRemoteRelease_refused (s := s.executing) hn hr) rfl rfl
    refine ⟨fun hn => row (t := s) (runRemoteRelease_unset (s := s.executing) hn) rfl rfl,
      fun hn ho => refused hn (remoteRefusal_offline (s := s.executing) ho),
      fun hn hc ho hb => refused hn (remoteRefusal_empty (s := s.executing) hc ho hb), fun b hn hc ho hb => ?_,
      fun t b p ht hc ho hres hb hav => ?_⟩
    · have rest := remoteRefusal_bike (s := s.executing) hc ho hb
      refine ⟨fun hl => refused hn (rest.trans (if_pos hl)), fun hl => ⟨fun hres => refused hn ?_,
        fun hres => ⟨fun hav => refused hn ?_, fun hav htr => refused hn ?_⟩⟩⟩
      · exact rest.trans ((if_neg hl).trans (if_pos hres))
      · exact rest.trans ((if_neg hl).trans ((if_neg (not_not.2 hres)).trans (if_pos hav)))
      · exact rest.trans ((if_neg hl).trans ((if_neg (not_not.2 hres)).trans
          ((if_neg (not_not.2 hav)).trans (if_pos htr))))
    · have ready : s.executing.remoteRefusal d = none := by
        rw [remoteRefusal_bike (s := s.executing) hc (by rw [executing_dock, ho]; decide) hb, executing_dock, ho, hres, hav]
        rfl
      have checked {o : DirectiveOutcome} {r : Reason} (hr : s.executing.remoteChecks member plan = some (o, r)) :
          ends s o (some r) .empty :=
        row (runRemoteRelease_checked (s := s.executing) (by simp [ht]) ready hr) rfl rfl
      refine ⟨fun hden => checked (if_pos (List.contains_iff_mem.2 hden)), fun hden hplan => ?_⟩
      have entry : planEntry s.plans plan = p := by simp [planEntry, hplan]
      have checks : s.executing.remoteChecks member plan =
          if p.admitted = false then some (.conditionFalse, .planClosed)
          else if p.hireLimit ≤ s.memberHires member then some (.conditionFalse, .hireLimit)
          else if s.hirePlace = false then some (.tableFull, .hireTableFull)
          else if s.executing.journalRoom = false then some (.conditionFalse, .journalFull)
          else none := by
        subst entry
        exact if_neg (fun hc => hden (List.contains_iff_mem.1 hc))
      refine ⟨fun ha => checked (checks.trans (if_pos ha)), fun ha hl => ?_, fun ha hl hfull => ?_,
        fun ha hl hroom hreply => ?_⟩
      · rw [if_neg (by simp [ha]), if_pos hl] at checks
        exact checked checks
      · rw [if_neg (by simp [ha]), if_neg (by omega), if_pos (hirePlace_false.2 hfull)]
          at checks
        exact checked checks
      · rw [if_neg (by simp [ha]), if_neg (by omega),
          if_neg (fun hc => absurd (hirePlace_false.1 hc) (by omega))] at checks
        refine ⟨fun hres => ?_, fun hres => ?_⟩
        · rw [if_pos (journalRoom_false.2 (by rw [free hreply]; show _ < s.settings.openReserve; omega))] at checks
          exact checked checks
        · rw [if_neg (fun hc => absurd (journalRoom_false.1 hc) (by
            rw [free hreply]
            show ¬ _ < s.settings.openReserve
            omega))] at checks
          intro credit image taken
          have settled : Settled _ taken := Settled.settleDock d .release
          have runs := runRemoteRelease_admits (s := s.executing) ht hb ready checks
          have writing : (taken.putDock d { taken.dock d with
              state := .tagWriting
              release := some
                { party := .hire (.remote member) none s.nextRef image, credit := credit, origin := .occupied
                  fromDock := false, expiryHeld := false } }).replySlot = 1 := by
            rw [State.putDock_replySlot, settled.replySlot]
          refine row (runs.trans ?_) ?_ ?_
          · rw [executing_of_held ((State.issue_replySlot ..).trans writing), admitRelease_eq, executing_nextRef]
            unfold State.admitted State.tripImage Dock.origin
            rw [executing_nextRef, executing_dock, ho, hb]
            rfl
          · rw [State.issue_directives, State.putDock_directives, settled.directives]
            rfl
          · rw [State.issue_power, State.putDock_power, settled.power]
            rfl
  · obtain ⟨h3, h4, h5⟩ := nextRef_free h1 h2 hfew
    unfold State.heldRefs at h5
    rw [List.mem_append, not_or] at h5
    exact ⟨rfl, h3, h4, fun g hg hc => h5.1 (List.mem_map.2 ⟨g, hg, hc⟩), fun r hr hc => h5.2 (List.mem_filterMap.2 ⟨r, hr, hc⟩)⟩

end Sys2Proof.Machine
end

