-- ==== Sys2Proof/Proofs/Power.lean ====
section
/-! PROOFS. The loss of power and the store check of a start-up (R194, R196). -/

namespace Sys2Proof.Machine

/-! ### The copies whose write a loss of power interrupts (R194) -/

/-- A region read out of the store after the newer copies of the regions named have been spoilt: its own is spoilt where it is
named. -/
theorem foldl_spoil {α : Type} (region : Store → Region α) (name : RegionName)
    (h : ∀ (x : Store) (r : RegionName),
      region (x.spoil (r, .newer)) = if r = name then { region x with curSound := false } else region x)
    (l : List RegionName) (x : Store) :
    region (l.foldl (fun x r => x.spoil (r, .newer)) x) =
      { region x with curSound := (region x).curSound && !l.contains name } := by
  induction l generalizing x with
  | nil => simp
  | cons r l ih =>
    rw [List.foldl_cons, ih, h]
    by_cases hr : r = name
    · simp [hr]
    · simp [hr, Ne.symm hr]

/-! ### The store check (R194) -/

section Check

variable {α : Type} {r : Region α} {d : α}

theorem check_newer (h : r.curSound = true) : r.check d = (r, false) := if_pos h

theorem check_older (h : r.curSound = false) (ho : r.oldSound = true) :
    r.check d = ({ cur := r.old, old := r.cur, curSound := true, oldSound := false }, false) :=
  (if_neg (by simp [h])).trans (if_pos ho)

theorem check_damaged (h : r.curSound = false) (ho : r.oldSound = false) :
    r.check d = ({ cur := d, old := r.cur, curSound := true, oldSound := false }, true) :=
  (if_neg (by simp [h])).trans (if_neg (by simp [ho]))

theorem check_of_isDamaged (h : r.isDamaged = true) : (r.check d).1.cur = d := by
  unfold Region.isDamaged at h
  rw [Bool.and_eq_true, Bool.not_eq_true', Bool.not_eq_true'] at h
  rw [check_damaged h.1 h.2]

end Check

section Repair

variable (s : State)

theorem repairPasses_sound (passes : Bool) : (s.repairPasses passes false false).store.journal = s.store.journal ∧
    (s.repairPasses passes false false).store.epoch = s.store.epoch := by
  cases passes <;> exact ⟨rfl, rfl⟩

/-- A damaged journal, or one handled so, is empty, with the epoch one higher and the numbering at 1. -/
theorem repairJournal_damaged {journal epoch : Bool} (h : journal = true ∨ epoch = true)
    (hj : journal = true → s.store.journal.cur = { records := [], next := 1 }) :
    (s.repairJournal journal epoch).store.journal.cur = { records := [], next := 1 } ∧
      (s.repairJournal journal epoch).store.epoch.cur.epoch = (s.store.epoch.cur.epoch + 1) % 65536 := by
  cases journal with
  | true => cases epoch <;> exact ⟨hj rfl, rfl⟩
  | false =>
    cases epoch with
    | true => exact ⟨rfl, rfl⟩
    | false => simp at h

end Repair

/-- POWER_ON acts on a part without power alone. -/
theorem exec_powerOn (s : State) :
    exec .powerOn s = .next (if s.power = .off then { s with power := .startDue .powerOn } else s) := by
  show execPowerOn s = _
  unfold execPowerOn
  cases s.power <;> rfl

/-- Settles O37: the rows of power, region by region, and the check of the store. -/
theorem powerAndStore : Obligations.PowerAndStore := by
  refine ⟨fun l s => ⟨fun h => ?_, fun h => ?_, s.losePower l, rfl, rfl, ?_⟩, ⟨fun α r d => ?_, fun s hd hh hs => ?_,
    fun s hj he hp hh hs => ?_⟩⟩
  · rw [exec_powerOn, if_pos h]
  · rw [exec_powerOn, if_neg h]
  · have spoilt {α : Type} (region : Store → Region α) (name : RegionName)
        (h : ∀ (x : Store) (r : RegionName),
          region (x.spoil (r, .newer)) = if r = name then { region x with curSound := false } else region x) :
        region (s.losePower l).store =
          { region s.store with curSound := (region s.store).curSound && !l.contains name } := foldl_spoil region name h l s.store
    refine ⟨spoilt Store.settings .settings ?_, spoilt Store.plans .plans ?_, spoilt Store.tariffs .tariffs ?_,
      spoilt Store.deny .denyList ?_, spoilt Store.passes .passes ?_, spoilt Store.hires .openHires ?_,
      spoilt Store.settle .settle ?_, spoilt Store.journal .journal ?_, spoilt Store.hireCount .hireCount ?_,
      spoilt Store.epoch .epoch ?_⟩ <;> (intro x r; cases r <;> rfl)
  · refine ⟨fun h => ?_, fun h ho => ?_, fun h ho => ?_⟩
    · rw [check_newer h]
      exact ⟨rfl, rfl⟩
    · rw [check_older h ho]
      exact ⟨rfl, rfl⟩
    · rw [check_damaged h ho]
      exact ⟨rfl, rfl⟩
  · have checked : s.checkStore =
        (({ s with store := s.store.check } : State).repairJournal s.store.journal.isDamaged s.store.epoch.isDamaged).repairPasses
          s.store.passes.isDamaged false false := by
      unfold State.checkStore
      dsimp only
      rw [hh, hs]
    obtain ⟨journal, epoch⟩ := repairJournal_damaged { s with store := s.store.check } hd
      (fun h => check_of_isDamaged h)
    obtain ⟨keepJournal, keepEpoch⟩ := repairPasses_sound
      (({ s with store := s.store.check } : State).repairJournal s.store.journal.isDamaged s.store.epoch.isDamaged)
      s.store.passes.isDamaged
    have journal' : s.checkStore.store.journal.cur = { records := [], next := 1 } := by rw [checked, keepJournal, journal]
    refine ⟨congrArg JournalRegion.records journal', congrArg JournalRegion.next journal', ?_⟩
    rw [checked, keepEpoch, epoch]
    show ((s.store.epoch.check { epoch := 0, stationId := 0 }).1.cur.epoch + 1) % 65536 = _
    split
    · rename_i he
      rw [check_of_isDamaged he]
      rfl
    · rfl
  · unfold State.checkStore
    dsimp only
    rw [hj, he, hp, hh, hs]
    rfl

end Sys2Proof.Machine
end

