-- ==== Sys2Proof/Proofs/Frames.lean ====
section
/-! PROOFS. The search for frames in the bytes that arrive, the gap, and the frames sent (R182 to R188). -/

namespace Sys2Proof.Machine

/-! ### The search (R182) -/

section Search

variable {gap : Bool} {fuel : Nat} {b : Byte} {bs : List Byte}

theorem receive_skip (h : b ≠ startByte) : receive gap (fuel + 1) (b :: bs) = receive gap fuel bs := by
  rw [receive, if_pos h]

theorem receive_bad (h : frameView bs = .bad) : receive gap (fuel + 1) (startByte :: bs) = receive gap fuel bs := by
  rw [receive, if_neg (not_not.2 rfl), h]

theorem receive_partly (h : frameView bs = .partly) :
    receive gap (fuel + 1) (startByte :: bs) = if gap then receive gap fuel bs else ([], startByte :: bs) := by
  rw [receive, if_neg (not_not.2 rfl), h]

theorem receive_whole {f : RawFrame} {rest : List Byte} (h : frameView bs = .whole f rest) :
    receive gap (fuel + 1) (startByte :: bs) = (f :: (receive gap fuel rest).1, (receive gap fuel rest).2) := by
  rw [receive, if_neg (not_not.2 rfl), h]

@[simp] theorem receive_nil : receive gap fuel [] = ([], []) := by cases fuel <;> rfl

/-- Bytes without a start byte are passed over. -/
theorem receive_append {pre : List Byte} (h : ∀ b ∈ pre, b ≠ startByte) (rest : List Byte) (fuel : Nat) :
    receive gap (pre.length + fuel) (pre ++ rest) = receive gap fuel rest := by
  induction pre with
  | nil => simp
  | cons b pre ih =>
    rw [List.length_cons, Nat.succ_add, List.cons_append, receive_skip (h b List.mem_cons_self)]
    exact ih fun x hx => h x (List.mem_cons_of_mem _ hx)

theorem receive_noStart (h : ∀ b ∈ bs, b ≠ startByte) : receive gap bs.length bs = ([], []) := by
  have := receive_append (gap := gap) h [] 0
  simpa using this

end Search

/-! ### What stands at a start byte (R182, 13.1) -/

section View

variable {length : Nat} {body : List Byte}

theorem beNat_take_length (h : length < 65536) : beNat ((natBytes 2 length ++ body).take 2) = length := by
  rw [List.take_left' (length_natBytes 2 length), beNat_natBytes h]

/-- A frame of which bytes are to come. -/
theorem frameView_partly (h2 : 2 ≤ length) (h : length ≤ 4096) (hb : body.length < length + 2) :
    frameView (natBytes 2 length ++ body) = .partly := by
  unfold frameView
  rw [if_neg (by simp; omega)]
  dsimp only
  rw [beNat_take_length (by omega), if_neg (by omega), if_pos (by simp; omega)]

/-- A frame whose length or whose check fails. -/
theorem frameView_bad (hl : length < 65536)
    (h : length < 2 ∨ 4096 < length ∨
      (length + 2 ≤ body.length ∧ (body.drop length).take 2 ≠ checkBytes (natBytes 2 length ++ body.take length))) :
    frameView (natBytes 2 length ++ body) = .bad := by
  unfold frameView
  rw [if_neg (by simp; omega)]
  dsimp only
  rw [beNat_take_length hl]
  by_cases hr : length < 2 ∨ 4096 < length
  · rw [if_pos hr]
  · have check : length + 2 ≤ body.length ∧
        (body.drop length).take 2 ≠ checkBytes (natBytes 2 length ++ body.take length) := by tauto
    have drop : (natBytes 2 length ++ body).drop (length + 2) = body.drop length := by
      rw [drop_natBytes_append (by omega), Nat.add_sub_cancel]
    have take : (natBytes 2 length ++ body).take (length + 2) = natBytes 2 length ++ body.take length := by
      rw [List.take_append, length_natBytes, Nat.add_sub_cancel, List.take_of_length_le (by simp)]
    rw [if_neg hr, if_neg (by simp; omega), drop, take, if_neg check.2]

/-- A frame cut short never stands whole. -/
theorem receive_cut {fuel : Nat} (h : length ≤ 4096) (hb : body.length < length + 2) :
    receive true (fuel + 1) (startByte :: (natBytes 2 length ++ body)) = receive true fuel (natBytes 2 length ++ body) := by
  by_cases h2 : 2 ≤ length
  · rw [receive_partly (frameView_partly h2 h hb), if_pos rfl]
  · exact receive_bad (frameView_bad (by omega) (.inl (by omega)))

theorem length_frameBytes (kind tag : Nat) (body : List Byte) : (frameBytes kind tag body).length = body.length + 7 := by
  simp [frameBytes]
  omega

/-- A whole frame, and the search after it. -/
theorem receive_frame {gap : Bool} {kind tag : Nat} (hk : kind < 256) (ht : tag < 256) (hb : body.length ≤ Config.maxBody)
    (fuel : Nat) : receive gap (fuel + 1) (frameBytes kind tag body) = ([(kind, tag, body)], []) := by
  have whole := frameView_frame hk ht hb []
  rw [List.append_nil] at whole
  unfold frameBytes
  rw [receive_whole whole]
  simp

end View

/-! ### The bytes taken up (R182, R192) -/

section Bytes

variable {s : State} {bytes : List Byte}

theorem gapDue_idle (h : s.link.receiving = [] ∨ s.elapsed < s.link.lastByteAt + 50) : s.gapDue = s := by
  refine if_neg ?_
  unfold State.gapPassed Config.frameGap
  rw [Bool.and_eq_true, bne_iff_ne, decide_eq_true_iff]
  rintro ⟨h1, h2⟩
  rcases h with h | h
  · exact h1 h
  · omega

theorem gapDue_passed (h : s.link.receiving ≠ []) (ht : s.link.lastByteAt + 50 ≤ s.elapsed) : s.gapDue = s.searchAgain :=
  if_pos (by
    unfold State.gapPassed Config.frameGap
    rw [Bool.and_eq_true, bne_iff_ne, decide_eq_true_iff]
    exact ⟨h, ht⟩)

theorem takeBytes_eq (h : bytes ≠ []) : s.takeBytes bytes = s.gapDue.joinBytes bytes := if_neg h

/-- The finish looks at the journal of the part before, not at its link. -/
theorem finish_putLink (t s : State) (l : Link) : t.finish { s with link := l } = t.finish s := rfl

/-- Two rows that do the same to parts that differ in the link alone have one outcome. -/
theorem exec_congr {i j : Instr} {f g : State → State} {l : Link} (hi : exec i s = .next (s.running f))
    (hj : exec j { s with link := l } = .next (({ s with link := l } : State).running g)) (hs : s.power = .running)
    (h : f s = g { s with link := l }) : exec i s = exec j { s with link := l } := by
  rw [hi, hj]
  unfold State.running
  rw [h, if_pos hs, if_pos (show ({ s with link := l } : State).power = .running from hs)]
  rfl

theorem exec_discardedFrame (bytes : List Byte) (s : State) :
    exec (.discardedFrame bytes) s = .next (s.running (fun s => s.takeBytes bytes)) := rfl

theorem exec_frameGapTimeout (bytes : List Byte) (s : State) :
    exec (.frameGapTimeout bytes) s =
      .next (s.running (fun s => if bytes = [] then s.gapDue else s.takeBytes bytes)) := rfl

/-- What the search finds in the bytes at hand and those that arrive. -/
theorem joinBytes_eq {frames : List RawFrame} {left : List Byte}
    (h : receive false (s.link.receiving ++ bytes).length (s.link.receiving ++ bytes) = (frames, left)) :
    s.joinBytes bytes =
      ({ s with link := { s.link with receiving := left, lastByteAt := s.elapsed } } : State).takeFrames frames := by
  unfold State.joinBytes
  dsimp only
  rw [h]
  rfl

/-- Where no frame is found, the bytes left wait. -/
theorem exec_discardedFrame_waits {left : List Byte} (hs : s.power = .running) (hb : bytes ≠ [])
    (hg : s.link.receiving = [] ∨ s.elapsed < s.link.lastByteAt + 50)
    (h : receive false (s.link.receiving ++ bytes).length (s.link.receiving ++ bytes) = ([], left)) :
    exec (.discardedFrame bytes) s =
      .next (({ s with link := { s.link with receiving := left, lastByteAt := s.elapsed } } : State).finish s) := by
  refine exec_event (exec_discardedFrame bytes s) hs ?_ hs
  show s.takeBytes bytes = _
  rw [takeBytes_eq hb, gapDue_idle hg, joinBytes_eq h]
  rfl

end Bytes

/-! ### Frames taken as requests (R183, R184) -/

/-- The kinds of requests are those of the catalogue. -/
theorem requestKind_range {r : Request} (h : r.wf = true) : 1 ≤ requestKind r ∧ requestKind r ≤ 29 := by
  cases r with
  | badKind k => cases h
  | badLength k => cases h
  | _ => simp only [requestKind]; omega

theorem requestOfFrame_body {r : Request} (h : r.wf = true) : requestOfFrame (requestKind r) (requestBody r) = r := by
  unfold requestOfFrame
  rw [if_pos (requestKind_range h), requestBodiesReadBack r h]
  rfl

/-- The frame of a request found in the bytes at hand is taken as its row takes it. -/
theorem receiveRequest_idle {s : State} (h : s.link.receiving = []) (tag : Nat) (r : Request) :
    s.receiveRequest tag r = s.takeRequest tag r := by
  unfold State.receiveRequest
  rw [State.searchAgain_quiet (Link.buried_of_idle h), ← h]

/-- Settles O57: what the search finds, and the row of the request that a frame found carries. -/
theorem frameRows : Obligations.FrameRows := by
  refine ⟨fun bytes s hs hb => ?_, fun kind tag body s hs hr hk ht hl => ?_, fun s hs => ?_, fun kind tag body s hs => ?_⟩
  · intro arrived
    refine ⟨fun hn => ?_, fun length body hr hbytes h2 h4096 hlt => ?_, fun hgap => ?_, fun hr hgap hq => ?_,
      fun length body hr hbytes hlen hbad => ?_⟩
    · by_cases hg : s.link.receiving = [] ∨ s.elapsed < s.link.lastByteAt + 50
      · exact exec_discardedFrame_waits hs hb hg (receive_noStart hn)
      · push Not at hg
        obtain ⟨hne, hpassed⟩ := hg
        refine exec_event (exec_discardedFrame bytes s) hs ?_ hs
        have quiet : s.link.buried = [] :=
          congrArg Prod.fst (receive_noStart fun b hx => hn b (List.mem_append_left _ hx))
        show s.takeBytes bytes = _
        rw [takeBytes_eq hb, gapDue_passed hne hpassed, State.searchAgain_quiet quiet,
          joinBytes_eq (frames := []) (left := []) (receive_noStart fun b hx => hn b (List.mem_append_right _ hx))]
        rfl
    · refine exec_discardedFrame_waits hs hb (.inl hr) ?_
      subst hbytes
      rw [hr, List.nil_append, List.length_cons, receive_partly (frameView_partly h2 h4096 hlt)]
      rfl
    · refine exec_congr (exec_discardedFrame bytes s) (exec_discardedFrame _ _) hs ?_
      dsimp only
      rw [takeBytes_eq hb, takeBytes_eq (by simp [hb]), gapDue_idle (.inr hgap), gapDue_idle (.inl rfl)]
      rfl
    · refine exec_congr (exec_discardedFrame bytes s) (exec_discardedFrame _ _) hs ?_
      dsimp only
      rw [takeBytes_eq hb, takeBytes_eq hb, gapDue_passed hr hgap, State.searchAgain_quiet hq, gapDue_idle (.inl rfl)]
    · have found : receive false bytes.length bytes =
          receive false (natBytes 2 length ++ body).length (natBytes 2 length ++ body) := by
        rw [hbytes, List.length_cons, receive_bad (frameView_bad hlen hbad)]
      refine exec_congr (l := s.link) (exec_discardedFrame bytes s) (exec_discardedFrame _ _) hs ?_
      rw [takeBytes_eq hb, takeBytes_eq (by simp [natBytes]), gapDue_idle (.inl hr)]
      unfold State.joinBytes
      dsimp only
      rw [hr, List.nil_append, List.nil_append, found]
  · intro taken
    have arrives : s.takeBytes (frameBytes kind tag body) =
        ({ s with link := { s.link with lastByteAt := s.elapsed } } : State).takeRequest tag (requestOfFrame kind body) := by
      rw [takeBytes_eq (by simp [frameBytes]), gapDue_idle (.inl hr),
        joinBytes_eq (frames := [(kind, tag, body)]) (left := []), ← hr]
      · rfl
      · rw [hr, List.nil_append, length_frameBytes]
        exact receive_frame hk ht hl (body.length + 6)
    have row {i : Instr} {r : Request}
        (hi : ∀ t : State, exec i t = .next (t.running (fun t => t.receiveRequest tag r)))
        (hreq : requestOfFrame kind body = r) : taken i := by
      refine exec_congr (exec_discardedFrame _ s) (hi _) hs ?_
      dsimp only
      rw [arrives, hreq, receiveRequest_idle (by exact hr)]
    refine ⟨fun i r hi hwf hkind hbody => row (exec_of_request hi) ?_, fun _ => row (fun t => rfl) rfl⟩
    rw [hkind, hbody, requestOfFrame_body hwf]
  · have due {t : State} (h : s.gapDue = t) (ht : t.power = .running) : exec (.frameGapTimeout []) s = .next (t.finish s) :=
      exec_event (exec_frameGapTimeout [] s) hs h ht
    refine ⟨fun h => due (gapDue_idle h) hs, fun hne hgap => ?_, fun bytes hb => ?_⟩
    · intro discarded
      have again := gapDue_passed hne hgap
      refine ⟨fun hq => due (again.trans (State.searchAgain_quiet hq)) hs, fun length body hr h4096 hlt hn => ?_,
        fun length tag i r hi hwf ht h4096 hn hr hlt => ?_⟩
      · unfold Link.buried
        rw [hr, List.length_cons, receive_cut h4096 hlt, receive_noStart hn]
      · have buried : s.link.buried = [(requestKind r, tag, requestBody r)] := by
          unfold Link.buried
          rw [length_frameBytes] at hlt
          rw [hr, List.length_cons, receive_cut h4096 (by rw [length_frameBytes]; omega), List.length_append,
            receive_append hn, length_frameBytes,
            receive_frame (Nat.lt_of_le_of_lt (requestKind_range hwf).2 (by decide)) ht (by unfold Config.maxBody; omega) (_ + 6)]
        refine exec_congr (exec_frameGapTimeout [] s) (exec_of_request hi _) hs ?_
        dsimp only
        rw [if_pos rfl, again, State.searchAgain_one buried, requestOfFrame_body hwf, receiveRequest_idle rfl]
    · rw [exec_frameGapTimeout, exec_discardedFrame]
      simp only [hb, if_false]
  · intro gives
    have row {q : Request} {r : Reply} (hq : requestOfFrame kind body = q) (ho : own q (s.hold tag q) = (s.hold tag q, r)) :
        gives q r := by
      subst hq
      exact exec_request rfl hs ho hs.1
    refine ⟨fun h => row ?_ rfl, fun h1 h29 hn => row ?_ rfl⟩
    · exact if_neg (by omega)
    · unfold requestOfFrame
      rw [if_pos ⟨h1, h29⟩, hn]
      rfl

end Sys2Proof.Machine
end

