-- ==== Sys2Proof/Proofs/Sending.lean ====
section
/-! PROOFS. REPLY_SENT and NOTICE_SENT: what leaves the link, the request handed on, and the order of the notices (R184 to
R188). -/

namespace Sys2Proof.Machine

/-! ### The next held request (R184) -/

section HandOn

variable {s : State}

theorem handOn_empty (h : s.link.holding = []) : s.handOn = s := by
  unfold State.handOn
  rw [h]

theorem handOn_made {g : Held} {more : List Held} (h : s.link.holding = g :: more) (hg : g.reply ≠ none) : s.handOn = s := by
  unfold State.handOn
  rw [h]
  exact if_pos (Option.isSome_iff_ne_none.2 hg)

/-- The oldest held request acts, and its reply is made. -/
theorem handOn_acts {g : Held} {more : List Held} (h : s.link.holding = g :: more) (hg : g.reply = none) :
    s.handOn = { (own g.request s).1 with link := { (own g.request s).1.link with
      holding := { g with reply := some (own g.request s).2 } :: more } } := by
  have kept : (own g.request s).1.link.holding = g :: more :=
    (congrArg Link.holding (own_owned g.request s).link :).trans h
  unfold State.handOn
  rw [h]
  dsimp only
  rw [if_neg (by simp [hg]), kept]
  rfl

theorem handOn_power (s : State) : s.handOn.power = s.power := by
  unfold State.handOn
  split
  · rfl
  · split
    · rfl
    · exact (own_owned _ s).power

/-- A request that finds none held acts at once. -/
theorem takeRequest_first {tag : Nat} {r : Request} (h : s.link.holding = []) :
    s.takeRequest tag r =
      ({ s with link := { s.link with holding := [{ tag := tag, request := r, reply := none }] } } : State).handOn := by
  unfold State.takeRequest
  rw [if_neg (by rw [h]; decide)]
  dsimp only
  rw [if_pos h, h]
  rfl

end HandOn

/-! ### The reply sent (R185, R190) -/

section Sent

variable {s : State}

theorem sentReply_none (h : s.link.sending = none ∨ s.link.sending = some .notice) : s.sentReply = s := by
  unfold State.sentReply
  rcases h with h | h <;> rw [h]

theorem sentReply_busy {b : Nat × Nat} {rest : List (Nat × Nat)} (h : s.link.sending = some .busyReply)
    (hb : s.link.busy = b :: rest) :
    s.sentReply = { s with link := { s.link with
      busy := rest, sending := none, lastFrame := some (.reply b.1 b.2 { status := .busy, result := .empty }) } } := by
  unfold State.sentReply
  rw [h]
  dsimp only
  unfold State.sentBusy
  rw [hb]
  rfl

theorem resetCause_eq_none {h : Held} {r : Reply} (hn : (∀ m, h.request ≠ .reset m) ∨ r.status ≠ .ok) : resetCause h r = none := by
  unfold resetCause
  split
  · rename_i heq
    exact if_neg (hn.resolve_left fun hc => hc 1 heq)
  · rename_i heq
    exact if_neg (hn.resolve_left fun hc => hc 2 heq)
  · rfl

variable {h : Held} {r : Reply} {rest : List Held}

theorem sentReply_reset {cause : StartCause} (hs : s.link.sending = some .reply) (hh : s.link.holding = h :: rest)
    (hr : h.reply = some r) (hc : resetCause h r = some cause) :
    s.sentReply = { s with power := .startDue cause, link := .atStart } := by
  unfold State.sentReply
  rw [hs]
  dsimp only
  unfold State.sentHeld
  rw [hh]
  dsimp only
  rw [hr]
  dsimp only
  rw [hc]

theorem sentReply_held (hs : s.link.sending = some .reply) (hh : s.link.holding = h :: rest) (hr : h.reply = some r)
    (hc : resetCause h r = none) :
    s.sentReply = ({ s with link := { s.link with
      holding := rest, sending := none
      lastFrame := some (.reply (requestKind h.request) h.tag r) } } : State).handOn := by
  unfold State.sentReply
  rw [hs]
  dsimp only
  unfold State.sentHeld
  rw [hh]
  dsimp only
  rw [hr]
  dsimp only
  rw [hc]
  rfl

theorem exec_replySent (s : State) : exec .replySent s = .next (s.running (fun s => s.sentReply)) := rfl

/-- A row whose effect ends the running of the part. -/
theorem exec_stops {i : Instr} {f : State → State} {t : State} (hi : exec i s = .next (s.running f))
    (hs : s.power = .running) (hf : f s = t) (ht : t.power ≠ .running) : exec i s = .next t := by
  subst hf
  rw [hi, State.running, if_pos hs, if_neg ht]

end Sent

/-! ### The notices in turn (R187, R188) -/

/-- The search after a kind sent begins at the kind that follows it in the order of the table. -/
theorem searchOrder_rotate {j : Nat} (h : j < 5) : searchOrder noticeKinds[j]? = noticeKinds.rotate (j + 1) := by
  interval_cases j <;> rfl

/-- The kinds passed over by the search are not pending. -/
theorem find?_before {α : Type} {p : α → Bool} {l : List α} {m i : Nat} {y : α} (hl : l.Nodup)
    (hm : l.find? p = l[m]?) (hlt : m < l.length) (hi : i < m) (hy : l[i]? = some y) : p y = false := by
  rw [List.getElem?_eq_getElem hlt, List.find?_eq_some_iff_getElem] at hm
  obtain ⟨-, k, hk, he, hbefore⟩ := hm
  have same : k = m := (List.Nodup.getElem_inj_iff hl).1 he
  subst same
  have hi' : i < l.length := by omega
  have := hbefore i hi
  rw [List.getElem?_eq_getElem hi'] at hy
  cases hy
  simpa using this

/-- Where one kind is next, those between the kind sent last and it have no pending mark (R188). -/
theorem notice_between {l : Link} {j k i : Nat} {x : NoticeKind} (hj : j < 5) (hk : k < 5) (hlast : l.lastNotice = noticeKinds[j]?)
    (hnext : l.nextNotice = noticeKinds[k]?) (hi : i < 5) (hlt : (i + 4 - j) % 5 < (k + 4 - j) % 5)
    (hx : noticeKinds[i]? = some x) : l.marks.has x = false := by
  have nodup : (noticeKinds.rotate (j + 1)).Nodup := List.nodup_rotate.2 (by decide)
  have at_ {n : Nat} (hn : n < 5) : (noticeKinds.rotate (j + 1))[(n + 4 - j) % 5]? = noticeKinds[n]? := by
    rw [List.getElem?_rotate (by simp [noticeKinds]; omega)]
    congr 1
    simp only [noticeKinds, List.length_cons, List.length_nil]
    omega
  unfold Link.nextNotice at hnext
  rw [hlast, searchOrder_rotate hj, ← at_ hk] at hnext
  refine find?_before nodup hnext (by simp [noticeKinds]; omega) hlt ?_
  rw [at_ hi, hx]

theorem sentNotice_idle {s : State} (h : s.link.sending ≠ some .notice) : s.sentNotice = s := if_neg h

/-- Settles O58: each frame that ends, and the next one found in turn. -/
theorem framesSent : Obligations.FramesSent := by
  refine ⟨fun s hs => ⟨fun h => ?_, fun b rest h hb => ?_, fun h r rest hsend hh hr => ⟨fun hreset => ?_, fun hreset => ?_,
    fun hn => ?_⟩⟩, fun s hs => ⟨fun h => ?_, fun k h hk => ?_, fun j k hj hk hlast hnext i hi hlt x hx => ?_⟩⟩
  · exact exec_event (exec_replySent s) hs (sentReply_none h) hs
  · exact exec_event (exec_replySent s) hs (sentReply_busy h hb) hs
  · refine exec_stops (exec_replySent s) hs (sentReply_reset hsend hh hr ?_) nofun
    unfold resetCause
    rw [hreset.1]
    exact if_pos hreset.2
  · refine exec_stops (exec_replySent s) hs (sentReply_reset hsend hh hr ?_) nofun
    unfold resetCause
    rw [hreset.1]
    exact if_pos hreset.2
  · intro sent
    have sends : s.sentReply = sent.handOn := sentReply_held hsend hh hr (resetCause_eq_none hn)
    have row {t : State} (ht : sent.handOn = t) : exec .replySent s = .next (t.finish s) :=
      exec_event (exec_replySent s) hs (sends.trans ht) (ht ▸ (handOn_power sent).trans hs)
    refine ⟨fun hrest => row (handOn_empty hrest), fun g more hrest => ⟨fun hg => row (handOn_made hrest hg),
      fun hg => row (handOn_acts hrest hg), fun i hg hi hmore hrec => ?_⟩⟩
    subst hmore
    refine exec_congr (exec_replySent s) (exec_of_request hi _) hs ?_
    have alone : g = { tag := g.tag, request := g.request, reply := none } := by rw [← hg]
    dsimp only
    rw [sends, receiveRequest_idle (by exact hrec), takeRequest_first rfl, ← alone, ← hrest]
  · exact exec_event (f := fun s => s.sentNotice) rfl hs (sentNotice_idle h) hs
  · refine ⟨by simpa using List.find?_some hk, exec_event (f := fun s => s.sentNotice) rfl hs ?_ hs⟩
    show s.sentNotice = _
    unfold State.sentNotice
    rw [if_pos h, hk]
    cases k <;> rfl
  · exact notice_between hj hk hlast hnext hi hlt hx

end Sys2Proof.Machine
end

