-- ==== Sys2Proof/Proofs/Reports.lean ====
section
/-! PROOFS. Bike fault reports at the link: the ranges, the tally, the record and the waiver (R105, R117 to R121, R130). -/

namespace Sys2Proof.Machine

/-! ### The HELD entry of a bike (R102, R105) -/

section Held

variable {s : State} {before after : List SettleEntry} {e : SettleEntry} {bike link deadline : Nat}

theorem linksTo_of_held (h : e.stage = .held bike link deadline) : e.linksTo bike = true := by
  unfold SettleEntry.linksTo
  rw [h]
  exact beq_self_eq_true bike

theorem heldAt_split (hs : s.entries = before ++ e :: after) (he : e.stage = .held bike link deadline)
    (hb : ∀ x ∈ before, x.linksTo bike = false) : s.heldAt bike = some before.length := by
  unfold State.heldAt
  rw [hs, List.findIdx?_append, List.findIdx?_eq_none_iff.2 hb, List.findIdx?_cons, linksTo_of_held he]
  simp

theorem heldEntry_split (hs : s.entries = before ++ e :: after) (he : e.stage = .held bike link deadline)
    (hb : ∀ x ∈ before, x.linksTo bike = false) : s.entries.find? (fun x => x.linksTo bike) = some e := by
  rw [hs, List.find?_append, List.find?_eq_none.2 fun x hx => by simp [hb x hx], List.find?_cons, linksTo_of_held he]
  rfl

theorem entries_getElem_split (hs : s.entries = before ++ e :: after) : s.entries[before.length]? = some e := by
  rw [hs]
  simp

theorem heldHirer_none (h : s.heldAt bike = none) : s.heldHirer bike = none := by
  have none := List.findIdx?_eq_none_iff.1 h
  unfold State.heldHirer
  rw [List.find?_eq_none.2 fun x hx => by simp [none x hx]]
  rfl

theorem waiveForReporter_none (h : s.heldAt bike = none) (k : BikeFault) (who : Reporter) :
    s.waiveForReporter bike k who = s := by
  unfold State.waiveForReporter
  rw [heldHirer_none h]

/-- The hirer's own report waives an entry that carries no waiver. -/
theorem waiveForReporter_waives (hs : s.entries = before ++ e :: after) (he : e.stage = .held bike link deadline)
    (hb : ∀ x ∈ before, x.linksTo bike = false) (hw : e.waiver = none) {who : Reporter} (hr : e.close.hirer.reporter = who)
    (k : BikeFault) :
    s.waiveForReporter bike k who =
      s.putSettle { s.store.settle.cur with
        entries := before ++ { e with
          close := { e.close with fare := 0 }
          waiver := some { source := .rider, kind := k, time := s.now } } :: after } := by
  have hirer : s.heldHirer bike = some e.close.hirer := by
    unfold State.heldHirer
    rw [heldEntry_split hs he hb]
    rfl
  unfold State.waiveForReporter
  rw [hirer]
  dsimp only
  rw [if_pos hr]
  unfold State.waive
  rw [heldAt_split hs he hb]
  dsimp only
  rw [entries_getElem_split hs]
  dsimp only
  rw [if_neg (by simp [hw])]
  unfold State.putEntries
  rw [hs]
  simp

/-- Another reporter's report, and one against a waived entry, leaves the list as it is. -/
theorem waiveForReporter_leaves (hs : s.entries = before ++ e :: after) (he : e.stage = .held bike link deadline)
    (hb : ∀ x ∈ before, x.linksTo bike = false) {who : Reporter} (h : e.waiver ≠ none ∨ e.close.hirer.reporter ≠ who)
    (k : BikeFault) : s.waiveForReporter bike k who = s := by
  have hirer : s.heldHirer bike = some e.close.hirer := by
    unfold State.heldHirer
    rw [heldEntry_split hs he hb]
    rfl
  unfold State.waiveForReporter
  rw [hirer]
  dsimp only
  by_cases hr : e.close.hirer.reporter = who
  · rw [if_pos hr]
    unfold State.waive
    rw [heldAt_split hs he hb]
    dsimp only
    rw [entries_getElem_split hs]
    dsimp only
    rw [if_pos (Option.isSome_iff_ne_none.2 (h.resolve_right (not_not.2 hr)))]
  · rw [if_neg hr]

end Held

/-! ### Attention (R126) -/

theorem attendEffect_none {e : FaultEffect} (h : e ≠ .quarantined ∧ e ≠ .conflict) (s : State) : s.attendEffect e = s :=
  if_neg (by tauto)

theorem attendEffect_quarantined (s : State) : s.attendEffect .quarantined = s.setAttention .quarantine := if_pos (.inl rfl)

theorem setAttention_same {s : State} {c : AttentionCause} (h : s.attention = s.attention.add c) : s.setAttention c = s := if_pos h

theorem setAttention_changes {s : State} {c : AttentionCause} (h : s.attention ≠ s.attention.add c) :
    s.setAttention c = ({ s with attention := s.attention.add c } : State).raise .attention := if_neg h

/-! ### A dock written as it stands -/

theorem setEntry_getD {α : Type} (l : List α) (n : Nat) (y : α) : setEntry l n ((entryAt l n).getD y) = l := by
  unfold setEntry entryAt
  split
  · rfl
  · apply List.ext_getElem?
    intro i
    rw [List.getElem?_set]
    split
    · subst i
      split
      · rename_i h
        rw [List.getElem?_eq_getElem h]
        rfl
      · rename_i h
        rw [List.getElem?_eq_none (by omega)]
    · rfl

theorem putDock_self {s : State} {d : Nat} {x : Dock} (h : x = s.dock d) : s.putDock d x = s := by
  subst h
  unfold State.putDock
  dsimp only
  rw [if_pos rfl, State.dock, setEntry_getD]

/-! ### What a report decides (R119, R120) -/

section Decide

variable {s : State} {b : Bike} {k : BikeFault}

theorem decideReport_confirmed (h : k ∈ b.faults) (rider : Option Reporter) : s.decideReport b k rider = (b, .noted) :=
  if_pos (List.contains_iff_mem.2 h)

theorem quarantineIf_quarantines {call : Bool} (hc : call = true) (hb : b.condition = .available) :
    quarantineIf call b = ({ b with condition := .quarantined }, .quarantined) := if_pos ⟨hc, hb⟩

theorem quarantineIf_notes {call : Bool} (h : call = false ∨ b.condition ≠ .available) : quarantineIf call b = (b, .noted) :=
  if_neg (by rintro ⟨h1, h2⟩; rcases h with h | h <;> simp_all)

/-- A CREW report of a kind that is not confirmed confirms it. -/
theorem decideReport_crew (h : k ∉ b.faults) :
    s.decideReport b k none = quarantineIf ((s.policy k).cls == .quarantine) (b.confirm k) :=
  if_neg (fun hc => h (List.contains_iff_mem.1 hc))

/-- A RIDER report confirms it at the confirm count. -/
theorem decideReport_rider_confirms {who : Reporter} (h : k ∉ b.faults)
    (hc : (s.policy k).count ≤ (s.nextTally b k who).length) :
    s.decideReport b k (some who) = quarantineIf ((s.policy k).cls == .quarantine) (b.confirm k) :=
  (if_neg (fun hc => h (List.contains_iff_mem.1 hc))).trans (if_pos hc)

theorem decideReport_rider_suspects {who : Reporter} (h : k ∉ b.faults)
    (hc : (s.nextTally b k who).length < (s.policy k).count) :
    s.decideReport b k (some who) = (b.putTally k (s.nextTally b k who), .suspect) :=
  (if_neg (fun hc => h (List.contains_iff_mem.1 hc))).trans (if_neg (by omega))

/-- A report with a slot free and no record waiting: the bike is written and the record posted (R120, R130). -/
theorem reportBike_posts {d : Nat} {source : FaultSource} {who : Reporter} {b' : Bike} {e : FaultEffect}
    (hb : (s.dock d).bike = some b) (hf : 0 < s.free) (hn : s.faults = [])
    (hdec : s.decideReport b k (if source = .rider then some who else none) = (b', e)) :
    s.reportBike d b k source who =
      (({ (s.putDock d { s.dock d with bike := some b' }).post
          (.fault
            { subject := .bike, dock := some d, bikeId := some b'.id, tagBikeId := none, tagRef := none
              kind := some (.bike k), source := some source, cause := none, reporter := some who
              reporters := if source = .rider then some (s.reportersAfter b k who) else none
              confirmCount := if source = .rider then some (s.policy k).count else none
              effect := e, conditionAfter := some b'.condition, counterAfter := none, counterBefore := none
              dockState := none, bikeAbsent := false } s.faultsDropped) with faultsDropped := 0 } : State).attendEffect e, e) := by
  unfold State.reportBike
  dsimp only
  rw [hdec]
  dsimp only
  rw [makeFault_posts (by simpa [State.putBike] using hf) (by simpa [State.putBike] using hn)]
  unfold State.bikeFault State.putBike
  rw [dock_putDock_same (inTable_of_bike hb), State.putDock_faultsDropped]
  cases source <;> rfl

theorem reportAbsent_posts (hf : 0 < s.free) (hn : s.faults = []) (dock bike : Option Nat) (source : FaultSource)
    (who : Reporter) :
    s.reportAbsent dock bike k source who =
      { s.post (.fault
          { subject := .bike, dock := dock, bikeId := bike, tagBikeId := none, tagRef := none, kind := some (.bike k)
            source := some source, cause := none, reporter := some who, reporters := none, confirmCount := none
            effect := .noted, conditionAfter := none, counterAfter := none, counterBefore := none, dockState := none
            bikeAbsent := true } s.faultsDropped) with faultsDropped := 0 } := makeFault_posts hf hn

end Decide

/-! ### The ranges of a RIDER_REPORT (R117) -/

section Range

variable {target : TargetArg} {kind source : Nat} {reporter : ReporterArg}

/-- Whether a reporter fails its range, or its source. -/
def reporterFails (source : Nat) : ReporterArg → Bool
  | .member id => id < 1 || 99999999 < id
  | .passSlot slot => slot < 1 || 32 < slot || source == 2
  | .anonymous => source == 2
  | .other _ => true

/-- A target within its range. -/
def targetFits : TargetArg → Prop
  | .dock d => 1 ≤ d ∧ d ≤ 64
  | .bike b => b ≠ 0
  | .other _ => False

theorem riderRange_of_target (h : targetFits target) :
    riderRange target kind source reporter =
      if kind < 1 ∨ 8 < kind then some .kind
      else if source < 1 ∨ 2 < source then some .source
      else if reporterFails source reporter then some .reporter
      else none := by
  unfold riderRange
  cases target with
  | dock d =>
    obtain ⟨h1, h2⟩ := h
    dsimp only
    rw [if_neg (by omega)]
    cases reporter <;> rfl
  | bike b =>
    dsimp only
    rw [if_neg h]
    cases reporter <;> rfl
  | other c => exact h.elim

theorem bikeFaultOf_range {k : BikeFault} (h : bikeFaultOf kind = some k) : 1 ≤ kind ∧ kind ≤ 8 := by
  unfold bikeFaultOf at h
  split at h <;> first | omega | cases h

/-- A report in all its ranges is taken, where its reporter is named (R117). -/
theorem ownRiderReport_takes {s : State} {k : BikeFault} {who : Reporter} (ht : targetFits target)
    (hk : bikeFaultOf kind = some k) (hs : source = 1 ∨ source = 2) (hr : reporterFails source reporter = false)
    (hw : s.reporterOf reporter = some who) :
    ownRiderReport target kind source reporter s = s.takeReport target k (if source = 1 then .rider else .crew) who := by
  obtain ⟨h1, h8⟩ := bikeFaultOf_range hk
  unfold ownRiderReport
  rw [riderRange_of_target ht, if_neg (by omega), if_neg (by omega), hr, if_neg (by decide)]
  dsimp only
  rw [hw, hk]

theorem ownRiderReport_range {s : State} {f : Field} (h : riderRange target kind source reporter = some f) :
    ownRiderReport target kind source reporter s = (s, { status := .outOfRange, result := .field f }) := by
  unfold ownRiderReport
  rw [h]
  rfl

end Range

/-! ### A report taken (R117, R121) -/

section Take

variable {s : State} {k : BikeFault} {source : FaultSource} {who : Reporter} {d : Nat} {b : Bike}

theorem takeReport_dock (hb : (s.dock d).bike = some b) :
    s.takeReport (.dock d) k source who =
      ((s.reportBike d b k source who).1.waiveForReporter b.id k who,
        { status := .ok, result := .report (some b.id) (some d) (s.reportBike d b k source who).2 false }) := by
  have target : s.targetDock (.dock d) = some d := if_pos (by simp [hb])
  unfold State.takeReport
  rw [target]
  dsimp only
  rw [hb]

theorem takeReport_empty (hb : (s.dock d).bike = none) :
    s.takeReport (.dock d) k source who =
      (s.reportAbsent (some d) none k source who, { status := .ok, result := .report none (some d) .noted true }) := by
  have target : s.targetDock (.dock d) = none := if_neg (by simp [hb])
  unfold State.takeReport
  rw [target]
  rfl

theorem takeReport_unknown {id : Nat} (h : s.dockOfBike id = none) :
    s.takeReport (.bike id) k source who =
      (s.reportAbsent none (some id) k source who, { status := .ok, result := .report (some id) none .noted true }) := by
  unfold State.takeReport
  rw [show s.targetDock (.bike id) = none from h]
  rfl

/-- A report by bike id is one of the dock that holds it. -/
theorem takeReport_bike (hb : (s.dock d).bike = some b) (h : s.dockOfBike b.id = some d) :
    s.takeReport (.bike b.id) k source who = s.takeReport (.dock d) k source who := by
  rw [takeReport_dock hb]
  unfold State.takeReport
  rw [show s.targetDock (.bike b.id) = some d from h]
  dsimp only
  rw [hb]

theorem dockOfBike_none {id : Nat} (h : ∀ d ∈ dockNumbers, ∀ b, (s.dock d).bike = some b → b.id ≠ id) :
    s.dockOfBike id = none := by
  unfold State.dockOfBike
  split
  · rfl
  · refine List.find?_eq_none.2 fun d hd => ?_
    cases hb : (s.dock d).bike with
    | none => simp
    | some b => simpa using h d hd b hb

/-- The lowest dock that holds a bike id is the one found. -/
theorem dockOfBike_lowest {id : Nat} (hid : id ≠ 0) (hd : d ∈ dockNumbers) (hb : (s.dock d).bike = some b) (he : b.id = id)
    (hlow : ∀ c ∈ dockNumbers, c < d → ∀ x, (s.dock c).bike = some x → x.id ≠ id) : s.dockOfBike id = some d := by
  unfold State.dockOfBike
  rw [if_neg hid]
  unfold dockNumbers at *
  rw [List.find?_range'_eq_some]
  refine ⟨by simp [hb, he], hd, fun c h1 hc => ?_⟩
  have hc' : c ∈ List.range' 1 64 := by
    rw [List.mem_range'_1] at *
    omega
  cases hx : (s.dock c).bike with
  | none => rfl
  | some x => simpa using hlow c hc' hc x hx

end Take

end Sys2Proof.Machine
end

