-- ==== Sys2Proof/Proofs/RiderReports.lean ====
section
/-! PROOFS. The tally of riders, and RIDER_REPORT of each source and target (R105, R117, R119 to R121). -/

namespace Sys2Proof.Machine

/-! ### The tally (R119) -/

section Tally

variable {who : Reporter} {now : Option Nat} {window : Nat} {t : List TallyEntry}

theorem pruneTally_sublist : (pruneTally now window t).Sublist t := by
  unfold pruneTally
  split
  · exact List.Sublist.refl t
  · exact List.filter_sublist

theorem mem_pruneTally {e : TallyEntry} :
    e ∈ pruneTally now window t ↔ e ∈ t ∧ ¬ ∃ n x, now = some n ∧ e.time = some x ∧ x + window ≤ n := by
  unfold pruneTally
  cases now with
  | none => simp
  | some n => cases ht : e.time <;> simp [ht]

/-- A reporter entered again stands where it stood. -/
theorem map_who_enterTally :
    (enterTally who now t).map (fun e => e.who) =
      if who ∈ t.map (fun e => e.who) then t.map (fun e => e.who) else t.map (fun e => e.who) ++ [who] := by
  unfold enterTally
  by_cases h : who ∈ t.map (fun e => e.who)
  · rw [if_pos h, if_pos (by simpa using h), List.map_map]
    refine List.map_congr_left fun e _ => ?_
    show (if e.who = who then { e with time := now } else e).who = e.who
    split <;> rfl
  · rw [if_neg h, if_neg (by simpa using h), List.map_append]
    rfl

theorem nodup_enterTally (h : (t.map (fun e => e.who)).Nodup) : ((enterTally who now t).map (fun e => e.who)).Nodup := by
  rw [map_who_enterTally]
  split
  · exact h
  · rename_i hn
    rw [List.nodup_append]
    exact ⟨h, List.nodup_singleton _, by simpa using hn⟩

theorem mem_enterTally_self : { who := who, time := now } ∈ enterTally who now t := by
  unfold enterTally
  split
  · rename_i h
    obtain ⟨e, he, hw⟩ := List.any_eq_true.1 h
    have hw : e.who = who := by simpa using hw
    exact List.mem_map.2 ⟨e, he, by rw [if_pos hw, ← hw]⟩
  · simp

/-- The others stand as they stood, in their order. -/
theorem filter_enterTally :
    (enterTally who now t).filter (fun e => e.who != who) = t.filter (fun e => e.who != who) := by
  unfold enterTally
  split
  · clear * -
    induction t with
    | nil => rfl
    | cons e t ih =>
      rw [List.map_cons]
      by_cases he : e.who = who
      · rw [if_pos he, List.filter_cons_of_neg (by simpa using he), List.filter_cons_of_neg (by simpa using he), ih]
      · rw [if_neg he, List.filter_cons_of_pos (by simpa using he), List.filter_cons_of_pos (by simpa using he), ih]
  · simp

theorem mem_enterTally_other {e : TallyEntry} (h : e.who ≠ who) : e ∈ enterTally who now t ↔ e ∈ t := by
  have same := congrArg (e ∈ ·) (filter_enterTally (who := who) (now := now) (t := t))
  simpa [h] using same

end Tally

/-! ### A report by a rider -/

/-- The reporter that a RIDER report names (R117). -/
theorem reporterOf_rider {s : State} {reporter : ReporterArg} {who : Reporter}
    (h : (∃ id, reporter = .member id ∧ 1 ≤ id ∧ id ≤ 99999999 ∧ who = .person id) ∨
      (∃ slot p, reporter = .passSlot slot ∧ 1 ≤ slot ∧ slot ≤ 32 ∧ s.pass slot = some p ∧ who = .pass slot p.serial) ∨
      (reporter = .anonymous ∧ who = .anonymous)) :
    reporterFails 1 reporter = false ∧ s.reporterOf reporter = some who := by
  obtain ⟨id, rfl, h1, h2, rfl⟩ | ⟨slot, p, rfl, h1, h2, hp, rfl⟩ | ⟨rfl, rfl⟩ := h
  · exact ⟨by simp [reporterFails]; omega, rfl⟩
  · exact ⟨by simp [reporterFails]; omega, by simp [State.reporterOf, hp]⟩
  · exact ⟨rfl, rfl⟩

section Row

variable {s : State} {d kind : Nat} {k : BikeFault} {who : Reporter} {b b' : Bike} {e : FaultEffect} {source : FaultSource}

@[simp] theorem attendEffect_heldAt (s : State) (e : FaultEffect) (bike : Nat) : (s.attendEffect e).heldAt bike = s.heldAt bike := by
  unfold State.attendEffect
  split
  · simp
  · rfl

/-- A report on a bike that no HELD entry links to. -/
theorem takeReport_unheld (hb : (s.dock d).bike = some b) (hf : 0 < s.free) (hn : s.faults = []) (hh : s.heldAt b.id = none)
    (hdec : s.decideReport b k (if source = .rider then some who else none) = (b', e)) :
    s.takeReport (.dock d) k source who =
      (({ (s.putDock d { s.dock d with bike := some b' }).post
          (.fault
            { subject := .bike, dock := some d, bikeId := some b'.id, tagBikeId := none, tagRef := none
              kind := some (.bike k), source := some source, cause := none, reporter := some who
              reporters := if source = .rider then some (s.reportersAfter b k who) else none
              confirmCount := if source = .rider then some (s.policy k).count else none
              effect := e, conditionAfter := some b'.condition, counterAfter := none, counterBefore := none
              dockState := none, bikeAbsent := false } s.faultsDropped) with faultsDropped := 0 } : State).attendEffect e,
        { status := .ok, result := .report (some b.id) (some d) e false }) := by
  rw [takeReport_dock hb, reportBike_posts hb hf hn hdec, waiveForReporter_none]
  rw [attendEffect_heldAt]
  exact (State.post_heldAt ..).trans ((State.putDock_heldAt ..).trans hh)

/-- The record of a report of a kind that is confirmed. -/
def State.confirmedReport (s : State) (d : Nat) (b : Bike) (k : BikeFault) (source : FaultSource) (who : Reporter) : State :=
  { s.post (.fault
      { subject := .bike, dock := some d, bikeId := some b.id, tagBikeId := none, tagRef := none
        kind := some (.bike k), source := some source, cause := none, reporter := some who
        reporters := if source = .rider then some (b.tally k).length else none
        confirmCount := if source = .rider then some (s.policy k).count else none
        effect := .noted, conditionAfter := some b.condition, counterAfter := none, counterBefore := none
        dockState := none, bikeAbsent := false } s.faultsDropped) with faultsDropped := 0 }

/-- A report of a kind that is confirmed leaves the bike as it is. -/
theorem takeReport_confirmed (hb : (s.dock d).bike = some b) (hf : 0 < s.free) (hn : s.faults = []) (hk : k ∈ b.faults) :
    s.takeReport (.dock d) k source who =
      ((s.confirmedReport d b k source who).waiveForReporter b.id k who,
        { status := .ok, result := .report (some b.id) (some d) .noted false }) := by
  have reporters : s.reportersAfter b k who = (b.tally k).length := if_pos (List.contains_iff_mem.2 hk)
  rw [takeReport_dock hb, reportBike_posts hb hf hn (decideReport_confirmed hk _), attendEffect_none (by decide),
    putDock_self (show { s.dock d with bike := some b } = s.dock d by rw [← hb]), reporters]
  rfl

end Row

/-- Settles O59: the tally after a report, and what the report does below the confirm count and at it. -/
theorem riderTally : Obligations.RiderTally := by
  refine ⟨fun who now window t ht => ?_, fun tag d kind reporter who k b s hs h1 h64 hwho hk hf hn hb hh hnk => ?_⟩
  · intro after
    have pruned : ((pruneTally now window t).map (fun e => e.who)).Nodup := ht.sublist (pruneTally_sublist.map _)
    refine ⟨nodup_enterTally pruned, mem_enterTally_self, fun e he => ?_, ?_⟩
    · exact (mem_enterTally_other he).trans mem_pruneTally
    · rw [filter_enterTally]
      exact List.filter_sublist.trans pruneTally_sublist
  · intro tally record gives
    obtain ⟨hr, hw⟩ := reporterOf_rider hwho
    have row {after : Bike} {e : FaultEffect} (hdec : s.decideReport b k (some who) = (after, e)) (hid : after.id = b.id)
        (he : e ≠ .conflict) : gives after e := by
      have reporters : s.reportersAfter b k who = tally.length := by
        unfold State.reportersAfter
        rw [if_neg (fun hc => hnk (List.contains_iff_mem.1 hc))]
        rfl
      refine exec_own rfl hs ?_
      refine (ownRiderReport_takes (target := .dock d) ⟨h1, h64⟩ hk (.inl rfl) hr hw).trans ?_
      rw [if_pos rfl, takeReport_unheld (source := .rider) hb hf hn hh hdec, reporters, hid]
      refine Prod.ext ?_ rfl
      unfold State.attendEffect
      by_cases hq : e = .quarantined
      · rw [if_pos (.inl hq), if_pos hq]
        rfl
      · rw [if_neg (by tauto), if_neg hq]
        rfl
    refine ⟨fun hlt => row (decideReport_rider_suspects hnk hlt) rfl (by decide), fun hle => ?_⟩
    intro confirmed
    have confirms := decideReport_rider_confirms hnk hle
    refine ⟨fun hc ha => row (confirms.trans (quarantineIf_quarantines (by rw [hc]; rfl) ha)) rfl (by decide),
      fun h => row (confirms.trans (quarantineIf_notes ?_)) rfl (by decide)⟩
    exact h.imp (fun hc => by rw [hc]; rfl) id

/-- The hirers of an entry that a member id reports for. -/
theorem reporter_person_iff (h : Hirer) (m : Nat) :
    h.reporter = .person m ↔ h = .member m ∨ h = .crew m ∨ h = .remote m := by
  cases h <;> simp [Hirer.reporter]

theorem add_quarantine_iff (a : Attention) : a = a.add .quarantine ↔ a.raised = true ∧ a.quarantine = true := by
  cases a
  simp [Attention.add]

/-- Settles O29: the ranges in their order, and the bike, the record and the waiver of a report in all of them. -/
theorem riderReportResult : Obligations.RiderReportResult := by
  refine ⟨fun tag d kind member k s hs h1 h64 hm1 hm2 hk hf hn => ?_, fun tag target kind source reporter s hs => ?_⟩
  · intro gives record
    have takes : ownRiderReport (.dock d) kind 2 (.member member) s = s.takeReport (.dock d) k .crew (.person member) :=
      ownRiderReport_takes (target := .dock d) ⟨h1, h64⟩ hk (.inr rfl) (by simp [reporterFails]; omega) rfl
    have row {t : State} {r : Reply} (h : s.takeReport (.dock d) k .crew (.person member) = (t, r)) : gives t r :=
      exec_own rfl hs (takes.trans h)
    refine ⟨fun hb => row ?_, fun b hb hh => ⟨fun hkin => row ?_, fun hkout => ?_⟩,
      fun b before e after link deadline hb hkin hentries he hbefore => ?_⟩
    · rw [takeReport_empty hb, reportAbsent_posts hf hn]
      simp only [record, hb]
      rfl
    · rw [takeReport_confirmed hb hf hn hkin, waiveForReporter_none]
      · simp only [record, hb]
        rfl
      · exact (State.post_heldAt ..).trans hh
    · intro confirmed quarantined
      have crew := decideReport_crew (s := s) hkout
      refine ⟨fun h => ?_, fun hc ha => ?_⟩
      · intro t
        refine row ((takeReport_unheld (source := .crew) hb hf hn hh
          (crew.trans (quarantineIf_notes (h.imp (fun hc => by rw [hc]; rfl) id)))).trans ?_)
        rw [attendEffect_none (by decide)]
        simp only [record, hb]
        rfl
      · intro t u
        have reported := takeReport_unheld (source := .crew) (who := .person member) hb hf hn hh
          (crew.trans (quarantineIf_quarantines (by rw [hc]; rfl) ha))
        rw [attendEffect_quarantined] at reported
        have attention : u.attention = s.attention := (State.post_attention ..).trans (State.putDock_attention ..)
        have gave : gives (u.setAttention .quarantine) { status := .ok, result := .report (some b.id) (some d) .quarantined false } := by
          refine row (reported.trans ?_)
          simp only [u, t, record, hb]
          rfl
        refine ⟨fun hset => ?_, fun hset => ?_⟩
        · rwa [setAttention_same (by rw [attention]; exact (add_quarantine_iff _).2 hset)] at gave
        · rw [setAttention_changes (by rw [attention]; exact fun hc => hset ((add_quarantine_iff _).1 hc)), attention] at gave
          exact gave
    · intro posted answer
      have confirmed : s.confirmedReport d b k .crew (.person member) = posted := by
        simp only [posted, record, hb]
        rfl
      have entries : posted.entries = before ++ e :: after := (State.post_entries ..).trans hentries
      have taken := takeReport_confirmed (source := .crew) (who := .person member) hb hf hn hkin
      rw [confirmed] at taken
      refine ⟨fun hw hh => row (taken.trans ?_), fun h => row (taken.trans ?_)⟩
      · rw [waiveForReporter_waives entries he hbefore hw ((reporter_person_iff _ _).2 hh)]
        refine Prod.ext ?_ rfl
        show posted.putSettle { posted.store.settle.cur with entries := _ } = posted.putSettle _
        rw [show posted.store.settle = s.store.settle from State.post_store_settle ..]
        rw [show posted.now = s.now from State.post_now ..]
      · rw [waiveForReporter_leaves entries he hbefore]
        refine h.imp id fun hh hc => ?_
        obtain ⟨ha, hb, hc'⟩ := hh
        exact ((reporter_person_iff _ _).1 hc).elim ha fun h => h.elim hb hc'
  · intro gives refuses
    have refused {f : Field} (h : riderRange target kind source reporter = some f) : refuses f :=
      exec_own rfl hs (ownRiderReport_range h)
    refine ⟨fun d ht hd => refused ?_, fun ht => refused ?_, fun c ht => refused ?_, fun ht => ⟨fun hkind => refused ?_,
      fun k hk => ⟨fun hsource => refused ?_, fun hsource => ⟨fun id hr hid => refused ?_, fun slot hr hslot => refused ?_,
        fun hr hsource2 => refused ?_, fun c hr => refused ?_, fun slot hr hsource1 hs1 hs32 hfree => ?_⟩,
        fun who hsource1 hwho => ?_, fun d b hd htarget hb hlow => ?_⟩⟩⟩
    · rw [ht]
      unfold riderRange
      dsimp only
      rw [if_pos (by omega)]
    · rw [ht]
      rfl
    · rw [ht]
      rfl
    all_goals
      have fits : targetFits target := by
        obtain ⟨d, rfl, h⟩ | ⟨b, rfl, h⟩ := ht <;> exact h
    · rw [riderRange_of_target fits, if_pos (by omega)]
    all_goals obtain ⟨h1, h8⟩ := bikeFaultOf_range hk
    · rw [riderRange_of_target fits, if_neg (by omega), if_pos (by omega)]
    · rw [riderRange_of_target fits, if_neg (by omega), if_neg (by omega), hr, if_pos (by simp [reporterFails]; omega)]
    · rw [riderRange_of_target fits, if_neg (by omega), if_neg (by omega), hr, if_pos (by simp [reporterFails]; omega)]
    · rw [riderRange_of_target fits, if_neg (by omega), if_neg (by omega), hr, hsource2]
      rfl
    · rw [riderRange_of_target fits, if_neg (by omega), if_neg (by omega), hr]
      rfl
    · refine exec_own rfl hs ?_
      show ownRiderReport target kind source reporter s = _
      unfold ownRiderReport
      rw [riderRange_of_target fits, if_neg (by omega), if_neg (by omega), hr, if_neg (by simp [reporterFails]; omega)]
      dsimp only
      rw [show s.reporterOf (.passSlot slot) = none by simp [State.reporterOf, hfree]]
      rfl
    · intro record posted hf hn
      subst hsource1
      obtain ⟨hfails, hnamed⟩ := reporterOf_rider hwho
      have takes := ownRiderReport_takes (s := s) fits hk (.inl rfl) hfails hnamed
      have row {t : State} {r : Reply} (h : s.takeReport target k .rider who = (t, r)) : gives t r :=
        exec_own rfl hs (takes.trans h)
      refine ⟨fun d htarget hb => row ?_, fun id htarget hno => row ?_,
        fun d b before e after link deadline htarget hb hkin hentries he hbefore => ?_⟩
      · rw [htarget, takeReport_empty hb, reportAbsent_posts hf hn]
      · rw [htarget, takeReport_unknown (dockOfBike_none hno), reportAbsent_posts hf hn]
      · intro noted answer hirers
        have hirers_iff : hirers = true ↔ e.close.hirer.reporter = who := by
          simp only [hirers]
          cases e.close.hirer <;> cases who <;> simp [Hirer.reporter]
        have taken := takeReport_confirmed (source := .rider) (who := who) hb hf hn hkin
        have confirmed : s.confirmedReport d b k .rider who = noted := rfl
        rw [confirmed, ← htarget] at taken
        have entries : noted.entries = before ++ e :: after := (State.post_entries ..).trans hentries
        refine ⟨fun hw hh => row (taken.trans ?_), fun h => row (taken.trans ?_)⟩
        · rw [waiveForReporter_waives entries he hbefore hw (hirers_iff.1 hh)]
          refine Prod.ext ?_ rfl
          show noted.putSettle { noted.store.settle.cur with entries := _ } = noted.putSettle _
          rw [show noted.store.settle = s.store.settle from State.post_store_settle ..]
          rw [show noted.now = s.now from State.post_now ..]
        · rw [waiveForReporter_leaves entries he hbefore]
          exact h.imp id fun hh hc => by rw [hirers_iff.2 hc] at hh; cases hh
    · have hid : b.id ≠ 0 := by rwa [htarget] at fits
      have found := dockOfBike_lowest hid hd hb rfl hlow
      have hrange : targetFits (.dock d) := by
        unfold dockNumbers at hd
        rw [List.mem_range'_1] at hd
        exact ⟨hd.1, by omega⟩
      have same : ownRiderReport (.dock d) kind source reporter s = ownRiderReport target kind source reporter s := by
        unfold ownRiderReport
        rw [riderRange_of_target fits, riderRange_of_target hrange, htarget]
        simp only [takeReport_bike hb found]
      exact ⟨(ownRiderReport target kind source reporter s).1, (ownRiderReport target kind source reporter s).2,
        exec_own rfl hs rfl, exec_own rfl hs same⟩

end Sys2Proof.Machine
end

