-- ==== Sys2Proof/Proofs/Finalise.lean ====
section
/-! PROOFS. The finalise of a HELD entry: its charge, its mark, and its close posted or waiting; the settle deadline and the
offline timer (R18, R70, R104 to R110, R126, R127). -/

namespace Sys2Proof.Machine

/-! ### What a charge leaves (R70) -/

section Charge

variable {s : State}

@[simp] theorem settlePass_dock (slot d : Nat) : (s.settlePass slot).dock d = s.dock d := by
  unfold State.settlePass
  split
  · rfl
  · split <;> simp

@[simp] theorem chargeAndMove_dock (slot : Nat) (p : Pass) (n d : Nat) : (s.chargeAndMove slot p n).dock d = s.dock d := by
  unfold State.chargeAndMove State.enterSettling
  split <;> simp

@[simp] theorem chargeClose_dock (ref : HireRef) (h : Hirer) (fare d : Nat) : (s.chargeClose ref h fare).1.dock d = s.dock d := by
  unfold State.chargeClose
  repeat' split
  all_goals simp

@[simp] theorem settlePass_store_settle (slot : Nat) : (s.settlePass slot).store.settle = s.store.settle := by
  unfold State.settlePass
  split
  · rfl
  · split <;> simp

@[simp] theorem chargeAndMove_store_settle (slot : Nat) (p : Pass) (n : Nat) :
    (s.chargeAndMove slot p n).store.settle = s.store.settle := by
  unfold State.chargeAndMove State.enterSettling
  split <;> simp

@[simp] theorem chargeClose_store_settle (ref : HireRef) (h : Hirer) (fare : Nat) :
    (s.chargeClose ref h fare).1.store.settle = s.store.settle := by
  unfold State.chargeClose
  repeat' split
  all_goals simp

variable {ref : HireRef} {h : Hirer} {fare slot serial : Nat} {p : Pass}

theorem chargeClose_noPass (hh : ∀ slot serial, h ≠ .pass slot serial) : s.chargeClose ref h fare = (s, .noPass) := by
  unfold State.chargeClose
  split
  · rename_i slot serial
    exact absurd rfl (hh slot serial)
  · rfl

theorem chargeClose_absent
    (hp : ∀ p, s.pass slot = some p → ¬ (p.serial = serial ∧ p.state = .closing ∧ p.current = some ref)) :
    s.chargeClose ref (.pass slot serial) fare = (s, .absent) := by
  unfold State.chargeClose
  dsimp only
  rw [passRides_none hp]

theorem chargeClose_charges (hp : s.pass slot = some p) (hs : p.serial = serial) (hx : p.state = .closing)
    (hc : p.current = some ref) :
    s.chargeClose ref (.pass slot serial) fare =
      (s.chargeAndMove slot p fare, .charged (min fare p.balance) (fare - min fare p.balance)) := by
  unfold State.chargeClose
  dsimp only
  rw [passRides_some hp hs hx hc]

end Charge

/-! ### The finalise (R107 to R109) -/

section Finalise

variable {s t : State} {before after : List SettleEntry} {e : SettleEntry} {bike dock deadline : Nat} {cause : FinalCause}
  {pass : PassResult}

theorem finalFare_eq (e : SettleEntry) : e.finalFare = if e.waiver = none then e.close.fare else 0 := by
  unfold SettleEntry.finalFare
  cases e.waiver <;> rfl

/-- The settling mark of the bike that an entry links to is cleared. -/
theorem unmark_eq {b : Bike} (hb : (s.dock dock).bike = some b) (hid : b.id = bike) :
    s.unmark dock bike =
      s.putDock dock { s.dock dock with bike := (s.dock dock).bike.map (fun b => { b with settling := false }) } := by
  unfold State.unmark
  rw [if_pos (by simp [hb, hid])]
  rfl

theorem finalise_posts (hs : s.entries = before ++ e :: after) (he : e.stage = .held bike dock deadline)
    (hc : s.chargeClose e.close.ref e.close.hirer e.finalFare = (t, pass)) (hf : 0 < (t.unmark dock bike).free) :
    s.finalise before.length cause =
      ((t.unmark dock bike).post (.hireClose e.close e.waiver cause s.now pass s.store.settle.cur.lost)).putSettle
        { entries := before ++ after, lost := 0 } := by
  have settled : Settled s t := by
    have := Settled.chargeClose (s := s) e.close.ref e.close.hirer e.finalFare
    rwa [hc] at this
  have settle : (t.unmark dock bike).store.settle = s.store.settle := by
    have charged : t.store.settle = s.store.settle := by
      have := chargeClose_store_settle (s := s) (ref := e.close.ref) (h := e.close.hirer) (fare := e.finalFare)
      rwa [hc] at this
    rw [← charged]
    unfold State.unmark State.markSettling
    split <;> simp
  have erased : (t.unmark dock bike).entries.eraseIdx before.length = before ++ after := by
    show (t.unmark dock bike).store.settle.cur.entries.eraseIdx before.length = _
    rw [settle]
    show s.entries.eraseIdx before.length = _
    rw [hs, List.eraseIdx_append_of_length_le le_rfl, Nat.sub_self, List.eraseIdx_cons_zero]
  unfold State.finalise
  rw [entries_getElem_split hs]
  dsimp only
  rw [he]
  dsimp only
  rw [hc]
  dsimp only
  rw [if_pos hf]
  unfold State.postClose
  rw [erased, settle]

theorem finalise_waits (hs : s.entries = before ++ e :: after) (he : e.stage = .held bike dock deadline)
    (hc : s.chargeClose e.close.ref e.close.hirer e.finalFare = (t, pass)) (hf : (t.unmark dock bike).free = 0) :
    s.finalise before.length cause =
      (t.unmark dock bike).putSettle
        { entries := before ++ { e with stage := .waiting cause s.now pass } :: after, lost := s.store.settle.cur.lost } := by
  have settle : (t.unmark dock bike).store.settle = s.store.settle := by
    have charged : t.store.settle = s.store.settle := by
      have := chargeClose_store_settle (s := s) (ref := e.close.ref) (h := e.close.hirer) (fare := e.finalFare)
      rwa [hc] at this
    rw [← charged]
    unfold State.unmark State.markSettling
    split <;> simp
  have marked : (t.unmark dock bike).entries.set before.length { e with stage := .waiting cause s.now pass } =
      before ++ { e with stage := .waiting cause s.now pass } :: after := by
    show (t.unmark dock bike).store.settle.cur.entries.set before.length _ = _
    rw [settle]
    show s.entries.set before.length _ = _
    rw [hs]
    simp
  unfold State.finalise
  rw [entries_getElem_split hs]
  dsimp only
  rw [he]
  dsimp only
  rw [hc]
  dsimp only
  rw [if_neg (by omega)]
  unfold State.putEntries
  rw [marked, settle]

/-- The state in which the settling mark of the bike in a dock is cleared. -/
def State.clearedMark (t s : State) (dock : Nat) : State :=
  t.putDock dock { s.dock dock with bike := (s.dock dock).bike.map (fun b => { b with settling := false }) }

/-- The finalise of the HELD entry of a bike that stands in its dock, by the charge of its hirer. -/
theorem finalise_closes {b : Bike} (hs : s.entries = before ++ e :: after) (he : e.stage = .held bike dock deadline)
    (hb : (s.dock dock).bike = some b) (hid : b.id = bike)
    (hc : s.chargeClose e.close.ref e.close.hirer e.finalFare = (t, pass)) :
    (0 < t.free →
      s.finalise before.length cause =
        ((t.clearedMark s dock).post (.hireClose e.close e.waiver cause s.now pass s.store.settle.cur.lost)).putSettle
          { entries := before ++ after, lost := 0 }) ∧
      (t.free = 0 →
        s.finalise before.length cause =
          (t.clearedMark s dock).putSettle
            { entries := before ++ { e with stage := .waiting cause s.now pass } :: after
              lost := s.store.settle.cur.lost }) := by
  have docks : t.dock dock = s.dock dock := by
    have := chargeClose_dock (s := s) (ref := e.close.ref) (h := e.close.hirer) (fare := e.finalFare) (d := dock)
    rwa [hc] at this
  have unmarked : t.unmark dock bike = t.clearedMark s dock := by
    rw [unmark_eq (s := t) (by rw [docks, hb]) hid, docks]
    rfl
  have free : (t.unmark dock bike).free = t.free := by rw [unmarked]; exact State.putDock_free ..
  refine ⟨fun hf => ?_, fun hf => ?_⟩
  · rw [finalise_posts hs he hc (by omega), unmarked]
  · rw [finalise_waits hs he hc (by omega), unmarked]

theorem settleDock_finalises {d : Nat} {b : Bike} {reason : EarlyReason} (hs : s.entries = before ++ e :: after)
    (he : e.stage = .held bike dock deadline) (hbefore : ∀ x ∈ before, x.linksTo bike = false)
    (hb : (s.dock d).bike = some b) (hset : b.settling = true) (hid : b.id = bike) :
    s.settleDock d reason = s.finalise before.length (.earlyFinal reason) := by
  unfold State.settleDock
  rw [hb]
  dsimp only
  rw [if_pos hset, hid]
  unfold State.finaliseBike
  rw [heldAt_split hs he hbefore]

theorem settleDock_quiet {d : Nat} {reason : EarlyReason} (h : ∀ b, (s.dock d).bike = some b → b.settling = false) :
    s.settleDock d reason = s := by
  unfold State.settleDock
  split
  · rename_i b hb
    exact if_neg (by simp [h b hb])
  · rfl

theorem settleDock_unheld {d : Nat} {b : Bike} {reason : EarlyReason} (hb : (s.dock d).bike = some b)
    (h : s.heldAt b.id = none) : s.settleDock d reason = s := by
  unfold State.settleDock
  rw [hb]
  dsimp only
  split
  · unfold State.finaliseBike
    rw [h]
  · rfl

theorem heldAt_none (h : ∀ e ∈ s.entries, e.linksTo bike = false) : s.heldAt bike = none := List.findIdx?_eq_none_iff.2 h

theorem settleDue_none (h : s.heldAt bike = none) : s.settleDue bike = s := by
  unfold State.settleDue
  rw [h]

theorem settleDue_split (hs : s.entries = before ++ e :: after) (he : e.stage = .held bike dock deadline)
    (hbefore : ∀ x ∈ before, x.linksTo bike = false) :
    s.settleDue bike = if deadline ≤ s.elapsed then s.finalise before.length .deadline else s := by
  unfold State.settleDue
  rw [heldAt_split hs he hbefore]
  dsimp only
  rw [entries_getElem_split hs]
  dsimp only
  rw [he]

end Finalise

/-! ### The offline timer (R126, R127) -/

section Offline

variable {s : State} {d t : Nat}

theorem offlineDue_stops (h : entryAt s.offlineAt d = some (some t)) (ht : t ≤ s.elapsed) :
    s.offlineDue d = (s.cancelOffline d).setAttention .offline := by
  unfold State.offlineDue
  rw [h]
  exact if_pos ht

theorem offlineDue_runs (h : ∀ t, entryAt s.offlineAt d = some (some t) → s.elapsed < t) : s.offlineDue d = s := by
  unfold State.offlineDue
  cases hd : entryAt s.offlineAt d with
  | none => rfl
  | some x =>
    cases x with
    | none => rfl
    | some t => exact if_neg (by have := h t hd; omega)

theorem add_offline_iff (a : Attention) : a = a.add .offline ↔ a.raised = true ∧ a.offline = true := by
  cases a
  simp [Attention.add]

end Offline

/-- Settles O55: the timer by the elapsed base, and the finalise by the pass of its hirer. -/
theorem offlineAndSettleDeadlines : Obligations.OfflineAndSettleDeadlines := by
  refine ⟨fun d s hs => ⟨fun t ht hle => ?_, fun h => ?_⟩, fun bike s => ⟨fun before e after dock deadline hentries he hbefore => ?_,
    fun h => ⟨fun hs => ?_, fun d b reason hb hid => ?_⟩, fun d reason h => settleDock_quiet h⟩⟩
  · intro stopped
    have due : s.offlineDue d = stopped.setAttention .offline := offlineDue_stops ht hle
    refine ⟨fun h => exec_row (f := fun s => s.offlineDue d) rfl hs (due.trans ?_) rfl,
      fun h => exec_row (f := fun s => s.offlineDue d) rfl hs (due.trans ?_) rfl⟩
    · exact setAttention_same (s := stopped) ((add_offline_iff _).2 h)
    · exact setAttention_changes (s := stopped) fun hc => h ((add_offline_iff _).1 hc)
  · exact exec_row (f := fun s => s.offlineDue d) rfl hs (offlineDue_runs h) rfl
  · intro fare finalised
    have fareEq : e.finalFare = fare := finalFare_eq e
    have finalises (cause : FinalCause) (gives : State → Prop)
        (hg : ∀ t, s.finalise before.length cause = t → t.power = s.power → gives t) : finalised cause gives := by
      intro hids hne closes
      obtain ⟨b, hb⟩ := Option.ne_none_iff_exists'.1 hne
      have closed {t : State} {pass : PassResult} (hc : s.chargeClose e.close.ref e.close.hirer fare = (t, pass)) :
          closes t pass := by
        have power : t.power = s.power := by
          have := (Settled.chargeClose (s := s) e.close.ref e.close.hirer fare).power
          rwa [hc] at this
        rw [← fareEq] at hc
        obtain ⟨posts, waits⟩ := finalise_closes (cause := cause) hentries he hb (hids b hb) hc
        refine ⟨fun hf => hg _ (posts hf) ?_, fun hf => hg _ (waits hf) ?_⟩
        · exact (State.post_power ..).trans ((State.putDock_power ..).trans power)
        · exact (State.putDock_power ..).trans power
      refine ⟨fun hh => closed (chargeClose_noPass hh), fun slot serial hh => ⟨fun hp => closed ?_,
        fun p hp hserial hx hcur => ?_⟩⟩
      · rw [hh]
        exact chargeClose_absent hp
      · intro charge charged
        have charges := chargeClose_charges (fare := fare) hp hserial hx hcur
        rw [← hh] at charges
        refine ⟨fun hk ht => closed (charges.trans ?_), fun hk => ?_⟩
        · rw [chargeAndMove_idle (stateAfterRide_idle hk ht)]
          rfl
        · intro settling
          have enters : s.chargeAndMove slot p fare = s.enterSettling slot (p.charge fare) :=
            chargeAndMove_settling (stateAfterRide_settling hk)
          refine ⟨fun hf => closed (charges.trans ?_), fun hf => closed (charges.trans ?_)⟩
          · rw [enters, enterSettling_posts hp hf]
            rfl
          · rw [enters, enterSettling_waits hf]
            rfl
    refine ⟨fun hs => ⟨fun hlt => ?_, fun hle => ?_⟩, fun d b reason hb hset hid => ?_⟩
    · refine exec_row (f := fun s => s.settleDue bike) rfl hs ?_ rfl
      show s.settleDue bike = s
      rw [settleDue_split hentries he hbefore, if_neg (by omega)]
    · refine finalises .deadline (fun t => exec (.settleDeadline bike) s = .next (t.finish s)) fun t ht hpower => ?_
      refine exec_row (f := fun s => s.settleDue bike) rfl hs ?_ hpower
      show s.settleDue bike = t
      rw [settleDue_split hentries he hbefore, if_pos hle, ht]
    · refine finalises (.earlyFinal reason) _ fun t ht _ => ?_
      rw [settleDock_finalises hentries he hbefore hb hset hid, ht]
  · exact exec_row (f := fun s => s.settleDue bike) rfl hs (settleDue_none (heldAt_none h)) rfl
  · exact settleDock_unheld hb (heldAt_none (hid ▸ h))

end Sys2Proof.Machine
end

