-- ==== Sys2Proof/Proofs/VanSessions.lean ====
section
/-! PROOFS. The reservation of a dock, the end of a van session with its summary, VAN_RELEASE and VAN_CLOSE (R139 to R141, R149
to R155, R158). -/

namespace Sys2Proof.Machine

/-! ### A reservation placed or dropped (R139) -/

section Reserve

variable {s : State} {d e : Nat} {r : Reservation}

/-- Placing a reservation writes the dock and raises both notices. -/
theorem putReservation_eq (s : State) (d : Nat) (r : Reservation) :
    s.putReservation d r =
      { s with
        docks := setEntry s.docks d { s.dock d with reservation := r }
        link := { s.link with marks := { s.link.marks with dockState := true, vanState := true } } } := by
  unfold State.putReservation State.putDock
  dsimp only
  split <;> rfl

theorem dock_putReservation_same (h : s.dock d ≠ .atStart false) :
    (s.putReservation d r).dock d = { s.dock d with reservation := r } := by
  rw [putReservation_eq]
  refine (dock_setEntry s d d _).trans (if_pos ⟨rfl, Option.isSome_iff_ne_none.2 fun he => h ?_⟩)
  unfold State.dock
  rw [he]
  rfl

theorem dock_putReservation_ne (h : e ≠ d) : (s.putReservation d r).dock e = s.dock e := by
  rw [putReservation_eq]
  exact (dock_setEntry s d e _).trans (if_neg fun hc => h hc.1)

/-- Outside the table a dock has no reservation to drop. -/
theorem dock_dropReservation (s : State) (d e : Nat) :
    (s.putReservation d .unreserved).dock e = if e = d then { s.dock e with reservation := .unreserved } else s.dock e := by
  by_cases he : e = d
  · subst he
    rw [if_pos rfl]
    by_cases h : s.dock e = .atStart false
    · rw [putReservation_eq]
      refine (dock_setEntry s e e _).trans ?_
      rw [h]
      split <;> rfl
    · exact dock_putReservation_same h
  · rw [if_neg he, dock_putReservation_ne he]

end Reserve

/-! ### Several reservations dropped (R150) -/

section Drop

/-- The state with the reservations of some docks dropped. -/
def State.dropAll (s : State) (l : List Nat) : State := l.foldl (fun t d => t.putReservation d .unreserved) s

theorem dropAll_eq (s : State) (l : List Nat) :
    s.dropAll l =
      { s with
        docks := (s.dropAll l).docks
        link := { s.link with marks := { s.link.marks with
          dockState := s.link.marks.dockState || !l.isEmpty, vanState := s.link.marks.vanState || !l.isEmpty } } } := by
  induction l generalizing s with
  | nil => simp [State.dropAll]
  | cons d l ih =>
    have step : s.dropAll (d :: l) = (s.putReservation d .unreserved).dropAll l := rfl
    rw [step, ih, putReservation_eq]
    simp

theorem dropAll_dock (s : State) (l : List Nat) (d : Nat) :
    (s.dropAll l).dock d = if d ∈ l then { s.dock d with reservation := .unreserved } else s.dock d := by
  induction l generalizing s with
  | nil => rfl
  | cons e l ih =>
    have step : s.dropAll (e :: l) = (s.putReservation e .unreserved).dropAll l := rfl
    rw [step, ih, dock_dropReservation]
    by_cases hd : d = e
    · subst hd
      rw [if_pos rfl, if_pos List.mem_cons_self, ite_self]
    · rw [if_neg hd]
      simp [hd]

end Drop

/-! ### The end of a session (R150, R151, R153) -/

section Ending

variable {s : State}

theorem vanReleases_congr {s t : State} (h : ∀ d ∈ dockNumbers, (t.dock d).release = (s.dock d).release) :
    t.vanReleases = s.vanReleases := by
  unfold State.vanReleases
  exact List.filter_congr fun d hd => by rw [h d hd]

theorem closeUp_waits (h : s.vanReleases ≠ []) : s.closeUp = s := by
  unfold State.closeUp
  split
  · exact if_pos h
  · rfl

theorem closeUp_posts {ending : VanEnding} (hp : s.van.phase = .closing) (he : s.van.ending = some ending)
    (hs : s.van.summary = none) (hr : s.vanReleases = []) (hm : s.van.moves = []) (hf : 0 < s.free) :
    s.closeUp = s.postSummary (s.van.summaryOf ending) := by
  unfold State.closeUp
  rw [hp, he, hs]
  exact (if_neg (by simp [hr])).trans (if_pos ⟨hm, hf⟩)

theorem closeUp_holds {ending : VanEnding} (hp : s.van.phase = .closing) (he : s.van.ending = some ending)
    (hs : s.van.summary = none) (hr : s.vanReleases = []) (hw : s.van.moves ≠ [] ∨ s.free = 0) :
    s.closeUp = { s with van := { s.van with summary := some (s.van.summaryOf ending) } } := by
  unfold State.closeUp
  rw [hp, he, hs]
  exact (if_neg (by simp [hr])).trans (if_neg fun hc => hw.elim (fun h => h hc.1) (fun h => by omega))

/-- The summary posted leaves the session IDLE, with VAN_STATE raised. -/
theorem postSummary_eq {v : VanSummary} (h : s.van.phase ≠ .idle) :
    s.postSummary v = ({ s.post (.vanSummary v) with van := .idleWith s.van.counter } : State).raise .vanState := by
  unfold State.postSummary State.putVan
  dsimp only
  rw [State.post_van]
  exact if_neg fun hc => h hc.1

theorem not_isEmpty_filter {α : Type} (p : α → Bool) (l : List α) : (!(l.filter p).isEmpty) = l.any p := by
  induction l with
  | nil => rfl
  | cons a l ih => cases h : p a <;> simp [h, ih]

/-- Whether the end of a session drops a reservation. -/
theorem droppable_isEmpty (s : State) :
    (!s.droppable.isEmpty) =
      dockNumbers.any (fun d => (s.dock d).reservation != .unreserved && !s.vanReleases.contains d) :=
  not_isEmpty_filter _ _

/-- A session that has its ending, before its summary is made: its reservations without a VAN release are dropped (R150). -/
def State.ended (s : State) (endedBy : EndedBy) (outcome : VanOutcome) : State :=
  { s with
    docks := (s.dropAll s.droppable).docks
    van := { s.van with
      phase := .closing, idleAt := none, ending := some { endedBy := endedBy, outcome := outcome, time := s.now } }
    link := { s.link with marks := { s.link.marks with
      vanState := true
      dockState := s.link.marks.dockState ||
        dockNumbers.any (fun d => (s.dock d).reservation != .unreserved && !s.vanReleases.contains d) } } }

theorem endSession_eq (h : s.van.phase ≠ .closing) (endedBy : EndedBy) (outcome : VanOutcome) :
    s.endSession endedBy outcome = (s.ended endedBy outcome).closeUp := by
  have dropped := dropAll_eq s s.droppable
  have van : (s.dropAll s.droppable).van = s.van := (congrArg State.van dropped :)
  unfold State.endSession
  show ((s.dropAll s.droppable).putVan { (s.dropAll s.droppable).van with
    phase := .closing, idleAt := none
    ending := some { endedBy := endedBy, outcome := outcome, time := s.now } }).closeUp = _
  congr 1
  unfold State.putVan
  dsimp only
  rw [van, if_neg (fun hc => h hc.1)]
  unfold State.ended
  rw [← droppable_isEmpty]
  conv_lhs => rw [dropped]
  rfl

theorem ended_dock (s : State) (endedBy : EndedBy) (outcome : VanOutcome) (d : Nat) :
    (s.ended endedBy outcome).dock d =
      if d ∈ s.droppable then { s.dock d with reservation := .unreserved } else s.dock d := dropAll_dock s s.droppable d

theorem ended_vanReleases (s : State) (endedBy : EndedBy) (outcome : VanOutcome) :
    (s.ended endedBy outcome).vanReleases = s.vanReleases := by
  refine vanReleases_congr fun d _ => ?_
  rw [ended_dock]
  split <;> rfl

/-- The docks after the end of a session: those with a VAN release keep their reservation. -/
theorem ended_dock_iff {d : Nat} (hd : d ∈ dockNumbers) (endedBy : EndedBy) (outcome : VanOutcome) :
    (s.ended endedBy outcome).dock d =
      if d ∈ s.vanReleases then s.dock d else { s.dock d with reservation := .unreserved } := by
  rw [ended_dock]
  unfold State.droppable
  by_cases hr : d ∈ s.vanReleases
  · rw [if_pos hr, if_neg (by simp [hr])]
  · rw [if_neg hr]
    by_cases hu : (s.dock d).reservation = .unreserved
    · rw [if_neg (by simp [hu]), ← hu]
    · rw [if_pos (by simp [hd, hr, hu])]

theorem State.post_withVanDocksLink (s : State) (v : Van) (ds : List Dock) (l : Link) (b : Body) :
    ({ s with van := v, docks := ds, link := l } : State).post b =
      { s.post b with van := v, docks := ds, link := l } := by
  unfold State.post
  dsimp only
  split <;> rfl

/-- What the end of a session leaves where a VAN release is in flight. -/
theorem endSession_inFlight (h : s.van.phase ≠ .closing) (hr : s.vanReleases ≠ []) (endedBy : EndedBy)
    (outcome : VanOutcome) : s.endSession endedBy outcome = s.ended endedBy outcome := by
  rw [endSession_eq h, closeUp_waits (by rwa [ended_vanReleases])]

/-- With none in flight its summary is posted, and the session is IDLE. -/
theorem endSession_posts (h : s.van.phase ≠ .closing) (hs : s.van.summary = none) (hr : s.vanReleases = [])
    (hm : s.van.moves = []) (hf : 0 < s.free) (endedBy : EndedBy) (outcome : VanOutcome) :
    s.endSession endedBy outcome =
      { s.post (.vanSummary (s.van.summaryOf { endedBy := endedBy, outcome := outcome, time := s.now })) with
        van := .idleWith s.van.counter
        docks := (s.ended endedBy outcome).docks
        link := (s.ended endedBy outcome).link } := by
  rw [endSession_eq h, closeUp_posts (s := s.ended endedBy outcome) rfl rfl hs (by rwa [ended_vanReleases]) hm hf, postSummary_eq (by simp [State.ended])]
  have posted := State.post_withVanDocksLink s (s.ended endedBy outcome).van (s.ended endedBy outcome).docks
    (s.ended endedBy outcome).link (.vanSummary (s.van.summaryOf { endedBy := endedBy, outcome := outcome, time := s.now }))
  have summary : (s.ended endedBy outcome).van.summaryOf { endedBy := endedBy, outcome := outcome, time := s.now } =
      s.van.summaryOf { endedBy := endedBy, outcome := outcome, time := s.now } := rfl
  rw [summary, show s.ended endedBy outcome = { s with
    van := (s.ended endedBy outcome).van, docks := (s.ended endedBy outcome).docks
    link := (s.ended endedBy outcome).link } from rfl, posted]
  rfl

/-- Or it waits, where a move waits or no slot is free. -/
theorem endSession_holds (h : s.van.phase ≠ .closing) (hs : s.van.summary = none) (hr : s.vanReleases = [])
    (hw : s.van.moves ≠ [] ∨ s.free = 0) (endedBy : EndedBy) (outcome : VanOutcome) :
    s.endSession endedBy outcome =
      { s.ended endedBy outcome with
        van := { (s.ended endedBy outcome).van with
          summary := some (s.van.summaryOf { endedBy := endedBy, outcome := outcome, time := s.now }) } } := by
  rw [endSession_eq h, closeUp_holds (s := s.ended endedBy outcome) rfl rfl hs (by rwa [ended_vanReleases]) hw]
  rfl

/-- Docks and link are the same whether the summary is posted or waits. -/
theorem endSession_frame (h : s.van.phase ≠ .closing) (hs : s.van.summary = none) (endedBy : EndedBy)
    (outcome : VanOutcome) :
    (s.endSession endedBy outcome).docks = (s.ended endedBy outcome).docks ∧
      (s.endSession endedBy outcome).link = (s.ended endedBy outcome).link := by
  by_cases hr : s.vanReleases = []
  · by_cases hm : s.van.moves = [] ∧ 0 < s.free
    · rw [endSession_posts h hs hr hm.1 hm.2]
      exact ⟨rfl, rfl⟩
    · rw [endSession_holds h hs hr (by by_cases hm' : s.van.moves = []; exact .inr (by simp [hm'] at hm; omega); exact .inl hm')]
      exact ⟨rfl, rfl⟩
  · rw [endSession_inFlight h hr]
    exact ⟨rfl, rfl⟩

theorem endSession_dock {d : Nat} (h : s.van.phase ≠ .closing) (hs : s.van.summary = none) (hd : d ∈ dockNumbers)
    (endedBy : EndedBy) (outcome : VanOutcome) :
    (s.endSession endedBy outcome).dock d =
      if d ∈ s.vanReleases then s.dock d else { s.dock d with reservation := .unreserved } := by
  rw [← ended_dock_iff hd endedBy outcome]
  unfold State.dock
  rw [(endSession_frame h hs endedBy outcome).1]

end Ending

/-! ### VAN_RELEASE (R140, R141, R149) -/

section Release

variable {s : State} {d n : Nat}

/-- The state with the idle deadline restarted. -/
def State.waited (s : State) : State :=
  { s with van := { s.van with idleAt := some (s.elapsed + s.settings.vanIdleTimeout * 1000) } }

theorem restartIdle_active (h : s.van.phase = .active) : s.restartIdle = s.waited := if_pos h

theorem restartIdle_other (h : s.van.phase ≠ .active) : s.restartIdle = s := if_neg h

theorem vanRoom_false : s.vanRoom = false ↔ 64 ≤ s.van.moves.length + s.vanReleases.length :=
  decide_eq_false_iff_not.trans not_lt

theorem ownVanRelease_range (h : d = 0 ∨ 64 < d) : ownVanRelease d s = (s.restartIdle, .range .dock) := if_pos (by omega)

theorem ownVanRelease_closed (h1 : 1 ≤ d) (h64 : d ≤ 64) (h : s.van.phase ≠ .active) :
    ownVanRelease d s = (s, .plain .conflict) := (if_neg (by omega)).trans (if_pos h)

/-- In an ACTIVE session the dock's reservation decides. -/
theorem ownVanRelease_active (h1 : 1 ≤ d) (h64 : d ≤ 64) (h : s.van.phase = .active) :
    ownVanRelease d s =
      match (s.dock d).reservation with
      | .collect n =>
        if s.vanRoom = false then (s.waited, .refused .journalFull)
        else
          match (s.dock d).vanRefusal with
          | some r => (s.waited, .refused r)
          | none => (s.waited.beginVan d n false, .plain .ok)
      | .deliver _ => (s.waited, .refused .notReserved)
      | .unreserved => (s.waited, .refused .notReserved) := by
  unfold ownVanRelease
  rw [if_neg (by omega), if_neg (not_not.2 h), restartIdle_active h]
  rfl

theorem ownVanRelease_unreserved (h1 : 1 ≤ d) (h64 : d ≤ 64) (h : s.van.phase = .active)
    (hn : ∀ n, (s.dock d).reservation ≠ .collect n) : ownVanRelease d s = (s.waited, .refused .notReserved) := by
  rw [ownVanRelease_active h1 h64 h]
  cases hr : (s.dock d).reservation with
  | unreserved => rfl
  | collect n => exact absurd hr (hn n)
  | deliver n => rfl

theorem ownVanRelease_full (h1 : 1 ≤ d) (h64 : d ≤ 64) (h : s.van.phase = .active)
    (hn : (s.dock d).reservation = .collect n) (hfull : 64 ≤ s.van.moves.length + s.vanReleases.length) :
    ownVanRelease d s = (s.waited, .refused .journalFull) := by
  rw [ownVanRelease_active h1 h64 h, hn]
  exact if_pos (vanRoom_false.2 hfull)

theorem ownVanRelease_refused {r : Reason} (h1 : 1 ≤ d) (h64 : d ≤ 64) (h : s.van.phase = .active)
    (hn : (s.dock d).reservation = .collect n) (hroom : s.van.moves.length + s.vanReleases.length < 64)
    (hr : (s.dock d).vanRefusal = some r) : ownVanRelease d s = (s.waited, .refused r) := by
  rw [ownVanRelease_active h1 h64 h, hn]
  dsimp only
  rw [if_neg (fun hc => absurd (vanRoom_false.1 hc) (by omega)), hr]

theorem ownVanRelease_begins (h1 : 1 ≤ d) (h64 : d ≤ 64) (h : s.van.phase = .active)
    (hn : (s.dock d).reservation = .collect n) (hroom : s.van.moves.length + s.vanReleases.length < 64)
    (ho : (s.dock d).state = .occupied) : ownVanRelease d s = (s.waited.beginVan d n false, .plain .ok) := by
  rw [ownVanRelease_active h1 h64 h, hn]
  dsimp only
  rw [if_neg (fun hc => absurd (vanRoom_false.1 hc) (by omega)), show (s.dock d).vanRefusal = none by
    unfold Dock.vanRefusal
    rw [ho]]

/-- A VAN release begins as every release does, TAG_CLEAR being issued. -/
theorem beginVan_eq (s : State) (d n : Nat) (fromDock : Bool) :
    s.beginVan d n fromDock =
      ((s.settleDock d .release).putDock d { (s.settleDock d .release).dock d with
          state := .tagWriting
          release := some
            { party := .van s.van.crew n, credit := 0, origin := (s.dock d).origin, fromDock := fromDock
              expiryHeld := false } }).issue d (.tagClear .vanRelease) := rfl

end Release

/-- Settles O31: the answers in their order, and the end of the session by its VAN releases, moves and slots. -/
theorem vanReleaseAndClose : Obligations.VanReleaseAndClose := by
  refine ⟨fun tag d s hs => ?_, fun tag session s hs => ?_⟩
  · intro gives waited
    have row {t : State} {r : Reply} (h : ownVanRelease d s = (t, r)) : gives t r := exec_own rfl hs h
    refine ⟨fun hd => ⟨fun hp => row ?_, fun hp => row ?_⟩, fun h1 h64 hp => row (ownVanRelease_closed h1 h64 hp),
      fun h1 h64 hp hn => row (ownVanRelease_unreserved h1 h64 hp hn), fun n h1 h64 hp hn =>
        ⟨fun hfull => row (ownVanRelease_full h1 h64 hp hn hfull), fun hroom hx => row ?_, fun hroom hx ho => row ?_,
          fun hroom ho => ?_⟩⟩
    · rw [ownVanRelease_range hd, restartIdle_other hp]
      rfl
    · rw [ownVanRelease_range hd, restartIdle_active hp]
      rfl
    · exact ownVanRelease_refused h1 h64 hp hn hroom (by unfold Dock.vanRefusal; rw [hx])
    · refine ownVanRelease_refused h1 h64 hp hn hroom ?_
      unfold Dock.vanRefusal
      cases hst : (s.dock d).state with
      | offline => exact absurd hst hx
      | occupied => exact absurd hst ho
      | _ => rfl
    · intro closed
      refine row ((ownVanRelease_begins h1 h64 hp hn hroom ho).trans ?_)
      have origin : (waited.dock d).origin = .occupied := if_neg (by rw [show (waited.dock d).state = .occupied from ho]; decide)
      refine Prod.ext ((beginVan_eq waited d n false).trans ?_) rfl
      rw [origin]
  · intro gives
    have row {t : State} {r : Reply} (h : ownVanClose session s = (t, r)) : gives t r := exec_own rfl hs h
    refine ⟨fun h => row (if_pos h), fun hp hid => row ?_, fun hp hid hsum hsized => ?_⟩
    · exact (if_neg (by simp [hp, hid])).trans (if_neg (by simp [hp]))
    · intro ending v dropped
      have closing : s.van.phase ≠ .closing := by rw [hp]; decide
      have closes : ownVanClose session s =
          (s.endSession .vanClose .closedEarly, { status := .ok, result := .vanOutcome .closedEarly }) :=
        (if_neg (by simp [hp, hid])).trans (if_pos hp)
      have summary : s.van.summaryOf ending = v := by simp only [v, hid]; rfl
      refine ⟨_, row closes, fun d hd => endSession_dock closing hsum hd _ _, (endSession_frame closing hsum _ _).2,
        fun hr hm hf => ?_, fun hw => ?_⟩
      · rw [endSession_posts closing hsum hr hm hf, ← summary]
        refine ⟨rfl, ?_⟩
        exact (State.post_withVanDocksLink s s.van s.docks s.link _).symm
      · by_cases hr : s.vanReleases = []
        · rw [endSession_holds closing hsum hr (hw.resolve_left (not_not.2 hr)), if_pos hr, ← summary]
          exact ⟨rfl, rfl⟩
        · rw [endSession_inFlight closing hr, if_neg hr, ← hsum]
          exact ⟨rfl, rfl⟩

end Sys2Proof.Machine
end

