-- ==== Sys2Proof/Proofs/Candidates.lean ====
section
/-! PROOFS. The candidates of a reservation, and what a finalise leaves of the settle list, the records and the docks (R107 to
R109, R137, R138, R145, R146). -/

namespace Sys2Proof.Machine

/-! ### The search along the docks -/

theorem find_dockNumbers_some {p : Nat → Bool} {d : Nat} :
    dockNumbers.find? p = some d ↔ d ∈ dockNumbers ∧ p d = true ∧ ∀ c ∈ dockNumbers, c < d → p c = false := by
  unfold dockNumbers
  rw [List.find?_range'_eq_some]
  simp only [List.mem_range'_1]
  constructor
  · rintro ⟨hp, hd, hlow⟩
    exact ⟨hd, hp, fun c hc hlt => by simpa using hlow c hc.1 hlt⟩
  · rintro ⟨hd, hp, hlow⟩
    exact ⟨hp, hd, fun c hc hlt => by simpa using hlow c ⟨hc, by omega⟩ hlt⟩

theorem find_dockNumbers_none {p : Nat → Bool} : dockNumbers.find? p = none ↔ ∀ c ∈ dockNumbers, p c = false := by
  simp [List.find?_eq_none]

/-! ### Candidates of a COLLECT reservation (R137) -/

section Collect

variable {s : State} {sel : Selector} {skip d : Nat}

/-- A dock that a selector may take, holding a bike (R137). -/
structure Candidate (s : State) (sel : Selector) (skip c : Nat) (b : Bike) : Prop where
  dock : c ∈ dockNumbers
  other : c ≠ skip
  occupied : (s.dock c).state = .occupied
  unreserved : (s.dock c).reservation = .unreserved
  bike : (s.dock c).bike = some b
  admitted : b.condition ∈ sel.groups.flatten

/-- An AVAILABLE bike is taken only above the member floor (R137). -/
def Bike.passes (b : Bike) (s : State) : Prop := b.condition = .available → s.settings.memberFloor < s.available

theorem collectable_iff {g : List Condition} :
    s.collectable d g = true ↔ (s.dock d).state = .occupied ∧ (s.dock d).reservation = .unreserved ∧
      ∃ b, (s.dock d).bike = some b ∧ b.condition ∈ g ∧ b.passes s := by
  unfold State.collectable Bike.passes
  simp only [Bool.and_eq_true, beq_iff_eq, Option.any_eq_true, List.contains_iff_mem, Bool.or_eq_true, bne_iff_ne,
    decide_eq_true_eq, and_assoc, imp_iff_not_or]

theorem nextCollect_none (h : s.nextCollect sel skip = none) {c : Nat} {b : Bike} (hc : Candidate s sel skip c b) :
    ¬ b.passes s := by
  intro hp
  obtain ⟨g, hg, hin⟩ := List.mem_flatten.1 hc.admitted
  have hnone := find_dockNumbers_none.1 (List.findSome?_eq_none_iff.1 h g hg) c hc.dock
  have ok : s.collectable c g = true := collectable_iff.2 ⟨hc.occupied, hc.unreserved, b, hc.bike, hin, hp⟩
  simp [hc.other, ok] at hnone

/-- The dock taken is the lowest of the first group that has a candidate (R137). -/
theorem nextCollect_some (h : s.nextCollect sel skip = some d) :
    ∃ before g after b, sel.groups = before ++ g :: after ∧ Candidate s sel skip d b ∧ b.condition ∈ g ∧ b.passes s ∧
      (∀ c x, Candidate s sel skip c x → x.passes s → x.condition ∈ g → d ≤ c) ∧
      ∀ c x, Candidate s sel skip c x → x.passes s → x.condition ∉ before.flatten := by
  obtain ⟨before, g, after, hsel, hfind, hbefore⟩ := List.findSome?_eq_some_iff.1 h
  obtain ⟨hin, hp, hlow⟩ := find_dockNumbers_some.1 hfind
  rw [Bool.and_eq_true, bne_iff_ne] at hp
  obtain ⟨hskip, hcollect⟩ := hp
  obtain ⟨hocc, hres, b, hb, hcond, hpass⟩ := collectable_iff.1 hcollect
  refine ⟨before, g, after, b, hsel, ⟨hin, hskip, hocc, hres, hb, ?_⟩, hcond, hpass, fun c x hc hx hg => ?_,
    fun c x hc hx hmem => ?_⟩
  · rw [hsel]
    exact List.mem_flatten.2 ⟨g, by simp, hcond⟩
  · by_contra hlt
    have := hlow c hc.dock (by omega)
    rw [collectable_iff.2 ⟨hc.occupied, hc.unreserved, x, hc.bike, hg, hx⟩] at this
    simp [hc.other] at this
  · obtain ⟨g', hg', hxg⟩ := List.mem_flatten.1 hmem
    have := find_dockNumbers_none.1 (hbefore g' hg') c hc.dock
    rw [collectable_iff.2 ⟨hc.occupied, hc.unreserved, x, hc.bike, hxg, hx⟩] at this
    simp [hc.other] at this

/-- A condition stands in one group of a selector alone. -/
theorem group_unique {before before' after after' : List (List Condition)} {g g' : List Condition} {x : Condition}
    (h : sel.groups = before ++ g :: after) (h' : sel.groups = before' ++ g' :: after') (hx : x ∈ g) (hx' : x ∈ g') :
    before = before' := by
  have flat : sel.groups.flatten.Nodup := by cases sel <;> decide
  have apart {a a' b b' : List (List Condition)} {k k' : List Condition} (hk : sel.groups = a ++ k :: b)
      (hk' : sel.groups = a' ++ k' :: b') (hx : x ∈ k) (hx' : x ∈ k') : ¬ a.length < a'.length := by
    intro hlt
    have hin : k ∈ a' := by
      have hget : sel.groups[a.length]? = some k := by rw [hk]; simp
      rw [hk', List.getElem?_append_left hlt] at hget
      exact List.mem_of_getElem? hget
    rw [hk', List.flatten_append, List.nodup_append] at flat
    exact flat.2.2 x (List.mem_flatten.2 ⟨k, hin, hx⟩) x (by simp [hx']) rfl
  have hl : before.length = before'.length := by
    have := apart h h' hx hx'
    have := apart h' h hx' hx
    omega
  exact (List.append_inj (h.symm.trans h') hl).1

/-- Only the last group of a selector holds AVAILABLE. -/
theorem available_notIn_before {before after : List (List Condition)} {g : List Condition}
    (h : sel.groups = before ++ g :: after) : Condition.available ∉ before.flatten := by
  intro hmem
  have hlen : before.length < sel.groups.length := by rw [h]; simp
  have htake : before = sel.groups.take before.length := by rw [h]; simp
  rw [htake] at hmem
  generalize before.length = n at hmem hlen
  have last : Condition.available ∉ (sel.groups.take (sel.groups.length - 1)).flatten := by cases sel <;> decide
  refine last ?_
  obtain ⟨k, hk, hx⟩ := List.mem_flatten.1 hmem
  exact List.mem_flatten.2 ⟨k, (List.take_subset_take_left _ (by omega)) hk, hx⟩

/-- The dock taken is the lowest among bikes of its condition, and no candidate of an earlier group passes (R137). -/
theorem nextCollect_first (h : s.nextCollect sel skip = some d) :
    ∃ b, Candidate s sel skip d b ∧ b.passes s ∧
      ∀ c x, Candidate s sel skip c x → x.passes s → (x.condition = b.condition → d ≤ c) ∧
        ∀ before after g, sel.groups = before ++ g :: after → b.condition ∈ g → x.condition ∉ before.flatten := by
  obtain ⟨before, g, after, b, hsel, hcand, hcond, hpass, hlow, hfirst⟩ := nextCollect_some h
  refine ⟨b, hcand, hpass, fun c x hc hx => ⟨fun he => hlow c x hc hx (he ▸ hcond), fun before' after' g' hsel' hg' => ?_⟩⟩
  rw [← group_unique hsel hsel' hcond hg']
  exact hfirst c x hc hx

end Collect

/-! ### Candidates of a DELIVER reservation (R138) -/

section Deliver

variable {s : State} {d : Nat}

theorem nextDeliver_some :
    s.nextDeliver = some d ↔ d ∈ dockNumbers ∧ ((s.dock d).state = .empty ∧ (s.dock d).reservation = .unreserved) ∧
      ∀ c ∈ dockNumbers, c < d → (s.dock c).state ≠ .empty ∨ (s.dock c).reservation ≠ .unreserved := by
  unfold State.nextDeliver
  rw [find_dockNumbers_some]
  simp only [Bool.and_eq_true, beq_iff_eq, Bool.and_eq_false_iff, beq_eq_false_iff_ne]

theorem nextDeliver_none :
    s.nextDeliver = none ↔ ∀ c ∈ dockNumbers, (s.dock c).state ≠ .empty ∨ (s.dock c).reservation ≠ .unreserved := by
  unfold State.nextDeliver
  rw [find_dockNumbers_none]
  simp only [Bool.and_eq_false_iff, beq_eq_false_iff_ne]

end Deliver

/-! ### What a finalise leaves (R107 to R109) -/

section Finalise

variable {s : State} {i : Nat} {cause : FinalCause}

/-- The entry finalised leaves the list or waits in its place; the others stand. -/
theorem finalise_entries (s : State) (i : Nat) (cause : FinalCause) :
    (s.finalise i cause).entries = s.entries ∨
      ∃ e, s.entries[i]? = some e ∧ e.isHeld = true ∧
        ((s.finalise i cause).entries = s.entries.eraseIdx i ∨
          ∃ w : SettleEntry, w.isHeld = false ∧ (s.finalise i cause).entries = s.entries.set i w) := by
  unfold State.finalise
  split
  · exact .inl rfl
  · rename_i e he
    split
    · exact .inl rfl
    · rename_i bike dock deadline hst
      have entries : ((s.chargeClose e.close.ref e.close.hirer e.finalFare).1.unmark dock bike).entries = s.entries := by
        refine congrArg (fun x => Region.cur x |>.entries) (Eq.trans ?_ (chargeClose_store_settle e.close.ref e.close.hirer e.finalFare))
        unfold State.unmark State.markSettling
        split <;> simp
      refine .inr ⟨e, he, by simp [SettleEntry.isHeld, hst], ?_⟩
      dsimp only
      split
      · exact .inl (congrArg (List.eraseIdx · i) entries)
      · exact .inr ⟨{ e with stage := _ }, rfl, congrArg (List.set · i _) entries⟩

theorem mem_records_post {r : Record} {b : Body} (h : r ∈ s.records) : r ∈ (s.post b).records := by
  rw [State.post_records]
  exact List.mem_append_left _ h

theorem mem_records_settlePass {r : Record} {slot : Nat} (h : r ∈ s.records) : r ∈ (s.settlePass slot).records := by
  unfold State.settlePass
  split
  · exact h
  · split
    · simpa using mem_records_post h
    · exact h

theorem mem_records_chargeClose {r : Record} {ref : HireRef} {hirer : Hirer} {fare : Nat} (h : r ∈ s.records) :
    r ∈ (s.chargeClose ref hirer fare).1.records := by
  unfold State.chargeClose
  split
  · split
    · exact h
    · unfold State.chargeAndMove State.enterSettling
      dsimp only
      split
      · exact mem_records_settlePass (by simpa using h)
      · simpa using h
  · exact h

/-- A finalise loses no record. -/
theorem mem_records_finalise {r : Record} (h : r ∈ s.records) : r ∈ (s.finalise i cause).records := by
  unfold State.finalise
  split
  · exact h
  · rename_i e he
    split
    · exact h
    · rename_i bike dock deadline hst
      have kept : r ∈ ((s.chargeClose e.close.ref e.close.hirer e.finalFare).1.unmark dock bike).records := by
        have charged := mem_records_chargeClose (ref := e.close.ref) (hirer := e.close.hirer) (fare := e.finalFare) h
        unfold State.unmark State.markSettling
        split
        · simpa using charged
        · exact charged
      dsimp only
      split
      · exact mem_records_post kept
      · exact kept

@[simp] theorem postClose_dock {e : SettleEntry} {time : Option Nat} {pass : PassResult} {d : Nat} :
    (s.postClose i e cause time pass).dock d = s.dock d := State.post_dock ..

/-- A finalise touches the bike its entry links to alone, whose mark it clears. -/
theorem finalise_dock (s : State) (i : Nat) (cause : FinalCause) (d : Nat) :
    (s.finalise i cause).dock d = s.dock d ∨
      ∃ e deadline b, s.entries[i]? = some e ∧ e.stage = .held b.id d deadline ∧ (s.dock d).bike = some b ∧
        (s.finalise i cause).dock d = { s.dock d with bike := some { b with settling := false } } := by
  unfold State.finalise
  split
  · exact .inl rfl
  · rename_i e he
    split
    · exact .inl rfl
    · rename_i bike dock deadline hst
      have charged : (s.chargeClose e.close.ref e.close.hirer e.finalFare).1.dock d = s.dock d := chargeClose_dock ..
      have unmarked : ((s.chargeClose e.close.ref e.close.hirer e.finalFare).1.unmark dock bike).dock d = s.dock d ∨
          ∃ b, b.id = bike ∧ d = dock ∧ (s.dock d).bike = some b ∧
            ((s.chargeClose e.close.ref e.close.hirer e.finalFare).1.unmark dock bike).dock d =
              { s.dock d with bike := some { b with settling := false } } := by
        generalize (s.chargeClose e.close.ref e.close.hirer e.finalFare).1 = t at charged
        rw [← charged]
        unfold State.unmark
        split
        · rename_i hb
          obtain ⟨b, hb, hid⟩ := (Option.any_eq_true _ _).1 hb
          by_cases hd : d = dock
          · subst hd
            refine .inr ⟨b, by simpa using hid, rfl, hb, ?_⟩
            unfold State.markSettling
            rw [dock_putDock_same (by intro h; rw [h] at hb; simp [Dock.atStart] at hb), hb]
            rfl
          · exact .inl (by unfold State.markSettling; rw [dock_putDock_ne hd])
        · exact .inl rfl
      rcases unmarked with h | ⟨b, hid, rfl, hb, h⟩
      · refine .inl (Eq.trans ?_ h)
        dsimp only
        split
        · exact postClose_dock
        · rfl
      · refine .inr ⟨e, deadline, b, he, by rw [hst, hid], hb, Eq.trans ?_ h⟩
        dsimp only
        split
        · exact postClose_dock
        · rfl

end Finalise

end Sys2Proof.Machine
end

