-- ==== Sys2Proof/Proofs/VanCloses.lean ====
section
/-! PROOFS. The close of a settling bike that van reserves is finalised early with reason VAN, and stays so (R106, R137). -/

namespace Sys2Proof.Machine

/-! ### An early close by reason VAN (R106) -/

section Close

variable {s t : State} {d c : Nat} {b : Bike} {e : SettleEntry} {deadline : Nat}

/-- A dock holds the settling bike of a HELD entry of a hirer with no pass. -/
structure HeldClose (d : Nat) (b : Bike) (e : SettleEntry) (deadline : Nat) : Prop where
  stage : e.stage = .held b.id d deadline
  settling : b.settling = true
  noPass : ∀ slot serial, e.close.hirer ≠ .pass slot serial

/-- The bike stands in its dock and its entry is the first that links to it. -/
def State.holdsClose (s : State) (d : Nat) (b : Bike) (e : SettleEntry) : Prop :=
  (s.dock d).bike = some b ∧ ∃ before after, s.entries = before ++ e :: after ∧ ∀ x ∈ before, x.linksTo b.id = false

/-- The mark of the bike is cleared, and its close is posted or waits, with reason VAN. -/
def State.closedByVan (s : State) (d : Nat) (b : Bike) (e : SettleEntry) (time : Option Nat) : Prop :=
  (s.dock d).bike = some { b with settling := false } ∧
    ((∃ r ∈ s.records, ∃ lost, r.body = .hireClose e.close e.waiver (.earlyFinal .van) time .noPass lost) ∨
      { e with stage := .waiting (.earlyFinal .van) time .noPass } ∈ s.entries)

theorem SettleEntry.linksTo_of_notHeld {w : SettleEntry} (h : w.isHeld = false) (bike : Nat) : w.linksTo bike = false := by
  cases hst : w.stage with
  | held b dock deadline => simp [SettleEntry.isHeld, hst] at h
  | waiting cause time pass => simp [SettleEntry.linksTo, hst]

theorem isHeld_of_linksTo {bike : Nat} (h : e.linksTo bike = true) : ∃ dock deadline, e.stage = .held bike dock deadline := by
  unfold SettleEntry.linksTo at h
  split at h
  · rename_i b dock deadline hst
    exact ⟨dock, deadline, (beq_iff_eq.1 h) ▸ hst⟩
  · cases h

theorem settleDock_eq (s : State) (d : Nat) (reason : EarlyReason) :
    s.settleDock d reason = s ∨ ∃ i bike, s.heldAt bike = some i ∧ s.settleDock d reason = s.finalise i (.earlyFinal reason) := by
  unfold State.settleDock
  split
  · rename_i b hb
    split
    · unfold State.finaliseBike
      split
      · rename_i i hi
        exact .inr ⟨i, b.id, hi, rfl⟩
      · exact .inl rfl
    · exact .inl rfl
  · exact .inl rfl

/-- A close made by reason VAN stays so. -/
theorem closedByVan_finalise {i : Nat} {cause : FinalCause} {time : Option Nat} (h : s.closedByVan d b e time) :
    (s.finalise i cause).closedByVan d b e time := by
  obtain ⟨hb, hclose⟩ := h
  refine ⟨?_, hclose.imp (fun ⟨r, hr, hbody⟩ => ⟨r, mem_records_finalise hr, hbody⟩) fun hw => ?_⟩
  · rcases finalise_dock s i cause d with hd | ⟨x, deadline, b', hx, hst, hb', hd⟩
    · rw [hd, hb]
    · rw [hd]
      rw [hb] at hb'
      cases hb'
      rfl
  · obtain ⟨j, hj⟩ := List.getElem?_of_mem hw
    rcases finalise_entries s i cause with h | ⟨x, hx, hheld, h⟩
    · rwa [h]
    · have hne : i ≠ j := by
        rintro rfl
        rw [hx] at hj
        cases hj
        cases hheld
      rcases h with h | ⟨w, _, h⟩ <;> rw [h]
      · exact List.mem_eraseIdx_iff_getElem?.2 ⟨j, hne.symm, hj⟩
      · exact List.mem_of_getElem? ((List.getElem?_set_ne hne).trans hj)

theorem getElem?_split {α : Type} {l : List α} {i : Nat} {x : α} (h : l[i]? = some x) :
    l = l.take i ++ x :: l.drop (i + 1) := by
  obtain ⟨hi, hx⟩ := List.getElem?_eq_some_iff.1 h
  rw [← hx, List.getElem_cons_drop, List.take_append_drop]

/-- Another entry finalised leaves this one where it links first. -/
theorem split_of_other {l before after : List SettleEntry} {i bike : Nat} {w : SettleEntry} (hl : l = before ++ e :: after)
    (hbefore : ∀ x ∈ before, x.linksTo bike = false) (hi : i ≠ before.length) (hw : w.isHeld = false) :
    (∃ before' after', l.eraseIdx i = before' ++ e :: after' ∧ ∀ x ∈ before', x.linksTo bike = false) ∧
      ∃ before' after', l.set i w = before' ++ e :: after' ∧ ∀ x ∈ before', x.linksTo bike = false := by
  subst hl
  rcases Nat.lt_or_gt_of_ne hi with hlt | hgt
  · refine ⟨⟨before.eraseIdx i, after, List.eraseIdx_append_of_lt_length hlt _, fun x hx => hbefore x (List.mem_of_mem_eraseIdx hx)⟩,
      before.set i w, after, List.set_append_left _ _ hlt, fun x hx => ?_⟩
    rcases List.mem_or_eq_of_mem_set hx with hx | rfl
    · exact hbefore x hx
    · exact SettleEntry.linksTo_of_notHeld hw bike
  · obtain ⟨k, rfl⟩ : ∃ k, i = before.length + (k + 1) := ⟨i - before.length - 1, by omega⟩
    refine ⟨⟨before, after.eraseIdx k, ?_, hbefore⟩, before, after.set k w, ?_, hbefore⟩
    · rw [List.eraseIdx_append_of_length_le (by omega), Nat.add_sub_cancel_left, List.eraseIdx_cons_succ]
    · rw [List.set_append_right _ _ (by omega), Nat.add_sub_cancel_left, List.set_cons_succ]

theorem exists_record_post (s : State) (body : Body) : ∃ r ∈ (s.post body).records, r.body = body := by
  rw [State.post_records]
  exact ⟨_, List.mem_append_right _ (List.mem_singleton.2 rfl), rfl⟩

/-- The finalise of that entry by reason VAN makes its close. -/
theorem closedByVan_of_finalise {before after : List SettleEntry} (hc : HeldClose d b e deadline)
    (hb : (s.dock d).bike = some b) (hs : s.entries = before ++ e :: after) :
    (s.finalise before.length (.earlyFinal .van)).closedByVan d b e s.now := by
  obtain ⟨posts, waits⟩ := finalise_closes (cause := .earlyFinal .van) hs hc.stage hb rfl (chargeClose_noPass hc.noPass)
  have cleared : ((s.clearedMark s d).dock d).bike = some { b with settling := false } := by
    unfold State.clearedMark
    rw [dock_putDock_same (by intro h; rw [h] at hb; cases hb), hb]
    rfl
  by_cases hf : 0 < s.free
  · rw [posts hf]
    refine ⟨?_, .inl ?_⟩
    · show (((s.clearedMark s d).post _).dock d).bike = _
      rw [State.post_dock, cleared]
    · obtain ⟨r, hr, hbody⟩ := exists_record_post (s.clearedMark s d)
        (.hireClose e.close e.waiver (.earlyFinal .van) s.now .noPass s.store.settle.cur.lost)
      exact ⟨r, hr, _, hbody⟩
  · rw [waits (by omega)]
    refine ⟨cleared, .inr ?_⟩
    exact List.mem_append_right before List.mem_cons_self

/-- Whatever is finalised by reason VAN, the entry of the dock's bike is still held, or closed so. -/
theorem holdsClose_finalise {i bike : Nat} (hc : HeldClose d b e deadline) (h : s.holdsClose d b e)
    (hi : s.heldAt bike = some i) :
    (s.finalise i (.earlyFinal .van)).holdsClose d b e ∨ (s.finalise i (.earlyFinal .van)).closedByVan d b e s.now := by
  obtain ⟨hb, before, after, hs, hbefore⟩ := h
  by_cases hlen : i = before.length
  · subst hlen
    exact .inr (closedByVan_of_finalise hc hb hs)
  · left
    refine ⟨?_, ?_⟩
    · rcases finalise_dock s i (.earlyFinal .van) d with hd | ⟨x, deadline', b', hx, hst, hb', hd⟩
      · rw [hd, hb]
      · exfalso
        rw [hb] at hb'
        cases hb'
        obtain ⟨hil, hlink, hlow⟩ := List.findIdx?_eq_some_iff_getElem.1 hi
        rw [List.getElem?_eq_getElem hil] at hx
        cases hx
        have hid : b.id = bike := by
          have := linksTo_of_held hst
          obtain ⟨_, _, hst'⟩ := isHeld_of_linksTo hlink
          rw [hst] at hst'
          exact (EntryStage.held.inj hst').1
        subst hid
        rcases Nat.lt_or_gt_of_ne hlen with hlt | hgt
        · have : s.entries[i] ∈ before := by
            have : s.entries[i]? = before[i]? := by rw [hs, List.getElem?_append_left hlt]
            rw [List.getElem?_eq_getElem hil, List.getElem?_eq_getElem hlt] at this
            rw [Option.some.inj this]
            exact List.getElem_mem hlt
          rw [hbefore _ this] at hlink
          cases hlink
        · have := hlow before.length (by omega)
          have hget : s.entries[before.length]? = some e := entries_getElem_split hs
          rw [(List.getElem?_eq_some_iff.1 hget).2, linksTo_of_held hc.stage] at this
          simp at this
    · rcases finalise_entries s i (.earlyFinal .van) with h | ⟨x, _, _, h | ⟨w, hw, h⟩⟩ <;> rw [h]
      · exact ⟨before, after, hs, hbefore⟩
      · exact (split_of_other (w := { e with stage := .waiting .startup none .noPass }) hs hbefore hlen rfl).1
      · exact (split_of_other hs hbefore hlen hw).2

theorem holdsClose_settleDock (hc : HeldClose d b e deadline) (h : s.holdsClose d b e) :
    (s.settleDock c .van).holdsClose d b e ∨ (s.settleDock c .van).closedByVan d b e s.now := by
  rcases settleDock_eq s c .van with hq | ⟨i, bike, hi, hq⟩ <;> rw [hq]
  · exact .inl h
  · exact holdsClose_finalise hc h hi

theorem closedByVan_settleDock {time : Option Nat} (h : s.closedByVan d b e time) :
    (s.settleDock c .van).closedByVan d b e time := by
  rcases settleDock_eq s c .van with hq | ⟨i, bike, hi, hq⟩ <;> rw [hq]
  · exact h
  · exact closedByVan_finalise h

/-- The dock's own finalise closes the entry. -/
theorem closedByVan_of_settleDock (hc : HeldClose d b e deadline) (h : s.holdsClose d b e) :
    (s.settleDock d .van).closedByVan d b e s.now := by
  obtain ⟨hb, before, after, hs, hbefore⟩ := h
  rw [settleDock_finalises hs hc.stage hbefore hb hc.settling rfl]
  exact closedByVan_of_finalise hc hb hs

end Close

end Sys2Proof.Machine
end

