-- ==== Sys2Proof/Proofs/ReservationPass.lean ====
section
/-! PROOFS. The reservation pass of a session: what its steps keep, and what it has placed at its end (R136 to R139). -/

namespace Sys2Proof.Machine

/-! ### A step of the pass -/

/-- A dock but for its reservation and the settling mark of its bike. -/
def Dock.site (x : Dock) : Dock := { x.still with reservation := .unreserved }

/-- `t` comes from `s` by steps of a reservation pass. -/
structure Reserves (s t : State) : Prop where
  same : t = { s with
    store := { s.store with
      journal := t.store.journal, epoch := t.store.epoch, passes := t.store.passes, settle := t.store.settle }
    docks := t.docks
    van := { s.van with manifest := t.van.manifest }
    link := { s.link with marks := t.link.marks } }
  sites : t.docks.map Dock.site = s.docks.map Dock.site
  stays : ∀ d, (s.dock d).reservation ≠ .unreserved → (t.dock d).reservation = (s.dock d).reservation
  available : t.available ≤ s.available
  floor : s.settings.memberFloor ≤ s.available → s.settings.memberFloor ≤ t.available
  holds : ∀ d b e deadline, HeldClose d b e deadline → s.holdsClose d b e →
    t.holdsClose d b e ∨ t.closedByVan d b e s.now
  closes : ∀ d b e time, s.closedByVan d b e time → t.closedByVan d b e time

namespace Reserves

variable {s t u : State}

theorem refl (s : State) : Reserves s s :=
  ⟨rfl, rfl, fun _ _ => rfl, le_rfl, id, fun _ _ _ _ _ h => .inl h, fun _ _ _ _ h => h⟩

theorem settings (h : Reserves s t) : t.settings = s.settings := (congrArg State.settings h.same :)
theorem now (h : Reserves s t) : t.now = s.now := (congrArg State.now h.same :)
theorem elapsed (h : Reserves s t) : t.elapsed = s.elapsed := (congrArg State.elapsed h.same :)
theorem van (h : Reserves s t) : t.van = { s.van with manifest := t.van.manifest } := (congrArg State.van h.same :)

theorem site (h : Reserves s t) (d : Nat) : (t.dock d).site = (s.dock d).site := by
  have at_ (x : State) : (x.dock d).site = ((entryAt (x.docks.map Dock.site) d).getD (.atStart false)) := by
    unfold State.dock entryAt
    split
    · rfl
    · rw [List.getElem?_map]
      cases x.docks[d - 1]? <;> rfl
  rw [at_, at_, h.sites]

theorem state (h : Reserves s t) (d : Nat) : (t.dock d).state = (s.dock d).state := (congrArg Dock.state (h.site d) :)
theorem release (h : Reserves s t) (d : Nat) : (t.dock d).release = (s.dock d).release :=
  (congrArg Dock.release (h.site d) :)

/-- The bike of a dock is the same but for its settling mark. -/
theorem bike (h : Reserves s t) {d : Nat} {b : Bike} (hb : (t.dock d).bike = some b) :
    ∃ b', (s.dock d).bike = some b' ∧ b'.condition = b.condition := by
  have hsite := congrArg Dock.bike (h.site d)
  unfold Dock.site Dock.still at hsite
  rw [hb] at hsite
  cases hs : (s.dock d).bike with
  | none => rw [hs] at hsite; cases hsite
  | some b' =>
    rw [hs] at hsite
    exact ⟨b', rfl, (congrArg (fun x : Option Bike => (x.map Bike.condition).getD .available) hsite :).symm⟩

theorem bike' (h : Reserves s t) {d : Nat} {b : Bike} (hb : (s.dock d).bike = some b) :
    ∃ b', (t.dock d).bike = some b' ∧ b'.condition = b.condition := by
  have hsite := congrArg Dock.bike (h.site d)
  unfold Dock.site Dock.still at hsite
  rw [hb] at hsite
  cases ht : (t.dock d).bike with
  | none => rw [ht] at hsite; cases hsite
  | some b' =>
    rw [ht] at hsite
    exact ⟨b', rfl, (congrArg (fun x : Option Bike => (x.map Bike.condition).getD .available) hsite :)⟩

theorem unreserved (h : Reserves s t) {d : Nat} (hd : (t.dock d).reservation = .unreserved) :
    (s.dock d).reservation = .unreserved := by
  by_contra hne
  exact hne (h.stays d hne ▸ hd)

theorem trans (h1 : Reserves s t) (h2 : Reserves t u) : Reserves s u := by
  refine ⟨?_, h2.sites.trans h1.sites, fun d hd => ?_, h2.available.trans h1.available, fun hf => ?_,
    fun d b e deadline hc hh => ?_, fun d b e time hh => h2.closes d b e time (h1.closes d b e time hh)⟩
  · have e2 := h2.same
    rw [h1.same] at e2
    exact e2
  · have h := h1.stays d hd
    rw [h2.stays d (by rw [h]; exact hd), h]
  · have := h2.floor
    rw [h1.settings] at this
    exact this (h1.floor hf)
  · rcases h1.holds d b e deadline hc hh with hh | hh
    · rw [← h1.now]
      exact h2.holds d b e deadline hc hh
    · exact .inr (h2.closes d b e s.now hh)

theorem candidate (h : Reserves s t) {sel : Selector} {c : Nat} {b : Bike} (hc : Candidate t sel 0 c b) :
    ∃ b', Candidate s sel 0 c b' ∧ b'.condition = b.condition := by
  obtain ⟨b', hb', he⟩ := h.bike hc.bike
  exact ⟨b', ⟨hc.dock, hc.other, (h.state c) ▸ hc.occupied, h.unreserved hc.unreserved, hb', he ▸ hc.admitted⟩, he⟩

end Reserves

/-! ### A reservation placed -/

section Place

variable {s : State} {d n : Nat} {r : Reservation}

theorem isOpen_still (x : Dock) : x.still.isOpen = x.isOpen := by
  unfold Dock.isOpen Dock.inStock Dock.holds Dock.still
  cases x.bike <;> rfl

theorem Settled.available {a : State} (h : Settled a s) : s.available = a.available := by
  have count (x : State) : x.available = (x.docks.map Dock.still).countP Dock.isOpen := by
    unfold State.available
    rw [List.countP_map]
    exact List.countP_congr fun y _ => by simp [isOpen_still]
  rw [count, count, h.docks]

/-- A reservation placed takes an AVAILABLE bike out of available-unreserved (R20). -/
theorem available_putReservation (h : s.dock d ≠ .atStart false) (hr : r ≠ .unreserved) :
    s.available = (s.putReservation d r).available + if (s.dock d).isOpen then 1 else 0 := by
  obtain ⟨h0, x, hx⟩ : d ≠ 0 ∧ ∃ x, s.docks[d - 1]? = some x := by
    unfold State.dock entryAt at h
    by_cases h0 : d = 0
    · simp [h0] at h
    · refine ⟨h0, Option.ne_none_iff_exists'.1 fun hn => ?_⟩
      simp [h0, hn] at h
  obtain ⟨hlt, hget⟩ := List.getElem?_eq_some_iff.1 hx
  have hdock : s.dock d = x := by
    unfold State.dock entryAt
    rw [if_neg h0, hx]
    rfl
  rw [putReservation_eq]
  show s.docks.countP Dock.isOpen = (setEntry s.docks d _).countP Dock.isOpen + _
  unfold setEntry
  rw [if_neg h0, List.countP_set hlt, hget, hdock]
  have closed : Dock.isOpen { x with reservation := r } = false := by
    unfold Dock.isOpen
    simp [hr]
  rw [closed]
  by_cases ho : x.isOpen = true
  · have : 0 < s.docks.countP Dock.isOpen := List.countP_pos_iff.2 ⟨x, List.mem_of_getElem? hx, ho⟩
    simp only [ho, if_true]
    simp
    omega
  · simp [ho]

theorem putReservation_reserves (h : s.dock d ≠ .atStart false)
    (hu : (s.dock d).reservation = .unreserved) (hr : r ≠ .unreserved)
    (hf : (s.dock d).isOpen = true → s.settings.memberFloor < s.available) : Reserves s (s.putReservation d r) := by
  have count := available_putReservation h hr
  have bikes (e : Nat) : ((s.putReservation d r).dock e).bike = (s.dock e).bike := by
    by_cases he : e = d
    · rw [he, dock_putReservation_same h]
    · rw [dock_putReservation_ne he]
  have entries : (s.putReservation d r).entries = s.entries := by rw [putReservation_eq]; rfl
  have records : (s.putReservation d r).records = s.records := by rw [putReservation_eq]; rfl
  refine ⟨by rw [putReservation_eq], ?_, fun e he => ?_, by omega, fun hle => ?_, fun e b x deadline _ hx => .inl ?_,
    fun e b x time hx => ?_⟩
  · rw [putReservation_eq]
    exact map_setEntry_same Dock.site s.docks d (.atStart false) _ rfl
  · rw [dock_putReservation_ne (by rintro rfl; exact he hu)]
  · by_cases ho : (s.dock d).isOpen = true
    · have := hf ho
      rw [if_pos ho] at count
      omega
    · rw [if_neg ho] at count
      omega
  · unfold State.holdsClose at hx ⊢
    rwa [bikes, entries]
  · unfold State.closedByVan at hx ⊢
    rwa [bikes, entries, records]

theorem settleDock_reserves (s : State) (d : Nat) : Reserves s (s.settleDock d .van) := by
  have settled := Settled.settleDock (s := s) d .van
  refine ⟨?_, ?_, fun e _ => settled.reservation e, settled.available.le, fun hle => by rw [settled.available]; exact hle,
    fun e b x deadline hc hx => holdsClose_settleDock hc hx, fun e b x time hx => closedByVan_settleDock hx⟩
  · rw [settled.van]
    exact settled.same
  · have site : Dock.site = (fun x => { x with reservation := .unreserved }) ∘ Dock.still := rfl
    rw [site, ← List.map_map, ← List.map_map, settled.docks]

end Place

/-! ### Docks counted by their reservation -/

section Under

variable {s : State} {d : Nat} {r r' : Reservation}

/-- The number of docks that carry a reservation. -/
def State.under (s : State) (r : Reservation) : Nat := (dockNumbers.filter (fun d => (s.dock d).reservation == r)).length

theorem under_congr {t : State} (h : ∀ d ∈ dockNumbers, (t.dock d).reservation = (s.dock d).reservation) :
    t.under r = s.under r := by
  unfold State.under
  rw [List.filter_congr fun d hd => by rw [h d hd]]

theorem countP_flip {l : List Nat} {p q : Nat → Bool} (hn : l.Nodup) (hd : d ∈ l) (hp : p d = false) (hq : q d = true)
    (h : ∀ c, c ≠ d → q c = p c) : l.countP q = l.countP p + 1 := by
  induction l with
  | nil => cases hd
  | cons x l ih =>
    obtain ⟨hx, hl⟩ := List.nodup_cons.1 hn
    rw [List.countP_cons, List.countP_cons]
    rcases List.mem_cons.1 hd with rfl | hin
    · rw [List.countP_congr fun c hc => by rw [h c (by rintro rfl; exact hx hc)], hp, hq]
      rfl
    · rw [ih hl hin, h x (by rintro rfl; exact hx hin)]
      omega

theorem under_putReservation (hd : d ∈ dockNumbers) (h : s.dock d ≠ .atStart false)
    (hu : (s.dock d).reservation = .unreserved) (hr' : r' ≠ .unreserved) :
    (s.putReservation d r).under r' = s.under r' + if r = r' then 1 else 0 := by
  have other (c : Nat) (hc : c ≠ d) : ((s.putReservation d r).dock c).reservation = (s.dock c).reservation := by
    rw [dock_putReservation_ne hc]
  have same : ((s.putReservation d r).dock d).reservation = r := by rw [dock_putReservation_same h]
  by_cases hr : r = r'
  · subst hr
    rw [if_pos rfl]
    unfold State.under
    rw [← List.countP_eq_length_filter, ← List.countP_eq_length_filter]
    refine countP_flip (by unfold dockNumbers; exact List.nodup_range') hd ?_ ?_ fun c hc => by rw [other c hc]
    · rw [hu]
      exact beq_eq_false_iff_ne.2 (Ne.symm hr')
    · rw [same]
      exact beq_self_eq_true r
  · rw [if_neg hr]
    unfold State.under
    rw [List.filter_congr fun c _ => ?_, Nat.add_zero]
    by_cases hc : c = d
    · subst hc
      rw [same, hu, beq_eq_false_iff_ne.2 hr, beq_eq_false_iff_ne.2 (Ne.symm hr')]
    · rw [other c hc]

end Under

/-! ### One placement (R136 to R138) -/

section PlaceOne

variable {s t : State} {n d : Nat} {kind : ManifestKind} {sel : Selector}

/-- The reservation that an entry of a kind places. -/
def ManifestKind.reservation (k : ManifestKind) (n : Nat) : Reservation :=
  match k with
  | .collect _ => .collect n
  | .deliver => .deliver n

theorem reservation_ne (k : ManifestKind) (n : Nat) : k.reservation n ≠ .unreserved := by cases k <;> exact nofun

theorem reservation_inj {k k' : ManifestKind} {n n' : Nat} (h : k.reservation n = k'.reservation n') : n = n' := by
  cases k <;> cases k' <;> cases h <;> rfl

/-- What a placement at a dock does. -/
structure Placed (s t : State) (d n : Nat) (kind : ManifestKind) : Prop where
  dock : d ∈ dockNumbers
  reserves : Reserves s t
  was : (s.dock d).reservation = .unreserved
  now : (t.dock d).reservation = kind.reservation n
  others : ∀ e, e ≠ d → (t.dock e).reservation = (s.dock e).reservation
  under : ∀ r, r ≠ .unreserved → t.under r = s.under r + if kind.reservation n = r then 1 else 0
  van : t.van = s.van
  available : s.available ≤ t.available + 1

theorem isOpen_of_bike {b : Bike} (ho : (s.dock d).isOpen = true) (hb : (s.dock d).bike = some b) :
    b.condition = .available := by
  unfold Dock.isOpen Dock.inStock Dock.holds at ho
  rw [hb] at ho
  simp only [Bool.and_eq_true, Option.any_some, beq_iff_eq] at ho
  exact ho.1.2

theorem placed_putReservation (hd : d ∈ dockNumbers) (h : s.dock d ≠ .atStart false)
    (hu : (s.dock d).reservation = .unreserved) (hf : (s.dock d).isOpen = true → s.settings.memberFloor < s.available) :
    Placed s (s.putReservation d (kind.reservation n)) d n kind := by
  refine ⟨hd, putReservation_reserves h hu (reservation_ne kind n) hf, hu, by rw [dock_putReservation_same h],
    fun e he => by rw [dock_putReservation_ne he], fun r hr => under_putReservation hd h hu hr, ?_, ?_⟩
  · rw [putReservation_eq]
  · have := available_putReservation h (reservation_ne kind n)
    split at this <;> omega

/-- A COLLECT reservation placed: the close of a settling bike is made first. -/
theorem placed_placeCollect (h : s.nextCollect sel 0 = some d) :
    Placed s (s.placeCollect n d) d n (.collect sel) ∧
      ∀ b e deadline, HeldClose d b e deadline → s.holdsClose d b e → (s.placeCollect n d).closedByVan d b e s.now := by
  obtain ⟨b, hc, hpass, _⟩ := nextCollect_first h
  have settled := Settled.settleDock (s := s) d .van
  have first := settleDock_reserves s d
  have table : (s.settleDock d .van).dock d ≠ .atStart false :=
    inTable_of_state ((settled.state d).trans hc.occupied) (by decide)
  have was : ((s.settleDock d .van).dock d).reservation = .unreserved := (settled.reservation d).trans hc.unreserved
  have floor (ho : ((s.settleDock d .van).dock d).isOpen = true) :
      (s.settleDock d .van).settings.memberFloor < (s.settleDock d .van).available := by
    obtain ⟨b', hb', hcond⟩ := first.bike' hc.bike
    rw [settled.settings, settled.available]
    exact hpass (hcond ▸ isOpen_of_bike ho hb')
  have placed : Placed (s.settleDock d .van) (s.placeCollect n d) d n (.collect sel) :=
    placed_putReservation (kind := .collect sel) (n := n) hc.dock table was floor
  refine ⟨⟨hc.dock, first.trans placed.reserves, hc.unreserved, placed.now,
    fun e he => (placed.others e he).trans (settled.reservation e), fun r hr => ?_, placed.van.trans settled.van, ?_⟩,
    fun b e deadline hb he => placed.reserves.closes d b e s.now (closedByVan_of_settleDock hb he)⟩
  · rw [placed.under r hr, under_congr fun e _ => settled.reservation e]
  · rw [← settled.available]
    exact placed.available

/-- A DELIVER reservation placed. -/
theorem placed_deliver (h : s.nextDeliver = some d) : Placed s (s.putReservation d (.deliver n)) d n .deliver := by
  obtain ⟨hd, ⟨he, hu⟩, _⟩ := nextDeliver_some.1 h
  refine placed_putReservation (kind := .deliver) hd (inTable_of_state he (by decide)) hu fun ho => ?_
  unfold Dock.isOpen Dock.inStock at ho
  rw [he] at ho
  cases ho

theorem updateEntry_some {m : ManifestEntry} {f : ManifestEntry → ManifestEntry} (h : entryAt s.van.manifest n = some m) :
    s.updateEntry n f = { s with
      van := { s.van with manifest := setEntry s.van.manifest n (f m) }
      link := { s.link with marks := (s.updateEntry n f).link.marks } } := by
  unfold State.updateEntry
  rw [h]
  dsimp only
  unfold State.putVan
  dsimp only
  split <;> rfl

theorem updateEntry_reserves (s : State) (n : Nat) (f : ManifestEntry → ManifestEntry) : Reserves s (s.updateEntry n f) := by
  cases h : entryAt s.van.manifest n with
  | none =>
    have : s.updateEntry n f = s := by
      unfold State.updateEntry
      rw [h]
    rw [this]
    exact Reserves.refl s
  | some m =>
    rw [updateEntry_some h]
    exact ⟨rfl, rfl, fun _ _ => rfl, le_rfl, id, fun _ _ _ _ _ h => .inl h, fun _ _ _ _ h => h⟩

@[simp] theorem updateEntry_docks (s : State) (n : Nat) (f : ManifestEntry → ManifestEntry) :
    (s.updateEntry n f).docks = s.docks := by
  unfold State.updateEntry
  split <;> simp

@[simp] theorem updateEntry_dock (s : State) (n d : Nat) (f : ManifestEntry → ManifestEntry) :
    (s.updateEntry n f).dock d = s.dock d := by
  unfold State.dock
  rw [updateEntry_docks]

@[simp] theorem updateEntry_under (s : State) (n : Nat) (f : ManifestEntry → ManifestEntry) (r : Reservation) :
    (s.updateEntry n f).under r = s.under r := under_congr fun _ _ => by rw [updateEntry_dock]

theorem updateEntry_manifest {m : ManifestEntry} {f : ManifestEntry → ManifestEntry} (h : entryAt s.van.manifest n = some m)
    (j : Nat) : entryAt (s.updateEntry n f).van.manifest j = if j = n then some (f m) else entryAt s.van.manifest j := by
  rw [updateEntry_some h]
  show entryAt (setEntry s.van.manifest n (f m)) j = _
  rw [entryAt_setEntry, h]
  simp

theorem updateEntry_length (s : State) (n : Nat) (f : ManifestEntry → ManifestEntry) :
    (s.updateEntry n f).van.manifest.length = s.van.manifest.length := by
  cases h : entryAt s.van.manifest n with
  | none =>
    unfold State.updateEntry
    rw [h]
  | some m =>
    rw [updateEntry_some h]
    exact length_setEntry ..

end PlaceOne

end Sys2Proof.Machine
end

