-- ==== Sys2Proof/Proofs/PassPlaces.lean ====
section
/-! PROOFS. What the reservation pass has placed: its docks as chosen, its counts, and what it could not place (R136 to R138). -/

namespace Sys2Proof.Machine

/-! ### A dock chosen, and entries that fall short -/

section Chosen

variable {a s t : State} {sel : Selector} {d n : Nat} {b : Bike} {e m : ManifestEntry} {kind : ManifestKind}

/-- A dock that the pass begun in `a` has reserved for COLLECT in `s`. -/
structure Chosen (a s : State) (sel : Selector) (d : Nat) (b : Bike) : Prop where
  occupied : (a.dock d).state = .occupied
  bike : (a.dock d).bike = some b
  admitted : b.condition ∈ sel.groups.flatten
  floor : b.condition = .available → a.settings.memberFloor ≤ s.available
  first : ∀ c ∈ dockNumbers, ∀ x, (s.dock c).reservation = .unreserved → (a.dock c).state = .occupied →
    (a.dock c).bike = some x → (x.condition = b.condition → d < c) ∧
      ∀ before after g, sel.groups = before ++ g :: after → b.condition ∈ g → x.condition ∉ before.flatten
  closed : ∀ e deadline, HeldClose d b e deadline → a.holdsClose d b e → s.closedByVan d b e a.now

theorem Chosen.mono (h : Chosen a s sel d b) (ha : Reserves a s) (hs : Reserves s t) : Chosen a t sel d b := by
  refine ⟨h.occupied, h.bike, h.admitted, fun hc => ?_, fun c hc x hu => h.first c hc x (hs.unreserved hu),
    fun e deadline he hh => hs.closes d b e a.now (h.closed e deadline he hh)⟩
  have := h.floor hc
  rw [← ha.settings] at this ⊢
  exact hs.floor this

theorem chosen_of_nextCollect (ha : Reserves a s) (h : s.nextCollect sel 0 = some d)
    (hp : Placed s t d n (.collect sel))
    (hclose : ∀ b e deadline, HeldClose d b e deadline → s.holdsClose d b e → t.closedByVan d b e s.now) :
    ∃ b, Chosen a t sel d b := by
  obtain ⟨b', hc, hpass, hfirst⟩ := nextCollect_first h
  obtain ⟨b, hb, hcond⟩ := ha.bike hc.bike
  refine ⟨b, (ha.state d).symm.trans hc.occupied, hb, hcond ▸ hc.admitted, fun hav => ?_, fun c hcd x hu ho hx => ?_,
    fun e deadline he hh => ?_⟩
  · have := hpass (hcond.symm.trans hav)
    have := hp.available
    rw [ha.settings] at *
    omega
  · have hne : c ≠ d := by
      rintro rfl
      rw [hp.now] at hu
      exact absurd hu (reservation_ne (.collect sel) n)
    obtain ⟨x', hx', hxc⟩ := ha.bike' hx
    have cand (hin : x.condition ∈ sel.groups.flatten) : Candidate s sel 0 c x' :=
      ⟨hcd, by rintro rfl; exact absurd hcd (by decide), (ha.state c).trans ho, hp.reserves.unreserved hu, hx', hxc ▸ hin⟩
    refine ⟨fun hxb => ?_, fun before after g hsel hg hmem => ?_⟩
    · have : d ≤ c := (hfirst c x' (cand (by rw [hxb, hcond]; exact hc.admitted)) (fun hav => hpass
        (by rw [← hcond, ← hxb, ← hxc]; exact hav))).1 (by rw [hxc, hxb, hcond])
      omega
    · have hin : x.condition ∈ sel.groups.flatten := by
        rw [hsel, List.flatten_append]
        exact List.mem_append_left _ hmem
      refine (hfirst c x' (cand hin) fun hav => ?_).2 before after g hsel (hcond ▸ hg) (hxc ▸ hmem)
      exact absurd ((hxc.symm.trans hav) ▸ hmem) (available_notIn_before hsel)
  · rcases ha.holds d b e deadline he hh with hs | hs
    · have same : b' = b := by
        have := hs.1.symm.trans hc.bike
        exact (Option.some.inj this).symm
      rw [← ha.now]
      exact hclose b e deadline he hs
    · exact hp.reserves.closes d b e a.now hs

/-- No candidate is left for an entry of a kind. -/
def State.noneLeft (s : State) (k : ManifestKind) : Prop :=
  match k with
  | .collect sel => ∀ c b, Candidate s sel 0 c b → ¬ b.passes s
  | .deliver => ∀ c ∈ dockNumbers, (s.dock c).state ≠ .empty ∨ (s.dock c).reservation ≠ .unreserved

theorem noneLeft_mono (h : s.noneLeft kind) (hs : Reserves s t) : t.noneLeft kind := by
  cases kind with
  | collect sel =>
    intro c b hc hp
    obtain ⟨b', hc', hcond⟩ := hs.candidate hc
    refine h c b' hc' fun hav => ?_
    have := hp (hcond ▸ hav)
    rw [hs.settings] at this
    exact this.trans_le hs.available
  | deliver =>
    intro c hc
    rcases h c hc with hst | hr
    · exact .inl (by rw [hs.state]; exact hst)
    · exact .inr (by rw [hs.stays c hr]; exact hr)

/-- What an entry has got at the end of its part of the pass. -/
structure Filled (s : State) (e m : ManifestEntry) : Prop where
  asked : m.target + m.short = e.asked
  short : 0 < m.short → s.noneLeft e.kind

theorem Filled.mono (h : Filled s e m) (hs : Reserves s t) : Filled t e m :=
  ⟨h.asked, fun hm => noneLeft_mono (h.short hm) hs⟩

end Chosen

/-! ### The pass (R136) -/

section Pass

variable {a s t : State} {es : List ManifestEntry} {d n : Nat} {e m : ManifestEntry}

/-- What the pass begun in `a` over the entries `es` keeps. -/
structure PassInv (a : State) (es : List ManifestEntry) (s : State) : Prop where
  reserves : Reserves a s
  length : s.van.manifest.length = es.length
  entry : ∀ n e, entryAt es n = some e → ∃ m, entryAt s.van.manifest n = some m ∧ m.kind = e.kind ∧ m.asked = e.asked ∧
    m.done = 0 ∧ s.under (e.kind.reservation n) = m.target
  collects : ∀ d ∈ dockNumbers, ∀ n, (s.dock d).reservation = .collect n →
    ∃ sel e b, entryAt es n = some e ∧ e.kind = .collect sel ∧ Chosen a s sel d b
  delivers : ∀ d ∈ dockNumbers, ∀ n, (s.dock d).reservation = .deliver n →
    (∃ e, entryAt es n = some e ∧ e.kind = .deliver) ∧ (a.dock d).state = .empty ∧
      ∀ c ∈ dockNumbers, (s.dock c).reservation = .unreserved → (a.dock c).state = .empty → d < c
  quiet : (∀ d ∈ dockNumbers, (s.dock d).reservation = .unreserved) → s = { a with van := s.van, link := s.link }

/-- A change of an entry's figures alone keeps it. -/
theorem PassInv.updateEntry (inv : PassInv a es s) (h : entryAt s.van.manifest n = some m)
    (f : ManifestEntry → ManifestEntry) (hkind : (f m).kind = m.kind) (hasked : (f m).asked = m.asked)
    (hdone : (f m).done = m.done) (htarget : (f m).target = m.target) : PassInv a es (s.updateEntry n f) := by
  have step := updateEntry_reserves s n f
  refine ⟨inv.reserves.trans step, (updateEntry_length s n f).trans inv.length, fun j e he => ?_, fun d hd j hr => ?_,
    fun d hd j hr => ?_, fun hall => ?_⟩
  · obtain ⟨x, hx, hxk, hxa, hxd, hxu⟩ := inv.entry j e he
    rw [updateEntry_manifest h, updateEntry_under]
    by_cases hj : j = n
    · subst hj
      cases hx.symm.trans h
      exact ⟨f m, if_pos rfl, hkind.trans hxk, hasked.trans hxa, hdone.trans hxd, hxu.trans htarget.symm⟩
    · exact ⟨x, (if_neg hj).trans hx, hxk, hxa, hxd, hxu⟩
  · rw [updateEntry_dock] at hr
    obtain ⟨sel, e, b, he, hk, hc⟩ := inv.collects d hd j hr
    exact ⟨sel, e, b, he, hk, hc.mono inv.reserves step⟩
  · simp only [updateEntry_dock] at hr ⊢
    exact inv.delivers d hd j hr
  · have := inv.quiet fun d hd => by have := hall d hd; rwa [updateEntry_dock] at this
    rw [updateEntry_some h, this]

/-- A placement with its target counted keeps it. -/
theorem PassInv.place (inv : PassInv a es s) (he : entryAt es n = some e) (hm : entryAt s.van.manifest n = some m)
    (hp : Placed s t d n e.kind)
    (hc : ∀ sel, e.kind = .collect sel → ∃ b, Chosen a t sel d b)
    (hd : e.kind = .deliver → (s.dock d).state = .empty ∧
      ∀ c ∈ dockNumbers, c < d → (s.dock c).state ≠ .empty ∨ (s.dock c).reservation ≠ .unreserved) :
    PassInv a es (t.updateEntry n (fun m => { m with target := m.target + 1 })) := by
  have hm' : entryAt t.van.manifest n = some m := by rw [hp.van]; exact hm
  have step := updateEntry_reserves t n (fun m => { m with target := m.target + 1 })
  have before := inv.reserves.trans hp.reserves
  refine ⟨before.trans step, ?_, fun j x hx => ?_, fun c hcd j hr => ?_, fun c hcd j hr => ?_, fun hall => ?_⟩
  · rw [updateEntry_length, hp.van]
    exact inv.length
  · obtain ⟨y, hy, hyk, hya, hyd, hyu⟩ := inv.entry j x hx
    rw [updateEntry_manifest hm', updateEntry_under, hp.under _ (reservation_ne _ _), hyu, hp.van]
    by_cases hj : j = n
    · subst hj
      cases hy.symm.trans hm
      cases hx.symm.trans he
      exact ⟨{ m with target := m.target + 1 }, if_pos rfl, hyk, hya, hyd, by rw [if_pos rfl]⟩
    · exact ⟨y, (if_neg hj).trans hy, hyk, hya, hyd, by rw [if_neg fun h => hj (reservation_inj h).symm, Nat.add_zero]⟩
  · rw [updateEntry_dock] at hr
    by_cases hcd' : c = d
    · subst hcd'
      rw [hp.now] at hr
      cases hk : e.kind with
      | deliver => rw [hk] at hr; cases hr
      | collect sel =>
        rw [hk] at hr
        cases hr
        obtain ⟨b, hb⟩ := hc sel hk
        exact ⟨sel, e, b, he, hk, hb.mono before step⟩
    · rw [hp.others c hcd'] at hr
      obtain ⟨sel, x, b, hx, hk, hb⟩ := inv.collects c hcd j hr
      exact ⟨sel, x, b, hx, hk, hb.mono inv.reserves (hp.reserves.trans step)⟩
  · simp only [updateEntry_dock] at hr ⊢
    by_cases hcd' : c = d
    · subst hcd'
      rw [hp.now] at hr
      cases hk : e.kind with
      | collect sel => rw [hk] at hr; cases hr
      | deliver =>
        rw [hk] at hr
        cases hr
        obtain ⟨hempty, hlow⟩ := hd hk
        refine ⟨⟨e, he, hk⟩, (inv.reserves.state c).symm.trans hempty, fun x hx hu ho => ?_⟩
        by_contra hle
        rcases hlow x hx (lt_of_le_of_ne (not_lt.1 hle) (by rintro rfl; rw [hp.now] at hu; exact reservation_ne _ _ hu)) with h | h
        · exact h ((inv.reserves.state x).trans ho)
        · exact h (hp.reserves.unreserved hu)
    · rw [hp.others c hcd'] at hr
      obtain ⟨hx, ho, hlow⟩ := inv.delivers c hcd j hr
      exact ⟨hx, ho, fun y hy hu => hlow y hy (hp.reserves.unreserved hu)⟩
  · have := hall d hp.dock
    rw [updateEntry_dock, hp.now] at this
    exact absurd this (reservation_ne _ _)

theorem placeOne_none (h : s.placeOne n e.kind = none) : s.noneLeft e.kind := by
  unfold State.placeOne at h
  cases hk : e.kind with
  | collect sel =>
    rw [hk] at h
    exact fun c b hc => nextCollect_none (Option.map_eq_none_iff.1 h) hc
  | deliver =>
    rw [hk] at h
    exact nextDeliver_none.1 (Option.map_eq_none_iff.1 h)

theorem placeOne_some (ha : Reserves a s) (h : s.placeOne n e.kind = some t) :
    ∃ d, Placed s t d n e.kind ∧ (∀ sel, e.kind = .collect sel → ∃ b, Chosen a t sel d b) ∧
      (e.kind = .deliver → (s.dock d).state = .empty ∧
        ∀ c ∈ dockNumbers, c < d → (s.dock c).state ≠ .empty ∨ (s.dock c).reservation ≠ .unreserved) := by
  unfold State.placeOne at h
  cases hk : e.kind with
  | collect sel =>
    rw [hk] at h
    obtain ⟨d, hd, rfl⟩ := Option.map_eq_some_iff.1 h
    obtain ⟨placed, closes⟩ := placed_placeCollect (n := n) hd
    refine ⟨d, placed, fun sel' hsel => ?_, nofun⟩
    cases hsel
    exact chosen_of_nextCollect ha hd placed closes
  | deliver =>
    rw [hk] at h
    obtain ⟨d, hd, rfl⟩ := Option.map_eq_some_iff.1 h
    obtain ⟨_, ⟨hempty, _⟩, hlow⟩ := nextDeliver_some.1 hd
    exact ⟨d, placed_deliver hd, nofun, fun _ => ⟨hempty, hlow⟩⟩

/-- The placements of one entry. -/
theorem placeMany_keeps (he : entryAt es n = some e) (k : Nat) (s : State) (m : ManifestEntry) (inv : PassInv a es s)
    (hm : entryAt s.van.manifest n = some m) :
    PassInv a es (State.placeMany n e.kind k s) ∧ Reserves s (State.placeMany n e.kind k s) ∧
      (∀ j, j ≠ n → entryAt (State.placeMany n e.kind k s).van.manifest j = entryAt s.van.manifest j) ∧
      ∃ m', entryAt (State.placeMany n e.kind k s).van.manifest n = some m' ∧ m'.target ≤ m.target + k ∧
        (m'.target < m.target + k → (State.placeMany n e.kind k s).noneLeft e.kind) := by
  induction k generalizing s m with
  | zero => exact ⟨inv, Reserves.refl s, fun _ _ => rfl, m, hm, le_rfl, fun h => absurd h (lt_irrefl _)⟩
  | succ k ih =>
    unfold State.placeMany
    cases hp : s.placeOne n e.kind with
    | none => exact ⟨inv, Reserves.refl s, fun _ _ => rfl, m, hm, by omega, fun _ => placeOne_none hp⟩
    | some t =>
      obtain ⟨d, placed, hc, hd⟩ := placeOne_some inv.reserves hp
      have hm' : entryAt t.van.manifest n = some m := by rw [placed.van]; exact hm
      obtain ⟨inv', step, others, m', hm'', hle, hlt⟩ := ih _ { m with target := m.target + 1 }
        (inv.place he hm placed hc hd) (by rw [updateEntry_manifest hm', if_pos rfl])
      refine ⟨inv', placed.reserves.trans ((updateEntry_reserves _ _ _).trans step), fun j hj => ?_, m', hm'', ?_, fun h => hlt ?_⟩
      · rw [others j hj, updateEntry_manifest hm', if_neg hj, placed.van]
      · exact hle.trans (by show m.target + 1 + k ≤ _; omega)
      · show m'.target < m.target + 1 + k
        omega

/-- The pass over the entries from number `n` on. -/
theorem reserveFrom_keeps (fresh : ∀ e ∈ es, e.target = 0) (rest : List ManifestEntry) (n : Nat) (s : State) (hn : 1 ≤ n)
    (hrest : es.drop (n - 1) = rest) (inv : PassInv a es s)
    (done : ∀ j e, entryAt es j = some e → j < n → ∃ m, entryAt s.van.manifest j = some m ∧ Filled s e m)
    (todo : ∀ j, n ≤ j → entryAt s.van.manifest j = entryAt es j) :
    PassInv a es (State.reserveFrom n rest s) ∧
      ∀ j e, entryAt es j = some e →
        ∃ m, entryAt (State.reserveFrom n rest s).van.manifest j = some m ∧ Filled (State.reserveFrom n rest s) e m := by
  induction rest generalizing n s with
  | nil =>
    refine ⟨inv, fun j e he => done j e he ?_⟩
    by_contra hle
    unfold entryAt at he
    have := List.drop_eq_nil_iff.1 hrest
    rw [if_neg (by omega), List.getElem?_eq_none (by omega)] at he
    cases he
  | cons x rest ih =>
    have he : entryAt es n = some x := by
      unfold entryAt
      have := congrArg List.head? hrest
      rw [List.head?_drop, List.head?_cons] at this
      rw [if_neg (by omega), this]
    have hin : x ∈ es := by
      have : x ∈ es.drop (n - 1) := by rw [hrest]; exact List.mem_cons_self
      exact List.mem_of_mem_drop this
    have hm : entryAt s.van.manifest n = some x := (todo n le_rfl).trans he
    obtain ⟨inv', step, others, m, hm', hle, hlt⟩ := placeMany_keeps he x.asked s x inv hm
    have hasked : m.asked = x.asked := by
      obtain ⟨y, hy, _, ha, _⟩ := inv'.entry n x he
      cases hy.symm.trans hm'
      exact ha
    rw [fresh x hin, Nat.zero_add] at hle hlt
    have last := updateEntry_reserves (State.placeMany n x.kind x.asked s) n (fun y => { y with short := y.asked - y.target })
    refine ih (n + 1) _ (by omega) ?_ (inv'.updateEntry hm' _ rfl rfl rfl rfl) (fun j e hj hlt' => ?_) fun j hj => ?_
    · rw [show n + 1 - 1 = n - 1 + 1 by omega, ← List.drop_drop, hrest]
      rfl
    · rw [updateEntry_manifest hm']
      by_cases hjn : j = n
      · subst hjn
        cases hj.symm.trans he
        refine ⟨_, if_pos rfl, ⟨?_, fun hpos => noneLeft_mono (hlt ?_) last⟩⟩
        · show m.target + (m.asked - m.target) = x.asked
          omega
        · have : 0 < m.asked - m.target := hpos
          omega
      · obtain ⟨y, hy, hf⟩ := done j e hj (by omega)
        exact ⟨y, (if_neg hjn).trans ((others j hjn).trans hy), hf.mono (step.trans last)⟩
    · rw [updateEntry_manifest hm', if_neg (by omega), others j (by omega), todo j (by omega)]

end Pass

end Sys2Proof.Machine
end

