-- ==== Sys2Proof/Proofs/VanOpening.lean ====
section
/-! PROOFS. VAN_OPEN with its reservation pass to its end, and the idle timeout (R134 to R139, R149 to R151, R153). -/

namespace Sys2Proof.Machine

/-! ### A manifest received (R135) -/

section Manifest

theorem manifestOf_fresh {l : List ManifestArg} {n : Nat} {es : List ManifestEntry} (h : manifestOf n l = .ok es) :
    ∀ e ∈ es, e.target = 0 ∧ e.done = 0 ∧ e.short = 0 := by
  induction l generalizing n es with
  | nil => cases h
  | cons m rest ih =>
    unfold manifestOf at h
    split at h
    · cases h
    · split at h
      · cases h
      · rename_i kind _
        split at h
        · cases h
        · have first (e : ManifestEntry)
              (he : e = { kind := kind, asked := m.count, target := 0, done := 0, short := 0 }) :
              e.target = 0 ∧ e.done = 0 ∧ e.short = 0 := by subst he; exact ⟨rfl, rfl, rfl⟩
          dsimp only at h
          split at h
          · split at h
            · cases h
              exact fun e he => first e (List.mem_singleton.1 he)
            · cases h
          · split at h
            · rename_i es' hes
              cases h
              intro e he
              rcases List.mem_cons.1 he with he | he
              · exact first e he
              · exact ih hes e he
            · cases h

theorem manifestOf_deliver {asked : Nat} (h1 : 1 ≤ asked) (h64 : asked ≤ 64) :
    manifestOf 1 [{ kind := 2, selector := none, count := asked, endMark := true }] =
      .ok [{ kind := .deliver, asked := asked, target := 0, done := 0, short := 0 }] := by
  unfold manifestOf
  simp [manifestKindOf]
  omega

end Manifest

/-! ### The end of the pass (R138) -/

section End

variable {s a : State} {es : List ManifestEntry}

theorem closeUp_docks (s : State) : s.closeUp.docks = s.docks := by
  unfold State.closeUp
  split
  · split
    · rfl
    · split
      · unfold State.postSummary
        simp
      · rfl
  · rfl

/-- The state in which a session has become ACTIVE. -/
def State.activated (s : State) : State :=
  ({ s with van := { s.van with
      phase := .active, idleAt := some (s.elapsed + s.settings.vanIdleTimeout * 1000) } } : State).raise .vanState

theorem endPass_active (hp : s.van.phase = .reserving) (hm : s.van.met = false) : s.endPass = s.activated := by
  unfold State.endPass
  rw [if_neg (by simp [hm])]
  have raised : s.putVan { s.van with phase := .active } =
      ({ s with van := { s.van with phase := .active } } : State).raise .vanState := by
    unfold State.putVan
    exact if_neg fun hc => by rw [hp] at hc; cases hc.1
  rw [raised]
  rfl

theorem endPass_met (hm : s.van.met = true) : s.endPass = s.endSession .exhaustion .exhausted := if_pos hm

theorem met_iff {v : Van} (h : ∀ m ∈ v.manifest, m.done = 0) : v.met = true ↔ ∀ m ∈ v.manifest, m.target = 0 := by
  unfold Van.met
  rw [List.all_eq_true]
  refine forall₂_congr fun m hm => ?_
  rw [h m hm, beq_iff_eq]
  exact eq_comm

/-- With no reservation placed, none is dropped at the end of a session. -/
theorem endSession_docks (hp : s.van.phase ≠ .closing) (h : ∀ d ∈ dockNumbers, (s.dock d).reservation = .unreserved)
    (endedBy : EndedBy) (outcome : VanOutcome) : (s.endSession endedBy outcome).docks = s.docks := by
  rw [endSession_eq hp, closeUp_docks]
  have none : s.droppable = [] := by
    unfold State.droppable
    rw [List.filter_eq_nil_iff]
    intro d hd
    simp [h d hd]
  show (s.dropAll s.droppable).docks = s.docks
  rw [none]
  rfl

theorem entryAt_of_mem {l : List ManifestEntry} {m : ManifestEntry} (h : m ∈ l) :
    ∃ n, entryAt l n = some m ∧ n ≤ l.length := by
  obtain ⟨i, hi, rfl⟩ := List.getElem_of_mem h
  refine ⟨i + 1, ?_, hi⟩
  unfold entryAt
  rw [if_neg (by omega), Nat.add_sub_cancel, List.getElem?_eq_getElem hi]

theorem mem_of_entryAt {l : List ManifestEntry} {n : Nat} {m : ManifestEntry} (h : entryAt l n = some m) : m ∈ l := by
  unfold entryAt at h
  split at h
  · cases h
  · exact List.mem_of_getElem? h

/-- Every entry of the manifest after the pass stands for one asked for. -/
theorem PassInv.of_mem (inv : PassInv a es s) {m : ManifestEntry} (hm : m ∈ s.van.manifest) :
    ∃ n e, entryAt es n = some e ∧ entryAt s.van.manifest n = some m ∧ m.done = 0 ∧
      s.under (e.kind.reservation n) = m.target := by
  obtain ⟨n, hn, hle⟩ := entryAt_of_mem hm
  have hin : (entryAt es n).isSome := by
    unfold entryAt at hn ⊢
    split at hn
    · cases hn
    · rename_i h0
      rw [if_neg h0, List.getElem?_eq_getElem (by have := inv.length; omega)]
      rfl
  obtain ⟨e, he⟩ := Option.isSome_iff_exists.1 hin
  obtain ⟨m', hm', _, _, hd, hu⟩ := inv.entry n e he
  cases hm'.symm.trans hn
  exact ⟨n, e, he, hn, hd, hu⟩

/-- With no target above 0 nothing has been reserved. -/
theorem PassInv.unreserved (inv : PassInv a es s) (h : ∀ m ∈ s.van.manifest, m.target = 0) :
    ∀ d ∈ dockNumbers, (s.dock d).reservation = .unreserved := by
  intro d hd
  have counted {k : ManifestKind} {n : Nat} {e : ManifestEntry} (he : entryAt es n = some e) (hk : e.kind = k)
      (hr : (s.dock d).reservation = k.reservation n) : False := by
    obtain ⟨m, hm, _, _, _, hu⟩ := inv.entry n e he
    have zero : s.under (e.kind.reservation n) = 0 := by rw [hu, h m (mem_of_entryAt hm)]
    unfold State.under at zero
    rw [List.length_eq_zero_iff, List.filter_eq_nil_iff] at zero
    exact zero d hd (by rw [hr, hk]; exact beq_self_eq_true _)
  cases hr : (s.dock d).reservation with
  | unreserved => rfl
  | collect n =>
    obtain ⟨sel, e, b, he, hk, _⟩ := inv.collects d hd n hr
    exact (counted he hk hr).elim
  | deliver n =>
    obtain ⟨⟨e, he, hk⟩, _⟩ := inv.delivers d hd n hr
    exact (counted he hk hr).elim

theorem PassInv.endPass_docks (inv : PassInv a es s) (hp : a.van.phase = .reserving) : s.endPass.docks = s.docks := by
  have phase : s.van.phase = .reserving := (congrArg Van.phase inv.reserves.van :).trans hp
  cases hm : s.van.met with
  | false => rw [endPass_active phase hm]; rfl
  | true =>
    rw [endPass_met hm]
    refine endSession_docks (by rw [phase]; decide) (inv.unreserved ?_) _ _
    refine (met_iff fun m h => ?_).1 hm
    obtain ⟨_, _, _, _, hd, _⟩ := inv.of_mem h
    exact hd

end End

/-! ### The session opened (R135, R136) -/

section Open

variable {s : State} {van crew : Nat} {es : List ManifestEntry}

/-- The state in which a session stands RESERVING with its manifest, nothing placed. -/
def State.opening (s : State) (van crew : Nat) (es : List ManifestEntry) : State :=
  ({ s with van := { s.van with
      phase := .reserving, session := s.van.counter, counter := wrapUp 65535 s.van.counter, van := van, crew := crew
      manifest := es, opened := s.now, idleAt := none, ending := none, dropped := 0 } } : State).raise .vanState

theorem openVan_eq (h : s.van.phase = .idle) :
    s.openVan van crew es =
      ((State.reserveFrom 1 es (s.opening van crew es)).endPass,
        { status := .ok
          result := .vanOpened s.van.counter
            ((State.reserveFrom 1 es (s.opening van crew es)).van.manifest.map (fun m => (m.target, m.short))) }) := by
  have opened (v : Van) (hv : v.phase = .reserving) : s.putVan v = ({ s with van := v } : State).raise .vanState := by
    unfold State.putVan
    exact if_neg fun hc => by rw [h, hv] at hc; cases hc.1
  unfold State.openVan
  rw [opened _ rfl]
  rfl

theorem ownVanOpen_idle {manifest : List ManifestArg} (hp : s.van.phase = .idle) (h1 : 1 ≤ van) (h2 : van ≤ 9999)
    (h3 : 1 ≤ crew) (h4 : crew ≤ 99999999) :
    ownVanOpen van crew manifest s =
      match manifestOf 1 manifest with
      | .error (n, f) => (s, .vanRange n f)
      | .ok entries => if s.denied.contains crew then (s, .refused .cardDenied) else s.openVan van crew entries :=
  (if_neg (not_not.2 hp)).trans ((if_neg (by omega)).trans ((if_neg (by omega)).trans rfl))

theorem ownVanOpen_opens {manifest : List ManifestArg} (hp : s.van.phase = .idle) (h1 : 1 ≤ van) (h2 : van ≤ 9999)
    (h3 : 1 ≤ crew) (h4 : crew ≤ 99999999) (hm : manifestOf 1 manifest = .ok es) (hd : crew ∉ s.denied) :
    ownVanOpen van crew manifest s = s.openVan van crew es := by
  rw [ownVanOpen_idle hp h1 h2 h3 h4, hm]
  exact if_neg (by simpa using hd)

/-- What the pass keeps stands when it begins. -/
theorem passInv_opening (fresh : ∀ e ∈ es, e.target = 0 ∧ e.done = 0 ∧ e.short = 0)
    (hu : ∀ d ∈ dockNumbers, (s.dock d).reservation = .unreserved) :
    PassInv (s.opening van crew es) es (s.opening van crew es) := by
  refine ⟨Reserves.refl _, rfl, fun n e he => ⟨e, he, rfl, rfl, (fresh e (mem_of_entryAt he)).2.1, ?_⟩, fun d hd n hr => ?_,
    fun d hd n hr => ?_, fun _ => rfl⟩
  · rw [(fresh e (mem_of_entryAt he)).1]
    unfold State.under
    rw [List.length_eq_zero_iff, List.filter_eq_nil_iff]
    intro d hd hr
    exact reservation_ne _ _ ((beq_iff_eq.1 hr).symm.trans (hu d hd))
  · exact absurd ((hu d hd).symm.trans hr) nofun
  · exact absurd ((hu d hd).symm.trans hr) nofun

theorem reserveFrom_opening (fresh : ∀ e ∈ es, e.target = 0 ∧ e.done = 0 ∧ e.short = 0)
    (hu : ∀ d ∈ dockNumbers, (s.dock d).reservation = .unreserved) :
    PassInv (s.opening van crew es) es (State.reserveFrom 1 es (s.opening van crew es)) ∧
      ∀ j e, entryAt es j = some e →
        ∃ m, entryAt (State.reserveFrom 1 es (s.opening van crew es)).van.manifest j = some m ∧
          Filled (State.reserveFrom 1 es (s.opening van crew es)) e m := by
  refine reserveFrom_keeps (fun e he => (fresh e he).1) es 1 _ le_rfl rfl (passInv_opening fresh hu) (fun j e he hj => ?_)
    fun _ _ => rfl
  obtain rfl : j = 0 := by omega
  cases he

/-- Where VAN_STATE is raised already, a change of an entry writes the manifest alone. -/
theorem updateEntry_raised {n : Nat} {m : ManifestEntry} {f : ManifestEntry → ManifestEntry}
    (h : entryAt s.van.manifest n = some m) (hv : s.link.marks.vanState = true) :
    s.updateEntry n f = { s with van := { s.van with manifest := setEntry s.van.manifest n (f m) } } := by
  have raised (t : State) (ht : t.link.marks.vanState = true) : t.raise .vanState = t := by
    unfold State.raise State.withMarks Marks.put
    dsimp only
    rw [← ht]
  unfold State.updateEntry
  rw [h]
  dsimp only
  unfold State.putVan
  dsimp only
  split
  · rfl
  · exact raised _ hv

/-- One DELIVER entry for one dock reserves the lowest candidate (R138). -/
theorem openVan_deliver {d : Nat} (hp : s.van.phase = .idle) (hd : s.nextDeliver = some d) :
    s.openVan van crew [{ kind := .deliver, asked := 1, target := 0, done := 0, short := 0 }] =
      ((({ s with
          docks := setEntry s.docks d { s.dock d with reservation := .deliver 1 }
          van :=
            { s.van with
              phase := .active, session := s.van.counter, counter := wrapUp 65535 s.van.counter, van := van, crew := crew
              manifest := [{ kind := .deliver, asked := 1, target := 1, done := 0, short := 0 }], opened := s.now
              idleAt := some (s.elapsed + s.settings.vanIdleTimeout * 1000), ending := none
              dropped := 0 } } : State).raise .dockState).raise .vanState,
        { status := .ok, result := .vanOpened s.van.counter [(1, 0)] }) := by
  rw [openVan_eq hp]
  let es : List ManifestEntry := [{ kind := .deliver, asked := 1, target := 0, done := 0, short := 0 }]
  let a := s.opening van crew es
  let one : ManifestEntry := { kind := .deliver, asked := 1, target := 1, done := 0, short := 0 }
  let passed : State :=
    { a with
      docks := setEntry s.docks d { s.dock d with reservation := .deliver 1 }
      van := { a.van with manifest := [one] }
      link := { s.link with marks := { s.link.marks with dockState := true, vanState := true } } }
  have placed : State.placeMany 1 .deliver 1 a =
      (a.putReservation d (.deliver 1)).updateEntry 1 (fun m => { m with target := m.target + 1 }) := by
    unfold State.placeMany
    rw [show a.placeOne 1 .deliver = some (a.putReservation d (.deliver 1)) from congrArg (Option.map _) hd]
    rfl
  have pass : State.reserveFrom 1 es a = passed := by
    show (State.placeMany 1 .deliver 1 a).updateEntry 1 (fun x => { x with short := x.asked - x.target }) = passed
    have counted : (a.putReservation d (.deliver 1)).updateEntry 1 (fun m => { m with target := m.target + 1 }) = passed := by
      rw [putReservation_eq, updateEntry_raised rfl rfl]
      rfl
    rw [placed, counted, updateEntry_raised rfl rfl]
    rfl
  rw [show State.reserveFrom 1 _ _ = passed from pass, endPass_active rfl rfl]
  rfl

/-- Where none is left the entry falls short whole (R138). -/
theorem reserveFrom_none {asked : Nat} (h1 : 1 ≤ asked) (hd : s.nextDeliver = none) :
    State.reserveFrom 1 [{ kind := .deliver, asked := asked, target := 0, done := 0, short := 0 }]
        (s.opening van crew [{ kind := .deliver, asked := asked, target := 0, done := 0, short := 0 }]) =
      s.opening van crew [{ kind := .deliver, asked := asked, target := 0, done := 0, short := asked }] := by
  obtain ⟨k, rfl⟩ : ∃ k, asked = k + 1 := ⟨asked - 1, by omega⟩
  let a := s.opening van crew [{ kind := .deliver, asked := k + 1, target := 0, done := 0, short := 0 }]
  have placed : State.placeMany 1 .deliver (k + 1) a = a := by
    unfold State.placeMany
    rw [show a.placeOne 1 .deliver = none from congrArg (Option.map _) hd]
  show (State.placeMany 1 .deliver (k + 1) a).updateEntry 1 (fun x => { x with short := x.asked - x.target }) = _
  rw [placed, updateEntry_raised rfl rfl]
  rfl

end Open

/-! ### The idle deadline (R149) -/

section Idle

variable {s : State} {at' : Nat}

theorem vanIdleDue_ends (hp : s.van.phase = .active) (ha : s.van.idleAt = some at') (ht : at' ≤ s.elapsed) :
    s.vanIdleDue = s.endSession .idleTimeout .timedOut := by
  unfold State.vanIdleDue
  rw [hp, ha]
  exact if_pos ht

theorem vanIdleDue_runs
    (h : s.van.phase ≠ .active ∨ s.van.idleAt = none ∨ (∃ at', s.van.idleAt = some at' ∧ s.elapsed < at')) :
    s.vanIdleDue = s := by
  unfold State.vanIdleDue
  split
  · rename_i t hp ha
    refine if_neg fun hle => ?_
    rcases h with h | h | ⟨t', ht', hlt⟩
    · exact h hp
    · rw [ha] at h
      cases h
    · rw [ha] at ht'
      cases ht'
      omega
  · rfl

end Idle

end Sys2Proof.Machine
end

