-- ==== Sys2Proof/Proofs/VanOpen.lean ====
section
/-! PROOFS. VAN_OPEN with its reservation pass, and the idle timeout of a session (R134 to R139, R149 to R151, R153). -/

namespace Sys2Proof.Machine

section Passed

variable {s : State} {van crew : Nat} {es : List ManifestEntry}

/-- The state at the end of the pass. -/
def State.passed (s : State) (van crew : Nat) (es : List ManifestEntry) : State :=
  State.reserveFrom 1 es (s.opening van crew es)

theorem passed_phase (h : PassInv (s.opening van crew es) es (s.passed van crew es)) :
    (s.passed van crew es).van.phase = .reserving := (congrArg Van.phase h.reserves.van :)

/-- With nothing placed the session ends as it was opened, its summary posted (R138, R153). -/
theorem endPass_posts (inv : PassInv (s.opening van crew es) es (s.passed van crew es))
    (hz : ∀ m ∈ (s.passed van crew es).van.manifest, m.target = 0) (hs : s.van.summary = none) (hr : s.vanReleases = [])
    (hm : s.van.moves = []) (hf : 0 < s.free) :
    (s.passed van crew es).endPass.van = .idleWith (wrapUp 65535 s.van.counter) ∧
      (s.passed van crew es).endPass.records = (s.post (.vanSummary
        { session := s.van.counter, van := van, crew := crew, opened := s.now
          ending := { endedBy := .exhaustion, outcome := .exhausted, time := s.now }
          short := (s.passed van crew es).van.manifest.any (fun m => 0 < m.short), dropped := 0
          results := (s.passed van crew es).van.manifest })).records := by
  have phase := passed_phase inv
  have kept := inv.reserves.van
  have quiet := inv.quiet (inv.unreserved hz)
  have met : (s.passed van crew es).van.met = true := (met_iff fun m h => by
    obtain ⟨_, _, _, _, hd, _⟩ := inv.of_mem h
    exact hd).2 hz
  have state (f : State → Nat) (hfr : ∀ v l, f { s.opening van crew es with van := v, link := l } = f s) :
      f (s.passed van crew es) = f s := by
    rw [quiet]
    exact hfr _ _
  have free : (s.passed van crew es).free = s.free := state State.free fun _ _ => rfl
  have releases : (s.passed van crew es).vanReleases = [] := by
    rw [← hr]
    exact vanReleases_congr fun d _ => inv.reserves.release d
  rw [endPass_met met, endSession_posts (by rw [phase]; decide) (by rw [kept]; exact hs) releases (by rw [kept]; exact hm)
    (by rw [free]; exact hf)]
  constructor
  · show Van.idleWith (s.passed van crew es).van.counter = _
    rw [kept]
    rfl
  · show ((s.passed van crew es).post _).records = _
    have summary : (s.passed van crew es).van.summaryOf
        { endedBy := .exhaustion, outcome := .exhausted, time := (s.passed van crew es).now } =
        { session := s.van.counter, van := van, crew := crew, opened := s.now
          ending := { endedBy := .exhaustion, outcome := .exhausted, time := s.now }
          short := (s.passed van crew es).van.manifest.any (fun m => 0 < m.short), dropped := 0
          results := (s.passed van crew es).van.manifest } := by
      have now : (s.passed van crew es).now = s.now := inv.reserves.now
      have vanOf := kept
      generalize (s.passed van crew es).van = v at vanOf
      rw [now]
      unfold Van.summaryOf
      rw [vanOf]
      rfl
    rw [summary, State.post_records, State.post_records, quiet]
    rfl

end Passed

/-! ### A session that reserves nothing (R138, R150, R153) -/

section Exhausted

variable {s : State} {van crew : Nat} {es : List ManifestEntry}

theorem openVan_short {asked : Nat} (hp : s.van.phase = .idle) (h1 : 1 ≤ asked) (hd : s.nextDeliver = none) :
    s.openVan van crew [{ kind := .deliver, asked := asked, target := 0, done := 0, short := 0 }] =
      ((s.opening van crew [{ kind := .deliver, asked := asked, target := 0, done := 0, short := asked }]).endSession
          .exhaustion .exhausted,
        { status := .ok, result := .vanOpened s.van.counter [(0, asked)] }) := by
  rw [openVan_eq hp, reserveFrom_none h1 hd]
  exact congrArg (Prod.mk · _) (endPass_met rfl)

theorem opening_ended (hu : ∀ d ∈ dockNumbers, (s.dock d).reservation = .unreserved) (endedBy : EndedBy)
    (outcome : VanOutcome) :
    ((s.opening van crew es).ended endedBy outcome).docks = s.docks ∧
      ((s.opening van crew es).ended endedBy outcome).link = (s.opening van crew es).link := by
  have unreserved (d : Nat) (hd : d ∈ dockNumbers) : ((s.opening van crew es).dock d).reservation = .unreserved := hu d hd
  have none : (s.opening van crew es).droppable = [] := by
    unfold State.droppable
    rw [List.filter_eq_nil_iff]
    intro d hd
    simp [unreserved d hd]
  constructor
  · show ((s.opening van crew es).dropAll (s.opening van crew es).droppable).docks = s.docks
    rw [none]
    rfl
  · unfold State.ended
    rw [← droppable_isEmpty, none]
    show { (s.opening van crew es).link with
      marks := { (s.opening van crew es).link.marks with
        vanState := true, dockState := (s.opening van crew es).link.marks.dockState || false } } = _
    rw [Bool.or_false]
    rfl

theorem opening_posts (hsum : s.van.summary = none) (hrel : s.vanReleases = [])
    (hu : ∀ d ∈ dockNumbers, (s.dock d).reservation = .unreserved) (hm : s.van.moves = []) (hf : 0 < s.free) :
    (s.opening van crew es).endSession .exhaustion .exhausted =
      ({ s.post (.vanSummary ((s.opening van crew es).van.summaryOf
          { endedBy := .exhaustion, outcome := .exhausted, time := s.now })) with
        van := .idleWith (wrapUp 65535 s.van.counter) } : State).raise .vanState := by
  obtain ⟨docks, link⟩ := opening_ended (van := van) (crew := crew) (es := es) hu .exhaustion .exhausted
  rw [endSession_posts (s := s.opening van crew es) nofun hsum hrel hm hf, docks, link]
  generalize hb : Body.vanSummary _ = body
  have posted : (s.opening van crew es).post body =
      { s.post body with van := (s.opening van crew es).van, docks := s.docks, link := (s.opening van crew es).link } :=
    State.post_withVanDocksLink s _ s.docks _ body
  have same : Body.vanSummary ((s.opening van crew es).van.summaryOf
      { endedBy := .exhaustion, outcome := .exhausted, time := s.now }) = body := hb
  rw [posted, same]
  unfold State.raise State.withMarks
  dsimp only
  rw [State.post_link, ← State.post_docks s body]
  rfl

theorem opening_holds (hsum : s.van.summary = none) (hrel : s.vanReleases = [])
    (hu : ∀ d ∈ dockNumbers, (s.dock d).reservation = .unreserved) (hw : s.van.moves ≠ [] ∨ s.free = 0) :
    (s.opening van crew es).endSession .exhaustion .exhausted =
      ({ s with van := { (s.opening van crew es).van with
          phase := .closing, idleAt := none, ending := some { endedBy := .exhaustion, outcome := .exhausted, time := s.now }
          summary := some ((s.opening van crew es).van.summaryOf
            { endedBy := .exhaustion, outcome := .exhausted, time := s.now }) } } : State).raise .vanState := by
  obtain ⟨docks, link⟩ := opening_ended (van := van) (crew := crew) (es := es) hu .exhaustion .exhausted
  rw [endSession_holds (s := s.opening van crew es) nofun hsum hrel hw]
  have ended : (s.opening van crew es).ended .exhaustion .exhausted =
      { s.opening van crew es with
        van := ((s.opening van crew es).ended .exhaustion .exhausted).van
        docks := ((s.opening van crew es).ended .exhaustion .exhausted).docks
        link := ((s.opening van crew es).ended .exhaustion .exhausted).link } := rfl
  rw [ended, docks, link]
  rfl

end Exhausted

/-- Settles O30: the refusals in their order; the pass by what each placement keeps; and the deadline by the end of the
session. -/
theorem vanOpenAndIdleTimeout : Obligations.VanOpenAndIdleTimeout := by
  refine ⟨fun tag van crew manifest s hs => ?_, fun tag van crew manifest es s hs hsized hp h1 h2 h3 h4 hman hden hu => ?_,
    fun s hs => ?_⟩
  · intro gives
    have row {t : State} {r : Reply} (h : ownVanOpen van crew manifest s = (t, r)) : gives t r := exec_own rfl hs h
    refine ⟨fun hp => row (if_pos hp), fun hp hv => row ((if_neg (not_not.2 hp)).trans (if_pos (by omega))),
      fun hp h1 h2 hc => row ((if_neg (not_not.2 hp)).trans ((if_neg (by omega)).trans (if_pos (by omega)))),
      fun hp h1 h2 h3 h4 => ⟨fun n f hm => row ?_, fun es hm hd => row ?_, fun asked mark hm hmark hd => ?_⟩⟩
    · rw [ownVanOpen_idle hp h1 h2 h3 h4, hm]
      rfl
    · rw [ownVanOpen_idle hp h1 h2 h3 h4, hm]
      exact if_pos (by simpa using hd)
    · intro next
      subst hm hmark
      refine ⟨fun d hask hnext => row ?_, fun hask1 hask64 hnone hsum hrel hunres => ?_⟩
      · subst hask
        rw [ownVanOpen_opens hp h1 h2 h3 h4 (manifestOf_deliver le_rfl (by decide)) hd, openVan_deliver hp hnext]
        rfl
      · intro ending results v answer
        have opens := (ownVanOpen_opens hp h1 h2 h3 h4 (manifestOf_deliver hask1 hask64) hd).trans
          (openVan_short hp hask1 hnone)
        have summary : (s.opening van crew results).van.summaryOf ending = v := by
          have isShort : (results.any fun m => 0 < m.short) = true := List.any_eq_true.2 ⟨_, List.mem_cons_self, by
            exact decide_eq_true hask1⟩
          show { v with short := results.any fun m => 0 < m.short } = v
          rw [isShort]
        have posts := opening_posts (van := van) (crew := crew) (es := results) hsum hrel hunres
        have holds := opening_holds (van := van) (crew := crew) (es := results) hsum hrel hunres
        simp only [show ({ endedBy := .exhaustion, outcome := .exhausted, time := s.now } : VanEnding) = ending from rfl,
          summary] at posts holds
        exact ⟨fun hm hf => row (opens.trans (Prod.ext (posts hm hf) rfl)), fun hw => row (opens.trans (Prod.ext (holds hw) rfl))⟩
  · have fresh := manifestOf_fresh hman
    obtain ⟨inv, filled⟩ := reserveFrom_opening (van := van) (crew := crew) fresh hu
    have phase := passed_phase inv
    have docks : (s.passed van crew es).endPass.docks = (s.passed van crew es).docks := inv.endPass_docks rfl
    have dock (d : Nat) : (s.passed van crew es).endPass.dock d = (s.passed van crew es).dock d := by
      unfold State.dock
      rw [docks]
    have available : (s.passed van crew es).endPass.available = (s.passed van crew es).available := by
      unfold State.available
      rw [docks]
    have settings : (s.passed van crew es).settings = s.settings := inv.reserves.settings
    have kept := inv.reserves.van
    have zero : (s.passed van crew es).van.met = true ↔ ∀ m ∈ (s.passed van crew es).van.manifest, m.target = 0 :=
      met_iff fun m h => by
        obtain ⟨_, _, _, _, hd, _⟩ := inv.of_mem h
        exact hd
    have active (h : ∃ m ∈ (s.passed van crew es).van.manifest, 0 < m.target) :
        (s.passed van crew es).endPass = (s.passed van crew es).activated := by
      refine endPass_active phase (Bool.eq_false_iff.2 fun hc => ?_)
      obtain ⟨m, hm, hpos⟩ := h
      have := zero.1 hc m hm
      omega
    refine ⟨(s.passed van crew es).endPass, (s.passed van crew es).van.manifest,
      exec_own rfl hs ((ownVanOpen_opens hp h1 h2 h3 h4 hman hden).trans (openVan_eq hp)), inv.length, fun n e he => ?_,
      fun h => ?_, fun hz hsum hrel hm hf => endPass_posts inv hz hsum hrel hm hf, fun d hd n hr => ?_,
      fun d hd n b before e after deadline hr hb hset hent hst hbefore hnp => ?_, fun d hd n hr => ?_⟩
    · obtain ⟨m, hm, hk, ha, hdone, hunder⟩ := inv.entry n e he
      obtain ⟨m', hm', hfill⟩ := filled n e he
      cases hm.symm.trans hm'
      refine ⟨m, hm, hk, ha, hdone, hfill.asked, ?_, fun hke hshort c hc hcu => ?_, fun sel hke hshort c hc b hcu hco hcb hcond => ?_⟩
      · rw [← hunder]
        simp only [dock]
        rfl
      · have left := hfill.short hshort
        rw [hke] at left
        rw [dock] at hcu ⊢
        exact (left c hc).resolve_right (not_not.2 hcu)
      · have left := hfill.short hshort
        rw [hke] at left
        rw [dock] at hcu hco hcb
        have blocked := left c b ⟨hc, by rintro rfl; exact absurd hc (by decide), hco, hcu, hcb, hcond⟩
        have both := Classical.not_imp.1 blocked
        rw [available, ← settings]
        exact ⟨both.1, not_lt.1 both.2⟩
    · rw [active h]
      have v := kept
      refine ⟨rfl, ?_, ?_, ?_, rfl, ?_, ?_, ?_, ?_⟩
      · exact (congrArg Van.session v :)
      · exact (congrArg Van.van v :)
      · exact (congrArg Van.crew v :)
      · exact (congrArg Van.opened v :)
      · exact (congrArg Van.ending v :)
      · exact (congrArg Van.dropped v :)
      · show some ((s.passed van crew es).elapsed + (s.passed van crew es).settings.vanIdleTimeout * 1000) = _
        rw [settings, show (s.passed van crew es).elapsed = s.elapsed from inv.reserves.elapsed]
    · rw [dock] at hr
      obtain ⟨sel, e, b, he, hk, hc⟩ := inv.collects d hd n hr
      obtain ⟨m, hm, hmk, _⟩ := inv.entry n e he
      refine ⟨sel, m, b, hm, hmk.trans hk, hc.occupied, hc.bike, hc.admitted, fun hav => ?_, fun c hcd x hcu ho hx => ?_⟩
      · rw [available]
        exact hc.floor hav
      · rw [dock] at hcu
        exact hc.first c hcd x hcu ho hx
    · rw [dock] at hr
      obtain ⟨sel, x, b', hx, hk, hc⟩ := inv.collects d hd n hr
      cases (show (s.dock d).bike = some b' from hc.bike).symm.trans hb
      obtain ⟨m, hm, _, _, _, hunder⟩ := inv.entry n x hx
      have some_ : ∃ m ∈ (s.passed van crew es).van.manifest, 0 < m.target := by
        refine ⟨m, mem_of_entryAt hm, ?_⟩
        rw [← hunder, hk]
        exact List.length_pos_of_mem (List.mem_filter.2 ⟨hd, beq_iff_eq.2 hr⟩)
      obtain ⟨hbike, hclose⟩ := hc.closed e deadline ⟨hst, hset, hnp⟩ ⟨hb, before, after, hent, hbefore⟩
      rw [active some_]
      exact ⟨hbike, hclose⟩
    · rw [dock] at hr
      obtain ⟨⟨e, he, hk⟩, hempty, hlow⟩ := inv.delivers d hd n hr
      obtain ⟨m, hm, hmk, _⟩ := inv.entry n e he
      refine ⟨⟨m, hm, hmk.trans hk⟩, hempty, fun c hc hcu ho => ?_⟩
      rw [dock] at hcu
      exact hlow c hc hcu ho
  · intro dropped link
    have row {t : State} (h : s.vanIdleDue = t) (hpow : t.power = s.power) : exec .vanIdleTimeout s = .next (t.finish s) :=
      exec_row (f := fun s => s.vanIdleDue) rfl hs h hpow
    refine ⟨fun at' hp ha ht hr hsized => ?_, fun at' hp ha ht hr hsum hsized => ?_, fun v hp hv hm hc hns hf => ?_,
      fun h => row (vanIdleDue_runs h) rfl⟩
    · have closing : s.van.phase ≠ .closing := by rw [hp]; decide
      refine ⟨s.ended .idleTimeout .timedOut, row ((vanIdleDue_ends hp ha ht).trans (endSession_inFlight closing hr _ _)) rfl,
        rfl, fun d hd => ended_dock_iff hd _ _, rfl, rfl⟩
    · have closing : s.van.phase ≠ .closing := by rw [hp]; decide
      intro ending v
      have ends := vanIdleDue_ends hp ha ht
      have power : (s.endSession .idleTimeout .timedOut).power = s.power := by
        by_cases hw : s.van.moves = [] ∧ 0 < s.free
        · rw [endSession_posts closing hsum hr hw.1 hw.2]
          exact State.post_power ..
        · rw [endSession_holds closing hsum hr
            (by by_cases hm : s.van.moves = []; exact .inr (by simp [hm] at hw; omega); exact .inl hm)]
          rfl
      refine ⟨_, row ends power, fun d hd => ?_, (endSession_frame closing hsum _ _).2, fun hm hf => ?_, fun hw => ?_⟩
      · rw [endSession_dock closing hsum hd, hr]
        rfl
      · rw [endSession_posts closing hsum hr hm hf]
        exact ⟨rfl, (State.post_withVanDocksLink s s.van s.docks s.link _).symm⟩
      · rw [endSession_holds closing hsum hr hw]
        exact ⟨rfl, rfl⟩
    · have first : s.firstPlace = some .van := by rw [firstPlace_of_noSettling hc hns, if_pos (.inr (by simp [hv]))]
      have served : s.serveVanIf false = s.serveIfNext .van := if_pos (by simp [hm])
      refine exec_row rfl hs (served.trans ((serveIfNext_first hf first).trans ((serveVan_summary hm hv).trans ?_))) ?_
      · exact postSummary_eq (by rw [hp]; decide)
      · exact State.post_power ..

end Sys2Proof.Machine
end

