-- ==== Sys2Proof/Proofs/ReleaseEnds.lean ====
section
/-! PROOFS. How a release ends other than by a removal: the dock written, the slot given back with a pass expiry that was held
back, the word to van, and the lockout that waited (R36, R40, R53, R67, R142, R151, R159, R160). -/

namespace Sys2Proof.Machine

/-! ### A dock of the table -/

section Table

variable {s : State} {d : Nat} {x y : Dock}

/-- Whether the dock table has an entry of this number. -/
def State.hasDock (s : State) (d : Nat) : Prop := (entryAt s.docks d).isSome = true

theorem hasDock_of_ne (h : s.dock d ≠ .atStart false) : s.hasDock d := by
  refine Option.isSome_iff_ne_none.2 fun he => h ?_
  unfold State.dock
  rw [he]
  rfl

theorem hasDock_of_release {r : Release} (h : (s.dock d).release = some r) : s.hasDock d :=
  hasDock_of_ne fun hc => by rw [hc] at h; cases h

theorem hasDock_iff : s.hasDock d ↔ 1 ≤ d ∧ d ≤ s.docks.length := by
  unfold State.hasDock entryAt
  by_cases h : d = 0
  · simp [h]
  · rw [if_neg h, Option.isSome_iff_ne_none, Ne, List.getElem?_eq_none_iff]
    omega

theorem hasDock_of_sized (hs : s.sized) (hd : d ∈ dockNumbers) : s.hasDock d := by
  unfold dockNumbers at hd
  rw [List.mem_range'_1] at hd
  exact hasDock_iff.2 ⟨hd.1, by have := hs.1; omega⟩

theorem mem_dockNumbers_of_sized (hs : s.sized) (hd : s.hasDock d) : d ∈ dockNumbers := by
  obtain ⟨h1, h2⟩ := hasDock_iff.1 hd
  unfold dockNumbers
  rw [List.mem_range'_1]
  exact ⟨h1, by have := hs.1; omega⟩

theorem dock_putDock_has (h : s.hasDock d) : (s.putDock d x).dock d = x := by
  rw [dock_putDock, if_pos ⟨rfl, h⟩]

theorem hasDock_congr {t : State} (h : t.docks.length = s.docks.length) : t.hasDock d ↔ s.hasDock d := by
  rw [hasDock_iff, hasDock_iff, h]

theorem hasDock_putDock {e : Nat} (h : s.hasDock d) : (s.putDock e x).hasDock d :=
  (hasDock_congr (by rw [State.putDock_docks, length_setEntry])).2 h

theorem setEntry_setEntry {α : Type} (l : List α) (n : Nat) (a b : α) : setEntry (setEntry l n a) n b = setEntry l n b := by
  unfold setEntry
  split
  · rfl
  · exact List.set_set ..

/-- A second write of a dock that leaves its counts as the first did replaces the first. -/
theorem putDock_putDock (h : s.hasDock d) (hxy : x.share = y.share) : (s.putDock d x).putDock d y = s.putDock d y := by
  have first := dock_putDock_has (x := x) h
  unfold State.putDock at first ⊢
  dsimp only at first ⊢
  rw [if_pos (by rw [first, hxy])]
  by_cases hs : (s.dock d).share = x.share
  · rw [if_pos hs, if_pos (hs.trans hxy)]
    simp only [setEntry_setEntry]
  · rw [if_neg hs, if_neg fun hc => hs (hc.trans hxy.symm)]
    show ({ s with docks := setEntry (setEntry s.docks d x) d y, link := _ } : State) = _
    rw [setEntry_setEntry]
    rfl

/-- A change of what a dock adds to no count writes the table alone. -/
theorem putDock_of_share (h : (s.dock d).share = x.share) : s.putDock d x = { s with docks := setEntry s.docks d x } := if_pos h

theorem discardRelease_eq (s : State) (d : Nat) (z : DockState) :
    s.discardRelease d z = s.putDock d { s.dock d with state := z, release := none, windowAt := none } := rfl

theorem raise_of_has {k : NoticeKind} (h : s.link.marks.has k = true) : s.raise k = s := by
  have put : s.link.marks.put k true = s.link.marks := by
    unfold Marks.put
    unfold Marks.has at h
    cases k <;> dsimp only at h ⊢ <;> rw [← h]
  unfold State.raise
  rw [put]
  rfl

end Table

/-! ### The first place that waits -/

section First

variable {s t : State}

theorem lowestSettling_congr (h : ∀ n, t.pass n = s.pass n) : t.lowestSettling = s.lowestSettling := by
  unfold State.lowestSettling
  simp only [h]

theorem firstPlace_congr (he : t.entries = s.entries) (hp : ∀ n, t.pass n = s.pass n) (hv : t.van = s.van)
    (hf : t.faults = s.faults) (hd : t.directives = s.directives) (hx : t.sixth = s.sixth) :
    t.firstPlace = s.firstPlace := by
  unfold State.firstPlace
  rw [he, lowestSettling_congr hp, hv, hf, hd, hx]

end First

/-! ### The slot given back (R53, R67, R159, R160) -/

section GiveUp

variable {s : State} {r : Release} {hirer : Hirer} {issue : Option Nat} {ref : HireRef} {image : TripImage}
  {slot serial : Nat} {p : Pass}

theorem giveUp_van {crew n : Nat} (h : r.party = .van crew n) : s.giveUp r = s := by
  unfold State.giveUp
  rw [h]

/-- Where no expiry is to be taken the slot alone is given back. -/
theorem giveUp_back (h : r.party = .hire hirer issue ref image)
    (hq : ∀ slot serial, hirer = .pass slot serial → ∀ p, s.pass slot = some p → p.serial = serial →
      r.expiryHeld = false ∧ ∀ t, s.now = some t → t < p.expiry) : s.giveUp r = s.giveBack := by
  unfold State.giveUp
  rw [h]
  cases hirer with
  | pass slot serial =>
    dsimp only
    congr 1
    unfold State.takeHeldExpiry
    cases hp : s.pass slot with
    | none => rfl
    | some p =>
      refine if_neg fun hc => ?_
      obtain ⟨hheld, hnow⟩ := hq slot serial rfl p hp hc.1
      rcases hc.2 with hc | hc
      · rw [hheld] at hc
        cases hc
      · obtain ⟨t, ht, hle⟩ := (Option.any_eq_true _ _).1 hc
        have := hnow t ht
        simp at hle
        omega
  | member id => rfl
  | crew id => rfl
  | remote id => rfl

/-- With no producer waiting, the slot is free again and nothing else happens. -/
theorem giveBack_idle (h : s.firstPlace = none) : s.giveBack = { s with setAside := s.setAside - 1 } :=
  drain_idle (s := s.returnSlot) (.inr h)

/-- With no other slot free it serves the first place. -/
theorem giveBack_serves {x : Place} (hfull : s.records.length + s.setAside = 256 ∧ 0 < s.setAside ∧ s.replySlot = 0)
    (hx : s.firstPlace = some x) (hpost : s.postsIn x) :
    s.giveBack = ({ s with setAside := s.setAside - 1 } : State).serve x := by
  refine drain_serves (s := s.returnSlot) ?_ hfull.2.2 hx hpost
  show s.records.length + (s.setAside - 1) = 255
  omega

/-- An expiry that was held back, or has been reached, is taken first (R67). -/
theorem giveUp_expires (h : r.party = .hire (.pass slot serial) issue ref image) (hp : s.pass slot = some p)
    (hserial : p.serial = serial) (hstate : p.state = .issued ∨ p.state = .idle)
    (hheld : r.expiryHeld = true ∨ ∃ t, s.now = some t ∧ p.expiry ≤ t) (hfl : s.passInFlight slot serial = false) :
    s.giveUp r = (s.enterSettling slot p).giveBack := by
  unfold State.giveUp
  rw [h]
  dsimp only
  congr 1
  unfold State.takeHeldExpiry
  rw [hp]
  dsimp only
  have reached : r.expiryHeld = true ∨ s.now.any (fun t => decide (p.expiry ≤ t)) = true :=
    hheld.imp id fun ⟨t, ht, hle⟩ => by rw [ht]; simpa using hle
  rw [if_pos ⟨hserial, reached⟩]
  unfold State.expirePass
  rcases hstate with hs | hs <;> rw [hs, hserial, hfl] <;> rfl

/-- With a slot free its PASS_SETTLE is posted, and the slot is given back after it. -/
theorem giveUp_settles (h : r.party = .hire (.pass slot serial) issue ref image) (hin : slot ∈ slotNumbers)
    (hp : s.pass slot = some p) (hserial : p.serial = serial) (hstate : p.state = .issued ∨ p.state = .idle)
    (hheld : r.expiryHeld = true ∨ ∃ t, s.now = some t ∧ p.expiry ≤ t) (hfl : s.passInFlight slot serial = false)
    (hfirst : s.firstPlace = none) (hf : 0 < s.free) :
    s.giveUp r =
      { (((s.putPass slot (some { p with state := .settling })).post
          (.passSettle slot { p with state := .settling })).putPass slot none) with setAside := s.setAside - 1 } := by
  have settled := enterSettling_posts hp hf p
  rw [giveUp_expires h hp hserial hstate hheld hfl, giveBack_idle, settled]
  · simp
  · obtain ⟨hc, hs, hm, hv, hfaults, hd, hx⟩ := firstPlace_none_iff.1 hfirst
    rw [settled]
    refine firstPlace_none_iff.2 ⟨?_, fun n hn q hq => ?_, by simpa using hm, by simpa using hv, by simpa using hfaults,
      by simpa using hd, by simpa using hx⟩
    · intro e he
      exact hc e (by simpa using he)
    · by_cases hns : n = slot
      · subst hns
        rw [State.pass_putPass_same (p := { p with state := .settling }) none
          (by rw [State.post_pass, State.pass_putPass_same _ hp])] at hq
        cases hq
      · rw [State.pass_putPass_ne _ hns, State.post_pass, State.pass_putPass_ne _ hns] at hq
        exact hs n hn q hq

/-- With none free it waits, and the slot given back takes it. -/
theorem giveUp_settles_full (h : r.party = .hire (.pass slot serial) issue ref image) (hin : slot ∈ slotNumbers)
    (hp : s.pass slot = some p) (hserial : p.serial = serial) (hstate : p.state = .issued ∨ p.state = .idle)
    (hheld : r.expiryHeld = true ∨ ∃ t, s.now = some t ∧ p.expiry ≤ t) (hfl : s.passInFlight slot serial = false)
    (hfirst : s.firstPlace = none) (hfull : s.records.length + s.setAside = 256 ∧ 0 < s.setAside ∧ s.replySlot = 0) :
    s.giveUp r =
      (({ s.putPass slot (some { p with state := .settling }) with setAside := s.setAside - 1 } : State).post
        (.passSettle slot { p with state := .settling })).putPass slot none := by
  have none_ : s.free = 0 := by unfold State.free Config.journalSlots; omega
  have waits := enterSettling_waits (slot := slot) none_ p
  obtain ⟨hc, hs, _⟩ := firstPlace_none_iff.1 hfirst
  let q : Pass := { p with state := .settling }
  let t := s.putPass slot (some q)
  have held : t.pass slot = some q := State.pass_putPass_same _ hp
  have low : t.lowestSettling = some slot := by
    refine lowestSettling_eq hin held rfl fun n hn hlt x hx => ?_
    rw [State.pass_putPass_ne _ (by omega)] at hx
    exact hs n hn x hx
  have first : t.firstPlace = some .passes := by
    rw [firstPlace_of_noClose (fun e he => hc e (by simpa [t] using he)), low]
    rfl
  have room : t.records.length + t.setAside = 256 ∧ 0 < t.setAside ∧ t.replySlot = 0 := by simpa [t] using hfull
  rw [giveUp_expires h hp hserial hstate hheld hfl, waits,
    giveBack_serves (s := t) room first (nofun), show t.setAside = s.setAside from State.putPass_setAside ..]
  unfold State.serve
  dsimp only
  rw [show ({ t with setAside := s.setAside - 1 } : State).lowestSettling = some slot from low]
  refine settlePass_posts (s := { t with setAside := s.setAside - 1 }) held rfl ?_
  show 0 < Config.journalSlots - (t.records.length + (s.setAside - 1) + t.replySlot)
  unfold Config.journalSlots
  have := show t.setAside = s.setAside from State.putPass_setAside ..
  omega

end GiveUp

/-! ### Releases in flight after one has ended -/

section InFlight

variable {s t : State} {d slot serial : Nat}

theorem passInFlight_false (h : ∀ e, s.hasDock e → ∀ q, (s.dock e).release = some q → q.hirer? ≠ some (.pass slot serial)) :
    s.passInFlight slot serial = false := by
  unfold State.passInFlight State.releases
  rw [List.any_eq_false]
  intro q hq
  obtain ⟨x, hx, hr⟩ := List.mem_filterMap.1 hq
  obtain ⟨i, hi, rfl⟩ := List.getElem_of_mem hx
  have dock : s.dock (i + 1) = s.docks[i] := by
    unfold State.dock entryAt
    rw [if_neg (by omega), Nat.add_sub_cancel, List.getElem?_eq_getElem hi]
    rfl
  rw [beq_iff_eq]
  exact h (i + 1) (hasDock_iff.2 ⟨by omega, hi⟩) q (by rw [dock]; exact hr)

theorem mem_vanReleases : d ∈ s.vanReleases ↔
    d ∈ dockNumbers ∧ ∃ r crew n, (s.dock d).release = some r ∧ r.party = .van crew n := by
  unfold State.vanReleases
  rw [List.mem_filter]
  refine and_congr_right fun _ => ?_
  cases hr : (s.dock d).release with
  | none => simp
  | some r => cases hp : r.party <;> simp [hp]

/-- The other VAN releases are in flight still. -/
theorem vanReleases_ne_nil (h : s.vanReleases ≠ [d]) (hd : d ∈ s.vanReleases)
    (ho : ∀ e, e ≠ d → (t.dock e).release = (s.dock e).release) : t.vanReleases ≠ [] := by
  have nodup : s.vanReleases.Nodup := by
    unfold State.vanReleases dockNumbers
    exact (List.nodup_range').filter _
  obtain ⟨e, he, hne⟩ : ∃ e ∈ s.vanReleases, e ≠ d := by
    by_contra hall
    push Not at hall
    match hl : s.vanReleases with
    | [] => rw [hl] at hd; cases hd
    | [x] => rw [hl] at hall h; exact h (by rw [hall x List.mem_cons_self])
    | x :: y :: rest =>
      rw [hl] at hall nodup
      have hx := hall x (by simp)
      have hy := hall y (by simp)
      simp [hx, hy] at nodup
  intro hnil
  have : e ∈ t.vanReleases := by
    rw [mem_vanReleases, ho e hne, ← mem_vanReleases]
    exact he
  rw [hnil] at this
  cases this

theorem vanReleases_nil (h : s.vanReleases = [d]) (hd : (t.dock d).release = none)
    (ho : ∀ e, e ≠ d → (t.dock e).release = (s.dock e).release) : t.vanReleases = [] := by
  rw [List.eq_nil_iff_forall_not_mem]
  intro e he
  rw [mem_vanReleases] at he
  obtain ⟨hn, r, crew, n, hr, hp⟩ := he
  by_cases hed : e = d
  · subst hed
    rw [hd] at hr
    cases hr
  · have : e ∈ s.vanReleases := mem_vanReleases.2 ⟨hn, r, crew, n, (ho e hed) ▸ hr, hp⟩
    rw [h] at this
    exact hed (List.mem_singleton.1 this)

end InFlight

/-! ### The word to van (R142, R151) -/

section Lapse

variable {s : State} {d : Nat} {r : Release}

theorem vanLapse_open (h : s.van.phase ≠ .closing) : s.vanLapse d = s := if_neg h

theorem vanLapse_closing (h : s.van.phase = .closing) : s.vanLapse d = (s.putReservation d .unreserved).closeUp := if_pos h

theorem putReservation_release (e : Nat) (x : Reservation) (c : Nat) :
    ((s.putReservation e x).dock c).release = (s.dock c).release := by
  rw [putReservation_eq]
  show (({ s with docks := setEntry s.docks e { s.dock e with reservation := x } } : State).dock c).release = _
  rw [dock_setEntry]
  split
  · rename_i h
    rw [h.1]
  · rfl

theorem putReservation_van (e : Nat) (x : Reservation) : (s.putReservation e x).van = s.van := by rw [putReservation_eq]

theorem putReservation_free (e : Nat) (x : Reservation) : (s.putReservation e x).free = s.free := by
  rw [putReservation_eq]
  rfl

theorem vanReleases_putReservation (e : Nat) (x : Reservation) : (s.putReservation e x).vanReleases = s.vanReleases :=
  vanReleases_congr fun _ _ => putReservation_release ..

theorem vanLapse_waits (h : s.van.phase = .closing) (hr : s.vanReleases ≠ []) :
    s.vanLapse d = s.putReservation d .unreserved := by
  rw [vanLapse_closing h, closeUp_waits (by rwa [vanReleases_putReservation])]

theorem vanLapse_posts {ending : VanEnding} (h : s.van.phase = .closing) (he : s.van.ending = some ending)
    (hs : s.van.summary = none) (hr : s.vanReleases = []) (hm : s.van.moves = []) (hf : 0 < s.free) :
    s.vanLapse d =
      { (s.putReservation d .unreserved).post (.vanSummary (s.van.summaryOf ending)) with
        van := .idleWith s.van.counter } := by
  have van := putReservation_van (s := s) d .unreserved
  rw [vanLapse_closing h, closeUp_posts (s := s.putReservation d .unreserved) (ending := ending) (by rw [van, h])
    (by rw [van, he]) (by rw [van, hs]) (by rwa [vanReleases_putReservation]) (by rw [van, hm])
    (by rwa [putReservation_free]), postSummary_eq (by rw [van, h]; decide), van]
  refine raise_of_has ?_
  show ((s.putReservation d .unreserved).post _).link.marks.vanState = true
  rw [State.post_link, putReservation_eq]

theorem vanLapse_holds {ending : VanEnding} (h : s.van.phase = .closing) (he : s.van.ending = some ending)
    (hs : s.van.summary = none) (hr : s.vanReleases = []) (hw : s.van.moves ≠ [] ∨ s.free = 0) :
    s.vanLapse d =
      { s.putReservation d .unreserved with van := { s.van with summary := some (s.van.summaryOf ending) } } := by
  have van := putReservation_van (s := s) d .unreserved
  rw [vanLapse_closing h, closeUp_holds (s := s.putReservation d .unreserved) (ending := ending) (by rw [van, h])
    (by rw [van, he]) (by rw [van, hs]) (by rwa [vanReleases_putReservation])
    (by rw [van, putReservation_free]; exact hw), van]

theorem tellVan_hire {hirer : Hirer} {issue : Option Nat} {ref : HireRef} {image : TripImage}
    (h : r.party = .hire hirer issue ref image) : s.tellVan d r = s := by
  unfold State.tellVan
  rw [h]

theorem tellVan_van {crew n : Nat} (h : r.party = .van crew n) : s.tellVan d r = s.vanLapse d := by
  unfold State.tellVan
  rw [h]

theorem clearTag_hire {hirer : Hirer} {issue : Option Nat} {ref : HireRef} {image : TripImage}
    (h : r.party = .hire hirer issue ref image) : s.clearTag d r = s.issue d (.tagClear .afterRelease) := by
  unfold State.clearTag
  rw [h]

theorem clearTag_van {crew n : Nat} (h : r.party = .van crew n) : s.clearTag d r = s := by
  unfold State.clearTag
  rw [h]

end Lapse

/-! ### The lockout that waited, and a reservation lost (R40, R146, R147) -/

section Lockout

variable {s : State} {d : Nat}

theorem loseReservation_unreserved (h : (s.dock d).reservation = .unreserved) : s.loseReservation d = s := by
  unfold State.loseReservation
  rw [h]

theorem applyLockout_eq (s : State) (d : Nat) :
    s.applyLockout d =
      ((s.putDock d { s.dock d with
        state := .lockedOut, relockAt := none, lockoutPending := false, shown := some .fault }).issue d
          (.show .fault)).loseReservation d := rfl

theorem applyPending_none (h : (s.dock d).lockoutPending = false) : s.applyPending d = s := if_neg (by simp [h])

theorem applyPending_applies (h : (s.dock d).lockoutPending = true) : s.applyPending d = s.applyLockout d := if_pos h

end Lockout

end Sys2Proof.Machine
end

