-- ==== Sys2Proof/Proofs/Dockwise.lean ====
section
/-! PROOFS. Writes of docks, of node commands and of pending marks alone, and what they leave (R9, R20). -/

namespace Sys2Proof.Machine

/-- `s` comes from `a` by writes of docks, of commands at nodes and of pending marks alone. -/
structure Dockwise (a s : State) : Prop where
  same : s = { a with docks := s.docks, nodes := s.nodes, link := { a.link with marks := s.link.marks } }
  length : s.docks.length = a.docks.length

namespace Dockwise

variable {a s t : State}

theorem refl (a : State) : Dockwise a a := ⟨rfl, rfl⟩

theorem trans (h1 : Dockwise a s) (h2 : Dockwise s t) : Dockwise a t := by
  refine ⟨?_, h2.length.trans h1.length⟩
  have e2 := h2.same
  rw [h1.same] at e2
  exact e2

theorem raise (k : NoticeKind) : Dockwise s (s.raise k) := ⟨rfl, rfl⟩

theorem putDock (d : Nat) (x : Dock) : Dockwise s (s.putDock d x) := by
  refine ⟨?_, by rw [State.putDock_docks, length_setEntry]⟩
  unfold State.putDock
  dsimp only
  split <;> rfl

theorem putNode (d : Nat) (n : Node) : Dockwise s (s.putNode d n) := ⟨rfl, rfl⟩

theorem issue (d : Nat) (c : Command) : Dockwise s (s.issue d c) := by
  rw [State.issue_eq]
  split <;> exact ⟨rfl, rfl⟩

theorem putReservation (d : Nat) (x : Reservation) : Dockwise s (s.putReservation d x) :=
  ((putDock _ _).trans (raise _)).trans (raise _)

/-! ### What stands -/

theorem power (h : Dockwise a s) : s.power = a.power := (congrArg State.power h.same :)
theorem elapsed (h : Dockwise a s) : s.elapsed = a.elapsed := (congrArg State.elapsed h.same :)
theorem now (h : Dockwise a s) : s.now = a.now := (congrArg State.now h.same :)
theorem settings (h : Dockwise a s) : s.settings = a.settings := (congrArg State.settings h.same :)
theorem store (h : Dockwise a s) : s.store = a.store := (congrArg State.store h.same :)
theorem pass (h : Dockwise a s) (n : Nat) : s.pass n = a.pass n := (congrArg (fun x => State.pass x n) h.same :)
theorem records (h : Dockwise a s) : s.records = a.records := (congrArg State.records h.same :)
theorem setAside (h : Dockwise a s) : s.setAside = a.setAside := (congrArg State.setAside h.same :)
theorem replySlot (h : Dockwise a s) : s.replySlot = a.replySlot := (congrArg State.replySlot h.same :)
theorem free (h : Dockwise a s) : s.free = a.free := (congrArg State.free h.same :)
theorem van (h : Dockwise a s) : s.van = a.van := (congrArg State.van h.same :)
theorem faults (h : Dockwise a s) : s.faults = a.faults := (congrArg State.faults h.same :)
theorem faultsDropped (h : Dockwise a s) : s.faultsDropped = a.faultsDropped := (congrArg State.faultsDropped h.same :)
theorem attention (h : Dockwise a s) : s.attention = a.attention := (congrArg State.attention h.same :)
theorem sixth (h : Dockwise a s) : s.sixth = a.sixth := (congrArg State.sixth h.same :)
theorem directives (h : Dockwise a s) : s.directives = a.directives := (congrArg State.directives h.same :)
theorem censusLimit (h : Dockwise a s) : s.censusLimit = a.censusLimit := (congrArg State.censusLimit h.same :)
theorem offlineAt (h : Dockwise a s) : s.offlineAt = a.offlineAt := (congrArg State.offlineAt h.same :)
theorem firstPlace (h : Dockwise a s) : s.firstPlace = a.firstPlace := (congrArg State.firstPlace h.same :)
theorem hasDock (h : Dockwise a s) {d : Nat} : s.hasDock d ↔ a.hasDock d := hasDock_congr h.length
theorem postsIn (h : Dockwise a s) {p : Place} : s.postsIn p ↔ a.postsIn p := by
  unfold State.postsIn
  rw [h.sixth, show s.tariffs = a.tariffs from congrArg (fun x => x.tariffs.cur) h.store]

end Dockwise

@[simp] theorem dock_issue {s : State} {d e : Nat} {c : Command} : (s.issue d c).dock e = s.dock e := by
  unfold State.dock
  rw [State.issue_docks]

/-- The state in which a lockout that waited stands, but for a reservation lost by it (R40). -/
def State.shutIf (s : State) (b : Bool) (d : Nat) : State :=
  if b = true then
    (s.putDock d { s.dock d with
      state := .lockedOut, relockAt := none, lockoutPending := false, shown := some .fault }).issue d (.show .fault)
  else s

section Shut

variable {s : State} {b : Bool} {d e : Nat}

theorem shutIf_dockwise (s : State) (b : Bool) (d : Nat) : Dockwise s (s.shutIf b d) := by
  unfold State.shutIf
  split
  · exact (Dockwise.putDock _ _).trans (Dockwise.issue _ _)
  · exact Dockwise.refl s

theorem shutIf_dock (h : s.hasDock d) :
    (s.shutIf b d).dock d =
      if b = true then { s.dock d with
        state := .lockedOut, relockAt := none, lockoutPending := false, shown := some .fault }
      else s.dock d := by
  unfold State.shutIf
  split
  · rw [dock_issue, dock_putDock_has h]
  · rfl

theorem shutIf_dock_ne (h : e ≠ d) : (s.shutIf b d).dock e = s.dock e := by
  unfold State.shutIf
  split
  · rw [dock_issue, dock_putDock_ne h]
  · rfl

/-- A lockout that waits is applied where it costs no reservation (R40). -/
theorem applyPending_shut (h : s.hasDock d) (hp : (s.dock d).lockoutPending = b)
    (hr : b = true → (s.dock d).reservation = .unreserved) : s.applyPending d = s.shutIf b d := by
  cases b with
  | false => exact applyPending_none hp
  | true =>
    rw [applyPending_applies hp, applyLockout_eq]
    refine loseReservation_unreserved ?_
    rw [dock_issue, dock_putDock_has h]
    exact hr rfl

end Shut

end Sys2Proof.Machine
end

