-- ==== Sys2Proof/Proofs/ReleaseTimers.lean ====
section
/-! PROOFS. The release window that runs out, and the relock retry (R28, R29, R40, R53, R67, R142, R150 to R153, R160). -/

namespace Sys2Proof.Machine

section Window

variable {s : State} {d t : Nat} {r : Release}

theorem windowDue_lapses (hs : (s.dock d).state = .releaseOpen) (hr : (s.dock d).release = some r)
    (hw : (s.dock d).windowAt = some t) (ht : t ≤ s.elapsed) : s.windowDue d = s.lapse d r := by
  unfold State.windowDue
  dsimp only
  rw [hs, hr, hw]
  exact if_pos ht

theorem windowDue_runs
    (h : (s.dock d).state ≠ .releaseOpen ∨ (s.dock d).windowAt = none ∨
      (∃ t, (s.dock d).windowAt = some t ∧ s.elapsed < t)) : s.windowDue d = s := by
  unfold State.windowDue
  dsimp only
  split
  · rename_i x r t hs hr hw
    refine if_neg fun hle => ?_
    rcases h with h | h | ⟨t', ht', hlt⟩
    · exact h hs
    · rw [hw] at h
      cases h
    · rw [hw] at ht'
      cases ht'
      omega
  · rfl

theorem relockDue_issues (hs : (s.dock d).state = .relocking) (hr : (s.dock d).relockAt = some t) (ht : t ≤ s.elapsed) :
    s.relockDue d = (s.putDock d { s.dock d with relockAt := none }).issue d .lock := by
  unfold State.relockDue
  dsimp only
  split
  · rename_i t' _ hr'
    cases hr.symm.trans hr'
    exact if_pos ht
  · rename_i h
    exact (h t hs hr).elim

theorem relockDue_runs
    (h : (s.dock d).state ≠ .relocking ∨ (s.dock d).relockAt = none ∨
      (∃ t, (s.dock d).relockAt = some t ∧ s.elapsed < t)) : s.relockDue d = s := by
  unfold State.relockDue
  dsimp only
  split
  · rename_i t hs hr
    refine if_neg fun hle => ?_
    rcases h with h | h | ⟨t', ht', hlt⟩
    · exact h hs
    · rw [hr] at h
      cases h
    · rw [hr] at ht'
      cases ht'
      omega
  · rfl

/-- The state in which a release in RELEASE_OPEN has been discarded (R28). -/
def State.lapsed (s : State) (d : Nat) (r : Release) : State :=
  s.putDock d { s.dock d with
    state := (match r.origin with | .occupied => .relocking | .lockedOut => .lockedOut), release := none, windowAt := none }

theorem lapse_eq (s : State) (d : Nat) (r : Release) :
    s.lapse d r =
      (((((s.lapsed d r).clearTag d r).issue d .lock).tellVan d r).applyPending d).giveUp r := rfl

theorem lapse_hire {hirer : Hirer} {issue : Option Nat} {ref : HireRef} {image : TripImage}
    (hr : (s.dock d).release = some r) (hp : r.party = .hire hirer issue ref image)
    (hl : (s.dock d).lockoutPending = true → (s.dock d).reservation = .unreserved) :
    s.lapse d r =
      (State.shutIf (((s.lapsed d r).issue d (.tagClear .afterRelease)).issue d .lock) (s.dock d).lockoutPending d).giveUp r := by
  have has := hasDock_of_release hr
  have dock : (((s.lapsed d r).issue d (.tagClear .afterRelease)).issue d .lock).dock d = { s.dock d with
      state := (match r.origin with | .occupied => .relocking | .lockedOut => .lockedOut)
      release := none, windowAt := none } := by
    rw [dock_issue, dock_issue]
    exact dock_putDock_has has
  have step : Dockwise s (((s.lapsed d r).issue d (.tagClear .afterRelease)).issue d .lock) :=
    ((Dockwise.putDock _ _).trans (Dockwise.issue _ _)).trans (Dockwise.issue _ _)
  rw [lapse_eq, clearTag_hire hp, tellVan_hire hp,
    applyPending_shut (s := ((s.lapsed d r).issue d (.tagClear .afterRelease)).issue d .lock) (b := (s.dock d).lockoutPending)
      (step.hasDock.2 has) (by rw [dock]) fun h => by rw [dock]; exact hl h]

theorem lapse_van {crew n : Nat} (hp : r.party = .van crew n) :
    s.lapse d r = (((s.lapsed d r).issue d .lock).vanLapse d).applyPending d := by
  rw [lapse_eq, clearTag_van hp, tellVan_van hp, giveUp_van hp]

end Window

/-- Settles O53: the release discarded, then by its party the lockout that waits, the word to van and the slot given back. -/
theorem releaseTimers : Obligations.ReleaseTimers := by
  intro d s hs
  have window {t : State} (h : s.windowDue d = t) : exec (.releaseWindowExpiry d) s = .next (t.finish s) :=
    exec_row (f := fun s => s.windowDue d) rfl hs h (by
      rw [← h]
      exact congrArg Spine.power (State.windowDue_flow .refl d).spine)
  have retry {t : State} (h : s.relockDue d = t) : exec (.relockRetryExpiry d) s = .next (t.finish s) :=
    exec_row (f := fun s => s.relockDue d) rfl hs h (by
      rw [← h]
      exact congrArg Spine.power (State.relockDue_flow .refl d).spine)
  refine ⟨fun r t hst hr hw ht => ?_, fun h => window (windowDue_runs h), fun t hst hr ht => retry (relockDue_issues hst hr ht),
    fun h => retry (relockDue_runs h)⟩
  intro closed locksOut gives
  have has := hasDock_of_release hr
  have lapses {u : State} (h : s.lapse d r = u) : gives u := window ((windowDue_lapses hst hr hw ht).trans h)
  have closedDock : closed.dock d = { s.dock d with
      state := (match r.origin with | .occupied => .relocking | .lockedOut => .lockedOut)
      release := none, windowAt := none } := dock_putDock_has has
  have closedOther (e : Nat) (he : e ≠ d) : closed.dock e = s.dock e := dock_putDock_ne he
  refine ⟨fun hirer issue ref image hp hl => ?_, fun crew n hp => ?_⟩
  · intro lapsed freed full
    have hire : s.lapse d r = lapsed.giveUp r := lapse_hire hr hp hl
    have step : Dockwise s lapsed :=
      (((Dockwise.putDock _ _).trans (Dockwise.issue _ _)).trans (Dockwise.issue _ _)).trans (shutIf_dockwise _ _ _)
    have freedEq : ({ lapsed with setAside := lapsed.setAside - 1 } : State) = freed := by rw [step.setAside]
    have fullOf (h : full) : lapsed.records.length + lapsed.setAside = 256 ∧ 0 < lapsed.setAside ∧ lapsed.replySlot = 0 := by
      rw [step.records, step.setAside, step.replySlot]
      exact h
    refine ⟨fun hq => ?_, fun slot serial p hh hin hpass hserial hstate hheld hother hsized hfirst => ?_⟩
    · have back : lapsed.giveUp r = lapsed.giveBack := giveUp_back hp (by simpa only [step.pass, step.now] using hq)
      refine ⟨fun hfirst => lapses ?_, fun x hfirst hfull hpost => lapses ?_⟩
      · rw [hire, back, giveBack_idle (by rw [step.firstPlace, hfirst]), freedEq]
      · rw [hire, back, giveBack_serves (fullOf hfull) (by rw [step.firstPlace, hfirst]) (step.postsIn.2 hpost), freedEq]
    · subst hh
      intro q
      have flight : lapsed.passInFlight slot serial = false := by
        refine passInFlight_false fun e he x hx => ?_
        by_cases hed : e = d
        · subst hed
          have gone : (lapsed.dock e).release = none := by
            have inner : ((closed.issue e (.tagClear .afterRelease)).issue e .lock).hasDock e :=
              ((Dockwise.issue _ _).trans (Dockwise.issue _ _)).hasDock.2 (hasDock_putDock has)
            show ((State.shutIf _ _ e).dock e).release = none
            rw [shutIf_dock inner, dock_issue, dock_issue, closedDock]
            split <;> rfl
          rw [gone] at hx
          cases hx
        · have kept : lapsed.dock e = s.dock e := by
            show (State.shutIf _ _ d).dock e = _
            rw [shutIf_dock_ne hed, dock_issue, dock_issue, closedOther e hed]
          rw [kept] at hx
          exact hother e (mem_dockNumbers_of_sized hsized (step.hasDock.1 he)) hed x hx
      have pass : lapsed.pass slot = some p := by rw [step.pass, hpass]
      have held : r.expiryHeld = true ∨ ∃ t, lapsed.now = some t ∧ p.expiry ≤ t := by rwa [step.now]
      have first : lapsed.firstPlace = none := by rw [step.firstPlace, hfirst]
      refine ⟨fun hf => lapses ?_, fun hfull => lapses ?_⟩
      · rw [hire, giveUp_settles hp hin pass hserial hstate held flight first (by rwa [step.free]), step.setAside]
      · rw [hire, giveUp_settles_full hp hin pass hserial hstate held flight first (fullOf hfull), step.setAside]
  · intro locked
    have van : s.lapse d r = (locked.vanLapse d).applyPending d := lapse_van hp
    have step : Dockwise s locked := (Dockwise.putDock _ _).trans (Dockwise.issue _ _)
    have lockedHas : locked.hasDock d := step.hasDock.2 has
    have lockedDock : locked.dock d = closed.dock d := dock_issue
    have pending : (locked.dock d).lockoutPending = (s.dock d).lockoutPending := by rw [lockedDock, closedDock]
    have shut {u : State} (hu : u.hasDock d) (hl : (u.dock d).lockoutPending = (s.dock d).lockoutPending)
        (hres : (u.dock d).reservation = .unreserved) : u.applyPending d = locksOut u := applyPending_shut hu hl fun _ => hres
    refine ⟨fun hphase => ?_, fun hphase hsized => ?_⟩
    · rw [vanLapse_open (by rw [step.van]; exact hphase)] at van
      refine ⟨fun hl => lapses (van.trans (applyPending_none (pending.trans hl))), fun hl => lapses (van.trans ?_)⟩
      rw [applyPending_applies (pending.trans hl), applyLockout_eq]
      exact congrArg (State.loseReservation · d) (if_pos hl).symm
    · intro gone
      have other (e : Nat) (he : e ≠ d) : (locked.dock e).release = (s.dock e).release := by
        rw [show locked.dock e = closed.dock e from dock_issue, closedOther e he]
      have ended : (locked.dock d).release = none := by rw [lockedDock, closedDock]
      have inFlight : d ∈ s.vanReleases := mem_vanReleases.2 ⟨mem_dockNumbers_of_sized hsized has, r, crew, n, hr, hp⟩
      have phase : locked.van.phase = .closing := by rw [step.van, hphase]
      have goneHas : gone.hasDock d := (Dockwise.putReservation (s := locked) d .unreserved).hasDock.2 lockedHas
      have goneDock : gone.dock d = { locked.dock d with reservation := .unreserved } :=
        (dock_dropReservation locked d d).trans (if_pos rfl)
      have goneShut {u : State} (hu : u.docks = gone.docks) : u.applyPending d = locksOut u := by
        have dock : u.dock d = gone.dock d := by unfold State.dock; rw [hu]
        refine shut ((hasDock_congr (by rw [hu])).2 goneHas) ?_ ?_
        · rw [dock, goneDock]
          exact pending
        · rw [dock, goneDock]
      refine ⟨fun hne => lapses (van.trans ?_), fun ending hone hend hsum => ?_⟩
      · rw [vanLapse_waits phase (vanReleases_ne_nil hne inFlight other)]
        exact goneShut rfl
      · intro summary
        have none_ : locked.vanReleases = [] := vanReleases_nil hone ended other
        have hend' : locked.van.ending = some ending := by rw [step.van, hend]
        have hsum' : locked.van.summary = none := by rw [step.van, hsum]
        refine ⟨fun hm hf => lapses (van.trans ?_), fun hw => lapses (van.trans ?_)⟩
        · rw [vanLapse_posts phase hend' hsum' none_ (by rw [step.van, hm]) (by rw [step.free]; exact hf), step.van]
          exact goneShut (State.post_docks ..)
        · rw [vanLapse_holds phase hend' hsum' none_ (by rw [step.van, step.free]; exact hw), step.van]
          exact goneShut rfl

end Sys2Proof.Machine
end

