-- ==== Sys2Proof/Proofs/Moved.lean ====
section
/-! PROOFS. What van may touch when a reservation is lost or a session ends: journal, passes, settle list, reservations, settling
marks, the session and pending marks (R145 to R147, R150, R151). -/

namespace Sys2Proof.Machine

/-- `s` comes from `a` by a change of journal, passes, settle list, reservations, settling marks, session and marks alone. -/
structure Moved (a s : State) : Prop where
  same : s = { a with
    store := { a.store with
      journal := s.store.journal, epoch := s.store.epoch, passes := s.store.passes, settle := s.store.settle }
    docks := s.docks
    van := s.van
    link := { a.link with marks := s.link.marks } }
  sites : s.docks.map Dock.site = a.docks.map Dock.site

namespace Moved

variable {a s t : State}

theorem refl (a : State) : Moved a a := ⟨rfl, rfl⟩

theorem trans (h1 : Moved a s) (h2 : Moved s t) : Moved a t := by
  refine ⟨?_, h2.sites.trans h1.sites⟩
  have e2 := h2.same
  rw [h1.same] at e2
  exact e2

theorem of_settled (h : Settled a s) : Moved a s := by
  refine ⟨?_, ?_⟩
  · rw [h.van]
    exact h.same
  · have site : Dock.site = (fun x => { x with reservation := .unreserved }) ∘ Dock.still := rfl
    rw [site, ← List.map_map, ← List.map_map, h.docks]

theorem raise (k : NoticeKind) : Moved s (s.raise k) := ⟨rfl, rfl⟩

theorem post (b : Body) : Moved s (s.post b) := of_settled (Settled.post b)

theorem withVan (v : Van) : Moved s { s with van := v } := ⟨rfl, rfl⟩

theorem putVan (v : Van) : Moved s (s.putVan v) := by
  unfold State.putVan
  dsimp only
  split
  · exact withVan v
  · exact (withVan v).trans (raise _)

theorem putReservation (d : Nat) (r : Reservation) : Moved s (s.putReservation d r) := by
  rw [putReservation_eq]
  exact ⟨rfl, map_setEntry_same Dock.site s.docks d (.atStart false) _ rfl⟩

theorem dropAll (l : List Nat) : Moved s (s.dropAll l) := by
  induction l generalizing s with
  | nil => exact refl s
  | cons d l ih => exact (putReservation d .unreserved).trans ih

theorem closeUp : Moved s s.closeUp := by
  unfold State.closeUp
  split
  · split
    · exact refl s
    · split
      · exact (post _).trans (putVan _)
      · exact withVan _
  · exact refl s

theorem endSession (endedBy : EndedBy) (outcome : VanOutcome) : Moved s (s.endSession endedBy outcome) :=
  ((dropAll s.droppable).trans (putVan _)).trans closeUp

theorem endIfMet : Moved s s.endIfMet := by
  unfold State.endIfMet
  split
  · exact endSession _ _
  · exact refl s

theorem updateEntry (n : Nat) (f : ManifestEntry → ManifestEntry) : Moved s (s.updateEntry n f) := by
  unfold State.updateEntry
  split
  · exact putVan _
  · exact refl s

theorem fall (n : Nat) : Moved s (s.fall n) := (updateEntry n _).trans endIfMet

theorem placeCollect (n d : Nat) : Moved s (s.placeCollect n d) :=
  (of_settled (Settled.settleDock d .van)).trans (putReservation _ _)

theorem moveDeliver (n : Nat) : Moved s (s.moveDeliver n) := by
  unfold State.moveDeliver
  split
  · exact putReservation _ _
  · exact fall n

theorem replaceCollect (n lost : Nat) : Moved s (s.replaceCollect n lost) := by
  unfold State.replaceCollect
  split
  · split
    · exact placeCollect _ _
    · exact fall n
  · exact refl s

theorem loseReservation (d : Nat) : Moved s (s.loseReservation d) := by
  unfold State.loseReservation
  split
  · exact refl s
  · dsimp only
    split
    · exact (putReservation _ _).trans (replaceCollect _ _)
    · exact (putReservation _ _).trans closeUp
  · dsimp only
    split
    · exact (putReservation _ _).trans (moveDeliver _)
    · exact (putReservation _ _).trans closeUp

theorem vanLapse (d : Nat) : Moved s (s.vanLapse d) := by
  unfold State.vanLapse
  split
  · exact (putReservation _ _).trans closeUp
  · exact refl s

/-! ### What stands -/

theorem power (h : Moved a s) : s.power = a.power := (congrArg State.power h.same :)
theorem elapsed (h : Moved a s) : s.elapsed = a.elapsed := (congrArg State.elapsed h.same :)
theorem now (h : Moved a s) : s.now = a.now := (congrArg State.now h.same :)
theorem settings (h : Moved a s) : s.settings = a.settings := (congrArg State.settings h.same :)
theorem nodes (h : Moved a s) : s.nodes = a.nodes := (congrArg State.nodes h.same :)
theorem node (h : Moved a s) (d : Nat) : s.node d = a.node d := (congrArg (fun x => State.node x d) h.same :)
theorem strings (h : Moved a s) : s.strings = a.strings := (congrArg State.strings h.same :)
theorem setAside (h : Moved a s) : s.setAside = a.setAside := (congrArg State.setAside h.same :)
theorem faults (h : Moved a s) : s.faults = a.faults := (congrArg State.faults h.same :)
theorem faultsDropped (h : Moved a s) : s.faultsDropped = a.faultsDropped := (congrArg State.faultsDropped h.same :)
theorem attention (h : Moved a s) : s.attention = a.attention := (congrArg State.attention h.same :)
theorem censusLimit (h : Moved a s) : s.censusLimit = a.censusLimit := (congrArg State.censusLimit h.same :)
theorem offlineAt (h : Moved a s) : s.offlineAt = a.offlineAt := (congrArg State.offlineAt h.same :)
theorem length (h : Moved a s) : s.docks.length = a.docks.length := by
  have := congrArg List.length h.sites
  rwa [List.length_map, List.length_map] at this
theorem hasDock (h : Moved a s) {d : Nat} : s.hasDock d ↔ a.hasDock d := hasDock_congr h.length

theorem site (h : Moved a s) (d : Nat) : (s.dock d).site = (a.dock d).site := by
  have at_ (x : State) : (x.dock d).site = ((entryAt (x.docks.map Dock.site) d).getD (.atStart false)) := by
    unfold State.dock entryAt
    split
    · rfl
    · rw [List.getElem?_map]
      cases x.docks[d - 1]? <;> rfl
  rw [at_, at_, h.sites]

theorem configured (h : Moved a s) (d : Nat) : (s.dock d).configured = (a.dock d).configured :=
  (congrArg Dock.configured (h.site d) :)
theorem state (h : Moved a s) (d : Nat) : (s.dock d).state = (a.dock d).state := (congrArg Dock.state (h.site d) :)
theorem lock (h : Moved a s) (d : Nat) : (s.dock d).lock = (a.dock d).lock := (congrArg Dock.lock (h.site d) :)
theorem counter (h : Moved a s) (d : Nat) : (s.dock d).counter = (a.dock d).counter := (congrArg Dock.counter (h.site d) :)
theorem release (h : Moved a s) (d : Nat) : (s.dock d).release = (a.dock d).release := (congrArg Dock.release (h.site d) :)

end Moved

end Sys2Proof.Machine
end

