-- ==== Sys2Proof/Proofs/Offline.lean ====
section
/-! PROOFS. A dock taken OFFLINE by a silence or a reset, by its release and its reservation (R7, R16, R36, R125, R127). -/

namespace Sys2Proof.Machine

section Offline

variable {s : State} {d : Nat} {r : Release} {silence : Bool} {crew n : Nat}

/-- A command list that is abandoned is emptied, and its results change nothing (R15, R35). -/
theorem abandonCommands_eq (s : State) (d : Nat) (cause : AbandonCause) :
    s.abandonCommands d cause = s.putNode d { s.node d with current := none, waiting := [] } := by
  have idle (l : List Command) (t : State) : l.foldl (fun t c => t.onResult d c (.abandoned cause)) t = t := by
    induction l generalizing t with
    | nil => rfl
    | cons c l ih => exact ih t
  exact idle _ _

/-- The state in which a dock has fallen OFFLINE, its reservation standing. -/
def State.fallen (s : State) (d : Nat) : State :=
  s.putDock d { s.dock d with
    state := .offline, release := none, windowAt := none, relockAt := none, lockoutPending := false, shown := none }

theorem fallen_dockwise (s : State) (d : Nat) : Dockwise s (s.fallen d) := Dockwise.putDock _ _

theorem fallen_dock (h : s.hasDock d) :
    (s.fallen d).dock d = { s.dock d with
      state := .offline, release := none, windowAt := none, relockAt := none, lockoutPending := false, shown := none } :=
  dock_putDock_has h

theorem fallen_dock_ne {e : Nat} (h : e ≠ d) : (s.fallen d).dock e = s.dock e := dock_putDock_ne h

/-- Faults hears of it: a COMMS fault after a silence, and the offline timer (R125, R127). -/
def State.offlined (s : State) (d : Nat) (silence : Bool) : State :=
  (if silence then s.reportSilence d else s).startOffline d

theorem takeOffline_eq (h : s.hasDock d) (silence : Bool) :
    s.takeOffline d silence =
      match (s.dock d).release with
      | some r => ((((s.fallen d).tellVan d r).loseReservation d).offlined d silence).giveUp r
      | none => ((s.fallen d).loseReservation d).offlined d silence := by
  have fell : (s.discardRelease d .offline).editDock d (fun k =>
      { k with relockAt := none, lockoutPending := false, shown := none }) = s.fallen d := by
    unfold State.editDock
    rw [discardRelease_eq, dock_putDock_has h]
    exact putDock_putDock h rfl
  unfold State.takeOffline
  dsimp only
  rw [fell]
  cases (s.dock d).release <;> rfl

theorem takeOffline_unreleased (h : s.hasDock d) (hr : (s.dock d).release = none) :
    s.takeOffline d silence = ((s.fallen d).loseReservation d).offlined d silence := by
  rw [takeOffline_eq h, hr]

theorem takeOffline_hire {hirer : Hirer} {issue : Option Nat} {ref : HireRef} {image : TripImage}
    (hr : (s.dock d).release = some r) (hp : r.party = .hire hirer issue ref image)
    (hu : (s.dock d).reservation = .unreserved) :
    s.takeOffline d silence = ((s.fallen d).offlined d silence).giveUp r := by
  have h := hasDock_of_release hr
  rw [takeOffline_eq h, hr]
  dsimp only
  rw [tellVan_hire hp, loseReservation_unreserved (by rw [fallen_dock h]; exact hu)]

theorem takeOffline_van (hr : (s.dock d).release = some r) (hp : r.party = .van crew n) :
    s.takeOffline d silence = (((s.fallen d).vanLapse d).loseReservation d).offlined d silence := by
  rw [takeOffline_eq (hasDock_of_release hr), hr]
  dsimp only
  rw [tellVan_van hp, giveUp_van hp]

theorem takeOffline_van_open (hr : (s.dock d).release = some r) (hp : r.party = .van crew n)
    (hv : s.van.phase ≠ .closing) :
    s.takeOffline d silence = ((s.fallen d).loseReservation d).offlined d silence := by
  rw [takeOffline_van hr hp, vanLapse_open (by rw [(fallen_dockwise s d).van]; exact hv)]

theorem fallen_reservation_gone (hs : s.hasDock d) {u : State} (hu : u.docks = ((s.fallen d).putReservation d .unreserved).docks) :
    (u.dock d).reservation = .unreserved := by
  have dock : u.dock d = ((s.fallen d).putReservation d .unreserved).dock d := by unfold State.dock; rw [hu]
  rw [dock, dock_dropReservation, if_pos rfl]

/-- In CLOSING a VAN release abandoned drops its reservation. -/
theorem takeOffline_van_waits (hs : s.sized) (hr : (s.dock d).release = some r) (hp : r.party = .van crew n)
    (hv : s.van.phase = .closing) (hne : s.vanReleases ≠ [d]) :
    s.takeOffline d silence = ((s.fallen d).putReservation d .unreserved).offlined d silence := by
  have has := hasDock_of_release hr
  have inFlight : d ∈ s.vanReleases := mem_vanReleases.2 ⟨mem_dockNumbers_of_sized hs has, r, crew, n, hr, hp⟩
  rw [takeOffline_van hr hp, vanLapse_waits (by rw [(fallen_dockwise s d).van, hv])
    (vanReleases_ne_nil hne inFlight fun e he => by rw [fallen_dock_ne he])]
  rw [loseReservation_unreserved (fallen_reservation_gone has rfl)]

/-- With the last one the summary is posted. -/
theorem takeOffline_van_posts {ending : VanEnding} (hr : (s.dock d).release = some r) (hp : r.party = .van crew n)
    (hv : s.van.phase = .closing) (hone : s.vanReleases = [d]) (he : s.van.ending = some ending)
    (hsum : s.van.summary = none) (hm : s.van.moves = []) (hf : 0 < s.free) :
    s.takeOffline d silence =
      State.offlined { ((s.fallen d).putReservation d .unreserved).post (.vanSummary (s.van.summaryOf ending)) with
        van := .idleWith s.van.counter } d silence := by
  have has := hasDock_of_release hr
  have fell := fallen_dockwise s d
  have posts : (s.fallen d).vanLapse d = { ((s.fallen d).putReservation d .unreserved).post
      (.vanSummary (s.van.summaryOf ending)) with van := .idleWith s.van.counter } := by
    have := vanLapse_posts (s := s.fallen d) (d := d) (ending := ending) (by rw [fell.van, hv]) (by rw [fell.van, he])
      (by rw [fell.van, hsum])
      (vanReleases_nil hone (by rw [fallen_dock has]) fun e he => by rw [fallen_dock_ne he])
      (by rw [fell.van, hm]) (by rw [fell.free]; exact hf)
    rwa [fell.van] at this
  rw [takeOffline_van hr hp, posts, loseReservation_unreserved]
  exact fallen_reservation_gone has (State.post_docks ..)

theorem startOffline_eq (s : State) (d : Nat) :
    s.startOffline d =
      if s.censusLimit = none then { s with offlineAt := setEntry s.offlineAt d (some (s.elapsed + 5000)) } else s := by
  unfold State.startOffline State.censusRuns Config.censusPeriod
  cases s.censusLimit <;> rfl

end Offline

end Sys2Proof.Machine
end

