-- ==== Sys2Proof/Proofs/StringReset.lean ====
section
/-! PROOFS. STRING_RESET: the reset of a node by its release and its reservation, and the reset of a quiet string (R16, R36). -/

namespace Sys2Proof.Machine

section ResetNode

variable {s u : State} {d : Nat}

/-- The state in which a node's commands have been dropped. -/
def State.abandoned (s : State) (d : Nat) : State := s.putNode d { s.node d with current := none, waiting := [] }

/-- The state with the node of a dock ENUMERATING afresh. -/
def State.renewed (s : State) (d now : Nat) : State :=
  s.putNode d
    { phase := .enumerating, silenceAt := now + 2000, lastEvent := none, power := .normal, counter := 1
      current := none, waiting := [], censused := false }

/-- The state with the offline timer of a dock started outside the census phase. -/
def State.timed (s : State) (d : Nat) (at_ : List (Option Nat)) (limit : Option Nat) (now : Nat) : State :=
  if limit = none then { s with offlineAt := setEntry at_ d (some (now + 5000)) } else s

theorem timed_startOffline (h : Moved s u) : u.startOffline d = u.timed d s.offlineAt s.censusLimit s.elapsed := by
  rw [startOffline_eq]
  unfold State.timed
  by_cases hl : s.censusLimit = none
  · rw [if_pos (h.censusLimit.trans hl), if_pos hl, ← h.offlineAt, ← h.elapsed]
  · rw [if_neg (h.censusLimit ▸ hl), if_neg hl]

theorem node_abandoned (hs : s.sized) (hd : d ∈ dockNumbers) (hn : u.nodes = (s.abandoned d).nodes) :
    u.node d = { s.node d with current := none, waiting := [] } := by
  have node : u.node d = (s.abandoned d).node d := by unfold State.node; rw [hn]
  rw [node]
  unfold State.abandoned
  have has : (entryAt s.nodes d).isSome = true := by
    unfold dockNumbers at hd
    rw [List.mem_range'_1] at hd
    unfold entryAt
    rw [if_neg (by omega), List.getElem?_eq_getElem (by have := hs.2.1; omega)]
    rfl
  rw [node_putNode, if_pos ⟨rfl, has⟩]

theorem resetNode_of_takeOffline (hs : s.sized) (hd : d ∈ dockNumbers)
    (h : (s.abandoned d).takeOffline d false = u.timed d s.offlineAt s.censusLimit s.elapsed)
    (hn : u.nodes = (s.abandoned d).nodes) (he : u.elapsed = s.elapsed) :
    s.resetNode d = (u.timed d s.offlineAt s.censusLimit s.elapsed).renewed d s.elapsed := by
  unfold State.resetNode
  rw [abandonCommands_eq, show s.putNode d _ = s.abandoned d from rfl, h]
  have nodes : (u.timed d s.offlineAt s.censusLimit s.elapsed).nodes = (s.abandoned d).nodes := by
    rw [← hn]
    unfold State.timed
    split <;> rfl
  have elapsed : (u.timed d s.offlineAt s.censusLimit s.elapsed).elapsed = s.elapsed := by
    rw [← he]
    unfold State.timed
    split <;> rfl
  dsimp only
  rw [node_abandoned hs hd nodes]
  unfold State.renewed
  rw [← elapsed]
  rfl

/-- A node reset with its reservation lost (R146, R147). -/
theorem resetNode_loses (hs : s.sized) (hd : d ∈ dockNumbers)
    (h : (s.abandoned d).takeOffline d false = (((s.abandoned d).fallen d).loseReservation d).offlined d false) :
    s.resetNode d = ((((s.abandoned d).fallen d).loseReservation d).timed d s.offlineAt s.censusLimit s.elapsed).renewed d
      s.elapsed := by
  have moved : Moved ((s.abandoned d).fallen d) (((s.abandoned d).fallen d).loseReservation d) := Moved.loseReservation d
  have fell := fallen_dockwise (s.abandoned d) d
  refine resetNode_of_takeOffline hs hd (h.trans ((timed_startOffline moved).trans ?_)) ?_ ?_
  · rw [fell.offlineAt, fell.censusLimit, fell.elapsed]
    rfl
  · rw [moved.nodes]
    exact State.putDock_nodes ..
  · rw [moved.elapsed, fell.elapsed]
    rfl

theorem timed_post (at_ : List (Option Nat)) (limit : Option Nat) (now : Nat) (b : Body) :
    (s.timed d at_ limit now).post b = (s.post b).timed d at_ limit now := by
  unfold State.timed
  split
  · unfold State.post
    dsimp only
    split <;> rfl
  · rfl

theorem timed_putPass (at_ : List (Option Nat)) (limit : Option Nat) (now slot : Nat) (p : Option Pass) :
    (s.timed d at_ limit now).putPass slot p = (s.putPass slot p).timed d at_ limit now := by
  unfold State.timed
  split
  · unfold State.putPass
    dsimp only
    by_cases hc : (s.pass slot).map (fun q => q.state) = p.map (fun q => q.state)
    · rw [if_pos hc]
      exact if_pos hc
    · rw [if_neg hc]
      exact if_neg hc
  · rfl

theorem timed_setAside (at_ : List (Option Nat)) (limit : Option Nat) (now n : Nat) :
    ({ s.timed d at_ limit now with setAside := n } : State) = ({ s with setAside := n } : State).timed d at_ limit now := by
  unfold State.timed
  split <;> rfl

theorem timed_same (at_ : List (Option Nat)) (limit : Option Nat) (now : Nat) :
    s.timed d at_ limit now = { s with offlineAt := (s.timed d at_ limit now).offlineAt } := by
  unfold State.timed
  split
  · rfl
  · rfl

end ResetNode

/-! ### The reset of a string whose docks are quiet -/

section Quiet

variable {s t : State} {base k d : Nat}

/-- A dock OFFLINE after a reset without a release. -/
def Dock.reset (x : Dock) : Dock :=
  { x with state := .offline, windowAt := none, relockAt := none, lockoutPending := false, shown := none }

/-- A node ENUMERATING after a reset. -/
def Node.reset (n : Node) (now : Nat) : Node :=
  { n with
    phase := .enumerating, silenceAt := now + 2000, lastEvent := none, power := .normal, counter := 1
    current := none, waiting := [], censused := false }

/-- The state after the reset of the first `k` nodes of a string. -/
structure ResetUpTo (s t : State) (base k : Nat) : Prop where
  same : ({ t with docks := s.docks, nodes := s.nodes, offlineAt := s.offlineAt, link := s.link } : State) = s
  docks : t.docks.length = s.docks.length
  nodes : t.nodes.length = s.nodes.length
  timers : t.offlineAt.length = s.offlineAt.length
  inside : ∀ d, base < d → d ≤ base + k →
    t.dock d = (s.dock d).reset ∧ t.node d = (s.node d).reset s.elapsed ∧
      (entryAt t.offlineAt d).join =
        if s.censusLimit = none then some (s.elapsed + 5000) else (entryAt s.offlineAt d).join
  outside : ∀ d, ¬ (base < d ∧ d ≤ base + k) →
    t.dock d = s.dock d ∧ t.node d = s.node d ∧ entryAt t.offlineAt d = entryAt s.offlineAt d
  link : t.link = { s.link with marks := { s.link.marks with
    dockState := s.link.marks.dockState || (List.range k).any (fun a => (s.dock (base + a + 1)).state != .offline) } }

theorem resetUpTo_zero (s : State) (base : Nat) : ResetUpTo s s base 0 := by
  refine ⟨rfl, rfl, rfl, rfl, fun d h1 h2 => by omega, fun d _ => ⟨rfl, rfl, rfl⟩, ?_⟩
  rw [List.range_zero, List.any_nil, Bool.or_false]

/-- A dock that falls OFFLINE changes a count of R20 where it was not OFFLINE before. -/
theorem fallen_link (s : State) (d : Nat) :
    (s.fallen d).link = { s.link with marks := { s.link.marks with
      dockState := s.link.marks.dockState || ((s.dock d).state != .offline) } } := by
  unfold State.fallen State.putDock
  dsimp only
  by_cases ho : (s.dock d).state = .offline
  · rw [if_pos (by simp [Dock.share, Dock.inStock, Dock.isOpen, Dock.holds, ho])]
    simp [ho]
  · rw [if_neg fun hc => ho (congrArg Prod.fst hc)]
    simp [ho, State.raise, State.withMarks, Marks.put]

theorem entryAt_isSome {α : Type} {l : List α} {n : Nat} (h1 : 1 ≤ n) (h : n ≤ l.length) : (entryAt l n).isSome = true := by
  unfold entryAt
  rw [if_neg (by omega), List.getElem?_eq_getElem (by omega)]
  rfl

/-- The reset of a node whose dock carries neither release nor reservation. -/
theorem resetNode_quiet (hs : s.sized) (hd : d ∈ dockNumbers) (hr : (s.dock d).release = none)
    (hu : (s.dock d).reservation = .unreserved) :
    s.resetNode d = { s with
      docks := setEntry s.docks d (s.dock d).reset
      nodes := setEntry s.nodes d ((s.node d).reset s.elapsed)
      offlineAt := if s.censusLimit = none then setEntry s.offlineAt d (some (s.elapsed + 5000)) else s.offlineAt
      link := { s.link with marks := { s.link.marks with
        dockState := s.link.marks.dockState || ((s.dock d).state != .offline) } } } := by
  have has : (s.abandoned d).hasDock d := hasDock_of_sized (s := s) hs hd
  rw [resetNode_loses hs hd (takeOffline_unreleased has hr),
    loseReservation_unreserved (by rw [fallen_dock has]; exact hu)]
  have fell : (s.abandoned d).fallen d =
      { s.abandoned d with
        docks := setEntry s.docks d (s.dock d).reset
        link := { s.link with marks := { s.link.marks with
          dockState := s.link.marks.dockState || ((s.dock d).state != .offline) } } } := by
    have dock : (s.dock d).reset = { s.dock d with
        state := .offline, release := none, windowAt := none, relockAt := none, lockoutPending := false, shown := none } := by
      rw [← hr]
      rfl
    have link : ((s.abandoned d).fallen d).link = { s.link with marks := { s.link.marks with
        dockState := s.link.marks.dockState || ((s.dock d).state != .offline) } } := fallen_link ..
    rw [dock, ← link]
    unfold State.fallen State.putDock
    dsimp only
    split <;> rfl
  rw [fell]
  unfold State.timed
  by_cases hl : s.censusLimit = none
  · rw [if_pos hl, if_pos hl]
    show ({ s with docks := _, nodes := setEntry (setEntry s.nodes d _) d _, offlineAt := _, link := _ } : State) = _
    rw [setEntry_setEntry]
    rfl
  · rw [if_neg hl, if_neg hl]
    show ({ s with docks := _, nodes := setEntry (setEntry s.nodes d _) d _, link := _ } : State) = _
    rw [setEntry_setEntry]
    rfl

theorem resetUpTo_succ (hs : s.sized) (h : ResetUpTo s t base k) (hk : base + k + 1 ≤ 64)
    (hr : (s.dock (base + k + 1)).release = none) (hu : (s.dock (base + k + 1)).reservation = .unreserved) :
    ResetUpTo s (t.resetNode (base + k + 1)) base (k + 1) := by
  obtain ⟨hdock, hnode, htimer⟩ := h.outside (base + k + 1) (by omega)
  have limit : t.censusLimit = s.censusLimit := (congrArg State.censusLimit h.same :)
  have elapsed : t.elapsed = s.elapsed := (congrArg State.elapsed h.same :)
  have sized : t.sized := by
    have rest := hs
    rw [← h.same] at rest
    exact ⟨h.docks.trans hs.1, h.nodes.trans hs.2.1, rest.2.2.1, rest.2.2.2.1, h.timers.trans hs.2.2.2.2.1, rest.2.2.2.2.2⟩
  have reset := resetNode_quiet sized (d := base + k + 1) (by unfold dockNumbers; rw [List.mem_range'_1]; omega)
    (by rw [hdock]; exact hr) (by rw [hdock]; exact hu)
  rw [hdock, hnode] at reset
  have dock (e : Nat) : (t.resetNode (base + k + 1)).dock e =
      if e = base + k + 1 then (s.dock (base + k + 1)).reset else t.dock e := by
    rw [reset]
    refine (dock_setEntry t (base + k + 1) e _).trans ?_
    rw [entryAt_isSome (by omega) (by rw [sized.1]; exact hk)]
    simp
  have node (e : Nat) : (t.resetNode (base + k + 1)).node e =
      if e = base + k + 1 then (s.node (base + k + 1)).reset s.elapsed else t.node e := by
    rw [reset]
    refine (node_putNode t (base + k + 1) e _).trans ?_
    rw [elapsed, entryAt_isSome (by omega) (by rw [sized.2.1]; exact hk)]
    simp
  have timer (e : Nat) : entryAt (t.resetNode (base + k + 1)).offlineAt e =
      if e = base + k + 1 ∧ s.censusLimit = none then some (some (s.elapsed + 5000)) else entryAt t.offlineAt e := by
    rw [reset]
    show entryAt (if t.censusLimit = none then _ else _) e = _
    rw [limit, elapsed]
    by_cases hl : s.censusLimit = none
    · rw [if_pos hl, entryAt_setEntry, entryAt_isSome (by omega) (by rw [sized.2.2.2.2.1]; exact hk)]
      simp [hl]
    · rw [if_neg hl]
      simp [hl]
  refine ⟨?_, ?_, ?_, ?_, fun e h1 h2 => ?_, fun e he => ?_, ?_⟩
  · rw [reset]
    exact h.same
  · rw [reset]
    dsimp only
    rw [length_setEntry, h.docks]
  · rw [reset]
    dsimp only
    rw [length_setEntry, h.nodes]
  · rw [reset]
    show (if t.censusLimit = none then _ else _ : List (Option Nat)).length = _
    split
    · exact (length_setEntry ..).trans h.timers
    · exact h.timers
  · rw [dock, node, timer]
    by_cases heq : e = base + k + 1
    · subst heq
      by_cases hl : s.censusLimit = none
      · simp [hl]
      · simp [hl, htimer]
    · rw [if_neg heq, if_neg heq, if_neg fun hc => heq hc.1]
      exact h.inside e h1 (by omega)
  · have heq : e ≠ base + k + 1 := by rintro rfl; exact he ⟨by omega, by omega⟩
    rw [dock, node, timer, if_neg heq, if_neg heq, if_neg fun hc => heq hc.1]
    exact h.outside e (by omega)
  · rw [reset]
    show { t.link with marks := { t.link.marks with
      dockState := t.link.marks.dockState || ((s.dock (base + k + 1)).state != DockState.offline) } } = _
    rw [h.link, List.range_succ, List.any_append]
    simp [Bool.or_assoc]

/-- The reset of every node of a string. -/
theorem resetUpTo_all (hs : s.sized) (count : Nat) (hk : base + count ≤ 64)
    (h : ∀ a, 1 ≤ a → a ≤ count → (s.dock (base + a)).release = none ∧ (s.dock (base + a)).reservation = .unreserved) :
    ResetUpTo s ((List.range count).foldl (fun u a => u.resetNode (base + a + 1)) s) base count := by
  induction count with
  | zero => exact resetUpTo_zero s base
  | succ k ih =>
    rw [List.range_succ, List.foldl_append]
    obtain ⟨hr, hu⟩ := h (k + 1) (by omega) le_rfl
    exact resetUpTo_succ hs (ih (by omega) fun a h1 h2 => h a h1 (by omega)) (by omega) hr hu

end Quiet

end Sys2Proof.Machine
end

