-- ==== Sys2Proof/Proofs/StringResets.lean ====
section
/-! PROOFS. STRING_RESET at the link, and the reset of one node in each case (R16, R36, R53, R67, R142, R147, R151). -/

namespace Sys2Proof.Machine

section Reset

variable {s : State} {d : Nat} {r : Release}

/-- The dock of a node reset, its reservation standing. -/
def State.resetFell (s : State) (d : Nat) : State := (s.abandoned d).fallen d

/-- With its offline timer. -/
def State.resetTimed (s : State) (d : Nat) : State := (s.resetFell d).timed d s.offlineAt s.censusLimit s.elapsed

theorem resetFell_dockwise (s : State) (d : Nat) : Dockwise s (s.resetFell d) :=
  (Dockwise.putNode _ _).trans (fallen_dockwise _ _)

theorem resetFell_nodes (s : State) (d : Nat) : (s.resetFell d).nodes = (s.abandoned d).nodes := State.putDock_nodes ..

theorem resetFell_offlined (s : State) (d : Nat) : (s.resetFell d).offlined d false = s.resetTimed d := by
  have fell := resetFell_dockwise s d
  refine (timed_startOffline (Moved.refl (s.resetFell d))).trans ?_
  rw [fell.offlineAt, fell.censusLimit, fell.elapsed]
  rfl

theorem resetTimed_same (s : State) (d : Nat) : s.resetTimed d = { s.resetFell d with offlineAt := (s.resetTimed d).offlineAt } :=
  timed_same ..

theorem resetTimed_pass (n : Nat) : (s.resetTimed d).pass n = s.pass n :=
  (congrArg (fun x => State.pass x n) (resetTimed_same s d)).trans ((resetFell_dockwise s d).pass n)

theorem resetTimed_now : (s.resetTimed d).now = s.now :=
  (congrArg State.now (resetTimed_same s d)).trans (resetFell_dockwise s d).now

theorem resetTimed_firstPlace : (s.resetTimed d).firstPlace = s.firstPlace :=
  (congrArg State.firstPlace (resetTimed_same s d)).trans (resetFell_dockwise s d).firstPlace

theorem resetTimed_free : (s.resetTimed d).free = s.free :=
  (congrArg State.free (resetTimed_same s d)).trans (resetFell_dockwise s d).free

theorem resetTimed_setAside : (s.resetTimed d).setAside = s.setAside :=
  (congrArg State.setAside (resetTimed_same s d)).trans (resetFell_dockwise s d).setAside

theorem resetTimed_passInFlight (hs : s.sized) (hd : d ∈ dockNumbers) {slot serial : Nat}
    (hother : ∀ other ∈ dockNumbers, other ≠ d → ∀ q, (s.dock other).release = some q → q.hirer? ≠ some (.pass slot serial)) :
    (s.resetTimed d).passInFlight slot serial = false := by
  have step := resetFell_dockwise s d
  refine (congrArg (fun x => State.passInFlight x slot serial) (resetTimed_same s d)).trans
    (passInFlight_false (s := s.resetFell d) fun e he x hx => ?_)
  by_cases hed : e = d
  · subst hed
    rw [State.resetFell, fallen_dock (s := s.abandoned e) (hasDock_of_sized (s := s) hs hd)] at hx
    cases hx
  · rw [State.resetFell, fallen_dock_ne hed] at hx
    exact hother e (mem_dockNumbers_of_sized hs (step.hasDock.1 he)) hed x hx

/-- The reset of a node whose dock has a hire release in flight: the slot is given back. -/
theorem resetNode_hire {u : State} {hirer : Hirer} {issue : Option Nat} {ref : HireRef} {image : TripImage}
    (hs : s.sized) (hd : d ∈ dockNumbers) (hr : (s.dock d).release = some r) (hp : r.party = .hire hirer issue ref image)
    (hu : (s.dock d).reservation = .unreserved)
    (h : (s.resetTimed d).giveUp r = u.timed d s.offlineAt s.censusLimit s.elapsed)
    (hn : u.nodes = (s.resetFell d).nodes) (he : u.elapsed = (s.resetFell d).elapsed) :
    s.resetNode d = (u.timed d s.offlineAt s.censusLimit s.elapsed).renewed d s.elapsed := by
  refine resetNode_of_takeOffline hs hd ?_ (hn.trans (resetFell_nodes s d)) (he.trans (resetFell_dockwise s d).elapsed)
  rw [takeOffline_hire (s := s.abandoned d) hr hp hu, show (s.abandoned d).fallen d = s.resetFell d from rfl,
    resetFell_offlined, h]

/-- A reservation dropped in CLOSING with the VAN release. -/
theorem resetNode_drops {u : State} (hs : s.sized) (hd : d ∈ dockNumbers)
    (h : (s.abandoned d).takeOffline d false = u.offlined d false) (hm : Moved (s.resetFell d) u) :
    s.resetNode d = (u.timed d s.offlineAt s.censusLimit s.elapsed).renewed d s.elapsed := by
  have fell := resetFell_dockwise s d
  refine resetNode_of_takeOffline hs hd (h.trans ((timed_startOffline hm).trans ?_)) (hm.nodes.trans (resetFell_nodes s d))
    (hm.elapsed.trans fell.elapsed)
  rw [fell.offlineAt, fell.censusLimit, fell.elapsed]

theorem ownStringReset_eq {n : Nat} (s : State) (h1 : 1 ≤ n) (h4 : n ≤ 4) :
    ownStringReset n s =
      ((List.range (s.line n).count).foldl (fun u a => u.resetNode (16 * (n - 1) + a + 1))
        (s.putLine n { count := (s.line n).count, next := 1, poll := none, resetSent := true }),
        { status := .ok, result := .empty }) := by
  have docks : s.stringDocks n = (List.range (s.line n).count).map (fun a => 16 * (n - 1) + a + 1) := by
    unfold State.stringDocks dockAt stringBase
    refine List.map_congr_left fun a _ => by omega
  have number : ∃ x, stringOf n = some x ∧ stringNumber x = n := by interval_cases n <;> exact ⟨_, rfl, rfl⟩
  obtain ⟨x, hx, hn⟩ := number
  unfold ownStringReset
  rw [hx]
  dsimp only
  rw [hn]
  unfold State.resetString
  rw [docks, List.foldl_map]
  rfl

end Reset

/-- Settles O54: the string by its number, the node by its release, and a quiet string by induction on its nodes. -/
theorem stringResetResult : Obligations.StringResetResult := by
  refine ⟨fun tag s hs => ⟨fun n hn => ?_, fun n h1 h4 => ?_⟩, fun d s hd hs => ?_, fun tag s hs hsized n h1 h4 hcount hquiet => ?_⟩
  · refine exec_own (q := .stringReset n) (s := s) (t := s) rfl hs ?_
    show ownStringReset n s = _
    have none_ : stringOf n = none := by
      unfold stringOf
      split <;> first | omega | rfl
    unfold ownStringReset
    rw [none_]
    rfl
  · intro begun reset
    exact exec_own (q := .stringReset n) (s := s) (t := reset) rfl hs (ownStringReset_eq s h1 h4)
  · intro fell gives
    have has := hasDock_of_sized hs hd
    have step := resetFell_dockwise s d
    refine ⟨fun hr => ?_, fun r hirer issue ref image hr hp hu hfirst =>
      ⟨fun hq => ?_, fun slot serial p hh hin hpass hserial hstate hheld hother hf => ?_⟩,
      fun r crew n hr hp => ⟨fun hv => ?_, fun hv => ?_⟩⟩
    · exact resetNode_loses hs hd (takeOffline_unreleased (s := s.abandoned d) has hr)
    · refine resetNode_hire (u := { fell with setAside := s.setAside - 1 }) hs hd hr hp hu ?_ rfl rfl
      rw [giveUp_back hp (by simpa only [resetTimed_pass, resetTimed_now] using hq),
        giveBack_idle (by rw [resetTimed_firstPlace, hfirst]), resetTimed_setAside]
      exact timed_setAside ..
    · subst hh
      intro q
      refine resetNode_hire (u := { (((fell.putPass slot (some q)).post (.passSettle slot q)).putPass slot none) with
        setAside := s.setAside - 1 }) hs hd hr hp hu ?_ ?_ ?_
      · rw [giveUp_settles hp hin (by rw [resetTimed_pass, hpass]) hserial hstate (by rwa [resetTimed_now])
          (resetTimed_passInFlight hs hd hother) (by rw [resetTimed_firstPlace, hfirst]) (by rwa [resetTimed_free]),
          resetTimed_setAside]
        unfold State.resetTimed
        rw [timed_putPass, timed_post, timed_putPass, timed_setAside]
        rfl
      · show (((fell.putPass slot (some q)).post (.passSettle slot q)).putPass slot none).nodes = _
        simp
        rfl
      · show (((fell.putPass slot (some q)).post (.passSettle slot q)).putPass slot none).elapsed = _
        simp
        rfl
    · exact resetNode_loses hs hd (takeOffline_van_open (s := s.abandoned d) hr hp (by
        rcases hv with hv | hv <;> rw [show (s.abandoned d).van.phase = s.van.phase from rfl, hv] <;> decide))
    · intro gone
      have sized : (s.abandoned d).sized := ⟨hs.1, (length_setEntry ..).trans hs.2.1, hs.2.2⟩
      have moved : Moved (s.resetFell d) gone := Moved.putReservation d .unreserved
      refine ⟨fun hne => ?_, fun ending hone hend hsum hm hf => ?_⟩
      · exact resetNode_drops hs hd (takeOffline_van_waits (s := s.abandoned d) sized hr hp hv hne) moved
      · exact resetNode_drops hs hd
          (takeOffline_van_posts (s := s.abandoned d) hr hp hv hone hend hsum hm hf)
          ((moved.trans (Moved.post _)).trans (Moved.withVan _))
  · let begun := s.putLine n { count := (s.line n).count, next := 1, poll := none, resetSent := true }
    have sized : begun.sized := by
      obtain ⟨h1, h2, h3, h4⟩ := hsized
      exact ⟨h1, h2, (length_setEntry ..).trans h3, h4⟩
    have all := resetUpTo_all (base := 16 * (n - 1)) sized (s.line n).count (by omega) hquiet
    refine ⟨_, exec_own (q := .stringReset n) rfl hs (ownStringReset_eq s h1 h4), ?_, fun d h1 h64 => ⟨fun hin => ?_, fun hout => ?_⟩,
      all.link, ?_⟩
    · exact (congrArg State.strings all.same :)
    · exact all.inside d hin.1 hin.2
    · exact all.outside d hout
    · have same := all.same
      have back := congrArg (fun x : State => ({ x with strings := s.strings } : State)) same
      exact back

end Sys2Proof.Machine
end

