-- ==== Sys2Proof/Proofs/LostReservations.lean ====
section
/-! PROOFS. A reservation lost in RESERVING or ACTIVE: it moves, is replaced, or its entry falls (R145 to R147, R150). -/

namespace Sys2Proof.Machine

section Lose

variable {s : State} {d n e : Nat} {m : ManifestEntry} {sel : Selector}

theorem open_of_phase (h : s.van.phase = .reserving ∨ s.van.phase = .active) : s.van.phase.open = true := by
  rcases h with h | h <;> rw [h] <;> rfl

theorem loseReservation_deliver (h : s.van.phase = .reserving ∨ s.van.phase = .active)
    (hr : (s.dock d).reservation = .deliver n) :
    s.loseReservation d = (s.putReservation d .unreserved).moveDeliver n := by
  unfold State.loseReservation
  rw [hr]
  exact if_pos (open_of_phase h)

theorem loseReservation_collect (h : s.van.phase = .reserving ∨ s.van.phase = .active)
    (hr : (s.dock d).reservation = .collect n) :
    s.loseReservation d = (s.putReservation d .unreserved).replaceCollect n d := by
  unfold State.loseReservation
  rw [hr]
  exact if_pos (open_of_phase h)

/-- The dock that lost it is no candidate where it is not EMPTY, so the candidates are those there were. -/
theorem dropped_candidate (hne : (s.dock d).state ≠ .empty) (c : Nat) :
    ((s.putReservation d .unreserved).dock c).state ≠ .empty ∨
        ((s.putReservation d .unreserved).dock c).reservation ≠ .unreserved ↔
      (s.dock c).state ≠ .empty ∨ (s.dock c).reservation ≠ .unreserved := by
  rw [dock_dropReservation]
  by_cases hc : c = d
  · subst hc
    simp [hne]
  · rw [if_neg hc]

theorem moveDeliver_moves (hd : (s.dock d).state ≠ .empty) (he : e ∈ dockNumbers) (hs : (s.dock e).state = .empty)
    (hu : (s.dock e).reservation = .unreserved)
    (hlow : ∀ c ∈ dockNumbers, c < e → (s.dock c).state ≠ .empty ∨ (s.dock c).reservation ≠ .unreserved) :
    (s.putReservation d .unreserved).moveDeliver n =
      (s.putReservation d .unreserved).putReservation e (.deliver n) := by
  have found : (s.putReservation d .unreserved).nextDeliver = some e := by
    refine nextDeliver_some.2 ⟨he, ?_, fun c hc hlt => (dropped_candidate hd c).2 (hlow c hc hlt)⟩
    have := (dropped_candidate hd e).not
    simp only [not_or, not_not] at this
    exact this.2 ⟨hs, hu⟩
  unfold State.moveDeliver
  rw [found]

theorem moveDeliver_falls (hd : (s.dock d).state ≠ .empty)
    (hnone : ∀ c ∈ dockNumbers, (s.dock c).state ≠ .empty ∨ (s.dock c).reservation ≠ .unreserved) :
    (s.putReservation d .unreserved).moveDeliver n = (s.putReservation d .unreserved).fall n := by
  unfold State.moveDeliver
  rw [nextDeliver_none.2 fun c hc => (dropped_candidate hd c).2 (hnone c hc)]

theorem replaceCollect_replaces (hm : entryAt s.van.manifest n = some m) (hk : m.kind = .collect sel)
    (he : s.nextCollect sel d = some e) : s.replaceCollect n d = s.placeCollect n e := by
  unfold State.replaceCollect
  obtain ⟨k, asked, target, done, short⟩ := m
  subst hk
  rw [hm]
  dsimp only
  rw [he]

theorem replaceCollect_falls (hm : entryAt s.van.manifest n = some m) (hk : m.kind = .collect sel)
    (he : s.nextCollect sel d = none) : s.replaceCollect n d = s.fall n := by
  unfold State.replaceCollect
  obtain ⟨k, asked, target, done, short⟩ := m
  subst hk
  rw [hm]
  dsimp only
  rw [he]

/-- The state in which an entry has fallen after a reservation was dropped (R145). -/
def State.shortened (s : State) (n : Nat) (m : ManifestEntry) : State :=
  { s with van := { s.van with
    manifest := setEntry s.van.manifest n { m with target := m.target - 1, short := m.short + 1 } } }

theorem fall_eq (hm : entryAt s.van.manifest n = some m) (hv : s.link.marks.vanState = true) :
    s.fall n = (s.shortened n m).endIfMet := by
  unfold State.fall
  rw [updateEntry_raised hm hv]
  rfl

theorem met_true_iff {v : Van} : v.met = true ↔ ∀ x ∈ v.manifest, x.done = x.target := by
  unfold Van.met
  simp [List.all_eq_true]

theorem endIfMet_goesOn (h : s.van.phase = .reserving ∨ ∃ x ∈ s.van.manifest, x.done ≠ x.target) : s.endIfMet = s := by
  refine if_neg fun hc => ?_
  rcases h with h | ⟨x, hx, hne⟩
  · rw [h] at hc
    cases hc.1
  · exact hne (met_true_iff.1 hc.2 x hx)

theorem endIfMet_ends (hp : s.van.phase = .active) (h : ∀ x ∈ s.van.manifest, x.done = x.target) :
    s.endIfMet = s.endSession .exhaustion .exhausted := if_pos ⟨hp, met_true_iff.2 h⟩

end Lose

end Sys2Proof.Machine
end

