-- ==== Sys2Proof/Proofs/Silence.lean ====
section
/-! PROOFS. SILENCE_TIMEOUT by the node's phase, the dock's release and its reservation, and the reservation lost (R6, R7, R36,
R125, R127, R145 to R147, R151, R153). -/

namespace Sys2Proof.Machine

section Silence

variable {s u : State} {d : Nat} {r : Release}

/-- A node written twice holds what was written last. -/
theorem putNode_putNode (s : State) (d : Nat) (f : Node → Node) (x : Node) :
    (s.putNode d x).putNode d (f ((s.putNode d x).node d)) = s.putNode d (f x) := by
  have nodes : setEntry (setEntry s.nodes d x) d (f ((s.putNode d x).node d)) = setEntry s.nodes d (f x) := by
    rw [setEntry_setEntry, node_putNode]
    by_cases h : (entryAt s.nodes d).isSome = true
    · rw [if_pos ⟨rfl, h⟩]
    · unfold setEntry
      split
      · rfl
      · rename_i h0
        unfold entryAt at h
        rw [if_neg h0, Option.not_isSome_iff_eq_none, List.getElem?_eq_none_iff] at h
        rw [List.set_eq_of_length_le h, List.set_eq_of_length_le h]
  exact congrArg (fun l => ({ s with nodes := l } : State)) nodes

/-- The state in which a node has fallen SILENT. -/
def State.silenced (s : State) (d : Nat) : State :=
  s.putNode d { s.node d with
    phase := .silent, silenceAt := s.elapsed + 2000, lastEvent := none, current := none, waiting := [] }

theorem silenceDue_idle (h : (s.dock d).configured = false ∨ s.elapsed < (s.node d).silenceAt) : s.silenceDue d = s := by
  refine if_neg fun hc => ?_
  rcases h with h | h
  · rw [h] at hc
    cases hc.1
  · have := hc.2
    omega

theorem silenceDue_silent (hc : (s.dock d).configured = true) (ht : (s.node d).silenceAt ≤ s.elapsed)
    (hp : (s.node d).phase = .silent) :
    s.silenceDue d = s.putNode d { s.node d with silenceAt := s.elapsed + 2000 } :=
  (if_pos ⟨hc, ht⟩).trans (if_pos hp)

theorem silenceDue_falls (hc : (s.dock d).configured = true) (ht : (s.node d).silenceAt ≤ s.elapsed)
    (hp : (s.node d).phase ≠ .silent) : s.silenceDue d = (s.silenced d).takeOffline d true := by
  refine (if_pos ⟨hc, ht⟩).trans ((if_neg hp).trans ?_)
  rw [abandonCommands_eq]
  exact congrArg (State.takeOffline · d true) (putNode_putNode s d (fun n => { n with
    phase := .silent, silenceAt := s.elapsed + Config.silenceLimit, lastEvent := none }) _)

/-- The dock of a node fallen SILENT, its reservation standing. -/
def State.silentFell (s : State) (d : Nat) : State := (s.silenced d).fallen d

theorem silentFell_dockwise (s : State) (d : Nat) : Dockwise s (s.silentFell d) :=
  (Dockwise.putNode _ _).trans (fallen_dockwise _ _)

/-- A COMMS fault posted and the offline timer started, outside the census phase (R125, R127). -/
def State.comms (u : State) (d : Nat) (limit : Option Nat) (now : Nat) : State :=
  if limit = none then
    { u.post (.fault
        { subject := .dock, dock := some d, bikeId := (u.dock d).bike.map (fun b => b.id), tagBikeId := none
          tagRef := none, kind := some (.dock .comms), source := none, cause := some .silence, reporter := none
          reporters := none, confirmCount := none, effect := .noted, conditionAfter := none
          counterAfter := some (u.dock d).counter, counterBefore := none, dockState := some (u.dock d).state
          bikeAbsent := false } u.faultsDropped) with
      faultsDropped := 0, offlineAt := setEntry u.offlineAt d (some (now + 5000)) }
  else u

theorem offlined_comms (hc : u.censusLimit = s.censusLimit) (he : u.elapsed = s.elapsed) (room : s.censusLimit = none → 0 < u.free ∧ u.faults = []) :
    u.offlined d true = u.comms d s.censusLimit s.elapsed := by
  unfold State.offlined State.comms
  rw [if_pos rfl]
  by_cases hl : s.censusLimit = none
  · obtain ⟨hf, hn⟩ := room hl
    have limit := hc.trans hl
    have reports : u.reportSilence d = u.noteFault d .comms .silence := if_neg (by unfold State.censusRuns; simp [limit])
    rw [if_pos hl, reports]
    unfold State.noteFault
    rw [makeFault_posts hf hn, startOffline_eq, if_pos ((State.post_censusLimit ..).trans limit), ← he]
    show ({ u.post _ with faultsDropped := 0, offlineAt := setEntry (u.post _).offlineAt d (some ((u.post _).elapsed + 5000)) } : State) = _
    rw [State.post_offlineAt, State.post_elapsed]
    rfl
  · have limit : u.censusLimit ≠ none := hc ▸ hl
    have reports : u.reportSilence d = u := if_pos (by unfold State.censusRuns; rw [Option.isSome_iff_ne_none]; exact limit)
    rw [if_neg hl, reports, startOffline_eq, if_neg limit]

/-- What a COMMS fault leaves of the state but for the journal, the dropped count and the offline timers. -/
theorem comms_pass (limit : Option Nat) (now n : Nat) : (u.comms d limit now).pass n = u.pass n := by
  unfold State.comms
  split
  · exact State.post_pass ..
  · rfl

theorem comms_now (limit : Option Nat) (now : Nat) : (u.comms d limit now).now = u.now := by
  unfold State.comms
  split
  · exact State.post_now ..
  · rfl

theorem comms_setAside (limit : Option Nat) (now : Nat) : (u.comms d limit now).setAside = u.setAside := by
  unfold State.comms
  split
  · exact State.post_setAside ..
  · rfl

theorem comms_docks (limit : Option Nat) (now : Nat) : (u.comms d limit now).docks = u.docks := by
  unfold State.comms
  split
  · exact State.post_docks ..
  · rfl

theorem comms_free (limit : Option Nat) (now : Nat) (h : 1 < u.free) : 0 < (u.comms d limit now).free := by
  unfold State.comms
  split
  · show 0 < (u.post _).free
    rw [State.post_free]
    omega
  · omega

theorem comms_firstPlace (limit : Option Nat) (now : Nat) : (u.comms d limit now).firstPlace = u.firstPlace := by
  unfold State.comms
  split
  · refine firstPlace_congr ?_ (fun n => State.post_pass ..) ?_ ?_ ?_ ?_
    · exact State.post_entries ..
    · exact State.post_van ..
    · exact State.post_faults ..
    · exact State.post_directives ..
    · exact State.post_sixth ..
  · rfl

theorem silentFell_passInFlight (hs : s.sized) (has : s.hasDock d) {slot serial : Nat}
    (hother : ∀ other ∈ dockNumbers, other ≠ d → ∀ q, (s.dock other).release = some q → q.hirer? ≠ some (.pass slot serial)) :
    (s.silentFell d).passInFlight slot serial = false := by
  have step := silentFell_dockwise s d
  refine passInFlight_false fun e he x hx => ?_
  by_cases hed : e = d
  · subst hed
    rw [State.silentFell, fallen_dock (s := s.silenced e) has] at hx
    cases hx
  · rw [State.silentFell, fallen_dock_ne hed] at hx
    exact hother e (mem_dockNumbers_of_sized hs (step.hasDock.1 he)) hed x hx

end Silence

/-- Settles O47: the timer by the node's phase, the fall by the dock's release, and the reservation by its kind. -/
theorem silenceResult : Obligations.SilenceResult := by
  refine ⟨fun d s hs => ?_, fun d n s hd hlen => ?_, fun sel skip s => ?_⟩
  · have row {t : State} (h : s.silenceDue d = t) : exec (.silenceTimeout d) s = .next (t.finish s) :=
      exec_row (f := fun s => s.silenceDue d) rfl hs h (by
        rw [← h]
        exact congrArg Spine.power (State.silenceDue_flow .refl d).spine)
    refine ⟨fun h => row (silenceDue_idle h), fun hc ht => ⟨fun hp => row (silenceDue_silent hc ht hp), fun hp => ?_⟩⟩
    intro fell reports room gives
    have falls {t : State} (h : (s.silenced d).takeOffline d true = t) : gives t := row ((silenceDue_falls hc ht hp).trans h)
    have has : s.hasDock d := hasDock_of_ne fun h => by rw [h] at hc; cases hc
    have step := silentFell_dockwise s d
    have heard {u : State} (h : Moved (s.silentFell d) u) (hr : room u) : u.offlined d true = reports u :=
      offlined_comms (h.censusLimit.trans step.censusLimit) (h.elapsed.trans step.elapsed) hr
    refine ⟨fun hr hu hroom => falls ?_, fun r hirer issue ref image hr hpar hu hroom =>
      ⟨fun hq hfirst => falls ?_, fun slot serial p hh hin hpass hserial hstate hheld hother hsized hfirst hf => ?_⟩,
      fun hr hv hroom => falls ?_, fun r crew n hr hpar hv hsized => ?_⟩
    · rw [takeOffline_unreleased (s := s.silenced d) has hr, loseReservation_unreserved]
      · exact heard (Moved.refl _) hroom
      · rw [fallen_dock (s := s.silenced d) has]
        exact hu
    · rw [takeOffline_hire (s := s.silenced d) hr hpar hu, show (s.silenced d).fallen d = s.silentFell d from rfl,
        heard (Moved.refl _) hroom]
      show ((s.silentFell d).comms d s.censusLimit s.elapsed).giveUp r = _
      rw [giveUp_back hpar (by simpa only [comms_pass, comms_now, step.pass, step.now] using hq),
        giveBack_idle (by rw [comms_firstPlace, step.firstPlace, hfirst]), comms_setAside, step.setAside]
      rfl
    · subst hh
      intro q
      refine falls ?_
      have flight : ((s.silentFell d).comms d s.censusLimit s.elapsed).passInFlight slot serial = false := by
        unfold State.passInFlight State.releases
        rw [comms_docks]
        exact silentFell_passInFlight hsized has hother
      rw [takeOffline_hire (s := s.silenced d) hr hpar hu, show (s.silenced d).fallen d = s.silentFell d from rfl,
        heard (Moved.refl _) hroom]
      show ((s.silentFell d).comms d s.censusLimit s.elapsed).giveUp r = _
      rw [giveUp_settles hpar hin (by rw [comms_pass, step.pass, hpass]) hserial hstate (by rwa [comms_now, step.now]) flight
        (by rw [comms_firstPlace, step.firstPlace, hfirst]) (comms_free _ _ (by rwa [step.free])), comms_setAside, step.setAside]
      rfl
    · have lost : Moved (s.silentFell d) ((s.silentFell d).loseReservation d) := Moved.loseReservation d
      rcases hr with hr | ⟨r, crew, n, hr, hpar⟩
      · rw [takeOffline_unreleased (s := s.silenced d) has hr]
        exact heard lost hroom
      · rw [takeOffline_van_open (s := s.silenced d) hr hpar (by
          rcases hv with hv | hv <;> rw [show (s.silenced d).van.phase = s.van.phase from rfl, hv] <;> decide)]
        exact heard lost hroom
    · intro gone
      have sized : (s.silenced d).sized := ⟨hsized.1, (length_setEntry ..).trans hsized.2.1, hsized.2.2⟩
      have moved : Moved (s.silentFell d) gone := Moved.putReservation d .unreserved
      refine ⟨fun hne hroom => falls ?_, fun ending hone hend hsum hm hf hfaults => falls ?_⟩
      · rw [takeOffline_van_waits (s := s.silenced d) sized hr hpar hv hne]
        exact heard moved hroom
      · rw [takeOffline_van_posts (s := s.silenced d) hr hpar hv hone hend hsum hm (by exact Nat.lt_of_succ_lt hf)]
        refine heard ((moved.trans (Moved.post _)).trans (Moved.withVan _)) fun _ => ⟨?_, ?_⟩
        · show 0 < (gone.post _).free
          rw [State.post_free, show gone.free = s.free from (putReservation_free ..).trans step.free]
          omega
        · show (gone.post _).faults = []
          rw [State.post_faults, moved.faults, step.faults, hfaults]
  · intro dropped placed falls
    have fall {m : ManifestEntry} (hm : entryAt s.van.manifest n = some m)
        (hl : s.loseReservation d = dropped.fall n) : falls m := by
      have van : dropped.van = s.van := putReservation_van ..
      have raised : dropped.link.marks.vanState = true := by
        show (s.putReservation d .unreserved).link.marks.vanState = true
        rw [putReservation_eq]
      have shortened : dropped.shortened n m = { dropped with van := { s.van with
          manifest := setEntry s.van.manifest n { m with target := m.target - 1, short := m.short + 1 } } } := by
        unfold State.shortened
        rw [van]
      rw [fall_eq (by rw [van, hm]) raised, shortened] at hl
      exact ⟨fun h => hl.trans (endIfMet_goesOn h), fun hp h => hl.trans (endIfMet_ends hp h)⟩
    refine ⟨loseReservation_unreserved, fun hp => ⟨fun m hr hst hm => ⟨fun e he hes heu hlow => ?_, fun hnone => ?_⟩,
      fun m sel hr hm hk => ⟨fun e he => ?_, fun hnone => ?_⟩⟩⟩
    · exact (loseReservation_deliver hp hr).trans (moveDeliver_moves hst he hes heu hlow)
    · exact fall hm ((loseReservation_deliver hp hr).trans (moveDeliver_falls hst hnone))
    · exact (loseReservation_collect hp hr).trans
        (replaceCollect_replaces (s := s.putReservation d .unreserved) (by rw [putReservation_van, hm]) hk he)
    · exact fall hm ((loseReservation_collect hp hr).trans
        (replaceCollect_falls (s := s.putReservation d .unreserved) (by rw [putReservation_van, hm]) hk hnone))
  · intro candidate passes
    have of {c : Nat} {b : Bike} (h : candidate c b) : Candidate s sel skip c b := by
      obtain ⟨h1, h2, h3, h4, h5, h6⟩ := h
      exact ⟨h1, h2, h3, h4, h5, h6⟩
    refine ⟨fun h c b hc => nextCollect_none h (of hc), fun e h => ?_⟩
    obtain ⟨b, hc, hp, hfirst⟩ := nextCollect_first h
    exact ⟨b, ⟨hc.dock, hc.other, hc.occupied, hc.unreserved, hc.bike, hc.admitted⟩, hp,
      fun c x hcx hx => hfirst c x (of hcx) hx⟩

end Sys2Proof.Machine
end

