-- ==== Sys2Proof/Proofs/Attempts.lean ====
section
/-! PROOFS. The checks of an attempt at a dock and the release it begins: members, crew cards and the crew of a session (R23, R51,
R52, R55, R56, R140). -/

namespace Sys2Proof.Machine

/-! ### Whether a dock is ready (R23) -/

section Ready

variable {s : State} {d : Nat}

theorem riderRefusal_offline (h : (s.dock d).configured = false ∨ (s.dock d).state = .offline) :
    s.riderRefusal d = some .dockOffline := by
  unfold State.riderRefusal
  dsimp only
  by_cases hc : (s.dock d).configured = false
  · exact if_pos hc
  · rw [if_neg hc, h.resolve_left hc]

theorem riderRefusal_empty (hc : (s.dock d).configured = true) (h : (s.dock d).state = .empty) :
    s.riderRefusal d = some .noBike := by
  unfold State.riderRefusal
  dsimp only
  rw [if_neg (by simp [hc]), h]

theorem riderRefusal_lockedOut (hc : (s.dock d).configured = true) (h : (s.dock d).state = .lockedOut) :
    s.riderRefusal d = some .dockFault := by
  unfold State.riderRefusal
  dsimp only
  rw [if_neg (by simp [hc]), h]

theorem riderRefusal_busy (hc : (s.dock d).configured = true) (h : (s.dock d).state.transient = true) :
    s.riderRefusal d = some .dockBusy := by
  unfold State.riderRefusal
  dsimp only
  rw [if_neg (by simp [hc])]
  cases hs : (s.dock d).state <;> rw [hs] at h <;> first | rfl | cases h

theorem riderRefusal_occupied (hc : (s.dock d).configured = true) (h : (s.dock d).state = .occupied) :
    s.riderRefusal d =
      if (s.dock d).reservation ≠ .unreserved then some .dockReserved
      else if (s.dock d).holds .available then none
      else some .bikeUnavailable := by
  unfold State.riderRefusal
  dsimp only
  rw [if_neg (by simp [hc]), h]

/-- A dock is ready for a rider where an AVAILABLE bike stands in it, OCCUPIED and without a reservation. -/
theorem riderRefusal_ready {b : Bike} (hc : (s.dock d).configured = true) (h : (s.dock d).state = .occupied)
    (hr : (s.dock d).reservation = .unreserved) (hb : (s.dock d).bike = some b) (ha : b.condition = .available) :
    s.riderRefusal d = none := by
  rw [riderRefusal_occupied hc h, if_neg (not_not.2 hr), if_pos (by simp [Dock.holds, hb, ha])]

theorem crewRefusal_offline (h : (s.dock d).configured = false ∨ (s.dock d).state = .offline) :
    s.crewRefusal d = some .dockOffline := by
  unfold State.crewRefusal
  dsimp only
  by_cases hc : (s.dock d).configured = false
  · exact if_pos hc
  · rw [if_neg hc, h.resolve_left hc]

theorem crewRefusal_empty (hc : (s.dock d).configured = true) (h : (s.dock d).state = .empty) :
    s.crewRefusal d = some .noBike := by
  unfold State.crewRefusal
  dsimp only
  rw [if_neg (by simp [hc]), h]

theorem crewRefusal_busy (hc : (s.dock d).configured = true) (h : (s.dock d).state.transient = true) :
    s.crewRefusal d = some .dockBusy := by
  unfold State.crewRefusal
  dsimp only
  rw [if_neg (by simp [hc])]
  cases hs : (s.dock d).state <;> rw [hs] at h <;> first | rfl | cases h

theorem crewRefusal_vacant (hc : (s.dock d).configured = true) (h : (s.dock d).state = .lockedOut)
    (hb : (s.dock d).bike = none) : s.crewRefusal d = some .noBike := by
  unfold State.crewRefusal
  dsimp only
  rw [if_neg (by simp [hc]), h, hb]
  rfl

theorem crewRefusal_ready {b : Bike} (hc : (s.dock d).configured = true)
    (h : (s.dock d).state = .occupied ∨ (s.dock d).state = .lockedOut) (hr : (s.dock d).reservation = .unreserved)
    (hb : (s.dock d).bike = some b) : s.crewRefusal d = none := by
  unfold State.crewRefusal
  dsimp only
  rw [if_neg (by simp [hc]), hb]
  rcases h with h | h <;> rw [h]
  · exact if_neg (not_not.2 hr)
  · rfl

end Ready

/-! ### A release admitted of the bike in a dock (R50, R52, R90) -/

section Admit

variable {s : State} {d t : Nat} {b : Bike}

theorem tripImage_of_bike (hb : (s.dock d).bike = some b) (hirer : Hirer) (plan credit t : Nat) :
    s.tripImage d hirer plan credit t =
      { bikeId := b.id, ref := s.nextRef, hirer := hirer, start := t, plan := plan
        generation := s.tariffs.current.generation, credit := credit } := by
  unfold State.tripImage
  rw [hb]
  rfl

theorem admitRelease_of_bike (hb : (s.dock d).bike = some b) (hirer : Hirer) (issue : Option Nat) (plan credit t : Nat)
    (fromDock : Bool) {image : TripImage}
    (hi : image = { bikeId := b.id, ref := s.nextRef, hirer := hirer, start := t, plan := plan
                    generation := s.tariffs.current.generation, credit := credit }) :
    s.admitRelease d hirer issue plan credit t fromDock =
      ((s.admitted d).putDock d { (s.admitted d).dock d with
          state := .tagWriting
          release := some
            { party := .hire hirer issue s.nextRef image, credit := credit
              origin := if (s.dock d).state = .lockedOut then .lockedOut else .occupied, fromDock := fromDock
              expiryHeld := false } }).issue d (.tagWrite image) := by
  rw [admitRelease_eq, tripImage_of_bike hb, ← hi]
  rfl

end Admit

/-! ### Members (R51) -/

section Member

variable {s : State} {d t : Nat} {card : CardImage} {r : Reason} {p : Plan}

theorem memberAttempt_unset (h : s.now = none) : s.memberAttempt d card = (s, some .clockUnset) := by
  unfold State.memberAttempt
  rw [h]

theorem memberAttempt_refused (ht : s.now = some t) (h : s.riderRefusal d = some r) :
    s.memberAttempt d card = (s, some r) := by
  unfold State.memberAttempt
  rw [ht]
  dsimp only
  rw [h]

theorem memberAttempt_checked (ht : s.now = some t) (h : s.riderRefusal d = none) (hc : s.memberChecks card t = some r) :
    s.memberAttempt d card = (s, some r) := by
  unfold State.memberAttempt
  rw [ht]
  dsimp only
  rw [h]
  dsimp only
  rw [hc]

theorem memberAttempt_admits (ht : s.now = some t) (h : s.riderRefusal d = none) (hc : s.memberChecks card t = none) :
    s.memberAttempt d card =
      (s.admitRelease d (.member card.member) (some card.issue) card.plan s.releaseCredit t true, none) := by
  unfold State.memberAttempt
  rw [ht]
  dsimp only
  rw [h]
  dsimp only
  rw [hc]

theorem memberChecks_eq (hp : s.plans[card.plan]? = some p) :
    s.memberChecks card t =
      if card.expiryDay < (t - s.settings.dayOffset) / 86400 then some .cardExpired
      else if s.denied.contains card.member then some .cardDenied
      else if p.admitted = false then some .planClosed
      else if p.hireLimit ≤ s.memberHires card.member then some .hireLimit
      else if s.hirePlace = false then some .hireTableFull
      else if s.journalRoom = false then some .journalFull
      else none := by
  have plan : planEntry s.plans card.plan = p := by
    unfold planEntry
    rw [List.getD_eq_getElem?_getD, hp]
    rfl
  unfold State.memberChecks
  rw [plan]
  rfl

end Member

/-! ### Crew cards (R55, R56) -/

section Crew

variable {s : State} {d t n : Nat} {card : CardImage} {r : Reason}

theorem crewAttempt_unset (h : s.now = none) : s.crewAttempt d card = (s, some .clockUnset) := by
  unfold State.crewAttempt
  rw [h]

theorem crewAttempt_refused (ht : s.now = some t) (h : s.crewRefusal d = some r) : s.crewAttempt d card = (s, some r) := by
  unfold State.crewAttempt
  rw [ht]
  dsimp only
  rw [h]

theorem crewAttempt_ready (ht : s.now = some t) (h : s.crewRefusal d = none) :
    s.crewAttempt d card =
      if s.denied.contains card.member then (s, some .cardDenied)
      else if s.journalRoom = false then (s, some .journalFull)
      else (s.admitRelease d (.crew card.member) (some card.issue) 15 0 t true, none) := by
  unfold State.crewAttempt
  rw [ht]
  dsimp only
  rw [h]

theorem crewCard_unreserved (h : (s.dock d).reservation = .unreserved) : s.crewCard d card = s.crewAttempt d card := by
  unfold State.crewCard
  rw [h]

theorem crewCard_deliver (h : (s.dock d).reservation = .deliver n) : s.crewCard d card = (s, some .dockReserved) := by
  unfold State.crewCard
  rw [h]

theorem crewCard_collect (h : (s.dock d).reservation = .collect n) :
    s.crewCard d card =
      if s.van.phase = .active ∧ s.van.crew = card.member then s.collectRequest d n card.member
      else (s, some .dockReserved) := by
  unfold State.crewCard
  rw [h]

/-- A collection request of the crew of the ACTIVE session (R140). -/
theorem collectRequest_active (h : s.van.phase = .active) (crew : Nat) :
    s.collectRequest d n crew =
      if s.denied.contains crew then (s.waited, some .cardDenied)
      else if s.waited.vanRoom = false then (s.waited, some .journalFull)
      else if (s.dock d).state ≠ .occupied then (s.waited, some .dockBusy)
      else (s.waited.beginVan d n true, none) := by
  unfold State.collectRequest
  rw [restartIdle_active h]
  rfl

theorem beginVan_occupied (h : (s.dock d).state = .occupied) (fromDock : Bool) :
    s.beginVan d n fromDock =
      ((s.settleDock d .release).putDock d { (s.settleDock d .release).dock d with
          state := .tagWriting
          release := some
            { party := .van s.van.crew n, credit := 0, origin := .occupied, fromDock := fromDock
              expiryHeld := false } }).issue d (.tagClear .vanRelease) := by
  have origin : (s.dock d).origin = .occupied := if_neg (by rw [h]; decide)
  rw [beginVan_eq, origin]

end Crew

/-- Settles O52: the checks in their order, and the release begun where all pass. -/
theorem memberAttempt : Obligations.MemberAttempt := by
  refine ⟨fun d card s hplan => ?_, fun d card s hplan => ?_⟩
  · intro refuses
    have member : s.cardAttempt d card = s.memberAttempt d card := if_neg hplan
    refine ⟨fun hn => member.trans (memberAttempt_unset hn), fun t ht => ?_⟩
    have refused {r : Reason} (h : s.riderRefusal d = some r) : refuses r := member.trans (memberAttempt_refused ht h)
    refine ⟨fun h => refused (riderRefusal_offline h), fun hc => ⟨fun h => refused (riderRefusal_empty hc h),
      fun h => refused (riderRefusal_busy hc h), fun h => refused (riderRefusal_lockedOut hc h),
      fun h hr => refused ((riderRefusal_occupied hc h).trans (if_pos hr)), fun h hr => ⟨fun ha => refused ?_, fun b p hb ha hp => ?_⟩⟩⟩
    · rw [riderRefusal_occupied hc h, if_neg (not_not.2 hr), if_neg (by simp [ha])]
    · have ready := riderRefusal_ready hc h hr hb ha
      have checks := memberChecks_eq (t := t) hp
      have checked {r : Reason} (h : s.memberChecks card t = some r) : refuses r :=
        member.trans (memberAttempt_checked ht ready h)
      refine ⟨fun hx => checked (checks.trans (if_pos hx)), fun hx => ?_⟩
      rw [if_neg (by omega)] at checks
      refine ⟨fun hd => checked (checks.trans (if_pos (by simpa using hd))), fun hd => ?_⟩
      rw [if_neg (by simpa using hd)] at checks
      refine ⟨fun hadm => checked (checks.trans (if_pos hadm)), fun hadm hl => checked ?_, fun hadm hl => ?_⟩
      · rw [checks, if_neg (by simp [hadm]), if_pos hl]
      · rw [if_neg (by simp [hadm]), if_neg (by omega)] at checks
        refine ⟨fun hfull => checked (checks.trans (if_pos (hirePlace_false.2 hfull))), fun hplace => ?_⟩
        rw [if_neg (by rw [hirePlace_iff.2 hplace]; decide)] at checks
        refine ⟨fun hroom => checked (checks.trans (if_pos (journalRoom_false.2 hroom))), fun hroom => ?_⟩
        rw [if_neg (by rw [journalRoom_iff.2 hroom]; decide)] at checks
        intro credit image taken
        refine member.trans ((memberAttempt_admits ht ready checks).trans (Prod.ext ?_ rfl))
        have admits := admitRelease_of_bike hb (.member card.member) (some card.issue) card.plan credit t true (image := image) rfl
        rw [if_neg (by rw [h]; decide)] at admits
        exact admits
  · intro refuses
    have crew : s.cardAttempt d card = s.crewCard d card := if_pos hplan
    refine ⟨fun hr => ?_, fun n hr => crew.trans (crewCard_deliver hr), fun n hr => ⟨fun hx => ?_, fun hp hcrew => ?_⟩⟩
    · have plain : s.cardAttempt d card = s.crewAttempt d card := crew.trans (crewCard_unreserved hr)
      refine ⟨fun hn => plain.trans (crewAttempt_unset hn), fun t ht => ?_⟩
      have refused {r : Reason} (h : s.crewRefusal d = some r) : refuses r := plain.trans (crewAttempt_refused ht h)
      refine ⟨fun h => refused (crewRefusal_offline h), fun hc => ⟨fun h => refused (crewRefusal_empty hc h),
        fun h => refused (crewRefusal_busy hc h), fun h hb => refused (crewRefusal_vacant hc h hb), fun b hst hb => ?_⟩⟩
      have ready := plain.trans (crewAttempt_ready (card := card) ht (crewRefusal_ready hc hst hr hb))
      refine ⟨fun hd => ready.trans (if_pos (by simpa using hd)), fun hd => ?_⟩
      rw [if_neg (by simpa using hd)] at ready
      refine ⟨fun hroom => ready.trans (if_pos (journalRoom_false.2 hroom)), fun hroom => ?_⟩
      rw [if_neg (by rw [journalRoom_iff.2 hroom]; decide)] at ready
      intro image taken
      exact ready.trans (Prod.ext
        (admitRelease_of_bike hb (.crew card.member) (some card.issue) 15 0 t true (image := image) rfl) rfl)
    · refine crew.trans ((crewCard_collect hr).trans (if_neg fun hc => ?_))
      exact hx.elim (fun h => h hc.1) (fun h => h hc.2)
    · intro waited
      have asks := crew.trans (((crewCard_collect hr).trans (if_pos ⟨hp, hcrew⟩)).trans (collectRequest_active hp card.member))
      refine ⟨fun hd => asks.trans (if_pos (by simpa using hd)), fun hd hfull => ?_, fun hd hroom ho => ?_, fun hd hroom ho => ?_⟩
      · rw [if_neg (by simpa using hd)] at asks
        exact asks.trans (if_pos ((vanRoom_false (s := s.waited)).2 hfull))
      · rw [if_neg (by simpa using hd), if_neg fun hc => absurd ((vanRoom_false (s := s.waited)).1 hc) (not_le.2 hroom)] at asks
        exact asks.trans (if_pos ho)
      · rw [if_neg (by simpa using hd), if_neg (fun hc => absurd ((vanRoom_false (s := s.waited)).1 hc) (not_le.2 hroom)),
          if_neg (not_not.2 ho)] at asks
        intro closed
        exact asks.trans (Prod.ext (beginVan_occupied (s := s.waited) ho true) rfl)

end Sys2Proof.Machine
end

