-- ==== Sys2Proof/Proofs/PassAttempts.lean ====
section
/-! PROOFS. A code keyed at a dock: the pass that holds it, its checks, and the early finalise of a CLOSING one (R65 to R67, R70,
R106). -/

namespace Sys2Proof.Machine

/-! ### The pass that holds a code (R65) -/

section Code

variable {s : State} {code slot : Nat} {p : Pass}

theorem codeSlot_none
    (h : ∀ slot ∈ slotNumbers, ∀ p, s.pass slot = some p →
      ¬ (p.code = code ∧ (p.state = .issued ∨ p.state = .idle ∨ p.state = .closing))) : s.codeSlot code = none := by
  refine List.find?_eq_none.2 fun n hn => ?_
  cases hp : s.pass n with
  | none => simp
  | some p => simpa [or_assoc] using h n hn p hp

theorem codeSlot_some (hin : slot ∈ slotNumbers) (hp : s.pass slot = some p) (hc : p.code = code)
    (hs : p.state = .issued ∨ p.state = .idle ∨ p.state = .closing)
    (hother : ∀ other ∈ slotNumbers, other ≠ slot → ∀ q, s.pass other = some q → q.code ≠ code) :
    s.codeSlot code = some slot := by
  have found : (s.pass slot).any (fun p => p.code == code && (p.state == .issued || p.state == .idle || p.state == .closing)) =
      true := by
    rw [hp]
    simpa [hc, or_assoc] using hs
  unfold State.codeSlot
  cases hf : slotNumbers.find? _ with
  | none => exact absurd (List.find?_eq_none.1 hf slot hin) (by simpa using found)
  | some n =>
    have hn := List.find?_some hf
    by_contra hne
    cases hq : s.pass n with
    | none => rw [hq] at hn; cases hn
    | some q =>
      rw [hq] at hn
      simp only [Option.any_some, Bool.and_eq_true, beq_iff_eq] at hn
      exact hother n (List.mem_of_find?_eq_some hf) (fun h => hne (by rw [h])) q hq hn.1

theorem reusePass_open (h : ∀ p, s.pass slot = some p → p.state ≠ .closing) : s.reusePass slot = s := by
  unfold State.reusePass
  split
  · rename_i p hp
    exact if_neg (h p hp)
  · rfl

theorem reusePass_closing {ref : HireRef} (hp : s.pass slot = some p) (hs : p.state = .closing)
    (hc : p.current = some ref) : s.reusePass slot = s.finaliseHire ref := by
  unfold State.reusePass
  rw [hp]
  dsimp only
  rw [if_pos hs, hc]

theorem reusePass_unheld (hp : s.pass slot = some p)
    (h : ∀ e ∈ s.entries, e.isHeld = false ∨ p.current ≠ some e.close.ref) : s.reusePass slot = s := by
  by_cases hs : p.state = .closing
  · cases hc : p.current with
    | none =>
      unfold State.reusePass
      rw [hp]
      dsimp only
      rw [if_pos hs, hc]
    | some ref =>
      rw [reusePass_closing hp hs hc]
      unfold State.finaliseHire
      rw [List.findIdx?_eq_none_iff.2 fun e he => ?_]
      rcases h e he with h | h
      · simp [h]
      · rw [hc] at h
        simp [Ne.symm (fun hr => h (congrArg some hr) : ref ≠ e.close.ref)]
  · exact reusePass_open fun q hq => by rw [hp] at hq; cases hq; exact hs

theorem finaliseHire_split {ref : HireRef} {before after : List SettleEntry} {e : SettleEntry} {bike link deadline : Nat}
    (hs : s.entries = before ++ e :: after) (he : e.stage = .held bike link deadline) (hr : e.close.ref = ref)
    (hbefore : ∀ x ∈ before, x.isHeld = false ∨ x.close.ref ≠ ref) :
    s.finaliseHire ref = s.finalise before.length (.earlyFinal .passReuse) := by
  have none_ : before.findIdx? (fun e => e.isHeld && e.close.ref == ref) = none :=
    List.findIdx?_eq_none_iff.2 fun x hx => by
      rcases hbefore x hx with h | h
      · simp [h]
      · simp [h]
  have held : e.isHeld = true := by
    unfold SettleEntry.isHeld
    rw [he]
  unfold State.finaliseHire
  rw [hs, List.findIdx?_append, none_, List.findIdx?_cons, held, hr]
  simp

end Code

/-! ### The attempt (R65, R67) -/

section Keypad

variable {s : State} {d code slot t : Nat} {p : Pass} {r : Reason}

theorem keypadAttempt_unset (h : s.now = none) : s.keypadAttempt d code = (s, some .clockUnset) := by
  unfold State.keypadAttempt
  rw [h]

theorem keypadAttempt_refused (ht : s.now = some t) (h : s.riderRefusal d = some r) :
    s.keypadAttempt d code = (s, some r) := by
  unfold State.keypadAttempt
  rw [ht]
  dsimp only
  rw [h]

theorem keypadAttempt_unknown (ht : s.now = some t) (h : s.riderRefusal d = none) (hc : s.codeSlot code = none) :
    s.keypadAttempt d code = (s, some .passUnknown) := by
  unfold State.keypadAttempt
  rw [ht]
  dsimp only
  rw [h]
  dsimp only
  rw [hc]

theorem keypadAttempt_pass (ht : s.now = some t) (h : s.riderRefusal d = none) (hc : s.codeSlot code = some slot) :
    s.keypadAttempt d code = (s.reusePass slot).passChecks d slot t := by
  unfold State.keypadAttempt
  rw [ht]
  dsimp only
  rw [h]
  dsimp only
  rw [hc]

theorem passChecks_gone (h : s.pass slot = none) : s.passChecks d slot t = (s, some .passExpired) := by
  unfold State.passChecks
  rw [h]

theorem passChecks_pass (h : s.pass slot = some p) :
    s.passChecks d slot t =
      if p.state ≠ .issued ∧ p.state ≠ .idle then (s, some .passExpired)
      else if p.expiry ≤ t then (s, some .passExpired)
      else if p.balance < s.settings.minPassBalance then (s, some .passFunds)
      else if s.passInFlight slot p.serial then (s, some .passInUse)
      else if s.hirePlace = false then (s, some .hireTableFull)
      else if s.journalRoom = false then (s, some .journalFull)
      else (s.admitRelease d (.pass slot p.serial) none 14 s.releaseCredit t true, none) := by
  unfold State.passChecks
  rw [h]

/-- A dock stays ready where settling marks alone change. -/
theorem riderRefusal_settled {u : State} (h : Settled s u) (hc : (s.dock d).configured = true)
    (hs : (s.dock d).state = .occupied) (hr : (s.dock d).reservation = .unreserved)
    (hh : (s.dock d).holds .available = true) : u.riderRefusal d = none := by
  have holds (x : Dock) : x.still.holds .available = x.holds .available := by
    unfold Dock.still Dock.holds
    cases x.bike <;> rfl
  rw [riderRefusal_occupied ((h.configured d).trans hc) ((h.state d).trans hs), if_neg (by rw [h.reservation, hr]; simp),
    if_pos]
  rw [← holds, h.dock_still, holds, hh]

end Keypad

/-- Settles O60: the CLOSING pass by what its finalise leaves, and the checks in their order. -/
theorem passAttempt : Obligations.PassAttempt := by
  refine ⟨fun d code slot p ref before e after bike link deadline t s ht hconf hst hres hholds hin hp hcode hclosing hother
    hcur hentries he heref hehirer hbefore hids hbike hfree => ?_, fun d code s => ?_⟩
  · intro fare charge charged closed
    obtain ⟨b, hb⟩ := Option.ne_none_iff_exists'.1 hbike
    have fareEq : e.finalFare = fare := finalFare_eq e
    have reuse : s.reusePass slot = s.finalise before.length (.earlyFinal .passReuse) :=
      (reusePass_closing hp hclosing hcur).trans (finaliseHire_split hentries he heref hbefore)
    have settled : Settled s (s.reusePass slot) := Settled.reusePass slot
    have ready : s.riderRefusal d = none := riderRefusal_settled (Settled.refl s) hconf hst hres hholds
    have attempt : s.keypadAttempt d code = (s.reusePass slot).passChecks d slot t :=
      keypadAttempt_pass ht ready (codeSlot_some hin hp hcode (.inr (.inr hclosing)) hother)
    have charges : s.chargeClose e.close.ref e.close.hirer e.finalFare = (s.chargeAndMove slot p fare, .charged charge (fare - charge)) := by
      rw [hehirer, fareEq, heref]
      exact chargeClose_charges hp rfl hclosing hcur
    have closes {u : State} (hu : s.chargeAndMove slot p fare = u) (hf : 0 < u.free) : s.reusePass slot = closed u := by
      rw [hu] at charges
      exact reuse.trans ((finalise_closes hentries he hb (hids b hb) charges).1 hf)
    have closedPass (u : State) (n : Nat) : (closed u).pass n = u.pass n := by
      show (State.post _ _).pass n = _
      rw [State.post_pass, State.putDock_pass]
    refine ⟨fun hk hx => ?_, fun hk => ?_⟩
    · have idle : s.chargeAndMove slot p fare = s.putPass slot (some { charged with state := .idle }) :=
        chargeAndMove_idle (stateAfterRide_idle hk fun t' ht' => by rw [ht] at ht'; cases ht'; exact hx)
      have reused := closes idle (by rw [State.putPass_free]; omega)
      rw [attempt, reused]
      rw [reused] at settled
      have pass : (closed (s.putPass slot (some { charged with state := .idle }))).pass slot =
          some { charged with state := .idle } := by rw [closedPass, State.pass_putPass_same _ hp]
      have held := codeSlot_some (s := closed (s.putPass slot (some { charged with state := .idle }))) hin pass hcode
        (.inr (.inl rfl)) fun other ho hne q hq => by
          rw [closedPass, State.pass_putPass_ne _ hne] at hq
          exact hother other ho hne q hq
      rw [keypadAttempt_pass (settled.now.trans ht) (riderRefusal_settled settled hconf hst hres hholds) held,
        reusePass_open fun q hq => by rw [pass] at hq; cases hq; exact (nofun : PassState.idle ≠ .closing)]
    · intro settling
      have moves : s.chargeAndMove slot p fare =
          ((s.putPass slot (some settling)).post (.passSettle slot settling)).putPass slot none :=
        (chargeAndMove_settling (stateAfterRide_settling (hk.imp id fun hle => ⟨t, ht, hle⟩))).trans
          (enterSettling_posts hp (by omega) _)
      have reused := closes moves (by
        rw [State.putPass_free, State.post_free, State.putPass_free]
        omega)
      rw [attempt, reused]
      refine passChecks_gone ?_
      rw [closedPass]
      exact State.pass_putPass_same (p := settling) _ (by rw [State.post_pass, State.pass_putPass_same _ hp])
  · intro refuses
    refine ⟨keypadAttempt_unset, fun t ht => ?_⟩
    have refused {r : Reason} (h : s.riderRefusal d = some r) : refuses r := keypadAttempt_refused ht h
    refine ⟨fun h => refused (riderRefusal_offline h), fun hc => ⟨fun h => refused (riderRefusal_empty hc h),
      fun h => refused (riderRefusal_busy hc h), fun h => refused (riderRefusal_lockedOut hc h),
      fun h hr => refused ((riderRefusal_occupied hc h).trans (if_pos hr)), fun h hr => ⟨fun ha => refused ?_, fun b hb ha => ?_⟩⟩⟩
    · rw [riderRefusal_occupied hc h, if_neg (not_not.2 hr), if_neg (by simp [ha])]
    · have ready := riderRefusal_ready hc h hr hb ha
      refine ⟨fun hnone => keypadAttempt_unknown ht ready (codeSlot_none hnone),
        fun slot p hin hp hcode hs hother hunheld => ?_, fun slot p hin hp hcode hs hother => ?_⟩
      · show s.keypadAttempt d code = _
        rw [keypadAttempt_pass ht ready (codeSlot_some hin hp hcode (.inr (.inr hs)) hother), reusePass_unheld hp hunheld,
          passChecks_pass hp, if_pos (by simp [hs])]
      · have checks : s.keypadAttempt d code = s.passChecks d slot t := by
          rw [keypadAttempt_pass ht ready (codeSlot_some hin hp hcode (hs.imp id .inl) hother), reusePass_open]
          intro q hq
          rw [hp] at hq
          cases hq
          rcases hs with hs | hs <;> rw [hs] <;> decide
        rw [passChecks_pass hp, if_neg (by rcases hs with hs | hs <;> simp [hs])] at checks
        refine ⟨fun hx => checks.trans (if_pos hx), fun hx hbal => ?_, fun hx hbal => ?_⟩
        · exact checks.trans ((if_neg (by omega)).trans (if_pos hbal))
        · rw [if_neg (by omega), if_neg (show ¬ p.balance < _ from not_lt.2 hbal)] at checks
          refine ⟨fun hfl => checks.trans (if_pos hfl), fun hfl => ?_⟩
          rw [if_neg (by simp [hfl])] at checks
          refine ⟨fun hfull => checks.trans (if_pos (hirePlace_false.2 hfull)), fun hplace => ?_⟩
          rw [if_neg (by rw [hirePlace_iff.2 hplace]; decide)] at checks
          refine ⟨fun hroom => checks.trans (if_pos (journalRoom_false.2 hroom)), fun hroom => ?_⟩
          rw [if_neg (by rw [journalRoom_iff.2 hroom]; decide)] at checks
          intro credit image taken
          have admits := admitRelease_of_bike hb (.pass slot p.serial) none 14 credit t true (image := image) rfl
          rw [if_neg (by rw [h]; decide)] at admits
          exact checks.trans (Prod.ext admits rfl)

end Sys2Proof.Machine
end

