-- ==== Sys2Proof/Proofs/FaultCounts.lean ====
section
/-! PROOFS. The counting of dock faults up to the lockout, and the TAG report (R40, R120, R122 to R124, R126, R130). -/

namespace Sys2Proof.Machine

/-! ### What every update of the blocks leaves -/

section Frame

variable {a s t : State} {d : Nat}

theorem Flow.hasDock (h : Flow a s) : s.hasDock d ↔ a.hasDock d := by
  refine hasDock_congr ?_
  have := congrArg (fun x => x.configured.length) h.spine
  simpa [State.spine] using this

theorem Flow.now (h : Flow a s) : s.now = a.now := by
  have clock : s.clock = a.clock := congrArg Spine.clock h.spine
  have elapsed : s.elapsed = a.elapsed := congrArg Spine.elapsed h.spine
  unfold State.now
  rw [clock, elapsed]

theorem Flow.power (h : Flow a s) : s.power = a.power := congrArg Spine.power h.spine

theorem Flow.elapsed (h : Flow a s) : s.elapsed = a.elapsed := congrArg Spine.elapsed h.spine

theorem Flow.settings (h : Flow a s) : s.settings = a.settings :=
  congrArg (fun x => (Spine.settings x).cur.settings) h.spine

theorem Moved.lockoutPending (h : Moved a s) (d : Nat) : (s.dock d).lockoutPending = (a.dock d).lockoutPending :=
  (congrArg Dock.lockoutPending (h.site d) :)

theorem Moved.bikeId (h : Moved a s) (d : Nat) :
    (s.dock d).bike.map (fun b => b.id) = (a.dock d).bike.map (fun b => b.id) := by
  have ids (x : Dock) : x.site.bike.map (fun b => b.id) = x.bike.map (fun b => b.id) := by
    unfold Dock.site Dock.still
    cases x.bike <;> rfl
  rw [← ids, h.site, ids]

theorem hasDock_of_range (h1 : 1 ≤ d) (hl : d ≤ s.docks.length) : s.hasDock d := hasDock_iff.2 ⟨h1, hl⟩

end Frame

/-! ### The arbiter after a record is posted -/

section First

variable {s t : State}

/-- Faults of a state in which nothing waits. -/
theorem faults_of_firstPlace (h : s.firstPlace = none) : s.faults = [] := (firstPlace_none_iff.1 h).2.2.2.2.1

theorem firstPlace_makeFault {f : FaultRecord} (h : s.firstPlace = none) (hf : 0 < s.free) :
    (s.makeFault f).firstPlace = none := by
  rw [makeFault_posts hf (faults_of_firstPlace h), ← h]
  exact firstPlace_congr (State.post_entries ..) (fun n => State.post_pass _ _ n) (State.post_van ..)
    (State.post_faults ..) (State.post_directives ..) (State.post_sixth ..)

theorem firstPlace_setAttention {c : AttentionCause} : (s.setAttention c).firstPlace = s.firstPlace :=
  firstPlace_congr (by simp) (by simp) (by simp) (by simp) (by simp) (by simp)

end First

/-! ### The counted fault (R40, R123, R124) -/

section Count

variable {s : State} {d : Nat} {kind : DockFault} {cause : DockCause}

/-- The dock with one more fault counted. -/
def Dock.counted (x : Dock) : Dock := { x with counter := min 7 (x.counter + 1) }

/-- The state with one more fault counted at a dock. -/
def State.counted (s : State) (d : Nat) : State := s.putDock d (s.dock d).counted

/-- The FAULT record of a dock as it stands. -/
def Dock.faultBody (x : Dock) (d : Nat) (kind : DockFault) (cause : DockCause) (effect : FaultEffect) (dropped : Nat) : Body :=
  .fault
    { subject := .dock, dock := some d, bikeId := x.bike.map (fun b => b.id), tagBikeId := none, tagRef := none
      kind := some (.dock kind), source := none, cause := some cause, reporter := none, reporters := none
      confirmCount := none, effect := effect, conditionAfter := none, counterAfter := some x.counter
      counterBefore := none, dockState := some x.state, bikeAbsent := false } dropped

theorem counted_dockwise (s : State) (d : Nat) : Dockwise s (s.counted d) := Dockwise.putDock _ _

theorem counted_dock (h : s.hasDock d) : (s.counted d).dock d = (s.dock d).counted := dock_putDock_has h

theorem lockedAlready_iff {x : Dock} :
    x.lockedAlready = true ↔ x.state = .lockedOut ∨ ∃ r, x.release = some r ∧ r.origin = .lockedOut := by
  unfold Dock.lockedAlready
  rw [Bool.or_eq_true, beq_iff_eq, Option.any_eq_true]
  simp only [beq_iff_eq]

theorem postsDockFault {effect : FaultEffect} (hf : 0 < s.free) (hn : s.faults = []) :
    s.makeFault (s.dockFault d (some kind) (some cause) effect) =
      { s.post ((s.dock d).faultBody d kind cause effect s.faultsDropped) with faultsDropped := 0 } := makeFault_posts hf hn

theorem countFault_notes
    (h : s.settings.dockFaultLimit = 0 ∨ min 7 ((s.dock d).counter + 1) < s.settings.dockFaultLimit ∨
      (s.dock d).lockedAlready = true) :
    s.countFault d kind cause =
      (s.counted d).makeFault ((s.counted d).dockFault d (some kind) (some cause) .noted) := by
  refine if_neg fun hc => ?_
  obtain ⟨h1, h2, h3⟩ := hc
  rcases h with h | h | h
  · omega
  · omega
  · rw [h] at h3
    cases h3

theorem countFault_orders (h0 : 0 < s.settings.dockFaultLimit)
    (hl : s.settings.dockFaultLimit ≤ min 7 ((s.dock d).counter + 1)) (ha : (s.dock d).lockedAlready = false) :
    s.countFault d kind cause =
      (((s.counted d).orderLockout d).makeFault
        (((s.counted d).orderLockout d).dockFault d (some kind) (some cause) .lockedOut)).setAttention .lockout :=
  if_pos ⟨h0, hl, ha⟩

/-- Below the limit, or at a dock locked out already, the fault is NOTED (R123). -/
theorem countFault_noted (hd : s.hasDock d) (hf : 0 < s.free) (hn : s.faults = [])
    (h : s.settings.dockFaultLimit = 0 ∨ min 7 ((s.dock d).counter + 1) < s.settings.dockFaultLimit ∨
      (s.dock d).lockedAlready = true) :
    s.countFault d kind cause =
      { (s.counted d).post ((s.dock d).counted.faultBody d kind cause .noted s.faultsDropped) with faultsDropped := 0 } := by
  have step := counted_dockwise s d
  rw [countFault_notes h, postsDockFault (step.free ▸ hf) (step.faults ▸ hn), counted_dock hd, step.faultsDropped]

/-- The state in which a lockout ordered outside a release stands (R40). -/
def State.shut (s : State) (d : Nat) : State :=
  ((s.counted d).putDock d
    { (s.dock d).counted with state := .lockedOut, relockAt := none, lockoutPending := false, shown := some .fault }).issue d
      (.show .fault)

theorem shut_dockwise (s : State) (d : Nat) : Dockwise s (s.shut d) :=
  ((counted_dockwise s d).trans (Dockwise.putDock _ _)).trans (Dockwise.issue _ _)

theorem shut_dock (h : s.hasDock d) :
    (s.shut d).dock d =
      { (s.dock d).counted with state := .lockedOut, relockAt := none, lockoutPending := false, shown := some .fault } := by
  unfold State.shut
  rw [dock_issue]
  exact dock_putDock_has ((counted_dockwise s d).hasDock.2 h)

theorem orderLockout_at_once (h : s.hasDock d) (hr : (s.dock d).release = none) :
    (s.counted d).orderLockout d = (s.shut d).loseReservation d := by
  have dock := counted_dock h
  have none : ((s.counted d).dock d).release.isSome = false := by
    rw [dock]
    exact congrArg Option.isSome hr
  unfold State.orderLockout
  rw [none, if_neg Bool.false_ne_true, applyLockout_eq, dock]
  rfl

/-- At the limit outside a release the dock is LOCKED_OUT at once, its reservation lost first (R40, R124). -/
theorem countFault_locks (hd : s.hasDock d) (hr : (s.dock d).release = none) (h0 : 0 < s.settings.dockFaultLimit)
    (hl : s.settings.dockFaultLimit ≤ min 7 ((s.dock d).counter + 1)) (hs : (s.dock d).state ≠ .lockedOut)
    (hf : 0 < ((s.shut d).loseReservation d).free) (hn : ((s.shut d).loseReservation d).faults = []) :
    s.countFault d kind cause =
      ({ ((s.shut d).loseReservation d).post
          (({ (s.dock d).counted with state := .lockedOut } : Dock).faultBody d kind cause .lockedOut
            ((s.shut d).loseReservation d).faultsDropped) with faultsDropped := 0 } : State).setAttention .lockout := by
  have open_ : (s.dock d).lockedAlready = false := by
    rw [← Bool.not_eq_true, lockedAlready_iff, hr]
    simp [hs]
  have moved := Moved.loseReservation (s := s.shut d) d
  have body (effect : FaultEffect) (n : Nat) : (((s.shut d).loseReservation d).dock d).faultBody d kind cause effect n =
      ({ (s.dock d).counted with state := .lockedOut } : Dock).faultBody d kind cause effect n := by
    unfold Dock.faultBody
    rw [moved.bikeId, moved.counter, moved.state, shut_dock hd]
  rw [countFault_orders h0 hl open_, orderLockout_at_once hd hr, postsDockFault hf hn, body]

/-- At the limit in a release from OCCUPIED the lockout waits for the end of that release (R40, R124). -/
theorem countFault_waits {r : Release} (hd : s.hasDock d) (hr : (s.dock d).release = some r) (ho : r.origin = .occupied)
    (h0 : 0 < s.settings.dockFaultLimit) (hl : s.settings.dockFaultLimit ≤ min 7 ((s.dock d).counter + 1))
    (hs : (s.dock d).state ≠ .lockedOut) (hf : 0 < s.free) (hn : s.faults = []) :
    s.countFault d kind cause =
      ({ ((s.counted d).putDock d { (s.dock d).counted with lockoutPending := true }).post
          ((s.dock d).counted.faultBody d kind cause .lockedOut s.faultsDropped) with
        faultsDropped := 0 } : State).setAttention .lockout := by
  have open_ : (s.dock d).lockedAlready = false := by
    rw [← Bool.not_eq_true, lockedAlready_iff, hr]
    simp [hs, ho]
  have dock := counted_dock hd
  have has := (counted_dockwise s d).hasDock.2 hd
  have some_ : ((s.counted d).dock d).release.isSome = true := by
    rw [dock]
    exact congrArg Option.isSome hr
  have order : (s.counted d).orderLockout d = (s.counted d).putDock d { (s.dock d).counted with lockoutPending := true } := by
    unfold State.orderLockout
    rw [if_pos some_, dock]
  have step : Dockwise s ((s.counted d).putDock d { (s.dock d).counted with lockoutPending := true }) :=
    (counted_dockwise s d).trans (Dockwise.putDock _ _)
  rw [countFault_orders h0 hl open_, order, postsDockFault (step.free ▸ hf) (step.faults ▸ hn), dock_putDock_has has,
    step.faultsDropped]
  rfl

theorem firstPlace_countFault_noted (hf : 0 < s.free) (hp : s.firstPlace = none)
    (h : s.settings.dockFaultLimit = 0 ∨ min 7 ((s.dock d).counter + 1) < s.settings.dockFaultLimit) :
    (s.countFault d kind cause).firstPlace = none := by
  have step := counted_dockwise s d
  rw [countFault_notes (h.imp id .inl)]
  exact firstPlace_makeFault (step.firstPlace.trans hp) (step.free ▸ hf)

theorem countFault_noted_setAside
    (h : s.settings.dockFaultLimit = 0 ∨ min 7 ((s.dock d).counter + 1) < s.settings.dockFaultLimit) :
    (s.countFault d kind cause).setAside = s.setAside := by
  rw [countFault_notes (h.imp id .inl), State.makeFault_setAside, (counted_dockwise s d).setAside]

theorem countFault_noted_dock (hd : s.hasDock d)
    (h : s.settings.dockFaultLimit = 0 ∨ min 7 ((s.dock d).counter + 1) < s.settings.dockFaultLimit) :
    (s.countFault d kind cause).dock d = (s.dock d).counted := by
  rw [countFault_notes (h.imp id .inl), State.makeFault_dock, counted_dock hd]

end Count

/-! ### The TAG report (R120, R122) -/

section Tag

variable {s : State} {d : Nat} {b : Bike}

theorem reportTag_bare (h : (s.dock d).bike = none) : s.reportTag d = s := by
  unfold State.reportTag
  rw [h]

/-- What a TAG report makes of the bike, and its effect. -/
def State.tagged (s : State) (b : Bike) : Bike × FaultEffect :=
  if b.faults.contains .tag then (b, .noted)
  else quarantineIf ((s.policy .tag).cls == .quarantine || b.id == 0) (b.confirm .tag)

theorem reportTag_eq (h : (s.dock d).bike = some b) :
    s.reportTag d =
      ((s.putBike d (s.tagged b).1).makeFault
        { (s.putBike d (s.tagged b).1).bikeFault d (s.tagged b).2 with
          kind := some (.bike .tag), source := some .dock }).attendEffect (s.tagged b).2 := by
  unfold State.reportTag
  rw [h]
  rfl

theorem reportTag_posts {b' : Bike} {e : FaultEffect} (h : (s.dock d).bike = some b) (ht : s.tagged b = (b', e))
    (hf : 0 < s.free) (hn : s.faults = []) :
    s.reportTag d =
      ({ (s.putDock d { s.dock d with bike := some b' }).post (.fault
          { subject := .bike, dock := some d, bikeId := some b'.id, tagBikeId := none, tagRef := none
            kind := some (.bike .tag), source := some .dock, cause := none, reporter := none, reporters := none
            confirmCount := none, effect := e, conditionAfter := some b'.condition, counterAfter := none
            counterBefore := none, dockState := none, bikeAbsent := false } s.faultsDropped) with
        faultsDropped := 0 } : State).attendEffect e := by
  rw [reportTag_eq h, ht, makeFault_posts (by simpa [State.putBike] using hf) (by simpa [State.putBike] using hn)]
  unfold State.bikeFault State.putBike
  rw [dock_putDock_same (inTable_of_bike h), State.putDock_faultsDropped]
  rfl

theorem tagged_noted (h : .tag ∈ b.faults) : s.tagged b = (b, .noted) := if_pos (List.contains_iff_mem.2 h)

theorem tagged_confirmed (h : .tag ∉ b.faults)
    (hc : ((s.policy .tag).cls = .advisory ∧ b.id ≠ 0) ∨ b.condition ≠ .available) :
    s.tagged b = (b.confirm .tag, .noted) := by
  refine (if_neg fun h' => h (List.contains_iff_mem.1 h')).trans (quarantineIf_notes ?_)
  refine hc.imp (fun ⟨hcls, hid⟩ => ?_) id
  rw [hcls]
  simpa using hid

theorem tagged_quarantined (h : .tag ∉ b.faults) (hc : (s.policy .tag).cls = .quarantine ∨ b.id = 0)
    (hb : b.condition = .available) :
    s.tagged b = ({ b.confirm .tag with condition := .quarantined }, .quarantined) := by
  refine (if_neg fun h' => h (List.contains_iff_mem.1 h')).trans (quarantineIf_quarantines ?_ hb)
  simpa using hc

/-- A TAG report writes the bike of its dock alone. -/
theorem reportTag_dock (s : State) (d : Nat) : ∃ b, (s.reportTag d).dock d = { s.dock d with bike := b } := by
  cases h : (s.dock d).bike with
  | none => exact ⟨(s.dock d).bike, by rw [reportTag_bare h]⟩
  | some b =>
    refine ⟨some (s.tagged b).1, ?_⟩
    have dock : ((s.putBike d (s.tagged b).1).dock d) = { s.dock d with bike := some (s.tagged b).1 } :=
      dock_putDock_same (inTable_of_bike h)
    rw [reportTag_eq h, ← dock]
    unfold State.attendEffect
    split
    · rw [State.setAttention_dock, State.makeFault_dock]
    · rw [State.makeFault_dock]

theorem reportTag_setAside (s : State) (d : Nat) : (s.reportTag d).setAside = s.setAside := by
  cases h : (s.dock d).bike with
  | none => rw [reportTag_bare h]
  | some b =>
    rw [reportTag_eq h]
    unfold State.attendEffect State.putBike
    split
    · rw [State.setAttention_setAside, State.makeFault_setAside, State.putDock_setAside]
    · rw [State.makeFault_setAside, State.putDock_setAside]

theorem firstPlace_reportTag (hp : s.firstPlace = none) (hf : 0 < s.free) : (s.reportTag d).firstPlace = none := by
  cases h : (s.dock d).bike with
  | none => rwa [reportTag_bare h]
  | some b =>
    have step : Dockwise s (s.putBike d (s.tagged b).1) := Dockwise.putDock _ _
    have posted := firstPlace_makeFault
      (f := { (s.putBike d (s.tagged b).1).bikeFault d (s.tagged b).2 with kind := some (.bike .tag), source := some .dock })
      (step.firstPlace.trans hp) (step.free ▸ hf)
    rw [reportTag_eq h]
    unfold State.attendEffect
    split
    · rwa [firstPlace_setAttention]
    · exact posted

end Tag

end Sys2Proof.Machine
end

