-- ==== Sys2Proof/Proofs/CommandTimeouts.lean ====
section
/-! PROOFS. The timeouts and results of commands, in a release of each kind and outside (R12 to R15, R24 to R26, R29, R31, R35,
R40, R53, R67, R122, R142, R151, R159). -/

namespace Sys2Proof.Machine

/-! ### A confirmation deadline (R12, R13) -/

section Deadline

variable {s : State} {d t : Nat} {f : Command → Bool} {c : CurrentCommand}

theorem commandDue_none (h : (s.node d).current = none) : s.commandDue d f = s := by
  unfold State.commandDue
  rw [h]

theorem commandDue_runs
    (h : ∀ c, (s.node d).current = some c → f c.command = false ∨ c.deadline = none ∨
      ∃ t, c.deadline = some t ∧ s.elapsed < t) : s.commandDue d f = s := by
  cases hc : (s.node d).current with
  | none => exact commandDue_none hc
  | some c =>
    unfold State.commandDue
    rw [hc]
    refine if_neg fun ⟨hf, ha⟩ => ?_
    obtain ⟨t, ht, hle⟩ := (Option.any_eq_true _ _).1 ha
    have reached : t ≤ s.elapsed := by simpa using hle
    rcases h c hc with h | h | ⟨t', ht', hlt⟩
    · rw [h] at hf
      cases hf
    · rw [h] at ht
      cases ht
    · rw [ht] at ht'
      cases ht'
      omega

theorem commandDue_ends (hc : (s.node d).current = some c) (hd : c.deadline = some t) (ht : t ≤ s.elapsed)
    (hf : f c.command = true) : s.commandDue d f = (s.endCommand d).onResult d c.command .timedOut := by
  unfold State.commandDue
  rw [hc]
  refine if_pos ⟨hf, ?_⟩
  rw [hd]
  simpa using ht

theorem commandDue_row {i : Instr} {u : State} (hs : s.power = .running) (hi : exec i s = .next (s.running fun s => s.commandDue d f))
    (h : s.commandDue d f = u) : exec i s = .next (u.finish s) :=
  exec_row (f := fun s => s.commandDue d f) hi hs h (by
    rw [← h]
    exact (State.commandDue_flow .refl d f).power)

theorem endCommand_dockwise (s : State) (d : Nat) : Dockwise s (s.endCommand d) := Dockwise.putNode _ _

end Deadline

/-! ### The tag command a release awaits (R25) -/

section Awaits

variable {s : State} {d : Nat} {r : Release} {c : Command}

theorem awaits_other_state (h : (s.dock d).state ≠ .tagWriting) : (s.dock d).awaits c = none := if_neg h

theorem awaits_unreleased (h : (s.dock d).release = none) : (s.dock d).awaits c = none := by
  unfold Dock.awaits
  rw [h]
  split <;> rfl

theorem awaits_afterRelease : (s.dock d).awaits (.tagClear .afterRelease) = none := by
  unfold Dock.awaits
  split
  · cases (s.dock d).release with
    | none => rfl
    | some r => cases hp : r.party <;> simp [Option.filter, hp]
  · rfl

theorem awaits_atReturn : (s.dock d).awaits (.tagClear .atReturn) = none := by
  unfold Dock.awaits
  split
  · cases (s.dock d).release with
    | none => rfl
    | some r => cases hp : r.party <;> simp [Option.filter, hp]
  · rfl

theorem awaits_hire {hirer : Hirer} {issue : Option Nat} {ref : HireRef} {image : TripImage}
    (hs : (s.dock d).state = .tagWriting) (hr : (s.dock d).release = some r) (hp : r.party = .hire hirer issue ref image) :
    (s.dock d).awaits (.tagWrite image) = some r := by
  unfold Dock.awaits
  rw [if_pos hs, hr]
  simp [Option.filter, hp]

theorem awaits_van {crew n : Nat} (hs : (s.dock d).state = .tagWriting) (hr : (s.dock d).release = some r)
    (hp : r.party = .van crew n) : (s.dock d).awaits (.tagClear .vanRelease) = some r := by
  unfold Dock.awaits
  rw [if_pos hs, hr]
  simp [Option.filter, hp]

theorem onEnded_tagWrite_unawaited {image : TripImage} (h : (s.dock d).awaits (.tagWrite image) = none) (x : CommandResult) :
    s.onEnded d (.tagWrite image) x = s := by
  unfold State.onEnded
  dsimp only
  rw [h]

theorem onResult_tagWrite_unawaited {image : TripImage} (h : (s.dock d).awaits (.tagWrite image) = none) (x : CommandResult) :
    s.onResult d (.tagWrite image) x = s := by
  cases x with
  | abandoned cause => rfl
  | superseded => rfl
  | _ => exact onEnded_tagWrite_unawaited h _

theorem onEnded_tagClear_unawaited {p : ClearPurpose} (h : (s.dock d).awaits (.tagClear p) = none) (hp : p ≠ .atReturn)
    (x : CommandResult) : s.onEnded d (.tagClear p) x = s := by
  unfold State.onEnded
  dsimp only
  rw [h]
  exact if_neg fun hc => hp hc.1

theorem onResult_tagClear_unawaited {p : ClearPurpose} (h : (s.dock d).awaits (.tagClear p) = none) (hp : p ≠ .atReturn)
    (x : CommandResult) : s.onResult d (.tagClear p) x = s := by
  cases x with
  | abandoned cause => rfl
  | superseded => rfl
  | _ => exact onEnded_tagClear_unawaited h hp _

theorem onEnded_atReturn {x : CommandResult} (hx : x ≠ .confirmed) : s.onEnded d (.tagClear .atReturn) x = s.reportTag d := by
  unfold State.onEnded
  dsimp only
  rw [awaits_atReturn]
  exact if_pos ⟨rfl, hx⟩

/-- The tag command that a release of each party awaits (R25). -/
def Release.tagCommand (r : Release) : Command :=
  match r.party with
  | .hire _ _ _ image => .tagWrite image
  | .van _ _ => .tagClear .vanRelease

/-- The result of a release's tag command is that release's. -/
theorem onEnded_awaited (hs : (s.dock d).state = .tagWriting) (hr : (s.dock d).release = some r) (x : CommandResult) :
    s.onEnded d r.tagCommand x = s.tagResult d r x := by
  unfold Release.tagCommand
  cases hp : r.party with
  | hire hirer issue ref image =>
    unfold State.onEnded
    dsimp only
    rw [awaits_hire hs hr hp]
  | van crew n =>
    unfold State.onEnded
    dsimp only
    rw [awaits_van hs hr hp]

theorem onResult_awaited_failed {x : CommandResult} (hs : (s.dock d).state = .tagWriting) (hr : (s.dock d).release = some r)
    (hx : x = .nodeFailed ∨ x = .notTaken ∨ x = .timedOut) : s.onResult d r.tagCommand x = s.failTag d r := by
  rcases hx with rfl | rfl | rfl
  · exact onEnded_awaited hs hr .nodeFailed
  · exact onEnded_awaited hs hr .notTaken
  · exact onEnded_awaited hs hr .timedOut

end Awaits

/-! ### The end of a release whose command failed (R25, R26) -/

section Ends

variable {s u : State} {d : Nat} {r : Release}

theorem tellVan_moved (s : State) (d : Nat) (r : Release) : Moved s (s.tellVan d r) := by
  unfold State.tellVan
  split
  · exact Moved.vanLapse d
  · exact Moved.refl s

theorem showRefusal_dockwise (s : State) (d : Nat) (r : Release) : Dockwise s (s.showRefusal d r) := by
  unfold State.showRefusal State.showRefused
  split
  · exact Dockwise.refl s
  · split
    · exact Dockwise.issue _ _
    · exact Dockwise.refl s

theorem showRefusal_docks (s : State) (d : Nat) (r : Release) : (s.showRefusal d r).docks = s.docks := by
  unfold State.showRefusal State.showRefused
  split
  · rfl
  · split
    · exact State.issue_docks ..
    · rfl

theorem clearTag_docks (s : State) (d : Nat) (r : Release) : (s.clearTag d r).docks = s.docks := by
  unfold State.clearTag
  split
  · rfl
  · exact State.issue_docks ..

theorem clearTag_dockwise (s : State) (d : Nat) (r : Release) : Dockwise s (s.clearTag d r) := by
  unfold State.clearTag
  split
  · exact Dockwise.refl s
  · exact Dockwise.issue _ _

theorem dock_of_docks {t : State} (h : t.docks = s.docks) (d : Nat) : t.dock d = s.dock d := by
  unfold State.dock
  rw [h]

/-- A release whose tag command failed, its refusal shown and van told. -/
def State.tagFailed (s : State) (d : Nat) (r : Release) : State :=
  ((s.discardRelease d r.origin.dockState).showRefusal d r).tellVan d r

theorem tagFailed_pending (h : s.hasDock d) : ((s.tagFailed d r).dock d).lockoutPending = (s.dock d).lockoutPending := by
  unfold State.tagFailed
  rw [(tellVan_moved _ d r).lockoutPending, dock_of_docks (showRefusal_docks _ d r)]
  unfold State.discardRelease State.editDock
  rw [dock_putDock_has h]

theorem failTag_eq (h : s.hasDock d) :
    s.failTag d r =
      (if (s.dock d).lockoutPending = true then (((s.tagFailed d r).reportTag d).issue d .lock).applyLockout d
        else (s.tagFailed d r).reportTag d).giveUp r := by
  have pending : (((s.tagFailed d r).reportTag d).dock d).lockoutPending = (s.dock d).lockoutPending := by
    obtain ⟨b, hb⟩ := reportTag_dock (s.tagFailed d r) d
    rw [hb, ← tagFailed_pending (r := r) h]
  rw [← pending]
  rfl

/-- A release whose unlock failed, its fault counted, the commands issued and van told. -/
def State.unlockFailed (s : State) (d : Nat) (r : Release) : State :=
  ((((s.discardRelease d (match r.origin with | .occupied => .relocking | .lockedOut => .lockedOut)).showRefusal d r).clearTag
    d r).issue d .lock).tellVan d r

theorem unlockFailed_pending (h : s.hasDock d) :
    ((s.unlockFailed d r).dock d).lockoutPending = (s.dock d).lockoutPending := by
  unfold State.unlockFailed
  rw [(tellVan_moved _ d r).lockoutPending, dock_issue, dock_of_docks (clearTag_docks _ d r),
    dock_of_docks (showRefusal_docks _ d r)]
  unfold State.discardRelease State.editDock
  rw [dock_putDock_has h]

theorem failUnlock_eq (h : s.hasDock d) (kind : DockFault) (cause : DockCause) :
    s.failUnlock d r kind cause =
      (if ((s.countFault d kind cause).dock d).lockoutPending = true then
          ((s.countFault d kind cause).unlockFailed d r).applyLockout d
        else (s.countFault d kind cause).unlockFailed d r).giveUp r := by
  have has : (s.countFault d kind cause).hasDock d := (State.countFault_flow .refl d kind cause).hasDock.2 h
  rw [← unlockFailed_pending (r := r) has]
  rfl

/-- A release that ended gives up what it held: of a van nothing, of a hirer the slot set aside, an expiry of the pass taken
first (R53, R67). -/
theorem giveUp_ends {result : State → Prop} (now : u.now = s.now) (h : result (u.giveUp r)) :
    (∀ crew n, r.party = .van crew n → result u) ∧
    (∀ hirer issue ref image, r.party = .hire hirer issue ref image → u.firstPlace = none → 0 < u.free →
      ((∀ slot serial, hirer = .pass slot serial → ∀ p, u.pass slot = some p → p.serial = serial →
          r.expiryHeld = false ∧ ∀ t, s.now = some t → t < p.expiry) →
        result { u with setAside := u.setAside - 1 }) ∧
      (∀ slot serial p, hirer = .pass slot serial → slot ∈ slotNumbers → u.pass slot = some p → p.serial = serial →
        p.state = .issued ∨ p.state = .idle → r.expiryHeld = true ∨ (∃ t, s.now = some t ∧ p.expiry ≤ t) →
        u.passInFlight slot serial = false →
        let q : Pass := { p with state := .settling }
        result { (((u.putPass slot (some q)).post (.passSettle slot q)).putPass slot none) with
          setAside := u.setAside - 1 })) := by
  refine ⟨fun crew n hp => ?_, fun hirer issue ref image hp hfirst hf => ⟨fun hq => ?_, ?_⟩⟩
  · rwa [giveUp_van hp] at h
  · rwa [giveUp_back hp (by rwa [now]), giveBack_idle hfirst] at h
  · rintro slot serial p rfl hin hpass hserial hstate hheld hfl
    rwa [giveUp_settles hp hin hpass hserial hstate (by rwa [now]) hfl hfirst hf] at h

end Ends

/-! ### UNLOCK and LOCK not confirmed (R26, R29) -/

section Locks

variable {s : State} {d : Nat} {r : Release} {x : CommandResult}

theorem onResult_unlock (hx : x = .timedOut ∨ x = .notTaken) : s.onResult d .unlock x = s.unlockTimedOut d := by
  rcases hx with rfl | rfl <;> rfl

theorem onResult_lock (hx : x = .timedOut ∨ x = .notTaken) : s.onResult d .lock x = s.lockTimedOut d := by
  rcases hx with rfl | rfl <;> rfl

theorem unlockTimedOut_outside (h : (s.dock d).state ≠ .unlocking) :
    s.unlockTimedOut d = s.countFault d .lockJam .unlockTimeout := by
  unfold State.unlockTimedOut
  dsimp only
  split
  · rename_i hs _
    exact absurd hs h
  · rfl

theorem unlockTimedOut_fails (h : (s.dock d).state = .unlocking) (hr : (s.dock d).release = some r) :
    s.unlockTimedOut d = s.failUnlock d r .lockJam .unlockTimeout := by
  unfold State.unlockTimedOut
  dsimp only
  rw [h, hr]

theorem lockTimedOut_outside (h : (s.dock d).state ≠ .relocking) : s.lockTimedOut d = s.countFault d .lockJam .lockTimeout :=
  if_neg h

theorem lockTimedOut_retries (h : (s.dock d).state = .relocking)
    (hc : ((s.countFault d .lockJam .lockTimeout).dock d).state = .relocking) :
    s.lockTimedOut d = (s.countFault d .lockJam .lockTimeout).putDock d
      { (s.countFault d .lockJam .lockTimeout).dock d with relockAt := some (s.elapsed + 3000) } :=
  (if_pos h).trans (if_pos hc)

theorem lockTimedOut_locks (h : (s.dock d).state = .relocking)
    (hc : ((s.countFault d .lockJam .lockTimeout).dock d).state ≠ .relocking) :
    s.lockTimedOut d = s.countFault d .lockJam .lockTimeout :=
  (if_pos h).trans (if_neg hc)

theorem onLockFail_fails (h : (s.dock d).state = .unlocking) (hr : (s.dock d).release = some r) (kind : LockFailKind)
    (ended : Bool) : s.onLockFail d kind ended = s.failUnlock d r (lockFault kind) .lockFail := by
  unfold State.onLockFail
  dsimp only
  rw [h, hr]

end Locks

end Sys2Proof.Machine
end

