-- ==== Sys2Proof/Proofs/CommandResults.lean ====
section
/-! PROOFS. What custody does with each result of a command, and the deadlines of commands as rows (R12 to R15, R24 to R26, R29,
R31, R35, R40, R53, R67, R122 to R124, R142, R151, R159). -/

namespace Sys2Proof.Machine

section Shared

variable {s : State} {d : Nat} {r : Release}

/-- What is left of a release that a hirer began at the dock, REFUSED being shown where it came from there. -/
def State.gone (s : State) (d : Nat) (r : Release) (after : DockState) : State :=
  if r.fromDock then
    (s.putDock d { s.dock d with state := after, release := none, windowAt := none }).issue d (.show .refused)
  else s.putDock d { s.dock d with state := after, release := none, windowAt := none }

theorem gone_dockwise (s : State) (d : Nat) (r : Release) (after : DockState) : Dockwise s (s.gone d r after) := by
  unfold State.gone
  split
  · exact (Dockwise.putDock _ _).trans (Dockwise.issue _ _)
  · exact Dockwise.putDock _ _

theorem showRefusal_hire {hirer : Hirer} {issue : Option Nat} {ref : HireRef} {image : TripImage}
    (hp : r.party = .hire hirer issue ref image) (after : DockState) :
    (s.discardRelease d after).showRefusal d r = s.gone d r after := by
  unfold State.showRefusal
  rw [hp]
  rfl

/-- A hirer's release from OCCUPIED, of no pass, gives back its slot alone (R25, R53). -/
theorem failTag_hire {hirer : Hirer} {issue : Option Nat} {ref : HireRef} {image : TripImage}
    (hr : (s.dock d).release = some r) (hp : r.party = .hire hirer issue ref image)
    (hn : ∀ slot serial, hirer ≠ .pass slot serial) (ho : r.origin = .occupied) (hl : (s.dock d).lockoutPending = false)
    (hfirst : s.firstPlace = none) (hf : 0 < s.free) :
    s.failTag d r = { (s.gone d r .occupied).reportTag d with setAside := s.setAside - 1 } := by
  have step := gone_dockwise s d r .occupied
  have failed : s.tagFailed d r = s.gone d r .occupied := by
    unfold State.tagFailed
    rw [tellVan_hire hp, ho]
    exact showRefusal_hire hp _
  rw [failTag_eq (hasDock_of_release hr), hl, if_neg Bool.false_ne_true, failed,
    giveUp_back hp fun slot serial h => (hn slot serial h).elim,
    giveBack_idle (firstPlace_reportTag (step.firstPlace.trans hfirst) (step.free ▸ hf)), reportTag_setAside, step.setAside]

/-- A hirer's release whose unlock failed below the fault limit (R26, R53). -/
theorem failUnlock_hire {hirer : Hirer} {issue : Option Nat} {ref : HireRef} {image : TripImage} {kind : DockFault}
    {cause : DockCause} (hr : (s.dock d).release = some r) (hp : r.party = .hire hirer issue ref image)
    (hn : ∀ slot serial, hirer ≠ .pass slot serial) (ho : r.origin = .occupied) (hl : (s.dock d).lockoutPending = false)
    (hfirst : s.firstPlace = none) (hf : 0 < s.free)
    (hc : s.settings.dockFaultLimit = 0 ∨ min 7 ((s.dock d).counter + 1) < s.settings.dockFaultLimit) :
    s.failUnlock d r kind cause =
      { (((s.countFault d kind cause).gone d r .relocking).issue d (.tagClear .afterRelease)).issue d .lock with
        setAside := s.setAside - 1 } := by
  have has := hasDock_of_release hr
  have step : Dockwise (s.countFault d kind cause)
      ((((s.countFault d kind cause).gone d r .relocking).issue d (.tagClear .afterRelease)).issue d .lock) :=
    ((gone_dockwise _ d r .relocking).trans (Dockwise.issue _ _)).trans (Dockwise.issue _ _)
  have pending : ((s.countFault d kind cause).dock d).lockoutPending = false := by
    rw [countFault_noted_dock has hc]
    exact hl
  have failed : (s.countFault d kind cause).unlockFailed d r =
      (((s.countFault d kind cause).gone d r .relocking).issue d (.tagClear .afterRelease)).issue d .lock := by
    unfold State.unlockFailed
    rw [tellVan_hire hp, clearTag_hire hp, ho, showRefusal_hire hp]
  rw [failUnlock_eq has, pending, if_neg Bool.false_ne_true, failed,
    giveUp_back hp fun slot serial h => (hn slot serial h).elim,
    giveBack_idle (step.firstPlace.trans (firstPlace_countFault_noted hf hfirst hc)), step.setAside,
    countFault_noted_setAside hc]

theorem failTag_flow_now (s : State) (d : Nat) (r : Release) :
    (if (s.dock d).lockoutPending = true then (((s.tagFailed d r).reportTag d).issue d .lock).applyLockout d
      else (s.tagFailed d r).reportTag d).now = s.now := by
  have told : Flow s (s.tagFailed d r) :=
    State.tellVan_flow (State.showRefusal_flow (State.discardRelease_flow .refl _ _) _ _) _ _
  split
  · exact (State.applyLockout_flow (State.issue_flow (State.reportTag_flow told _) _ _) _).now
  · exact (State.reportTag_flow told _).now

theorem failUnlock_flow_now {u : State} (hu : Flow s u) (d : Nat) (r : Release) :
    (if (u.dock d).lockoutPending = true then (u.unlockFailed d r).applyLockout d else u.unlockFailed d r).now = s.now := by
  have told : Flow s (u.unlockFailed d r) :=
    State.tellVan_flow (State.issue_flow (State.clearTag_flow (State.showRefusal_flow (State.discardRelease_flow hu _ _) _ _)
      _ _) _ _) _ _
  split
  · exact (State.applyLockout_flow told _).now
  · exact told.now

end Shared

/-- Settles O48: a deadline ends its command with a result; a result ends the release it awaits, or is counted. -/
theorem commandTimeouts : Obligations.CommandTimeouts := by
  refine ⟨?_, ?_, ?_, ?_⟩
  · intro d s hs
    have tagRow {u : State} (h : s.commandDue d Command.isTagWrite = u) : exec (.tagWriteTimeout d) s = .next (u.finish s) :=
      commandDue_row hs rfl h
    have unlockRow {u : State} (h : s.commandDue d (fun c => c == .unlock) = u) :
        exec (.unlockTimeout d) s = .next (u.finish s) := commandDue_row hs rfl h
    have lockRow {u : State} (h : s.commandDue d (fun c => c == .lock) = u) :
        exec (.lockTimeout d) s = .next (u.finish s) := commandDue_row hs rfl h
    refine ⟨fun h => ?_, fun h => tagRow (commandDue_runs fun c hc => .inl ?_),
      fun h => unlockRow (commandDue_runs fun c hc => .inl ?_), fun h => lockRow (commandDue_runs fun c hc => .inl ?_), ?_⟩
    · have runs (f : Command → Bool) : s.commandDue d f = s := commandDue_runs fun c hc => .inr (h c hc)
      exact ⟨tagRow (runs _), unlockRow (runs _), lockRow (runs _)⟩
    · have other := h c
      cases hcmd : c.command with
      | tagWrite image => exact (h c image hc hcmd).elim
      | _ => rfl
    · simpa using h c hc
    · simpa using h c hc
    · intro c t hc hd ht ended
      have step : Dockwise s ended := endCommand_dockwise s d
      have dockEq : ended.dock d = s.dock d := rfl
      have unlocks (h : c.command = .unlock) :
          exec (.unlockTimeout d) s = .next ((ended.onResult d .unlock .timedOut).finish s) :=
        unlockRow (by rw [commandDue_ends hc hd ht (by rw [h]; rfl), h]; rfl)
      have locks (h : c.command = .lock) :
          exec (.lockTimeout d) s = .next ((ended.onResult d .lock .timedOut).finish s) :=
        lockRow (by rw [commandDue_ends hc hd ht (by rw [h]; rfl), h]; rfl)
      have writes (image : TripImage) (h : c.command = .tagWrite image) :
          exec (.tagWriteTimeout d) s = .next ((ended.onResult d c.command .timedOut).finish s) :=
        tagRow (commandDue_ends hc hd ht (by rw [h]; rfl))
      refine ⟨fun image h => ⟨writes image h, fun hout => ?_⟩, unlocks, fun h hst => ?_, fun h hst => ?_, fun h hst hlim => ?_,
        ?_⟩
      · have unawaited : (ended.dock d).awaits (.tagWrite image) = none :=
          hout.elim awaits_other_state awaits_unreleased
        have kept := writes image h
        rwa [h, onResult_tagWrite_unawaited unawaited] at kept
      · rw [unlocks h, onResult_unlock (.inl rfl), unlockTimedOut_outside (s := ended) hst]
      · rw [locks h, onResult_lock (.inl rfl), lockTimedOut_outside (s := ended) hst]
      · intro counted
        have has : ended.hasDock d := hasDock_of_ne (by rw [dockEq]; intro hz; rw [hz] at hst; cases hst)
        have dock : counted.dock d = (s.dock d).counted := countFault_noted_dock has hlim
        rw [locks h, onResult_lock (.inl rfl), lockTimedOut_retries (s := ended) hst]
        · rfl
        · exact (congrArg Dock.state dock).trans hst
      · intro r hirer issue ref image hr hp hn ho hl hfirst hf gone
        have goneEq (t : State) (after : DockState) : gone t after = t.gone d r after := rfl
        have first : ended.firstPlace = none := step.firstPlace.trans hfirst
        have free : 0 < ended.free := step.free ▸ hf
        refine ⟨fun h hst => ?_, fun h hst hlim => ?_⟩
        · have failed := onResult_awaited_failed (s := ended) (x := .timedOut) hst hr (.inr (.inr rfl))
          have awaited : c.command = r.tagCommand := by
            unfold Release.tagCommand
            rw [hp, h]
          rw [writes image h, awaited, failed, failTag_hire (s := ended) hr hp hn ho hl first free, goneEq]
          rfl
        · rw [unlocks h, onResult_unlock (.inl rfl), unlockTimedOut_fails (s := ended) hst hr,
            failUnlock_hire (s := ended) hr hp hn ho hl first free hlim, goneEq]
          rfl
  · intro d s h1 hlen
    have has : s.hasDock d := hasDock_of_range h1 hlen
    refine ⟨?_, fun image x h => onResult_tagWrite_unawaited (awaits_other_state h) x, ?_, fun x => ⟨?_, fun h => ?_, fun h => ?_⟩,
      fun i x hx hst => ?_, fun x hx => ?_, fun r c hst hr hc => ?_, fun r hr => ?_⟩
    · rintro c x (rfl | ⟨cause, rfl⟩) <;> rfl
    · rintro c (rfl | rfl | ⟨i, rfl⟩ | rfl)
      · rfl
      · rfl
      · rfl
      · show s.onEnded d (.tagClear .atReturn) .confirmed = s
        unfold State.onEnded
        dsimp only
        rw [awaits_atReturn]
        exact if_neg fun hc => hc.2 rfl
    · exact onResult_tagClear_unawaited awaits_afterRelease (by decide) x
    · exact onResult_tagClear_unawaited (awaits_other_state h) (by decide) x
    · rcases h with rfl | rfl
      · exact onEnded_atReturn (by decide)
      · exact onEnded_atReturn (by decide)
    · have again : s.reissueShow d =
          ({ s with docks := setEntry s.docks d { s.dock d with shown := some (s.dock d).resting } } : State).issue d
            (.show (s.dock d).resting) := if_neg hst
      rcases hx with rfl | rfl <;> exact again
    · intro cause
      refine ⟨fun h => ?_, fun h => ?_, fun h hc => ?_, fun h hc => ?_⟩
      · rw [onResult_unlock hx, unlockTimedOut_outside h]
      · rw [onResult_lock hx, lockTimedOut_outside h]
      · rw [onResult_lock hx, lockTimedOut_retries h hc]
      · rw [onResult_lock hx, lockTimedOut_locks h hc]
    · have awaited : c = r.tagCommand := by
        unfold Release.tagCommand
        cases hp : r.party <;> rw [hp] at hc <;> exact hc
      rw [awaited]
      exact onEnded_awaited hst hr .confirmed
    · intro hired refused back told lockedOut ends
      have refusedEq (u : State) : refused u = u.showRefusal d r := by
        unfold State.showRefusal
        dsimp only [refused, hired]
        cases r.party <;> rfl
      have toldEq (u : State) : told u = u.tellVan d r := by
        unfold State.tellVan
        dsimp only [told]
        cases r.party <;> rfl
      have clearEq (u : State) : hired (fun u => u.issue d (.tagClear .afterRelease)) u = u.clearTag d r := by
        unfold State.clearTag
        dsimp only [hired]
        cases r.party <;> rfl
      refine ⟨fun c x hst hx hc => ?_, fun hst => ?_⟩
      · intro tagged
        have awaited : c = r.tagCommand := by
          unfold Release.tagCommand
          cases hp : r.party <;> rw [hp] at hc <;> exact hc
        have taggedEq : tagged = (s.tagFailed d r).reportTag d := by
          dsimp only [tagged]
          rw [toldEq, refusedEq]
          unfold State.tagFailed Origin.dockState
          cases r.origin <;> rfl
        rw [taggedEq]
        refine giveUp_ends (failTag_flow_now s d r) ?_
        rw [awaited, onResult_awaited_failed hst hr hx, failTag_eq has]
        rfl
      · intro fails
        have ends_ {result : State → Prop} (kind : DockFault) (cause : DockCause) (h : result (s.failUnlock d r kind cause)) :
            fails kind cause result := by
          dsimp only [fails]
          rw [toldEq, clearEq, refusedEq]
          refine giveUp_ends (failUnlock_flow_now (State.countFault_flow .refl d kind cause) d r) ?_
          rw [failUnlock_eq has] at h
          exact h
        refine ⟨fun x hx => ends_ .lockJam .unlockTimeout ?_, fun ended => ⟨ends_ .lockJam .lockFail ?_, ends_ .sensor .lockFail ?_⟩⟩
        · rw [onResult_unlock hx, unlockTimedOut_fails hst hr]
        · exact onLockFail_fails hst hr .jam ended
        · exact onLockFail_fails hst hr .sensor ended
  · intro d kind cause s h1 hlen hf hn counter record
    have has : s.hasDock d := hasDock_of_range h1 hlen
    have step := shut_dockwise s d
    refine ⟨fun h => ?_, fun h0 hl hs hr hres => ?_, fun h0 hl hs hr hres => ?_, fun r h0 hl hs hr ho => ?_⟩
    · refine countFault_noted has hf hn ?_
      rwa [lockedAlready_iff]
    · have kept : (s.shut d).loseReservation d = s.shut d := loseReservation_unreserved (by rw [shut_dock has]; exact hres)
      rw [countFault_locks has hr h0 hl hs (by rw [kept, step.free]; exact hf) (by rw [kept, step.faults]; exact hn), kept,
        step.faultsDropped]
      rfl
    · intro lost hlf hln hld
      have dropped : ((s.shut d).loseReservation d).faultsDropped = s.faultsDropped := hld
      rw [countFault_locks has hr h0 hl hs hlf hln, dropped]
      rfl
    · exact countFault_waits has hr ho h0 hl hs hf hn
  · intro d b s hb hf hn reported confirmed
    refine ⟨fun h => ?_, fun h hc => ?_, fun h hc hcond => ?_⟩
    · rw [reportTag_posts hb (tagged_noted h) hf hn]
      rfl
    · rw [reportTag_posts hb (tagged_confirmed h hc) hf hn]
      rfl
    · rw [reportTag_posts hb (tagged_quarantined h hc hcond) hf hn, attendEffect_quarantined]
      rfl

end Sys2Proof.Machine
end

