-- ==== Sys2Proof/Proofs/Alike.lean ====
section
/-! PROOFS. States of one steady view: what does not show in it, and how the updates of the blocks carry it along (R22, R187). -/

namespace Sys2Proof.Machine

/-- Two states that differ at most in what follows every command: commands of nodes, indications issued, pending marks and the
frame being sent. -/
def Alike (s t : State) : Prop := s.steady = t.steady

namespace Alike

variable {s t u : State} {d : Nat}

theorem refl (s : State) : Alike s s := rfl

theorem symm (h : Alike s t) : Alike t s := Eq.symm h

theorem trans (h1 : Alike s t) (h2 : Alike t u) : Alike s u := Eq.trans h1 h2

theorem eq (h : Alike s t) : s.steady = t.steady := h

theorem of_eq (h : s = t) : Alike s t := congrArg State.steady h

/-! ### What does not show -/

theorem raise (k : NoticeKind) : Alike (s.raise k) s := State.raise_steady s k

theorem issue (d : Nat) (c : Command) : Alike (s.issue d c) s := State.issue_steady s d c

theorem putDock_raw (d : Nat) (x : Dock) : Alike (s.putDock d x) { s with docks := setEntry s.docks d x } := by
  unfold State.putDock
  dsimp only
  split
  · exact refl _
  · exact raise _

theorem putVan_raw (v : Van) : Alike (s.putVan v) { s with van := v } := by
  unfold State.putVan
  dsimp only
  split
  · exact refl _
  · exact raise _

theorem putPass_raw (slot : Nat) (p : Option Pass) :
    Alike (s.putPass slot p) (s.putPasses { s.store.passes.cur with slots := setEntry s.store.passes.cur.slots slot p }) := by
  unfold State.putPass
  dsimp only
  split
  · exact refl _
  · exact raise _

theorem putReservation (d : Nat) (r : Reservation) :
    Alike (s.putReservation d r) (s.putDock d { s.dock d with reservation := r }) := (raise _).trans (raise _)

/-! ### What shows -/

theorem store (h : Alike s t) : s.store = t.store := (congrArg State.store h.eq :)
theorem van (h : Alike s t) : s.van = t.van := (congrArg State.van h.eq :)
theorem setAside (h : Alike s t) : s.setAside = t.setAside := (congrArg State.setAside h.eq :)
theorem elapsed (h : Alike s t) : s.elapsed = t.elapsed := (congrArg State.elapsed h.eq :)
theorem now (h : Alike s t) : s.now = t.now := (congrArg State.now h.eq :)
theorem free (h : Alike s t) : s.free = t.free := (congrArg State.free h.eq :)
theorem pass (h : Alike s t) (n : Nat) : s.pass n = t.pass n := (congrArg (fun x => State.pass x n) h.eq :)

/-! ### The updates of the blocks -/

theorem withVan (h : Alike s t) (v : Van) : Alike { s with van := v } { t with van := v } :=
  (congrArg (fun x => ({ x with van := v } : State)) h.eq :)

theorem withSetAside (h : Alike s t) (n : Nat) : Alike { s with setAside := n } { t with setAside := n } :=
  (congrArg (fun x => ({ x with setAside := n } : State)) h.eq :)

theorem withStore (h : Alike s t) (x : Store) : Alike { s with store := x } { t with store := x } :=
  (congrArg (fun y => ({ y with store := x } : State)) h.eq :)

theorem post (h : Alike s t) (b : Body) : Alike (s.post b) (t.post b) := by
  have push (x : State) : (x.post b).steady = x.steady.post b := by
    unfold State.post
    dsimp only
    split
    · exact (if_pos (by assumption)).symm
    · exact (if_neg (by assumption)).symm
  exact (push s).trans ((congrArg (fun x => State.post x b) h.eq :).trans (push t).symm)

theorem withDocks (h : Alike s t) (ds : List Dock) : Alike { s with docks := ds } { t with docks := ds } :=
  (congrArg (fun y => ({ y with docks := ds.map (fun x => { x with shown := none }) } : State)) h.eq :)

theorem putDock (h : Alike s t) (d : Nat) (x : Dock) : Alike (s.putDock d x) (t.putDock d x) := by
  have push (y : State) : ({ y with docks := setEntry y.docks d x } : State).steady =
      { y.steady with docks := setEntry y.steady.docks d { x with shown := none } } := by
    have map : (setEntry y.docks d x).map (fun x => { x with shown := none }) =
        setEntry y.steady.docks d { x with shown := none } := by
      unfold setEntry
      split
      · rfl
      · exact List.map_set
    exact congrArg (fun l => ({ y.steady with docks := l } : State)) map
  refine (putDock_raw d x).trans (Alike.trans ?_ (putDock_raw d x).symm)
  exact (push s).trans
    ((congrArg (fun y : State => ({ y with docks := setEntry y.docks d { x with shown := none } } : State)) h.eq :).trans
      (push t).symm)

theorem putHires (h : Alike s t) (v : List OpenHire) : Alike (s.putHires v) (t.putHires v) :=
  (congrArg (fun x => State.putHires x v) h.eq :)

theorem putPass (h : Alike s t) (slot : Nat) (p : Option Pass) : Alike (s.putPass slot p) (t.putPass slot p) := by
  refine (putPass_raw slot p).trans (Alike.trans ?_ (putPass_raw slot p).symm)
  exact congrArg
    (fun x : State => x.putPasses { x.store.passes.cur with slots := setEntry x.store.passes.cur.slots slot p }) h

theorem putVan (h : Alike s t) (v : Van) : Alike (s.putVan v) (t.putVan v) :=
  (putVan_raw v).trans ((h.withVan v).trans (putVan_raw v).symm)

/-! ### Updates in another order -/

theorem putDock_putDock (d : Nat) (x y : Dock) : Alike ((s.putDock d x).putDock d y) (s.putDock d y) := by
  refine ((putDock_raw d x).putDock d y).trans ((putDock_raw d y).trans (Alike.trans ?_ (putDock_raw d y).symm))
  show Alike { s with docks := setEntry (setEntry s.docks d x) d y } _
  rw [setEntry_setEntry]
  exact refl _

theorem post_putDock (b : Body) (d : Nat) (x : Dock) : Alike ((s.post b).putDock d x) ((s.putDock d x).post b) := by
  refine (putDock_raw d x).trans (Alike.trans ?_ ((putDock_raw d x).post b).symm)
  have commutes : ({ s with docks := setEntry s.docks d x } : State).post b =
      { s.post b with docks := setEntry s.docks d x } := State.post_withVanDocksLink s s.van _ s.link b |>.trans (by
        rw [← State.post_van s b, ← State.post_link s b])
  rw [commutes, State.post_docks]
  exact refl _

theorem putPass_putDock (slot : Nat) (p : Option Pass) (d : Nat) (x : Dock) :
    Alike ((s.putPass slot p).putDock d x) ((s.putDock d x).putPass slot p) := by
  refine ((putPass_raw slot p).putDock d x).trans ((putDock_raw d x).trans (Alike.trans ?_ ((putDock_raw d x).putPass slot p).symm))
  exact (putPass_raw (s := { s with docks := setEntry s.docks d x }) slot p).symm

theorem putHires_putDock (v : List OpenHire) (d : Nat) (x : Dock) :
    Alike ((s.putHires v).putDock d x) ((s.putDock d x).putHires v) :=
  (putDock_raw d x).trans ((putDock_raw d x).putHires v).symm

theorem setAside_putDock (n : Nat) (d : Nat) (x : Dock) :
    Alike (({ s with setAside := n } : State).putDock d x) { s.putDock d x with setAside := n } :=
  (putDock_raw d x).trans ((putDock_raw d x).withSetAside n).symm

theorem van_putDock (v : Van) (d : Nat) (x : Dock) :
    Alike (({ s with van := v } : State).putDock d x) { s.putDock d x with van := v } :=
  (putDock_raw d x).trans ((putDock_raw d x).withVan v).symm

end Alike

end Sys2Proof.Machine
end

