-- ==== Sys2Proof/Proofs/CountedMoves.lean ====
section
/-! PROOFS. A move counted for the session, the idle deadline it restarts, and the end of a session whose entries it meets
(R142 to R144, R149 to R153). -/

namespace Sys2Proof.Machine

/-! ### What one steady view shows of the docks -/

namespace Alike

variable {s t : State} {d : Nat}

/-- A dock but for the indication issued last. -/
theorem dock (h : Alike s t) (d : Nat) : ({ s.dock d with shown := none } : Dock) = { t.dock d with shown := none } := by
  have at_ (x : State) : ({ x.dock d with shown := none } : Dock) = x.steady.dock d := by
    unfold State.dock State.steady entryAt
    dsimp only
    split
    · rfl
    · rw [List.getElem?_map]
      cases x.docks[d - 1]? <;> rfl
  rw [at_, at_, h.eq]

theorem reservation (h : Alike s t) (d : Nat) : (s.dock d).reservation = (t.dock d).reservation :=
  (congrArg Dock.reservation (h.dock d) :)

theorem release (h : Alike s t) (d : Nat) : (s.dock d).release = (t.dock d).release := (congrArg Dock.release (h.dock d) :)

theorem vanReleases (h : Alike s t) : s.vanReleases = t.vanReleases := vanReleases_congr fun d _ => h.release d

theorem marks (m : Marks) : Alike { s with link := { s.link with marks := m } } s := refl _

theorem putDock_dressed {x y : Dock} (hxy : ({ x with shown := none } : Dock) = { y with shown := none }) :
    Alike (s.putDock d x) (s.putDock d y) := by
  refine (putDock_raw d x).trans (Alike.trans ?_ (putDock_raw d y).symm)
  have map (z : Dock) : (setEntry s.docks d z).map (fun x => { x with shown := none }) =
      setEntry (s.docks.map (fun x => { x with shown := none })) d { z with shown := none } := by
    unfold setEntry
    split
    · rfl
    · exact List.map_set
  have same : (setEntry s.docks d x).map (fun x => { x with shown := none }) =
      (setEntry s.docks d y).map (fun x => { x with shown := none }) := by rw [map, map, hxy]
  exact congrArg (fun l => ({ s.steady with docks := l } : State)) same

end Alike

section Moves

variable {s t : State} {c d n bike : Nat} {e : ManifestEntry}

/-- The session with a move counted and its idle deadline restarted where it is ACTIVE. -/
def Van.counted (v : Van) (n : Nat) (e : ManifestEntry) (deadline : Nat) : Van :=
  { v with
    manifest := setEntry v.manifest n { e with done := e.done + 1 }
    idleAt := if v.phase = .active then some deadline else v.idleAt }

/-- The record of a move counted in a session. -/
def Van.moveOf (v : Van) (collect : Bool) (n d bike : Nat) (time : Option Nat) (reserved : Option Bool) : VanMove :=
  { session := v.session, van := v.van, collect := collect, entry := n, dock := d, bikeId := bike, time := time
    reserved := reserved }

/-- The state with a move posted and the session written. -/
def State.moved (s : State) (v : Van) (m : VanMove) : State := { s.post (.vanMove m) with van := v }

theorem Alike.moved (h : Alike s t) (v : Van) (m : VanMove) : Alike (s.moved v m) (t.moved v m) := (h.post _).withVan v

theorem Alike.moved_putDock (v : Van) (m : VanMove) (d : Nat) (x : Dock) :
    Alike ((s.moved v m).putDock d x) ((s.putDock d x).moved v m) :=
  (van_putDock v d x).trans ((post_putDock _ d x).withVan v)

theorem restartIdle_eq {v : Van} {deadline : Nat} (hv : s.van = v)
    (hd : s.elapsed + s.settings.vanIdleTimeout * 1000 = deadline) :
    s.restartIdle = { s with van := { v with idleAt := if v.phase = .active then some deadline else v.idleAt } } := by
  subst hv hd
  unfold State.restartIdle
  split
  · rfl
  · rfl

theorem countMove_eq (hm : s.van.moves = []) (hf : 0 < s.free) (he : entryAt s.van.manifest n = some e) (collect : Bool)
    (reserved : Option Bool) :
    s.countMove collect n d bike reserved =
      (s.moved { s.van with manifest := setEntry s.van.manifest n { e with done := e.done + 1 } }
        (s.van.moveOf collect n d bike s.now reserved)).raise .vanState := by
  unfold State.countMove
  rw [makeMove_posts hm hf, updateEntry_done (e := e) (by rwa [State.post_van]), State.post_van]
  rfl

/-- A move counted, the reservation of a dock dropped for it, and the idle deadline restarted. -/
theorem countMove_alike (hm : s.van.moves = []) (hf : 0 < s.free) (he : entryAt s.van.manifest n = some e) (collect : Bool)
    (reserved : Option Bool) (c : Nat) :
    Alike ((s.countMove collect n d bike reserved).putReservation c .unreserved).restartIdle
      ((s.putDock c { s.dock c with reservation := .unreserved }).moved
        (s.van.counted n e (s.elapsed + s.settings.vanIdleTimeout * 1000)) (s.van.moveOf collect n d bike s.now reserved)) := by
  have counted : Alike (s.countMove collect n d bike reserved) (s.moved
      { s.van with manifest := setEntry s.van.manifest n { e with done := e.done + 1 } }
      (s.van.moveOf collect n d bike s.now reserved)) := by
    rw [countMove_eq hm hf he]
    exact Alike.raise _
  have dock : (s.countMove collect n d bike reserved).dock c = s.dock c := by
    rw [countMove_eq hm hf he]
    exact State.post_dock ..
  have dropped : Alike ((s.countMove collect n d bike reserved).putReservation c .unreserved)
      ((s.putDock c { s.dock c with reservation := .unreserved }).moved
        { s.van with manifest := setEntry s.van.manifest n { e with done := e.done + 1 } }
        (s.van.moveOf collect n d bike s.now reserved)) := by
    refine (Alike.putReservation _ _).trans ?_
    rw [dock]
    exact (counted.putDock _ _).trans (Alike.moved_putDock _ _ _ _)
  have settings : ((s.countMove collect n d bike reserved).putReservation c .unreserved).settings = s.settings := by
    have := congrArg (fun x => x.settings.cur.settings) dropped.store
    refine Eq.trans this ?_
    show (State.post _ _).settings = _
    rw [State.post_settings]
    exact (Dockwise.putDock c _).settings
  have elapsed : ((s.countMove collect n d bike reserved).putReservation c .unreserved).elapsed = s.elapsed := by
    refine dropped.elapsed.trans ?_
    show (State.post _ _).elapsed = _
    rw [State.post_elapsed]
    exact (Dockwise.putDock c _).elapsed
  exact (Alike.of_eq (restartIdle_eq dropped.van (by rw [settings, elapsed]))).trans (dropped.withVan _)

theorem droppable_nil (h : ∀ e ∈ dockNumbers, (s.dock e).reservation = .unreserved) : s.droppable = [] := by
  unfold State.droppable
  rw [List.filter_eq_nil_iff]
  intro e he
  simp [h e he]

/-- The summary of a session posted, and the session IDLE. -/
def State.summed (s : State) (ending : VanEnding) : State :=
  { s.post (.vanSummary (s.van.summaryOf ending)) with van := .idleWith s.van.counter }

theorem Alike.summed (h : Alike s t) (ending : VanEnding) : Alike (s.summed ending) (t.summed ending) := by
  unfold State.summed
  rw [h.van]
  exact (h.post _).withVan _

/-- A session that ends with nothing to drop and no VAN release in flight (R150, R153). -/
theorem endSession_alike (h : s.van.phase ≠ .closing) (hs : s.van.summary = none) (hr : s.vanReleases = [])
    (hm : s.van.moves = []) (hf : 0 < s.free) (hu : ∀ e ∈ dockNumbers, (s.dock e).reservation = .unreserved)
    (endedBy : EndedBy) (outcome : VanOutcome) :
    Alike (s.endSession endedBy outcome) (s.summed { endedBy := endedBy, outcome := outcome, time := s.now }) := by
  have docks : (s.ended endedBy outcome).docks = s.docks := by
    unfold State.ended
    rw [droppable_nil hu]
    rfl
  rw [endSession_posts h hs hr hm hf, docks]
  unfold Alike State.summed State.steady
  dsimp only
  rw [State.post_docks, State.post_link]
  rfl

theorem endIfMet_alike (hp : s.van.phase = .active) (hmet : ∀ x ∈ s.van.manifest, x.done = x.target) (hs : s.van.summary = none)
    (hr : s.vanReleases = []) (hm : s.van.moves = []) (hf : 0 < s.free)
    (hu : ∀ e ∈ dockNumbers, (s.dock e).reservation = .unreserved) :
    Alike s.endIfMet (s.summed { endedBy := .exhaustion, outcome := .exhausted, time := s.now }) := by
  rw [endIfMet_ends hp hmet]
  exact endSession_alike (by rw [hp]; decide) hs hr hm hf hu _ _

theorem closeUp_alike {ending : VanEnding} (hp : s.van.phase = .closing) (he : s.van.ending = some ending)
    (hs : s.van.summary = none) (hr : s.vanReleases = []) (hm : s.van.moves = []) (hf : 0 < s.free) :
    Alike s.closeUp (s.summed ending) := by
  rw [closeUp_posts hp he hs hr hm hf, postSummary_eq (by rw [hp]; decide)]
  exact Alike.raise _

theorem closeUp_open (h : s.van.phase ≠ .closing) : s.closeUp = s := by
  unfold State.closeUp
  split
  · rename_i hp _ _
    exact absurd hp h
  · rfl

theorem endIfMet_other (h : s.van.phase ≠ .active) : s.endIfMet = s := if_neg fun hc => h hc.1

end Moves

end Sys2Proof.Machine
end

