-- ==== Sys2Proof/Proofs/Removals.lean ====
section
/-! PROOFS. The removal of a bike: the record discarded, the hire opened or the move counted, the unreleased removal counted
(R18, R26, R27, R34, R40, R54, R56, R68, R142, R146). -/

namespace Sys2Proof.Machine

/-! ### A dock written over -/

section Over

variable {s : State} {d : Nat} {x y : Dock}

/-- What lies between two writes of a dock does not show, where its counts end otherwise than they stood (R20). -/
theorem putDock_over (h : s.hasDock d) (hx : (s.dock d).share ≠ x.share) : (s.putDock d y).putDock d x = s.putDock d x := by
  have write (t : State) : t.putDock d x =
      (if (t.dock d).share = x.share then (id : State → State) else (State.raise · .dockState))
        { t with docks := setEntry t.docks d x } := by
    unfold State.putDock
    dsimp only
    split <;> rfl
  by_cases hy : (s.dock d).share = y.share
  · have inner : s.putDock d y = { s with docks := setEntry s.docks d y } := if_pos hy
    have dock : (s.putDock d y).dock d = y := dock_putDock_has h
    rw [write, write s, dock, if_neg (hy ▸ hx), if_neg hx, inner, setEntry_setEntry]
  · have inner : s.putDock d y = ({ s with docks := setEntry s.docks d y } : State).raise .dockState := if_neg hy
    have dock : (s.putDock d y).dock d = y := dock_putDock_has h
    rw [write, write s, dock, if_neg hx, inner]
    by_cases hyx : y.share = x.share
    · rw [if_pos hyx]
      show ({ s with docks := setEntry (setEntry s.docks d y) d x } : State).raise .dockState = _
      rw [setEntry_setEntry]
    · rw [if_neg hyx]
      show (({ s with docks := setEntry (setEntry s.docks d y) d x } : State).raise .dockState).raise .dockState = _
      rw [setEntry_setEntry]
      exact raise_of_has rfl

/-- A dock that is left without a bike. -/
theorem share_bikeless {z : DockState} : ({ x with state := z, bike := none } : Dock).share = (z, false, false, false, false) := by
  unfold Dock.share Dock.isOpen Dock.inStock Dock.holds
  simp

end Over

/-! ### The settled dock -/

section Settled

variable {a s : State} {d : Nat}

theorem Settled.hasDock (h : Settled a s) : s.hasDock d ↔ a.hasDock d := by
  refine hasDock_congr ?_
  have := congrArg List.length h.docks
  rwa [List.length_map, List.length_map] at this

theorem Settled.relockAt (h : Settled a s) (d : Nat) : (s.dock d).relockAt = (a.dock d).relockAt :=
  (congrArg Dock.relockAt (h.dock_still d) :)

theorem Settled.lockoutPending (h : Settled a s) (d : Nat) : (s.dock d).lockoutPending = (a.dock d).lockoutPending :=
  (congrArg Dock.lockoutPending (h.dock_still d) :)

theorem Settled.nodes (h : Settled a s) : s.nodes = a.nodes := (congrArg State.nodes h.same :)

theorem Settled.vanReleases (h : Settled a s) : s.vanReleases = a.vanReleases := vanReleases_congr fun d _ => h.release d

end Settled

/-! ### A release that ends with its bike gone (R26, R27, R54, R56, R68) -/

section Open

variable {s t : State} {d : Nat} {hirer : Hirer} {issue : Option Nat} {image : TripImage} {credit bike : Nat}

/-- The open hire of a trip image. -/
def TripImage.hire (image : TripImage) (hirer : Hirer) (bike : Nat) : OpenHire :=
  { ref := image.ref, hirer := hirer, bikeId := bike, start := image.start, plan := image.plan
    generation := image.generation }

/-- The state in which a hire is open, with HIRE_OPEN in the slot set aside. -/
def State.opened (s : State) (hire : OpenHire) (issue : Option Nat) (d credit : Nat) (untracked : Bool) : State :=
  ({ (if untracked = true then s else s.putHires (s.hires ++ [hire])) with setAside := s.setAside - 1 } : State).post
    (.hireOpen hire issue d s.now credit untracked)

theorem Alike.opened (h : Alike s t) (hire : OpenHire) (issue : Option Nat) (d credit : Nat) (untracked : Bool) :
    Alike (s.opened hire issue d credit untracked) (t.opened hire issue d credit untracked) := by
  have hires : s.hires = t.hires := (congrArg (fun x => x.hires.cur) h.store :)
  unfold State.opened
  rw [h.now, h.setAside, hires]
  refine Alike.post ?_ _
  cases untracked with
  | true => exact h.withSetAside _
  | false => exact (h.putHires _).withSetAside _

theorem Alike.opened_putDock (hire : OpenHire) (issue : Option Nat) (c credit : Nat) (untracked : Bool) (d : Nat) (x : Dock) :
    Alike ((s.opened hire issue c credit untracked).putDock d x) ((s.putDock d x).opened hire issue c credit untracked) := by
  have step := Dockwise.putDock (s := s) d x
  have hires : (s.putDock d x).hires = s.hires := (congrArg (fun y => y.hires.cur) step.store :)
  unfold State.opened
  rw [step.now, step.setAside, hires]
  refine (post_putDock _ d x).trans (Alike.post ?_ _)
  cases untracked with
  | true => exact setAside_putDock _ d x
  | false => exact (setAside_putDock _ d x).trans ((putHires_putDock _ d x).withSetAside _)

/-- Whether the hire of a crew card finds the table full (R56). -/
def State.tableFull (s : State) (hirer : Hirer) : Bool :=
  hirer.isCrew && decide (Config.openHirePlaces ≤ s.hires.length + s.riderReleases)

theorem opened_pass (hire : OpenHire) (c : Nat) (untracked : Bool) (n : Nat) :
    (s.opened hire issue c credit untracked).pass n = s.pass n := by
  unfold State.opened
  rw [State.post_pass]
  cases untracked <;> rfl

theorem opened_dock (hire : OpenHire) (c : Nat) (untracked : Bool) (e : Nat) :
    (s.opened hire issue c credit untracked).dock e = s.dock e := by
  unfold State.opened
  rw [State.post_dock]
  cases untracked <;> rfl

theorem openHire_keeps
    (h : ∀ slot serial p, hirer = .pass slot serial → s.pass slot = some p →
      ¬ (p.serial = serial ∧ (p.state = .issued ∨ p.state = .idle))) :
    s.openHire hirer issue image credit d bike =
      s.opened (image.hire hirer bike) issue d credit (s.tableFull hirer) := by
  cases hirer with
  | pass slot serial =>
    show (s.opened (image.hire (.pass slot serial) bike) issue d credit (s.tableFull _)).passLeaves slot serial image.ref = _
    unfold State.passLeaves
    rw [opened_pass]
    cases hp : s.pass slot with
    | none => rfl
    | some p => exact if_neg (h slot serial p rfl hp)
  | member id => rfl
  | crew id =>
    unfold State.openHire State.opened
    cases hc : s.tableFull (.crew id) <;> unfold State.tableFull at hc <;> dsimp only <;> rw [hc] <;> rfl
  | remote id => rfl

theorem openHire_rides {slot serial : Nat} {p : Pass} (hp : s.pass slot = some p) (hs : p.serial = serial)
    (hst : p.state = .issued ∨ p.state = .idle) :
    s.openHire (.pass slot serial) issue image credit d bike =
      (s.opened (image.hire (.pass slot serial) bike) issue d credit (s.tableFull (.pass slot serial))).putPass slot
        (some { p with state := .onRide, current := some image.ref }) := by
  show (s.opened (image.hire (.pass slot serial) bike) issue d credit (s.tableFull _)).passLeaves slot serial image.ref = _
  unfold State.passLeaves
  rw [opened_pass, hp]
  exact if_pos ⟨hs, hst⟩

/-- The releases by riders do not count that of a crew card. -/
theorem riderReleases_putDock {x : Dock} {r : Release} (hr : (s.dock d).release = some r)
    (hc : r.hirer?.any (fun h => !h.isCrew) = false) (hx : x.release = none) :
    (s.putDock d x).riderReleases = s.riderReleases := by
  have has := hasDock_of_release hr
  obtain ⟨h1, hl⟩ := hasDock_iff.1 has
  have at_ : s.docks[d - 1]? = some (s.dock d) := by
    unfold State.dock entryAt
    rw [if_neg (by omega), List.getElem?_eq_getElem (by omega)]
    rfl
  obtain ⟨before, after, hsplit, hlen⟩ : ∃ before after, s.docks = before ++ s.dock d :: after ∧ before.length = d - 1 := by
    obtain ⟨hlt, hget⟩ := List.getElem?_eq_some_iff.1 at_
    refine ⟨s.docks.take (d - 1), s.docks.drop d, ?_, by simp; omega⟩
    have := List.take_append_drop (d - 1) s.docks
    rw [List.drop_eq_getElem_cons hlt, hget, show d - 1 + 1 = d by omega] at this
    exact this.symm
  have written : setEntry s.docks d x = before ++ x :: after := by
    unfold setEntry
    rw [if_neg (by omega), hsplit, ← hlen, List.set_append_right _ _ (Nat.le_refl _), Nat.sub_self, List.set_cons_zero]
  unfold State.riderReleases State.releases
  rw [State.putDock_docks, written, hsplit, List.filterMap_append, List.filterMap_append, List.filterMap_cons,
    List.filterMap_cons, hx, hr, List.countP_append, List.countP_append, List.countP_cons, hc]
  simp

end Open

end Sys2Proof.Machine
end

