-- ==== Sys2Proof/Proofs/ReleasedRemovals.lean ====
section
/-! PROOFS. The removal of a bike under its release: the hire opened with the slot set aside, or the van's move counted, and a
lockout that waits (R26, R27, R40, R54, R56, R68, R142, R149 to R153). -/

namespace Sys2Proof.Machine

section Emptied

variable {s : State} {d : Nat} {reason : EarlyReason} {z : DockState}

/-- A dock whose bike and release have gone. -/
def Dock.emptied (x : Dock) (z : DockState) : Dock :=
  { x with state := z, bike := none, release := none, windowAt := none }

/-- The record of a dock discarded, and its release with it (R18, R27). -/
def State.vacate (s : State) (d : Nat) (reason : EarlyReason) (z : DockState) : State :=
  (s.discardBike d reason).discardRelease d z

theorem vacate_eq (h : s.hasDock d) (reason : EarlyReason) (z : DockState) :
    s.vacate d reason z =
      ((s.settleDock d reason).putDock d { (s.settleDock d reason).dock d with bike := none }).putDock d
        (((s.settleDock d reason).dock d).emptied z) := by
  have has := (Settled.settleDock (s := s) d reason).hasDock.2 h
  unfold State.vacate State.discardRelease State.editDock State.discardBike State.editDock
  rw [dock_putDock_has has]
  rfl

theorem vacate_alike (h : s.hasDock d) (reason : EarlyReason) (z : DockState) :
    Alike (s.vacate d reason z) ((s.settleDock d reason).putDock d (((s.settleDock d reason).dock d).emptied z)) := by
  rw [vacate_eq h]
  exact Alike.putDock_putDock _ _ _

theorem vacate_dock (h : s.hasDock d) (reason : EarlyReason) (z : DockState) :
    (s.vacate d reason z).dock d = ((s.settleDock d reason).dock d).emptied z := by
  rw [vacate_eq h]
  exact dock_putDock_has (hasDock_putDock ((Settled.settleDock (s := s) d reason).hasDock.2 h))

theorem vacate_docks (h : s.hasDock d) (reason : EarlyReason) (z : DockState) :
    (s.vacate d reason z).docks =
      ((s.settleDock d reason).putDock d (((s.settleDock d reason).dock d).emptied z)).docks := by
  rw [vacate_eq h, State.putDock_docks, State.putDock_docks, State.putDock_docks, setEntry_setEntry]

theorem vacate_dockwise (h : s.hasDock d) (reason : EarlyReason) (z : DockState) :
    Dockwise (s.settleDock d reason) (s.vacate d reason z) := by
  rw [vacate_eq h]
  exact (Dockwise.putDock _ _).trans (Dockwise.putDock _ _)

/-- A lockout that waits, where it costs no reservation. -/
theorem applyPending_alike (h : s.hasDock d)
    (hr : (s.dock d).lockoutPending = true → (s.dock d).reservation = .unreserved) :
    Alike (s.applyPending d)
      (if (s.dock d).lockoutPending = true then
        s.putDock d { s.dock d with state := .lockedOut, relockAt := none, lockoutPending := false, shown := some .fault }
      else s) := by
  rw [applyPending_shut h rfl hr]
  unfold State.shutIf
  split
  · exact Alike.issue _ _
  · exact Alike.refl _

/-- The dock after a removal under its release (R27, R40). -/
def Dock.taken (x : Dock) (pending : Bool) (origin : Origin) (relockAt : Option Nat) : Dock :=
  { x with
    state := if pending = true ∨ origin = .lockedOut then .lockedOut else .empty
    bike := none, release := none, windowAt := none, lockoutPending := false
    relockAt := if pending = true then none else relockAt }

/-- What follows the discarding of a release, where it neither reads nor writes the dock, is followed by the lockout that
waits. -/
theorem applyPending_after {f : State → State} {origin : Origin} (h : s.hasDock d)
    (hr : (s.dock d).lockoutPending = true → (s.dock d).reservation = .unreserved)
    (hcongr : ∀ {s t : State}, Alike s t → Alike (f s) (f t))
    (hcomm : ∀ (s : State) (d : Nat) (x : Dock), Alike ((f s).putDock d x) (f (s.putDock d x)))
    (hdock : ∀ (s : State) (e : Nat), (f s).dock e = s.dock e)
    (hhas : ∀ {s : State}, s.hasDock d → (f s).hasDock d) :
    Alike ((f (s.vacate d reason (match origin with | .occupied => .empty | .lockedOut => .lockedOut))).applyPending d)
      (f ((s.settleDock d reason).putDock d
        (((s.settleDock d reason).dock d).taken (s.dock d).lockoutPending origin (s.dock d).relockAt))) := by
  have settled := Settled.settleDock (s := s) d reason
  generalize hz : (match origin with | .occupied => DockState.empty | .lockedOut => .lockedOut) = z
  have dock : (f (s.vacate d reason z)).dock d = ((s.settleDock d reason).dock d).emptied z := by
    rw [hdock, vacate_dock h]
  have has : (f (s.vacate d reason z)).hasDock d := hhas ((vacate_dockwise h _ _).hasDock.2 (settled.hasDock.2 h))
  have pending : ((f (s.vacate d reason z)).dock d).lockoutPending = (s.dock d).lockoutPending := by
    rw [dock]
    exact settled.lockoutPending d
  have relock := settled.relockAt d
  refine (applyPending_alike has fun hp => ?_).trans ?_
  · rw [pending] at hp
    rw [dock]
    exact (settled.reservation d).trans (hr hp)
  · rw [pending]
    split
    · rename_i hp
      rw [dock, hp]
      refine (hcomm _ _ _).trans (hcongr ?_)
      refine ((vacate_alike h _ _).putDock _ _).trans ((Alike.putDock_putDock _ _ _).trans (Alike.putDock_dressed ?_))
      unfold Dock.taken Dock.emptied
      rw [if_pos (.inl rfl), if_pos rfl]
    · rename_i hp
      have off : (s.dock d).lockoutPending = false := by simpa using hp
      refine hcongr ((vacate_alike h _ _).trans (Alike.of_eq ?_))
      have same : ((s.settleDock d reason).dock d).emptied z =
          ((s.settleDock d reason).dock d).taken (s.dock d).lockoutPending origin (s.dock d).relockAt := by
        have still := settled.lockoutPending d
        rw [off] at still
        unfold Dock.taken Dock.emptied
        rw [← relock, ← still, off]
        cases origin <;> subst hz <;> rfl
      rw [same]

end Emptied

section Hire

variable {s : State} {d : Nat} {r : Release} {hirer : Hirer} {issue : Option Nat} {ref : HireRef} {image : TripImage} {b : Bike}

theorem removal_hire (hb : (s.dock d).bike = some b) (hp : r.party = .hire hirer issue ref image) :
    s.removal d r =
      ((s.vacate d .removal (match r.origin with | .occupied => .empty | .lockedOut => .lockedOut)).openHire hirer issue image
        r.credit d b.id).applyPending d := by
  unfold State.removal
  rw [hp, hb]
  rfl

theorem removal_van {crew n : Nat} (hb : (s.dock d).bike = some b) (hp : r.party = .van crew n) :
    s.removal d r =
      ((s.vacate d .removal (match r.origin with | .occupied => .empty | .lockedOut => .lockedOut)).vanRemoval n d
        b.id).applyPending d := by
  unfold State.removal
  rw [hp, hb]
  rfl

theorem onRemoved_released {reason : EarlyReason} (hst : (s.dock d).state = .releaseOpen ∨ (s.dock d).state = .unlocking)
    (hr : (s.dock d).release = some r) : s.onRemoved d reason = s.removal d r := by
  unfold State.onRemoved
  dsimp only
  rcases hst with h | h <;> rw [h, hr]

theorem Settled.riderReleases {a s : State} (h : Settled a s) : s.riderReleases = a.riderReleases := by
  have releases (x : State) : x.releases = (x.docks.map Dock.still).filterMap (fun d => d.release) := by
    rw [List.filterMap_map]
    rfl
  unfold State.riderReleases
  rw [releases, releases, h.docks]

theorem tableFull_vacate (h : (s.dock d).release = some r) (hp : r.party = .hire hirer issue ref image)
    (reason : EarlyReason) (z : DockState) :
    (s.vacate d reason z).tableFull hirer = (hirer.isCrew && decide (96 ≤ s.hires.length + s.riderReleases)) := by
  have has := hasDock_of_release h
  have settled := Settled.settleDock (s := s) d reason
  have hires : (s.vacate d reason z).hires = s.hires :=
    ((congrArg (fun x => x.hires.cur) (vacate_dockwise has reason z).store).trans settled.hires :)
  unfold State.tableFull
  cases hc : hirer.isCrew with
  | false => rfl
  | true =>
    have riders : (s.vacate d reason z).riderReleases = s.riderReleases := by
      have out : r.hirer?.any (fun h => !h.isCrew) = false := by
        unfold Release.hirer?
        rw [hp]
        simp [hc]
      have written : (s.vacate d reason z).riderReleases =
          ((s.settleDock d reason).putDock d (((s.settleDock d reason).dock d).emptied z)).riderReleases := by
        unfold State.riderReleases State.releases
        rw [vacate_docks has]
      rw [written, riderReleases_putDock ((settled.release d).trans h) out rfl, settled.riderReleases]
    rw [hires, riders]
    rfl

/-- The hire opened at a dock as the removal leaves it. -/
theorem opened_taken {hire : OpenHire} {untracked : Bool} {x : Dock} {reason : EarlyReason} (credit : Nat) :
    ((s.settleDock d reason).putDock d x).opened hire issue d credit untracked =
      (if untracked = true then ({ (s.settleDock d reason).putDock d x with setAside := s.setAside - 1 } : State)
        else ({ (s.settleDock d reason).putDock d x with setAside := s.setAside - 1 } : State).putHires
          (s.hires ++ [hire])).post (.hireOpen hire issue d s.now credit untracked) := by
  have settled := Settled.settleDock (s := s) d reason
  have step := Dockwise.putDock (s := s.settleDock d reason) d x
  have hires : ((s.settleDock d reason).putDock d x).hires = s.hires :=
    ((congrArg (fun x => x.hires.cur) step.store).trans settled.hires :)
  have aside : ((s.settleDock d reason).putDock d x).setAside = s.setAside := step.setAside.trans settled.setAside
  have now : ((s.settleDock d reason).putDock d x).now = s.now := step.now.trans settled.now
  unfold State.opened
  rw [aside, hires, now]
  cases untracked <;> rfl

end Hire

end Sys2Proof.Machine
end

