-- ==== Sys2Proof/Proofs/RemovedBikes.lean ====
section
/-! PROOFS. The removal of a bike in each case: under a hirer's release, under a VAN release, and without one (R18, R26, R27,
R34, R40, R54, R56, R68, R123, R142, R146, R149 to R153). -/

namespace Sys2Proof.Machine

/-! ### The removal under a VAN release (R142, R151) -/

section Van

variable {s : State} {d n crew : Nat} {r : Release} {b : Bike} {m : ManifestEntry}

/-- The dock after a removal under a VAN release from OCCUPIED. -/
def Dock.collected (x : Dock) : Dock :=
  { x with state := .empty, bike := none, release := none, windowAt := none, reservation := .unreserved }

/-- The state in which the move of a removal is counted. -/
def State.collected (s : State) (n d : Nat) (m : ManifestEntry) (b : Bike) : State :=
  ((s.settleDock d .removal).putDock d ((s.settleDock d .removal).dock d).collected).moved
    (s.van.counted n m (s.elapsed + s.settings.vanIdleTimeout * 1000)) (s.van.moveOf true n d b.id s.now none)

/-- The state in which that move is counted, before the session is looked at. -/
def State.counting (s : State) (n d : Nat) (b : Bike) : State :=
  (((s.vacate d .removal .empty).countMove true n d b.id none).putReservation d .unreserved).restartIdle

theorem collected_free : (s.collected n d m b).free = (s.settleDock d .removal).free - 1 := by
  show (State.post _ _).free = _
  rw [State.post_free, (Dockwise.putDock d _).free]

theorem collected_dock (hr : (s.dock d).release = some r) (e : Nat) :
    (s.collected n d m b).dock e =
      if e = d then ((s.settleDock d .removal).dock d).collected else (s.settleDock d .removal).dock e := by
  have settled := Settled.settleDock (s := s) d .removal
  have has := settled.hasDock.2 (hasDock_of_release hr)
  show (State.post _ _).dock e = _
  rw [State.post_dock]
  split
  · rename_i h
    rw [h]
    exact dock_putDock_has has
  · rename_i h
    exact dock_putDock_ne h

theorem collected_releases_nil (hr : (s.dock d).release = some r) (h : s.vanReleases = [d]) : (s.collected n d m b).vanReleases = [] := by
  have settled := Settled.settleDock (s := s) d .removal
  refine vanReleases_nil h ?_ fun e hne => ?_
  · rw [collected_dock hr, if_pos rfl]
    rfl
  · rw [collected_dock hr, if_neg hne]
    exact settled.release e

theorem collected_releases (hr : (s.dock d).release = some r) (hs : s.sized) (hp : r.party = .van crew n) (h : s.vanReleases ≠ [d]) :
    (s.collected n d m b).vanReleases ≠ [] := by
  have settled := Settled.settleDock (s := s) d .removal
  refine vanReleases_ne_nil h (mem_vanReleases.2 ⟨mem_dockNumbers_of_sized hs (hasDock_of_release hr), r, crew, n, hr, hp⟩)
    fun e hne => ?_
  rw [collected_dock hr, if_neg hne]
  exact settled.release e

variable (hr : (s.dock d).release = some r) (he : entryAt s.van.manifest n = some m) (hm : s.van.moves = [])
  (hf : 0 < (s.settleDock d .removal).free)

include hr he hm hf

theorem counting_alike : Alike (s.counting n d b) (s.collected n d m b) := by
  have has := hasDock_of_release hr
  have settled := Settled.settleDock (s := s) d .removal
  have step := vacate_dockwise has .removal .empty
  have van : (s.vacate d .removal .empty).van = s.van := step.van.trans settled.van
  have now : (s.vacate d .removal .empty).now = s.now := step.now.trans settled.now
  have counted := countMove_alike (s := s.vacate d .removal .empty) (d := d) (n := n) (bike := b.id) (e := m) (by rw [van]; exact hm)
    (by rw [step.free]; exact hf) (by rw [van]; exact he) true none d
  rw [van, now, step.elapsed, settled.elapsed, step.settings, settled.settings] at counted
  refine counted.trans (Alike.moved ?_ _ _)
  rw [vacate_dock has]
  exact ((vacate_alike has _ _).putDock d _).trans (Alike.putDock_putDock d _ _)

theorem counting_dock_pending : ((s.counting n d b).dock d).lockoutPending = (s.dock d).lockoutPending := by
  have settled := Settled.settleDock (s := s) d .removal
  have shows := congrArg Dock.lockoutPending ((counting_alike (b := b) hr he hm hf).dock d)
  rw [collected_dock hr, if_pos rfl] at shows
  exact shows.trans (settled.lockoutPending d)

/-- The removal counts the move; with no lockout waiting nothing else follows but what the session does. -/
theorem removal_collects (hp : r.party = .van crew n) (ho : r.origin = .occupied) (hb : (s.dock d).bike = some b)
    (hl : (s.dock d).lockoutPending = false) {t : State} (h : Alike ((s.counting n d b).endIfMet).closeUp t) :
    Alike (s.removal d r) t := by
  have moved : Moved (s.counting n d b) ((s.counting n d b).endIfMet).closeUp := Moved.endIfMet.trans Moved.closeUp
  have quiet : (((s.counting n d b).endIfMet).closeUp.dock d).lockoutPending = false := by
    rw [moved.lockoutPending, counting_dock_pending hr he hm hf, hl]
  have eq : s.removal d r = ((s.counting n d b).endIfMet).closeUp := by
    rw [removal_van hb hp, ho]
    exact applyPending_none quiet
  rw [eq]
  exact h

theorem counting_still (h : s.van.phase = .active) (hx : ∃ x ∈ (setEntry s.van.manifest n { m with done := m.done + 1 }), x.done ≠ x.target) :
    Alike ((s.counting n d b).endIfMet).closeUp (s.collected n d m b) := by
  have alike := counting_alike (b := b) hr he hm hf
  have van : (s.counting n d b).van = (s.collected n d m b).van := alike.van
  have phase : (s.counting n d b).van.phase = .active := by rw [van]; exact h
  rw [endIfMet_goesOn (.inr (by rw [van]; exact hx)), closeUp_open (by rw [phase]; decide)]
  exact alike

theorem counting_ends (h : s.van.phase = .active)
    (hx : ∀ x ∈ (setEntry s.van.manifest n { m with done := m.done + 1 }), x.done = x.target) (hv : s.vanReleases = [d])
    (hu : ∀ e ∈ dockNumbers, e ≠ d → (s.dock e).reservation = .unreserved) (hs : s.van.summary = none)
    (hf1 : 1 < (s.settleDock d .removal).free) :
    Alike ((s.counting n d b).endIfMet).closeUp
      ((s.collected n d m b).summed { endedBy := .exhaustion, outcome := .exhausted, time := s.now }) := by
  have settled := Settled.settleDock (s := s) d .removal
  have alike := counting_alike (b := b) hr he hm hf
  have van : (s.counting n d b).van = (s.collected n d m b).van := alike.van
  have free : (s.counting n d b).free = (s.settleDock d .removal).free - 1 :=
    alike.free.trans collected_free
  have now : (s.counting n d b).now = s.now := by
    refine alike.now.trans ?_
    show (State.post _ _).now = _
    rw [State.post_now, (Dockwise.putDock d _).now, settled.now]
  have unreserved (e : Nat) (hmem : e ∈ dockNumbers) : ((s.counting n d b).dock e).reservation = .unreserved := by
    rw [alike.reservation, collected_dock hr]
    split
    · rfl
    · rename_i hne
      rw [settled.reservation]
      exact hu e hmem hne
  have ended := endIfMet_alike (s := s.counting n d b) (by rw [van]; exact h) (by rw [van]; exact hx) (by rw [van]; exact hs)
    (alike.vanReleases.trans (collected_releases_nil hr hv)) (by rw [van]; exact hm) (by omega) unreserved
  have idle : ((s.counting n d b).endIfMet).van.phase = .idle := by
    rw [ended.van]
    rfl
  rw [closeUp_open (by rw [idle]; decide)]
  rw [now] at ended
  exact ended.trans (alike.summed _)

theorem counting_waits (hs : s.sized) (hp : r.party = .van crew n) (h : s.van.phase = .closing) (hv : s.vanReleases ≠ [d]) :
    Alike ((s.counting n d b).endIfMet).closeUp (s.collected n d m b) := by
  have alike := counting_alike (b := b) hr he hm hf
  have phase : (s.counting n d b).van.phase = .closing := by rw [alike.van]; exact h
  rw [endIfMet_other (by rw [phase]; decide),
    closeUp_waits (by rw [alike.vanReleases]; exact collected_releases hr hs hp hv)]
  exact alike

theorem counting_closes {ending : VanEnding} (h : s.van.phase = .closing) (hv : s.vanReleases = [d])
    (hen : s.van.ending = some ending) (hs : s.van.summary = none) (hf1 : 1 < (s.settleDock d .removal).free) :
    Alike ((s.counting n d b).endIfMet).closeUp ((s.collected n d m b).summed ending) := by
  have alike := counting_alike (b := b) hr he hm hf
  have van : (s.counting n d b).van = (s.collected n d m b).van := alike.van
  have phase : (s.counting n d b).van.phase = .closing := by rw [van]; exact h
  have free : (s.counting n d b).free = (s.settleDock d .removal).free - 1 :=
    alike.free.trans collected_free
  rw [endIfMet_other (by rw [phase]; decide)]
  exact (closeUp_alike phase (by rw [van]; exact hen) (by rw [van]; exact hs)
    (alike.vanReleases.trans (collected_releases_nil hr hv)) (by rw [van]; exact hm) (by omega)).trans (alike.summed _)

end Van

/-! ### The unreleased removal (R34) -/

section Unreleased

variable {s : State} {d : Nat} {reason : EarlyReason}

/-- The state in which an unreleased removal has left the dock. -/
def State.emptied (s : State) (d : Nat) (reason : EarlyReason) (z : DockState) : State :=
  (s.settleDock d reason).putDock d { ((s.settleDock d reason).dock d).emptied z with relockAt := none }

theorem emptied_dockwise (s : State) (d : Nat) (reason : EarlyReason) (z : DockState) :
    Dockwise (s.settleDock d reason) (s.emptied d reason z) := Dockwise.putDock _ _

theorem emptied_dock (h : s.hasDock d) (z : DockState) :
    (s.emptied d reason z).dock d = { ((s.settleDock d reason).dock d).emptied z with relockAt := none } :=
  dock_putDock_has ((Settled.settleDock (s := s) d reason).hasDock.2 h)

theorem emptied_eq (h : s.hasDock d) (z : DockState) :
    (s.vacate d reason z).editDock d (fun k => { k with relockAt := none }) = s.emptied d reason z := by
  have has := (Settled.settleDock (s := s) d reason).hasDock.2 h
  have collapses := putDock_putDock (x := ((s.settleDock d reason).dock d).emptied z)
    (y := { ((s.settleDock d reason).dock d).emptied z with relockAt := none })
    (hasDock_putDock (x := { (s.settleDock d reason).dock d with bike := none }) (e := d) has) rfl
  unfold State.editDock State.emptied
  rw [vacate_dock h, vacate_eq h]
  refine collapses.trans ?_
  by_cases hz : ((s.settleDock d reason).dock d).state = z
  · refine putDock_putDock has ?_
    exact (share_bikeless (x := (s.settleDock d reason).dock d) (z := ((s.settleDock d reason).dock d).state)).trans
      (hz ▸ (share_bikeless (x := (s.settleDock d reason).dock d) (z := z)).symm)
  · exact putDock_over has fun heq => hz (congrArg Prod.fst heq)

theorem unreleasedRemoval_bare (h : s.hasDock d) (hr : (s.dock d).release = none) :
    s.unreleasedRemoval d reason =
      ((s.emptied d reason (if (s.dock d).state = .lockedOut then .lockedOut else .empty)).countFault d .sensor
        .unreleasedRemoval).loseCollect d := by
  have already : (s.dock d).lockedAlready = ((s.dock d).state == .lockedOut) := by
    unfold Dock.lockedAlready
    rw [hr]
    simp
  unfold State.unreleasedRemoval
  dsimp only
  rw [hr, already]
  dsimp only
  rw [← emptied_eq h]
  unfold State.vacate
  simp only [beq_iff_eq]

theorem unreleasedRemoval_released {r : Release} (hr : (s.dock d).release = some r) (hst : (s.dock d).state = .tagWriting)
    (ho : r.origin = .occupied) :
    s.unreleasedRemoval d reason =
      ((((((s.emptied d reason .empty).showRefusal d r).tellVan d r).applyPending d).countFault d .sensor
        .unreleasedRemoval).loseCollect d).giveUp r := by
  have already : (s.dock d).lockedAlready = false := by
    rw [← Bool.not_eq_true, lockedAlready_iff, hr]
    simp [hst, ho]
  unfold State.unreleasedRemoval
  dsimp only
  rw [hr, already]
  dsimp only
  rw [← emptied_eq (hasDock_of_release hr)]
  rfl

theorem onRemoved_unreleased
    (h : (s.dock d).state = .occupied ∨ (s.dock d).state = .relocking ∨ (s.dock d).state = .tagWriting ∨
      ((s.dock d).state = .lockedOut ∧ (s.dock d).bike ≠ none)) :
    s.onRemoved d reason = s.unreleasedRemoval d reason := by
  unfold State.onRemoved
  dsimp only
  rcases h with h | h | h | ⟨h, hb⟩ <;> rw [h]
  exact if_pos (Option.isSome_iff_ne_none.2 hb)

theorem onRemoved_idle
    (h : (s.dock d).state = .empty ∨ (s.dock d).state = .offline ∨ ((s.dock d).state = .lockedOut ∧ (s.dock d).bike = none)) :
    s.onRemoved d reason = s := by
  unfold State.onRemoved
  dsimp only
  rcases h with h | h | ⟨h, hb⟩ <;> rw [h]
  exact if_neg (by rw [hb]; decide)

theorem loseCollect_collect {n : Nat} (h : (s.dock d).reservation = .collect n) : s.loseCollect d = s.loseReservation d := by
  unfold State.loseCollect
  rw [h]

theorem loseCollect_other (h : ∀ n, (s.dock d).reservation ≠ .collect n) : s.loseCollect d = s := by
  unfold State.loseCollect
  split
  · rename_i n hc
    exact absurd hc (h n)
  · rfl
  · rfl

end Unreleased

end Sys2Proof.Machine
end

