-- ==== Sys2Proof/Proofs/RemovalOpens.lean ====
section
/-! PROOFS. The removal of a bike as its event leaves it (R26, R27, R34, R40, R54, R56, R68, R123, R142, R146, R149 to R153). -/

namespace Sys2Proof.Machine

section NoCollect

variable {s : State} {d : Nat}

/-- A dock that stands under no COLLECT reservation. -/
def State.uncollected (s : State) (d : Nat) : Prop := ∀ n, (s.dock d).reservation ≠ .collect n

theorem uncollected_of_docks {t : State} (h : t.docks = s.docks) (hs : s.uncollected d) : t.uncollected d := by
  intro n
  rw [dock_of_docks h]
  exact hs n

theorem uncollected_putReservation {e : Nat} {x : Reservation} (hx : ∀ n, x ≠ .collect n) (hs : s.uncollected d) :
    (s.putReservation e x).uncollected d := by
  intro n
  rw [putReservation_eq]
  show (({ s with docks := setEntry s.docks e { s.dock e with reservation := x } } : State).dock d).reservation ≠ _
  rw [dock_setEntry]
  split
  · exact hx n
  · exact hs n

theorem uncollected_dropAll (l : List Nat) (hs : s.uncollected d) : (s.dropAll l).uncollected d := by
  induction l generalizing s with
  | nil => exact hs
  | cons e l ih => exact ih (uncollected_putReservation (fun n => nofun) hs)

theorem uncollected_endSession (hs : s.uncollected d) (endedBy : EndedBy) (outcome : VanOutcome) :
    (s.endSession endedBy outcome).uncollected d := by
  refine uncollected_of_docks (closeUp_docks _) (uncollected_of_docks ?_ (uncollected_dropAll s.droppable hs))
  unfold State.putVan
  dsimp only
  split <;> rfl

theorem uncollected_fall (n : Nat) (hs : s.uncollected d) : (s.fall n).uncollected d := by
  have updated : (s.updateEntry n (fun m => { m with target := m.target - 1, short := m.short + 1 })).uncollected d :=
    uncollected_of_docks (updateEntry_docks _ _ _) hs
  unfold State.fall State.endIfMet
  split
  · exact uncollected_endSession updated _ _
  · exact updated

theorem uncollected_loseReservation {e : Nat} (he : s.uncollected e) (hs : s.uncollected d) :
    (s.loseReservation e).uncollected d := by
  have dropped : (s.putReservation e .unreserved).uncollected d := uncollected_putReservation (fun n => nofun) hs
  unfold State.loseReservation
  split
  · exact hs
  · rename_i n hr
    exact absurd hr (he n)
  · rename_i n hr
    dsimp only
    split
    · unfold State.moveDeliver
      split
      · exact uncollected_putReservation (fun n => nofun) dropped
      · exact uncollected_fall _ dropped
    · exact uncollected_of_docks (closeUp_docks _) dropped

/-- A counted fault leaves a dock under no COLLECT reservation so. -/
theorem uncollected_countFault (hd : s.hasDock d) (hr : (s.dock d).release = none) (hs : s.uncollected d) (kind : DockFault)
    (cause : DockCause) : (s.countFault d kind cause).uncollected d := by
  have counted : (s.counted d).uncollected d := by
    intro n
    rw [counted_dock hd]
    exact hs n
  have shut : (s.shut d).uncollected d := by
    intro n
    rw [shut_dock hd]
    exact hs n
  by_cases h : 0 < s.settings.dockFaultLimit ∧ s.settings.dockFaultLimit ≤ min 7 ((s.dock d).counter + 1) ∧
      (s.dock d).lockedAlready = false
  · rw [countFault_orders h.1 h.2.1 h.2.2, orderLockout_at_once hd hr]
    exact uncollected_of_docks (by rw [State.setAttention_docks, State.makeFault_docks]) (uncollected_loseReservation shut shut)
  · rw [countFault_notes (by
      by_cases h0 : s.settings.dockFaultLimit = 0
      · exact .inl h0
      · by_cases h1 : min 7 ((s.dock d).counter + 1) < s.settings.dockFaultLimit
        · exact .inr (.inl h1)
        · refine .inr (.inr ?_)
          by_contra hl
          exact h ⟨by omega, by omega, by simpa using hl⟩)]
    exact uncollected_of_docks (State.makeFault_docks ..) counted

end NoCollect

/-- A done count that rises leaves the short counts. -/
theorem any_short_done {l : List ManifestEntry} {n : Nat} {m : ManifestEntry} (h : entryAt l n = some m) :
    (setEntry l n { m with done := m.done + 1 }).any (fun x => decide (0 < x.short)) =
      l.any (fun x => decide (0 < x.short)) := by
  have shorts : (setEntry l n { m with done := m.done + 1 }).map ManifestEntry.short = l.map ManifestEntry.short :=
    map_setEntry_same ManifestEntry.short l n m _ (by rw [h]; rfl)
  have any_ (k : List ManifestEntry) : k.any (fun x => decide (0 < x.short)) = (k.map ManifestEntry.short).any (fun n => decide (0 < n)) := by
    rw [List.any_map]
    rfl
  rw [any_, any_, shorts]

/-- Settles O50: the record and the release discarded, then what the hirer, the van or the lack of a release brings. -/
theorem removalOpensTheHire : Obligations.RemovalOpensTheHire := by
  refine ⟨?_, ?_, ?_⟩
  · intro d hirer issue ref image r b s h1 hlen hst hr hp hb hlock u pending hire untracked left opened
    have has : s.hasDock d := hasDock_of_range h1 hlen
    have full (z : DockState) : (s.vacate d .removal z).tableFull hirer = untracked :=
      (tableFull_vacate hr hp .removal z).trans (by cases hirer <;> rfl)
    have openedEq : (u.putDock d ((u.dock d).taken pending r.origin (s.dock d).relockAt)).opened hire issue d r.credit untracked =
        opened := opened_taken r.credit
    have passes (z : DockState) (n : Nat) : (s.vacate d .removal z).pass n = u.pass n := (vacate_dockwise has .removal z).pass n
    refine ⟨fun hn => ?_, fun slot serial p hh hpass hserial hstate => ?_⟩
    · rw [onRemoved_released hst hr, removal_hire hb hp, openHire_keeps (fun slot serial p hh hpass =>
        hn slot serial p hh (by rwa [passes] at hpass)), full]
      refine (applyPending_after (f := fun s => s.opened hire issue d r.credit untracked) has hlock
        (fun h => h.opened _ _ _ _ _) (fun s d x => Alike.opened_putDock _ _ _ _ _ d x) (fun s e => opened_dock _ _ _ e)
        (fun h => ?_)).trans (Alike.of_eq openedEq)
      exact (hasDock_congr (by unfold State.opened; rw [State.post_docks]; cases untracked <;> rfl)).2 h
    · subst hh
      rw [onRemoved_released hst hr, removal_hire hb hp, openHire_rides (by rwa [passes]) hserial hstate, full]
      refine (applyPending_after (f := fun s => (s.opened hire issue d r.credit untracked).putPass slot
        (some { p with state := .onRide, current := some image.ref })) has hlock
        (fun h => (h.opened _ _ _ _ _).putPass _ _)
        (fun s d x => (Alike.putPass_putDock _ _ d x).trans ((Alike.opened_putDock _ _ _ _ _ d x).putPass _ _))
        (fun s e => (State.putPass_dock ..).trans (opened_dock _ _ _ e))
        (fun h => ?_)).trans (Alike.of_eq (congrArg (fun t : State => t.putPass slot _) openedEq))
      exact (hasDock_congr (by
        rw [State.putPass_docks]; unfold State.opened; rw [State.post_docks]; cases untracked <;> rfl)).2 h
  · intro d crew n r b m s h1 h64 hs hst hr hp ho hb hl he hm u hf manifest moved closed
    have removed {t : State} (h : Alike ((s.counting n d b).endIfMet).closeUp t) : (s.onRemoved d .removal).steady = t.steady := by
      rw [onRemoved_released hst hr]
      exact removal_collects hr he hm hf hp ho hb hl h
    have closedEq (ending : VanEnding) : (s.collected n d m b).summed ending = closed ending := by
      have summary : (s.collected n d m b).van.summaryOf ending = { s.collected n d m b |>.van.summaryOf ending with
          short := s.van.manifest.any (fun x => decide (0 < x.short)) } := by
        rw [← any_short_done he]
        rfl
      unfold State.summed
      rw [summary]
      rfl
    refine ⟨fun ha hx => removed ?_, fun ha hx hv hu hsum hf1 => removed ?_, fun hc hv => removed ?_,
      fun ending hc hv hen hsum hf1 => removed ?_⟩
    · exact counting_still hr he hm hf ha hx
    · rw [← closedEq]
      exact counting_ends hr he hm hf ha hx hv hu hsum hf1
    · exact counting_waits hr he hm hf hs hp hc hv
    · rw [← closedEq]
      exact counting_closes hr he hm hf hc hv hen hsum hf1
  · intro d reason s h1 hlen u left below
    have has : s.hasDock d := hasDock_of_range h1 hlen
    have settled := Settled.settleDock (s := s) d reason
    have uHas : u.hasDock d := settled.hasDock.2 has
    have lefts (z : DockState) (hz : z = if (s.dock d).state = .lockedOut then .lockedOut else .empty) :
        s.emptied d reason z = left := by
      subst hz
      rfl
    have leftDock : left.dock d = { (u.dock d).emptied (if (s.dock d).state = .lockedOut then .lockedOut else .empty) with
        relockAt := none } := dock_putDock_has uHas
    have leftHas : left.hasDock d := hasDock_putDock uHas
    have step : Dockwise u left := Dockwise.putDock _ _
    have belowAt (t : State) (ht : Dockwise left t) (hd : t.dock d = left.dock d) (h : below) :
        t.settings.dockFaultLimit = 0 ∨ min 7 ((t.dock d).counter + 1) < t.settings.dockFaultLimit := by
      have limit : t.settings = s.settings := (ht.settings.trans step.settings).trans settled.settings
      have counter : (t.dock d).counter = (s.dock d).counter := by
        rw [hd, leftDock]
        exact settled.counter d
      rw [limit, counter]
      exact h
    have kept (t : State) (ht : Dockwise left t) (hd : t.dock d = left.dock d) (h : below) :
        ((t.countFault d .sensor .unreleasedRemoval).dock d).reservation = (s.dock d).reservation := by
      rw [countFault_noted_dock (ht.hasDock.2 leftHas) (belowAt t ht hd h), hd, leftDock]
      exact settled.reservation d
    refine ⟨onRemoved_idle, fun hr hst hn => ?_, fun n hn hphase hcase hbelow => ?_,
      fun r hirer issue ref image hst hr hp hnp ho hl hres hfirst hf hbelow => ?_⟩
    · rw [onRemoved_unreleased (by tauto), unreleasedRemoval_bare has hr, lefts _ rfl, loseCollect_other]
      refine uncollected_countFault leftHas (by rw [leftDock]; rfl) (fun n => ?_) _ _
      rw [leftDock]
      exact (settled.reservation d).symm ▸ hn n
    · have held := (kept left (Dockwise.refl _) rfl hbelow).trans hn
      rcases hcase with ⟨hr, hst⟩ | ⟨hst, r, crew, hr, hp, ho, hl⟩
      · rw [onRemoved_unreleased (by tauto), unreleasedRemoval_bare has hr, lefts _ rfl, loseCollect_collect held]
      · have quiet : (left.dock d).lockoutPending = false := by
          rw [leftDock]
          exact (settled.lockoutPending d).trans hl
        have shown : left.showRefusal d r = left := by
          unfold State.showRefusal
          rw [hp]
        have told : left.tellVan d r = left := by
          rw [tellVan_van hp, vanLapse_open (by rw [step.van, settled.van]; exact hphase)]
        rw [onRemoved_unreleased (by tauto), unreleasedRemoval_released hr hst ho,
          lefts _ (by rw [hst]; rfl), shown, told, applyPending_none quiet, loseCollect_collect held, giveUp_van hp]
    · intro refused
      have shown : left.showRefusal d r = refused := by
        unfold State.showRefusal
        rw [hp]
        rfl
      have refusedStep : Dockwise left refused := shown ▸ showRefusal_dockwise left d r
      have refusedDock : refused.dock d = left.dock d := shown ▸ dock_of_docks (showRefusal_docks left d r) d
      have whole : Dockwise u refused := step.trans refusedStep
      have quiet : (refused.dock d).lockoutPending = false := by
        rw [refusedDock, leftDock]
        exact (settled.lockoutPending d).trans hl
      have limit := belowAt refused refusedStep refusedDock hbelow
      have uncollected : (refused.countFault d .sensor .unreleasedRemoval).uncollected d := by
        intro n
        rw [kept refused refusedStep refusedDock hbelow, hres]
        nofun
      rw [onRemoved_unreleased (by tauto), unreleasedRemoval_released hr hst ho, lefts _ (by rw [hst]; rfl), shown,
        tellVan_hire hp, applyPending_none quiet, loseCollect_other uncollected,
        giveUp_back hp fun slot serial h => (hnp slot serial h).elim,
        giveBack_idle (firstPlace_countFault_noted (whole.free ▸ hf) (whole.firstPlace.trans hfirst) limit),
        countFault_noted_setAside limit, whole.setAside, settled.setAside]

end Sys2Proof.Machine
end

