-- ==== Sys2Proof/Proofs/Arrivals.lean ====
section
/-! PROOFS. A bike record made anew at a dock, the record before it discarded: the lock that follows, the TAG report, the
conflict (R18, R30, R32, R33, R122, R126, R130). -/

namespace Sys2Proof.Machine

/-! ### A bike record discarded (R18) -/

/-- A dock but for its bike. -/
def Dock.bare (x : Dock) : Dock := { x with bike := none }

/-- `s` comes from `a` by a change of journal, passes, settle list, bikes and marks alone. -/
structure Unbiked (a s : State) : Prop where
  same : s = { a with
    store := { a.store with
      journal := s.store.journal, epoch := s.store.epoch, passes := s.store.passes, settle := s.store.settle }
    docks := s.docks
    link := { a.link with marks := s.link.marks } }
  docks : s.docks.map Dock.bare = a.docks.map Dock.bare

namespace Unbiked

variable {a s t : State} {d : Nat}

theorem refl (a : State) : Unbiked a a := ⟨rfl, rfl⟩

theorem trans (h1 : Unbiked a s) (h2 : Unbiked s t) : Unbiked a t := by
  refine ⟨?_, h2.docks.trans h1.docks⟩
  have e2 := h2.same
  rw [h1.same] at e2
  exact e2

theorem of_settled (h : Settled a s) : Unbiked a s := by
  refine ⟨h.same, ?_⟩
  have bare : Dock.bare = Dock.bare ∘ Dock.still := rfl
  rw [bare, ← List.map_map, ← List.map_map, h.docks]

theorem putBike (d : Nat) (b : Option Bike) : Unbiked s (s.putDock d { s.dock d with bike := b }) := by
  refine ⟨?_, ?_⟩
  · unfold State.putDock
    dsimp only
    split <;> rfl
  · rw [State.putDock_docks]
    exact map_setEntry_same Dock.bare s.docks d (.atStart false) _ rfl

theorem discardBike (d : Nat) (reason : EarlyReason) : Unbiked s (s.discardBike d reason) :=
  (of_settled (Settled.settleDock d reason)).trans (putBike d none)

theorem vacated (d : Nat) (reason : EarlyReason) : Unbiked s (s.vacated d reason) := by
  unfold State.vacated
  split
  · exact refl s
  · exact discardBike d reason

theorem power (h : Unbiked a s) : s.power = a.power := (congrArg State.power h.same :)
theorem elapsed (h : Unbiked a s) : s.elapsed = a.elapsed := (congrArg State.elapsed h.same :)
theorem now (h : Unbiked a s) : s.now = a.now := (congrArg State.now h.same :)
theorem settings (h : Unbiked a s) : s.settings = a.settings := (congrArg State.settings h.same :)
theorem tariffs (h : Unbiked a s) : s.tariffs = a.tariffs := (congrArg State.tariffs h.same :)
theorem plans (h : Unbiked a s) : s.plans = a.plans := (congrArg State.plans h.same :)
theorem hires (h : Unbiked a s) : s.hires = a.hires := (congrArg State.hires h.same :)
theorem nodes (h : Unbiked a s) : s.nodes = a.nodes := (congrArg State.nodes h.same :)
theorem node (h : Unbiked a s) (d : Nat) : s.node d = a.node d := (congrArg (fun x => State.node x d) h.same :)
theorem setAside (h : Unbiked a s) : s.setAside = a.setAside := (congrArg State.setAside h.same :)
theorem faults (h : Unbiked a s) : s.faults = a.faults := (congrArg State.faults h.same :)
theorem faultsDropped (h : Unbiked a s) : s.faultsDropped = a.faultsDropped := (congrArg State.faultsDropped h.same :)
theorem van (h : Unbiked a s) : s.van = a.van := (congrArg State.van h.same :)
theorem readerRuns (h : Unbiked a s) : s.readerRuns = a.readerRuns := (congrArg State.readerRuns h.same :)
theorem offlineAt (h : Unbiked a s) : s.offlineAt = a.offlineAt := (congrArg State.offlineAt h.same :)

theorem length (h : Unbiked a s) : s.docks.length = a.docks.length := by
  have := congrArg List.length h.docks
  rwa [List.length_map, List.length_map] at this

theorem hasDock (h : Unbiked a s) : s.hasDock d ↔ a.hasDock d := hasDock_congr h.length

theorem dock_bare (h : Unbiked a s) (d : Nat) : (s.dock d).bare = (a.dock d).bare := by
  have at_ (x : State) : (x.dock d).bare = ((entryAt (x.docks.map Dock.bare) d).getD (.atStart false)) := by
    unfold State.dock entryAt
    split
    · rfl
    · rw [List.getElem?_map]
      cases x.docks[d - 1]? <;> rfl
  rw [at_, at_, h.docks]

theorem configured (h : Unbiked a s) (d : Nat) : (s.dock d).configured = (a.dock d).configured :=
  (congrArg Dock.configured (h.dock_bare d) :)
theorem state (h : Unbiked a s) (d : Nat) : (s.dock d).state = (a.dock d).state := (congrArg Dock.state (h.dock_bare d) :)
theorem lock (h : Unbiked a s) (d : Nat) : (s.dock d).lock = (a.dock d).lock := (congrArg Dock.lock (h.dock_bare d) :)
theorem counter (h : Unbiked a s) (d : Nat) : (s.dock d).counter = (a.dock d).counter :=
  (congrArg Dock.counter (h.dock_bare d) :)
theorem reservation (h : Unbiked a s) (d : Nat) : (s.dock d).reservation = (a.dock d).reservation :=
  (congrArg Dock.reservation (h.dock_bare d) :)
theorem release (h : Unbiked a s) (d : Nat) : (s.dock d).release = (a.dock d).release :=
  (congrArg Dock.release (h.dock_bare d) :)

end Unbiked

section Vacated

variable {s : State} {d : Nat} {reason : EarlyReason}

theorem vacated_none (h : (s.dock d).bike = none) : s.vacated d reason = s := by
  unfold State.vacated
  rw [h]

theorem vacated_some {b : Bike} (h : (s.dock d).bike = some b) : s.vacated d reason = s.discardBike d reason := by
  unfold State.vacated
  rw [h]
  rfl

theorem vacated_bike (s : State) (d : Nat) (reason : EarlyReason) : ((s.vacated d reason).dock d).bike = none := by
  cases hb : (s.dock d).bike with
  | none => rw [vacated_none hb, hb]
  | some b =>
    rw [vacated_some hb]
    unfold State.discardBike State.editDock
    rw [dock_putDock_has ((Settled.settleDock (s := s) d reason).hasDock.2 (hasDock_of_ne fun h => by rw [h] at hb; cases hb))]

/-- The ids of the bikes in other docks stand. -/
theorem vacated_bikeId {e : Nat} (he : e ≠ d) :
    ((s.vacated d reason).dock e).bike.map (fun b => b.id) = (s.dock e).bike.map (fun b => b.id) := by
  cases hb : (s.dock d).bike with
  | none => rw [vacated_none hb]
  | some b =>
    rw [vacated_some hb]
    unfold State.discardBike State.editDock
    rw [dock_putDock_ne he]
    exact (Moved.of_settled (Settled.settleDock (s := s) d reason)).bikeId e

theorem bikeElsewhere_congr {t : State} {id : Nat}
    (h : ∀ e, e ≠ d → (t.dock e).bike.map (fun b => b.id) = (s.dock e).bike.map (fun b => b.id)) :
    t.bikeElsewhere d id = s.bikeElsewhere d id := by
  unfold State.bikeElsewhere
  refine List.any_congr rfl fun e => ?_
  by_cases he : e = d
  · simp [he]
  · have ids (x : Option Bike) : x.any (fun b => b.id == id) = (x.map (fun b => b.id)).any (fun n => n == id) := by
      cases x <;> rfl
    rw [ids, ids, h e he]

theorem vacated_elsewhere (id : Nat) : (s.vacated d reason).bikeElsewhere d id = s.bikeElsewhere d id :=
  bikeElsewhere_congr fun _ he => vacated_bikeId he

end Vacated

/-! ### A record made anew (R30) -/

section Landed

variable {s : State} {d id : Nat} {found : Found} {startup : Bool}

/-- A dock with a bike arrived. -/
def Dock.docked (x : Dock) (found : Found) (b : Bike) : Dock :=
  { x with
    bike := some b
    state :=
      if found ≠ .census ∧ x.state ≠ .lockedOut then (if x.lock = .locked then .occupied else .relocking) else x.state }

/-- The state in which a bike has arrived at a dock, LOCK issued where its lock is not LOCKED (R30, R33). -/
def State.landed (s : State) (d : Nat) (found : Found) (b : Bike) : State :=
  if found ≠ .census ∧ (s.dock d).lock ≠ .locked ∧ ((s.dock d).state = .lockedOut → found = .replaced) then
    (s.putDock d ((s.dock d).docked found b)).issue d .lock
  else s.putDock d ((s.dock d).docked found b)

theorem landed_dockwise (s : State) (d : Nat) (found : Found) (b : Bike) : Dockwise s (s.landed d found b) := by
  unfold State.landed
  split
  · exact (Dockwise.putDock _ _).trans (Dockwise.issue _ _)
  · exact Dockwise.putDock _ _

theorem landed_dock (h : s.hasDock d) (found : Found) (b : Bike) : (s.landed d found b).dock d = (s.dock d).docked found b := by
  unfold State.landed
  split
  · rw [dock_issue, dock_putDock_has h]
  · exact dock_putDock_has h

theorem dockBike_eq (s : State) (d id : Nat) (found : Found) :
    s.dockBike d id found = s.putDock d ((s.dock d).docked found (.arrived id s.now)) := rfl

/-- The lock that follows an arrival, by the dock as it stood before. -/
theorem lockArrival_eq {t : State} {x : Dock} {b : Bike} (h : t.dock d = x.docked found b) :
    t.lockArrival d found =
      if found ≠ .census ∧ x.lock ≠ .locked ∧ (x.state = .lockedOut → found = .replaced) then t.issue d .lock else t := by
  unfold State.lockArrival
  dsimp only
  rw [h]
  unfold Dock.docked
  refine if_congr ?_ rfl rfl
  by_cases hf : found = .census
  · simp [hf]
  · by_cases hs : x.state = .lockedOut
    · simp [hf, hs]
      tauto
    · by_cases hl : x.lock = .locked <;> simp [hf, hs, hl]

theorem arrival_lands (h : s.hasDock d) :
    (s.dockBike d id found).lockArrival d found = s.landed d found (.arrived id s.now) := by
  rw [lockArrival_eq (x := s.dock d) (b := .arrived id s.now) (by rw [dockBike_eq]; exact dock_putDock_has h), dockBike_eq]
  rfl

/-- A dock under no DELIVER reservation. -/
def State.undelivered (s : State) (d : Nat) : Prop := ∀ n, (s.dock d).reservation ≠ .deliver n

theorem disturbDeliver_other (h : s.undelivered d) : s.disturbDeliver d = s := by
  unfold State.disturbDeliver
  split
  · rename_i n hr
    exact absurd hr (h n)
  · rfl
  · rfl

/-- A bike with an unreadable tag has id 0, and TAG is reported (R30, R122). -/
theorem arrive_unreadable (h : s.hasDock d) (hr : s.undelivered d) :
    s.arrive d none found startup = (s.landed d found (.arrived 0 s.now)).reportTag d := by
  unfold State.arrive
  dsimp only
  rw [arrival_lands h]
  refine disturbDeliver_other fun n => ?_
  obtain ⟨b, hb⟩ := reportTag_dock (s.landed d found (.arrived 0 s.now)) d
  rw [hb, landed_dock h]
  exact hr n

theorem vanArrival_shut (h : s.van.phase.open = false) (wasEmpty : Bool) (bike : Nat) :
    s.vanArrival d bike wasEmpty = s := if_neg (by rw [h]; decide)

theorem vanArrival_replaced (h : s.undelivered d) (bike : Nat) : s.vanArrival d bike false = s := by
  unfold State.vanArrival
  split
  · split
    · rename_i n hr
      exact absurd hr (h n)
    · rfl
    · rfl
  · rfl

theorem arrive_idle (h : s.hasDock d) (he : s.bikeElsewhere d id = false) :
    s.arrive d (some (.idle id)) found startup =
      (s.landed d found (.arrived id s.now)).vanArrival d id (found == .empty) := by
  unfold State.arrive
  dsimp only
  rw [he, if_neg Bool.false_ne_true, arrival_lands h]

/-- With no session open, or at a dock that was not EMPTY, a bike with an IDLE tag is no delivery (R143). -/
theorem arrive_idle_uncounted (h : s.hasDock d) (he : s.bikeElsewhere d id = false)
    (hq : s.van.phase.open = false ∨ (found ≠ .empty ∧ s.undelivered d)) :
    s.arrive d (some (.idle id)) found startup = s.landed d found (.arrived id s.now) := by
  rw [arrive_idle h he]
  rcases hq with hv | ⟨hf, hu⟩
  · exact vanArrival_shut (by rw [(landed_dockwise _ _ _ _).van]; exact hv) _ _
  · rw [beq_eq_false_iff_ne.2 hf]
    refine vanArrival_replaced (fun n => ?_) _
    rw [landed_dock h]
    exact hu n

/-! ### A conflicting id (R30, R122) -/

theorem issue_putDock {x : Dock} {c : Command} (hx : x.configured = (s.dock d).configured) (h : s.hasDock d) :
    (s.issue d c).putDock d x = (s.putDock d x).issue d c := by
  have nodes (t : State) (e : Nat) : (t.putDock d x).node e = t.node e := by
    unfold State.node
    rw [State.putDock_nodes]
  have written (t : State) (n : Node) : (t.putNode d n).putDock d x = (t.putDock d x).putNode d n := by
    unfold State.putDock
    dsimp only
    show (if (t.dock d).share = x.share then _ else _) = _
    split <;> rfl
  rw [State.issue_eq, State.issue_eq, dock_putDock_has h, nodes, hx]
  split
  · exact written s _
  · rfl

/-- The bike of a conflict: id 0, QUARANTINED for TAG (R122). -/
def Bike.conflicted (time : Option Nat) : Bike :=
  { id := 0, condition := .quarantined, faults := [.tag], tallies := [[], [], [], [], [], [], [], []], dockedAt := time
    settling := false }

theorem landed_over {b b' : Bike} (h : s.hasDock d)
    (hs : (s.dock d).share ≠ ((s.dock d).docked found b').share) :
    (s.landed d found b).putDock d ((s.dock d).docked found b') = s.landed d found b' := by
  have collapses := putDock_over (y := (s.dock d).docked found b) h hs
  unfold State.landed
  split
  · rw [issue_putDock (by rw [dock_putDock_has h]; rfl) (hasDock_putDock h), collapses]
  · exact collapses

/-- The hire reference of a readable image. -/
def TagImage.ref? : TagImage → Option HireRef
  | .idle _ => none
  | .onHire x => some x.ref

/-- An id held at another dock makes a conflict, and a record of effect CONFLICT is posted (R30, R122). -/
theorem arrive_conflicts {i : TagImage} (h : s.hasDock d) (hr : s.undelivered d) (he : s.bikeElsewhere d i.bike = true)
    (hs : (s.dock d).bike = none ∨ ((s.dock d).state = .empty ∧ found ≠ .census)) (hf : 0 < s.free) (hn : s.faults = []) :
    s.arrive d (some i) found startup =
      ({ (s.landed d found (.conflicted s.now)).post (.fault
          { subject := .bike, dock := some d, bikeId := some 0, tagBikeId := some i.bike
            tagRef := i.ref?
            kind := some (.bike .tag), source := some .dock, cause := none, reporter := none, reporters := none
            confirmCount := none, effect := .conflict, conditionAfter := some .quarantined, counterAfter := none
            counterBefore := none, dockState := none, bikeAbsent := false } s.faultsDropped) with
        faultsDropped := 0 } : State).setAttention .quarantine := by
  have shows : (s.dock d).share ≠ ((s.dock d).docked found (.conflicted s.now)).share := by
    intro hc
    have quarantined : (s.dock d).holds .quarantined = ((s.dock d).docked found (.conflicted s.now)).holds .quarantined :=
      congrArg (fun x => x.2.2.2.1) hc
    have state : (s.dock d).state = ((s.dock d).docked found (.conflicted s.now)).state := congrArg Prod.fst hc
    rcases hs with hb | ⟨hst, hfd⟩
    · unfold Dock.holds at quarantined
      rw [hb] at quarantined
      cases quarantined
    · unfold Dock.docked at state
      rw [hst, if_pos ⟨hfd, by decide⟩] at state
      split at state <;> cases state
  have landed := landed_dockwise s d found (.arrived 0 s.now)
  have dock := landed_dock h found (.arrived 0 s.now)
  have put : (s.landed d found (.arrived 0 s.now)).putBike d (.conflicted s.now) = s.landed d found (.conflicted s.now) := by
    unfold State.putBike
    rw [dock]
    exact landed_over h shows
  have report (ref : Option HireRef) : (s.landed d found (.arrived 0 s.now)).reportConflict d i.bike ref =
      ({ (s.landed d found (.conflicted s.now)).post (.fault
          { subject := .bike, dock := some d, bikeId := some 0, tagBikeId := some i.bike, tagRef := ref
            kind := some (.bike .tag), source := some .dock, cause := none, reporter := none, reporters := none
            confirmCount := none, effect := .conflict, conditionAfter := some .quarantined, counterAfter := none
            counterBefore := none, dockState := none, bikeAbsent := false } s.faultsDropped) with
        faultsDropped := 0 } : State).setAttention .quarantine := by
    have step := landed_dockwise s d found (.conflicted s.now)
    have bike : ((s.landed d found (.arrived 0 s.now)).dock d).bike = some (.arrived 0 s.now) := by
      rw [dock]
      rfl
    unfold State.reportConflict
    rw [bike]
    dsimp only
    have confirmed : ({ (Bike.arrived 0 s.now).confirm .tag with condition := .quarantined } : Bike) = .conflicted s.now := rfl
    rw [confirmed, put, makeFault_posts (step.free ▸ hf) (step.faults ▸ hn)]
    unfold State.bikeFault
    rw [landed_dock h, step.faultsDropped]
    exact if_pos (.inr rfl)
  have settled (ref : Option HireRef) : ((s.landed d found (.arrived 0 s.now)).reportConflict d i.bike ref).undelivered d := by
    intro n
    rw [report, State.setAttention_dock]
    show ((State.post _ _).dock d).reservation ≠ _
    rw [State.post_dock, landed_dock h]
    exact hr n
  cases i with
  | idle id =>
    refine (if_pos he).trans ?_
    rw [arrival_lands h]
    exact (disturbDeliver_other (settled none)).trans (report none)
  | onHire i =>
    refine (if_pos he).trans ?_
    rw [arrival_lands h]
    exact (disturbDeliver_other (settled (some i.ref))).trans (report (some i.ref))

end Landed

end Sys2Proof.Machine
end

