-- ==== Sys2Proof/Proofs/Returns.lean ====
section
/-! PROOFS. The return of a bike on hire: its open hire struck off, its HELD entry opened, and room made for it (R57, R69, R103,
R107, R110). -/

namespace Sys2Proof.Machine

/-! ### The open hire struck off (R57, R69) -/

section Struck

variable {s t : State} {ref : HireRef} {d : Nat}

/-- `s` comes from `a` by a change of open hires, passes and marks alone. -/
structure Struck (a s : State) : Prop where
  same : s = { a with
    store := { a.store with hires := s.store.hires, passes := s.store.passes }
    link := { a.link with marks := s.link.marks } }

theorem struckOff_struck (s : State) (ref : HireRef) : Struck s (s.struckOff ref) := by
  have gone (t : State) (v : List OpenHire) : Struck t (t.putHires v) := ⟨rfl⟩
  have ridden (t : State) (v : List OpenHire) (slot : Nat) (p : Option Pass) : Struck t ((t.putHires v).putPass slot p) := by
    unfold State.putPass
    dsimp only
    split <;> exact ⟨rfl⟩
  unfold State.struckOff
  split
  · exact ⟨rfl⟩
  · dsimp only
    split
    · split
      · split
        · exact ridden _ _ _ _
        · exact gone _ _
      · exact gone _ _
    · exact gone _ _
    · exact gone _ _
    · exact gone _ _

namespace Struck

theorem docks (h : Struck s t) : t.docks = s.docks := (congrArg State.docks h.same :)
theorem nodes (h : Struck s t) : t.nodes = s.nodes := (congrArg State.nodes h.same :)
theorem free (h : Struck s t) : t.free = s.free := (congrArg State.free h.same :)
theorem van (h : Struck s t) : t.van = s.van := (congrArg State.van h.same :)
theorem settle (h : Struck s t) : t.store.settle = s.store.settle := (congrArg (fun x => x.store.settle) h.same :)
theorem entries (h : Struck s t) : t.entries = s.entries := congrArg (fun x => x.cur.entries) h.settle
theorem heldAt (h : Struck s t) (n : Nat) : t.heldAt n = s.heldAt n := by
  unfold State.heldAt
  rw [h.entries]
theorem elapsed (h : Struck s t) : t.elapsed = s.elapsed := (congrArg State.elapsed h.same :)
theorem now (h : Struck s t) : t.now = s.now := (congrArg State.now h.same :)
theorem settings (h : Struck s t) : t.settings = s.settings := (congrArg State.settings h.same :)
theorem dock (h : Struck s t) (d : Nat) : t.dock d = s.dock d := dock_of_docks h.docks d

end Struck

theorem closeHire_eq (s : State) (ref : HireRef) : s.closeHire ref = s.struckOff ref := by
  unfold State.closeHire State.struckOff
  cases s.hireOf ref with
  | none => rfl
  | some h =>
    dsimp only
    cases h.hirer with
    | pass slot serial =>
      dsimp only
      unfold State.passReturns State.passRides
      show (match (s.pass slot).filter _ with
        | some p => _
        | none => _) = _
      cases s.pass slot with
      | none => rfl
      | some p =>
        dsimp only
        by_cases hc : p.serial = serial ∧ p.state = .onRide ∧ p.current = some ref
        · rw [if_pos hc, Option.filter_some, if_pos (by simp [hc])]
          rfl
        · rw [if_neg hc, Option.filter_some, if_neg (by simpa [and_assoc] using hc)]
          rfl
    | member id => rfl
    | crew id => rfl
    | remote id => rfl

theorem Alike.struckOff (h : Alike s t) (ref : HireRef) : Alike (s.struckOff ref) (t.struckOff ref) := by
  have hires : s.hires = t.hires := (congrArg (fun x => x.hires.cur) h.store :)
  have found : s.hireOf ref = t.hireOf ref := by
    unfold State.hireOf
    rw [hires]
  unfold State.struckOff
  rw [found]
  split
  · exact h
  · dsimp only
    rw [hires]
    split
    · rw [h.pass]
      split
      · split
        · exact (h.putHires _).putPass _ _
        · exact h.putHires _
      · exact h.putHires _
    · exact h.putHires _
    · exact h.putHires _
    · exact h.putHires _

theorem Alike.putSettle (h : Alike s t) (v : SettleRegion) : Alike (s.putSettle v) (t.putSettle v) :=
  (congrArg (fun x => State.putSettle x v) h.eq :)

theorem Alike.putSettle_putDock (v : SettleRegion) (d : Nat) (x : Dock) :
    Alike ((s.putSettle v).putDock d x) ((s.putDock d x).putSettle v) :=
  (putDock_raw d x).trans ((putDock_raw d x).putSettle v).symm

end Struck

/-! ### The entry opened (R103, R107, R110) -/

section Enter

variable {s : State} {close : PricedClose} {bike d : Nat} {b : Bike}

/-- The HELD entry that opens now. -/
def State.newEntry (s : State) (close : PricedClose) (bike d : Nat) : SettleEntry :=
  { close := close, waiver := none, stage := .held bike d (s.elapsed + s.settings.settleWindow * 1000) }

/-- The state with that entry at the end of the list. -/
def State.entered (s : State) (close : PricedClose) (bike d : Nat) : State :=
  s.putEntries (s.entries ++ [s.newEntry close bike d])

theorem entered_settled (s : State) (close : PricedClose) (bike d : Nat) : Settled s (s.entered close bike d) :=
  Settled.putSettle _

theorem makeRoom_settled (s : State) : Settled s s.makeRoom := by
  unfold State.makeRoom
  split
  · exact Settled.refl s
  · dsimp only
    have first : Settled s (if s.entries.head?.any SettleEntry.isHeld = true then s.finalise 0 (.earlyFinal .listFull) else s) := by
      split
      · exact Settled.finalise _ _
      · exact Settled.refl s
    have room {u : State} (h : Settled s u) :
        Settled s (if u.entries.length < Config.settlePlaces then u
          else u.putSettle { entries := u.entries.tail, lost := countUp u.store.settle.cur.lost }) := by
      split
      · exact h
      · exact h.trans (Settled.putSettle _)
    exact room first

theorem markSettling_same (hb : (s.dock d).bike = some b) (hs : b.settling = true) : s.markSettling d true = s := by
  refine putDock_self ?_
  have same : ({ b with settling := true } : Bike) = b := by
    rw [← hs]
  have bike : (s.dock d).bike.map (fun x => { x with settling := true }) = (s.dock d).bike := by
    rw [hb, Option.map_some, same]
  rw [bike]

theorem finaliseBike_unheld (h : s.heldAt bike = none) (reason : EarlyReason) : s.finaliseBike bike reason = s := by
  unfold State.finaliseBike
  rw [h]

theorem openEntry_enters (hh : s.heldAt bike = none) (hb : (s.makeRoom.dock d).bike = some b) (hs : b.settling = true)
    (hw : 0 < s.settings.settleWindow) : s.openEntry close bike d = s.makeRoom.entered close bike d := by
  have settings : (s.makeRoom.entered close bike d).settings = s.settings :=
    ((makeRoom_settled s).trans (entered_settled _ _ _ _)).settings
  have marked : (s.makeRoom.entered close bike d).markSettling d true = s.makeRoom.entered close bike d :=
    markSettling_same (s := s.makeRoom.entered close bike d) hb hs
  unfold State.openEntry
  rw [finaliseBike_unheld hh]
  show (if ((s.makeRoom.entered close bike d).markSettling d true).settings.settleWindow = 0 then _ else _) = _
  rw [marked, settings, if_neg (by omega)]
  exact marked

theorem openEntry_finalises (hh : s.heldAt bike = none) (hb : (s.makeRoom.dock d).bike = some b) (hs : b.settling = true)
    (hw : s.settings.settleWindow = 0) :
    s.openEntry close bike d =
      (s.makeRoom.entered close bike d).finalise s.makeRoom.entries.length .deadline := by
  have settings : (s.makeRoom.entered close bike d).settings = s.settings :=
    ((makeRoom_settled s).trans (entered_settled _ _ _ _)).settings
  have marked : (s.makeRoom.entered close bike d).markSettling d true = s.makeRoom.entered close bike d :=
    markSettling_same (s := s.makeRoom.entered close bike d) hb hs
  have length : (s.makeRoom.entered close bike d).entries.length - 1 = s.makeRoom.entries.length := by
    show (s.makeRoom.entries ++ [_]).length - 1 = _
    rw [List.length_append, List.length_singleton, Nat.add_sub_cancel]
  unfold State.openEntry
  rw [finaliseBike_unheld hh]
  show (if ((s.makeRoom.entered close bike d).markSettling d true).settings.settleWindow = 0 then
    ((s.makeRoom.entered close bike d).markSettling d true).finalise
      (((s.makeRoom.entered close bike d).markSettling d true).entries.length - 1) _ else _) = _
  rw [marked, settings, if_pos hw, length]

theorem makeRoom_room (h : s.entries.length < 64) : s.makeRoom = s := if_pos h

variable {oldest : SettleEntry} {rest : List SettleEntry}

theorem makeRoom_waiting (hs : s.entries = oldest :: rest) (hl : rest.length = 63) (hw : oldest.isHeld = false) :
    s.makeRoom = s.putSettle { entries := rest, lost := min 65535 (s.store.settle.cur.lost + 1) } := by
  unfold State.makeRoom Config.settlePlaces
  rw [hs, if_neg (by simp [hl])]
  dsimp only
  rw [List.head?_cons, Option.any_some, hw, if_neg Bool.false_ne_true, hs, if_neg (by simp [hl])]
  rfl

theorem makeRoom_held (hs : s.entries = oldest :: rest) (hl : rest.length = 63) (hw : oldest.isHeld = true) :
    s.makeRoom =
      if (s.finalise 0 (.earlyFinal .listFull)).entries.length < 64 then s.finalise 0 (.earlyFinal .listFull)
      else (s.finalise 0 (.earlyFinal .listFull)).putSettle
        { entries := (s.finalise 0 (.earlyFinal .listFull)).entries.tail
          lost := min 65535 ((s.finalise 0 (.earlyFinal .listFull)).store.settle.cur.lost + 1) } := by
  unfold State.makeRoom Config.settlePlaces
  rw [hs, if_neg (by simp [hl])]
  dsimp only
  rw [List.head?_cons, Option.any_some, hw, if_pos rfl]
  rfl

end Enter

/-! ### The bike returned (R31, R103) -/

section Return

variable {s : State} {d : Nat} {i : TripImage} {found : Found} {startup eligible : Bool}

theorem issue_nodes {t : State} {c : Command} (hn : s.nodes = t.nodes) (hc : (s.dock d).configured = (t.dock d).configured) :
    (s.issue d c).nodes = (t.issue d c).nodes := by
  have node : s.node d = t.node d := by
    unfold State.node
    rw [hn]
  rw [State.issue_eq, State.issue_eq, hc, node]
  split
  · exact congrArg (fun l => setEntry l d _) hn
  · exact hn

/-- A bike on hire that has arrived: settling from now on. -/
def Bike.ridden (id : Nat) (time : Option Nat) : Bike := { Bike.arrived id time with settling := true }

/-- The state in which a bike on hire has arrived, its commands issued (R31). -/
def State.arrivedOnHire (s : State) (d : Nat) (i : TripImage) (found : Found) : State :=
  ((s.dockBike d i.bikeId found).issue d (.tagClear .atReturn)).lockArrival d found

/-- The same with its settling mark set and its open hire struck off (R57, R69, R103). -/
def State.broughtBack (s : State) (d : Nat) (i : TripImage) (found : Found) : State :=
  ((s.arrivedOnHire d i found).markSettling d true).struckOff i.ref

theorem arrivedOnHire_eq (h : s.hasDock d) :
    s.arrivedOnHire d i found =
      if found ≠ .census ∧ (s.dock d).lock ≠ .locked ∧ ((s.dock d).state = .lockedOut → found = .replaced) then
        ((s.dockBike d i.bikeId found).issue d (.tagClear .atReturn)).issue d .lock
      else (s.dockBike d i.bikeId found).issue d (.tagClear .atReturn) :=
  lockArrival_eq (x := s.dock d) (b := .arrived i.bikeId s.now) (by
    rw [dock_issue, dockBike_eq]
    exact dock_putDock_has h)

theorem arrivedOnHire_dockwise (h : s.hasDock d) : Dockwise s (s.arrivedOnHire d i found) := by
  have first : Dockwise s ((s.dockBike d i.bikeId found).issue d (.tagClear .atReturn)) :=
    (Dockwise.putDock _ _).trans (Dockwise.issue _ _)
  rw [arrivedOnHire_eq h]
  split
  · exact first.trans (Dockwise.issue _ _)
  · exact first

theorem arrivedOnHire_docks (h : s.hasDock d) :
    (s.arrivedOnHire d i found).docks =
      (s.putDock d ((s.dock d).docked found (.arrived i.bikeId s.now))).docks := by
  rw [arrivedOnHire_eq h]
  split
  · rw [State.issue_docks, State.issue_docks]
    rfl
  · rw [State.issue_docks]
    rfl

theorem arrivedOnHire_dock (h : s.hasDock d) :
    (s.arrivedOnHire d i found).dock d = (s.dock d).docked found (.arrived i.bikeId s.now) := by
  rw [dock_of_docks (arrivedOnHire_docks h)]
  exact dock_putDock_has h

theorem arrivedOnHire_alike (h : s.hasDock d) :
    Alike (s.arrivedOnHire d i found) (s.putDock d ((s.dock d).docked found (.arrived i.bikeId s.now))) := by
  rw [arrivedOnHire_eq h]
  split
  · exact (Alike.issue _ _).trans (Alike.issue _ _)
  · exact Alike.issue _ _

theorem marked_eq (h : s.hasDock d) :
    (s.arrivedOnHire d i found).markSettling d true =
      (s.arrivedOnHire d i found).putDock d ((s.dock d).docked found (.ridden i.bikeId s.now)) := by
  unfold State.markSettling
  rw [arrivedOnHire_dock h]
  rfl

theorem broughtBack_alike (h : s.hasDock d) :
    Alike (s.broughtBack d i found)
      ((s.putDock d ((s.dock d).docked found (.ridden i.bikeId s.now))).struckOff i.ref) := by
  unfold State.broughtBack
  rw [marked_eq h]
  exact (((arrivedOnHire_alike h).putDock d _).trans (Alike.putDock_putDock d _ _)).struckOff _

theorem broughtBack_dock (h : s.hasDock d) (e : Nat) :
    (s.broughtBack d i found).dock e =
      if e = d then (s.dock d).docked found (.ridden i.bikeId s.now) else s.dock e := by
  unfold State.broughtBack
  rw [(struckOff_struck _ _).dock, marked_eq h]
  split
  · rename_i he
    rw [he]
    exact dock_putDock_has ((arrivedOnHire_dockwise h).hasDock.2 h)
  · rename_i he
    rw [dock_putDock_ne he, dock_of_docks (arrivedOnHire_docks h), dock_putDock_ne he]

/-- What stands while a bike on hire arrives. -/
theorem broughtBack_marked (h : s.hasDock d) : Dockwise s ((s.arrivedOnHire d i found).markSettling d true) := by
  rw [marked_eq h]
  exact (arrivedOnHire_dockwise h).trans (Dockwise.putDock _ _)

theorem broughtBack_settle (h : s.hasDock d) : (s.broughtBack d i found).store.settle = s.store.settle :=
  (struckOff_struck _ _).settle.trans (congrArg (fun x => x.settle) (broughtBack_marked h).store)

theorem broughtBack_entries (h : s.hasDock d) : (s.broughtBack d i found).entries = s.entries :=
  congrArg (fun x => x.cur.entries) (broughtBack_settle h)

theorem broughtBack_heldAt (h : s.hasDock d) (n : Nat) : (s.broughtBack d i found).heldAt n = s.heldAt n := by
  unfold State.heldAt
  rw [broughtBack_entries h]

theorem broughtBack_settings (h : s.hasDock d) : (s.broughtBack d i found).settings = s.settings :=
  (struckOff_struck _ _).settings.trans (broughtBack_marked h).settings

theorem broughtBack_elapsed (h : s.hasDock d) : (s.broughtBack d i found).elapsed = s.elapsed :=
  (struckOff_struck _ _).elapsed.trans (broughtBack_marked h).elapsed

theorem broughtBack_now (h : s.hasDock d) : (s.broughtBack d i found).now = s.now :=
  (struckOff_struck _ _).now.trans (broughtBack_marked h).now

theorem broughtBack_free (h : s.hasDock d) : (s.broughtBack d i found).free = s.free :=
  (struckOff_struck _ _).free.trans (broughtBack_marked h).free

theorem broughtBack_van (h : s.hasDock d) : (s.broughtBack d i found).van = s.van :=
  (struckOff_struck _ _).van.trans (broughtBack_marked h).van

theorem broughtBack_nodes : (s.broughtBack d i found).nodes = (s.arrivedOnHire d i found).nodes := by
  unfold State.broughtBack State.markSettling
  rw [(struckOff_struck _ _).nodes, State.putDock_nodes]

/-- The close that fare prices for a return. -/
def State.closeOf (s : State) (i : TripImage) (d : Nat) (eligible startup : Bool) : PricedClose :=
  priceReturn s.tariffs s.plans s.settings.returnCredit i d s.now eligible startup

theorem takeReturn_eq (h : s.hasDock d) :
    (s.arrivedOnHire d i found).takeReturn d i eligible startup =
      ((s.broughtBack d i found).openEntry (s.closeOf i d eligible startup) i.bikeId d).disturbDeliver d := by
  have step := arrivedOnHire_dockwise (i := i) (found := found) h
  have close : (s.arrivedOnHire d i found).closeOf i d eligible startup = s.closeOf i d eligible startup := by
    unfold State.closeOf
    rw [step.settings, step.now, show (s.arrivedOnHire d i found).tariffs = s.tariffs from
      congrArg (fun x => x.tariffs.cur) step.store, show (s.arrivedOnHire d i found).plans = s.plans from
      congrArg (fun x => x.plans.cur) step.store]
  rw [← close]
  unfold State.takeReturn State.broughtBack
  rw [closeHire_eq]
  rfl

theorem arrive_returns (h : s.hasDock d) (he : s.bikeElsewhere d i.bikeId = false) :
    s.arrive d (some (.onHire i)) found startup =
      ((s.broughtBack d i found).openEntry (s.closeOf i d (decide (s.stock < s.settings.lowMark)) startup) i.bikeId
        d).disturbDeliver d :=
  (if_neg (by rw [he]; decide)).trans (takeReturn_eq h)

end Return

end Sys2Proof.Machine
end

