-- ==== Sys2Proof/Proofs/ReturnHeld.lean ====
section
/-! PROOFS. The return of a bike on hire at an EMPTY, OCCUPIED or LOCKED_OUT dock, with its HELD entry, and the bikes that replace
one or arrive at a LOCKED_OUT dock (R18, R21, R30, R31, R33, R57, R69, R91, R92, R103, R106 to R110, R122, R145). -/

namespace Sys2Proof.Machine

/-! ### Where an arrival finds its dock (R30, R33) -/

section Found

variable {s : State} {d : Nat} {image : Option TagImage}

/-- Where a bike that is PRESENT finds its dock. -/
def State.foundAt (s : State) (d : Nat) : Found :=
  if (s.dock d).state = .empty then .empty
  else if (s.dock d).state = .lockedOut ∧ (s.dock d).bike = none then .vacant
  else .replaced

/-- The state in which the record of another bike has been discarded for it. -/
def State.clearedFor (s : State) (d : Nat) : State :=
  if (s.dock d).state = .empty then s else s.vacated d .replaced

theorem foundAt_census : s.foundAt d ≠ .census := by
  unfold State.foundAt
  repeat' split
  all_goals decide

theorem clearedFor_unbiked (s : State) (d : Nat) : Unbiked s (s.clearedFor d) := by
  unfold State.clearedFor
  split
  · exact Unbiked.refl s
  · exact Unbiked.vacated _ _

theorem clearedFor_elsewhere (id : Nat) : (s.clearedFor d).bikeElsewhere d id = s.bikeElsewhere d id := by
  unfold State.clearedFor
  split
  · rfl
  · exact vacated_elsewhere id

/-- A PRESENT of a bike not recorded there is its arrival. -/
theorem onPresent_arrives
    (h : (s.dock d).state = .empty ∨
      (((s.dock d).state = .occupied ∨ (s.dock d).state = .lockedOut) ∧
        ∀ b, (s.dock d).bike = some b → sameBike image b = false)) :
    s.onPresent d image = (s.clearedFor d).arrive d image (s.foundAt d) false := by
  unfold State.onPresent State.clearedFor State.foundAt
  dsimp only
  rcases h with h | ⟨h | h, hb⟩
  · rw [h]
    rfl
  · rw [h]
    cases hk : (s.dock d).bike with
    | none => rw [vacated_none hk]; rfl
    | some b =>
      rw [vacated_some hk]
      exact if_neg (by rw [hb b hk]; decide)
  · rw [h]
    cases hk : (s.dock d).bike with
    | none => rw [vacated_none hk]; rfl
    | some b =>
      rw [vacated_some hk]
      exact if_neg (by rw [hb b hk]; decide)

theorem sameBike_other {i : TagImage} {b : Bike} (h : i.bike ≠ b.id) : sameBike (some i) b = false := by
  unfold sameBike
  simpa using h

theorem sameBike_unreadable (b : Bike) : sameBike none b = false := rfl

/-- LOCK follows an arrival where the lock is not LOCKED, but not at a LOCKED_OUT dock that held no bike (R30, R33). -/
theorem locks_iff :
    (s.foundAt d ≠ .census ∧ ((s.clearedFor d).dock d).lock ≠ .locked ∧
        (((s.clearedFor d).dock d).state = .lockedOut → s.foundAt d = .replaced)) ↔
      ((s.dock d).lock ≠ .locked ∧ ((s.dock d).state = .lockedOut → (s.dock d).bike ≠ none)) := by
  rw [(clearedFor_unbiked s d).lock, (clearedFor_unbiked s d).state]
  unfold State.foundAt
  by_cases he : (s.dock d).state = .empty
  · simp [he]
  · by_cases hl : (s.dock d).state = .lockedOut
    · by_cases hb : (s.dock d).bike = none <;> simp [hl, hb]
    · simp [he, hl]

/-- The dock of an arrival. -/
theorem docked_eq (b : Bike) :
    ((s.clearedFor d).dock d).docked (s.foundAt d) b =
      { (s.clearedFor d).dock d with
        state :=
          if (s.dock d).state = .lockedOut then .lockedOut
          else if (s.dock d).lock = .locked then .occupied else .relocking
        bike := some b } := by
  have state : (if s.foundAt d ≠ .census ∧ ((s.clearedFor d).dock d).state ≠ .lockedOut then
        (if ((s.clearedFor d).dock d).lock = .locked then .occupied else .relocking)
      else ((s.clearedFor d).dock d).state) =
      if (s.dock d).state = .lockedOut then .lockedOut
      else if (s.dock d).lock = .locked then DockState.occupied else .relocking := by
    rw [(clearedFor_unbiked s d).state, (clearedFor_unbiked s d).lock]
    by_cases hl : (s.dock d).state = .lockedOut
    · rw [if_pos hl, if_neg (by simp [hl]), hl]
    · rw [if_neg hl, if_pos ⟨foundAt_census, hl⟩]
  exact congrArg (fun z => ({ (s.clearedFor d).dock d with state := z, bike := some b } : Dock)) state

theorem landed_eq (b : Bike) :
    (s.clearedFor d).landed d (s.foundAt d) b =
      if (s.dock d).lock ≠ .locked ∧ ((s.dock d).state = .lockedOut → (s.dock d).bike ≠ none) then
        ((s.clearedFor d).putDock d { (s.clearedFor d).dock d with
          state :=
            if (s.dock d).state = .lockedOut then .lockedOut
            else if (s.dock d).lock = .locked then .occupied else .relocking
          bike := some b }).issue d .lock
      else (s.clearedFor d).putDock d { (s.clearedFor d).dock d with
        state :=
          if (s.dock d).state = .lockedOut then .lockedOut
          else if (s.dock d).lock = .locked then .occupied else .relocking
        bike := some b } := by
  unfold State.landed
  rw [docked_eq]
  exact if_congr locks_iff rfl rfl

end Found

/-! ### What a finalise leaves unheld -/

section Unheld

variable {s : State} {d bike : Nat}

theorem heldAt_none_iff : s.heldAt bike = none ↔ ∀ e ∈ s.entries, e.linksTo bike = false := by
  unfold State.heldAt
  rw [List.findIdx?_eq_none_iff]

theorem heldAt_finalise (h : s.heldAt bike = none) (i : Nat) (cause : FinalCause) : (s.finalise i cause).heldAt bike = none := by
  rw [heldAt_none_iff] at h ⊢
  intro e he
  rcases finalise_entries s i cause with heq | ⟨x, _, _, heq | ⟨w, hw, heq⟩⟩
  · exact h e (heq ▸ he)
  · rw [heq] at he
    exact h e (List.mem_of_mem_eraseIdx he)
  · rw [heq] at he
    rcases List.mem_or_eq_of_mem_set he with he | rfl
    · exact h e he
    · unfold SettleEntry.linksTo
      unfold SettleEntry.isHeld at hw
      split at hw
      · cases hw
      · rfl

theorem heldAt_clearedFor (h : s.heldAt bike = none) : (s.clearedFor d).heldAt bike = none := by
  unfold State.clearedFor
  split
  · exact h
  · unfold State.vacated
    split
    · exact h
    · dsimp only
      rw [State.putDock_heldAt]
      unfold State.settleDock
      split
      · split
        · unfold State.finaliseBike
          split
          · exact heldAt_finalise h _ _
          · exact h
        · exact h
      · exact h

end Unheld

/-! ### What the entry and the reservation move change (R103, R145) -/

section Frame

variable {s : State} {d bike : Nat} {close : PricedClose}

theorem openEntry_settled (s : State) (close : PricedClose) (bike d : Nat) : Settled s (s.openEntry close bike d) := by
  have first : Settled s (s.finaliseBike bike .replaced).makeRoom :=
    (Settled.finaliseBike _ _).trans (makeRoom_settled _)
  have second : Settled s (((s.finaliseBike bike .replaced).makeRoom.entered close bike d).markSettling d true) :=
    (first.trans (entered_settled _ _ _ _)).trans (Settled.markSettling _ _)
  unfold State.openEntry
  dsimp only
  split
  · exact second.trans (Settled.finalise _ _)
  · exact second

theorem disturbDeliver_moved (s : State) (d : Nat) : Moved s (s.disturbDeliver d) := by
  unfold State.disturbDeliver
  split
  · dsimp only
    split
    · exact (Moved.putReservation _ _).trans (Moved.moveDeliver _)
    · exact Moved.putReservation _ _
  · exact Moved.refl s
  · exact Moved.refl s

theorem closeOf_hirer (i : TripImage) (eligible startup : Bool) : (s.closeOf i d eligible startup).hirer = i.hirer := by
  unfold State.closeOf priceReturn
  repeat' split
  all_goals rfl

theorem closeOf_crew {i : TripImage} (h : i.plan = 15) (eligible startup : Bool) : (s.closeOf i d eligible startup).fare = 0 := by
  unfold State.closeOf priceReturn
  repeat' split
  all_goals first | rfl | (rename_i h15; exact absurd h h15)

end Frame

end Sys2Proof.Machine
end

