-- ==== Sys2Proof/Proofs/ReturnsHeld.lean ====
section
/-! PROOFS. Each case of the entry that a return opens, and the DELIVER reservation that it disturbs (R31, R103, R107, R108, R110,
R145). -/

namespace Sys2Proof.Machine

section Entry

variable {v : State} {d : Nat} {i : TripImage} {found : Found} {close : PricedClose} {oldest : SettleEntry}
  {rest : List SettleEntry}

/-- The state in which a bike on hire is settling in its dock and its open hire is struck off, but for what follows every
command. -/
def State.struckAt (v : State) (d : Nat) (i : TripImage) (found : Found) : State :=
  (v.putDock d ((v.dock d).docked found (.ridden i.bikeId v.now))).struckOff i.ref

theorem struckAt_dock (h : v.hasDock d) (e : Nat) :
    (v.struckAt d i found).dock e = if e = d then (v.dock d).docked found (.ridden i.bikeId v.now) else v.dock e := by
  unfold State.struckAt
  rw [(struckOff_struck _ _).dock]
  split
  · rename_i he
    rw [he, dock_putDock_has h]
  · rename_i he
    rw [dock_putDock_ne he]

theorem broughtBack_newEntry (h : v.hasDock d) : (v.broughtBack d i found).newEntry close i.bikeId d = v.newEntry close i.bikeId d := by
  unfold State.newEntry
  rw [broughtBack_elapsed h, broughtBack_settings h]

theorem entered_alike (h : v.hasDock d) :
    Alike ((v.broughtBack d i found).entered close i.bikeId d)
      ((v.struckAt d i found).putSettle
        { entries := v.entries ++ [v.newEntry close i.bikeId d], lost := v.store.settle.cur.lost }) := by
  unfold State.entered State.putEntries
  rw [broughtBack_newEntry h, broughtBack_settle h, broughtBack_entries h]
  exact (broughtBack_alike h).putSettle _

theorem openEntry_room (h : v.hasDock d) (hh : v.heldAt i.bikeId = none) (hl : v.entries.length < 64)
    (hw : 0 < v.settings.settleWindow) :
    (v.broughtBack d i found).openEntry close i.bikeId d = (v.broughtBack d i found).entered close i.bikeId d := by
  have room : (v.broughtBack d i found).makeRoom = v.broughtBack d i found :=
    makeRoom_room (by rw [broughtBack_entries h]; exact hl)
  have bike : ((v.broughtBack d i found).makeRoom.dock d).bike = some (.ridden i.bikeId v.now) := by
    rw [room, broughtBack_dock h, if_pos rfl]
    rfl
  rw [openEntry_enters (by rw [broughtBack_heldAt h]; exact hh) bike rfl (by rw [broughtBack_settings h]; exact hw), room]

/-- With a settle window of 0 the entry is finalised at once (R103). -/
theorem openEntry_at_once (h : v.hasDock d) (hh : v.heldAt i.bikeId = none) (hl : v.entries.length < 64)
    (hw : v.settings.settleWindow = 0) (hn : ∀ slot serial, close.hirer ≠ .pass slot serial) :
    let held := (v.struckAt d i found).putSettle
      { entries := v.entries ++ [v.newEntry close i.bikeId d], lost := v.store.settle.cur.lost }
    let cleared := held.putDock d { held.dock d with bike := some { Bike.ridden i.bikeId v.now with settling := false } }
    (0 < v.free →
      Alike ((v.broughtBack d i found).openEntry close i.bikeId d)
        ((cleared.post (.hireClose close none .deadline v.now .noPass v.store.settle.cur.lost)).putSettle
          { entries := v.entries, lost := 0 })) ∧
      (v.free = 0 →
        Alike ((v.broughtBack d i found).openEntry close i.bikeId d)
          (cleared.putSettle { v.store.settle.cur with
            entries := v.entries ++ [{ v.newEntry close i.bikeId d with stage := .waiting .deadline v.now .noPass }] })) := by
  intro held cleared
  have room : (v.broughtBack d i found).makeRoom = v.broughtBack d i found :=
    makeRoom_room (by rw [broughtBack_entries h]; exact hl)
  have dock : ((v.broughtBack d i found).entered close i.bikeId d).dock d = (v.dock d).docked found (.ridden i.bikeId v.now) :=
    (broughtBack_dock h d).trans (if_pos rfl)
  have heldDock : held.dock d = (v.dock d).docked found (.ridden i.bikeId v.now) := (struckAt_dock h d).trans (if_pos rfl)
  have bike : ((v.broughtBack d i found).makeRoom.dock d).bike = some (.ridden i.bikeId v.now) := by
    rw [room, broughtBack_dock h, if_pos rfl]
    rfl
  have entries : ((v.broughtBack d i found).entered close i.bikeId d).entries =
      v.entries ++ v.newEntry close i.bikeId d :: [] := by
    show (v.broughtBack d i found).entries ++ _ = _
    rw [broughtBack_entries h, broughtBack_newEntry h]
  have alike : Alike (((v.broughtBack d i found).entered close i.bikeId d).clearedMark
      ((v.broughtBack d i found).entered close i.bikeId d) d) cleared := by
    unfold State.clearedMark
    rw [dock]
    show Alike _ (held.putDock d { held.dock d with bike := _ })
    rw [heldDock]
    exact (entered_alike h).putDock d _
  have now : ((v.broughtBack d i found).entered close i.bikeId d).now = v.now := broughtBack_now h
  have lost : ((v.broughtBack d i found).entered close i.bikeId d).store.settle.cur.lost = v.store.settle.cur.lost := by
    show (v.broughtBack d i found).store.settle.cur.lost = _
    rw [broughtBack_settle h]
  have opens : (v.broughtBack d i found).openEntry close i.bikeId d =
      ((v.broughtBack d i found).entered close i.bikeId d).finalise v.entries.length .deadline := by
    rw [openEntry_finalises (by rw [broughtBack_heldAt h]; exact hh) bike rfl (by rw [broughtBack_settings h]; exact hw), room,
      broughtBack_entries h]
  have closes := finalise_closes (s := (v.broughtBack d i found).entered close i.bikeId d)
    (e := v.newEntry close i.bikeId d) (b := .ridden i.bikeId v.now) (cause := .deadline) entries rfl
    (by rw [dock]; rfl) rfl (chargeClose_noPass hn)
  have free : ((v.broughtBack d i found).entered close i.bikeId d).free = v.free := broughtBack_free h
  rw [opens]
  refine ⟨fun hf => ?_, fun hf => ?_⟩
  · rw [closes.1 (free ▸ hf), now, lost, List.append_nil]
    exact (alike.post _).putSettle _
  · rw [closes.2 (free ▸ hf), now, lost]
    exact alike.putSettle _

/-- A full list whose oldest entry waits with no slot free loses that close (R110). -/
theorem openEntry_loses {cause : FinalCause} {time : Option Nat} {pass : PassResult} (h : v.hasDock d)
    (hh : v.heldAt i.bikeId = none) (hs : v.entries = oldest :: rest) (hl : rest.length = 63)
    (hst : oldest.stage = .waiting cause time pass) (hw : 0 < v.settings.settleWindow) :
    Alike ((v.broughtBack d i found).openEntry close i.bikeId d)
      (((v.struckAt d i found).putSettle { entries := rest, lost := min 65535 (v.store.settle.cur.lost + 1) }).putSettle
        { entries := rest ++ [v.newEntry close i.bikeId d], lost := min 65535 (v.store.settle.cur.lost + 1) }) := by
  have waits : oldest.isHeld = false := by
    unfold SettleEntry.isHeld
    rw [hst]
  have room := makeRoom_waiting (s := v.broughtBack d i found) (by rw [broughtBack_entries h]; exact hs) hl waits
  rw [broughtBack_settle h] at room
  have bike : ((v.broughtBack d i found).makeRoom.dock d).bike = some (.ridden i.bikeId v.now) := by
    rw [room]
    show ((v.broughtBack d i found).dock d).bike = _
    rw [broughtBack_dock h, if_pos rfl]
    rfl
  have newest : (v.broughtBack d i found).makeRoom.newEntry close i.bikeId d = v.newEntry close i.bikeId d := by
    rw [room]
    exact broughtBack_newEntry h
  rw [openEntry_enters (by rw [broughtBack_heldAt h]; exact hh) bike rfl (by rw [broughtBack_settings h]; exact hw)]
  unfold State.entered
  rw [newest, room]
  exact ((broughtBack_alike h).putSettle _).putSettle _

/-- A full list whose oldest entry is HELD finalises that one, and loses its close where no slot is free (R110). -/
theorem openEntry_gives_up {b link deadline : Nat} {x : Bike} (h : v.hasDock d) (hh : v.heldAt i.bikeId = none)
    (hs : v.entries = oldest :: rest) (hl : rest.length = 63) (hst : oldest.stage = .held b link deadline)
    (hn : ∀ slot serial, oldest.close.hirer ≠ .pass slot serial) (hlink : link ≠ d) (hx : (v.dock link).bike = some x)
    (hid : x.id = b) (hw : 0 < v.settings.settleWindow) :
    let u := (v.struckAt d i found).putDock link { v.dock link with bike := some { x with settling := false } }
    (0 < v.free →
      Alike ((v.broughtBack d i found).openEntry close i.bikeId d)
        (((u.post (.hireClose oldest.close oldest.waiver (.earlyFinal .listFull) v.now .noPass
          v.store.settle.cur.lost)).putSettle { entries := rest, lost := 0 }).putSettle
          { entries := rest ++ [v.newEntry close i.bikeId d], lost := 0 })) ∧
      (v.free = 0 →
        Alike ((v.broughtBack d i found).openEntry close i.bikeId d)
          (((u.putSettle { v.store.settle.cur with
              entries := { oldest with stage := .waiting (.earlyFinal .listFull) v.now .noPass } :: rest }).putSettle
            { entries := rest, lost := min 65535 (v.store.settle.cur.lost + 1) }).putSettle
            { entries := rest ++ [v.newEntry close i.bikeId d], lost := min 65535 (v.store.settle.cur.lost + 1) })) := by
  intro u
  have isHeld : oldest.isHeld = true := by
    unfold SettleEntry.isHeld
    rw [hst]
  have linkDock : (v.broughtBack d i found).dock link = v.dock link := (broughtBack_dock h link).trans (if_neg hlink)
  have entries : (v.broughtBack d i found).entries = [] ++ oldest :: rest := (broughtBack_entries h).trans hs
  have closes := finalise_closes (s := v.broughtBack d i found) (e := oldest) (b := x) (cause := .earlyFinal .listFull) entries hst
    (by rw [linkDock, hx]) hid (chargeClose_noPass hn)
  have alike : Alike ((v.broughtBack d i found).clearedMark (v.broughtBack d i found) link) u := by
    unfold State.clearedMark
    rw [linkDock, hx]
    exact (broughtBack_alike h).putDock link _
  have room := makeRoom_held (s := v.broughtBack d i found) entries hl isHeld
  have kept {t : State} (hroom : (v.broughtBack d i found).makeRoom = t)
      (hdock : t.dock d = (v.broughtBack d i found).dock d) (ht : Settled (v.broughtBack d i found) t) :
      (v.broughtBack d i found).openEntry close i.bikeId d =
        t.putEntries (t.entries ++ [v.newEntry close i.bikeId d]) := by
    have bike : ((v.broughtBack d i found).makeRoom.dock d).bike = some (.ridden i.bikeId v.now) := by
      rw [hroom, hdock, broughtBack_dock h, if_pos rfl]
      rfl
    have newest : t.newEntry close i.bikeId d = v.newEntry close i.bikeId d := by
      rw [← broughtBack_newEntry (found := found) h]
      unfold State.newEntry
      rw [ht.elapsed, ht.settings]
    rw [openEntry_enters (by rw [broughtBack_heldAt h]; exact hh) bike rfl (by rw [broughtBack_settings h]; exact hw), hroom]
    unfold State.entered
    rw [newest]
  have now : (v.broughtBack d i found).now = v.now := broughtBack_now h
  have lost : (v.broughtBack d i found).store.settle.cur.lost = v.store.settle.cur.lost := by rw [broughtBack_settle h]
  have free : (v.broughtBack d i found).free = v.free := broughtBack_free h
  have settled := Settled.finalise (s := v.broughtBack d i found) 0 (.earlyFinal .listFull)
  have clearedDock : ((v.broughtBack d i found).clearedMark (v.broughtBack d i found) link).dock d =
      (v.broughtBack d i found).dock d := dock_putDock_ne (fun h => hlink h.symm)
  refine ⟨fun hf => ?_, fun hf => ?_⟩
  · have posts := closes.1 (free ▸ hf)
    rw [now, lost] at posts
    change State.finalise _ 0 _ = _ at posts
    rw [posts] at room settled
    rw [if_pos (by show rest.length < 64; omega)] at room
    have dock := (State.post_dock ((v.broughtBack d i found).clearedMark (v.broughtBack d i found) link)
      (.hireClose oldest.close oldest.waiver (.earlyFinal .listFull) v.now .noPass v.store.settle.cur.lost) d).trans clearedDock
    rw [kept room dock settled]
    exact ((alike.post _).putSettle _).putSettle _
  · have waits := closes.2 (free ▸ hf)
    rw [now, lost] at waits
    change State.finalise _ 0 _ = _ at waits
    rw [waits] at room settled
    rw [if_neg (by show ¬ rest.length + 1 < 64; omega)] at room
    rw [kept room clearedDock (settled.trans (Settled.putSettle _))]
    exact ((alike.putSettle _).putSettle _).putSettle _

end Entry

/-! ### The DELIVER reservation disturbed (R145) -/

section Disturb

variable {s t : State} {d n : Nat} {m : ManifestEntry}

theorem disturbDeliver_open (hr : (s.dock d).reservation = .deliver n)
    (hp : s.van.phase = .reserving ∨ s.van.phase = .active) :
    s.disturbDeliver d = (s.putReservation d .unreserved).moveDeliver n := by
  unfold State.disturbDeliver
  rw [hr]
  exact if_pos (open_of_phase hp)

/-- The state with the reservation of a dock dropped, but for what follows every command. -/
def State.freed (t : State) (d : Nat) : State := t.putDock d { t.dock d with reservation := .unreserved }

theorem freed_alike (h : Alike s t) (hd : s.dock d = t.dock d) : Alike (s.putReservation d .unreserved) (t.freed d) := by
  refine (Alike.putReservation _ _).trans ?_
  unfold State.freed
  rw [hd]
  exact h.putDock d _

theorem disturb_moves {e : Nat} (h : Alike s t) (hd : s.dock d = t.dock d) (hr : (s.dock d).reservation = .deliver n)
    (hp : s.van.phase = .reserving ∨ s.van.phase = .active) (hne : (s.dock d).state ≠ .empty) (he : e ∈ dockNumbers)
    (hs : (s.dock e).state = .empty) (hu : (s.dock e).reservation = .unreserved)
    (hlow : ∀ c ∈ dockNumbers, c < e → (s.dock c).state ≠ .empty ∨ (s.dock c).reservation ≠ .unreserved) :
    Alike (s.disturbDeliver d) ((t.freed d).putDock e { s.dock e with reservation := .deliver n }) := by
  have hed : e ≠ d := by
    rintro rfl
    exact hne hs
  rw [disturbDeliver_open hr hp, moveDeliver_moves hne he hs hu hlow]
  refine (Alike.putReservation _ _).trans ?_
  rw [dock_putReservation_ne hed]
  exact (freed_alike h hd).putDock e _

theorem disturb_falls (h : Alike s t) (hd : s.dock d = t.dock d) (hr : (s.dock d).reservation = .deliver n)
    (hp : s.van.phase = .reserving ∨ s.van.phase = .active) (hne : (s.dock d).state ≠ .empty)
    (hm : entryAt s.van.manifest n = some m)
    (hnone : ∀ c ∈ dockNumbers, (s.dock c).state ≠ .empty ∨ (s.dock c).reservation ≠ .unreserved)
    (hgo : s.van.phase = .reserving ∨
      ∃ x ∈ setEntry s.van.manifest n { m with target := m.target - 1, short := m.short + 1 }, x.done ≠ x.target) :
    Alike (s.disturbDeliver d)
      { t.freed d with van := { s.van with
        manifest := setEntry s.van.manifest n { m with target := m.target - 1, short := m.short + 1 } } } := by
  have van : (s.putReservation d .unreserved).van = s.van := putReservation_van d _
  rw [disturbDeliver_open hr hp, moveDeliver_falls hne hnone]
  unfold State.fall
  have updated := updateEntry_some (s := s.putReservation d .unreserved) (n := n) (m := m)
    (f := fun m => { m with target := m.target - 1, short := m.short + 1 }) (by rw [van]; exact hm)
  have vanAfter : ((s.putReservation d .unreserved).updateEntry n
      (fun m => { m with target := m.target - 1, short := m.short + 1 })).van =
      { s.van with manifest := setEntry s.van.manifest n { m with target := m.target - 1, short := m.short + 1 } } := by
    rw [updated, van]
  rw [endIfMet_goesOn (by rw [vanAfter]; exact hgo)]
  have marks : Alike ((s.putReservation d .unreserved).updateEntry n
      (fun m => { m with target := m.target - 1, short := m.short + 1 }))
      { s.putReservation d .unreserved with van :=
        { s.van with manifest := setEntry s.van.manifest n { m with target := m.target - 1, short := m.short + 1 } } } := by
    rw [updated, van]
    exact Alike.marks (s := { s.putReservation d .unreserved with van :=
      { s.van with manifest := setEntry s.van.manifest n { m with target := m.target - 1, short := m.short + 1 } } }) _
  exact marks.trans ((freed_alike h hd).withVan _)

end Disturb

end Sys2Proof.Machine
end

