-- ==== Sys2Proof/Proofs/ReturnIsHeld.lean ====
section
/-! PROOFS. O51: the return of a bike on hire, and the bikes that replace one or arrive at a LOCKED_OUT dock (R18, R21, R30, R31,
R33, R57, R69, R91, R92, R103, R106 to R110, R122, R145). -/

namespace Sys2Proof.Machine

section Present

variable {s : State} {d : Nat} {i : TripImage}

/-- A bike on hire that is PRESENT returns, in the state in which the record of another bike is discarded. -/
theorem onPresent_returns (has : s.hasDock d)
    (h : (s.dock d).state = .empty ∨
      (((s.dock d).state = .occupied ∨ (s.dock d).state = .lockedOut) ∧ ∀ b, (s.dock d).bike = some b → b.id ≠ i.bikeId))
    (he : s.bikeElsewhere d i.bikeId = false) :
    s.onPresent d (some (.onHire i)) =
      (((s.clearedFor d).broughtBack d i (s.foundAt d)).openEntry
        (priceReturn s.tariffs s.plans s.settings.returnCredit i d s.now
          (decide ((s.clearedFor d).stock < s.settings.lowMark)) false) i.bikeId d).disturbDeliver d := by
  have cleared := clearedFor_unbiked s d
  have close : (s.clearedFor d).closeOf i d (decide ((s.clearedFor d).stock < (s.clearedFor d).settings.lowMark)) false =
      priceReturn s.tariffs s.plans s.settings.returnCredit i d s.now
        (decide ((s.clearedFor d).stock < s.settings.lowMark)) false := by
    unfold State.closeOf
    rw [cleared.tariffs, cleared.plans, cleared.settings, cleared.now]
  rw [onPresent_arrives (h.imp id fun ⟨hst, hb⟩ => ⟨hst, fun b hk => sameBike_other (i := .onHire i) fun hc => hb b hk hc.symm⟩),
    arrive_returns (cleared.hasDock.2 has) (by rw [clearedFor_elsewhere]; exact he), close]

theorem openEntry_dock {t : State} {close : PricedClose} {bike e : Nat} :
    ((t.openEntry close bike d).dock e).state = (t.dock e).state ∧
      ((t.openEntry close bike d).dock e).reservation = (t.dock e).reservation :=
  ⟨(openEntry_settled t close bike d).state e, (openEntry_settled t close bike d).reservation e⟩

theorem docked_state_ne (x : Dock) (found : Found) (b : Bike) (hf : found ≠ .census) : (x.docked found b).state ≠ .empty := by
  unfold Dock.docked
  by_cases hl : x.state = .lockedOut
  · rw [if_neg fun h => h.2 hl, hl]
    decide
  · rw [if_pos ⟨hf, hl⟩]
    split
    · exact fun h => by cases h
    · exact fun h => by cases h

end Present

/-- Settles O51: the record of another bike discarded, the bike arrives, its entry opens, and a DELIVER reservation moves. -/
theorem returnIsHeld : Obligations.ReturnIsHeld := by
  refine ⟨?_, ?_⟩
  · intro d i s h1 hlen hst he hh v bike close entry docked locks struck held room gives
    have has : s.hasDock d := hasDock_of_range h1 hlen
    have cleared : Unbiked s v := clearedFor_unbiked s d
    have vHas : v.hasDock d := cleared.hasDock.2 has
    have vHeld : v.heldAt i.bikeId = none := heldAt_clearedFor hh
    have window : v.settings.settleWindow = s.settings.settleWindow := by rw [cleared.settings]
    have vEntry : v.newEntry close i.bikeId d = entry := by
      unfold State.newEntry
      rw [cleared.elapsed, cleared.settings]
    have vRidden : Bike.ridden i.bikeId v.now = bike := by
      rw [cleared.now]
      rfl
    have dockedEq : v.putDock d ((v.dock d).docked (s.foundAt d) (.ridden i.bikeId v.now)) = docked := by
      rw [vRidden]
      exact congrArg (v.putDock d) (docked_eq (s := s) bike)
    have struckEq : v.struckAt d i (s.foundAt d) = struck := by
      unfold State.struckAt
      rw [dockedEq]
    have heldEq : (v.struckAt d i (s.foundAt d)).putSettle
        { entries := v.entries ++ [v.newEntry close i.bikeId d], lost := v.store.settle.cur.lost } = held := by
      rw [vEntry, struckEq]
    have opens := onPresent_returns has hst he
    let back : State := v.broughtBack d i (s.foundAt d)
    have backDock (e : Nat) := broughtBack_dock (i := i) (found := s.foundAt d) vHas e
    have backReservation (e : Nat) : (back.dock e).reservation = (s.dock e).reservation := by
      have := backDock e
      by_cases hed : e = d
      · rw [if_pos hed] at this
        show ((v.broughtBack d i (s.foundAt d)).dock e).reservation = _
        rw [this, hed]
        exact cleared.reservation d
      · rw [if_neg hed] at this
        show ((v.broughtBack d i (s.foundAt d)).dock e).reservation = _
        rw [this]
        exact cleared.reservation e
    have quiet (hn : ∀ n, (s.dock d).reservation ≠ .deliver n) :
        s.onPresent d (some (.onHire i)) = back.openEntry close i.bikeId d := by
      refine opens.trans (disturbDeliver_other fun n => ?_)
      rw [openEntry_dock.2]
      exact backReservation d ▸ hn n
    refine ⟨?_, fun hroom hn => ?_, fun n m hroom hr hp hm => ?_, fun hl hw hn hnp => ?_, fun oldest rest hs hl hw hn => ?_,
      fun hp => closeOf_crew hp _ _⟩
    · have kept : (s.onPresent d (some (.onHire i))).nodes = (v.arrivedOnHire d i (s.foundAt d)).nodes := by
        rw [opens, (disturbDeliver_moved _ d).nodes, (openEntry_settled _ _ _ _).nodes, broughtBack_nodes]
        rfl
      have first : ((v.dockBike d i.bikeId (s.foundAt d)).issue d (.tagClear .atReturn)).nodes =
          (s.issue d (.tagClear .atReturn)).nodes :=
        issue_nodes ((State.putDock_nodes ..).trans cleared.nodes) (by
          rw [dockBike_eq, dock_putDock_has vHas]
          exact cleared.configured d)
      rw [kept, arrivedOnHire_eq vHas]
      have same : (s.foundAt d ≠ .census ∧ (v.dock d).lock ≠ .locked ∧
          ((v.dock d).state = .lockedOut → s.foundAt d = .replaced)) ↔ locks := locks_iff
      by_cases hlk : locks
      · rw [if_pos hlk, if_pos (same.2 hlk)]
        refine issue_nodes first ?_
        rw [dock_issue, dock_issue, dockBike_eq, dock_putDock_has vHas]
        exact cleared.configured d
      · rw [if_neg hlk, if_neg (fun hc => hlk (same.1 hc))]
        exact first
    · show Alike _ held
      rw [quiet hn, ← heldEq, openEntry_room vHas vHeld hroom.1 (window ▸ hroom.2)]
      exact entered_alike vHas
    · intro freed
      have entered := entered_alike (i := i) (found := s.foundAt d) (close := close) vHas
      rw [heldEq] at entered
      have enters : s.onPresent d (some (.onHire i)) = (back.entered close i.bikeId d).disturbDeliver d := by
        rw [← openEntry_room vHas vHeld hroom.1 (window ▸ hroom.2)]
        exact opens
      have van : (back.entered close i.bikeId d).van = s.van := (broughtBack_van vHas).trans cleared.van
      have dockAt (e : Nat) : (back.entered close i.bikeId d).dock e = back.dock e := rfl
      have heldDock : (back.entered close i.bikeId d).dock d = held.dock d := by
        rw [← heldEq]
        exact (backDock d).trans (struckAt_dock vHas d).symm
      have occupied : ((back.entered close i.bikeId d).dock d).state ≠ .empty := by
        rw [dockAt, show back.dock d = _ from backDock d, if_pos rfl]
        exact docked_state_ne _ _ _ foundAt_census
      have reserved : ((back.entered close i.bikeId d).dock d).reservation = .deliver n := (backReservation d).trans hr
      have taken (c : Nat) (hc : (s.dock c).state ≠ .empty ∨ (s.dock c).reservation ≠ .unreserved) :
          ((back.entered close i.bikeId d).dock c).state ≠ .empty ∨
            ((back.entered close i.bikeId d).dock c).reservation ≠ .unreserved := by
        by_cases hcd : c = d
        · exact .inl (hcd ▸ occupied)
        · rw [dockAt, backReservation, show back.dock c = _ from backDock c, if_neg hcd, cleared.state]
          exact hc
      have phase : (back.entered close i.bikeId d).van.phase = .reserving ∨
          (back.entered close i.bikeId d).van.phase = .active := by rw [van]; exact hp
      refine ⟨fun e hmem hse hue hlow => ?_, fun hnone => ?_⟩
      · have hed : e ≠ d := by
          rintro rfl
          rw [hr] at hue
          cases hue
        have other : (back.entered close i.bikeId d).dock e = v.dock e := (backDock e).trans (if_neg hed)
        have moves := disturb_moves entered heldDock reserved phase occupied hmem
          (by rw [other, cleared.state]; exact hse) (by rw [other, cleared.reservation]; exact hue)
          fun c hc hlt => taken c (hlow c hc hlt)
        rw [other, ← enters] at moves
        exact moves
      · intro manifest hgo
        have falls := disturb_falls (m := m) entered heldDock reserved phase occupied (by rw [van]; exact hm)
          (fun c hc => taken c (hnone c hc)) (by rw [van]; exact hgo)
        rw [← enters, van] at falls
        exact falls
    · have now : v.now = s.now := cleared.now
      have at_once := openEntry_at_once (close := close) (found := s.foundAt d) vHas vHeld hl (window ▸ hw) (by
        rw [show close.hirer = i.hirer from closeOf_hirer (s := s) i _ _]
        exact hnp)
      rw [heldEq, vRidden, now, vEntry] at at_once
      refine ⟨fun hf => ?_, fun hf => ?_⟩
      · show Alike _ _
        rw [quiet hn]
        exact at_once.1 hf
      · show Alike _ _
        rw [quiet hn]
        exact at_once.2 hf
    · intro lostOne
      refine ⟨fun cause time pass hst hf => ?_, fun b link deadline x hst hnp hlink hx hid => ?_⟩
      · have loses := openEntry_loses (close := close) (found := s.foundAt d) vHas vHeld hs hl hst (window ▸ hw)
        rw [struckEq, vEntry] at loses
        show Alike _ _
        rw [quiet hn]
        exact loses
      · have gives_up := openEntry_gives_up (close := close) (found := s.foundAt d) vHas vHeld hs hl hst hnp hlink hx hid
          (window ▸ hw)
        rw [struckEq, vEntry, show v.now = s.now from cleared.now] at gives_up
        refine ⟨fun hf => ?_, fun hf => ?_⟩
        · show Alike _ _
          rw [quiet hn]
          exact gives_up.1 hf
        · show Alike _ _
          rw [quiet hn]
          exact gives_up.2 hf
  · intro d image s h1 hlen hst hn idOf hb v docked made
    have has : s.hasDock d := hasDock_of_range h1 hlen
    have notEmpty : (s.dock d).state ≠ .empty := by
      rcases hst with h | h <;> rw [h] <;> decide
    have vEq : v = s.clearedFor d := (if_neg notEmpty).symm
    have cleared : Unbiked s (s.clearedFor d) := clearedFor_unbiked s d
    have vHas : (s.clearedFor d).hasDock d := cleared.hasDock.2 has
    have idEq (i : TagImage) : idOf i = i.bike := by cases i <;> rfl
    have arrives : s.onPresent d image = (s.clearedFor d).arrive d image (s.foundAt d) false := by
      refine onPresent_arrives (.inr ⟨hst, fun b hk => ?_⟩)
      cases himage : image with
      | none => rfl
      | some i => exact sameBike_other (idEq i ▸ hb b i hk himage)
    have dockedEq (b : Bike) : (s.clearedFor d).landed d (s.foundAt d) b = docked b := by
      rw [landed_eq, ← vEq]
    have madeEq (id : Nat) : Bike.arrived id (s.clearedFor d).now = made id := by
      rw [cleared.now]
      rfl
    have undelivered : (s.clearedFor d).undelivered d := by
      intro n
      rw [cleared.reservation]
      exact hn n
    refine ⟨fun himage => ?_, fun id himage he => ?_, fun i himage he hf hfaults => ?_⟩
    · rw [arrives, himage, arrive_unreadable vHas undelivered, dockedEq, madeEq]
    · have notFound : s.foundAt d ≠ .empty := by
        unfold State.foundAt
        rw [if_neg notEmpty]
        split <;> decide
      rw [arrives, himage, arrive_idle_uncounted vHas (by rw [clearedFor_elsewhere]; exact he)
        (.inr ⟨notFound, undelivered⟩), dockedEq, madeEq]
    · have bare : ((s.clearedFor d).dock d).bike = none := by
        rw [← vEq]
        exact vacated_bike s d .replaced
      have conflicts := arrive_conflicts (startup := false) (found := s.foundAt d) vHas undelivered
        (by rw [clearedFor_elsewhere, ← idEq]; exact he) (.inl bare) (vEq ▸ hf) (vEq ▸ hfaults)
      rw [dockedEq, show (s.clearedFor d).now = s.now from cleared.now, ← vEq, ← idEq] at conflicts
      have present : s.onPresent d image = v.arrive d (some i) (s.foundAt d) false := by
        rw [vEq, ← himage]
        exact arrives
      exact (present.trans conflicts).trans (by cases i <;> rfl)

end Sys2Proof.Machine
end

