-- ==== Sys2Proof/Proofs/LockEvents.lean ====
section
/-! PROOFS. The lock events, and the deliveries of a session (R19, R26, R28 to R30, R33, R35, R53, R143, R144, R149, R150, R152,
R153). -/

namespace Sys2Proof.Machine

section Locks

variable {s : State} {d : Nat} {x y : Dock}

/-- A write that leaves what a dock adds to the counts does not show behind the next one (R20). -/
theorem putDock_then (h : s.hasDock d) (hx : x.share = (s.dock d).share) : (s.putDock d x).putDock d y = s.putDock d y := by
  by_cases hy : (s.dock d).share = y.share
  · exact putDock_putDock h (hx.trans hy)
  · exact putDock_over h hy

theorem onLocked_relocking (h : s.hasDock d) (hs : (s.dock d).state = .relocking) :
    Alike (s.onLocked d)
      (s.putDock d { s.dock d with lock := .locked, state := .occupied, counter := 0, relockAt := none }) := by
  have eq : s.onLocked d = (s.putDock d { s.dock d with lock := .locked }).putDock d
      { s.dock d with lock := .locked, state := .occupied, counter := 0, relockAt := none } := by
    unfold State.onLocked State.editDock
    dsimp only
    rw [hs]
    dsimp only
    rw [dock_putDock_has h]
  rw [eq]
  exact Alike.putDock_putDock d _ _

theorem onLocked_other (h1 : (s.dock d).state ≠ .relocking) (h2 : (s.dock d).state ≠ .releaseOpen) :
    s.onLocked d = s.putDock d { s.dock d with lock := .locked } := by
  unfold State.onLocked
  dsimp only
  split
  · rename_i h
    exact absurd h h2
  · rename_i h
    exact absurd h h1
  · rfl

/-- The lock that closes before the bike is taken ends a hirer's release as a lapse (R28). -/
theorem onLocked_lapses {r : Release} {hirer : Hirer} {issue : Option Nat} {ref : HireRef} {image : TripImage}
    (hs : (s.dock d).state = .releaseOpen) (hr : (s.dock d).release = some r) (hp : r.party = .hire hirer issue ref image)
    (hn : ∀ slot serial, hirer ≠ .pass slot serial) (ho : r.origin = .occupied) (hl : (s.dock d).lockoutPending = false)
    (hfirst : s.firstPlace = none) :
    s.onLocked d =
      { (s.putDock d { s.dock d with lock := .locked, state := .occupied, release := none, windowAt := none }).issue d
          (.tagClear .afterRelease) with setAside := s.setAside - 1 } := by
  have h := hasDock_of_release hr
  have discarded : (s.putDock d { s.dock d with lock := .locked }).discardRelease d r.origin.dockState =
      s.putDock d { s.dock d with lock := .locked, state := .occupied, release := none, windowAt := none } := by
    unfold State.discardRelease State.editDock
    rw [dock_putDock_has h, ho]
    exact putDock_then h rfl
  have step : Dockwise s ((s.putDock d { s.dock d with lock := .locked, state := .occupied, release := none, windowAt := none }).issue
      d (.tagClear .afterRelease)) := (Dockwise.putDock _ _).trans (Dockwise.issue _ _)
  have quiet : (((s.putDock d { s.dock d with
      lock := .locked, state := .occupied, release := none, windowAt := none }).issue d (.tagClear .afterRelease)).dock
        d).lockoutPending = false := by
    rw [dock_issue, dock_putDock_has h]
    exact hl
  unfold State.onLocked
  dsimp only
  rw [hs, hr]
  dsimp only
  unfold State.lapseLocked
  dsimp only
  rw [show s.editDock d (fun x => { x with lock := .locked }) = s.putDock d { s.dock d with lock := .locked } from rfl,
    discarded, clearTag_hire hp, tellVan_hire hp, applyPending_none quiet,
    giveUp_back hp fun slot serial h => (hn slot serial h).elim, giveBack_idle (step.firstPlace.trans hfirst), step.setAside]

theorem onPresent_ignored {image : Option TagImage} (h : (s.dock d).state.transient = true ∨ (s.dock d).state = .offline) :
    s.onPresent d image = s := by
  unfold State.onPresent
  dsimp only
  cases hs : (s.dock d).state <;> rw [hs] at h <;> simp_all [DockState.transient]

theorem onPresent_same {i : TagImage} {b : Bike} (hs : (s.dock d).state = .occupied ∨ (s.dock d).state = .lockedOut)
    (hb : (s.dock d).bike = some b) (hid : b.id = i.bike) : s.onPresent d (some i) = s := by
  have same : sameBike (some i) b = true := by
    unfold sameBike
    rw [Option.any_some, hid, beq_self_eq_true]
  unfold State.onPresent
  dsimp only
  rcases hs with hs | hs <;> rw [hs, hb] <;> exact if_pos same

theorem onUnlocked_unlocking (h : s.hasDock d) (hs : (s.dock d).state = .unlocking) :
    Alike (s.onUnlocked d)
      (s.putDock d { s.dock d with
        lock := .unlocked, state := .releaseOpen
        windowAt := some (s.elapsed + s.settings.releaseWindow * 1000) }) := by
  have eq : s.onUnlocked d = (s.putDock d { s.dock d with lock := .unlocked }).putDock d
      { s.dock d with
        lock := .unlocked, state := .releaseOpen
        windowAt := some (s.elapsed + s.settings.releaseWindow * 1000) } := by
    unfold State.onUnlocked State.editDock
    dsimp only
    rw [hs]
    dsimp only
    rw [dock_putDock_has h]
  rw [eq]
  exact Alike.putDock_putDock d _ _

theorem onUnlocked_occupied (h : s.hasDock d) (hs : (s.dock d).state = .occupied) :
    s.onUnlocked d = (s.putDock d { s.dock d with lock := .unlocked, state := .relocking }).issue d .lock := by
  have written : (s.putDock d { s.dock d with lock := .unlocked }).editDock d (fun x => { x with state := .relocking }) =
      s.putDock d { s.dock d with lock := .unlocked, state := .relocking } := by
    unfold State.editDock
    rw [dock_putDock_has h]
    exact putDock_then h rfl
  unfold State.onUnlocked
  dsimp only
  split
  · exact congrArg (State.issue · d .lock) written
  · rename_i hu
    rw [hs] at hu
    cases hu
  · rename_i ho _
    exact absurd hs ho

theorem onUnlocked_other (h1 : (s.dock d).state ≠ .unlocking) (h2 : (s.dock d).state ≠ .occupied) :
    s.onUnlocked d = s.putDock d { s.dock d with lock := .unlocked } := by
  unfold State.onUnlocked
  dsimp only
  split
  · rename_i h
    exact absurd h h2
  · rename_i h
    exact absurd h h1
  · rfl

end Locks

/-! ### Deliveries (R143, R144) -/

section Deliver

variable {s t : State} {d e n id : Nat} {m : ManifestEntry}

theorem wantedDeliver_first (hm : entryAt s.van.manifest n = some m) (hk : m.kind = .deliver) (ht : m.done < m.target)
    (hfirst : ∀ k x, k < n → entryAt s.van.manifest k = some x → x.kind = .deliver → x.target ≤ x.done) :
    s.wantedDeliver = some n := by
  have hn : n ≠ 0 := by
    rintro rfl
    cases hm
  have at_ (k : Nat) : entryAt s.van.manifest (k + 1) = s.van.manifest[k]? := by
    unfold entryAt
    rw [if_neg (by omega), Nat.add_sub_cancel]
  obtain ⟨j, rfl⟩ : ∃ j, n = j + 1 := ⟨n - 1, by omega⟩
  rw [at_] at hm
  have found : (s.van.manifest.zipIdx 1).find? (fun m => m.1.kind == .deliver && decide (m.1.done < m.1.target)) =
      some (m, j + 1) := by
    rw [List.find?_eq_some_iff_getElem]
    refine ⟨by simp [hk, ht], j, ?_, ?_, fun k hk' => ?_⟩
    · rw [List.length_zipIdx]
      exact (List.getElem?_eq_some_iff.1 hm).1
    · rw [List.getElem_zipIdx, (List.getElem?_eq_some_iff.1 hm).2, Nat.add_comm]
    · rw [List.getElem_zipIdx]
      have hlt : k < s.van.manifest.length := by
        have := (List.getElem?_eq_some_iff.1 hm).1
        omega
      have := hfirst (k + 1) s.van.manifest[k] (by omega) (by rw [at_, List.getElem?_eq_getElem hlt])
      by_cases hd : s.van.manifest[k].kind = .deliver
      · have := this hd
        simp [hd]
        omega
      · simp [hd]
  unfold State.wantedDeliver
  rw [found]
  rfl

theorem dropHighest_eq (he : e ∈ dockNumbers) (hr : (s.dock e).reservation = .deliver n)
    (hlast : ∀ c ∈ dockNumbers, e < c → (s.dock c).reservation ≠ .deliver n ∧ (s.dock c).reservation ≠ .collect n) :
    s.dropHighest n = s.putReservation e .unreserved := by
  have reserved : e ∈ s.reservedFor n := by
    unfold State.reservedFor
    rw [List.mem_filter, hr]
    exact ⟨he, beq_self_eq_true _⟩
  have sorted : (s.reservedFor n).Pairwise (· < ·) := by
    unfold State.reservedFor dockNumbers
    exact List.Pairwise.filter _ List.pairwise_lt_range'
  have last : (s.reservedFor n).getLast? = some e := by
    obtain ⟨before, after, hsplit⟩ := List.append_of_mem reserved
    cases after with
    | nil => rw [hsplit, List.getLast?_append_cons]; rfl
    | cons c rest =>
      exfalso
      have hc : c ∈ s.reservedFor n := by
        rw [hsplit]
        simp
      rw [hsplit, List.pairwise_append, List.pairwise_cons] at sorted
      have hlt : e < c := sorted.2.1.1 c List.mem_cons_self
      unfold State.reservedFor at hc
      rw [List.mem_filter] at hc
      obtain ⟨hd, hcol⟩ := hlast c hc.1 hlt
      obtain ⟨_, hentry⟩ := hc
      cases hres : (s.dock c).reservation with
      | unreserved => rw [hres] at hentry; cases hentry
      | collect k =>
        rw [hres] at hentry
        exact hcol (hres.trans (congrArg _ (by simpa [Reservation.entry?] using hentry)))
      | deliver k =>
        rw [hres] at hentry
        exact hd (hres.trans (congrArg _ (by simpa [Reservation.entry?] using hentry)))
  unfold State.dropHighest
  rw [last]

theorem vanArrival_delivers (hp : s.van.phase = .reserving ∨ s.van.phase = .active) (hr : (s.dock d).reservation = .deliver n)
    (wasEmpty : Bool) :
    s.vanArrival d id wasEmpty =
      (((s.countMove false n d id (some true)).putReservation d .unreserved).restartIdle).endIfMet := by
  unfold State.vanArrival
  rw [if_pos (open_of_phase hp), hr]

theorem vanArrival_unreserved (hp : s.van.phase = .reserving ∨ s.van.phase = .active)
    (hr : (s.dock d).reservation = .unreserved) (hw : s.wantedDeliver = some n) :
    s.vanArrival d id true = (((s.countMove false n d id (some false)).dropHighest n).restartIdle).endIfMet := by
  unfold State.vanArrival
  rw [if_pos (open_of_phase hp), hr]
  dsimp only
  rw [if_pos rfl, hw]

/-- A delivery counted, and the reservation of a dock dropped for it: the session goes on, or ends with its summary posted. -/
theorem delivered_alike (hm : s.van.moves = []) (hf : 0 < s.free) (he : entryAt s.van.manifest n = some m)
    (reserved : Option Bool) (c : Nat) :
    let counted := ((s.countMove false n d id reserved).putReservation c .unreserved).restartIdle
    let manifest := setEntry s.van.manifest n { m with done := m.done + 1 }
    let moved := (s.putDock c { s.dock c with reservation := .unreserved }).moved
      (s.van.counted n m (s.elapsed + s.settings.vanIdleTimeout * 1000)) (s.van.moveOf false n d id s.now reserved)
    (s.van.phase = .reserving ∨ (∃ x ∈ manifest, x.done ≠ x.target) → Alike counted.endIfMet moved) ∧
      (s.van.phase = .active → (∀ x ∈ manifest, x.done = x.target) → s.vanReleases = [] → s.van.summary = none → 1 < s.free →
        (∀ e ∈ dockNumbers, e ≠ c → (s.dock e).reservation = .unreserved) →
        Alike counted.endIfMet (moved.summed { endedBy := .exhaustion, outcome := .exhausted, time := s.now })) := by
  intro counted manifest moved
  have alike : Alike counted moved := countMove_alike hm hf he false reserved c
  have van : counted.van = s.van.counted n m (s.elapsed + s.settings.vanIdleTimeout * 1000) := alike.van
  refine ⟨fun h => ?_, fun hp hx hv hs hf1 hu => ?_⟩
  · rw [endIfMet_goesOn (by rw [van]; exact h)]
    exact alike
  · have free : counted.free = s.free - 1 := by
      refine alike.free.trans ?_
      show (State.post _ _).free = _
      rw [State.post_free, (Dockwise.putDock c _).free]
    have now : counted.now = s.now := by
      refine alike.now.trans ?_
      show (State.post _ _).now = _
      rw [State.post_now, (Dockwise.putDock c _).now]
    have movedDock (e : Nat) : moved.dock e = (s.putDock c { s.dock c with reservation := .unreserved }).dock e :=
      State.post_dock ..
    have reservations (e : Nat) (hmem : e ∈ dockNumbers) : (counted.dock e).reservation = .unreserved := by
      rw [alike.reservation, movedDock, dock_putDock]
      split
      · rfl
      · rename_i hne
        by_cases hec : e = c
        · subst hec
          have none : entryAt s.docks e = none := by
            by_contra hsome
            exact hne ⟨rfl, Option.isSome_iff_ne_none.2 hsome⟩
          unfold State.dock
          rw [none]
          rfl
        · exact hu e hmem hec
    have releases : counted.vanReleases = s.vanReleases := by
      refine vanReleases_congr fun e _ => ?_
      rw [alike.release, movedDock, dock_putDock]
      split
      · rename_i h
        rw [h.1]
      · rfl
    have ended := endIfMet_alike (s := counted) (by rw [van]; exact hp) (by rw [van]; exact hx) (by rw [van]; exact hs)
      (releases.trans hv) (by rw [van]; exact hm) (by omega) reservations
    rw [now] at ended
    exact ended.trans (alike.summed _)

end Deliver

end Sys2Proof.Machine
end

