-- ==== Sys2Proof/Proofs/Redress.lean ====
section
/-! PROOFS. A field of a dock other than its bike may be written before or after its close is finalised, its bike reported or a
command issued (R18, R36, R37, R106, R122). -/

namespace Sys2Proof.Machine

/-! ### What leaves the docks alone -/

section Docks

variable {s : State}

/-- The state with other docks and offline timers, and DOCK_STATE raised where it is to be. -/
def State.withDocks (s : State) (ds : List Dock) (o : List (Option Nat)) (m : Bool) : State :=
  { s with
    docks := ds, offlineAt := o
    link := { s.link with marks := { s.link.marks with dockState := m || s.link.marks.dockState } } }

theorem post_withDocks (ds : List Dock) (o : List (Option Nat)) (m : Bool) (b : Body) : (s.withDocks ds o m).post b = (s.post b).withDocks ds o m := by
  unfold State.post State.withDocks
  dsimp only
  split <;> rfl

theorem putPass_withDocks (ds : List Dock) (o : List (Option Nat)) (m : Bool) (slot : Nat) (p : Option Pass) :
    (s.withDocks ds o m).putPass slot p = (s.putPass slot p).withDocks ds o m := by
  by_cases h : (s.pass slot).map (fun q => q.state) = p.map (fun q => q.state)
  · have plain (t : State) (ht : (t.pass slot).map (fun q => q.state) = p.map (fun q => q.state)) :
        t.putPass slot p =
          t.putPasses { t.store.passes.cur with slots := setEntry t.store.passes.cur.slots slot p } := if_pos ht
    rw [plain _ h, plain (s.withDocks ds o m) h]
    rfl
  · have raised (t : State) (ht : ¬ (t.pass slot).map (fun q => q.state) = p.map (fun q => q.state)) :
        t.putPass slot p =
          (t.putPasses { t.store.passes.cur with slots := setEntry t.store.passes.cur.slots slot p }).raise .passState :=
      if_neg ht
    rw [raised _ h, raised (s.withDocks ds o m) h]
    rfl

theorem settlePass_withDocks (ds : List Dock) (o : List (Option Nat)) (m : Bool) (slot : Nat) :
    (s.withDocks ds o m).settlePass slot = (s.settlePass slot).withDocks ds o m := by
  have pass : (s.withDocks ds o m).pass slot = s.pass slot := rfl
  have free : (s.withDocks ds o m).free = s.free := rfl
  unfold State.settlePass
  rw [pass, free]
  cases s.pass slot with
  | none => rfl
  | some p =>
    dsimp only
    split
    · rw [post_withDocks, putPass_withDocks]
    · rfl

theorem chargeAndMove_withDocks (ds : List Dock) (o : List (Option Nat)) (m : Bool) (slot : Nat) (p : Pass) (n : Nat) :
    (s.withDocks ds o m).chargeAndMove slot p n = (s.chargeAndMove slot p n).withDocks ds o m := by
  have now : (s.withDocks ds o m).now = s.now := rfl
  unfold State.chargeAndMove State.enterSettling
  dsimp only
  rw [now]
  split
  · rw [putPass_withDocks, settlePass_withDocks]
  · rw [putPass_withDocks]

theorem chargeClose_withDocks (ds : List Dock) (o : List (Option Nat)) (m : Bool) (ref : HireRef) (hirer : Hirer) (fare : Nat) :
    (s.withDocks ds o m).chargeClose ref hirer fare =
      ((s.chargeClose ref hirer fare).1.withDocks ds o m, (s.chargeClose ref hirer fare).2) := by
  unfold State.chargeClose
  cases hirer with
  | pass slot serial =>
    dsimp only
    rw [show (s.withDocks ds o m).passRides slot serial .closing ref = s.passRides slot serial .closing ref from rfl]
    cases s.passRides slot serial .closing ref with
    | none => rfl
    | some p =>
      dsimp only
      rw [chargeAndMove_withDocks]
  | member id => rfl
  | crew id => rfl
  | remote id => rfl

end Docks

/-! ### A dock redressed -/

section Redress

variable {s : State} {d e : Nat} {g : Dock → Dock} {o : List (Option Nat)} {m : Bool}

/-- A rewriting of a dock that leaves its bike and its configuration, whatever the bike. -/
structure Redresses (g : Dock → Dock) : Prop where
  bike : ∀ x b, g { x with bike := b } = { g x with bike := b }
  configured : ∀ x, (g x).configured = x.configured

/-- The state with a dock rewritten. -/
def State.redress (s : State) (d : Nat) (g : Dock → Dock) (o : List (Option Nat)) (m : Bool) : State :=
  s.withDocks (setEntry s.docks d (g (s.dock d))) o m

theorem Redresses.keeps (hg : Redresses g) (x : Dock) : (g x).bike = x.bike :=
  (congrArg Dock.bike (hg.bike x x.bike) :)

theorem redress_dock (h : s.hasDock d) (e : Nat) : (s.redress d g o m).dock e = if e = d then g (s.dock d) else s.dock e := by
  refine (dock_setEntry s d e _).trans ?_
  by_cases hed : e = d
  · rw [if_pos ⟨hed, h⟩, if_pos hed]
  · rw [if_neg fun hc => hed hc.1, if_neg hed]

theorem redress_hasDock (h : s.hasDock d) : (s.redress d g o m).hasDock d := by
  refine (hasDock_congr ?_).2 h
  unfold State.redress State.withDocks setEntry
  dsimp only
  split <;> simp

theorem redress_bike (hg : Redresses g) (h : s.hasDock d) (e : Nat) : ((s.redress d g o m).dock e).bike = (s.dock e).bike := by
  rw [redress_dock h]
  split
  · rename_i hed
    rw [hg.keeps, hed]
  · rfl

theorem setEntry_comm {α : Type} (l : List α) {m n : Nat} (h : m ≠ n) (a b : α) :
    setEntry (setEntry l m a) n b = setEntry (setEntry l n b) m a := by
  unfold setEntry
  by_cases hm : m = 0
  · simp [hm]
  · by_cases hn : n = 0
    · simp [hn]
    · rw [if_neg hn, if_neg hm, if_neg hm, if_neg hn]
      exact List.set_comm _ _ (by omega)

theorem share_marked (x : Dock) (b : Bool) :
    ({ x with bike := x.bike.map (fun y => { y with settling := b }) } : Dock).share = x.share := by
  unfold Dock.share Dock.isOpen Dock.inStock Dock.holds
  cases x.bike <;> rfl

theorem markSettling_eq (s : State) (d : Nat) (b : Bool) :
    s.markSettling d b =
      s.withDocks (setEntry s.docks d { s.dock d with bike := (s.dock d).bike.map (fun y => { y with settling := b }) })
        s.offlineAt false :=
  if_pos (share_marked _ _).symm

theorem markSettling_redress (hg : Redresses g) (h : s.hasDock d) (e : Nat) (b : Bool) :
    (s.redress d g o m).markSettling e b = (s.markSettling e b).redress d g o m := by
  by_cases hed : e = d
  · subst hed
    have before : (s.redress e g o m).dock e = g (s.dock e) := (redress_dock h e).trans (if_pos rfl)
    have after : (s.markSettling e b).dock e = { s.dock e with bike := (s.dock e).bike.map (fun y => { y with settling := b }) } :=
      dock_putDock_has h
    have written : ({ g (s.dock e) with bike := (g (s.dock e)).bike.map (fun y => { y with settling := b }) } : Dock) =
        g { s.dock e with bike := (s.dock e).bike.map (fun y => { y with settling := b }) } := by
      rw [hg.keeps]
      exact (hg.bike _ _).symm
    rw [markSettling_eq, before, written]
    unfold State.redress
    rw [after, markSettling_eq]
    unfold State.withDocks
    dsimp only
    rw [setEntry_setEntry, setEntry_setEntry]
    rfl
  · have before : (s.redress d g o m).dock e = s.dock e := (redress_dock h e).trans (if_neg hed)
    have after : (s.markSettling e b).dock d = s.dock d := dock_putDock_ne (fun hc => hed hc.symm)
    rw [markSettling_eq, before]
    unfold State.redress
    rw [after, markSettling_eq]
    unfold State.withDocks
    dsimp only
    rw [setEntry_comm _ (fun hc => hed hc.symm)]
    rfl

theorem redress_of_docks {t : State} (h : t.docks = s.docks) : t.redress d g o m = t.withDocks (s.redress d g o m).docks o m := by
  unfold State.redress
  rw [h, dock_of_docks h]
  rfl

theorem chargeClose_redress (ref : HireRef) (hirer : Hirer) (fare : Nat) :
    (s.redress d g o m).chargeClose ref hirer fare =
      ((s.chargeClose ref hirer fare).1.redress d g o m, (s.chargeClose ref hirer fare).2) := by
  have docks : (s.chargeClose ref hirer fare).1.docks = s.docks := by
    have same := (Moved.of_settled (Settled.chargeClose (s := s) ref hirer fare)).length
    refine List.ext_getElem same fun i h1 h2 => ?_
    have := chargeClose_dock (s := s) (ref := ref) (h := hirer) (fare := fare) (d := i + 1)
    unfold State.dock entryAt at this
    rw [if_neg (by omega), if_neg (by omega), Nat.add_sub_cancel, List.getElem?_eq_getElem h1, List.getElem?_eq_getElem h2] at this
    exact this
  rw [redress_of_docks docks]
  exact chargeClose_withDocks _ _ _ ref hirer fare

theorem unmark_redress (hg : Redresses g) (h : s.hasDock d) (dock bike : Nat) :
    (s.redress d g o m).unmark dock bike = (s.unmark dock bike).redress d g o m := by
  unfold State.unmark
  rw [redress_bike hg h]
  split
  · exact markSettling_redress hg h _ _
  · rfl

theorem finalise_redress (hg : Redresses g) (h : s.hasDock d) (i : Nat) (cause : FinalCause) :
    (s.redress d g o m).finalise i cause = (s.finalise i cause).redress d g o m := by
  unfold State.finalise
  rw [show (s.redress d g o m).entries = s.entries from rfl]
  cases s.entries[i]? with
  | none => rfl
  | some x =>
    dsimp only
    cases x.stage with
    | waiting c t p => rfl
    | held bike dock deadline =>
      dsimp only
      have charged : (s.chargeClose x.close.ref x.close.hirer x.finalFare).1.hasDock d :=
        (Settled.chargeClose (s := s) _ _ _).hasDock.2 h
      rw [chargeClose_redress, unmark_redress hg charged]
      dsimp only
      generalize (s.chargeClose x.close.ref x.close.hirer x.finalFare).1.unmark dock bike = u
      rw [show (u.redress d g o m).free = u.free from rfl]
      split
      · unfold State.postClose State.redress
        rw [post_withDocks]
        show _ = State.withDocks _ (setEntry (State.post u _).docks d (g ((State.post u _).dock d))) o m
        rw [State.post_docks, State.post_dock]
        rfl
      · rfl

theorem settleDock_redress (hg : Redresses g) (h : s.hasDock d) (e : Nat) (reason : EarlyReason) :
    (s.redress d g o m).settleDock e reason = (s.settleDock e reason).redress d g o m := by
  unfold State.settleDock
  rw [redress_bike hg h]
  cases (s.dock e).bike with
  | none => rfl
  | some b =>
    dsimp only
    split
    · unfold State.finaliseBike
      rw [show (s.redress d g o m).heldAt b.id = s.heldAt b.id from rfl]
      cases s.heldAt b.id with
      | none => rfl
      | some i => exact finalise_redress hg h _ _
    · rfl

end Redress

end Sys2Proof.Machine
end

