-- ==== Sys2Proof/Proofs/Reconcile.lean ====
section
/-! PROOFS. A census that reconciles an OFFLINE dock: the lock state written last, the dock state and the lockout that follow
(R37, R124, R125, R127). -/

namespace Sys2Proof.Machine

section Relock

variable {s u : State} {d : Nat} {g : Dock → Dock} {o : List (Option Nat)} {m : Bool}

theorem makeFault_withDocks (ds : List Dock) (f : FaultRecord) :
    (s.withDocks ds o m).makeFault f = (s.makeFault f).withDocks ds o m := by
  by_cases h : 0 < s.free ∧ s.faults = []
  · have posts (t : State) (ht : 0 < t.free ∧ t.faults = []) :
        t.makeFault f = { t.post (.fault f t.faultsDropped) with faultsDropped := 0 } := if_pos ht
    rw [posts _ h, posts (s.withDocks ds o m) h, post_withDocks]
    rfl
  · have waits (t : State) (ht : ¬ (0 < t.free ∧ t.faults = [])) :
        t.makeFault f = { t with
          faults := (joinFaults t.faults f).1
          faultsDropped := if (joinFaults t.faults f).2 then countUp t.faultsDropped else t.faultsDropped } := if_neg ht
    rw [waits _ h, waits (s.withDocks ds o m) h]
    rfl

theorem setAttention_withDocks (ds : List Dock) (c : AttentionCause) :
    (s.withDocks ds o m).setAttention c = (s.setAttention c).withDocks ds o m := by
  by_cases h : s.attention = s.attention.add c
  · rw [setAttention_same h, setAttention_same (s := s.withDocks ds o m) h]
  · rw [setAttention_changes h, setAttention_changes (s := s.withDocks ds o m) h]
    rfl

theorem issue_redress (hg : Redresses g) (h : s.hasDock d) (c : Command) :
    (s.redress d g o m).issue d c = (s.issue d c).redress d g o m := by
  have configured : ((s.redress d g o m).dock d).configured = (s.dock d).configured := by
    rw [redress_dock h, if_pos rfl, hg.configured]
  have node : (s.redress d g o m).node d = s.node d := rfl
  rw [State.issue_eq, State.issue_eq, configured, node]
  split <;> rfl

/-- A write of the same dock with the same rewriting. -/
theorem putDock_redress (hs : ∀ x, (g x).share = x.share) (h : s.hasDock d) (x : Dock) :
    (s.redress d g o m).putDock d (g x) = (s.putDock d x).redress d g o m := by
  have before : (s.redress d g o m).dock d = g (s.dock d) := (redress_dock h d).trans (if_pos rfl)
  have after : (s.putDock d x).dock d = x := dock_putDock_has h
  unfold State.redress at before ⊢
  rw [after]
  unfold State.putDock
  dsimp only
  rw [before, hs, hs]
  split
  · unfold State.withDocks
    dsimp only
    rw [setEntry_setEntry, setEntry_setEntry]
  · unfold State.withDocks
    show State.raise { s with docks := setEntry (setEntry s.docks d _) d _, offlineAt := _, link := _ } _ =
      { s with docks := setEntry (setEntry s.docks d _) d _, offlineAt := _, link := _ }
    rw [setEntry_setEntry, setEntry_setEntry]
    cases m <;> rfl

theorem putBike_redress (hg : Redresses g) (hs : ∀ x, (g x).share = x.share) (h : s.hasDock d) (b : Bike) :
    (s.redress d g o m).putBike d b = (s.putBike d b).redress d g o m := by
  have dock : ({ (s.redress d g o m).dock d with bike := some b } : Dock) = g { s.dock d with bike := some b } := by
    rw [redress_dock h, if_pos rfl]
    exact (hg.bike _ _).symm
  unfold State.putBike
  rw [dock]
  exact putDock_redress hs h _

theorem bikeFault_redress (hg : Redresses g) (h : s.hasDock d) (e : Nat) (effect : FaultEffect) :
    (s.redress d g o m).bikeFault e effect = s.bikeFault e effect := by
  unfold State.bikeFault
  rw [redress_bike hg h]

theorem makeFault_redress (f : FaultRecord) : (s.redress d g o m).makeFault f = (s.makeFault f).redress d g o m := by
  have docks : (s.makeFault f).docks = s.docks := State.makeFault_docks ..
  unfold State.redress
  rw [makeFault_withDocks, docks, dock_of_docks docks]

theorem attendEffect_redress (e : FaultEffect) : (s.redress d g o m).attendEffect e = (s.attendEffect e).redress d g o m := by
  unfold State.attendEffect
  split
  · have docks : (s.setAttention .quarantine).docks = s.docks := State.setAttention_docks ..
    unfold State.redress
    rw [setAttention_withDocks, docks, dock_of_docks docks]
  · rfl

theorem reportTag_redress (hg : Redresses g) (hs : ∀ x, (g x).share = x.share) (h : s.hasDock d) :
    (s.redress d g o m).reportTag d = (s.reportTag d).redress d g o m := by
  cases hb : (s.dock d).bike with
  | none => rw [reportTag_bare hb, reportTag_bare ((redress_bike hg h d).trans hb)]
  | some b =>
    have tagged : (s.redress d g o m).tagged b = s.tagged b := rfl
    have has : (s.putBike d (s.tagged b).1).hasDock d := hasDock_putDock h
    rw [reportTag_eq hb, reportTag_eq ((redress_bike hg h d).trans hb), tagged, putBike_redress hg hs h,
      bikeFault_redress (s := s.putBike d _) hg has, makeFault_redress, attendEffect_redress]

theorem reportConflict_redress (hg : Redresses g) (hs : ∀ x, (g x).share = x.share) (h : s.hasDock d) (bike : Nat)
    (ref : Option HireRef) :
    (s.redress d g o m).reportConflict d bike ref = (s.reportConflict d bike ref).redress d g o m := by
  unfold State.reportConflict
  rw [redress_bike hg h]
  cases (s.dock d).bike with
  | none => rfl
  | some b =>
    dsimp only
    have has (b' : Bike) : (s.putBike d b').hasDock d := hasDock_putDock h
    rw [putBike_redress hg hs h, bikeFault_redress hg (has _), makeFault_redress, attendEffect_redress]

theorem redress_bikeElsewhere (hg : Redresses g) (h : s.hasDock d) (e id : Nat) :
    (s.redress d g o m).bikeElsewhere e id = s.bikeElsewhere e id :=
  bikeElsewhere_congr fun c _ => by rw [redress_bike hg h]

end Relock

/-! ### The lock state of a census (R37) -/

section Census

variable {s u : State} {d : Nat} {lock : LockPosition} {present : Option (Option TagImage)}

/-- A dock with another lock state. -/
def Dock.relocked (l : LockState) (x : Dock) : Dock := { x with lock := l }

theorem relocked_redresses (l : LockState) : Redresses (Dock.relocked l) := ⟨fun _ _ => rfl, fun _ => rfl⟩

theorem relocked_share (l : LockState) (x : Dock) : (x.relocked l).share = x.share := rfl

/-- The state with the lock state of a dock written. -/
def State.relock (s : State) (d : Nat) (l : LockState) : State := s.redress d (Dock.relocked l) s.offlineAt false

theorem putDock_relock (s : State) (d : Nat) (l : LockState) : s.putDock d { s.dock d with lock := l } = s.relock d l :=
  if_pos rfl

/-- A write of the dock hides the lock state written before it. -/
theorem relock_putDock (h : s.hasDock d) (l : LockState) (x : Dock) : (s.relock d l).putDock d x = s.putDock d x := by
  rw [← putDock_relock]
  exact putDock_then h rfl

theorem relock_dock (h : s.hasDock d) (l : LockState) : (s.relock d l).dock d = { s.dock d with lock := l } :=
  (redress_dock h d).trans (if_pos rfl)

/-- What a census leaves of the counts, limits and timers of a dock until it is reconciled. -/
structure Standing (s u : State) (d : Nat) : Prop where
  has : u.hasDock d
  counter : (u.dock d).counter = (s.dock d).counter
  settings : u.settings = s.settings
  offlineAt : u.offlineAt = s.offlineAt
  readerRuns : u.readerRuns = s.readerRuns

/-- The state in which a census leaves a dock, by what its matching with the record left. -/
def State.reconciled (s : State) (d : Nat) (lock : LockPosition) (u : State) : State :=
  let b := (u.dock d).bike
  let v := if b ≠ none ∧ lock = .unlocked then u.issue d .lock else u
  let w := v.putDock d { u.dock d with
    lock := lockOf lock
    state :=
      if 0 < s.settings.dockFaultLimit ∧ s.settings.dockFaultLimit ≤ (s.dock d).counter then .lockedOut
      else if b = none then .empty else if lock = .unlocked then .relocking else .occupied
    shown := none }
  let x :=
    if 0 < s.settings.dockFaultLimit ∧ s.settings.dockFaultLimit ≤ (s.dock d).counter then
      (w.setAttention .lockout).makeFault
        { subject := .dock, dock := some d, bikeId := b.map (fun b => b.id), tagBikeId := none, tagRef := none
          kind := none, source := none, cause := some .census, reporter := none, reporters := none
          confirmCount := none, effect := .lockedOut, conditionAfter := none, counterAfter := some (s.dock d).counter
          counterBefore := none, dockState := some .lockedOut, bikeAbsent := false }
    else w
  ({ x with offlineAt := setEntry s.offlineAt d none, readerRuns := setEntry s.readerRuns d 0 } : State)

theorem lockOf_unlocked : lockOf lock = .unlocked ↔ lock = .unlocked := by cases lock <;> simp [lockOf]

theorem reconcile_eq (hs : (s.dock d).state = .offline)
    (hm : (s.relock d (lockOf lock)).matchCensus d present = u.relock d (lockOf lock)) (hu : Standing s u d) :
    s.reconcile d lock present = s.reconciled d lock u := by
  have bike : ((u.relock d (lockOf lock)).dock d).bike = (u.dock d).bike := by rw [relock_dock hu.has]
  let v := if (u.dock d).bike ≠ none ∧ lock = .unlocked then u.issue d .lock else u
  have vHas : v.hasDock d := by
    show (if _ then _ else _ : State).hasDock d
    split
    · exact (Dockwise.issue d _).hasDock.2 hu.has
    · exact hu.has
  have vOffline : v.offlineAt = s.offlineAt := by
    show (if _ then _ else _ : State).offlineAt = _
    split
    · exact (State.issue_offlineAt ..).trans hu.offlineAt
    · exact hu.offlineAt
  have vRuns : v.readerRuns = s.readerRuns := by
    show (if _ then _ else _ : State).readerRuns = _
    split
    · exact (State.issue_readerRuns ..).trans hu.readerRuns
    · exact hu.readerRuns
  have vDock : v.dock d = u.dock d := by
    show (if _ then _ else _ : State).dock d = _
    split
    · exact dock_issue
    · rfl
  have vSettings : v.settings = s.settings := by
    show (if _ then _ else _ : State).settings = _
    split
    · exact (State.issue_settings ..).trans hu.settings
    · exact hu.settings
  have issues : (if ((u.relock d (lockOf lock)).dock d).bike.isSome ∧ lock = .unlocked then
      (u.relock d (lockOf lock)).issue d .lock else u.relock d (lockOf lock)) = v.relock d (lockOf lock) := by
    rw [bike]
    by_cases hc : (u.dock d).bike ≠ none ∧ lock = .unlocked
    · have some_ : (u.dock d).bike.isSome = true ∧ lock = .unlocked := ⟨Option.isSome_iff_ne_none.2 hc.1, hc.2⟩
      have vEq : v = u.issue d .lock := if_pos hc
      rw [if_pos some_, vEq]
      exact (issue_redress (relocked_redresses _) hu.has _).trans (by
        unfold State.relock
        rw [State.issue_offlineAt])
    · have vEq : v = u := if_neg hc
      rw [if_neg fun h => hc ⟨Option.isSome_iff_ne_none.1 h.1, h.2⟩, vEq]
  let after : DockState :=
    if 0 < s.settings.dockFaultLimit ∧ s.settings.dockFaultLimit ≤ (s.dock d).counter then .lockedOut
    else if (u.dock d).bike = none then .empty else if lock = .unlocked then .relocking else .occupied
  let w := v.putDock d { u.dock d with lock := lockOf lock, state := after, shown := none }
  have state : (v.relock d (lockOf lock)).censusState d = after := by
    have settings : (v.relock d (lockOf lock)).settings = v.settings := rfl
    unfold State.censusState
    dsimp only
    rw [relock_dock vHas, vDock, settings, vSettings]
    dsimp only
    rw [hu.counter]
    refine if_congr Iff.rfl rfl (if_congr Option.isNone_iff_eq_none rfl (if_congr lockOf_unlocked rfl rfl))
  have written : (v.relock d (lockOf lock)).editDock d (fun x => { x with
      state := (v.relock d (lockOf lock)).censusState d, shown := none }) = w := by
    unfold State.editDock
    rw [relock_putDock vHas, relock_dock vHas, vDock, state]
  have wDock : w.dock d = { u.dock d with lock := lockOf lock, state := after, shown := none } := dock_putDock_has vHas
  let x := if 0 < s.settings.dockFaultLimit ∧ s.settings.dockFaultLimit ≤ (s.dock d).counter then
      (w.setAttention .lockout).makeFault
        { subject := .dock, dock := some d, bikeId := (u.dock d).bike.map (fun b => b.id), tagBikeId := none, tagRef := none
          kind := none, source := none, cause := some .census, reporter := none, reporters := none
          confirmCount := none, effect := .lockedOut, conditionAfter := none, counterAfter := some (s.dock d).counter
          counterBefore := none, dockState := some .lockedOut, bikeAbsent := false }
    else w
  have locks : (if (w.dock d).state = .lockedOut then w.censusLockout d else w) = x := by
    have lockedOut_iff : (w.dock d).state = .lockedOut ↔
        (0 < s.settings.dockFaultLimit ∧ s.settings.dockFaultLimit ≤ (s.dock d).counter) := by
      rw [wDock]
      show (if _ then _ else _) = _ ↔ _
      by_cases hl : 0 < s.settings.dockFaultLimit ∧ s.settings.dockFaultLimit ≤ (s.dock d).counter
      · simp [hl]
      · rw [if_neg hl]
        refine iff_of_false ?_ hl
        split
        · decide
        · split <;> decide
    by_cases hl : 0 < s.settings.dockFaultLimit ∧ s.settings.dockFaultLimit ≤ (s.dock d).counter
    · have xEq : x = _ := if_pos hl
      rw [if_pos (lockedOut_iff.2 hl), xEq]
      unfold State.censusLockout State.dockFault
      have afterEq : after = .lockedOut := if_pos hl
      rw [wDock, afterEq]
      dsimp only
      rw [hu.counter]
      rfl
    · have xEq : x = w := if_neg hl
      rw [if_neg fun h => hl (lockedOut_iff.1 h), xEq]
  have xFrame : x.offlineAt = s.offlineAt ∧ x.readerRuns = s.readerRuns := by
    have wFrame : w.offlineAt = s.offlineAt ∧ w.readerRuns = s.readerRuns :=
      ⟨(State.putDock_offlineAt ..).trans vOffline, (State.putDock_readerRuns ..).trans vRuns⟩
    show (if _ then _ else _ : State).offlineAt = _ ∧ (if _ then _ else _ : State).readerRuns = _
    split
    · rw [State.makeFault_offlineAt, State.setAttention_offlineAt, State.makeFault_readerRuns, State.setAttention_readerRuns]
      exact wFrame
    · exact wFrame
  unfold State.reconcile
  rw [if_pos hs]
  dsimp only
  rw [show s.editDock d (fun x => { x with lock := lockOf lock }) = s.relock d (lockOf lock) from putDock_relock _ _ _, hm,
    issues, written, locks]
  unfold State.cancelOffline State.putRun
  rw [xFrame.1, xFrame.2]
  rfl

end Census

end Sys2Proof.Machine
end

