-- ==== Sys2Proof/Proofs/CensusCases.lean ====
section
/-! PROOFS. What a census makes of the bike record of an OFFLINE dock (R18, R30, R31, R37, R57, R103, R122). -/

namespace Sys2Proof.Machine

section Cases

variable {s : State} {d : Nat} {l : LockState} {reason : EarlyReason}

theorem stock_withDock {x : Dock} (hx : x.inStock = (s.dock d).inStock) :
    (setEntry s.docks d x).countP Dock.inStock = s.docks.countP Dock.inStock := by
  have stocked (l : List Dock) : l.countP Dock.inStock = (l.map Dock.inStock).countP id := by
    rw [List.countP_map]
    rfl
  rw [stocked, stocked]
  congr 1
  exact map_setEntry_same Dock.inStock s.docks d (.atStart false) x hx

/-- The lock state of a dock adds nothing to the stock. -/
theorem relock_stock : (s.relock d l).stock = s.stock := stock_withDock rfl

theorem relock_bike (h : s.hasDock d) (e : Nat) : ((s.relock d l).dock e).bike = (s.dock e).bike :=
  redress_bike (relocked_redresses l) h e

theorem relock_of_offlineAt {u : State} (h : u.offlineAt = s.offlineAt) :
    u.redress d (Dock.relocked l) s.offlineAt false = u.relock d l := by
  unfold State.relock
  rw [h]

theorem relock_putBike (h : s.hasDock d) (b : Option Bike) :
    (s.relock d l).putDock d { (s.relock d l).dock d with bike := b } =
      (s.putDock d { s.dock d with bike := b }).relock d l := by
  rw [relock_dock h]
  exact (putDock_redress (relocked_share l) h { s.dock d with bike := b }).trans
    (relock_of_offlineAt (State.putDock_offlineAt ..))

theorem relock_settleDock (h : s.hasDock d) : (s.relock d l).settleDock d reason = (s.settleDock d reason).relock d l :=
  (settleDock_redress (relocked_redresses l) h d reason).trans
    (relock_of_offlineAt (Unbiked.of_settled (Settled.settleDock d reason)).offlineAt)

theorem relock_vacated (h : s.hasDock d) : (s.relock d l).vacated d reason = (s.vacated d reason).relock d l := by
  cases hb : (s.dock d).bike with
  | none => rw [vacated_none hb, vacated_none ((relock_bike h d).trans hb)]
  | some b =>
    rw [vacated_some hb, vacated_some ((relock_bike h d).trans hb)]
    unfold State.discardBike State.editDock
    rw [relock_settleDock h]
    exact relock_putBike ((Settled.settleDock (s := s) d reason).hasDock.2 h) none

theorem relock_issue (h : s.hasDock d) (c : Command) : (s.relock d l).issue d c = (s.issue d c).relock d l :=
  (issue_redress (relocked_redresses l) h c).trans (relock_of_offlineAt (State.issue_offlineAt ..))

theorem relock_elsewhere (h : s.hasDock d) (id : Nat) : (s.relock d l).bikeElsewhere d id = s.bikeElsewhere d id :=
  redress_bikeElsewhere (relocked_redresses l) h d id

theorem relock_struckOff (ref : HireRef) : (s.relock d l).struckOff ref = (s.struckOff ref).relock d l := by
  have hires (v : List OpenHire) : (s.relock d l).putHires v = (s.putHires v).relock d l := rfl
  have ridden (v : List OpenHire) (slot : Nat) (p : Option Pass) :
      ((s.relock d l).putHires v).putPass slot p = ((s.putHires v).putPass slot p).relock d l := by
    rw [hires]
    unfold State.relock State.redress
    rw [putPass_withDocks, State.putPass_docks, State.putPass_dock, State.putPass_offlineAt]
  unfold State.struckOff
  rw [show (s.relock d l).hireOf ref = s.hireOf ref from rfl]
  cases s.hireOf ref with
  | none => rfl
  | some x =>
    dsimp only
    cases x.hirer with
    | pass slot serial =>
      dsimp only
      rw [show (s.relock d l).pass slot = s.pass slot from rfl]
      cases s.pass slot with
      | none => rfl
      | some p =>
        dsimp only
        split
        · exact ridden _ _ _
        · rfl
    | member id => rfl
    | crew id => rfl
    | remote id => rfl

/-! ### What stands until the dock is reconciled -/

theorem attendEffect_docks (s : State) (e : FaultEffect) : (s.attendEffect e).docks = s.docks := by
  unfold State.attendEffect
  split
  · exact State.setAttention_docks ..
  · rfl

theorem standing_trans {u v : State} (h1 : Standing s u d) (h2 : Standing u v d) : Standing s v d :=
  ⟨h2.has, h2.counter.trans h1.counter, h2.settings.trans h1.settings, h2.offlineAt.trans h1.offlineAt,
    h2.readerRuns.trans h1.readerRuns⟩

theorem standing_refl (h : s.hasDock d) : Standing s s d := ⟨h, rfl, rfl, rfl, rfl⟩

theorem standing_of_unbiked {u : State} (h : s.hasDock d) (hu : Unbiked s u) : Standing s u d :=
  ⟨hu.hasDock.2 h, hu.counter d, hu.settings, hu.offlineAt, hu.readerRuns⟩

theorem standing_putBike (h : s.hasDock d) (b : Bike) : Standing s (s.putBike d b) d :=
  standing_of_unbiked h (Unbiked.putBike d (some b))

theorem standing_issue (h : s.hasDock d) (c : Command) : Standing s (s.issue d c) d :=
  ⟨(Dockwise.issue d c).hasDock.2 h, by rw [dock_issue], State.issue_settings .., State.issue_offlineAt ..,
    State.issue_readerRuns ..⟩

theorem standing_reported (h : s.hasDock d) (f : FaultRecord) (e : FaultEffect) :
    Standing s ((s.makeFault f).attendEffect e) d := by
  have docks : ((s.makeFault f).attendEffect e).docks = s.docks := (attendEffect_docks _ _).trans (State.makeFault_docks ..)
  have rest : ((s.makeFault f).attendEffect e).settings = s.settings ∧
      ((s.makeFault f).attendEffect e).offlineAt = s.offlineAt ∧
      ((s.makeFault f).attendEffect e).readerRuns = s.readerRuns := by
    unfold State.attendEffect
    split
    · rw [State.setAttention_settings, State.setAttention_offlineAt, State.setAttention_readerRuns]
      exact ⟨State.makeFault_settings .., State.makeFault_offlineAt .., State.makeFault_readerRuns ..⟩
    · exact ⟨State.makeFault_settings .., State.makeFault_offlineAt .., State.makeFault_readerRuns ..⟩
  exact ⟨(hasDock_congr (congrArg List.length docks)).2 h, by rw [dock_of_docks docks], rest.1, rest.2.1, rest.2.2⟩

theorem standing_reportTag (h : s.hasDock d) : Standing s (s.reportTag d) d := by
  cases hb : (s.dock d).bike with
  | none =>
    rw [reportTag_bare hb]
    exact standing_refl h
  | some b =>
    rw [reportTag_eq hb]
    exact standing_trans (standing_putBike h _) (standing_reported (hasDock_putDock h) _ _)

theorem standing_reportConflict (h : s.hasDock d) (bike : Nat) (ref : Option HireRef) :
    Standing s (s.reportConflict d bike ref) d := by
  unfold State.reportConflict
  cases (s.dock d).bike with
  | none => exact standing_refl h
  | some b => exact standing_trans (standing_putBike h _) (standing_reported (hasDock_putDock h) _ _)

theorem relock_reportTag (h : s.hasDock d) : (s.relock d l).reportTag d = (s.reportTag d).relock d l :=
  (reportTag_redress (relocked_redresses l) (relocked_share l) h).trans (relock_of_offlineAt (standing_reportTag h).offlineAt)

theorem relock_reportConflict (h : s.hasDock d) (bike : Nat) (ref : Option HireRef) :
    (s.relock d l).reportConflict d bike ref = (s.reportConflict d bike ref).relock d l :=
  (reportConflict_redress (relocked_redresses l) (relocked_share l) h bike ref).trans
    (relock_of_offlineAt (standing_reportConflict h bike ref).offlineAt)

/-! ### What is compared with the record (R37) -/

theorem matchCensus_gone : s.matchCensus d none = s.vacated d .census := by
  unfold State.matchCensus
  cases hb : (s.dock d).bike with
  | none => exact (vacated_none hb).symm
  | some b => exact (vacated_some hb).symm

theorem matchCensus_unread {b : Bike} (h : (s.dock d).bike = some b) : s.matchCensus d (some none) = s.reportTag d := by
  unfold State.matchCensus
  rw [h]

theorem matchCensus_unread_bare (h : (s.dock d).bike = none) :
    s.matchCensus d (some none) = s.arrive d none .census s.now.isNone := by
  unfold State.matchCensus
  rw [h]

theorem matchCensus_own {b : Bike} (h : (s.dock d).bike = some b) : s.matchCensus d (some (some (.idle b.id))) = s := by
  unfold State.matchCensus
  rw [h]
  exact if_pos rfl

theorem matchCensus_own_onHire {b : Bike} {i : TripImage} (h : (s.dock d).bike = some b) (hi : i.bikeId = b.id) :
    s.matchCensus d (some (some (.onHire i))) = s.issue d (.tagClear .afterRelease) := by
  unfold State.matchCensus
  rw [h]
  exact if_pos hi

theorem matchCensus_other {i : TagImage} (h : ∀ b, (s.dock d).bike = some b → b.id ≠ i.bike) :
    s.matchCensus d (some (some i)) = (s.vacated d .census).arrive d (some i) .census s.now.isNone := by
  unfold State.matchCensus
  cases hb : (s.dock d).bike with
  | none => rw [vacated_none hb]
  | some b =>
    rw [vacated_some hb]
    exact if_neg fun hc => h b hb hc.symm

/-! ### A record made anew (R37) -/

theorem landed_census (b : Bike) : s.landed d .census b = s.putBike d b :=
  (if_neg fun h => h.1 rfl).trans (congrArg (s.putDock d) (by
    unfold Dock.docked
    rw [if_neg fun h => h.1 rfl]))

theorem arrive_conflict {i : TagImage} (h : s.hasDock d) (hr : s.undelivered d) (he : s.bikeElsewhere d i.bike = true)
    (found : Found) (startup : Bool) :
    s.arrive d (some i) found startup = (s.landed d found (.arrived 0 s.now)).reportConflict d i.bike i.ref? := by
  have lands (ref : Option HireRef) :
      (((s.dockBike d 0 found).lockArrival d found).reportConflict d i.bike ref).disturbDeliver d =
        (s.landed d found (.arrived 0 s.now)).reportConflict d i.bike ref := by
    rw [arrival_lands h]
    refine disturbDeliver_other fun n => ?_
    have bike : ((s.landed d found (.arrived 0 s.now)).dock d).bike = some (.arrived 0 s.now) := by
      rw [landed_dock h]
      rfl
    have landed : (s.landed d found (.arrived 0 s.now)).hasDock d := (landed_dockwise s d found _).hasDock.2 h
    have kept : (((s.landed d found (.arrived 0 s.now)).reportConflict d i.bike ref).dock d).reservation =
        (s.dock d).reservation := by
      unfold State.reportConflict
      rw [bike]
      dsimp only
      rw [dock_of_docks (attendEffect_docks _ _), State.makeFault_dock]
      unfold State.putBike
      rw [dock_putDock_has landed, landed_dock h]
      rfl
    rw [kept]
    exact hr n
  cases i with
  | idle id => exact (if_pos he).trans (lands none)
  | onHire i => exact (if_pos he).trans (lands (some i.ref))

theorem relock_arrived (h : s.hasDock d) (b : Bike) : (s.relock d l).landed d .census b = (s.putBike d b).relock d l := by
  rw [landed_census]
  exact relock_putBike h (some b)

end Cases

end Sys2Proof.Machine
end

