-- ==== Sys2Proof/Proofs/CensusReturns.lean ====
section
/-! PROOFS. A census that reconciles an OFFLINE dock: each case of its record, the return it may be, and the state it leaves
(R37). -/

namespace Sys2Proof.Machine

section Return

variable {s t u : State} {d : Nat} {l : LockState} {i : TripImage} {lock : LockPosition}

theorem docked_census (x : Dock) (b : Bike) : x.docked .census b = { x with bike := some b } := by
  unfold Dock.docked
  rw [if_neg fun h => h.1 rfl]

theorem arrivedOnHire_census (h : s.hasDock d) :
    s.arrivedOnHire d i .census = (s.putBike d (.arrived i.bikeId s.now)).issue d (.tagClear .atReturn) := by
  rw [arrivedOnHire_eq h, if_neg fun hc => hc.1 rfl, dockBike_eq, docked_census]
  rfl

theorem relock_markSettling (h : s.hasDock d) (b : Bool) : (s.relock d l).markSettling d b = (s.markSettling d b).relock d l :=
  (markSettling_redress (relocked_redresses l) h d b).trans (relock_of_offlineAt (State.putDock_offlineAt ..))

theorem relock_broughtBack (h : s.hasDock d) :
    (s.relock d l).broughtBack d i .census = (s.broughtBack d i .census).relock d l := by
  have putHas : (s.putBike d (.arrived i.bikeId s.now)).hasDock d := hasDock_putDock h
  have arrived : (s.relock d l).arrivedOnHire d i .census = (s.arrivedOnHire d i .census).relock d l := by
    rw [arrivedOnHire_census h, arrivedOnHire_census (s := s.relock d l) (redress_hasDock h), ← relock_issue putHas]
    exact congrArg (State.issue · d _) (relock_putBike h (some (.arrived i.bikeId s.now)))
  unfold State.broughtBack
  rw [arrived, relock_markSettling ((arrivedOnHire_dockwise h).hasDock.2 h), relock_struckOff]

theorem Standing.broughtBack (h : s.hasDock d) (close : PricedClose) :
    Standing s ((s.broughtBack d i .census).entered close i.bikeId d) d := by
  have marked : Dockwise s ((s.arrivedOnHire d i .census).markSettling d true) := broughtBack_marked h
  have struck : Struck ((s.arrivedOnHire d i .census).markSettling d true) (s.broughtBack d i .census) := struckOff_struck _ _
  have entered : Settled (s.broughtBack d i .census) ((s.broughtBack d i .census).entered close i.bikeId d) :=
    entered_settled _ _ _ _
  have frame : s.offlineAt = (s.broughtBack d i .census).offlineAt ∧ s.readerRuns = (s.broughtBack d i .census).readerRuns := by
    unfold State.broughtBack State.markSettling
    rw [show (State.struckOff _ i.ref).offlineAt = _ from (congrArg State.offlineAt (struckOff_struck _ _).same :),
      show (State.struckOff _ i.ref).readerRuns = _ from (congrArg State.readerRuns (struckOff_struck _ _).same :),
      State.putDock_offlineAt, State.putDock_readerRuns, arrivedOnHire_census h, State.issue_offlineAt, State.issue_readerRuns]
    exact ⟨(State.putDock_offlineAt ..).symm, (State.putDock_readerRuns ..).symm⟩
  refine ⟨entered.hasDock.2 ((hasDock_congr (congrArg List.length struck.docks)).2 (marked.hasDock.2 h)), ?_,
    entered.settings.trans (broughtBack_settings h), frame.1.symm, frame.2.symm⟩
  show ((s.broughtBack d i .census).dock d).counter = _
  rw [broughtBack_dock h, if_pos rfl, docked_census]

/-- The return that a census finds is struck off and entered (R31, R37, R57, R103). -/
theorem relock_returns (h : s.hasDock d) (hr : s.undelivered d) (he : s.bikeElsewhere d i.bikeId = false)
    (hh : s.heldAt i.bikeId = none) (hl : s.entries.length < 64) (hw : 0 < s.settings.settleWindow) (startup : Bool) :
    (s.relock d l).arrive d (some (.onHire i)) .census startup =
      ((s.broughtBack d i .census).entered (s.closeOf i d (decide (s.stock < s.settings.lowMark)) startup) i.bikeId d).relock
        d l := by
  have relocked : (s.relock d l).hasDock d := redress_hasDock h
  have close : (s.relock d l).closeOf i d (decide ((s.relock d l).stock < s.settings.lowMark)) startup =
      s.closeOf i d (decide (s.stock < s.settings.lowMark)) startup := by
    rw [relock_stock]
    rfl
  have reserved : ((s.relock d l).dock d).reservation = (s.dock d).reservation := by rw [relock_dock h]
  rw [arrive_returns relocked (by rw [relock_elsewhere h]; exact he)]
  show (State.openEntry _ ((s.relock d l).closeOf i d (decide ((s.relock d l).stock < s.settings.lowMark)) startup) _
    _).disturbDeliver d = _
  rw [openEntry_room relocked hh hl hw, close]
  refine (disturbDeliver_other fun n => ?_).trans (by rw [relock_broughtBack h]; rfl)
  show (((s.relock d l).broughtBack d i .census).dock d).reservation ≠ _
  rw [broughtBack_dock relocked, if_pos rfl, docked_census]
  show ((s.relock d l).dock d).reservation ≠ _
  rw [reserved]
  exact hr n

end Return

/-! ### The state left, by its steady view and its commands -/

section Left

variable {s t u u' : State} {d : Nat} {lock : LockPosition}

theorem Alike.setAttention (h : Alike s t) (c : AttentionCause) : Alike (s.setAttention c) (t.setAttention c) := by
  have raw (x : State) : Alike (x.setAttention c) { x with attention := x.attention.add c } := by
    by_cases hx : x.attention = x.attention.add c
    · rw [setAttention_same hx]
      exact of_eq (congrArg (fun a => ({ x with attention := a } : State)) hx)
    · rw [setAttention_changes hx]
      exact raise _
  refine (raw s).trans (Alike.trans ?_ (raw t).symm)
  exact (congrArg (fun x : State => ({ x with attention := x.attention.add c } : State)) h.eq :)

theorem Alike.makeFault (h : Alike s t) (f : FaultRecord) : Alike (s.makeFault f) (t.makeFault f) := by
  have faults : s.faults = t.faults := (congrArg State.faults h.eq :)
  have dropped : s.faultsDropped = t.faultsDropped := (congrArg State.faultsDropped h.eq :)
  unfold State.makeFault State.postFault
  rw [h.free, faults, dropped]
  split
  · exact (congrArg (fun x : State => ({ x with faultsDropped := 0 } : State)) (h.post _).eq :)
  · exact (congrArg (fun x : State => ({ x with
      faults := (joinFaults t.faults f).1
      faultsDropped := if (joinFaults t.faults f).2 then countUp t.faultsDropped else t.faultsDropped } : State)) h.eq :)

theorem reconciled_alike (h : Alike u u') (hd : u.dock d = u'.dock d) :
    Alike (s.reconciled d lock u) (s.reconciled d lock u') := by
  have issues : Alike (if (u.dock d).bike ≠ none ∧ lock = .unlocked then u.issue d .lock else u)
      (if (u'.dock d).bike ≠ none ∧ lock = .unlocked then u'.issue d .lock else u') := by
    rw [hd]
    split
    · exact (Alike.issue _ _).trans (h.trans (Alike.issue _ _).symm)
    · exact h
  have timers {x y : State} (hxy : Alike x y) :
      Alike ({ x with offlineAt := setEntry s.offlineAt d none, readerRuns := setEntry s.readerRuns d 0 } : State)
        { y with offlineAt := setEntry s.offlineAt d none, readerRuns := setEntry s.readerRuns d 0 } :=
    (congrArg (fun z : State =>
      ({ z with offlineAt := setEntry s.offlineAt d none, readerRuns := setEntry s.readerRuns d 0 } : State)) hxy.eq :)
  unfold State.reconciled
  dsimp only
  refine timers ?_
  rw [hd] at issues ⊢
  split
  · exact ((issues.putDock _ _).setAttention _).makeFault _
  · exact issues.putDock _ _

theorem reconciled_nodes (s u : State) (d : Nat) :
    (s.reconciled d lock u).nodes =
      (if (u.dock d).bike ≠ none ∧ lock = .unlocked then u.issue d .lock else u).nodes := by
  unfold State.reconciled
  dsimp only
  split
  · rw [State.makeFault_nodes, State.setAttention_nodes, State.putDock_nodes]
  · rw [State.putDock_nodes]

theorem reconciled_nodes_congr (hn : u.nodes = u'.nodes) (hc : (u.dock d).configured = (u'.dock d).configured)
    (hb : (u.dock d).bike ≠ none ↔ (u'.dock d).bike ≠ none) :
    (s.reconciled d lock u).nodes = (s.reconciled d lock u').nodes := by
  rw [reconciled_nodes, reconciled_nodes]
  by_cases hi : (u.dock d).bike ≠ none ∧ lock = .unlocked
  · rw [if_pos hi, if_pos ⟨hb.1 hi.1, hi.2⟩]
    exact issue_nodes hn hc
  · rw [if_neg hi, if_neg fun h => hi ⟨hb.2 h.1, h.2⟩]
    exact hn

end Left

end Sys2Proof.Machine
end

