-- ==== Sys2Proof/Proofs/Census.lean ====
section
/-! PROOFS. POLL and MISSED_POLL, the CENSUS of a node, and what a census makes of an OFFLINE dock (R2 to R4, R8, R10, R12, R13,
R18, R30, R31, R37, R57, R91, R103, R106, R122, R124, R197). -/

namespace Sys2Proof.Machine

/-! ### Polls (R2, R3, R10) -/

section Polls

variable {s : State} {n : Nat} {p : Poll} {r : NodeReply}

theorem poll_idle (h : (s.line n).count = 0 ∨ (s.line n).poll ≠ none) : s.poll n = s :=
  if_pos (h.imp_right Option.isSome_iff_ne_none.2)

/-- The state in which the next poll of a string's round has gone out, with the command it carries. -/
def State.polled (s : State) (n : Nat) (command : Option (Nat × Command)) : State :=
  s.putLine n
    { count := (s.line n).count, next := if (s.line n).count ≤ (s.line n).next then 1 else (s.line n).next + 1
      resetSent := false
      poll := some
        { address := (s.line n).next, censusMark := decide ((s.node (dockAt n (s.line n).next)).phase ≠ .answering)
          lastEvent := (s.node (dockAt n (s.line n).next)).lastEvent, command := command, windowAt := s.elapsed + 12 } }

theorem poll_eq (hc : 0 < (s.line n).count) (hp : (s.line n).poll = none) :
    s.poll n =
      match (s.node (dockAt n (s.line n).next)).toCarry with
      | some c => (s.polled n (some (c.number, c.command))).putNode (dockAt n (s.line n).next)
          { s.node (dockAt n (s.line n).next) with current := some (c.carry s.elapsed) }
      | none => s.polled n none := by
  have mark : ((s.node (dockAt n (s.line n).next)).phase != .answering) =
      decide ((s.node (dockAt n (s.line n).next)).phase ≠ .answering) := by
    cases (s.node (dockAt n (s.line n).next)).phase <;> rfl
  unfold State.poll State.polled
  dsimp only
  rw [if_neg (by rw [hp]; simp; omega), mark]
  cases (s.node (dockAt n (s.line n).next)).toCarry <;> rfl

theorem toCarry_none {x : Node} (h : x.phase ≠ .answering ∨ ∀ c, x.current = some c → c.acknowledged = true) :
    x.toCarry = none := by
  unfold Node.toCarry
  split
  · rename_i hp
    rcases h with h | h
    · exact absurd hp h
    · cases hc : x.current with
      | none => rfl
      | some c => simp [h c hc]
  · rfl

theorem toCarry_some {x : Node} {c : CurrentCommand} (hp : x.phase = .answering) (hc : x.current = some c)
    (ha : c.acknowledged = false) : x.toCarry = some c := by
  unfold Node.toCarry
  rw [if_pos hp, hc]
  simp [ha]

theorem missPoll_idle (h : (s.line n).poll = none ∨ ∃ p, (s.line n).poll = some p ∧ s.elapsed < p.windowAt) :
    s.missPoll n = s := by
  unfold State.missPoll
  rcases h with h | ⟨p, h, ht⟩
  · rw [h]
  · rw [h]
    exact if_neg (by omega)

theorem missPoll_ends (h : (s.line n).poll = some p) (ht : p.windowAt ≤ s.elapsed) : s.missPoll n = s.endPoll n := by
  unfold State.missPoll
  rw [h]
  exact if_pos ht

/-! ### Replies (R2, R3, R5, R8) -/

theorem accepts_iff {now : Nat} : p.accepts r now = true ↔ r.checkOk = true ∧ r.address = p.address ∧ now ≤ p.windowAt := by
  unfold Poll.accepts
  simp [and_assoc]

theorem hear_silent (h : (s.line n).poll = some p) (ha : p.accepts r s.elapsed = true)
    (hn : (s.node (dockAt n p.address)).phase ≠ .answering) :
    s.hear n r = (s.endPoll n).hearSilent (dockAt n p.address) r := by
  unfold State.hear
  rw [h]
  exact (if_pos ha).trans (if_neg hn)

theorem takePower_quiet {d : Nat} {x : PowerState} (h : x = .normal ∨ (s.node d).power = .low) :
    s.takePower d x = s.putNode d { s.node d with power := x } := by
  refine if_neg fun hc => ?_
  rcases h with h | h
  · rw [h] at hc
    cases hc.1
  · rw [h] at hc
    cases hc.2

theorem hearSilent_census {d number : Nat} {lock : LockPosition} {there : Bool} {image : Option (List Byte)}
    {cause : CensusCause} (he : r.event = some (number, .census lock there image cause))
    (hp : r.power = .normal ∨ (s.node d).power = .low) :
    s.hearSilent d r =
      ((s.putNode d { s.node d with
        phase := .answering, silenceAt := s.elapsed + 2000, counter := 1, lastEvent := some number, power := .normal
        censused := true }).reconcile d lock (censusPresent there image)).reportCensus := by
  have written := putNode_putNode s d (fun x => { x with
    phase := .answering, silenceAt := s.elapsed + 2000, counter := 1, lastEvent := some number, power := .normal
    censused := true }) { s.node d with power := r.power }
  unfold State.hearSilent
  rw [he]
  dsimp only
  rw [takePower_quiet hp]
  exact congrArg (fun t => (State.reconcile t d lock (censusPresent there image)).reportCensus) written

theorem takeCensus_restart {d : Nat} {lock : LockPosition} {present : Option (Option TagImage)} :
    s.takeCensus d lock present .restart =
      ((s.putNode d { s.node d with current := none, waiting := [], counter := 1, power := .normal, censused := true }).reconcile
        d lock present).reportCensus := by
  unfold State.takeCensus
  dsimp only
  rw [abandonCommands_eq]
  exact congrArg (fun t => (State.reconcile t d lock present).reportCensus)
    (putNode_putNode s d (fun x => { x with counter := 1, power := .normal, censused := true }) _)

end Polls

/-- Settles O45: a poll and a reply by their cases, and `reconcile_eq` for each case of the record that a census finds, whose
matching with that record may be done before its lock state is written. -/
theorem pollAndMissedPoll : Obligations.PollAndMissedPoll := by
  unfold Obligations.PollAndMissedPoll
  refine ⟨?_, ?_, ?_, ?_⟩
  · intro x s hs n l node
    refine ⟨fun h => exec_row (f := fun s => s.poll n) rfl hs (poll_idle h) rfl, fun hc hp => ?_⟩
    intro polled
    refine ⟨fun h => exec_row (f := fun s => s.poll n) rfl hs ?_ rfl, fun c hph hcur hack => ?_⟩
    · rw [poll_eq hc hp, toCarry_none h]
      rfl
    · intro carried
      refine exec_row (f := fun s => s.poll n) rfl hs ?_ rfl
      rw [poll_eq hc hp, toCarry_some hph hcur hack]
      have carries : c.carry s.elapsed = carried := by
        show (if _ then _ else _) = if _ then _ else _
        split
        · rfl
        · unfold Command.deadline
          cases c.command <;> rfl
      dsimp only
      rw [carries]
      rfl
  · intro x s hs
    exact ⟨fun p hp ht => exec_row (f := fun s => s.missPoll (stringNumber x)) rfl hs (missPoll_ends hp ht) rfl,
      fun h => exec_row (f := fun s => s.missPoll (stringNumber x)) rfl hs (missPoll_idle h) rfl⟩
  · intro number lock there image s found censused
    refine ⟨?_, fun d => ⟨rfl, takeCensus_restart⟩⟩
    intro x p r cause hs hp hok haddr hwin he d hphase hpow answering
    have running : ((answering.reconcile d lock found).reportCensus).power = s.power :=
      (Flow.power (State.reportCensus_flow (State.reconcile_flow (.refl) d lock found)) :)
    refine exec_row (f := fun s => s.hear (stringNumber x) r) rfl hs ?_ running
    rw [hear_silent hp (accepts_iff.2 ⟨hok, haddr, hwin⟩) hphase]
    exact hearSilent_census (s := s.endPoll (stringNumber x)) he hpow
  · intro d lock s h1 h64 sized hs hrel hres lockState lockedOut made after leaves gives put v
    have has : s.hasDock d := hasDock_of_range h1 (sized.1 ▸ h64)
    have leavesEq (u : State) : leaves u = s.reconciled d lock u := by cases lock <;> rfl
    have madeEq (id : Nat) : made id = .arrived id s.now := rfl
    have vUnbiked : Unbiked s v := Unbiked.vacated d .census
    have vHas : v.hasDock d := vUnbiked.hasDock.2 has
    have vNow : v.now = s.now := vUnbiked.now
    have vStanding : Standing s v d := standing_of_unbiked has vUnbiked
    have undelivered {u : State} (hu : Unbiked s u) : (u.relock d (lockOf lock)).undelivered d := by
      intro n
      rw [relock_dock (hu.hasDock.2 has)]
      show (u.dock d).reservation ≠ _
      rw [hu.reservation, hres]
      exact fun h => by cases h
    have ends {present : Option (Option TagImage)} {u : State}
        (hm : (s.relock d (lockOf lock)).matchCensus d present = u.relock d (lockOf lock)) (hu : Standing s u d) :
        gives present u := (reconcile_eq hs hm hu).trans (leavesEq u).symm
    have bike (e : Nat) := relock_bike (l := lockOf lock) has e
    have other {i : TagImage} (h : ∀ b, (s.dock d).bike = some b → b.id ≠ i.bike) :
        (s.relock d (lockOf lock)).matchCensus d (some (some i)) =
          (v.relock d (lockOf lock)).arrive d (some i) .census s.now.isNone := by
      rw [matchCensus_other (fun b hb => h b (by rw [← bike]; exact hb)), relock_vacated has]
      rfl
    have vRelocked : (v.relock d (lockOf lock)).hasDock d := redress_hasDock vHas
    have vElsewhere (id : Nat) : (v.relock d (lockOf lock)).bikeElsewhere d id = s.bikeElsewhere d id := by
      rw [relock_elsewhere vHas]
      exact vacated_elsewhere id
    have arrived {u : State} (hu : u.hasDock d) (hn : u.now = s.now) (id : Nat) :
        (u.relock d (lockOf lock)).landed d .census (.arrived id (u.relock d (lockOf lock)).now) =
          (put u (made id)).relock d (lockOf lock) := by
      rw [show (u.relock d (lockOf lock)).now = s.now from hn]
      exact relock_arrived hu _
    have conflicts {i : TagImage} (h : ∀ b, (s.dock d).bike = some b → b.id ≠ i.bike) (he : s.bikeElsewhere d i.bike = true) :
        gives (some (some i)) ((put v (made 0)).reportConflict d i.bike i.ref?) := by
      refine ends ?_ (standing_trans vStanding (standing_trans (standing_putBike vHas _)
        (standing_reportConflict (hasDock_putDock vHas) _ _)))
      rw [other h, arrive_conflict vRelocked (undelivered vUnbiked) (by rw [vElsewhere]; exact he), arrived vHas vNow]
      exact relock_reportConflict (hasDock_putDock vHas) _ _
    refine ⟨?_, fun b hb => ⟨?_, ?_, fun i hi => ?_⟩, fun hb => ?_, fun id hid => ⟨fun he => ?_, fun he => ⟨?_, fun i hi => ?_⟩,
      fun i hi he hh hl hw => ?_⟩⟩
    · refine ends ?_ vStanding
      rw [matchCensus_gone, relock_vacated has]
    · refine ends ?_ (standing_reportTag has)
      rw [matchCensus_unread ((bike d).trans hb), relock_reportTag has]
    · exact ends (matchCensus_own ((bike d).trans hb)) (standing_refl has)
    · refine ends ?_ (standing_issue has _)
      rw [matchCensus_own_onHire ((bike d).trans hb) hi, relock_issue has]
    · refine ends ?_ (standing_trans (standing_putBike has _) (standing_reportTag (hasDock_putDock has)))
      rw [matchCensus_unread_bare ((bike d).trans hb), arrive_unreadable (s := s.relock d _) (redress_hasDock has) (undelivered (.refl s)),
        arrived has rfl]
      exact relock_reportTag (hasDock_putDock has)
    · refine ends ?_ (standing_trans vStanding (standing_putBike vHas _))
      rw [other (i := .idle id) hid, arrive_idle_uncounted vRelocked (by rw [vElsewhere]; exact he)
        (.inr ⟨by decide, undelivered vUnbiked⟩), arrived vHas vNow]
    · exact conflicts (i := .idle id) hid he
    · subst hi
      exact conflicts (i := .onHire i) hid he
    · intro close returned
      subst hi
      have vHeld : v.heldAt i.bikeId = none := by
        show (s.vacated d .census).heldAt _ = none
        unfold State.vacated
        split
        · exact hh
        · dsimp only
          rw [State.putDock_heldAt]
          unfold State.settleDock
          split
          · split
            · unfold State.finaliseBike
              split
              · exact heldAt_finalise hh _ _
              · exact hh
            · exact hh
          · exact hh
      have window : v.settings = s.settings := vUnbiked.settings
      have closeEq : v.closeOf i d (decide (v.stock < v.settings.lowMark)) s.now.isNone = close := by
        unfold State.closeOf
        rw [vUnbiked.tariffs, vUnbiked.plans, window, vNow]
      let u := (v.broughtBack d i .census).entered close i.bikeId d
      have settles : s.reconcile d lock (some (some (.onHire i))) = s.reconciled d lock u := by
        refine reconcile_eq hs ?_ (standing_trans vStanding (Standing.broughtBack vHas close))
        rw [other (i := .onHire i) hid, relock_returns vHas ?_ (by rw [← relock_elsewhere vHas, vElsewhere]; exact he) vHeld hl
          (window ▸ hw), closeEq]
        intro n
        have := undelivered vUnbiked n
        rwa [relock_dock vHas] at this
      have entry : v.newEntry close i.bikeId d =
          { close := close, waiver := none, stage := .held i.bikeId d (s.elapsed + s.settings.settleWindow * 1000) } := by
        unfold State.newEntry
        rw [vUnbiked.elapsed, window]
      have struck : v.struckAt d i .census = (put v { made i.bikeId with settling := true }).struckOff i.ref := by
        unfold State.struckAt
        rw [docked_census, vNow]
        rfl
      have alike : Alike u returned := by
        have entered := entered_alike (i := i) (found := .census) (close := close) vHas
        rw [entry, struck] at entered
        exact entered
      have uDock : u.dock d = { v.dock d with bike := some { made i.bikeId with settling := true } } := by
        refine (broughtBack_dock vHas d).trans ((if_pos rfl).trans ?_)
        rw [docked_census, vNow]
        rfl
      have returnedDock : returned.dock d = { v.dock d with bike := some { made i.bikeId with settling := true } } := by
        show ((put v { made i.bikeId with settling := true }).struckOff i.ref).dock d = _
        rw [(struckOff_struck _ _).dock]
        exact dock_putDock_has vHas
      rw [settles, leavesEq, leavesEq]
      refine ⟨reconciled_alike alike (uDock.trans returnedDock.symm), reconciled_nodes_congr ?_ ?_ ?_⟩
      · show (v.broughtBack d i .census).nodes = _
        rw [broughtBack_nodes, arrivedOnHire_census vHas, vNow]
        rfl
      · rw [uDock, dock_issue]
        show _ = ((put v (made i.bikeId)).dock d).configured
        rw [show (put v (made i.bikeId)).dock d = _ from dock_putDock_has vHas]
      · rw [uDock, dock_issue]
        show _ ↔ ((put v (made i.bikeId)).dock d).bike ≠ none
        rw [show (put v (made i.bikeId)).dock d = _ from dock_putDock_has vHas]
        exact iff_of_true (Option.some_ne_none _) (Option.some_ne_none _)

end Sys2Proof.Machine
end

