-- ==== Sys2Proof/Proofs/OnlineCensus.lean ====
section
/-! PROOFS. A census that reconciles a dock in service, and the census of an OVERFLOW (R8, R36 to R38). -/

namespace Sys2Proof.Machine

section Online

variable {s u : State} {d : Nat} {g : Dock → Dock} {o : List (Option Nat)} {ds : List Dock} {x y : Dock}
  {lock : LockPosition} {present : Option (Option TagImage)}

/-! ### A dock rewritten with DOCK_STATE raised -/

theorem putDock_withDocks : (s.putDock d x).withDocks ds o true = s.withDocks ds o true := by
  unfold State.putDock
  dsimp only
  split <;> rfl

theorem withDocks_putDock : (s.withDocks ds o true).putDock d x = s.withDocks (setEntry ds d x) o true := by
  unfold State.putDock
  dsimp only
  split <;> rfl

theorem redress_putDock : (s.redress d g o true).putDock d y = s.withDocks (setEntry s.docks d y) o true := by
  unfold State.redress
  rw [withDocks_putDock, setEntry_setEntry]

/-- A write of the same dock with the same rewriting, DOCK_STATE being raised. -/
theorem putDock_redress_raised (h : s.hasDock d) (x : Dock) :
    (s.redress d g o true).putDock d (g x) = (s.putDock d x).redress d g o true := by
  rw [redress_putDock]
  unfold State.redress
  rw [dock_putDock_has h, putDock_withDocks, State.putDock_docks, setEntry_setEntry]

theorem redress_putBike (hg : Redresses g) (h : s.hasDock d) (b : Option Bike) :
    (s.redress d g o true).putDock d { (s.redress d g o true).dock d with bike := b } =
      (s.putDock d { s.dock d with bike := b }).redress d g o true := by
  rw [redress_dock h, if_pos rfl]
  exact (congrArg (State.putDock _ d) (hg.bike (s.dock d) b).symm).trans (putDock_redress_raised h { s.dock d with bike := b })

theorem redress_vacated (hg : Redresses g) (h : s.hasDock d) (reason : EarlyReason) :
    (s.redress d g o true).vacated d reason = (s.vacated d reason).redress d g o true := by
  cases hb : (s.dock d).bike with
  | none => rw [vacated_none hb, vacated_none ((redress_bike hg h d).trans hb)]
  | some b =>
    rw [vacated_some hb, vacated_some ((redress_bike hg h d).trans hb)]
    unfold State.discardBike State.editDock
    rw [settleDock_redress hg h]
    exact redress_putBike hg ((Settled.settleDock (s := s) d reason).hasDock.2 h) none

/-! ### A dock taken OFFLINE, and its lock state of the census -/

/-- A dock OFFLINE with the lock state of its census, its reservation standing. -/
def Dock.felled (l : LockState) (x : Dock) : Dock :=
  { x with
    state := .offline, lock := l, release := none, windowAt := none, relockAt := none, lockoutPending := false, shown := none }

theorem felled_redresses (l : LockState) : Redresses (Dock.felled l) := ⟨fun _ _ => rfl, fun _ => rfl⟩

/-- The offline timers with that of a dock started, outside the census phase (R127). -/
def State.offlineFrom (s : State) (d : Nat) : List (Option Nat) :=
  if s.censusLimit = none then setEntry s.offlineAt d (some (s.elapsed + 5000)) else s.offlineAt

theorem offlineFrom_cancel (s : State) (d : Nat) : setEntry (s.offlineFrom d) d none = setEntry s.offlineAt d none := by
  unfold State.offlineFrom
  split
  · rw [setEntry_setEntry]
  · rfl

/-- A dock in service is first taken OFFLINE (R36, R37). -/
theorem takeOffline_felled (h : s.hasDock d) (hs : (s.dock d).state ≠ .offline) (hr : (s.dock d).release = none)
    (hu : (s.dock d).reservation = .unreserved) (l : LockState) :
    (s.takeOffline d false).editDock d (fun x => { x with lock := l }) =
      s.redress d (Dock.felled l) (s.offlineFrom d) true := by
  have raised : s.fallen d = s.withDocks (setEntry s.docks d { s.dock d with
      state := .offline, release := none, windowAt := none, relockAt := none, lockoutPending := false, shown := none })
      s.offlineAt true := by
    refine (if_neg fun hc => hs ?_).trans rfl
    exact (congrArg Prod.fst hc :)
  have fell : s.takeOffline d false = s.withDocks (setEntry s.docks d { s.dock d with
      state := .offline, release := none, windowAt := none, relockAt := none, lockoutPending := false, shown := none })
      (s.offlineFrom d) true := by
    rw [takeOffline_unreleased h hr, loseReservation_unreserved (by rw [fallen_dock h]; exact hu)]
    unfold State.offlined State.offlineFrom
    rw [if_neg Bool.false_ne_true, startOffline_eq, raised]
    show (if s.censusLimit = none then _ else _) = _
    split <;> rfl
  have dock : (s.takeOffline d false).dock d = { s.dock d with
      state := .offline, release := none, windowAt := none, relockAt := none, lockoutPending := false, shown := none } := by
    rw [fell]
    exact (dock_setEntry s d d _).trans (if_pos ⟨rfl, h⟩)
  unfold State.editDock
  rw [dock, fell, withDocks_putDock, setEntry_setEntry]
  rfl

/-! ### What the census leaves -/

/-- The state in which a census leaves a dock in service. -/
def State.restored (s u : State) (d : Nat) (lock : LockPosition) (after : DockState) (b : Option Bike) : State :=
  { ((if after = .relocking then u.issue d .lock else u).putDock d { s.dock d with
      lock := lockOf lock, state := after, bike := b, windowAt := none, relockAt := none, lockoutPending := false
      shown := none }).raise .dockState with
    offlineAt := setEntry s.offlineAt d none, readerRuns := setEntry s.readerRuns d 0 }

theorem restored_over (h : u.hasDock d) (after : DockState) (b b' : Option Bike) :
    s.restored (u.putDock d { u.dock d with bike := b' }) d lock after b = s.restored u d lock after b := by
  have twice (t : State) (x y : Dock) : ((t.putDock d x).putDock d y).raise .dockState = (t.putDock d y).raise .dockState := by
    have raised (t : State) (x : Dock) : (t.putDock d x).raise .dockState = t.withDocks (setEntry t.docks d x) t.offlineAt true := by
      unfold State.putDock
      dsimp only
      split <;> rfl
    rw [raised, raised, putDock_withDocks, State.putDock_docks, State.putDock_offlineAt, setEntry_setEntry]
  have issued : (u.putDock d { u.dock d with bike := b' }).issue d .lock =
      (u.issue d .lock).putDock d { u.dock d with bike := b' } := (issue_putDock (x := { u.dock d with bike := b' }) rfl h).symm
  unfold State.restored
  split
  · rw [issued, twice]
  · rw [twice]

theorem Unbiked.dock_eq (h : Unbiked s u) (d : Nat) : u.dock d = { s.dock d with bike := (u.dock d).bike } := by
  have bare := h.dock_bare d
  have fill (x y : Dock) (hxy : x.bare = y.bare) : x = { y with bike := x.bike } := by
    cases x
    cases y
    unfold Dock.bare at hxy
    simp_all
  exact fill _ _ bare

theorem reconcile_restores {after : DockState} (h : s.hasDock d) (hs : (s.dock d).state ≠ .offline)
    (hr : (s.dock d).release = none) (hu : (s.dock d).reservation = .unreserved)
    (hl : s.settings.dockFaultLimit = 0 ∨ (s.dock d).counter < s.settings.dockFaultLimit)
    (hm : (s.redress d (Dock.felled (lockOf lock)) (s.offlineFrom d) true).matchCensus d present =
      u.redress d (Dock.felled (lockOf lock)) (s.offlineFrom d) true)
    (hb : Unbiked s u)
    (ha : after = if (u.dock d).bike = none then .empty else if lock = .unlocked then .relocking else .occupied) :
    s.reconcile d lock present = s.restored u d lock after (u.dock d).bike := by
  have uHas : u.hasDock d := hb.hasDock.2 h
  have redressed (v : State) (hv : v.hasDock d) :
      (v.redress d (Dock.felled (lockOf lock)) (s.offlineFrom d) true).dock d = (v.dock d).felled (lockOf lock) :=
    (redress_dock hv d).trans (if_pos rfl)
  have relocking_iff : after = .relocking ↔ ((u.dock d).bike.isSome = true ∧ lock = .unlocked) := by
    rw [ha]
    by_cases hn : (u.dock d).bike = none
    · simp [hn]
    · rw [if_neg hn, Option.isSome_iff_ne_none]
      split <;> simp_all
  let v := if after = .relocking then u.issue d .lock else u
  have vHas : v.hasDock d := by
    show (if _ then _ else _ : State).hasDock d
    split
    · exact (Dockwise.issue d _).hasDock.2 uHas
    · exact uHas
  have vDock : v.dock d = u.dock d := by
    show (if _ then _ else _ : State).dock d = _
    split
    · exact dock_issue
    · rfl
  have vFrame : v.settings = s.settings ∧ v.readerRuns = s.readerRuns := by
    show (if _ then _ else _ : State).settings = _ ∧ (if _ then _ else _ : State).readerRuns = _
    split
    · exact ⟨(State.issue_settings ..).trans hb.settings, (State.issue_readerRuns ..).trans hb.readerRuns⟩
    · exact ⟨hb.settings, hb.readerRuns⟩
  have issues : (if ((u.redress d (Dock.felled (lockOf lock)) (s.offlineFrom d) true).dock d).bike.isSome ∧ lock = .unlocked then
      (u.redress d (Dock.felled (lockOf lock)) (s.offlineFrom d) true).issue d .lock
      else u.redress d (Dock.felled (lockOf lock)) (s.offlineFrom d) true) =
      v.redress d (Dock.felled (lockOf lock)) (s.offlineFrom d) true := by
    rw [redressed u uHas]
    by_cases hc : after = .relocking
    · rw [show v = u.issue d .lock from if_pos hc]
      exact (if_pos (relocking_iff.1 hc)).trans (issue_redress (felled_redresses _) uHas _)
    · rw [show v = u from if_neg hc]
      exact if_neg fun h => hc (relocking_iff.2 h)
  have counter : (u.dock d).counter = (s.dock d).counter := hb.counter d
  have state : (v.redress d (Dock.felled (lockOf lock)) (s.offlineFrom d) true).censusState d = after := by
    unfold State.censusState
    dsimp only
    rw [redressed v vHas, vDock, show (v.redress d _ _ _).settings = v.settings from rfl, vFrame.1, ha]
    refine (if_neg ?_).trans (if_congr Option.isNone_iff_eq_none rfl (if_congr lockOf_unlocked rfl rfl))
    show ¬ (_ ∧ _ ≤ (u.dock d).counter)
    rw [counter]
    omega
  have dressed : ({ (u.dock d).felled (lockOf lock) with state := after, shown := none } : Dock) =
      { s.dock d with
        lock := lockOf lock, state := after, bike := (u.dock d).bike, windowAt := none, relockAt := none
        lockoutPending := false, shown := none } := by
    rw [hb.dock_eq d]
    unfold Dock.felled
    dsimp only
    rw [hr]
  have written : (v.redress d (Dock.felled (lockOf lock)) (s.offlineFrom d) true).editDock d (fun x => { x with
      state := (v.redress d (Dock.felled (lockOf lock)) (s.offlineFrom d) true).censusState d, shown := none }) =
      v.withDocks (setEntry v.docks d { s.dock d with
        lock := lockOf lock, state := after, bike := (u.dock d).bike, windowAt := none, relockAt := none
        lockoutPending := false, shown := none }) (s.offlineFrom d) true := by
    unfold State.editDock
    rw [redressed v vHas, vDock, state]
    exact (congrArg (State.putDock _ d) dressed).trans redress_putDock
  have open_ : after ≠ .lockedOut := by
    rw [ha]
    split
    · decide
    · split <;> decide
  unfold State.reconcile
  rw [if_neg hs]
  dsimp only
  rw [takeOffline_felled h hs hr hu, hm, issues, written,
    show (v.withDocks (setEntry v.docks d _) (s.offlineFrom d) true).dock d = _ from
      (dock_setEntry v d d _).trans (if_pos ⟨rfl, vHas⟩), if_neg open_]
  unfold State.cancelOffline State.putRun
  show ({ v.withDocks _ _ true with
    offlineAt := setEntry (s.offlineFrom d) d none, readerRuns := setEntry v.readerRuns d 0 } : State) = _
  rw [offlineFrom_cancel, vFrame.2]
  show _ = ({ (v.putDock d _).raise .dockState with
    offlineAt := setEntry s.offlineAt d none, readerRuns := setEntry s.readerRuns d 0 } : State)
  unfold State.putDock
  dsimp only
  split <;> rfl

/-! ### The census phase (R197) -/

theorem reportCensus_quiet
    (h : s.censusReported = true ∨
      ∃ e ∈ dockNumbers, (s.dock e).configured = true ∧ (s.node e).censused = false) : s.reportCensus = s := by
  refine if_pos (h.imp_right fun ⟨e, he, hc, hn⟩ => ?_)
  unfold State.allCensused
  rw [List.all_eq_false]
  exact ⟨e, he, by simp [hc, hn]⟩

theorem node_issue_ne {e : Nat} (h : e ≠ d) (c : Command) : (s.issue d c).node e = s.node e := by
  rw [State.issue_eq]
  split
  · rw [node_putNode, if_neg fun hc => h hc.1]
  · rfl

theorem written_frame (v : State) (x : Dock) (o : List (Option Nat)) (r : List Nat) :
    let w : State := { (v.putDock d x).raise .dockState with offlineAt := o, readerRuns := r }
    w.censusReported = v.censusReported ∧ (∀ e, e ≠ d → w.dock e = v.dock e) ∧ ∀ e, w.node e = v.node e := by
  intro w
  have same := (Dockwise.putDock (s := v) d x).same
  refine ⟨(congrArg State.censusReported same :), fun e he => (dock_putDock_ne he : (v.putDock d x).dock e = v.dock e), fun e => ?_⟩
  show ((v.putDock d x).node e) = _
  unfold State.node
  rw [State.putDock_nodes]

/-- A census that is not the last one due leaves the census phase as it is. -/
theorem restored_quiet {after : DockState} {b : Option Bike} (hb : Unbiked s u)
    (h : s.censusReported = true ∨
      ∃ e ∈ dockNumbers, e ≠ d ∧ (s.dock e).configured = true ∧ (s.node e).censused = false) :
    (s.restored u d lock after b).reportCensus = s.restored u d lock after b := by
  let v := if after = .relocking then u.issue d .lock else u
  have vReported : v.censusReported = s.censusReported := by
    have reported : u.censusReported = s.censusReported := (congrArg State.censusReported hb.same :)
    show (if _ then _ else _ : State).censusReported = _
    split
    · exact (congrArg State.censusReported (Dockwise.issue (s := u) d .lock).same :).trans reported
    · exact reported
  have vDock (e : Nat) : v.dock e = u.dock e := by
    show (if _ then _ else _ : State).dock e = _
    split
    · exact dock_issue
    · rfl
  have vNode {e : Nat} (he : e ≠ d) : v.node e = s.node e := by
    show (if _ then _ else _ : State).node e = _
    split
    · exact (node_issue_ne he _).trans (hb.node e)
    · exact hb.node e
  refine reportCensus_quiet (h.imp (fun hr => ?_) fun ⟨e, he, hne, hc, hn⟩ => ⟨e, he, ?_, ?_⟩)
  · exact (written_frame v _ _ _).1.trans (vReported.trans hr)
  · exact (congrArg Dock.configured ((written_frame v _ _ _).2.1 e hne)).trans
      ((congrArg Dock.configured (vDock e)).trans ((hb.configured e).trans hc))
  · exact (congrArg Node.censused (((written_frame v _ _ _).2.2 e).trans (vNode hne))).trans hn

/-! ### The census of an OVERFLOW (R38) -/

theorem overflowPresence_eq (there : Bool) (image : Option (List Byte)) :
    s.overflowPresence d (censusPresent there image) =
      match (s.dock d).bike with
      | none => if there then s.onPresent d (image.bind tagImage) else s
      | some b =>
        if there = false then s.onRemoved d .census
        else match image.bind tagImage with
          | none => s
          | some i => if i.bike = b.id then s else (s.onRemoved d .census).onPresent d (some i) := by
  unfold State.overflowPresence censusPresent
  cases there <;> cases (s.dock d).bike <;> cases image.bind tagImage <;> rfl

end Online

end Sys2Proof.Machine
end

