-- ==== Sys2Proof/Proofs/LockEventsAndArrival.lean ====
section
/-! PROOFS. The lock events, the arrival of a bike at an EMPTY dock, the deliveries of a session, and the census of a node in
service (R8, R18, R19, R26, R28 to R38, R53, R106, R122, R126, R130, R143, R144, R149, R150, R152, R153). -/

namespace Sys2Proof.Machine

section Empty

variable {s : State} {d : Nat}

/-- The state in which a bike has arrived at an EMPTY dock, with its reservation as given. -/
def State.berthed (s : State) (d : Nat) (b : Bike) (r : Reservation) : State :=
  if (s.dock d).lock = .locked then
    s.putDock d { s.dock d with
      state := if (s.dock d).lock = .locked then .occupied else .relocking, bike := some b, reservation := r }
  else
    (s.putDock d { s.dock d with
      state := if (s.dock d).lock = .locked then .occupied else .relocking, bike := some b, reservation := r }).issue d .lock

theorem docked_empty (h : (s.dock d).state = .empty) (b : Bike) :
    (s.dock d).docked .empty b =
      { s.dock d with state := if (s.dock d).lock = .locked then .occupied else .relocking, bike := some b } := by
  unfold Dock.docked
  rw [if_pos ⟨by decide, by rw [h]; decide⟩]

theorem landed_empty (h : (s.dock d).state = .empty) (b : Bike) :
    s.landed d .empty b = s.berthed d b (s.dock d).reservation := by
  unfold State.landed State.berthed
  rw [docked_empty h]
  by_cases hl : (s.dock d).lock = .locked
  · rw [if_neg fun hc => hc.2.1 hl]
    exact (if_pos hl).symm
  · rw [if_pos ⟨by decide, hl, fun hc => by rw [h] at hc; cases hc⟩]
    exact (if_neg hl).symm

theorem onPresent_empty (h : (s.dock d).state = .empty) (image : Option TagImage) :
    s.onPresent d image = s.arrive d image .empty false := by
  unfold State.onPresent
  dsimp only
  rw [h]

theorem undelivered_of (h : (s.dock d).reservation = .unreserved) : s.undelivered d := by
  intro n
  rw [h]
  exact fun h => by cases h

theorem landed_dock_ne {c : Nat} (h : c ≠ d) (found : Found) (b : Bike) : (s.landed d found b).dock c = s.dock c := by
  unfold State.landed
  split
  · rw [dock_issue, dock_putDock_ne h]
  · exact dock_putDock_ne h

theorem berthed_alike (b : Bike) (r : Reservation) :
    Alike (s.berthed d b r) (s.putDock d { s.dock d with
      state := if (s.dock d).lock = .locked then .occupied else .relocking, bike := some b, reservation := r }) := by
  unfold State.berthed
  split
  · exact Alike.refl _
  · exact Alike.issue _ _

/-- What a delivery leaves of the dock that received the bike, its reservation dropped. -/
theorem berthed_dropped (h : s.hasDock d) (hs : (s.dock d).state = .empty) (b : Bike) :
    Alike ((s.landed d .empty b).putDock d { (s.landed d .empty b).dock d with reservation := .unreserved })
      (s.berthed d b .unreserved) := by
  rw [landed_dock h, docked_empty hs, landed_empty hs]
  exact ((berthed_alike b _).putDock d _).trans ((Alike.putDock_putDock d _ _).trans (berthed_alike b _).symm)

/-- What a delivery leaves of the dock whose reservation is dropped for it. -/
theorem berthed_shifted {e : Nat} (hed : e ≠ d) (hs : (s.dock d).state = .empty) (hr : (s.dock d).reservation = .unreserved) (b : Bike) :
    Alike ((s.landed d .empty b).putDock e { (s.landed d .empty b).dock e with reservation := .unreserved })
      ((s.berthed d b .unreserved).putDock e { s.dock e with reservation := .unreserved }) := by
  have other : (s.landed d .empty b).dock e = s.dock e := landed_dock_ne hed _ _
  rw [other, landed_empty hs, hr]
  exact Alike.refl _

end Empty

/-! ### Deliveries at an EMPTY dock (R143, R144) -/

section Deliveries

variable {s : State} {d e n id : Nat} {m : ManifestEntry}

/-- The session with a delivery counted. -/
def State.delivering (s : State) (n : Nat) (m : ManifestEntry) : Van :=
  s.van.counted n m (s.elapsed + s.settings.vanIdleTimeout * 1000)

theorem summed_delivering {u : State} (hm : entryAt s.van.manifest n = some m) (hu : u.van = s.delivering n m) :
    u.summed { endedBy := .exhaustion, outcome := .exhausted, time := s.now } =
      { u.post (.vanSummary
          { session := s.van.session, van := s.van.van, crew := s.van.crew, opened := s.van.opened
            ending := { endedBy := .exhaustion, outcome := .exhausted, time := s.now }
            short := s.van.manifest.any (fun x => 0 < x.short), dropped := s.van.dropped
            results := setEntry s.van.manifest n { m with done := m.done + 1 } }) with
        van := .idleWith s.van.counter } := by
  have summary : u.van.summaryOf { endedBy := .exhaustion, outcome := .exhausted, time := s.now } =
      { (s.delivering n m).summaryOf { endedBy := .exhaustion, outcome := .exhausted, time := s.now } with
        short := s.van.manifest.any (fun x => decide (0 < x.short)) } := by
    rw [hu, ← any_short_done hm]
    rfl
  unfold State.summed
  rw [summary, hu]
  rfl

theorem countMove_dock {bike : Nat} {collect : Bool} {reserved : Option Bool} (hm : s.van.moves = []) (hf : 0 < s.free)
    (he : entryAt s.van.manifest n = some m) (d : Nat) (x : Nat) :
    (s.countMove collect n d bike reserved).dock x = s.dock x := by
  rw [countMove_eq hm hf he]
  exact State.post_dock ..

/-- When a session goes on after a delivery. -/
def State.goesOn (s : State) (n : Nat) (m : ManifestEntry) : Prop :=
  s.van.phase = .reserving ∨ ∃ x ∈ setEntry s.van.manifest n { m with done := m.done + 1 }, x.done ≠ x.target

/-- When a delivery ends it with its summary posted. -/
def State.endsNow (s : State) (n : Nat) (m : ManifestEntry) : Prop :=
  s.van.phase = .active ∧ (∀ x ∈ setEntry s.van.manifest n { m with done := m.done + 1 }, x.done = x.target) ∧
    s.vanReleases = [] ∧ s.van.summary = none ∧ 1 < s.free

theorem landed_reservation (h : s.hasDock d) (b : Bike) (c : Nat) :
    ((s.landed d .empty b).dock c).reservation = (s.dock c).reservation := by
  by_cases hcd : c = d
  · rw [hcd, landed_dock h]
    rfl
  · rw [landed_dock_ne hcd]

theorem landed_vanReleases (h : s.hasDock d) (b : Bike) : (s.landed d .empty b).vanReleases = s.vanReleases := by
  refine vanReleases_congr fun c _ => ?_
  by_cases hcd : c = d
  · rw [hcd, landed_dock h]
    rfl
  · rw [landed_dock_ne hcd]

/-- A delivery counted behind the bike landed, and the reservation of dock `e` dropped for it. -/
theorem landed_delivers {u : State} {b : Bike} (h : s.hasDock d) (hm : entryAt s.van.manifest n = some m)
    (hmoves : s.van.moves = []) (hf : 0 < s.free) (reserved : Option Bool)
    (hu : Alike ((s.landed d .empty b).putDock e { (s.landed d .empty b).dock e with reservation := .unreserved }) u) :
    (s.goesOn n m →
      Alike ((((s.landed d .empty b).countMove false n d id reserved).putReservation e .unreserved).restartIdle).endIfMet
        (u.moved (s.delivering n m) (s.van.moveOf false n d id s.now reserved))) ∧
      (s.endsNow n m → (∀ c ∈ dockNumbers, c ≠ e → (s.dock c).reservation = .unreserved) →
        Alike ((((s.landed d .empty b).countMove false n d id reserved).putReservation e .unreserved).restartIdle).endIfMet
          ((u.moved (s.delivering n m) (s.van.moveOf false n d id s.now reserved)).summed
            { endedBy := .exhaustion, outcome := .exhausted, time := s.now })) := by
  have step := landed_dockwise s d .empty b
  have counts := delivered_alike (s := s.landed d .empty b) (d := d) (id := id) (m := m)
    (by rw [step.van]; exact hmoves) (by rw [step.free]; exact hf) (by rw [step.van]; exact hm) reserved e
  dsimp only at counts
  rw [step.van, step.elapsed, step.settings, step.now, landed_vanReleases h, step.free] at counts
  refine ⟨fun hg => (counts.1 hg).trans (hu.moved _ _), fun he' hun => ?_⟩
  obtain ⟨hact, hmet, hrel, hsum, hf1⟩ := he'
  exact (counts.2 hact hmet hrel hsum hf1 fun c hmem hne => (landed_reservation h b c).trans (hun c hmem hne)).trans
    ((hu.moved _ _).summed _)

section Present

variable (h : s.hasDock d) (hs : (s.dock d).state = .empty) (he : s.bikeElsewhere d id = false)
  (hp : s.van.phase = .reserving ∨ s.van.phase = .active) (hm : entryAt s.van.manifest n = some m)
  (hmoves : s.van.moves = []) (hf : 0 < s.free)
include h hs he hp hm hmoves hf

/-- A bike at a dock reserved for DELIVER is the delivery of its entry. -/
theorem present_reserved (hr : (s.dock d).reservation = .deliver n) :
    (s.goesOn n m →
      Alike (s.onPresent d (some (.idle id)))
        ((s.berthed d (.arrived id s.now) .unreserved).moved (s.delivering n m) (s.van.moveOf false n d id s.now (some true)))) ∧
      (s.endsNow n m → (∀ c ∈ dockNumbers, c ≠ d → (s.dock c).reservation = .unreserved) →
        Alike (s.onPresent d (some (.idle id)))
          (((s.berthed d (.arrived id s.now) .unreserved).moved (s.delivering n m)
            (s.van.moveOf false n d id s.now (some true))).summed
              { endedBy := .exhaustion, outcome := .exhausted, time := s.now })) := by
  have step := landed_dockwise s d .empty (.arrived id s.now)
  have present : s.onPresent d (some (.idle id)) = _ :=
    (onPresent_empty hs _).trans ((arrive_idle h he).trans
      (vanArrival_delivers (by rw [step.van]; exact hp) ((landed_reservation h _ d).trans hr) true))
  rw [present]
  exact landed_delivers h hm hmoves hf (some true) (berthed_dropped h hs _)

/-- A bike at an unreserved dock is the delivery of the first entry that wants one, whose highest reserved dock is dropped. -/
theorem present_unreserved (hmem : e ∈ dockNumbers) (hr : (s.dock d).reservation = .unreserved) (hk : m.kind = .deliver)
    (ht : m.done < m.target)
    (hfirst : ∀ k x, k < n → entryAt s.van.manifest k = some x → x.kind = .deliver → x.target ≤ x.done)
    (hre : (s.dock e).reservation = .deliver n)
    (hlast : ∀ c ∈ dockNumbers, e < c → (s.dock c).reservation ≠ .deliver n ∧ (s.dock c).reservation ≠ .collect n) :
    (s.goesOn n m →
      Alike (s.onPresent d (some (.idle id)))
        (((s.berthed d (.arrived id s.now) .unreserved).putDock e { s.dock e with reservation := .unreserved }).moved
          (s.delivering n m) (s.van.moveOf false n d id s.now (some false)))) ∧
      (s.endsNow n m → (∀ c ∈ dockNumbers, c ≠ e → (s.dock c).reservation = .unreserved) →
        Alike (s.onPresent d (some (.idle id)))
          ((((s.berthed d (.arrived id s.now) .unreserved).putDock e { s.dock e with reservation := .unreserved }).moved
            (s.delivering n m) (s.van.moveOf false n d id s.now (some false))).summed
              { endedBy := .exhaustion, outcome := .exhausted, time := s.now })) := by
  have hed : e ≠ d := by
    rintro rfl
    rw [hr] at hre
    cases hre
  have step := landed_dockwise s d .empty (.arrived id s.now)
  have wanted : (s.landed d .empty (.arrived id s.now)).wantedDeliver = some n :=
    wantedDeliver_first (by rw [step.van]; exact hm) hk ht (by rw [step.van]; exact hfirst)
  have countedDock (c : Nat) : ((s.landed d .empty (.arrived id s.now)).countMove false n d id (some false)).dock c =
      (s.landed d .empty (.arrived id s.now)).dock c :=
    countMove_dock (by rw [step.van]; exact hmoves) (by rw [step.free]; exact hf) (by rw [step.van]; exact hm) _ _
  have dropped : ((s.landed d .empty (.arrived id s.now)).countMove false n d id (some false)).dropHighest n =
      ((s.landed d .empty (.arrived id s.now)).countMove false n d id (some false)).putReservation e .unreserved := by
    refine dropHighest_eq hmem (by rw [countedDock, landed_reservation h]; exact hre) fun c hc hlt => ?_
    rw [countedDock, landed_reservation h]
    exact hlast c hc hlt
  have present : s.onPresent d (some (.idle id)) = _ :=
    (onPresent_empty hs _).trans ((arrive_idle h he).trans
      (vanArrival_unreserved (by rw [step.van]; exact hp) ((landed_reservation h _ d).trans hr) wanted))
  rw [present, dropped]
  exact landed_delivers h hm hmoves hf (some false) (berthed_shifted hed hs hr _)

end Present

end Deliveries

/-- Settles O49: the lock events by the dock's state; an arrival as the bike landed in its dock, with the report, the conflict or
the delivery counted that follows; and a census by `reconcile_restores`. -/
theorem lockEventsAndArrival : Obligations.LockEventsAndArrival := by
  unfold Obligations.LockEventsAndArrival
  refine ⟨?_, ?_, ?_, ?_⟩
  · intro d s h1 hl
    have h := hasDock_of_range h1 hl
    refine ⟨fun hs => ⟨_, rfl, onLocked_relocking h hs⟩, onLocked_other,
      fun r hirer issue ref image hs hr hp hn ho hp' hf => onLocked_lapses hs hr hp hn ho hp' hf,
      fun image hs => onPresent_ignored hs, fun b i hs hb hid => onPresent_same hs hb ?_,
      fun hs => ⟨_, rfl, onUnlocked_unlocking h hs⟩, fun hs => ⟨_, onUnlocked_occupied h hs, rfl⟩, onUnlocked_other⟩
    rw [hid]
    cases i <;> rfl
  · intro d id s h1 hl hs hr hv he bike
    have h := hasDock_of_range h1 hl
    have arrives : s.onPresent d (some (.idle id)) = s.berthed d bike (s.dock d).reservation := by
      rw [onPresent_empty hs, arrive_idle_uncounted h he (.inl (by rw [hv]; rfl)), landed_empty hs]
      rfl
    refine ⟨fun hlock => arrives.trans ((if_pos hlock).trans ?_), fun hlock => arrives.trans ((if_neg hlock).trans ?_)⟩
    · rw [if_pos hlock]
    · rw [if_neg hlock]
  · intro d s h1 hl hs docked made
    have h := hasDock_of_range h1 hl
    have dockedEq (b : Bike) : s.landed d .empty b = docked b (s.dock d).reservation := landed_empty hs b
    refine ⟨fun hr => ?_, fun i hr he hf hn => ?_, fun id n m he hp hm hmoves hf => ?_⟩
    · rw [onPresent_empty hs, arrive_unreadable h (undelivered_of hr), dockedEq, hr]
      rfl
    · have elsewhere : s.bikeElsewhere d i.bike = true := by cases i <;> exact he
      have conflicts := arrive_conflicts (startup := false) (found := .empty) h (undelivered_of hr) elsewhere
        (.inr ⟨hs, by decide⟩) hf hn
      rw [dockedEq, hr] at conflicts
      rw [onPresent_empty hs, conflicts]
      cases i <;> rfl
    · intro counted goesOn ends closed
      have reserved := present_reserved h hs he hp hm hmoves hf
      have unreserved (e : Nat) := present_unreserved (e := e) h hs he hp hm hmoves hf
      have closedEq {u : State} (hu : u.van = s.delivering n m) :
          closed u = u.summed { endedBy := .exhaustion, outcome := .exhausted, time := s.now } :=
        (summed_delivering hm hu).symm
      refine ⟨fun hr => ⟨(reserved hr).1, fun he' hun => ?_⟩, fun e hmem hr hk ht hfirst hre hlast => ?_⟩
      · rw [closedEq (u := counted true) rfl]
        exact (reserved hr).2 he' hun
      · intro shifted
        have hed : e ≠ d := by
          rintro rfl
          rw [hr] at hre
          cases hre
        have delivers := unreserved e hmem hr hk ht hfirst hre hlast
        have alike : Alike shifted (((s.berthed d (made id) .unreserved).putDock e
            { s.dock e with reservation := .unreserved }).moved (s.delivering n m)
              (s.van.moveOf false n d id s.now (some false))) :=
          Alike.moved_putDock _ _ _ _
        refine ⟨fun hg => (delivers.1 hg).trans alike.symm, fun he' hun => ?_⟩
        rw [closedEq (u := shifted) (State.putDock_van ..)]
        exact (delivers.2 he' hun).trans (alike.symm.summed _)
  · intro d lock there image s h1 h64 sized lockState restarted asked found
    have h : s.hasDock d := hasDock_of_range h1 (sized.1 ▸ h64)
    have lockEq : lockState = lockOf lock := by cases lock <;> rfl
    have foundEq : found = image.bind tagImage := by cases image <;> rfl
    refine ⟨fun hc hs hr hu hl hq cause n hn => ?_, ?_⟩
    · intro kept vacated leaves holding
      have delivers : s.deliver d (.census lock there image cause) =
          (kept.reconcile d lock (censusPresent there image)).reportCensus := by
        rcases hn with ⟨rfl, rfl⟩ | ⟨rfl, rfl⟩
        · exact takeCensus_restart
        · rfl
      have keptHas : kept.hasDock d := h
      have quiet : kept.censusReported = true ∨
          ∃ e ∈ dockNumbers, e ≠ d ∧ (kept.dock e).configured = true ∧ (kept.node e).censused = false :=
        hq.imp_right fun ⟨e, he, hne, hce, hne'⟩ => ⟨e, he, hne, hce, by
          rw [node_putNode, if_neg fun hx => hne hx.1]
          exact hne'⟩
      have vacates : Unbiked kept vacated := Unbiked.vacated d .census
      have holdingEq (b : Bike) : holding =
          if some b = none then .empty else if lock = .unlocked then .relocking else .occupied := by
        rw [if_neg (Option.some_ne_none b)]
        cases lock <;> rfl
      have ends {u v : State} {after : DockState} {b : Option Bike} (hm : (kept.redress d (Dock.felled (lockOf lock))
          (kept.offlineFrom d) true).matchCensus d (censusPresent there image) =
            u.redress d (Dock.felled (lockOf lock)) (kept.offlineFrom d) true)
          (hb : Unbiked kept u) (hbike : (u.dock d).bike = b)
          (ha : after = if b = none then .empty else if lock = .unlocked then .relocking else .occupied)
          (hv : kept.restored u d lock after b = kept.restored v d lock after b) : leaves v after b := by
        have restores := reconcile_restores keptHas hs hr hu hl hm hb (hbike ▸ ha)
        show s.deliver d _ = _
        rw [delivers, restores, restored_quiet hb quiet, hbike, hv]
        unfold State.restored
        rw [← lockEq]
        rfl
      have redressed (e : Nat) := redress_bike (s := kept) (o := kept.offlineFrom d) (m := true)
        (felled_redresses (lockOf lock)) keptHas e
      refine ⟨fun ht => ?_, fun b ht hb hf => ?_, fun id ht hf he hid => ?_⟩
      · refine ends (u := vacated) ?_ vacates (vacated_bike _ _ _) rfl rfl
        rw [ht]
        exact matchCensus_gone.trans (redress_vacated (felled_redresses _) keptHas _)
      · refine ends (u := kept) ?_ (.refl _) hb (holdingEq b) rfl
        rw [foundEq] at hf
        rw [ht]
        unfold censusPresent
        rw [if_pos rfl, hf]
        exact matchCensus_own ((redressed d).trans hb)
      · let made : Bike := .arrived id s.now
        refine ends (u := vacated.putBike d made) ?_ (vacates.trans (Unbiked.putBike d (some made)))
          (congrArg Dock.bike (dock_putDock_has (vacates.hasDock.2 keptHas)) :) (holdingEq made)
          (restored_over (vacates.hasDock.2 keptHas) _ _ _)
        rw [foundEq] at hf
        rw [ht]
        unfold censusPresent
        have bikeless : ∀ b, ((kept.redress d (Dock.felled (lockOf lock)) (kept.offlineFrom d) true).dock d).bike = some b →
            b.id ≠ (TagImage.idle id).bike := fun b hb => hid b ((redressed d).symm.trans hb)
        have elsewhere : (vacated.redress d (Dock.felled (lockOf lock)) (kept.offlineFrom d) true).bikeElsewhere d id = false := by
          rw [redress_bikeElsewhere (felled_redresses _) (vacates.hasDock.2 keptHas)]
          exact (vacated_elsewhere id).trans he
        have undelivered : (vacated.redress d (Dock.felled (lockOf lock)) (kept.offlineFrom d) true).undelivered d := by
          refine undelivered_of ?_
          rw [redress_dock (vacates.hasDock.2 keptHas), if_pos rfl]
          exact (vacates.reservation d).trans hu
        rw [if_pos rfl, hf, matchCensus_other bikeless, redress_vacated (felled_redresses _) keptHas,
          arrive_idle_uncounted (redress_hasDock (vacates.hasDock.2 keptHas)) elsewhere (.inr ⟨by decide, undelivered⟩),
          landed_census, show (vacated.redress d _ _ true).now = s.now from vacates.now]
        exact redress_putBike (felled_redresses _) (vacates.hasDock.2 keptHas) (some made)
    · intro u seen moved
      have seenEq : u.overflowPresence d (censusPresent there image) = seen := by
        rw [overflowPresence_eq]
        show _ = (match (s.dock d).bike with
          | none => if there then u.onPresent d found else u
          | some b => _)
        rw [foundEq]
        show (match (s.dock d).bike with
          | none => _
          | some b => _) = _
        cases (s.dock d).bike with
        | none => rfl
        | some b =>
          cases image.bind tagImage with
          | none => rfl
          | some i => cases i <;> rfl
      have delivers : s.deliver d (.census lock there image .overflow) =
          ((u.overflowPresence d (censusPresent there image)).overflowLock d lock).editDock d
            (fun x => { x with shown := none }) := rfl
      rw [delivers, seenEq]
      have movedEq : seen.overflowLock d lock = moved := by
        show (if (seen.dock d).lock = lockOf lock then seen else _) = if (seen.dock d).lock = lockState then seen else _
        refine if_congr (by rw [lockEq]) rfl ?_
        cases lock <;> rfl
      rw [movedEq]
      rfl

end Sys2Proof.Machine
end

