-- ==== Sys2Proof/Proofs/NodeEvents.lean ====
section
/-! PROOFS. What custody does with each event of a node in service (R5, R13, R24, R26, R29, R35, R53, R105, R118, R121, R125). -/

namespace Sys2Proof.Machine

/-! ### The command that an event ends (R13) -/

section Ends

variable {s : State} {d : Nat} {n : Node} {f : Command → Bool}

theorem awaits_iff : n.awaits f = true ↔ ∃ x, n.current = some x ∧ x.acknowledged = true ∧ f x.command = true := by
  unfold Node.awaits
  cases n.current with
  | none => simp
  | some c => simp

theorem endOn_ends (h : (s.node d).awaits f = true) :
    s.endOn d f = s.putNode d ({ s.node d with current := none } : Node).promote := if_pos h

theorem endOn_stays (h : ¬ (s.node d).awaits f = true) : s.endOn d f = s := if_neg h

end Ends

/-! ### A lock that failed (R26, R29, R35) -/

section LockFails

variable {s : State} {d : Nat} {kind : LockFailKind} {ended : Bool}

theorem onLockFail_counts (h1 : (s.dock d).state ≠ .unlocking) (h2 : (s.dock d).state ≠ .relocking) :
    s.onLockFail d kind ended = s.countFault d (lockFault kind) .lockFail := by
  unfold State.onLockFail
  dsimp only
  split
  · rename_i h
    exact absurd h h1
  · rename_i h
    exact absurd h h2
  · rfl

theorem onLockFail_runs_on (h : (s.dock d).state = .relocking) (ht : (s.dock d).relockAt ≠ none) :
    s.onLockFail d kind false = s.countFault d (lockFault kind) .lockFail := by
  unfold State.onLockFail
  dsimp only
  rw [h]
  exact if_pos ⟨Option.isSome_iff_ne_none.2 ht, rfl⟩

theorem onLockFail_retries (h : (s.dock d).state = .relocking) (ht : ended = true ∨ (s.dock d).relockAt = none)
    (hc : s.settings.dockFaultLimit = 0 ∨ min 7 ((s.dock d).counter + 1) < s.settings.dockFaultLimit) :
    s.onLockFail d kind ended =
      (s.countFault d (lockFault kind) .lockFail).putDock d
        { (s.countFault d (lockFault kind) .lockFail).dock d with relockAt := some (s.elapsed + 3000) } := by
  have has : s.hasDock d := hasDock_of_ne fun hd => by rw [hd] at h; cases h
  have still : ((s.countFault d (lockFault kind) .lockFail).dock d).state = .relocking := by
    rw [countFault_noted_dock has hc]
    exact h
  unfold State.onLockFail
  dsimp only
  rw [h]
  refine (if_neg fun hx => ?_).trans (if_pos still)
  rcases ht with ht | ht
  · rw [ht] at hx
    cases hx.2
  · rw [ht] at hx
    cases hx.1

end LockFails

/-! ### Taps and keys (R5, R24, R118, R125) -/

section Keys

variable {s : State} {d : Nat}

theorem answerAttempt_answers (a : State × Option Reason) :
    (∀ reason, a.2 = some reason → State.answerAttempt d a = a.1.issue d (.show .refused)) ∧
      (a.2 = none → State.answerAttempt d a = a.1) := by
  unfold State.answerAttempt
  exact ⟨fun reason h => by rw [h]; rfl, fun h => by rw [h]⟩

theorem reportTap_unread (h : s.run d < 2) : s.reportTap d false = s.putRun d (s.run d + 1) :=
  (if_neg Bool.false_ne_true).trans (if_neg (by omega))

theorem reportTap_third (h : 2 ≤ s.run d) : s.reportTap d false = (s.putRun d 0).noteFault d .reader .unreadableRun :=
  (if_neg Bool.false_ne_true).trans (if_pos h)

theorem codeOf_six {u v w x y z : Nat} (h : ∀ n ∈ [u, v, w, x, y, z], n ≤ 9) :
    codeOf [u, v, w, x, y, z] = some (100000 * u + 10000 * v + 1000 * w + 100 * x + 10 * y + z) := by
  have all : [u, v, w, x, y, z].all (fun x => x < 10) = true := by
    rw [List.all_eq_true]
    intro n hn
    have := h n hn
    simpa using by omega
  refine (if_pos ⟨rfl, all⟩).trans ?_
  simp only [List.foldl_cons, List.foldl_nil, Option.some.injEq]
  ring

theorem codeOf_none {digits : List Nat} (h : digits.length ≠ 6 ∨ ∃ n ∈ digits, 9 < n) : codeOf digits = none := by
  refine if_neg fun hc => ?_
  rcases h with h | ⟨n, hn, h9⟩
  · exact h hc.1
  · have := List.all_eq_true.1 hc.2 n hn
    have : n < 10 := by simpa using this
    omega

theorem bikeFaultOf_none {kind : Nat} (h : kind = 0 ∨ 8 < kind) : bikeFaultOf kind = none := by
  unfold bikeFaultOf
  split <;> first | rfl | omega

end Keys

/-! ### FAULT_KEY (R105, R118, R121) -/

section FaultKey

variable {s : State} {d : Nat} {b : Bike} {k : BikeFault} {who : Reporter}

theorem reportBike_settle (s : State) (d : Nat) (b : Bike) (k : BikeFault) (source : FaultSource) (who : Reporter) :
    (s.reportBike d b k source who).1.store.settle = s.store.settle := by
  have attends (t : State) (e : FaultEffect) : (t.attendEffect e).store.settle = t.store.settle := by
    unfold State.attendEffect
    split
    · by_cases h : t.attention = t.attention.add .quarantine
      · rw [setAttention_same h]
      · rw [setAttention_changes h]
        rfl
    · rfl
  have posts (t : State) (x : Body) : (t.post x).store.settle = t.store.settle := by
    unfold State.post
    dsimp only
    split <;> rfl
  have makes (t : State) (f : FaultRecord) : (t.makeFault f).store.settle = t.store.settle := by
    by_cases h : 0 < t.free ∧ t.faults = []
    · rw [makeFault_posts h.1 h.2]
      exact posts t _
    · rw [makeFault_waits (by by_contra hc; exact h ⟨by omega, by tauto⟩)]
  unfold State.reportBike State.putBike
  dsimp only
  rw [attends, makes]
  exact congrArg Store.settle (Dockwise.putDock (s := s) d _).store

theorem reportBike_entries (s : State) (d : Nat) (b : Bike) (k : BikeFault) (source : FaultSource) (who : Reporter) :
    (s.reportBike d b k source who).1.entries = s.entries :=
  congrArg (fun x => x.cur.entries) (reportBike_settle s d b k source who)

theorem reportBike_now (s : State) (d : Nat) (b : Bike) (k : BikeFault) (source : FaultSource) (who : Reporter) :
    (s.reportBike d b k source who).1.now = s.now := (State.reportBike_flow .refl d b k source who).now

theorem onFaultKey_bare (h : (s.dock d).bike = none) : s.onFaultKey d k = s.reportAbsent (some d) none k .rider .anonymous := by
  unfold State.onFaultKey
  rw [h]

/-- The key of a bike that no HELD entry links to is an anonymous report. -/
theorem onFaultKey_unheld (h : (s.dock d).bike = some b) (hh : s.heldAt b.id = none) :
    s.onFaultKey d k = (s.reportBike d b k .rider .anonymous).1 := by
  have reporter : s.keyReporter b = .anonymous := by
    unfold State.keyReporter
    rw [heldHirer_none hh]
    split <;> rfl
  have unlinked : (s.reportBike d b k .rider .anonymous).1.entries.find? (fun e => e.linksTo b.id) = none := by
    rw [reportBike_entries, List.find?_eq_none]
    intro e he
    simp [heldAt_none_iff.1 hh e he]
  unfold State.onFaultKey
  rw [h]
  dsimp only
  rw [reporter]
  unfold State.waiveForKey
  rw [unlinked]

variable {before after : List SettleEntry} {e : SettleEntry} {deadline : Nat}

/-- The key of a settling bike is its hirer's report, and waives an entry that carries no waiver. -/
theorem onFaultKey_held (h : (s.dock d).bike = some b) (hs : b.settling = true) (hl : s.entries = before ++ e :: after)
    (he : e.stage = .held b.id d deadline) (hb : ∀ y ∈ before, y.linksTo b.id = false) :
    (e.waiver ≠ none → s.onFaultKey d k = (s.reportBike d b k .rider e.close.hirer.reporter).1) ∧
      (e.waiver = none → s.onFaultKey d k = (s.reportBike d b k .rider e.close.hirer.reporter).1.putSettle
        { s.store.settle.cur with
          entries := before ++ { e with
            close := { e.close with fare := 0 }
            waiver := some { source := .dock, kind := k, time := s.now } } :: after }) := by
  have reporter : s.keyReporter b = e.close.hirer.reporter := by
    unfold State.keyReporter State.heldHirer
    rw [if_pos hs, heldEntry_split hl he hb]
    rfl
  have entries := (reportBike_entries s d b k .rider e.close.hirer.reporter).trans hl
  have waives : s.onFaultKey d k = (s.reportBike d b k .rider e.close.hirer.reporter).1.waive b.id .dock k := by
    unfold State.onFaultKey
    rw [h]
    dsimp only
    rw [reporter]
    unfold State.waiveForKey
    rw [heldEntry_split entries he hb]
    dsimp only
    rw [he]
    exact if_pos ⟨rfl, rfl⟩
  rw [waives]
  unfold State.waive
  rw [heldAt_split entries he hb]
  dsimp only
  rw [entries_getElem_split entries]
  dsimp only
  refine ⟨fun hw => if_pos (Option.isSome_iff_ne_none.2 hw), fun hw => (if_neg (by simp [hw])).trans ?_⟩
  unfold State.putEntries
  rw [entries, reportBike_settle, reportBike_now]
  simp

end FaultKey

end Sys2Proof.Machine
end

