-- ==== Sys2Proof/Proofs/Replies.lean ====
section
/-! PROOFS. The parts of a valid reply: its power state, its command report, its event; the end of the census phase (R2 to R5,
R8, R10 to R15, R126, R197). -/

namespace Sys2Proof.Machine

/-! ### The node table -/

section Nodes

variable {s : State} {d n : Nat} {p : Poll} {r : NodeReply} {x : Node}

/-- Whether a node stands in the table. -/
def State.hasNode (s : State) (d : Nat) : Prop := (entryAt s.nodes d).isSome = true

theorem hasNode_of_range (h1 : 1 ≤ d) (hl : d ≤ s.nodes.length) : s.hasNode d := by
  unfold State.hasNode entryAt
  rw [if_neg (by omega), List.getElem?_eq_getElem (by omega)]
  rfl

theorem hasNode_of_current {c : CurrentCommand} (h : (s.node d).current = some c) : s.hasNode d := by
  refine Option.isSome_iff_ne_none.2 fun hn => ?_
  unfold State.node at h
  rw [hn] at h
  cases h

theorem node_putNode_has (h : s.hasNode d) (x : Node) : (s.putNode d x).node d = x := by
  rw [node_putNode]
  exact if_pos ⟨rfl, h⟩

theorem hear_none (h : (s.line n).poll = none) : s.hear n r = s := by
  unfold State.hear
  rw [h]

theorem hear_discards (h : (s.line n).poll = some p) (ha : p.accepts r s.elapsed ≠ true) : s.hear n r = s := by
  unfold State.hear
  rw [h]
  exact if_neg ha

theorem hear_answering (h : (s.line n).poll = some p) (ha : p.accepts r s.elapsed = true)
    (hn : (s.node (dockAt n p.address)).phase = .answering) :
    s.hear n r = (s.endPoll n).hearAnswering (dockAt n p.address) r := by
  unfold State.hear
  rw [h]
  exact (if_pos ha).trans (if_pos hn)

theorem hearSilent_other (h : ∀ number lock there image cause, r.event ≠ some (number, .census lock there image cause)) :
    s.hearSilent d r = s := by
  unfold State.hearSilent
  split
  · rename_i he
    exact absurd he (h _ _ _ _ _)
  · rfl

/-- The node heard, its silence timer restarted (R7). -/
def State.heardNode (s : State) (d : Nat) : Node := { s.node d with silenceAt := s.elapsed + 2000 }

theorem heard_power : ((s.putNode d (s.heardNode d)).node d).power = (s.node d).power := by
  rw [node_putNode]
  split <;> rfl

theorem takePower_heard {y : PowerState} (h : y = .normal ∨ (s.node d).power = .low) :
    (s.putNode d (s.heardNode d)).takePower d y = s.putNode d { s.heardNode d with power := y } := by
  rw [takePower_quiet (h.imp_right heard_power.trans)]
  exact putNode_putNode s d (fun z => { z with power := y }) (s.heardNode d)

theorem hearAnswering_eq :
    s.hearAnswering d r =
      (((s.putNode d (s.heardNode d)).takePower d r.power).takeCommand d r.taken r.outcome).takeEvent d r.event := rfl

/-- A reply that carries the power state held (R5). -/
theorem hearAnswering_same (h : r.power = (s.node d).power) :
    s.hearAnswering d r =
      ((s.putNode d (s.heardNode d)).takeCommand d r.taken r.outcome).takeEvent d r.event := by
  have quiet : r.power = .normal ∨ (s.node d).power = .low := by
    cases hp : r.power with
    | normal => exact .inl rfl
    | low => exact .inr (h ▸ hp)
  have same : ({ s.heardNode d with power := r.power } : Node) = s.heardNode d := by
    rw [h]
    rfl
  rw [hearAnswering_eq, takePower_heard quiet, same]

theorem takeCommand_idle {taken : Option Nat} {o : NodeOutcome} (h : (s.node d).current = none) : s.takeCommand d taken o = s := by
  unfold State.takeCommand
  rw [h]

theorem takeEvent_repeated {number : Nat} {e : NodeEvent} (h : (s.node d).lastEvent = some number) :
    s.takeEvent d (some (number, e)) = s := if_pos h

theorem takeEvent_new {number : Nat} {e : NodeEvent} (h : (s.node d).lastEvent ≠ some number) :
    s.takeEvent d (some (number, e)) = (s.putNode d { s.node d with lastEvent := some number }).deliver d e := if_neg h

theorem heard_current (h : s.hasNode d) : ((s.putNode d (s.heardNode d)).node d).current = (s.node d).current := by
  rw [node_putNode_has h]
  rfl

theorem heard_lastEvent (h : s.hasNode d) : ((s.putNode d (s.heardNode d)).node d).lastEvent = (s.node d).lastEvent := by
  rw [node_putNode_has h]
  rfl

end Nodes

/-! ### The command report (R10 to R14) -/

section Report

variable {s : State} {d : Nat} {c : CurrentCommand} {taken : Option Nat} {o : NodeOutcome}

/-- The state in which the current command of a node heard has ended, the next waiting one being current (R14). -/
def State.heardNext (s : State) (d : Nat) : State := s.putNode d ({ s.heardNode d with current := none } : Node).promote

theorem takeCommand_goes_on (h : (s.node d).current = some c) (hr : (c.hear taken o).2 = none) :
    (s.putNode d (s.heardNode d)).takeCommand d taken o =
      s.putNode d { s.heardNode d with current := some (c.hear taken o).1 } := by
  have has := hasNode_of_current h
  unfold State.takeCommand
  rw [heard_current has, h]
  dsimp only
  rw [hr]
  exact putNode_putNode s d (fun z => { z with current := some (c.hear taken o).1 }) (s.heardNode d)

theorem takeCommand_ends {result : CommandResult} (h : (s.node d).current = some c) (hr : (c.hear taken o).2 = some result) :
    (s.putNode d (s.heardNode d)).takeCommand d taken o = (s.heardNext d).onResult d c.command result := by
  have has := hasNode_of_current h
  unfold State.takeCommand
  rw [heard_current has, h]
  dsimp only
  rw [hr]
  exact congrArg (fun t => State.onResult t d c.command result)
    (putNode_putNode s d (fun z => ({ z with current := none } : Node).promote) (s.heardNode d))

theorem hear_taken (h : taken = some c.number) :
    c.hear taken o = ({ c with acknowledged := true }, outcomeResult c.command o) := if_pos h

theorem hear_acknowledged (h : taken ≠ some c.number) (ha : c.acknowledged = true) : c.hear taken o = (c, none) :=
  (if_neg h).trans (if_pos ha)

theorem hear_unanswered (h : taken ≠ some c.number) (ha : c.acknowledged = false) :
    c.hear taken o =
      ({ c with unanswered := c.unanswered + 1 }, if 8 ≤ c.unanswered + 1 then some .notTaken else none) :=
  (if_neg h).trans (if_neg (by rw [ha]; decide))

end Report

/-! ### The end of the census phase (R8, R126, R197) -/

section CensusEnds

variable {s : State}

theorem makeSixth_posts {b : CensusBody} (hf : 0 < s.free) (hs : s.sixth = []) :
    s.makeSixth (.dockCensus b) = s.post (.dockCensus b) := by
  refine if_neg ?_
  unfold State.sixthWaits
  rw [hs]
  simp
  omega

/-- The state in which the census phase has ended with its record posted. -/
def State.censusPosted (s : State) : State :=
  ({ s with censusLimit := none } : State).post (.dockCensus (s.censusBody .startup))

theorem endCensus_posts (hf : 0 < s.free) (hs : s.sixth = []) :
    s.endCensus = if s.someOffline then s.censusPosted.setAttention .offline else s.censusPosted := by
  have posts : ({ s with censusLimit := none } : State).makeSixth (.dockCensus (s.censusBody .startup)) = s.censusPosted :=
    makeSixth_posts hf hs
  have same : s.censusPosted.someOffline = s.someOffline := by
    unfold State.someOffline State.censusPosted
    refine List.any_congr rfl fun e => ?_
    rw [State.post_dock]
    rfl
  unfold State.endCensus
  dsimp only
  rw [posts, same]

theorem someOffline_iff :
    s.someOffline = true ↔ ∃ e ∈ dockNumbers, (s.dock e).configured = true ∧ (s.dock e).state = .offline := by
  unfold State.someOffline
  simp

theorem reportCensus_last (hr : s.censusReported = false) (ha : s.allCensused = true) :
    s.reportCensus =
      if s.censusLimit = none then { s with censusReported := true } else ({ s with censusReported := true } : State).endCensus := by
  unfold State.reportCensus State.censusRuns
  rw [if_neg (by rw [hr, ha]; simp)]
  dsimp only
  cases s.censusLimit <;> rfl

theorem allCensused_iff :
    s.allCensused = true ↔ ∀ e ∈ dockNumbers, (s.dock e).configured = true → (s.node e).censused = true := by
  unfold State.allCensused
  simp only [List.all_eq_true, Bool.or_eq_true, Bool.not_eq_true']
  refine forall₂_congr fun e _ => ?_
  cases (s.dock e).configured <;> simp

end CensusEnds

/-! ### A census of a dock whose record stands (R37) -/

section Standing

variable {s u : State} {d : Nat} {lock : LockPosition}

theorem reconciled_below (h : s.settings.dockFaultLimit = 0 ∨ (s.dock d).counter < s.settings.dockFaultLimit) :
    s.reconciled d lock u =
      { (if (u.dock d).bike ≠ none ∧ lock = .unlocked then u.issue d .lock else u).putDock d { u.dock d with
          lock := lockOf lock
          state := if (u.dock d).bike = none then .empty else if lock = .unlocked then .relocking else .occupied
          shown := none } with
        offlineAt := setEntry s.offlineAt d none, readerRuns := setEntry s.readerRuns d 0 } := by
  have below : ¬ (0 < s.settings.dockFaultLimit ∧ s.settings.dockFaultLimit ≤ (s.dock d).counter) := by omega
  unfold State.reconciled
  dsimp only
  rw [if_neg below, if_neg below]

theorem issue_censused (c : Command) : ((s.issue d c).node d).censused = (s.node d).censused := by
  rw [State.issue_eq]
  split
  · rw [node_putNode]
    split
    · unfold Node.place Node.promote
      split <;> rfl
    · rfl
  · rfl

end Standing

end Sys2Proof.Machine
end

