-- ==== Sys2Proof/Proofs/PollReply.lean ====
section
/-! PROOFS. A reply to a poll, and what custody does with its event (R2 to R5, R7, R8, R10 to R15, R24 to R26, R29, R31, R35, R37,
R53, R105, R118, R121, R122, R125, R126, R197). -/

namespace Sys2Proof.Machine

section Replies

variable {s : State} {x : StringName} {r : NodeReply} {p : Poll}

theorem pollReply_row {t : State} (hs : s.power = .running) (h : s.hear (stringNumber x) r = t) :
    exec (.pollReply x r) s = .next (t.finish s) :=
  exec_row (f := fun s => s.hear (stringNumber x) r) rfl hs h (h ▸ (State.hear_flow .refl (stringNumber x) r).power)

end Replies

/-! ### The census of the last node due (R8, R37, R197) -/

section Census

variable {s : State} {d : Nat} {lock : LockPosition} {present : Option (Option TagImage)}

/-- The state in which a census has reconciled an OFFLINE dock whose record stands. -/
def State.settledAt (s : State) (d : Nat) (lock : LockPosition) : State :=
  { (if (s.dock d).bike ≠ none ∧ lock = .unlocked then s.issue d .lock else s).putDock d { s.dock d with
      lock := lockOf lock
      state := if (s.dock d).bike = none then .empty else if lock = .unlocked then .relocking else .occupied
      shown := none } with
    offlineAt := setEntry s.offlineAt d none, readerRuns := setEntry s.readerRuns d 0 }

/-- Where no bike is there, or the bike recorded there with its IDLE tag, the record stands. -/
theorem reconcile_settles (h : s.hasDock d) (hs : (s.dock d).state = .offline)
    (hl : s.settings.dockFaultLimit = 0 ∨ (s.dock d).counter < s.settings.dockFaultLimit)
    (hp : ((s.dock d).bike = none ∧ present = none) ∨
      ∃ b, (s.dock d).bike = some b ∧ present = some (some (.idle b.id))) :
    s.reconcile d lock present = s.settledAt d lock := by
  have bike := relock_bike (l := lockOf lock) h d
  have matched : (s.relock d (lockOf lock)).matchCensus d present = s.relock d (lockOf lock) := by
    rcases hp with ⟨hb, rfl⟩ | ⟨b, hb, rfl⟩
    · rw [matchCensus_gone, vacated_none (bike.trans hb)]
    · exact matchCensus_own (bike.trans hb)
  exact (reconcile_eq hs matched (standing_refl h)).trans (reconciled_below hl)

theorem settledAt_frame (s : State) (d : Nat) (lock : LockPosition) :
    let u := s.settledAt d lock
    u.free = s.free ∧ u.sixth = s.sixth ∧ u.censusLimit = s.censusLimit ∧ u.censusReported = s.censusReported ∧
      (∀ e, (u.dock e).configured = (s.dock e).configured) ∧ (∀ e, e ≠ d → u.node e = s.node e) ∧
      (u.node d).censused = (s.node d).censused := by
  intro u
  let v := if (s.dock d).bike ≠ none ∧ lock = .unlocked then s.issue d .lock else s
  have step : Dockwise s v := by
    show Dockwise s (if _ then _ else _)
    split
    · exact Dockwise.issue _ _
    · exact Dockwise.refl s
  have vDock (e : Nat) : v.dock e = s.dock e := by
    show (if _ then _ else _ : State).dock e = _
    split
    · exact dock_issue
    · rfl
  have put := (Dockwise.putDock (s := v) d { s.dock d with
      lock := lockOf lock
      state := if (s.dock d).bike = none then .empty else if lock = .unlocked then .relocking else .occupied
      shown := none })
  have both := step.trans put
  have node (e : Nat) : u.node e = v.node e := by
    have kept (y : Dock) : (v.putDock d y).node e = v.node e := by
      unfold State.node
      rw [State.putDock_nodes]
    exact kept _
  refine ⟨both.free, (congrArg State.sixth both.same :), (congrArg State.censusLimit both.same :),
    (congrArg State.censusReported both.same :), fun e => ?_, fun e he => (node e).trans ?_, (congrArg Node.censused (node d)).trans ?_⟩
  · show ((v.putDock d _).dock e).configured = _
    rw [dock_putDock]
    split
    · rename_i h
      rw [h.1]
    · rw [vDock]
  · show (if _ then _ else _ : State).node e = _
    split
    · exact node_issue_ne he _
    · rfl
  · show ((if _ then _ else _ : State).node d).censused = _
    split
    · exact issue_censused _
    · rfl

end Census

end Sys2Proof.Machine
end

