-- ==== Sys2Proof/Proofs/PollReplies.lean ====
section
/-! PROOFS. POLL_REPLY as a whole (R2 to R5, R7, R8, R10 to R15, R24 to R26, R29, R31, R35, R37, R53, R105, R118, R121, R122, R125,
R126, R197). -/

namespace Sys2Proof.Machine

/-- Settles O46: the reply by its node, power state, command report and event, and each event by what custody does with it. -/
theorem pollReplyResult : Obligations.PollReplyResult := by
  unfold Obligations.PollReplyResult
  refine ⟨?_, ?_⟩
  · intro x r s hs
    refine ⟨fun h => pollReply_row hs (hear_none h), fun p hp => ?_⟩
    intro ended d
    refine ⟨fun h => pollReply_row hs (hear_discards hp fun ha => ?_), fun hok haddr hwin => ?_⟩
    · obtain ⟨h1, h2, h3⟩ := accepts_iff.1 ha
      rcases h with h | h | h
      · rw [h] at h1
        cases h1
      · exact h h2
      · omega
    have accepted : p.accepts r s.elapsed = true := accepts_iff.2 ⟨hok, haddr, hwin⟩
    have silent (hn : (s.node d).phase ≠ .answering) : s.hear (stringNumber x) r = ended.hearSilent d r :=
      hear_silent hp accepted hn
    have answering (hn : (s.node d).phase = .answering) : s.hear (stringNumber x) r = ended.hearAnswering d r :=
      hear_answering hp accepted hn
    refine ⟨fun hn he => ?_, fun h1 hl hn hpow hcur => ?_, fun h1 hl hn hpow hcur he => ?_, fun c hn hpow hcur he => ?_, ?_⟩
    · exact pollReply_row hs ((silent hn).trans (hearSilent_other he))
    · intro heard
      have has : ended.hasNode d := hasNode_of_range h1 hl
      have idle : (ended.putNode d (ended.heardNode d)).takeCommand d r.taken r.outcome = ended.putNode d (ended.heardNode d) :=
        takeCommand_idle ((heard_current has).trans hcur)
      have hears : s.hear (stringNumber x) r = (ended.putNode d heard).takeEvent d r.event := by
        rw [answering hn, hearAnswering_same (s := ended) hpow, idle]
        rfl
      refine ⟨fun h => pollReply_row hs (hears.trans ?_), fun number e he hlast => pollReply_row hs (hears.trans ?_)⟩
      · rcases h with h | ⟨number, e, h, hlast⟩
        · rw [h]
          rfl
        · rw [h]
          exact takeEvent_repeated ((heard_lastEvent has).trans hlast)
      · rw [he]
        exact (takeEvent_new fun h => hlast ((heard_lastEvent has).symm.trans h)).trans
          (congrArg (fun t => State.deliver t d e)
            (putNode_putNode ended d (fun z => { z with lastEvent := some number }) heard))
    · intro heard
      have has : ended.hasNode d := hasNode_of_range h1 hl
      have hears {t : State} (ht : (ended.putNode d (ended.heardNode d)).takePower d r.power = t)
          (hc : (t.node d).current = none) : s.hear (stringNumber x) r = t := by
        rw [answering hn, hearAnswering_eq, ht, takeCommand_idle hc, he]
        rfl
      have current : (heard.node d).current = none := (congrArg Node.current (node_putNode_has has _)).trans hcur
      refine ⟨fun hnormal => pollReply_row hs (hears (takePower_heard (.inl hnormal)) current), fun hlow hf hn' => ?_⟩
      have normal : (s.node d).power = .normal := by
        cases hpw : (s.node d).power with
        | normal => rfl
        | low => exact absurd (hlow.trans hpw.symm) hpow
      have posts : (ended.putNode d (ended.heardNode d)).takePower d r.power = heard.onPowerLow d := by
        refine (if_pos ⟨hlow, heard_power.trans normal⟩).trans ?_
        exact congrArg (fun t => State.onPowerLow t d)
          (putNode_putNode ended d (fun z => { z with power := r.power }) (ended.heardNode d))
      have made : heard.onPowerLow d = _ := makeFault_posts (s := heard) hf hn'
      have node : (heard.onPowerLow d).node d = heard.node d :=
        congrArg (fun l => (entryAt l d).getD _) (State.makeFault_nodes ..)
      exact pollReply_row hs ((hears posts ((congrArg Node.current node).trans current)).trans made)
    · intro heard goesOn next endsBy
      have hears : s.hear (stringNumber x) r = (ended.putNode d (ended.heardNode d)).takeCommand d r.taken r.outcome := by
        rw [answering hn, hearAnswering_same (s := ended) hpow, he]
        rfl
      have stays {after : CurrentCommand} (h : c.hear r.taken r.outcome = (after, none)) : goesOn after := by
        refine pollReply_row hs (hears.trans ?_)
        rw [takeCommand_goes_on (s := ended) hcur (congrArg Prod.snd h), h]
        rfl
      have ends {result : CommandResult} (h : (c.hear r.taken r.outcome).2 = some result) :
          s.hear (stringNumber x) r = next.onResult d c.command result :=
        hears.trans (takeCommand_ends (s := ended) hcur h)
      refine ⟨fun ht => ?_, fun ht => ⟨fun ha => stays (hear_acknowledged ht ha), fun ha hu => stays ?_, fun ha hu => ?_⟩⟩
      · have taken := hear_taken (c := c) (o := r.outcome) ht
        have result {y : Option CommandResult} (h : outcomeResult c.command r.outcome = y) :
            (c.hear r.taken r.outcome).2 = y := (congrArg Prod.snd taken).trans h
        refine ⟨fun hc => stays ?_, fun i hc => pollReply_row hs ((ends (result (y := some .confirmed) ?_)).trans ?_), fun hc => ?_,
          fun hc => ?_, fun release hirer issue ref image hc ho hst hr hparty => ?_⟩
        · rw [taken]
          rcases hc with hc | hc <;> rw [hc] <;> rfl
        · rw [hc]
          rfl
        · rw [hc]
          rfl
        · have tagged : outcomeResult c.command r.outcome =
              match r.outcome with | .done => some .confirmed | .failed => some .nodeFailed | .working => none := by
            rcases hc with ⟨i, hc⟩ | ⟨i, hc⟩ <;> rw [hc] <;> rfl
          refine ⟨fun ho => stays ?_, fun ho => pollReply_row hs (ends (result ?_)), fun ho => pollReply_row hs (ends (result ?_))⟩
          · rw [taken, tagged, ho]
          · rw [tagged, ho]
          · rw [tagged, ho]
        · refine ⟨fun ho => pollReply_row hs ((ends (result (y := some .confirmed) ?_)).trans ?_),
            fun ho => pollReply_row hs ((ends (result (y := some .nodeFailed) ?_)).trans ?_)⟩
          · rw [hc, ho]
            rfl
          · rw [hc]
            show next.onEnded d (.tagClear .atReturn) .confirmed = next
            unfold State.onEnded
            dsimp only
            rw [awaits_atReturn]
            rfl
          · rw [hc, ho]
            rfl
          · rw [hc]
            exact onEnded_atReturn (by decide)
        · have command : release.tagCommand = c.command := by
            unfold Release.tagCommand
            rw [hparty, hc]
          refine pollReply_row hs ((ends (result (y := some .confirmed) ?_)).trans ?_)
          · rw [hc, ho]
            rfl
          · rw [← command]
            exact onEnded_awaited (s := next) hst hr .confirmed
      · rw [hear_unanswered ht ha, if_neg (by omega)]
      · refine pollReply_row hs (ends ?_)
        rw [hear_unanswered ht ha, if_pos hu]
    · intro number lock there image cause he hn hpow h1 h64 sized hst hconf hlimit goesOn answered gives
      have has : s.hasDock d := hasDock_of_range h1 (sized.1 ▸ h64)
      have hasNode : ended.hasNode d := hasNode_of_range h1 (by rw [show ended.nodes = s.nodes from rfl, sized.2.1]; exact h64)
      have hears : s.hear (stringNumber x) r = (answered.reconcile d lock (censusPresent there image)).reportCensus :=
        (silent hn).trans (hearSilent_census (s := ended) he (.inl hpow))
      obtain ⟨free, sixth, limit, reported, configured, others, own⟩ := settledAt_frame answered d lock
      have otherNode {e : Nat} (hne : e ≠ d) : answered.node e = s.node e := by
        rw [node_putNode, if_neg fun hx => hne hx.1]
        rfl
      have ownNode : (answered.node d).censused = true := congrArg Node.censused (node_putNode_has hasNode _)
      have results {after : DockState} {t : State}
          (hr : answered.reconcile d lock (censusPresent there image) = answered.settledAt d lock)
          (hu : answered.settledAt d lock = { t.putDock d { s.dock d with
              lock := lockOf lock, state := after, shown := none } with
            offlineAt := setEntry s.offlineAt d none, readerRuns := setEntry s.readerRuns d 0 }) : gives after t := by
        let u : State := { t.putDock d { s.dock d with
            lock := lockOf lock, state := after, shown := none } with
          offlineAt := setEntry s.offlineAt d none, readerRuns := setEntry s.readerRuns d 0 }
        have hu : answered.settledAt d lock = u := hu
        have heard : s.hear (stringNumber x) r = u.reportCensus := by
          rw [hears, hr, hu]
        rw [hu] at free sixth limit reported configured others own
        refine (show gives after t from ⟨fun hgo => pollReply_row hs (heard.trans (reportCensus_quiet ?_)), fun hno => ?_⟩)
        · refine hgo.imp reported.trans fun ⟨e, hmem, hne, hc, hf⟩ => ⟨e, hmem, (configured e).trans hc, ?_⟩
          rw [others e hne, otherNode hne]
          exact hf
        · have unreported : u.censusReported = false :=
            reported.trans (Bool.eq_false_iff.2 fun h => hno (.inl h))
          have all : u.allCensused = true := by
            refine allCensused_iff.2 fun e hmem hc => ?_
            by_cases hed : e = d
            · rw [hed]
              exact own.trans ownNode
            · rw [others e hed, otherNode hed]
              by_contra hf
              exact hno (.inr ⟨e, hmem, hed, (configured e).symm.trans hc, Bool.eq_false_iff.2 hf⟩)
          have last := heard.trans (reportCensus_last unreported all)
          refine ⟨fun hnone => pollReply_row hs (last.trans (if_pos (limit.trans hnone))), fun hsome hf hsix => ?_⟩
          have ends := (last.trans (if_neg fun h => hsome (limit.symm.trans h))).trans
            (endCensus_posts (s := { u with censusReported := true }) (free ▸ hf) (sixth.trans hsix))
          exact ⟨fun ho => pollReply_row hs (ends.trans (if_pos (someOffline_iff.2 ho))),
            fun ho => pollReply_row hs (ends.trans (if_neg fun hc => ho (someOffline_iff.1 hc)))⟩
      refine ⟨fun hb ht => results ?_ ?_, fun b bytes hb ht hi htag => ?_⟩
      · refine reconcile_settles has hst hlimit (.inl ⟨hb, ?_⟩)
        unfold censusPresent
        rw [ht, if_neg Bool.false_ne_true]
      · unfold State.settledAt
        rw [if_neg fun hc => hc.1 hb, if_pos (show (answered.dock d).bike = none from hb)]
        rfl
      · have settles : answered.reconcile d lock (censusPresent there image) = answered.settledAt d lock := by
          refine reconcile_settles has hst hlimit (.inr ⟨b, hb, ?_⟩)
          unfold censusPresent
          rw [ht, hi, if_pos rfl, Option.bind_some, htag]
        have occupied : ¬ (answered.dock d).bike = none := by
          show ¬ (s.dock d).bike = none
          rw [hb]
          exact Option.some_ne_none b
        refine ⟨fun hl => results settles ?_, fun hl => results settles ?_⟩
        · have closed : lock ≠ .unlocked := by
            rw [hl]
            decide
          unfold State.settledAt
          rw [if_neg fun hc => closed hc.2, if_neg occupied, if_neg closed]
          rfl
        · unfold State.settledAt
          rw [if_pos ⟨occupied, hl⟩, if_neg occupied, if_pos hl]
          rfl
  · intro d s ended ends answers
    have awaits_eq (c : Command) : (s.node d).awaits (fun x => x == c) = true ↔ ends c := by
      rw [awaits_iff]
      simp only [beq_iff_eq]
      rfl
    have awaits_either : (s.node d).awaits (fun c => c == .lock || c == .unlock) = true ↔ (ends .lock ∨ ends .unlock) := by
      rw [awaits_iff]
      show _ ↔ ((∃ x, _) ∨ ∃ x, _)
      rw [← exists_or]
      refine exists_congr fun x => ?_
      simp only [Bool.or_eq_true, beq_iff_eq]
      tauto
    have answered {e : NodeEvent} {a : State × Option Reason} (h : s.deliver d e = State.answerAttempt d a) : answers e a := by
      refine (show answers e a from ?_)
      show (∀ reason, a.2 = some reason → s.deliver d e = _) ∧ (a.2 = none → s.deliver d e = _)
      rw [h]
      exact answerAttempt_answers a
    refine ⟨fun image => by cases image <;> rfl, rfl,
      fun h => congrArg (State.onLocked · d) (endOn_ends ((awaits_eq _).2 h)),
      fun h => congrArg (State.onLocked · d) (endOn_stays fun hc => h ((awaits_eq _).1 hc)),
      fun h => congrArg (State.onUnlocked · d) (endOn_ends ((awaits_eq _).2 h)),
      fun h => congrArg (State.onUnlocked · d) (endOn_stays fun hc => h ((awaits_eq _).1 hc)),
      fun kind => ?_, fun image hi => ?_, fun bytes card hc => answered ?_, fun u v w x y z h => answered ?_,
      fun digits h => ?_, fun kind h => ?_, fun kind k hk => ?_⟩
    · intro fault u
      have faultEq : fault = lockFault kind := by cases kind <;> rfl
      have fails {s' : State} {took : Bool} (hd : s'.dock d = s.dock d) (hset : s'.settings = s.settings)
          (helapsed : s'.elapsed = s.elapsed) (hfirst : s'.firstPlace = s.firstPlace) (hfree : s'.free = s.free)
          (haside : s'.setAside = s.setAside)
          (h : s.deliver d (.lockFail kind) = s'.onLockFail d kind took) : u s' took := by
        refine (show u s' took from ⟨fun h1 h2 => ?_, fun hst hc => ?_, ?_⟩)
        · rw [h, onLockFail_counts (by rw [hd]; exact h1) (by rw [hd]; exact h2), faultEq]
        · refine ⟨fun ht => ?_, fun ht hr => ?_⟩
          · rw [h, onLockFail_retries (by rw [hd]; exact hst) (by rw [hd]; exact ht) (by rw [hd, hset]; exact hc), faultEq, helapsed]
          · rw [h, ht, onLockFail_runs_on (by rw [hd]; exact hst) (by rw [hd]; exact hr), faultEq]
        · intro r hirer issue ref image hst hr hp hn ho hl hc hf hpos counted closed refused
          rw [h, onLockFail_fails (by rw [hd]; exact hst) (by rw [hd]; exact hr),
            failUnlock_hire (by rw [hd]; exact hr) hp hn ho (by rw [hd]; exact hl) (hfirst.trans hf) (hfree ▸ hpos)
              (by rw [hd, hset]; exact hc), haside, ← faultEq]
          rfl
      refine ⟨fun h => fails (s' := ended) rfl rfl rfl rfl rfl rfl ?_, fun h => fails rfl rfl rfl rfl rfl rfl ?_⟩
      · have ended_ := endOn_ends (awaits_either.2 h)
        have awaited := awaits_either.2 h
        show (s.endOn d _).onLockFail d kind ((s.node d).awaits _) = _
        rw [ended_, awaited]
      · have awaited : (s.node d).awaits (fun c => c == .lock || c == .unlock) = false :=
          Bool.eq_false_iff.2 fun hc => h (awaits_either.1 hc)
        show (s.endOn d _).onLockFail d kind ((s.node d).awaits _) = _
        rw [endOn_stays (Bool.eq_false_iff.1 awaited), awaited]
    · intro run
      have unread : image.bind cardImage = none := by
        cases image with
        | none => rfl
        | some bytes => exact hi
      have shows : s.deliver d (.tap image) = (s.reportTap d false).issue d (.show .refused) := by
        show s.onTap d (image.bind cardImage) = _
        rw [unread]
        rfl
      refine ⟨fun hr => ?_, fun hr hf hn => ?_⟩
      · rw [shows, reportTap_unread hr]
        rfl
      · have made : (s.putRun d 0).noteFault d .reader .unreadableRun = _ := makeFault_posts (s := s.putRun d 0) hf hn
        rw [shows, reportTap_third hr, made]
        rfl
    · show s.onTap d (cardImage bytes) = _
      rw [hc]
      rfl
    · show (match codeOf [u, v, w, x, y, z] with
        | some code => s.onKeypad d code
        | none => s) = _
      rw [codeOf_six h]
      rfl
    · show (match codeOf digits with
        | some code => s.onKeypad d code
        | none => s) = s
      rw [codeOf_none h]
    · show (match bikeFaultOf kind with
        | some k => s.onFaultKey d k
        | none => s) = s
      rw [bikeFaultOf_none h]
    · have keyed : s.deliver d (.faultKey kind) = s.onFaultKey d k := by
        show (match bikeFaultOf kind with
          | some k => s.onFaultKey d k
          | none => s) = _
        rw [hk]
      refine ⟨fun b hb hh => keyed.trans (onFaultKey_unheld hb hh), fun b before e after deadline hb hs hl he hbefore => ?_,
        fun hb hf hn => keyed.trans ((onFaultKey_bare hb).trans (makeFault_posts hf hn))⟩
      intro who reported
      have whoEq : who = e.close.hirer.reporter := by
        show (match e.close.hirer with
          | .pass slot serial => Reporter.pass slot serial
          | .member id => .person id
          | .crew id => .person id
          | .remote id => .person id) = _
        unfold Hirer.reporter
        cases e.close.hirer <;> rfl
      have held := onFaultKey_held (k := k) hb hs hl he hbefore
      rw [← whoEq] at held
      exact ⟨fun hw => keyed.trans (held.1 hw), fun hw => keyed.trans (held.2 hw)⟩

end Sys2Proof.Machine
end

