-- ==== Sys2Proof/Proofs/StartUp.lean ====
section
/-! PROOFS. What a start-up does to a pass in a slot above 32, against the clause on the mark of PASS_STATE (R70, R76, R111). -/

namespace Sys2Proof.Machine

/-! The statement holds PASS_STATE clear where no pass of slots 1 to 32 changes its state, over every state, also one whose
pass region holds more than the 32 slots of R61. -/

section Oversized

/-- A DAY pass CLOSING under hire 1 of station 1. -/
def closingPass : Pass :=
  { state := .closing, kind := .day, serial := 1, code := 123456, terminal := 1, authRef := [], hold := 1000, issued := 1
    expiry := 2, charged := 0, rides := 0, current := some { station := 1, count := 1 }, cancelled := false
    unresolved := false, shortfall := false }

/-- The close of that hire, of the pass in slot 35. -/
def closingClose : PricedClose :=
  { ref := { station := 1, count := 1 }, hirer := .pass 35 1, bikeId := 1, dock := 1, startStation := 1, start := 1
    returned := none, plan := 14, tagGeneration := 1, usedGeneration := none, duration := none, minutes := none
    chargeable := none, base := none, afterPercent := none, afterCredits := none, releaseCredit := 0, returnCredit := none
    creditApplied := none, fare := 0, flags := ⟨false, false, false, false, false, false⟩ }

/-- A part whose start-up is due, with that pass in slot 35 of a region of 35 slots, and its HELD entry. -/
def oversizedPart : State :=
  { State.reset with
    power := .startDue .powerOn
    store := { State.resetStore with
      passes := .fresh { slots := List.replicate 34 none ++ [some closingPass], serial := 2 }
      settle := .fresh { entries := [{ close := closingClose, waiver := none, stage := .held 1 1 0 }], lost := 0 } } }

/-- The part after its start-up. -/
def oversizedStarted : State := (oversizedPart.startUp .powerOn []).finish { oversizedPart.volatile with backhaul := .down }

theorem exec_startUp_oversized : exec (.startUp []) oversizedPart = .next oversizedStarted := rfl

/-- Slots 1 to 32 are FREE before the start-up and after it. -/
theorem oversized_slots :
    ∀ slot ∈ slotNumbers, (oversizedStarted.pass slot).map (fun p => p.state) =
      (entryAt oversizedPart.store.passes.cur.slots slot).join.map (fun p => p.state) := by decide +kernel

/-- The pass in slot 35 has been charged for its entry, so PASS_STATE is raised. -/
theorem oversized_mark : oversizedStarted.link.marks.passState = true := by decide +kernel

end Oversized

/-- The clause of O38 on the mark of PASS_STATE, at a start-up that spoils no copy. -/
theorem passState_clause (h : Obligations.StartUpAndCensus) {s : State} {cause : StartCause} (hs : s.power = .startDue cause) :
    ∃ t, exec (.startUp []) s = .next t ∧
      let store := if cause = .store then s.store else s.store
      let passes := (store.passes.check { slots := List.replicate 32 none, serial := 1 }).1.cur
      ((∀ slot ∈ slotNumbers, (t.pass slot).map (fun p => p.state) =
        (entryAt passes.slots slot).join.map (fun p => p.state)) → t.link.marks.passState = false) := by
  obtain ⟨t, ht, -, -, -, -, -, -, -, -, -, -, -, -, -, -, -, -, -, -, -, -, -, -, -, -, -, -, -, store⟩ := h.1 [] cause s hs
  obtain ⟨-, -, -, -, -, -, -, -, -, -, mark, -⟩ := store
  exact ⟨t, ht, mark⟩

/-- Refutes O38: in `oversizedPart` a start-up finalises the HELD entry of the pass in slot 35, which changes state, so the mark of
PASS_STATE is set though no pass of slots 1 to 32 changed its state. -/
theorem not_startUpAndCensus : ¬ Obligations.StartUpAndCensus := by
  intro h
  obtain ⟨t, ht, mark⟩ := passState_clause h (s := oversizedPart) rfl
  have started : t = oversizedStarted := Host.Outcome.next.inj (ht.symm.trans exec_startUp_oversized)
  rw [started] at mark
  exact Bool.noConfusion (oversized_mark.symm.trans (mark oversized_slots))

end Sys2Proof.Machine
end

