-- ==== Sys2Proof/Proofs/Places.lean ====
section
/-! PROOFS. A return heard from a node address above 16, against the law of HELD entries (R2, R18, R37, R102). -/

namespace Sys2Proof.Machine

/-! The laws of `Obligations.PlacesAreKept` say nothing of the poll in progress. A state that keeps them may poll address 17 of the
last string, which `dockAt` makes dock 65: its CENSUS with a bike on hire opens a HELD entry that names that dock. -/

section Beyond

/-- The tag of bike 101, on hire to member 7. -/
def strayTag : TagImage :=
  .onHire
    { bikeId := 101, ref := { station := 1, count := 1 }, hirer := .member 7, start := 1, plan := 0, generation := 1, credit := 0 }

/-- A CENSUS of the node at address 17, with that bike. -/
def strayReply : NodeReply :=
  { checkOk := true, address := 17, taken := none, outcome := .working, power := .normal
    event := some (1, .census .locked true (some (tagBytes strayTag)) .demand) }

/-- The part after reset with a poll of address 17 of the last string in progress. -/
def strayPart : State :=
  { State.reset with
    strings := List.replicate 3 (.atStart 0) ++
      [{ count := 0, next := 1, resetSent := false
         poll := some { address := 17, censusMark := true, lastEvent := none, command := none, windowAt := 12 } }]
    pending := [.pollReply .d strayReply] }

/-- The part after the reply. -/
def strayHeard : State :=
  ({ strayPart with pending := [] } : State).hear 4 strayReply |>.finish { strayPart with pending := [] }

theorem step_stray : step strayPart = .next strayHeard := by
  have row : exec (.pollReply .d strayReply) { strayPart with pending := [] } = .next strayHeard :=
    pollReply_row (x := .d) rfl rfl
  exact row

theorem strayPart_sized : strayPart.sized := by
  unfold State.sized
  decide +kernel

theorem strayPart_bounded : strayPart.bounded := by
  unfold State.bounded
  decide +kernel

/-- No bike is docked and no entry held, as after reset. -/
theorem strayPart_heldLaw : strayPart.heldLaw := by
  obtain ⟨-, -, -, -, -, -, -, -, -, -, held, -⟩ := resetIsSafe
  exact held

/-- The HELD entry names dock 65. -/
theorem strayHeard_entries : strayHeard.entries.map (fun e => e.stage) = [.held 101 65 120000] := by decide +kernel

end Beyond

/-- Refutes O6: `strayPart` keeps the laws of sizes, bounds and HELD entries, and after its step a HELD entry names dock 65. -/
theorem not_placesAreKept : ¬ Obligations.PlacesAreKept := by
  intro h
  obtain ⟨-, -, -, -, -, -, -, -, keepsHeld, -⟩ := h
  have law : strayHeard.heldLaw := keepsHeld strayPart strayHeard strayPart_sized strayPart_bounded strayPart_heldLaw step_stray
  obtain ⟨-, named, -⟩ := law (by decide +kernel)
  have held : EntryStage.held 101 65 120000 ∈ strayHeard.entries.map (fun e => e.stage) := by
    rw [strayHeard_entries]
    exact List.mem_singleton_self _
  obtain ⟨e, mem, stage⟩ := List.mem_map.1 held
  exact absurd (named e mem 101 65 120000 stage).1 (by decide)

end Sys2Proof.Machine
end

