-- ==== Sys2Proof/Proofs/Booked.lean ====
section
/-! PROOFS. The reservations of docks and the mark VAN_STATE: one lemma for each function of the blocks behind the link, which
leaves every dock's reservation as it stood or sets the mark (R139). -/

namespace Sys2Proof.Machine

/-- From `a` to `s` a pending VAN_STATE is not lost, and a change of a dock's reservation has set it (R139). -/
structure Booked (a s : State) : Prop where
  marked : a.link.marks.vanState = true → s.link.marks.vanState = true
  noticed : s.docks.map Dock.reservation = a.docks.map Dock.reservation ∨ s.link.marks.vanState = true

namespace Booked
variable {a s : State}

theorem refl : Booked a a := ⟨id, .inl rfl⟩

theorem same {t : State} (hs : Booked a s) (hm : s.link.marks.vanState = true → t.link.marks.vanState = true)
    (hd : t.docks.map Dock.reservation = s.docks.map Dock.reservation) : Booked a t :=
  ⟨hm ∘ hs.marked, hs.noticed.imp hd.trans hm⟩

/-! ### The updates -/

theorem raise (hs : Booked a s) (k : NoticeKind) : Booked a (s.raise k) :=
  hs.same (fun h => by cases k <;> simp [Marks.put, h]) (by simp)

theorem raised {t : State} (hs : Booked a s) (k : NoticeKind) (hm : t.link.marks = s.link.marks)
    (hd : t.docks.map Dock.reservation = s.docks.map Dock.reservation) : Booked a (t.raise k) :=
  raise (hs.same (hm ▸ id) hd) k

theorem post (hs : Booked a s) (b : Body) : Booked a (s.post b) := hs.same (by simp) (by simp)

theorem putPass (hs : Booked a s) (slot : Nat) (p : Option Pass) : Booked a (s.putPass slot p) := by
  unfold State.putPass
  dsimp only
  split
  · exact hs.same id rfl
  · exact hs.raised .passState rfl rfl

theorem putDock (hs : Booked a s) (d : Nat) (x : Dock) (hx : x.reservation = (s.dock d).reservation) :
    Booked a (s.putDock d x) := by
  have kept := hs.same (t := { s with docks := setEntry s.docks d x }) id
    (map_setEntry_same Dock.reservation s.docks d (Dock.atStart false) x hx)
  unfold State.putDock
  dsimp only
  split
  · exact kept
  · exact kept.raise .dockState

theorem putVan (hs : Booked a s) (v : Van) : Booked a (s.putVan v) := by
  unfold State.putVan
  dsimp only
  split
  · exact hs.same id rfl
  · exact hs.raised .vanState rfl rfl

theorem putAttention (hs : Booked a s) (x : Attention) : Booked a (s.putAttention x) := by
  unfold State.putAttention
  split
  · exact hs
  · exact hs.raised .attention rfl rfl

theorem clearAttention (hs : Booked a s) : Booked a s.clearAttention := hs.raised .attention rfl rfl

theorem sold (hs : Booked a s) (v : PassRegion) : Booked a ((s.putPasses v).raise .passState) :=
  hs.raised .passState rfl rfl

theorem putTariffs (hs : Booked a s) (v : TariffSet) : Booked a (s.putTariffs v) := hs.same id rfl
theorem putDenied (hs : Booked a s) (v : List Nat) : Booked a (s.putDenied v) := hs.same id rfl
theorem putHires (hs : Booked a s) (v : List OpenHire) : Booked a (s.putHires v) := hs.same id rfl
theorem putHireCount (hs : Booked a s) (v : Nat) : Booked a (s.putHireCount v) := hs.same id rfl
theorem putSettle (hs : Booked a s) (v : SettleRegion) : Booked a (s.putSettle v) := hs.same id rfl
theorem nodes (hs : Booked a s) (ns : List Node) : Booked a { s with nodes := ns } := hs.same id rfl
theorem van (hs : Booked a s) (v : Van) : Booked a { s with van := v } := hs.same id rfl
theorem faults (hs : Booked a s) (fs : List FaultRecord) (n : Nat) :
    Booked a { s with faults := fs, faultsDropped := n } := hs.same id rfl
theorem runs (hs : Booked a s) (rs : List Nat) : Booked a { s with readerRuns := rs } := hs.same id rfl
theorem offline (hs : Booked a s) (os : List (Option Nat)) : Booked a { s with offlineAt := os } := hs.same id rfl
theorem sixth (hs : Booked a s) (x : List SixthRecord) : Booked a { s with sixth := x } := hs.same id rfl
theorem setAside (hs : Booked a s) (n : Nat) : Booked a { s with setAside := n } := hs.same id rfl
theorem replySlot (hs : Booked a s) (n : Nat) : Booked a { s with replySlot := n } := hs.same id rfl
theorem directives (hs : Booked a s) (ds : List Directive) : Booked a { s with directives := ds } := hs.same id rfl
theorem codePosition (hs : Booked a s) (n : Nat) : Booked a { s with codePosition := n } := hs.same id rfl
theorem strings (hs : Booked a s) (ls : List StringLine) : Booked a { s with strings := ls } := hs.same id rfl
theorem censusLimit (hs : Booked a s) (t : Option Nat) : Booked a { s with censusLimit := t } := hs.same id rfl
theorem censusReported (hs : Booked a s) (b : Bool) : Booked a { s with censusReported := b } := hs.same id rfl
theorem hireExamAt (hs : Booked a s) (n : Nat) : Booked a { s with hireExamAt := n } := hs.same id rfl
theorem passExamAt (hs : Booked a s) (n : Nat) : Booked a { s with passExamAt := n } := hs.same id rfl

/-! ### Ops -/

theorem putNode (hs : Booked a s) (d : Nat) (n : Node) : Booked a (s.putNode d n) := hs.nodes ..

theorem markSettling (hs : Booked a s) (d : Nat) (b : Bool) : Booked a (s.markSettling d b) := hs.putDock _ _ rfl

theorem takeSlot (hs : Booked a s) : Booked a s.takeSlot := hs.setAside ..

theorem returnSlot (hs : Booked a s) : Booked a s.returnSlot := hs.setAside ..

theorem removeHire (hs : Booked a s) (ref : HireRef) : Booked a (s.removeHire ref) := hs.putHires ..

/-! ### Commands -/

theorem issue (hs : Booked a s) (d : Nat) (c : Command) : Booked a (s.issue d c) := by
  rw [State.issue_eq]
  repeat' split
  all_goals (repeat' first | exact hs | apply putNode)

theorem endCommand (hs : Booked a s) (d : Nat) : Booked a (s.endCommand d) := hs.putNode ..

theorem dressed (hs : Booked a s) (d : Nat) (i : Option Indication) :
    Booked a { s with docks := setEntry s.docks d { s.dock d with shown := i } } :=
  hs.same id (map_setEntry_same Dock.reservation s.docks d (Dock.atStart false) { s.dock d with shown := i } rfl)

theorem showResting (hs : Booked a s) (d : Nat) : Booked a (s.showResting d) := by
  unfold State.showResting
  dsimp only
  split
  · exact (hs.dressed d _).issue _ _
  · exact hs

theorem reissueShow (hs : Booked a s) (d : Nat) : Booked a (s.reissueShow d) := by
  unfold State.reissueShow
  dsimp only
  split
  · exact hs
  · exact (hs.dressed d _).issue _ _

theorem foldl {α : Type} (hs : Booked a s) (f : State → α → State) (hf : ∀ s x, Booked a s → Booked a (f s x))
    (l : List α) : Booked a (l.foldl f s) := by
  induction l generalizing s with
  | nil => exact hs
  | cons x l ih => exact ih (hf s x hs)

theorem showAll (hs : Booked a s) : Booked a s.showAll :=
  hs.foldl State.showResting (fun _ d h => h.showResting d) dockNumbers

theorem showRefused (hs : Booked a s) (d : Nat) : Booked a (s.showRefused d) := hs.issue ..

/-! ### Passes -/

theorem settlePass (hs : Booked a s) (slot : Nat) : Booked a (s.settlePass slot) := by
  unfold State.settlePass
  repeat' split
  all_goals (repeat' first | exact hs | apply post | apply putPass)

theorem enterSettling (hs : Booked a s) (slot : Nat) (p : Pass) : Booked a (s.enterSettling slot p) := by
  unfold State.enterSettling
  repeat' first | exact hs | apply putPass | apply settlePass

theorem chargeAndMove (hs : Booked a s) (slot : Nat) (p : Pass) (amount : Nat) :
    Booked a (s.chargeAndMove slot p amount) := by
  unfold State.chargeAndMove
  dsimp only
  repeat' split
  all_goals (repeat' first | exact hs | apply putPass | apply enterSettling)

theorem chargeClose (hs : Booked a s) (ref : HireRef) (hirer : Hirer) (fare : Nat) :
    Booked a (s.chargeClose ref hirer fare).1 := by
  unfold State.chargeClose
  repeat' split
  all_goals (repeat' first | exact hs | apply chargeAndMove)

theorem chargeRide (hs : Booked a s) (slot serial : Nat) (ref : HireRef) (amount : Nat)
    {x : State × Nat × Nat × PassState} (hx : s.chargeRide slot serial ref amount = some x) : Booked a x.1 := by
  unfold State.chargeRide at hx
  split at hx
  · cases hx
  · cases hx
    exact (hs.removeHire _).chargeAndMove _ _ _

theorem passLeaves (hs : Booked a s) (slot serial : Nat) (ref : HireRef) : Booked a (s.passLeaves slot serial ref) := by
  unfold State.passLeaves
  repeat' split
  all_goals (repeat' first | exact hs | apply putPass)

theorem passReturns (hs : Booked a s) (slot serial : Nat) (ref : HireRef) : Booked a (s.passReturns slot serial ref) := by
  unfold State.passReturns
  repeat' split
  all_goals (repeat' first | exact hs | apply putPass)

theorem holdExpiry (hs : Booked a s) (slot serial : Nat) : Booked a (s.holdExpiry slot serial) :=
  hs.same id (by simp [State.holdExpiry, Function.comp_def])

theorem expirePass (hs : Booked a s) (slot : Nat) (p : Pass) : Booked a (s.expirePass slot p) := by
  unfold State.expirePass
  repeat' split
  all_goals (repeat' first | exact hs | apply enterSettling | apply holdExpiry)

theorem takeExpiry (hs : Booked a s) (slot : Nat) : Booked a (s.takeExpiry slot) := by
  unfold State.takeExpiry
  repeat' split
  all_goals (repeat' first | exact hs | apply expirePass)

theorem takeHeldExpiry (hs : Booked a s) (slot serial : Nat) (held : Bool) :
    Booked a (s.takeHeldExpiry slot serial held) := by
  unfold State.takeHeldExpiry
  repeat' split
  all_goals (repeat' first | exact hs | apply expirePass)

theorem retirePass (hs : Booked a s) (slot : Nat) (p : Pass) (h : OpenHire) : Booked a (s.retirePass slot p h) := by
  unfold State.retirePass
  repeat' first | exact hs | apply post | apply removeHire | apply enterSettling

theorem retireDue (hs : Booked a s) (t : Nat) (l : List Nat) : Booked a (State.retireDue t l s) := by
  induction l generalizing s with
  | nil => exact hs
  | cons slot l ih =>
    unfold State.retireDue
    repeat' split
    all_goals first | exact ih hs | exact hs | exact ih (retirePass hs _ _ _)

theorem examinePasses (hs : Booked a s) : Booked a s.examinePasses := by
  unfold State.examinePasses
  repeat' split
  all_goals (repeat' first | exact hs | apply retireDue)

theorem sell (hs : Booked a s) (slot terminal : Nat) (kind : PassKind) (hold : Nat) (authRef : List Byte) (t : Nat) :
    Booked a (s.sell slot terminal kind hold authRef t).1 := by
  unfold State.sell
  dsimp only
  exact ((hs.codePosition _).sold _).post _

theorem of_ownTerminalAuth (hs : Booked a s) (terminal kind hold : Nat) (authRef : List Byte) :
    Booked a (ownTerminalAuth terminal kind hold authRef s).1 := by
  unfold ownTerminalAuth
  repeat' split
  all_goals (repeat' first | exact hs | apply sell)

theorem of_ownPassGet (hs : Booked a s) (slot : Nat) : Booked a (ownPassGet slot s).1 := by
  unfold ownPassGet
  repeat' split
  all_goals exact hs

theorem of_ownPassCancel (hs : Booked a s) (slot serial : Nat) : Booked a (ownPassCancel slot serial s).1 := by
  unfold ownPassCancel
  repeat' split
  all_goals (repeat' first | exact hs | apply enterSettling)

/-! ### Journal -/

theorem postSixth (hs : Booked a s) (r : SixthRecord) : Booked a (s.postSixth r) := by
  unfold State.postSixth
  dsimp only
  repeat' split
  all_goals (repeat' first | exact hs | apply putTariffs | apply post)

theorem makeSixth (hs : Booked a s) (r : SixthRecord) : Booked a (s.makeSixth r) := by
  unfold State.makeSixth
  repeat' split
  all_goals (repeat' first | exact hs | apply postSixth | apply sixth)

theorem serveSixth (hs : Booked a s) : Booked a s.serveSixth := by
  unfold State.serveSixth
  repeat' split
  all_goals (repeat' first | exact hs | apply postSixth | apply sixth)

/-! ### Fare -/

theorem of_ownStageBand (hs : Booked a s) (band : Nat) (edge : Option Nat) (block rate : Nat) :
    Booked a (ownStageBand band edge block rate s).1 := by
  unfold ownStageBand
  dsimp only
  repeat' split
  all_goals (repeat' first | exact hs | apply putTariffs)

theorem of_ownStageClear (hs : Booked a s) : Booked a (ownStageClear s).1 := by
  unfold ownStageClear
  dsimp only
  repeat' split
  all_goals (repeat' first | exact hs | apply putTariffs)

theorem applyCommit (hs : Booked a s) (requested : Option Nat) : Booked a (s.applyCommit requested) := by
  unfold State.applyCommit
  dsimp only
  repeat' split
  all_goals (repeat' first | exact hs | apply putTariffs | apply post | apply sixth)

theorem applyAt (hs : Booked a s) : Booked a s.applyAt := by
  unfold State.applyAt
  repeat' split
  all_goals (repeat' first | exact hs | apply applyCommit)

theorem of_ownTariffCommit (hs : Booked a s) (mode : CommitArg) : Booked a (ownTariffCommit mode s).1 := by
  unfold ownTariffCommit
  dsimp only
  repeat' split
  all_goals (repeat' first | exact hs | apply putTariffs | apply applyCommit)

theorem of_ownTariffGet (hs : Booked a s) (selector : Nat) : Booked a (ownTariffGet selector s).1 := by
  unfold ownTariffGet
  dsimp only
  repeat' split
  all_goals exact hs

/-! ### Settle -/

theorem putEntries (hs : Booked a s) (es : List SettleEntry) : Booked a (s.putEntries es) := hs.putSettle _

theorem postClose (hs : Booked a s) (i : Nat) (e : SettleEntry) (cause : FinalCause) (time : Option Nat)
    (pass : PassResult) : Booked a (s.postClose i e cause time pass) :=
  (hs.post _).putSettle _

theorem serveClose (hs : Booked a s) : Booked a s.serveClose := by
  unfold State.serveClose
  repeat' split
  all_goals (repeat' first | exact hs | apply postClose)

theorem unmark (hs : Booked a s) (dock bike : Nat) : Booked a (s.unmark dock bike) := by
  unfold State.unmark
  repeat' split
  all_goals (repeat' first | exact hs | apply markSettling)

theorem finalise (hs : Booked a s) (i : Nat) (cause : FinalCause) : Booked a (s.finalise i cause) := by
  unfold State.finalise
  dsimp only
  repeat' split
  · exact hs
  · exact hs
  · exact ((hs.chargeClose _ _ _).unmark _ _).postClose _ _ _ _ _
  · exact ((hs.chargeClose _ _ _).unmark _ _).putEntries _

theorem finaliseBike (hs : Booked a s) (bike : Nat) (reason : EarlyReason) : Booked a (s.finaliseBike bike reason) := by
  unfold State.finaliseBike
  repeat' split
  all_goals (repeat' first | exact hs | apply finalise)

theorem settleDock (hs : Booked a s) (d : Nat) (reason : EarlyReason) : Booked a (s.settleDock d reason) := by
  unfold State.settleDock
  repeat' split
  all_goals (repeat' first | exact hs | apply finaliseBike)

theorem finaliseHire (hs : Booked a s) (ref : HireRef) : Booked a (s.finaliseHire ref) := by
  unfold State.finaliseHire
  repeat' split
  all_goals (repeat' first | exact hs | apply finalise)

theorem makeRoom (hs : Booked a s) : Booked a s.makeRoom := by
  unfold State.makeRoom
  extract_lets s1
  have h1 : Booked a s1 := by
    unfold s1
    split
    · exact hs.finalise _ _
    · exact hs
  split
  · exact hs
  · split
    · exact h1
    · exact h1.putSettle _

theorem openEntry (hs : Booked a s) (c : PricedClose) (bike dock : Nat) : Booked a (s.openEntry c bike dock) := by
  unfold State.openEntry
  dsimp only
  split
  · exact ((((hs.finaliseBike _ _).makeRoom).putEntries _).markSettling _ _).finalise _ _
  · exact (((hs.finaliseBike _ _).makeRoom).putEntries _).markSettling _ _

theorem waive (hs : Booked a s) (bike : Nat) (source : WaiverSource) (kind : BikeFault) :
    Booked a (s.waive bike source kind) := by
  unfold State.waive
  repeat' split
  all_goals first | exact hs | exact hs.putEntries _

theorem waiveForReporter (hs : Booked a s) (bike : Nat) (kind : BikeFault) (reporter : Reporter) :
    Booked a (s.waiveForReporter bike kind reporter) := by
  unfold State.waiveForReporter
  repeat' split
  all_goals (repeat' first | exact hs | apply waive)

theorem waiveForKey (hs : Booked a s) (bike dock : Nat) (kind : BikeFault) (reporter : Reporter) :
    Booked a (s.waiveForKey bike dock kind reporter) := by
  unfold State.waiveForKey
  repeat' split
  all_goals (repeat' first | exact hs | apply waive)

theorem settleDue (hs : Booked a s) (bike : Nat) : Booked a (s.settleDue bike) := by
  unfold State.settleDue
  repeat' split
  all_goals (repeat' first | exact hs | apply finalise)

/-! ### Van -/

theorem putReservation (_hs : Booked a s) (d : Nat) (r : Reservation) : Booked a (s.putReservation d r) :=
  ⟨fun _ => by simp [State.putReservation, Marks.put], .inr (by simp [State.putReservation, Marks.put])⟩

theorem updateEntry (hs : Booked a s) (n : Nat) (f : ManifestEntry → ManifestEntry) : Booked a (s.updateEntry n f) := by
  unfold State.updateEntry
  dsimp only
  repeat' split
  all_goals (repeat' first | exact hs | apply putVan)

theorem restartIdle (hs : Booked a s) : Booked a s.restartIdle := by
  unfold State.restartIdle
  dsimp only
  repeat' split
  all_goals (repeat' first | exact hs | apply van)

theorem makeMove (hs : Booked a s) (m : VanMove) : Booked a (s.makeMove m) := by
  unfold State.makeMove
  repeat' split
  · exact hs.post _
  · exact hs.van _
  · exact hs.van _

theorem postSummary (hs : Booked a s) (v : VanSummary) : Booked a (s.postSummary v) := (hs.post _).putVan _

theorem serveVan (hs : Booked a s) : Booked a s.serveVan := by
  unfold State.serveVan
  repeat' split
  · exact (hs.van _).post _
  · exact hs.postSummary _
  · exact hs

theorem closeUp (hs : Booked a s) : Booked a s.closeUp := by
  unfold State.closeUp
  dsimp only
  repeat' split
  all_goals (repeat' first | exact hs | apply postSummary | apply van)

theorem endSession (hs : Booked a s) (endedBy : EndedBy) (outcome : VanOutcome) :
    Booked a (s.endSession endedBy outcome) :=
  ((hs.foldl (fun t d => t.putReservation d .unreserved) (fun _ d h => h.putReservation d _) s.droppable).putVan _).closeUp

theorem endIfMet (hs : Booked a s) : Booked a s.endIfMet := by
  unfold State.endIfMet
  repeat' split
  all_goals (repeat' first | exact hs | apply endSession)

theorem placeCollect (hs : Booked a s) (n d : Nat) : Booked a (s.placeCollect n d) := by
  unfold State.placeCollect
  repeat' first | exact hs | apply settleDock | apply putReservation

theorem placeOne {t : State} (hs : Booked a s) (n : Nat) (kind : ManifestKind) (ht : s.placeOne n kind = some t) :
    Booked a t := by
  unfold State.placeOne at ht
  split at ht <;> obtain ⟨d, _, rfl⟩ := Option.map_eq_some_iff.1 ht
  · exact hs.placeCollect _ _
  · exact hs.putReservation _ _

theorem placeMany (hs : Booked a s) (n : Nat) (kind : ManifestKind) (k : Nat) :
    Booked a (State.placeMany n kind k s) := by
  induction k generalizing s with
  | zero => exact hs
  | succ k ih =>
    unfold State.placeMany
    split
    · exact hs
    · next ht => exact ih ((hs.placeOne _ _ ht).updateEntry _ _)

theorem reserveFrom (hs : Booked a s) (n : Nat) (l : List ManifestEntry) : Booked a (State.reserveFrom n l s) := by
  induction l generalizing s n with
  | nil => exact hs
  | cons m l ih => exact ih ((hs.placeMany _ _ _).updateEntry _ _) _

theorem endPass (hs : Booked a s) : Booked a s.endPass := by
  unfold State.endPass
  dsimp only
  repeat' split
  all_goals (repeat' first | exact hs | apply putVan | apply restartIdle | apply endSession)

theorem countMove (hs : Booked a s) (collect : Bool) (n d bike : Nat) (reserved : Option Bool) :
    Booked a (s.countMove collect n d bike reserved) := by
  unfold State.countMove
  repeat' first | exact hs | apply updateEntry | apply makeMove

theorem vanRemoval (hs : Booked a s) (n d bike : Nat) : Booked a (s.vanRemoval n d bike) := by
  unfold State.vanRemoval
  repeat' first | exact hs | apply putReservation | apply restartIdle | apply closeUp | apply endIfMet | apply countMove

theorem dropHighest (hs : Booked a s) (n : Nat) : Booked a (s.dropHighest n) := by
  unfold State.dropHighest
  repeat' split
  all_goals (repeat' first | exact hs | apply putReservation)

theorem vanArrival (hs : Booked a s) (d bike : Nat) (wasEmpty : Bool) : Booked a (s.vanArrival d bike wasEmpty) := by
  unfold State.vanArrival
  repeat' split
  all_goals
    repeat' first
      | exact hs | apply putReservation | apply restartIdle | apply endIfMet | apply countMove
      | apply dropHighest

theorem fall (hs : Booked a s) (n : Nat) : Booked a (s.fall n) := by
  unfold State.fall
  repeat' first | exact hs | apply updateEntry | apply endIfMet

theorem moveDeliver (hs : Booked a s) (n : Nat) : Booked a (s.moveDeliver n) := by
  unfold State.moveDeliver
  repeat' split
  all_goals (repeat' first | exact hs | apply putReservation | apply fall)

theorem replaceCollect (hs : Booked a s) (n lost : Nat) : Booked a (s.replaceCollect n lost) := by
  unfold State.replaceCollect
  repeat' split
  all_goals (repeat' first | exact hs | apply placeCollect | apply fall)

theorem loseReservation (hs : Booked a s) (d : Nat) : Booked a (s.loseReservation d) := by
  unfold State.loseReservation
  dsimp only
  repeat' split
  all_goals (repeat' first | exact hs | apply putReservation | apply closeUp | apply moveDeliver | apply replaceCollect)

theorem disturbDeliver (hs : Booked a s) (d : Nat) : Booked a (s.disturbDeliver d) := by
  unfold State.disturbDeliver
  dsimp only
  repeat' split
  all_goals (repeat' first | exact hs | apply putReservation | apply moveDeliver)

theorem vanLapse (hs : Booked a s) (d : Nat) : Booked a (s.vanLapse d) := by
  unfold State.vanLapse
  repeat' split
  all_goals (repeat' first | exact hs | apply putReservation | apply closeUp)

theorem openVan (hs : Booked a s) (van crew : Nat) (manifest : List ManifestEntry) :
    Booked a (s.openVan van crew manifest).1 :=
  ((hs.putVan _).reserveFrom _ _).endPass

theorem of_ownVanOpen (hs : Booked a s) (van crew : Nat) (manifest : List ManifestArg) :
    Booked a (ownVanOpen van crew manifest s).1 := by
  unfold ownVanOpen
  repeat' split
  all_goals (repeat' first | exact hs | apply openVan)

theorem of_ownVanClose (hs : Booked a s) (session : Nat) : Booked a (ownVanClose session s).1 := by
  unfold ownVanClose
  repeat' split
  all_goals (repeat' first | exact hs | apply endSession)

theorem of_ownVanGet (hs : Booked a s) : Booked a (ownVanGet s).1 := by
  unfold ownVanGet
  repeat' split
  all_goals exact hs

theorem vanIdleDue (hs : Booked a s) : Booked a s.vanIdleDue := by
  unfold State.vanIdleDue
  repeat' split
  all_goals (repeat' first | exact hs | apply endSession)

/-! ### Faults -/

theorem setAttention (hs : Booked a s) (c : AttentionCause) : Booked a (s.setAttention c) := hs.putAttention ..

theorem postFault (hs : Booked a s) (f : FaultRecord) : Booked a (s.postFault f) := (hs.post _).faults _ 0

theorem makeFault (hs : Booked a s) (f : FaultRecord) : Booked a (s.makeFault f) := by
  unfold State.makeFault
  split
  · exact hs.postFault _
  · exact hs.faults _ _

theorem serveFault (hs : Booked a s) : Booked a s.serveFault := by
  unfold State.serveFault
  split
  · exact hs
  · exact (hs.faults _ s.faultsDropped).postFault _

theorem putBike (hs : Booked a s) (d : Nat) (b : Bike) : Booked a (s.putBike d b) := hs.putDock _ _ rfl

theorem attendEffect (hs : Booked a s) (e : FaultEffect) : Booked a (s.attendEffect e) := by
  unfold State.attendEffect
  repeat' split
  all_goals (repeat' first | exact hs | apply setAttention)

theorem reportBike (hs : Booked a s) (d : Nat) (b : Bike) (k : BikeFault) (source : FaultSource) (who : Reporter) :
    Booked a (s.reportBike d b k source who).1 := by
  unfold State.reportBike
  dsimp only
  repeat' split
  all_goals (repeat' first | exact hs | apply makeFault | apply putBike | apply attendEffect)

theorem reportAbsent (hs : Booked a s) (dock : Option Nat) (bike : Option Nat) (k : BikeFault) (source : FaultSource)
    (who : Reporter) :
    Booked a (s.reportAbsent dock bike k source who) :=
  hs.makeFault ..

theorem reportTag (hs : Booked a s) (d : Nat) : Booked a (s.reportTag d) := by
  unfold State.reportTag
  dsimp only
  repeat' split
  all_goals (repeat' first | exact hs | apply makeFault | apply putBike | apply attendEffect)

theorem reportConflict (hs : Booked a s) (d tagBike : Nat) (tagRef : Option HireRef) :
    Booked a (s.reportConflict d tagBike tagRef) := by
  unfold State.reportConflict
  dsimp only
  repeat' split
  all_goals (repeat' first | exact hs | apply makeFault | apply putBike | apply attendEffect)

theorem applyLockout (hs : Booked a s) (d : Nat) : Booked a (s.applyLockout d) := by
  unfold State.applyLockout
  dsimp only
  repeat' first | exact hs | apply putDock | apply issue | apply loseReservation
  all_goals rfl

theorem orderLockout (hs : Booked a s) (d : Nat) : Booked a (s.orderLockout d) := by
  unfold State.orderLockout
  dsimp only
  repeat' split
  all_goals (repeat' first | exact hs | apply putDock | apply applyLockout)
  all_goals rfl

theorem countFault (hs : Booked a s) (d : Nat) (kind : DockFault) (cause : DockCause) :
    Booked a (s.countFault d kind cause) := by
  unfold State.countFault
  dsimp only
  repeat' split
  all_goals (repeat' first | exact hs | apply putDock | apply setAttention | apply makeFault | apply orderLockout)
  all_goals rfl

theorem noteFault (hs : Booked a s) (d : Nat) (kind : DockFault) (cause : DockCause) :
    Booked a (s.noteFault d kind cause) :=
  hs.makeFault ..

theorem censusLockout (hs : Booked a s) (d : Nat) : Booked a (s.censusLockout d) := by
  unfold State.censusLockout
  repeat' first | exact hs | apply setAttention | apply makeFault

theorem putRun (hs : Booked a s) (d n : Nat) : Booked a (s.putRun d n) := hs.runs ..

theorem reportTap (hs : Booked a s) (d : Nat) (readable : Bool) : Booked a (s.reportTap d readable) := by
  unfold State.reportTap
  repeat' split
  all_goals (repeat' first | exact hs | apply noteFault | apply putRun)

theorem startOffline (hs : Booked a s) (d : Nat) : Booked a (s.startOffline d) := by
  unfold State.startOffline
  repeat' split
  all_goals (repeat' first | exact hs | apply offline)

theorem cancelOffline (hs : Booked a s) (d : Nat) : Booked a (s.cancelOffline d) := hs.offline ..

theorem reportSilence (hs : Booked a s) (d : Nat) : Booked a (s.reportSilence d) := by
  unfold State.reportSilence
  repeat' split
  all_goals (repeat' first | exact hs | apply noteFault)

theorem offlineDue (hs : Booked a s) (d : Nat) : Booked a (s.offlineDue d) := by
  unfold State.offlineDue
  repeat' split
  all_goals (repeat' first | exact hs | apply setAttention | apply cancelOffline)

theorem centralChange (hs : Booked a s) (d : Nat) (b : Bike) (effect : FaultEffect) :
    Booked a (s.centralChange d b effect) := by
  unfold State.centralChange
  dsimp only
  repeat' split
  all_goals (repeat' first | exact hs | apply setAttention | apply makeFault | apply putBike)

theorem setBike (hs : Booked a s) (d : Nat) (b : Bike) (next : Condition) : Booked a (s.setBike d b next).1 := by
  unfold State.setBike
  repeat' split
  all_goals first | exact hs | (dsimp only; exact hs.centralChange _ _ _)

theorem clearDock (hs : Booked a s) (d : Nat) : Booked a (s.clearDock d) := by
  unfold State.clearDock
  dsimp only
  repeat' split
  all_goals (repeat' first | exact hs | apply putDock | apply issue | apply makeFault)
  all_goals rfl

theorem of_ownPolicyGet (hs : Booked a s) (kind : Nat) : Booked a (ownPolicyGet kind s).1 := by
  unfold ownPolicyGet
  repeat' split
  all_goals exact hs

theorem takeReport (hs : Booked a s) (target : TargetArg) (k : BikeFault) (source : FaultSource) (who : Reporter) :
    Booked a (s.takeReport target k source who).1 := by
  unfold State.takeReport
  dsimp only
  repeat' split
  all_goals (repeat' first | exact hs | apply waiveForReporter | apply reportBike | apply reportAbsent)

theorem of_ownRiderReport (hs : Booked a s) (target : TargetArg) (kind source : Nat) (reporter : ReporterArg) :
    Booked a (ownRiderReport target kind source reporter s).1 := by
  unfold ownRiderReport
  repeat' split
  all_goals (repeat' first | exact hs | apply takeReport)

/-! ### Admission -/

theorem beginRelease (hs : Booked a s) (d : Nat) (r : Release) : Booked a (s.beginRelease d r) := by
  unfold State.beginRelease
  dsimp only
  repeat' split
  all_goals (repeat' first | exact hs | apply putDock | apply issue | apply settleDock)
  all_goals rfl

theorem takeRef (hs : Booked a s) : Booked a s.takeRef := hs.putHireCount ..

theorem admitRelease (hs : Booked a s) (d : Nat) (hirer : Hirer) (issue : Option Nat) (plan credit t : Nat)
    (fromDock : Bool) :
    Booked a (s.admitRelease d hirer issue plan credit t fromDock) := by
  unfold State.admitRelease
  repeat' first | exact hs | apply takeSlot | apply beginRelease | apply takeRef

theorem memberAttempt (hs : Booked a s) (d : Nat) (card : CardImage) : Booked a (s.memberAttempt d card).1 := by
  unfold State.memberAttempt
  repeat' split
  all_goals first | exact hs | exact hs.admitRelease ..

theorem crewAttempt (hs : Booked a s) (d : Nat) (card : CardImage) : Booked a (s.crewAttempt d card).1 := by
  unfold State.crewAttempt
  repeat' split
  all_goals first | exact hs | exact hs.admitRelease ..

theorem beginVan (hs : Booked a s) (d entry : Nat) (fromDock : Bool) : Booked a (s.beginVan d entry fromDock) :=
  hs.beginRelease ..

theorem collectRequest (hs : Booked a s) (d entry crew : Nat) : Booked a (s.collectRequest d entry crew).1 := by
  unfold State.collectRequest
  dsimp only
  repeat' split
  all_goals (repeat' first | exact hs | apply restartIdle | apply beginVan)

theorem crewCard (hs : Booked a s) (d : Nat) (card : CardImage) : Booked a (s.crewCard d card).1 := by
  unfold State.crewCard
  repeat' split
  all_goals (repeat' first | exact hs | apply crewAttempt | apply collectRequest)

theorem cardAttempt (hs : Booked a s) (d : Nat) (card : CardImage) : Booked a (s.cardAttempt d card).1 := by
  unfold State.cardAttempt
  repeat' split
  all_goals (repeat' first | exact hs | apply memberAttempt | apply crewCard)

theorem of_ownVanRelease (hs : Booked a s) (d : Nat) : Booked a (ownVanRelease d s).1 := by
  unfold ownVanRelease
  dsimp only
  repeat' split
  all_goals (repeat' first | exact hs | apply restartIdle | apply beginVan)

theorem reusePass (hs : Booked a s) (slot : Nat) : Booked a (s.reusePass slot) := by
  unfold State.reusePass
  repeat' split
  all_goals (repeat' first | exact hs | apply finaliseHire)

theorem passChecks (hs : Booked a s) (d slot t : Nat) : Booked a (s.passChecks d slot t).1 := by
  unfold State.passChecks
  repeat' split
  all_goals (repeat' first | exact hs | apply admitRelease)

theorem keypadAttempt (hs : Booked a s) (d code : Nat) : Booked a (s.keypadAttempt d code).1 := by
  unfold State.keypadAttempt
  repeat' split
  all_goals (repeat' first | exact hs | apply reusePass | apply passChecks)

theorem openHire (hs : Booked a s) (hirer : Hirer) (issue : Option Nat) (image : TripImage) (credit d bike : Nat) :
    Booked a (s.openHire hirer issue image credit d bike) := by
  unfold State.openHire
  dsimp only
  repeat' split
  all_goals (repeat' first | exact hs | apply putHires | apply post | apply returnSlot | apply passLeaves)

theorem closeHire (hs : Booked a s) (ref : HireRef) : Booked a (s.closeHire ref) := by
  unfold State.closeHire
  repeat' split
  all_goals (repeat' first | exact hs | apply removeHire | apply passReturns)

theorem expireHires (hs : Booked a s) (t : Nat) (l : List OpenHire) : Booked a (State.expireHires t l s) := by
  induction l generalizing s with
  | nil => exact hs
  | cons x l ih =>
    unfold State.expireHires
    repeat' split
    all_goals first | exact ih hs | exact hs | exact ih ((removeHire hs _).post _)

theorem examineHires (hs : Booked a s) : Booked a s.examineHires := by
  unfold State.examineHires
  repeat' split
  all_goals (repeat' first | exact hs | apply expireHires)

theorem of_ownPlanGet (hs : Booked a s) (code : Nat) : Booked a (ownPlanGet code s).1 := by
  unfold ownPlanGet
  repeat' split
  all_goals exact hs

/-! ### Directives -/

theorem of_runBikeSet (hs : Booked a s) (bike condition next : Nat) : Booked a (runBikeSet bike condition next s).1 := by
  unfold runBikeSet
  dsimp only
  repeat' split
  all_goals (repeat' first | exact hs | apply setBike)

theorem of_doBikeSet (hs : Booked a s) (args : List Byte) : Booked a (doBikeSet args s).1 := by
  unfold doBikeSet
  repeat' split
  all_goals (repeat' first | exact hs | apply of_runBikeSet)

theorem of_runDockClear (hs : Booked a s) (d : Nat) : Booked a (runDockClear d s).1 := by
  unfold runDockClear
  dsimp only
  repeat' split
  all_goals (repeat' first | exact hs | apply clearDock)

theorem of_doDockClear (hs : Booked a s) (args : List Byte) : Booked a (doDockClear args s).1 := by
  unfold doDockClear
  repeat' split
  all_goals (repeat' first | exact hs | apply of_runDockClear)

theorem of_runRemoteRelease (hs : Booked a s) (d member plan : Nat) : Booked a (runRemoteRelease d member plan s).1 := by
  unfold runRemoteRelease
  repeat' split
  all_goals (repeat' first | exact hs | apply admitRelease)

theorem of_doRemoteRelease (hs : Booked a s) (args : List Byte) : Booked a (doRemoteRelease args s).1 := by
  unfold doRemoteRelease
  repeat' split
  all_goals (repeat' first | exact hs | apply of_runRemoteRelease)

theorem of_runDenyAdd (hs : Booked a s) (member : Nat) : Booked a (runDenyAdd member s).1 := by
  unfold runDenyAdd
  dsimp only
  repeat' split
  all_goals (repeat' first | exact hs | apply putDenied)

theorem of_runDenyRemove (hs : Booked a s) (member : Nat) : Booked a (runDenyRemove member s).1 := by
  unfold runDenyRemove
  dsimp only
  repeat' split
  all_goals (repeat' first | exact hs | apply putDenied)

theorem of_doDenyAdd (hs : Booked a s) (args : List Byte) : Booked a (doDenyAdd args s).1 := by
  unfold doDenyAdd
  repeat' split
  all_goals (repeat' first | exact hs | apply of_runDenyAdd)

theorem of_doDenyRemove (hs : Booked a s) (args : List Byte) : Booked a (doDenyRemove args s).1 := by
  unfold doDenyRemove
  repeat' split
  all_goals (repeat' first | exact hs | apply of_runDenyRemove)

theorem of_closeHeldHire (hs : Booked a s) (h : OpenHire) : Booked a (closeHeldHire h s).1 := by
  unfold closeHeldHire
  repeat' split
  · next e => exact hs.chargeRide _ _ _ _ e
  · exact hs.removeHire _
  · exact hs.removeHire _

theorem of_doHireClosed (hs : Booked a s) (args : List Byte) : Booked a (doHireClosed args s).1 := by
  unfold doHireClosed
  repeat' split
  all_goals (repeat' first | exact hs | apply of_closeHeldHire)

theorem of_runPassCharge (hs : Booked a s) (slot serial : Nat) (ref : HireRef) (amount : Nat) :
    Booked a (runPassCharge slot serial ref amount s).1 := by
  unfold runPassCharge
  split
  · next e => exact hs.chargeRide _ _ _ _ e
  · exact hs

theorem of_doPassCharge (hs : Booked a s) (args : List Byte) : Booked a (doPassCharge args s).1 := by
  unfold doPassCharge
  repeat' split
  all_goals (repeat' first | exact hs | apply of_runPassCharge)

theorem of_doFaultSummary (hs : Booked a s) : Booked a (doFaultSummary s).1 := hs.clearAttention ..

theorem of_doCensus (hs : Booked a s) (id : Nat) : Booked a (doCensus id s).1 := by
  unfold doCensus
  dsimp only
  repeat' split
  all_goals (repeat' first | exact hs | apply postSixth | apply sixth)

theorem of_runDirective (hs : Booked a s) (x : Directive) : Booked a (runDirective x s).1 := by
  unfold runDirective
  repeat' split
  all_goals
    repeat' first
      | exact hs | apply of_doBikeSet | apply of_doDockClear | apply of_doRemoteRelease | apply of_doDenyAdd
      | apply of_doDenyRemove | apply of_doHireClosed | apply of_doPassCharge | apply of_doFaultSummary
      | apply of_doCensus

theorem replyDirective (hs : Booked a s) (x : Directive) (r : DirectiveAnswer) : Booked a (s.replyDirective x r) :=
  ((hs.replySlot 0).post _).directives _

theorem executeHead (hs : Booked a s) : Booked a s.executeHead := by
  unfold State.executeHead
  split
  · exact hs
  · exact (of_runDirective (hs.replySlot 1) _).replyDirective _ _

/-! ### Arbiter -/

theorem serve (hs : Booked a s) (p : Place) : Booked a (s.serve p) := by
  unfold State.serve
  split
  · exact hs.serveClose
  · split
    · exact hs.settlePass _
    · exact hs
  · exact hs.serveVan
  · exact hs.serveFault
  · exact hs.executeHead
  · exact hs.serveSixth

theorem drainFor (hs : Booked a s) (fuel : Nat) : Booked a (s.drainFor fuel) := by
  induction fuel generalizing s with
  | zero => exact hs
  | succ fuel ih =>
    unfold State.drainFor
    repeat' split
    · exact hs
    · exact ih (hs.serve _)
    · exact hs

theorem drain (hs : Booked a s) : Booked a s.drain := hs.drainFor ..

theorem giveBack (hs : Booked a s) : Booked a s.giveBack := by
  unfold State.giveBack
  repeat' first | exact hs | apply returnSlot | apply drain

theorem serveIfNext (hs : Booked a s) (p : Place) : Booked a (s.serveIfNext p) := by
  unfold State.serveIfNext
  repeat' split
  all_goals (repeat' first | exact hs | apply serve)

/-! ### Custody -/

theorem editDock (hs : Booked a s) (d : Nat) (f : Dock → Dock)
    (hf : ∀ x, (f x).reservation = x.reservation := by intro; rfl) : Booked a (s.editDock d f) :=
  hs.putDock _ _ (hf _)

theorem discardRelease (hs : Booked a s) (d : Nat) (x : DockState) : Booked a (s.discardRelease d x) := by
  unfold State.discardRelease
  repeat' first | exact hs | apply editDock
  all_goals exact fun _ => rfl

theorem showRefusal (hs : Booked a s) (d : Nat) (r : Release) : Booked a (s.showRefusal d r) := by
  unfold State.showRefusal
  repeat' split
  all_goals (repeat' first | exact hs | apply showRefused)

theorem tellVan (hs : Booked a s) (d : Nat) (r : Release) : Booked a (s.tellVan d r) := by
  unfold State.tellVan
  repeat' split
  all_goals (repeat' first | exact hs | apply vanLapse)

theorem clearTag (hs : Booked a s) (d : Nat) (r : Release) : Booked a (s.clearTag d r) := by
  unfold State.clearTag
  repeat' split
  all_goals (repeat' first | exact hs | apply issue)

theorem applyPending (hs : Booked a s) (d : Nat) : Booked a (s.applyPending d) := by
  unfold State.applyPending
  repeat' split
  all_goals (repeat' first | exact hs | apply applyLockout)

theorem giveUp (hs : Booked a s) (r : Release) : Booked a (s.giveUp r) := by
  unfold State.giveUp
  repeat' split
  all_goals (repeat' first | exact hs | apply takeHeldExpiry | apply giveBack)

theorem failTag (hs : Booked a s) (d : Nat) (r : Release) : Booked a (s.failTag d r) := by
  unfold State.failTag
  dsimp only
  repeat' split
  all_goals
    repeat' first
      | exact hs | apply issue | apply reportTag | apply applyLockout | apply discardRelease
      | apply showRefusal | apply tellVan | apply giveUp

theorem failUnlock (hs : Booked a s) (d : Nat) (r : Release) (kind : DockFault) (cause : DockCause) :
    Booked a (s.failUnlock d r kind cause) := by
  unfold State.failUnlock
  dsimp only
  repeat' split
  all_goals
    repeat' first
      | exact hs | apply issue | apply countFault | apply discardRelease | apply showRefusal | apply tellVan
      | apply clearTag | apply applyPending | apply giveUp

theorem lapse (hs : Booked a s) (d : Nat) (r : Release) : Booked a (s.lapse d r) := by
  unfold State.lapse
  dsimp only
  repeat' split
  all_goals
    repeat' first
      | exact hs | apply issue | apply discardRelease | apply tellVan | apply clearTag | apply applyPending
      | apply giveUp

theorem lapseLocked (hs : Booked a s) (d : Nat) (r : Release) : Booked a (s.lapseLocked d r) := by
  unfold State.lapseLocked
  dsimp only
  repeat' first | exact hs | apply discardRelease | apply tellVan | apply clearTag | apply applyPending | apply giveUp

theorem discardBike (hs : Booked a s) (d : Nat) (reason : EarlyReason) : Booked a (s.discardBike d reason) := by
  unfold State.discardBike
  repeat' first | exact hs | apply settleDock | apply editDock
  all_goals exact fun _ => rfl

theorem removal (hs : Booked a s) (d : Nat) (r : Release) : Booked a (s.removal d r) := by
  unfold State.removal
  dsimp only
  repeat' split
  all_goals
    repeat' first
      | exact hs | apply vanRemoval | apply openHire | apply discardRelease | apply applyPending
      | apply discardBike

theorem loseCollect (hs : Booked a s) (d : Nat) : Booked a (s.loseCollect d) := by
  unfold State.loseCollect
  repeat' split
  all_goals (repeat' first | exact hs | apply loseReservation)

theorem unreleasedRemoval (hs : Booked a s) (d : Nat) (reason : EarlyReason) :
    Booked a (s.unreleasedRemoval d reason) := by
  unfold State.unreleasedRemoval
  dsimp only
  have gone : ∀ x : DockState, Booked a (((s.discardBike d reason).discardRelease d x).editDock d
      (fun k => { k with relockAt := none })) := fun x => ((hs.discardBike _ _).discardRelease _ _).editDock _ _
  cases (s.dock d).release with
  | none => exact ((gone _).countFault _ _ _).loseCollect _
  | some r =>
    exact ((((((gone _).showRefusal _ _).tellVan _ _).applyPending _).countFault _ _ _).loseCollect _).giveUp _

theorem onRemoved (hs : Booked a s) (d : Nat) (reason : EarlyReason) : Booked a (s.onRemoved d reason) := by
  unfold State.onRemoved
  dsimp only
  repeat' split
  all_goals (repeat' first | exact hs | apply removal | apply unreleasedRemoval)

theorem dockBike (hs : Booked a s) (d id : Nat) (found : Found) : Booked a (s.dockBike d id found) := by
  unfold State.dockBike
  repeat' first | exact hs | apply editDock
  all_goals exact fun _ => rfl

theorem lockArrival (hs : Booked a s) (d : Nat) (found : Found) : Booked a (s.lockArrival d found) := by
  unfold State.lockArrival
  dsimp only
  repeat' split
  all_goals (repeat' first | exact hs | apply issue)

theorem takeReturn (hs : Booked a s) (d : Nat) (image : TripImage) (eligible startup : Bool) :
    Booked a (s.takeReturn d image eligible startup) := by
  unfold State.takeReturn
  dsimp only
  repeat' first | exact hs | apply markSettling | apply openEntry | apply disturbDeliver | apply closeHire

theorem arrive (hs : Booked a s) (d : Nat) (image : Option TagImage) (found : Found) (startup : Bool) :
    Booked a (s.arrive d image found startup) := by
  have docked : ∀ id, Booked a ((s.dockBike d id found).lockArrival d found) := fun id =>
    (hs.dockBike _ _ _).lockArrival _ _
  unfold State.arrive
  dsimp only
  repeat' split
  · exact ((docked _).reportTag _).disturbDeliver _
  · exact ((docked _).reportConflict _ _ _).disturbDeliver _
  · exact (docked _).vanArrival _ _ _
  · exact ((docked _).reportConflict _ _ _).disturbDeliver _
  · exact (((hs.dockBike _ _ _).issue _ _).lockArrival _ _).takeReturn _ _ _ _

theorem replaceBike (hs : Booked a s) (d : Nat) (image : Option TagImage) : Booked a (s.replaceBike d image) := by
  unfold State.replaceBike
  repeat' first | exact hs | apply discardBike | apply arrive

theorem onPresent (hs : Booked a s) (d : Nat) (image : Option TagImage) : Booked a (s.onPresent d image) := by
  unfold State.onPresent
  dsimp only
  split
  · exact hs.arrive _ _ _ _
  · split
    · split
      · exact hs
      · exact hs.replaceBike _ _
    · exact hs.arrive _ _ _ _
  · split
    · split
      · exact hs
      · exact hs.replaceBike _ _
    · exact hs.arrive _ _ _ _
  all_goals exact hs

theorem onUnlocked (hs : Booked a s) (d : Nat) : Booked a (s.onUnlocked d) := by
  unfold State.onUnlocked
  dsimp only
  repeat' split
  all_goals (repeat' first | exact hs | apply issue | apply editDock)
  all_goals exact fun _ => rfl

theorem onLocked (hs : Booked a s) (d : Nat) : Booked a (s.onLocked d) := by
  unfold State.onLocked
  dsimp only
  repeat' split
  all_goals (repeat' first | exact hs | apply editDock | apply lapseLocked)
  all_goals exact fun _ => rfl

theorem failLock (hs : Booked a s) (d : Nat) (kind : DockFault) (cause : DockCause) :
    Booked a (s.failLock d kind cause) := by
  unfold State.failLock
  dsimp only
  repeat' split
  all_goals (repeat' first | exact hs | apply countFault | apply editDock)
  all_goals exact fun _ => rfl

theorem onLockFail (hs : Booked a s) (d : Nat) (kind : LockFailKind) (ended : Bool) :
    Booked a (s.onLockFail d kind ended) := by
  unfold State.onLockFail
  dsimp only
  repeat' split
  all_goals (repeat' first | exact hs | apply countFault | apply failUnlock | apply failLock)

theorem answerAttempt {r : State × Option Reason} (hs : Booked a r.1) (d : Nat) :
    Booked a (State.answerAttempt d r) := by
  unfold State.answerAttempt
  split
  · exact hs.showRefused _
  · exact hs

theorem onTap (hs : Booked a s) (d : Nat) (card : Option CardImage) : Booked a (s.onTap d card) := by
  unfold State.onTap
  repeat' split
  all_goals (repeat' first | exact hs | apply showRefused | apply reportTap | apply cardAttempt | apply answerAttempt)

theorem onKeypad (hs : Booked a s) (d code : Nat) : Booked a (s.onKeypad d code) := by
  unfold State.onKeypad
  repeat' first | exact hs | apply keypadAttempt | apply answerAttempt

theorem onFaultKey (hs : Booked a s) (d : Nat) (k : BikeFault) : Booked a (s.onFaultKey d k) := by
  unfold State.onFaultKey
  repeat' split
  all_goals (repeat' first | exact hs | apply waiveForKey | apply reportBike | apply reportAbsent)

theorem onPowerLow (hs : Booked a s) (d : Nat) : Booked a (s.onPowerLow d) := hs.noteFault ..

theorem tagResult (hs : Booked a s) (d : Nat) (r : Release) (x : CommandResult) : Booked a (s.tagResult d r x) := by
  unfold State.tagResult
  repeat' split
  all_goals (repeat' first | exact hs | apply issue | apply editDock | apply failTag)
  all_goals exact fun _ => rfl

theorem unlockTimedOut (hs : Booked a s) (d : Nat) : Booked a (s.unlockTimedOut d) := by
  unfold State.unlockTimedOut
  dsimp only
  repeat' split
  all_goals (repeat' first | exact hs | apply countFault | apply failUnlock)

theorem lockTimedOut (hs : Booked a s) (d : Nat) : Booked a (s.lockTimedOut d) := by
  unfold State.lockTimedOut
  repeat' split
  all_goals (repeat' first | exact hs | apply countFault | apply failLock)

theorem onEnded (hs : Booked a s) (d : Nat) (c : Command) (x : CommandResult) : Booked a (s.onEnded d c x) := by
  unfold State.onEnded
  repeat' split
  all_goals
    repeat' first
      | exact hs | apply reissueShow | apply reportTag | apply tagResult | apply unlockTimedOut
      | apply lockTimedOut

theorem onResult (hs : Booked a s) (d : Nat) (c : Command) (x : CommandResult) : Booked a (s.onResult d c x) := by
  unfold State.onResult
  split <;> first | exact hs | exact onEnded hs _ _ _

theorem takeOffline (hs : Booked a s) (d : Nat) (silence : Bool) : Booked a (s.takeOffline d silence) := by
  unfold State.takeOffline
  dsimp only
  repeat' split
  all_goals
    repeat' first
      | exact hs | apply loseReservation | apply startOffline | apply reportSilence | apply editDock
      | apply discardRelease | apply tellVan | apply giveUp
  all_goals exact fun _ => rfl

theorem matchCensus (hs : Booked a s) (d : Nat) (present : Option (Option TagImage)) :
    Booked a (s.matchCensus d present) := by
  unfold State.matchCensus
  repeat' split
  all_goals (repeat' first | exact hs | apply issue | apply reportTag | apply discardBike | apply arrive)

theorem reconcile (hs : Booked a s) (d : Nat) (lock : LockPosition) (present : Option (Option TagImage)) :
    Booked a (s.reconcile d lock present) := by
  unfold State.reconcile
  extract_lets s0 s1 s2 s3 s4
  have h0 : Booked a s0 := by
    unfold s0
    split
    · exact hs
    · exact hs.takeOffline _ _
  have h1 : Booked a s1 := (h0.editDock _ _).matchCensus _ _
  have h2 : Booked a s2 := by
    unfold s2
    split
    · exact h1.issue _ _
    · exact h1
  have h3 : Booked a s3 := h2.editDock _ _
  have h4 : Booked a s4 := by
    unfold s4
    split
    · exact h3.censusLockout _
    · exact h3
  exact (h4.cancelOffline _).putRun _ _

theorem overflowPresence (hs : Booked a s) (d : Nat) (present : Option (Option TagImage)) :
    Booked a (s.overflowPresence d present) := by
  unfold State.overflowPresence
  repeat' split
  all_goals (repeat' first | exact hs | apply onRemoved | apply onPresent)

theorem overflowLock (hs : Booked a s) (d : Nat) (lock : LockPosition) : Booked a (s.overflowLock d lock) := by
  unfold State.overflowLock
  repeat' split
  all_goals (repeat' first | exact hs | apply onUnlocked | apply onLocked)

theorem overflow (hs : Booked a s) (d : Nat) (lock : LockPosition) (present : Option (Option TagImage)) :
    Booked a (s.overflow d lock present) := by
  unfold State.overflow
  repeat' first | exact hs | apply editDock | apply overflowPresence | apply overflowLock
  all_goals exact fun _ => rfl

theorem windowDue (hs : Booked a s) (d : Nat) : Booked a (s.windowDue d) := by
  unfold State.windowDue
  dsimp only
  repeat' split
  all_goals (repeat' first | exact hs | apply lapse)

theorem relockDue (hs : Booked a s) (d : Nat) : Booked a (s.relockDue d) := by
  unfold State.relockDue
  dsimp only
  repeat' split
  all_goals (repeat' first | exact hs | apply issue | apply editDock)
  all_goals exact fun _ => rfl

theorem of_ownDockGet (hs : Booked a s) (d : Nat) : Booked a (ownDockGet d s).1 := by
  unfold ownDockGet
  repeat' split
  all_goals exact hs

/-! ### Line -/

theorem putLine (hs : Booked a s) (n : Nat) (l : StringLine) : Booked a (s.putLine n l) := hs.strings _

theorem poll (hs : Booked a s) (n : Nat) : Booked a (s.poll n) := by
  unfold State.poll
  dsimp only
  repeat' split
  all_goals (repeat' first | exact hs | apply putNode | apply putLine)

theorem endPoll (hs : Booked a s) (n : Nat) : Booked a (s.endPoll n) := hs.putLine _ _

theorem missPoll (hs : Booked a s) (n : Nat) : Booked a (s.missPoll n) := by
  unfold State.missPoll
  repeat' split
  all_goals (repeat' first | exact hs | apply poll | apply endPoll)

theorem endCensus (hs : Booked a s) : Booked a s.endCensus := by
  unfold State.endCensus
  dsimp only
  repeat' split
  all_goals (repeat' first | exact hs | apply makeSixth | apply setAttention | apply censusLimit)

theorem reportCensus (hs : Booked a s) : Booked a s.reportCensus := by
  unfold State.reportCensus
  dsimp only
  repeat' split
  all_goals (repeat' first | exact hs | apply endCensus | apply censusReported)

theorem censusLimitDue (hs : Booked a s) : Booked a s.censusLimitDue := by
  unfold State.censusLimitDue
  repeat' split
  all_goals (repeat' first | exact hs | apply endCensus)

theorem takePower (hs : Booked a s) (d : Nat) (p : PowerState) : Booked a (s.takePower d p) := by
  unfold State.takePower
  dsimp only
  repeat' split
  all_goals (repeat' first | exact hs | apply putNode | apply onPowerLow)

theorem takeCommand (hs : Booked a s) (d : Nat) (taken : Option Nat) (o : NodeOutcome) :
    Booked a (s.takeCommand d taken o) := by
  unfold State.takeCommand
  dsimp only
  repeat' split
  all_goals (repeat' first | exact hs | apply putNode | apply endCommand | apply onResult)

theorem endOn (hs : Booked a s) (d : Nat) (f : Command → Bool) : Booked a (s.endOn d f) := by
  unfold State.endOn
  repeat' split
  all_goals (repeat' first | exact hs | apply endCommand)

theorem abandonCommands (hs : Booked a s) (d : Nat) (cause : AbandonCause) : Booked a (s.abandonCommands d cause) := by
  rw [State.abandonCommands_eq]
  exact hs.putNode _ _

theorem takeCensus (hs : Booked a s) (d : Nat) (lock : LockPosition) (present : Option (Option TagImage))
    (cause : CensusCause) :
    Booked a (s.takeCensus d lock present cause) := by
  unfold State.takeCensus
  dsimp only
  repeat' split
  all_goals
    repeat' first
      | exact hs | apply putNode | apply abandonCommands | apply reconcile | apply overflow
      | apply reportCensus

theorem deliver (hs : Booked a s) (d : Nat) (e : NodeEvent) : Booked a (s.deliver d e) := by
  unfold State.deliver
  dsimp only
  repeat' split
  all_goals
    repeat' first
      | exact hs | apply removal | apply onRemoved | apply onPresent | apply onUnlocked | apply onLocked
      | apply onLockFail | apply onTap | apply onKeypad | apply onFaultKey | apply endOn | apply takeCensus

theorem takeEvent (hs : Booked a s) (d : Nat) (e : Option (Nat × NodeEvent)) : Booked a (s.takeEvent d e) := by
  unfold State.takeEvent
  dsimp only
  repeat' split
  all_goals (repeat' first | exact hs | apply putNode | apply deliver)

theorem hearAnswering (hs : Booked a s) (d : Nat) (r : NodeReply) : Booked a (s.hearAnswering d r) := by
  unfold State.hearAnswering
  dsimp only
  repeat' first | exact hs | apply putNode | apply takePower | apply takeCommand | apply takeEvent

theorem hearSilent (hs : Booked a s) (d : Nat) (r : NodeReply) : Booked a (s.hearSilent d r) := by
  unfold State.hearSilent
  dsimp only
  repeat' split
  all_goals (repeat' first | exact hs | apply putNode | apply reconcile | apply reportCensus | apply takePower)

theorem hear (hs : Booked a s) (n : Nat) (r : NodeReply) : Booked a (s.hear n r) := by
  unfold State.hear
  dsimp only
  repeat' split
  all_goals (repeat' first | exact hs | apply poll | apply endPoll | apply hearAnswering | apply hearSilent)

theorem silenceDue (hs : Booked a s) (d : Nat) : Booked a (s.silenceDue d) := by
  unfold State.silenceDue
  dsimp only
  repeat' split
  all_goals (repeat' first | exact hs | apply abandonCommands | apply putNode | apply takeOffline)

theorem commandDue (hs : Booked a s) (d : Nat) (f : Command → Bool) : Booked a (s.commandDue d f) := by
  unfold State.commandDue
  repeat' split
  all_goals (repeat' first | exact hs | apply endCommand | apply onResult)

theorem resetNode (hs : Booked a s) (d : Nat) : Booked a (s.resetNode d) := by
  unfold State.resetNode
  dsimp only
  repeat' first | exact hs | apply abandonCommands | apply putNode | apply takeOffline

theorem resetString (hs : Booked a s) (n : Nat) : Booked a (s.resetString n) :=
  (hs.putLine _ _).foldl State.resetNode (fun _ d h => h.resetNode d) _

theorem of_ownStringReset (hs : Booked a s) (string : Nat) : Booked a (ownStringReset string s).1 := by
  unfold ownStringReset
  repeat' split
  all_goals (repeat' first | exact hs | apply resetString)

end Booked

end Sys2Proof.Machine
end

