-- ==== Sys2Proof/Proofs/ChangesAreNoticed.lean ====
section
/-! PROOFS. O7: no command loses a pending mark, and each change of what a notice watches sets its mark (R20, R76, R126, R136,
R139, R150). -/

namespace Sys2Proof.Machine

namespace Booked
variable {a s : State}

/-! ### The owners of requests -/

theorem link (hs : Booked a s) (l : Link) (hl : l.marks = s.link.marks) : Booked a (s.putLink l) :=
  hs.same (hl ▸ id) rfl

theorem makeStep (hs : Booked a s) (b : Option Nat) (t : Nat) : Booked a (s.makeStep b t) := by
  unfold State.makeStep
  repeat' split
  all_goals (repeat' first | exact hs | apply makeSixth)

theorem presentTime (hs : Booked a s) : Booked a s.presentTime :=
  (hs.foldl State.takeExpiry (fun _ d h => h.takeExpiry d) slotNumbers).examinePasses.examineHires.applyAt

theorem of_ownTimeSet (hs : Booked a s) (t : Nat) : Booked a (ownTimeSet t s).1 := by
  unfold ownTimeSet
  split
  · exact hs
  · exact ((hs.same (t := { s with clock := .running t s.elapsed }) id rfl).makeStep _ _).presentTime

theorem writeSetting (hs : Booked a s) (n : SettingName) (v : Nat) : Booked a (s.writeSetting n v) := by
  cases n <;> exact hs.same id rfl

theorem of_ownSettingSet (hs : Booked a s) (n v : Nat) : Booked a (ownSettingSet n v s).1 := by
  unfold ownSettingSet
  repeat' split
  · exact hs
  · exact hs
  · exact hs.writeSetting _ _

theorem of_ownSettingGet (hs : Booked a s) (n : Nat) : Booked a (ownSettingGet n s).1 := by
  unfold ownSettingGet
  repeat' split
  all_goals exact hs

theorem of_ownReset (hs : Booked a s) (m : Nat) : Booked a (ownReset m s).1 := by
  unfold ownReset
  repeat' split
  · exact hs
  · exact hs
  · exact hs.same (by simp [State.defaultStore]) (by simp [State.defaultStore])
  · exact hs

theorem of_ownPlanSet (hs : Booked a s) (code : Nat) (f : PlanArgs) : Booked a (ownPlanSet code f s).1 := by
  unfold ownPlanSet
  repeat' split
  all_goals first | exact hs | exact hs.same id rfl

theorem of_ownPolicySet (hs : Booked a s) (k c n : Nat) : Booked a (ownPolicySet k c n s).1 := by
  unfold ownPolicySet
  repeat' split
  all_goals first | exact hs | exact hs.same id rfl

theorem of_ownJournalRead (hs : Booked a s) (n : Nat) : Booked a (ownJournalRead n s).1 := by
  unfold ownJournalRead State.readOut
  dsimp only
  repeat' split
  all_goals first | exact hs | exact hs.same id rfl

theorem of_ownRemove (hs : Booked a s) (fatal : Bool) (e q : Nat) : Booked a (ownRemove fatal e q s).1 := by
  unfold ownRemove
  split
  · exact hs
  · cases fatal
    · exact (hs.same (t := s.removeRecord e q) id rfl).drain
    · exact (hs.same (t := { s.removeRecord e q with fatal := countUp (s.removeRecord e q).fatal }) id rfl).drain

theorem of_ownJournalAck (hs : Booked a s) (e q r : Nat) : Booked a (ownJournalAck e q r s).1 := by
  unfold ownJournalAck ownRetry
  repeat' split
  all_goals first | exact hs | exact hs.of_ownRemove _ _ _ | exact hs.same id rfl

theorem of_ownLinkState (hs : Booked a s) (v : Nat) : Booked a (ownLinkState v s).1 := by
  unfold ownLinkState
  split
  · exact hs.same id rfl
  · exact hs.same id rfl
  · exact hs

theorem of_ownDirective (hs : Booked a s) (id k : Nat) (args : List Byte) : Booked a (ownDirective id k args s).1 := by
  unfold ownDirective
  repeat' split
  · exact hs
  · exact hs
  · exact (hs.directives _).drain

theorem of_own (hs : Booked a s) (r : Request) : Booked a (own r s).1 := by
  cases r with
  | timeSet t => exact hs.of_ownTimeSet t
  | settingSet n v => exact hs.of_ownSettingSet n v
  | settingGet n => exact hs.of_ownSettingGet n
  | reset m => exact hs.of_ownReset m
  | stringReset l => exact hs.of_ownStringReset l
  | dockGet d => exact hs.of_ownDockGet d
  | planSet c f => exact hs.of_ownPlanSet c f
  | planGet c => exact hs.of_ownPlanGet c
  | terminalAuth t k h ref => exact hs.of_ownTerminalAuth t k h ref
  | passGet n => exact hs.of_ownPassGet n
  | passCancel n m => exact hs.of_ownPassCancel n m
  | tariffStageBand b e k r => exact hs.of_ownStageBand b e k r
  | tariffStageClear => exact hs.of_ownStageClear
  | tariffCommit m => exact hs.of_ownTariffCommit m
  | tariffGet n => exact hs.of_ownTariffGet n
  | policySet k c n => exact hs.of_ownPolicySet k c n
  | policyGet k => exact hs.of_ownPolicyGet k
  | riderReport t k x w => exact hs.of_ownRiderReport t k x w
  | vanOpen v c m => exact hs.of_ownVanOpen v c m
  | vanRelease d => exact hs.of_ownVanRelease d
  | vanClose n => exact hs.of_ownVanClose n
  | vanGet => exact hs.of_ownVanGet
  | journalRead n => exact hs.of_ownJournalRead n
  | journalAck e q r => exact hs.of_ownJournalAck e q r
  | journalReoffer => exact hs.same id rfl
  | linkState v => exact hs.of_ownLinkState v
  | directive id k a => exact hs.of_ownDirective id k a
  | statusGet | dockList | badKind | badLength => exact hs

/-! ### The link -/

theorem handOn (hs : Booked a s) : Booked a s.handOn := by
  unfold State.handOn
  repeat' split
  · exact hs
  · exact hs
  · exact (hs.of_own _).link _ (by rfl)

theorem takeRequest (hs : Booked a s) (tag : Nat) (r : Request) : Booked a (s.takeRequest tag r) := by
  unfold State.takeRequest
  dsimp only
  repeat' split
  · exact hs.link _ (by rfl)
  · exact (hs.link _ (by rfl)).handOn
  · exact hs.link _ (by rfl)

theorem takeFrames (hs : Booked a s) (frames : List RawFrame) : Booked a (s.takeFrames frames) :=
  hs.foldl _ (fun _ _ h => h.takeRequest _ _) frames

theorem searchAgain (hs : Booked a s) : Booked a s.searchAgain := (hs.link _ (by rfl)).takeFrames _

theorem gapDue (hs : Booked a s) : Booked a s.gapDue := by
  unfold State.gapDue
  split
  · exact hs.searchAgain
  · exact hs

theorem receiveRequest (hs : Booked a s) (tag : Nat) (r : Request) : Booked a (s.receiveRequest tag r) :=
  hs.searchAgain.takeRequest tag r

theorem takeBytes (hs : Booked a s) (bytes : List Byte) : Booked a (s.takeBytes bytes) := by
  unfold State.takeBytes
  split
  · exact hs
  · exact (hs.gapDue.link _ (by rfl)).takeFrames _

theorem gapThen (hs : Booked a s) (bytes : List Byte) :
    Booked a (if bytes = [] then s.gapDue else s.takeBytes bytes) := by
  split
  · exact hs.gapDue
  · exact hs.takeBytes bytes

theorem sentHeld (hs : Booked a s) (hr : s.sentHeld.power = .running) : Booked a s.sentHeld := by
  unfold State.sentHeld at hr ⊢
  repeat' split
  · exact hs.link _ (by rfl)
  · exact hs.link _ (by rfl)
  · simp_all
  · exact (hs.link _ (by rfl)).handOn

theorem sentReply (hs : Booked a s) (hr : s.sentReply.power = .running) : Booked a s.sentReply := by
  unfold State.sentReply at hr ⊢
  split at hr
  · exact hs.sentHeld hr
  · unfold State.sentBusy
    split <;> exact hs.link _ (by rfl)
  · exact hs
  · exact hs

theorem serveDirective (hs : Booked a s) (k : Nat) : Booked a (s.serveDirective k) := by
  unfold State.serveDirective
  split
  · exact hs.serveIfNext _
  · exact hs

theorem serveSixthIf (hs : Booked a s) (f : SixthRecord → Bool) : Booked a (s.serveSixthIf f) := by
  unfold State.serveSixthIf
  split
  · exact hs.serveIfNext _
  · exact hs

theorem serveVanIf (hs : Booked a s) (b : Bool) : Booked a (s.serveVanIf b) := by
  unfold State.serveVanIf
  split
  · exact hs.serveIfNext _
  · exact hs

theorem hireExamDue (hs : Booked a s) : Booked a s.hireExamDue := by
  unfold State.hireExamDue
  split
  · exact (hs.hireExamAt _).examineHires
  · exact hs

theorem passExamDue (hs : Booked a s) : Booked a s.passExamDue := by
  unfold State.passExamDue
  split
  · exact (hs.passExamAt _).examinePasses
  · exact hs

/-! ### What follows every command -/

theorem finish (hs : Booked a s) (b : State) : Booked a (s.finish b) := by
  have raised : Booked a (s.showAll.raiseReady b) := by
    unfold State.raiseReady
    split
    · exact hs.showAll.raise _
    · exact hs.showAll
  unfold State.finish State.chooseFrame
  split
  · exact raised.link _ (by rfl)
  · exact raised

end Booked

/-! ### The rows -/

/-- The own effect of a row keeps what `Booked` says, where it leaves the part running. -/
def KeepsBookings (f : State → State) : Prop := ∀ s, (f s).power = .running → Booked s (f s)

theorem State.running_booked {s : State} {f : State → State} (h : KeepsBookings f) (hs : s.power = .running)
    (ht : (s.running f).power = .running) : Booked s (s.running f) := by
  unfold State.running at ht ⊢
  rw [if_pos hs] at ht ⊢
  split
  · next hf => exact (h s hf).finish s
  · next hf => rw [if_neg hf] at ht; exact absurd ht hf

/-- Each row but those of power and NOTICE_SENT acts on a running part by an effect that keeps what `Booked` says. -/
theorem exec_keepsBookings {c : Instr} (hc : ofPower c = false) (hn : c ≠ .noticeSent) :
    ∃ f, KeepsBookings f ∧ ∀ s, exec c s = .next (s.running f) := by
  have request : ∀ {tag : Nat} {r : Request}, c.request? = some (tag, r) →
      ∃ f, KeepsBookings f ∧ ∀ s, exec c s = .next (s.running f) := fun h =>
    ⟨_, fun _ _ => Booked.refl.receiveRequest _ _, exec_of_request h⟩
  cases c with
  | powerOn | powerLoss | startUp => cases hc
  | noticeSent => exact absurd rfl hn
  | start => exact ⟨_, fun _ _ => Booked.refl.serveSixthIf _, fun _ => rfl⟩
  | dockCensus => exact ⟨_, fun _ _ => Booked.refl.serveSixthIf _, fun _ => rfl⟩
  | tariffApplied => exact ⟨_, fun _ _ => Booked.refl.serveSixthIf _, fun _ => rfl⟩
  | clockStep => exact ⟨_, fun _ _ => Booked.refl.serveSixthIf _, fun _ => rfl⟩
  | censusLimitExpiry => exact ⟨_, fun _ _ => Booked.refl.censusLimitDue, fun _ => rfl⟩
  | poll n => exact ⟨_, fun _ _ => Booked.refl.poll (stringNumber n), fun _ => rfl⟩
  | pollReply n r => exact ⟨_, fun _ _ => Booked.refl.hear (stringNumber n) r, fun _ => rfl⟩
  | missedPoll n => exact ⟨_, fun _ _ => Booked.refl.missPoll (stringNumber n), fun _ => rfl⟩
  | silenceTimeout d => exact ⟨_, fun _ _ => Booked.refl.silenceDue d, fun _ => rfl⟩
  | tagWriteTimeout d => exact ⟨_, fun _ _ => Booked.refl.commandDue d Command.isTagWrite, fun _ => rfl⟩
  | unlockTimeout d => exact ⟨_, fun _ _ => Booked.refl.commandDue d (fun c => c == .unlock), fun _ => rfl⟩
  | lockTimeout d => exact ⟨_, fun _ _ => Booked.refl.commandDue d (fun c => c == .lock), fun _ => rfl⟩
  | releaseWindowExpiry d => exact ⟨_, fun _ _ => Booked.refl.windowDue d, fun _ => rfl⟩
  | relockRetryExpiry d => exact ⟨_, fun _ _ => Booked.refl.relockDue d, fun _ => rfl⟩
  | offlineTimerExpiry d => exact ⟨_, fun _ _ => Booked.refl.offlineDue d, fun _ => rfl⟩
  | settleDeadline b => exact ⟨_, fun _ _ => Booked.refl.settleDue b, fun _ => rfl⟩
  | hireClose => exact ⟨_, fun _ _ => Booked.refl.serveIfNext .settle, fun _ => rfl⟩
  | passSettle => exact ⟨_, fun _ _ => Booked.refl.serveIfNext .passes, fun _ => rfl⟩
  | fault => exact ⟨_, fun _ _ => Booked.refl.serveIfNext .faults, fun _ => rfl⟩
  | hireAgeExamination => exact ⟨_, fun _ _ => Booked.refl.hireExamDue, fun _ => rfl⟩
  | passLimitExamination => exact ⟨_, fun _ _ => Booked.refl.passExamDue, fun _ => rfl⟩
  | passExpiry n => exact ⟨_, fun _ _ => Booked.refl.takeExpiry n, fun _ => rfl⟩
  | tariffApplyAt => exact ⟨_, fun _ _ => Booked.refl.applyAt, fun _ => rfl⟩
  | vanIdleTimeout => exact ⟨_, fun _ _ => Booked.refl.vanIdleDue, fun _ => rfl⟩
  | vanMove => exact ⟨_, fun _ _ => Booked.refl.serveVanIf true, fun _ => rfl⟩
  | vanSummary => exact ⟨_, fun _ _ => Booked.refl.serveVanIf false, fun _ => rfl⟩
  | frameGapTimeout b => exact ⟨_, fun _ _ => Booked.refl.gapThen b, fun _ => rfl⟩
  | discardedFrame b => exact ⟨_, fun _ _ => Booked.refl.takeBytes b, fun _ => rfl⟩
  | replySent => exact ⟨_, fun _ h => Booked.refl.sentReply h, fun _ => rfl⟩
  | badKind kind tag body =>
    exact ⟨_, fun _ _ => Booked.refl.receiveRequest tag (requestOfFrame kind body), fun _ => rfl⟩
  | bikeSet => exact ⟨_, fun _ _ => Booked.refl.serveDirective 1, fun _ => rfl⟩
  | dockClear => exact ⟨_, fun _ _ => Booked.refl.serveDirective 2, fun _ => rfl⟩
  | remoteRelease => exact ⟨_, fun _ _ => Booked.refl.serveDirective 3, fun _ => rfl⟩
  | denyAdd => exact ⟨_, fun _ _ => Booked.refl.serveDirective 4, fun _ => rfl⟩
  | denyRemove => exact ⟨_, fun _ _ => Booked.refl.serveDirective 5, fun _ => rfl⟩
  | hireClosed => exact ⟨_, fun _ _ => Booked.refl.serveDirective 6, fun _ => rfl⟩
  | passCharge => exact ⟨_, fun _ _ => Booked.refl.serveDirective 7, fun _ => rfl⟩
  | faultSummary => exact ⟨_, fun _ _ => Booked.refl.serveDirective 8, fun _ => rfl⟩
  | directiveCensus => exact ⟨_, fun _ _ => Booked.refl.serveDirective 9, fun _ => rfl⟩
  | _ => exact request rfl

theorem exec_booked {c : Instr} {s t : State} (hc : ofPower c = false) (hn : c ≠ .noticeSent) (hs : s.power = .running)
    (he : exec c s = .next t) (ht : t.power = .running) : Booked s t := by
  obtain ⟨f, hf, hrow⟩ := exec_keepsBookings hc hn
  rw [hrow] at he
  cases he
  exact State.running_booked hf hs ht

theorem exec_noticed {c : Instr} {s t : State} (hc : ofPower c = false) (hn : c ≠ .noticeSent) (hz : s.sized)
    (hs : s.power = .running) (he : exec c s = .next t) (ht : t.power = .running) : Noticed s t := by
  rcases exec_running c with rfl | ⟨l, rfl⟩ | ⟨l, rfl⟩ | rfl | ⟨f, hf, hrow⟩
  · cases hc
  · cases hc
  · cases hc
  · exact absurd rfl hn
  · rw [hrow] at he
    cases he
    exact hf.noticed hs hz ht

/-- Settles O7: `Noticed` gives the first five clauses, and `Booked` the reservations of docks. -/
theorem changesAreNoticed : Obligations.ChangesAreNoticed := by
  intro c s t hc hn hz hs he ht
  obtain ⟨marks, docks, passes, attention, van⟩ := exec_noticed hc hn hz hs he ht
  have booked := (exec_booked hc hn hs he ht).noticed
  refine ⟨marks, fun h => docks.resolve_left h, fun h => passes.resolve_left h, fun h => attention.resolve_left h,
    fun h => van.resolve_left h, fun h => booked.resolve_left h⟩

end Sys2Proof.Machine
end
